-- ==== Sys2Proof/Word.lean ====
section
/-! DEFINITION. The fixed-width words of the machine (spec 20_memory R102, 10_state R70). -/

namespace Sys2Proof

/-- A byte (R102). -/
abbrev Byte := BitVec 8
/-- A word, 16 bits (R102). -/
abbrev Word := BitVec 16
/-- A doubleword, 32 bits (R102). -/
abbrev Dword := BitVec 32
/-- A quadword, 64 bits (R102). -/
abbrev Qword := BitVec 64
/-- An extended-real register, 80 bits (10_state R70, R75). -/
abbrev Ext := BitVec 80

end Sys2Proof
end

