-- ==== Sys2Proof/Config.lean ====
section
/-! DEFINITION. What an implementation fixes and the values the spec leaves open. A free value is an opaque
constant with no body: nothing can be proved about which value it is. Those that may differ at each execution
are applied to the counter `State.fresh`. -/

namespace Sys2Proof.Config

/-- An undefined flag or condition bit (10_state R47, D42). Log 6. -/
opaque freeBit : Nat → Bool
/-- An undefined 32-bit (or shorter) result (D42). Log 6. -/
opaque freeDword : Nat → Dword
/-- An undefined extended-real result (D42). Log 6. -/
opaque freeExt : Nat → Ext

/-- Clock cycles of a step, less one (R64, D30: an unspecified positive amount). Log 7. -/
opaque clockTicks : Nat → Dword
/-- What performance counter 0 or 1 counts in a step (R65). Log 7. -/
opaque counterTicks : Bool → Nat → Dword

/-- Whether a translation uses a cached entry, and which: an index into the matching entries; past the end means
the tables (20_memory R127, D34). Log 8. -/
opaque tlbChoice : Nat → Nat

/-- What a port of `size` bytes returns (20_memory R140, P_IO). Log 9. -/
opaque ioRead : (fresh : Nat) → (port : Word) → (size : Nat) → Dword

/-- A byte read at a physical address that is not RAM: what a device answers, or any value where there is nothing
(20_memory R155, P_IO). Log 52. -/
opaque busByte : (fresh : Nat) → (addr : Nat) → Byte

/-- Which model-specific registers exist besides the time-stamp counter (10_state R66, P_MSR). Log 4. -/
opaque msrExists : Dword → Bool
/-- The reserved bits of a model-specific register, which a write may not change (P_MSR; 49 R661). Log 4. -/
opaque msrReserved : Dword → Qword
/-- The bits a model-specific register does not implement: undefined when read (48 R611). Log 4. -/
opaque msrMissing : Dword → Qword
/-- Whether a model-specific register is a memory-type-range register (49 R661). Log 4. -/
opaque msrIsMtrr : Dword → Bool
/-- A model-specific register after reset (P_RESET). Log 4. -/
opaque msrReset : Dword → Qword
/-- The index of the time-stamp counter among the model-specific registers (R66; 48 R611). Log 4. -/
def msrTsc : Dword := 0x10#32

/-- Width of a physical address when CR4.PAE = 1 (20_memory R126: 36 on the target). -/
def physBits : Nat := 36

/-- The longest instruction (30_encoding R167, P_INSN_MAXLEN). -/
def maxLen : Nat := 15

/-- The slack of BOUND's upper-bound test (40_int R238, D6): the operand size in bytes, as the source says. -/
def boundSlack (bytes : Nat) : Int := bytes

/-- The platform bits of CPUID's feature flags: APIC, MTRR, MCA (41_int R304, D10: "or-ed with (APIC, MTRR, MCA as
configured)"). Only bits 9, 12 and 14 are used. Log 12. -/
opaque cpuidPlatform : Dword

/-- What an address that memory does not list reads as. The spec gives RAM no contents at power-up (R90);
DESIGN CHOICE, log 1. -/
def unlistedByte : Byte := 0x00#8

/-- The number of exponent bits one FPREM pass reduces, less 32 (43 R383: N is between 32 and 63). Log 10. -/
opaque fpremN : Nat → BitVec 5

/-- A transcendental instruction of 42 R333. -/
inductive Transcendental | f2xm1 | fyl2x | fyl2xp1 | fpatan | fptan | fsin | fcos
deriving DecidableEq, Repr

/-- The rounded result of a transcendental instruction on ordinary operands `x`, `y` under rounding control
`rc` (P_TRANSCENDENTAL). Log 10. -/
opaque transcendental : Transcendental → (x y : Ext) → (rc : BitVec 2) → Ext
/-- Whether that result was rounded up (C1) and whether it is inexact (42 R333). Log 10. -/
opaque transcendentalUp : Transcendental → (x y : Ext) → (rc : BitVec 2) → Bool
/-- Whether that result is inexact (42 R333). Log 10. -/
opaque transcendentalInexact : Transcendental → (x y : Ext) → (rc : BitVec 2) → Bool

end Sys2Proof.Config
end

