-- ==== Sys2Proof/Machine/OpcodeMap.lean ====
section
/-! DEFINITION. The blank cells of the opcode maps (spec 30_encoding R190 to R200, R215). -/

namespace Sys2Proof

/-- Blank one-byte opcodes: 82, D6, F1 (R190). -/
def blankOne (op : Byte) : Bool :=
  op == 0x82#8 || op == 0xD6#8 || op == 0xF1#8

/-- The low nibbles of the cells of row `row` of the two-byte map (0F xx) that hold an instruction or, for B9,
the invalid opcode (R191). -/
def twoByteRow (row : Nat) : List Nat :=
  match row with
  | 0x0 => [0x0, 0x1, 0x2, 0x3, 0x6, 0x8, 0x9, 0xB]
  | 0x2 => [0x0, 0x1, 0x2, 0x3]
  | 0x3 => [0x0, 0x1, 0x2, 0x3]
  | 0x4 => [0, 1, 2, 3, 4, 5, 6, 7, 8, 9, 10, 11, 12, 13, 14, 15]
  | 0x6 => [0, 1, 2, 3, 4, 5, 6, 7, 8, 9, 0xA, 0xB, 0xE, 0xF]
  | 0x7 => [1, 2, 3, 4, 5, 6, 7, 0xE, 0xF]
  | 0x8 => [0, 1, 2, 3, 4, 5, 6, 7, 8, 9, 10, 11, 12, 13, 14, 15]
  | 0x9 => [0, 1, 2, 3, 4, 5, 6, 7, 8, 9, 10, 11, 12, 13, 14, 15]
  | 0xA => [0, 1, 2, 3, 4, 5, 8, 9, 0xA, 0xB, 0xC, 0xD, 0xF]
  | 0xB => [0, 1, 2, 3, 4, 5, 6, 7, 9, 0xA, 0xB, 0xC, 0xD, 0xE, 0xF]
  | 0xC => [0, 1, 7, 8, 9, 10, 11, 12, 13, 14, 15]
  | 0xD => [1, 2, 3, 5, 8, 9, 0xB, 0xC, 0xD, 0xF]
  | 0xE => [1, 2, 5, 8, 9, 0xB, 0xC, 0xD, 0xF]
  | 0xF => [1, 2, 3, 5, 8, 9, 0xA, 0xC, 0xD, 0xE]
  | _ => []

/-- Blank two-byte opcodes (R191). -/
def blankTwo (op : Byte) : Bool :=
  !(twoByteRow (op.toNat / 16)).contains (op.toNat % 16)

/-- Fields of a ModR/M byte (R171). -/
def modOf (m : Byte) : Nat := m.toNat / 64
/-- The reg/opcode field of a ModR/M byte (R171). -/
def regOf (m : Byte) : Nat := m.toNat / 8 % 8
/-- The r/m field of a ModR/M byte (R171). -/
def rmOf (m : Byte) : Nat := m.toNat % 8

/-- Blank memory forms of the escape opcodes D8 to DF, by the low three bits of the opcode and `reg` (R193 to
R200). -/
def blankEscMem (esc reg : Nat) : Bool :=
  match esc with
  | 1 => reg == 1
  | 3 => reg == 1 || reg == 4 || reg == 6
  | 5 => reg == 1 || reg == 5
  | 7 => reg == 1
  | _ => false

/-- Blank register forms of the escape opcodes, by the low six bits of ModR/M (R194 to R200). -/
def blankEscReg (esc low : Nat) : Bool :=
  match esc with
  | 1 => (0x11 ≤ low && low ≤ 0x1F) || low == 0x22 || low == 0x23 || low == 0x26 || low == 0x27 || low == 0x2F
  | 2 => 0x20 ≤ low && low != 0x29
  | 3 => low == 0x20 || low == 0x21 || (0x24 ≤ low && low ≤ 0x27) || 0x38 ≤ low
  | 4 => 0x10 ≤ low && low ≤ 0x1F
  | 5 => (0x08 ≤ low && low ≤ 0x0F) || 0x30 ≤ low
  | 6 => (0x10 ≤ low && low ≤ 0x1F) && low != 0x19
  | 7 => low ≤ 0x1F || (0x21 ≤ low && low ≤ 0x27) || 0x38 ≤ low
  | _ => false

/-- Blank members of the one-byte groups (R192) and blank escape cells (R193 to R200). -/
def blankExtOne (op m : Byte) : Bool :=
  let reg := regOf m
  match op.toNat with
  | 0xC0 | 0xC1 | 0xD0 | 0xD1 | 0xD2 | 0xD3 => reg == 6
  | 0xF6 | 0xF7 => reg == 1
  | 0xFE => 2 ≤ reg
  | 0xFF => reg == 7
  | 0xC6 | 0xC7 | 0x8F => reg != 0
  | 0xD9 | 0xDA | 0xDB | 0xDC | 0xDD | 0xDE | 0xDF =>
    if modOf m == 3 then blankEscReg (op.toNat % 8) (m.toNat % 64) else blankEscMem (op.toNat % 8) reg
  | _ => false

/-- Blank members of the two-byte groups 6, 7, 8, 9 and A (R192). -/
def blankExtTwo (op m : Byte) : Bool :=
  let reg := regOf m
  match op.toNat with
  | 0x00 => 6 ≤ reg
  | 0x01 => reg == 5
  | 0xBA => reg < 4
  | 0xC7 => reg != 1
  | 0x71 | 0x72 => modOf m != 3 || !(reg == 2 || reg == 4 || reg == 6)
  | 0x73 => modOf m != 3 || !(reg == 2 || reg == 6)
  | _ => false

end Sys2Proof
end

