-- ==== Sys2Proof/Syntax.lean ====
section
/-! DEFINITION. The instructions as data: operand forms and one constructor per mnemonic of
spec/opcode_table.json. A prefix byte is an instruction of its own that modifies the one after it
(30_encoding R161). Register numbers and operand forms are constructors, so no meaning sees raw encodings. -/

namespace Sys2Proof

/-- The eight general registers, in the order of their numbers (10_state R31). As a byte register a
number names AL, CL, DL, BL, AH, CH, DH, BH; as a word register AX to DI. -/
inductive Reg | eax | ecx | edx | ebx | esp | ebp | esi | edi
deriving DecidableEq, Repr

/-- The six segment registers, in the order of their numbers (10_state R50). -/
inductive SReg | es | cs | ss | ds | fs | gs
deriving DecidableEq, Repr

/-- A three-bit field that names one of eight like things: ST(i), an MMX register, or the number of a
segment, control or debug register before it is known to exist (30_encoding R184, R185, R211). -/
inductive Idx8 | i0 | i1 | i2 | i3 | i4 | i5 | i6 | i7
deriving DecidableEq, Repr

/-- Operand width: byte, or word/doubleword by the operand-size attribute (30_encoding R182, R201). -/
inductive Wd | b | v
deriving DecidableEq, Repr

/-- Base of a 16-bit effective address (30_encoding R173). -/
inductive Base16 | bxsi | bxdi | bpsi | bpdi | si | di | bp | bx
deriving DecidableEq, Repr

/-- Scale of an index register (30_encoding R175). -/
inductive Scale | x1 | x2 | x4 | x8
deriving DecidableEq, Repr

/-- A ModR/M memory operand: the 16-bit forms of R173, the 32-bit forms of R174 and R175. Displacements
are already sign-extended. -/
inductive Ea
  | a16 (base : Option Base16) (disp : Word)
  | a32 (base : Option Reg) (index : Option (Reg × Scale)) (disp : Dword)
deriving DecidableEq, Repr

/-- An `r/m` operand: a general register or memory (30_encoding R171). -/
inductive Rm
  | reg (r : Reg)
  | mem (ea : Ea)
deriving DecidableEq, Repr

/-- An `mm/m64` operand. -/
inductive MmRm
  | reg (r : Idx8)
  | mem (ea : Ea)
deriving DecidableEq, Repr

/-- Operand forms of ADD, OR, ADC, SBB, AND, SUB, XOR, CMP. An immediate of `w` size is zero-extended to 32
bits; `rmImm8` is the sign-extended byte of opcode 83H. -/
inductive AluForm
  | rmR (w : Wd) (dst : Rm) (src : Reg)
  | rRm (w : Wd) (dst : Reg) (src : Rm)
  | accImm (w : Wd) (imm : Dword)
  | rmImm (w : Wd) (dst : Rm) (imm : Dword)
  | rmImm8 (dst : Rm) (imm : Byte)
deriving DecidableEq, Repr

/-- Operand forms of TEST. -/
inductive TestForm
  | rmR (w : Wd) (a : Rm) (b : Reg)
  | accImm (w : Wd) (imm : Dword)
  | rmImm (w : Wd) (a : Rm) (imm : Dword)
deriving DecidableEq, Repr

/-- Operand forms of INC and DEC. -/
inductive IncForm
  | rm (w : Wd) (dst : Rm)
  | reg (r : Reg)
deriving DecidableEq, Repr

/-- The count of a shift or rotate: 1, CL or an immediate byte. -/
inductive Count | one | cl | imm (n : Byte)
deriving DecidableEq, Repr

/-- Operand forms of the shifts and rotates. -/
structure ShiftForm where
  w : Wd
  dst : Rm
  count : Count
deriving DecidableEq, Repr

/-- Operand forms of SHLD and SHRD. -/
inductive ShxdForm
  | imm (dst : Rm) (src : Reg) (n : Byte)
  | cl (dst : Rm) (src : Reg)
deriving DecidableEq, Repr

/-- Operand forms of BT, BTS, BTR, BTC. -/
inductive BtForm
  | rmR (base : Rm) (off : Reg)
  | rmImm (base : Rm) (off : Byte)
deriving DecidableEq, Repr

/-- An immediate of operand size (zero-extended to 32 bits), or a byte that is sign-extended. -/
inductive ImmForm
  | v (imm : Dword)
  | b (imm : Byte)
deriving DecidableEq, Repr

/-- Operand forms of CALL: near, by a relative offset of operand size (zero-extended here) or `r/m`; far, by a
direct pointer or a pointer in memory (41_int R280, R281). -/
inductive CallForm
  | rel (d : Dword)
  | rm (src : Rm)
  | ptr (sel : Word) (off : Dword)
  | mfar (m : Rm)
deriving DecidableEq, Repr

/-- Operand forms of JMP: as CALL, and a byte offset (45_int R471, R472). -/
inductive JmpForm
  | short (d : Byte)
  | rel (d : Dword)
  | rm (src : Rm)
  | ptr (sel : Word) (off : Dword)
  | mfar (m : Rm)
deriving DecidableEq, Repr

/-- Operand forms of RET: near or far, with the bytes to release (48_int R615, R616). -/
inductive RetForm
  | near (imm : Option Word)
  | far (imm : Option Word)
deriving DecidableEq, Repr

/-- Operand forms of IMUL: one, two or three operands (44_int R442). -/
inductive ImulForm
  | one (w : Wd) (src : Rm)
  | two (dst : Reg) (src : Rm)
  | three (dst : Reg) (src : Rm) (imm : ImmForm)
deriving DecidableEq, Repr

/-- MOV from (8C) and to (8E) the segment register numbered `s` (46_int R510). -/
inductive MovSregForm
  | fromSreg (dst : Rm) (s : Idx8)
  | toSreg (s : Idx8) (src : Rm)
deriving DecidableEq, Repr

/-- MOV from and to the control or debug register numbered `n`, or the encoding whose ModR/M byte has a mod other than
11, which is refused (46_int R511, R512). -/
inductive MovSysForm
  | fromSys (dst : Reg) (n : Idx8)
  | toSys (n : Idx8) (src : Reg)
  | badMod (write : Bool) (modrm : Byte)
deriving DecidableEq, Repr

/-- Target of a conditional jump: a byte offset, or one of operand size. -/
inductive JForm
  | short (d : Byte)
  | near (d : Dword)
deriving DecidableEq, Repr

/-- Port of IN and OUT: an immediate byte, or DX. -/
inductive Port
  | imm (n : Byte)
  | dx
deriving DecidableEq, Repr

/-- Operand forms of MOV between general registers, memory and immediates (46_int R510). -/
inductive MovForm
  | rmR (w : Wd) (dst : Rm) (src : Reg)
  | rRm (w : Wd) (dst : Reg) (src : Rm)
  | rImm (w : Wd) (dst : Reg) (imm : Dword)
  | rmImm (w : Wd) (dst : Rm) (imm : Dword)
  | accMoffs (w : Wd) (off : Dword)
  | moffsAcc (w : Wd) (off : Dword)
deriving DecidableEq, Repr

/-- Operand forms of PUSH (48_int R606). -/
inductive PushForm
  | rm (src : Rm)
  | reg (r : Reg)
  | imm (i : ImmForm)
  | sreg (s : SReg)
deriving DecidableEq, Repr

/-- Operand forms of POP (48_int R600); there is no POP CS. -/
inductive PopForm
  | rm (dst : Rm)
  | reg (r : Reg)
  | sreg (s : SReg)
deriving DecidableEq, Repr

/-- Operand forms of XCHG; `acc` is 91H to 97H. -/
inductive XchgForm
  | rmR (w : Wd) (a : Rm) (b : Reg)
  | acc (r : Reg)
deriving DecidableEq, Repr

/-- Operands of the FPU arithmetic instructions: m32real, m64real, ST(0),ST(i) or ST(i),ST(0). -/
inductive FArith
  | m32 (ea : Ea)
  | m64 (ea : Ea)
  | st0i (i : Idx8)
  | sti0 (i : Idx8)
deriving DecidableEq, Repr

/-- An m16int or m32int operand. -/
inductive FInt2
  | i16 (ea : Ea)
  | i32 (ea : Ea)
deriving DecidableEq, Repr

/-- An m16int, m32int or m64int operand. -/
inductive FInt3
  | i16 (ea : Ea)
  | i32 (ea : Ea)
  | i64 (ea : Ea)
deriving DecidableEq, Repr

/-- Operands of FCOM, FCOMP and FST: m32real, m64real or ST(i). -/
inductive FComForm
  | m32 (ea : Ea)
  | m64 (ea : Ea)
  | st (i : Idx8)
deriving DecidableEq, Repr

/-- Operands of FLD and FSTP: m32real, m64real, m80real or ST(i). -/
inductive FLdForm
  | m32 (ea : Ea)
  | m64 (ea : Ea)
  | m80 (ea : Ea)
  | st (i : Idx8)
deriving DecidableEq, Repr

/-- Destination of FSTSW: a word of memory, or AX. -/
inductive FStsw
  | mem (ea : Ea)
  | ax
deriving DecidableEq, Repr

/-- Operands of the MMX shifts. -/
inductive MShift
  | rm (d : Idx8) (src : MmRm)
  | imm (d : Idx8) (n : Byte)
deriving DecidableEq, Repr

/-- Operands of MOVD. -/
inductive MovdForm
  | toMm (d : Idx8) (src : Rm)
  | fromMm (dst : Rm) (s : Idx8)
deriving DecidableEq, Repr

/-- Operands of MOVQ. -/
inductive MovqForm
  | load (d : Idx8) (src : MmRm)
  | store (dst : MmRm) (s : Idx8)
deriving DecidableEq, Repr

/-- A blank cell of the opcode maps (30_encoding R215): a one-byte or two-byte opcode, or one with the
ModR/M byte that leaves it blank. -/
inductive BlankCell
  | op1 (op : Byte)
  | op2 (op : Byte)
  | ext1 (op modrm : Byte)
  | ext2 (op modrm : Byte)
deriving DecidableEq, Repr

/-- Every instruction: one constructor per mnemonic of the opcode table, its operand forms as arguments. -/
inductive Instr
  /-- (reserved): a blank cell of the opcode maps (30 R215). -/
  | reserved (cell : BlankCell)
  /-- AAD. -/
  | aad (base : Byte)
  /-- AAM. -/
  | aam (base : Byte)
  /-- ADC. -/
  | adc (f : AluForm)
  /-- ADD. -/
  | add (f : AluForm)
  /-- AND. -/
  | and_ (f : AluForm)
  /-- ARPL. -/
  | arpl (dst : Rm) (src : Reg)
  /-- BOUND. -/
  | bound (r : Reg) (bnd : Rm)
  /-- BSF. -/
  | bsf (dst : Reg) (src : Rm)
  /-- BSR. -/
  | bsr (dst : Reg) (src : Rm)
  /-- BSWAP. -/
  | bswap (r : Reg)
  /-- BT. -/
  | bt (f : BtForm)
  /-- BTC. -/
  | btc (f : BtForm)
  /-- BTR. -/
  | btr (f : BtForm)
  /-- BTS. -/
  | bts (f : BtForm)
  /-- CALL. -/
  | call (f : CallForm)
  /-- CMOVO. -/
  | cmovo (dst : Reg) (src : Rm)
  /-- CMOVNO. -/
  | cmovno (dst : Reg) (src : Rm)
  /-- CMOVB_CMOVC_CMOVNAE. -/
  | cmovb (dst : Reg) (src : Rm)
  /-- CMOVAE_CMOVNB_CMOVNC. -/
  | cmovae (dst : Reg) (src : Rm)
  /-- CMOVE_CMOVZ. -/
  | cmove (dst : Reg) (src : Rm)
  /-- CMOVNE_CMOVNZ. -/
  | cmovne (dst : Reg) (src : Rm)
  /-- CMOVBE_CMOVNA. -/
  | cmovbe (dst : Reg) (src : Rm)
  /-- CMOVA_CMOVNBE. -/
  | cmova (dst : Reg) (src : Rm)
  /-- CMOVS. -/
  | cmovs (dst : Reg) (src : Rm)
  /-- CMOVNS. -/
  | cmovns (dst : Reg) (src : Rm)
  /-- CMOVP_CMOVPE. -/
  | cmovp (dst : Reg) (src : Rm)
  /-- CMOVNP_CMOVPO. -/
  | cmovnp (dst : Reg) (src : Rm)
  /-- CMOVL_CMOVNGE. -/
  | cmovl (dst : Reg) (src : Rm)
  /-- CMOVGE_CMOVNL. -/
  | cmovge (dst : Reg) (src : Rm)
  /-- CMOVLE_CMOVNG. -/
  | cmovle (dst : Reg) (src : Rm)
  /-- CMOVG_CMOVNLE. -/
  | cmovg (dst : Reg) (src : Rm)
  /-- CMP. -/
  | cmp (f : AluForm)
  /-- CMPS. -/
  | cmps (w : Wd)
  /-- CMPXCHG. -/
  | cmpxchg (w : Wd) (dst : Rm) (src : Reg)
  /-- CMPXCHG8B. -/
  | cmpxchg8b (m : Rm)
  /-- DEC. -/
  | dec (f : IncForm)
  /-- DIV. -/
  | div (w : Wd) (src : Rm)
  /-- ENTER. -/
  | enter (size : Word) (level : Byte)
  /-- FADD. -/
  | fadd (f : FArith)
  /-- FADDP. -/
  | faddp (i : Idx8)
  /-- FIADD. -/
  | fiadd (f : FInt2)
  /-- FBLD. -/
  | fbld (m : Ea)
  /-- FBSTP. -/
  | fbstp (m : Ea)
  /-- FCMOVB. -/
  | fcmovb (i : Idx8)
  /-- FCMOVE. -/
  | fcmove (i : Idx8)
  /-- FCMOVBE. -/
  | fcmovbe (i : Idx8)
  /-- FCMOVU. -/
  | fcmovu (i : Idx8)
  /-- FCMOVNB. -/
  | fcmovnb (i : Idx8)
  /-- FCMOVNE. -/
  | fcmovne (i : Idx8)
  /-- FCMOVNBE. -/
  | fcmovnbe (i : Idx8)
  /-- FCMOVNU. -/
  | fcmovnu (i : Idx8)
  /-- FCOM. -/
  | fcom (f : FComForm)
  /-- FCOMP. -/
  | fcomp (f : FComForm)
  /-- FCOMI. -/
  | fcomi (i : Idx8)
  /-- FCOMIP. -/
  | fcomip (i : Idx8)
  /-- FUCOMI. -/
  | fucomi (i : Idx8)
  /-- FUCOMIP. -/
  | fucomip (i : Idx8)
  /-- FDIV. -/
  | fdiv (f : FArith)
  /-- FDIVP. -/
  | fdivp (i : Idx8)
  /-- FIDIV. -/
  | fidiv (f : FInt2)
  /-- FDIVR. -/
  | fdivr (f : FArith)
  /-- FDIVRP. -/
  | fdivrp (i : Idx8)
  /-- FIDIVR. -/
  | fidivr (f : FInt2)
  /-- FFREE. -/
  | ffree (i : Idx8)
  /-- FICOM. -/
  | ficom (f : FInt2)
  /-- FICOMP. -/
  | ficomp (f : FInt2)
  /-- FILD. -/
  | fild (f : FInt3)
  /-- FIST. -/
  | fist (f : FInt2)
  /-- FISTP. -/
  | fistp (f : FInt3)
  /-- FLD. -/
  | fld (f : FLdForm)
  /-- FLDCW. -/
  | fldcw (m : Ea)
  /-- FLDENV. -/
  | fldenv (m : Ea)
  /-- FMUL. -/
  | fmul (f : FArith)
  /-- FMULP. -/
  | fmulp (i : Idx8)
  /-- FIMUL. -/
  | fimul (f : FInt2)
  /-- FRSTOR. -/
  | frstor (m : Ea)
  /-- FSAVE: 9B DD /6: WAIT then FNSAVE. -/
  | fsave (m : Ea)
  /-- FNSAVE. -/
  | fnsave (m : Ea)
  /-- FST. -/
  | fst (f : FComForm)
  /-- FSTP. -/
  | fstp (f : FLdForm)
  /-- FSTCW: 9B D9 /7: WAIT then FNSTCW. -/
  | fstcw (m : Ea)
  /-- FNSTCW. -/
  | fnstcw (m : Ea)
  /-- FSTENV: 9B D9 /6: WAIT then FNSTENV. -/
  | fstenv (m : Ea)
  /-- FNSTENV. -/
  | fnstenv (m : Ea)
  /-- FSTSW: WAIT then FNSTSW. -/
  | fstsw (f : FStsw)
  /-- FNSTSW. -/
  | fnstsw (f : FStsw)
  /-- FSUB. -/
  | fsub (f : FArith)
  /-- FSUBP. -/
  | fsubp (i : Idx8)
  /-- FISUB. -/
  | fisub (f : FInt2)
  /-- FSUBR. -/
  | fsubr (f : FArith)
  /-- FSUBRP. -/
  | fsubrp (i : Idx8)
  /-- FISUBR. -/
  | fisubr (f : FInt2)
  /-- FUCOM. -/
  | fucom (i : Idx8)
  /-- FUCOMP. -/
  | fucomp (i : Idx8)
  /-- FXCH. -/
  | fxch (i : Idx8)
  /-- IDIV. -/
  | idiv (w : Wd) (src : Rm)
  /-- IMUL. -/
  | imul (f : ImulForm)
  /-- IN. -/
  | inp (w : Wd) (p : Port)
  /-- INC. -/
  | inc (f : IncForm)
  /-- INS. -/
  | ins (w : Wd)
  /-- INT: CD ib. -/
  | intN (n : Byte)
  /-- INVLPG. -/
  | invlpg (m : Rm)
  /-- JO. -/
  | jo (t : JForm)
  /-- JNO. -/
  | jno (t : JForm)
  /-- JB_JC_JNAE. -/
  | jb (t : JForm)
  /-- JAE_JNB_JNC. -/
  | jae (t : JForm)
  /-- JE_JZ. -/
  | je (t : JForm)
  /-- JNE_JNZ. -/
  | jne (t : JForm)
  /-- JBE_JNA. -/
  | jbe (t : JForm)
  /-- JA_JNBE. -/
  | ja (t : JForm)
  /-- JS. -/
  | js (t : JForm)
  /-- JNS. -/
  | jns (t : JForm)
  /-- JP_JPE. -/
  | jp (t : JForm)
  /-- JNP_JPO. -/
  | jnp (t : JForm)
  /-- JL_JNGE. -/
  | jl (t : JForm)
  /-- JGE_JNL. -/
  | jge (t : JForm)
  /-- JLE_JNG. -/
  | jle (t : JForm)
  /-- JG_JNLE. -/
  | jg (t : JForm)
  /-- JCXZ. -/
  | jcxz (rel : Byte)
  /-- JECXZ. -/
  | jecxz (rel : Byte)
  /-- JMP. -/
  | jmp (f : JmpForm)
  /-- LAR. -/
  | lar (dst : Reg) (src : Rm)
  /-- LDS. -/
  | lds (dst : Reg) (m : Rm)
  /-- LES. -/
  | les (dst : Reg) (m : Rm)
  /-- LSS. -/
  | lss (dst : Reg) (m : Rm)
  /-- LFS. -/
  | lfs (dst : Reg) (m : Rm)
  /-- LGS. -/
  | lgs (dst : Reg) (m : Rm)
  /-- LEA. -/
  | lea (dst : Reg) (m : Rm)
  /-- LGDT. -/
  | lgdt (m : Rm)
  /-- LIDT. -/
  | lidt (m : Rm)
  /-- LLDT. -/
  | lldt (src : Rm)
  /-- LMSW. -/
  | lmsw (src : Rm)
  /-- LODS. -/
  | lods (w : Wd)
  /-- LOOP. -/
  | loop (rel : Byte)
  /-- LOOPE. -/
  | loope (rel : Byte)
  /-- LOOPNE. -/
  | loopne (rel : Byte)
  /-- LSL. -/
  | lsl (dst : Reg) (src : Rm)
  /-- LTR. -/
  | ltr (src : Rm)
  /-- MOV. -/
  | mov (f : MovForm)
  /-- MOV: to and from segment registers (46 R510). -/
  | movSreg (f : MovSregForm)
  /-- MOV: to and from control registers (46 R511). -/
  | movCr (f : MovSysForm)
  /-- MOV: to and from debug registers (46 R512). -/
  | movDr (f : MovSysForm)
  /-- MOVD. -/
  | movd (f : MovdForm)
  /-- MOVQ. -/
  | movq (f : MovqForm)
  /-- MOVS. -/
  | movs (w : Wd)
  /-- MOVSX: w gives the source: byte or word. -/
  | movsx (w : Wd) (dst : Reg) (src : Rm)
  /-- MOVZX: w gives the source: byte or word. -/
  | movzx (w : Wd) (dst : Reg) (src : Rm)
  /-- MUL. -/
  | mul (w : Wd) (src : Rm)
  /-- NEG. -/
  | neg (w : Wd) (dst : Rm)
  /-- NOT. -/
  | not_ (w : Wd) (dst : Rm)
  /-- OR. -/
  | or_ (f : AluForm)
  /-- OUT. -/
  | outp (w : Wd) (p : Port)
  /-- OUTS. -/
  | outs (w : Wd)
  /-- PACKSSWB. -/
  | packsswb (d : Idx8) (src : MmRm)
  /-- PACKSSDW. -/
  | packssdw (d : Idx8) (src : MmRm)
  /-- PACKUSWB. -/
  | packuswb (d : Idx8) (src : MmRm)
  /-- PADDB. -/
  | paddb (d : Idx8) (src : MmRm)
  /-- PADDW. -/
  | paddw (d : Idx8) (src : MmRm)
  /-- PADDD. -/
  | paddd (d : Idx8) (src : MmRm)
  /-- PADDSB. -/
  | paddsb (d : Idx8) (src : MmRm)
  /-- PADDSW. -/
  | paddsw (d : Idx8) (src : MmRm)
  /-- PADDUSB. -/
  | paddusb (d : Idx8) (src : MmRm)
  /-- PADDUSW. -/
  | paddusw (d : Idx8) (src : MmRm)
  /-- PAND. -/
  | pand (d : Idx8) (src : MmRm)
  /-- PANDN. -/
  | pandn (d : Idx8) (src : MmRm)
  /-- PCMPEQB. -/
  | pcmpeqb (d : Idx8) (src : MmRm)
  /-- PCMPEQW. -/
  | pcmpeqw (d : Idx8) (src : MmRm)
  /-- PCMPEQD. -/
  | pcmpeqd (d : Idx8) (src : MmRm)
  /-- PCMPGTB. -/
  | pcmpgtb (d : Idx8) (src : MmRm)
  /-- PCMPGTW. -/
  | pcmpgtw (d : Idx8) (src : MmRm)
  /-- PCMPGTD. -/
  | pcmpgtd (d : Idx8) (src : MmRm)
  /-- PMADDWD. -/
  | pmaddwd (d : Idx8) (src : MmRm)
  /-- PMULHW. -/
  | pmulhw (d : Idx8) (src : MmRm)
  /-- PMULLW. -/
  | pmullw (d : Idx8) (src : MmRm)
  /-- POR. -/
  | por (d : Idx8) (src : MmRm)
  /-- PSLLW. -/
  | psllw (f : MShift)
  /-- PSLLD. -/
  | pslld (f : MShift)
  /-- PSLLQ. -/
  | psllq (f : MShift)
  /-- PSRAW. -/
  | psraw (f : MShift)
  /-- PSRAD. -/
  | psrad (f : MShift)
  /-- PSRLW. -/
  | psrlw (f : MShift)
  /-- PSRLD. -/
  | psrld (f : MShift)
  /-- PSRLQ. -/
  | psrlq (f : MShift)
  /-- PSUBB. -/
  | psubb (d : Idx8) (src : MmRm)
  /-- PSUBW. -/
  | psubw (d : Idx8) (src : MmRm)
  /-- PSUBD. -/
  | psubd (d : Idx8) (src : MmRm)
  /-- PSUBSB. -/
  | psubsb (d : Idx8) (src : MmRm)
  /-- PSUBSW. -/
  | psubsw (d : Idx8) (src : MmRm)
  /-- PSUBUSB. -/
  | psubusb (d : Idx8) (src : MmRm)
  /-- PSUBUSW. -/
  | psubusw (d : Idx8) (src : MmRm)
  /-- PUNPCKHBW. -/
  | punpckhbw (d : Idx8) (src : MmRm)
  /-- PUNPCKHWD. -/
  | punpckhwd (d : Idx8) (src : MmRm)
  /-- PUNPCKHDQ. -/
  | punpckhdq (d : Idx8) (src : MmRm)
  /-- PUNPCKLBW. -/
  | punpcklbw (d : Idx8) (src : MmRm)
  /-- PUNPCKLWD. -/
  | punpcklwd (d : Idx8) (src : MmRm)
  /-- PUNPCKLDQ. -/
  | punpckldq (d : Idx8) (src : MmRm)
  /-- PXOR. -/
  | pxor (d : Idx8) (src : MmRm)
  /-- POP. -/
  | pop (f : PopForm)
  /-- PUSH. -/
  | push (f : PushForm)
  /-- ROL. -/
  | rol (f : ShiftForm)
  /-- ROR. -/
  | ror (f : ShiftForm)
  /-- RCL. -/
  | rcl (f : ShiftForm)
  /-- RCR. -/
  | rcr (f : ShiftForm)
  /-- RET. -/
  | ret (f : RetForm)
  /-- SAL_SHL. -/
  | salShl (f : ShiftForm)
  /-- SHR. -/
  | shr (f : ShiftForm)
  /-- SAR. -/
  | sar (f : ShiftForm)
  /-- SBB. -/
  | sbb (f : AluForm)
  /-- SCAS. -/
  | scas (w : Wd)
  /-- SETO. -/
  | seto (dst : Rm)
  /-- SETNO. -/
  | setno (dst : Rm)
  /-- SETB_SETC_SETNAE. -/
  | setb (dst : Rm)
  /-- SETAE_SETNB_SETNC. -/
  | setae (dst : Rm)
  /-- SETE_SETZ. -/
  | sete (dst : Rm)
  /-- SETNE_SETNZ. -/
  | setne (dst : Rm)
  /-- SETBE_SETNA. -/
  | setbe (dst : Rm)
  /-- SETA_SETNBE. -/
  | seta (dst : Rm)
  /-- SETS. -/
  | sets (dst : Rm)
  /-- SETNS. -/
  | setns (dst : Rm)
  /-- SETP_SETPE. -/
  | setp (dst : Rm)
  /-- SETNP_SETPO. -/
  | setnp (dst : Rm)
  /-- SETL_SETNGE. -/
  | setl (dst : Rm)
  /-- SETGE_SETNL. -/
  | setge (dst : Rm)
  /-- SETLE_SETNG. -/
  | setle (dst : Rm)
  /-- SETG_SETNLE. -/
  | setg (dst : Rm)
  /-- SGDT. -/
  | sgdt (m : Rm)
  /-- SIDT. -/
  | sidt (m : Rm)
  /-- SHLD. -/
  | shld (f : ShxdForm)
  /-- SHRD. -/
  | shrd (f : ShxdForm)
  /-- SLDT. -/
  | sldt (dst : Rm)
  /-- SMSW. -/
  | smsw (dst : Rm)
  /-- STOS. -/
  | stos (w : Wd)
  /-- STR. -/
  | str (dst : Rm)
  /-- SUB. -/
  | sub (f : AluForm)
  /-- TEST. -/
  | test (f : TestForm)
  /-- VERR. -/
  | verr (src : Rm)
  /-- VERW. -/
  | verw (src : Rm)
  /-- XADD. -/
  | xadd (w : Wd) (dst : Rm) (src : Reg)
  /-- XCHG. -/
  | xchg (f : XchgForm)
  /-- XOR. -/
  | xor_ (f : AluForm)
  /-- SEG=CS: segment-override prefix (30 R164). -/
  | segCs
  /-- SEG=SS: segment-override prefix (30 R164). -/
  | segSs
  /-- SEG=DS: segment-override prefix (30 R164). -/
  | segDs
  /-- SEG=ES: segment-override prefix (30 R164). -/
  | segEs
  /-- SEG=FS: segment-override prefix (30 R164). -/
  | segFs
  /-- SEG=GS: segment-override prefix (30 R164). -/
  | segGs
  /-- operand-size_override: 66H prefix (30 R165). -/
  | opSize
  /-- address-size_override: 67H prefix (30 R165). -/
  | adSize
  /-- LOCK: F0H prefix (30 R162). -/
  | lock
  /-- REP: F3H prefix (30 R163). -/
  | rep
  /-- REPNE: F2H prefix (30 R163). -/
  | repne
  /-- (reserved): 0F B9, the invalid opcode (30 R216). -/
  | invalidOpcode
  /-- AAA. -/
  | aaa
  /-- AAS. -/
  | aas
  /-- CBW. -/
  | cbw
  /-- CWDE. -/
  | cwde
  /-- CLC. -/
  | clc
  /-- CLD. -/
  | cld
  /-- CLI. -/
  | cli
  /-- CLTS. -/
  | clts
  /-- CMC. -/
  | cmc
  /-- CPUID. -/
  | cpuid
  /-- CWD. -/
  | cwd
  /-- CDQ. -/
  | cdq
  /-- DAA. -/
  | daa
  /-- DAS. -/
  | das
  /-- EMMS. -/
  | emms
  /-- F2XM1. -/
  | f2xm1
  /-- FABS. -/
  | fabs
  /-- FCHS. -/
  | fchs
  /-- FCLEX: 9B DB E2: WAIT then FNCLEX. -/
  | fclex
  /-- FNCLEX. -/
  | fnclex
  /-- FCOMPP. -/
  | fcompp
  /-- FCOS. -/
  | fcos
  /-- FDECSTP. -/
  | fdecstp
  /-- FINCSTP. -/
  | fincstp
  /-- FINIT: 9B DB E3: WAIT then FNINIT. -/
  | finit
  /-- FNINIT. -/
  | fninit
  /-- FLD1. -/
  | fld1
  /-- FLDL2T. -/
  | fldl2t
  /-- FLDL2E. -/
  | fldl2e
  /-- FLDPI. -/
  | fldpi
  /-- FLDLG2. -/
  | fldlg2
  /-- FLDLN2. -/
  | fldln2
  /-- FLDZ. -/
  | fldz
  /-- FNOP. -/
  | fnop
  /-- FPATAN. -/
  | fpatan
  /-- FPREM. -/
  | fprem
  /-- FPREM1. -/
  | fprem1
  /-- FPTAN. -/
  | fptan
  /-- FRNDINT. -/
  | frndint
  /-- FSCALE. -/
  | fscale
  /-- FSIN. -/
  | fsin
  /-- FSINCOS. -/
  | fsincos
  /-- FSQRT. -/
  | fsqrt
  /-- FTST. -/
  | ftst
  /-- FUCOMPP. -/
  | fucompp
  /-- FXAM. -/
  | fxam
  /-- FXTRACT. -/
  | fxtract
  /-- FYL2X. -/
  | fyl2x
  /-- FYL2XP1. -/
  | fyl2xp1
  /-- HLT. -/
  | hlt
  /-- INT: CC, the breakpoint. -/
  | int3
  /-- INTO. -/
  | into
  /-- INVD. -/
  | invd
  /-- IRET. -/
  | iret
  /-- IRETD. -/
  | iretd
  /-- LAHF. -/
  | lahf
  /-- LEAVE. -/
  | leave
  /-- NOP. -/
  | nop
  /-- POPA. -/
  | popa
  /-- POPAD. -/
  | popad
  /-- POPF. -/
  | popf
  /-- POPFD. -/
  | popfd
  /-- PUSHA. -/
  | pusha
  /-- PUSHAD. -/
  | pushad
  /-- PUSHF. -/
  | pushf
  /-- PUSHFD. -/
  | pushfd
  /-- RDMSR. -/
  | rdmsr
  /-- RDPMC. -/
  | rdpmc
  /-- RDTSC. -/
  | rdtsc
  /-- RSM. -/
  | rsm
  /-- SAHF. -/
  | sahf
  /-- STC. -/
  | stc
  /-- STD. -/
  | std
  /-- STI. -/
  | sti
  /-- UD2. -/
  | ud2
  /-- WAIT. -/
  | wait
  /-- WBINVD. -/
  | wbinvd
  /-- WRMSR. -/
  | wrmsr
  /-- XLAT. -/
  | xlat
deriving DecidableEq, Repr

end Sys2Proof
end

