-- ==== Sys2Proof/WellFormed.lean ====
section
/-! DEFINITION. Which instruction terms an encoding can express, in a given decoding context. -/

namespace Sys2Proof

/-- What decoding depends on besides the bytes: the operand-size and address-size attributes (30_encoding R168,
R169), and whether 9B is WAIT by itself, whatever follows it (R223). -/
structure Ctx where
  os32 : Bool
  as32 : Bool
  waitAlone : Bool
deriving DecidableEq, Repr

namespace WellFormed

/-- A memory operand has the form of the address size; ESP is no index (R175). -/
def ea (c : Ctx) : Ea → Bool
  | .a16 _ _ => !c.as32
  | .a32 _ none _ => c.as32
  | .a32 _ (some (i, _)) _ => c.as32 && i != .esp

/-- An `r/m` operand. -/
def rm (c : Ctx) : Rm → Bool
  | .reg _ => true
  | .mem a => ea c a

/-- An `mm/m64` operand. -/
def mmRm (c : Ctx) : MmRm → Bool
  | .reg _ => true
  | .mem a => ea c a

/-- An operand-size value fits the operand size. -/
def opImm (c : Ctx) (i : Dword) : Bool := c.os32 || i.toNat < 0x10000

/-- An immediate fits its width. -/
def imm (c : Ctx) (w : Wd) (i : Dword) : Bool :=
  match w with
  | .b => i.toNat < 0x100
  | .v => opImm c i

/-- An address-size offset fits the address size. -/
def moffs (c : Ctx) (o : Dword) : Bool := c.as32 || o.toNat < 0x10000

def alu (c : Ctx) : AluForm → Bool
  | .rmR _ d _ => rm c d
  | .rRm _ _ s => rm c s
  | .accImm w i => imm c w i
  | .rmImm w d i => rm c d && imm c w i
  | .rmImm8 d _ => rm c d

def test (c : Ctx) : TestForm → Bool
  | .rmR _ d _ => rm c d
  | .accImm w i => imm c w i
  | .rmImm w d i => rm c d && imm c w i

def inc (c : Ctx) : IncForm → Bool
  | .rm _ d => rm c d
  | .reg _ => true

def shxd (c : Ctx) : ShxdForm → Bool
  | .imm d _ _ => rm c d
  | .cl d _ => rm c d

def bt (c : Ctx) : BtForm → Bool
  | .rmR d _ => rm c d
  | .rmImm d _ => rm c d

def immForm (c : Ctx) : ImmForm → Bool
  | .v i => opImm c i
  | .b _ => true

def call (c : Ctx) : CallForm → Bool
  | .rel d => opImm c d
  | .rm s => rm c s
  | .ptr _ o => opImm c o
  | .mfar m => rm c m

def jmp (c : Ctx) : JmpForm → Bool
  | .short _ => true
  | .rel d => opImm c d
  | .rm s => rm c s
  | .ptr _ o => opImm c o
  | .mfar m => rm c m

def imul (c : Ctx) : ImulForm → Bool
  | .one _ s => rm c s
  | .two _ s => rm c s
  | .three _ s i => rm c s && immForm c i

def movSys : MovSysForm → Bool
  | .fromSys _ _ => true
  | .toSys _ _ => true
  | .badMod _ m => decide (m < 0xC0#8)

def movSreg (c : Ctx) : MovSregForm → Bool
  | .fromSreg d _ => rm c d
  | .toSreg _ s => rm c s

def jcc (c : Ctx) : JForm → Bool
  | .short _ => true
  | .near d => opImm c d

def mov (c : Ctx) : MovForm → Bool
  | .rmR _ d _ => rm c d
  | .rRm _ _ s => rm c s
  | .rImm w _ i => imm c w i
  | .rmImm w d i => rm c d && imm c w i
  | .accMoffs _ o => moffs c o
  | .moffsAcc _ o => moffs c o

def push (c : Ctx) : PushForm → Bool
  | .rm s => rm c s
  | .reg _ => true
  | .imm i => immForm c i
  | .sreg _ => true

/-- There is no POP CS (30_encoding R188). -/
def pop (c : Ctx) : PopForm → Bool
  | .rm d => rm c d
  | .reg _ => true
  | .sreg s => s != .cs

/-- XCHG of the accumulator with itself is NOP (46 R520). -/
def xchg (c : Ctx) : XchgForm → Bool
  | .rmR _ a _ => rm c a
  | .acc r => r != .eax

def fArith (c : Ctx) : FArith → Bool
  | .m32 a => ea c a
  | .m64 a => ea c a
  | .st0i _ => true
  | .sti0 _ => true

def fInt2 (c : Ctx) : FInt2 → Bool
  | .i16 a => ea c a
  | .i32 a => ea c a

def fInt3 (c : Ctx) : FInt3 → Bool
  | .i16 a => ea c a
  | .i32 a => ea c a
  | .i64 a => ea c a

def fCom (c : Ctx) : FComForm → Bool
  | .m32 a => ea c a
  | .m64 a => ea c a
  | .st _ => true

def fLd (c : Ctx) : FLdForm → Bool
  | .m32 a => ea c a
  | .m64 a => ea c a
  | .m80 a => ea c a
  | .st _ => true

def fStsw (c : Ctx) : FStsw → Bool
  | .mem a => ea c a
  | .ax => true

def mshift (c : Ctx) : MShift → Bool
  | .rm _ s => mmRm c s
  | .imm _ _ => true

def movd (c : Ctx) : MovdForm → Bool
  | .toMm _ s => rm c s
  | .fromMm d _ => rm c d

def movq (c : Ctx) : MovqForm → Bool
  | .load _ s => mmRm c s
  | .store d _ => mmRm c d

/-- The cell is blank in the maps. -/
def blank : BlankCell → Bool
  | .op1 op => blankOne op
  | .op2 op => blankTwo op
  | .ext1 op m => blankExtOne op m
  | .ext2 op m => blankExtTwo op m

end WellFormed

/-- The terms that decoding in context `c` can produce. -/
def Instr.wf (c : Ctx) : Instr → Bool
  | .reserved cell => WellFormed.blank cell
  | .aad _ => true
  | .aam _ => true
  | .adc f => WellFormed.alu c f
  | .add f => WellFormed.alu c f
  | .and_ f => WellFormed.alu c f
  | .arpl dst _ => WellFormed.rm c dst
  | .bound _ bnd => WellFormed.rm c bnd
  | .bsf _ src => WellFormed.rm c src
  | .bsr _ src => WellFormed.rm c src
  | .bswap _ => true
  | .bt f => WellFormed.bt c f
  | .btc f => WellFormed.bt c f
  | .btr f => WellFormed.bt c f
  | .bts f => WellFormed.bt c f
  | .call f => WellFormed.call c f
  | .cmovo _ src => WellFormed.rm c src
  | .cmovno _ src => WellFormed.rm c src
  | .cmovb _ src => WellFormed.rm c src
  | .cmovae _ src => WellFormed.rm c src
  | .cmove _ src => WellFormed.rm c src
  | .cmovne _ src => WellFormed.rm c src
  | .cmovbe _ src => WellFormed.rm c src
  | .cmova _ src => WellFormed.rm c src
  | .cmovs _ src => WellFormed.rm c src
  | .cmovns _ src => WellFormed.rm c src
  | .cmovp _ src => WellFormed.rm c src
  | .cmovnp _ src => WellFormed.rm c src
  | .cmovl _ src => WellFormed.rm c src
  | .cmovge _ src => WellFormed.rm c src
  | .cmovle _ src => WellFormed.rm c src
  | .cmovg _ src => WellFormed.rm c src
  | .cmp f => WellFormed.alu c f
  | .cmps _ => true
  | .cmpxchg _ dst _ => WellFormed.rm c dst
  | .cmpxchg8b m => WellFormed.rm c m
  | .dec f => WellFormed.inc c f
  | .div _ src => WellFormed.rm c src
  | .enter _ _ => true
  | .fadd f => WellFormed.fArith c f
  | .faddp _ => true
  | .fiadd f => WellFormed.fInt2 c f
  | .fbld m => WellFormed.ea c m
  | .fbstp m => WellFormed.ea c m
  | .fcmovb _ => true
  | .fcmove _ => true
  | .fcmovbe _ => true
  | .fcmovu _ => true
  | .fcmovnb _ => true
  | .fcmovne _ => true
  | .fcmovnbe _ => true
  | .fcmovnu _ => true
  | .fcom f => WellFormed.fCom c f
  | .fcomp f => WellFormed.fCom c f
  | .fcomi _ => true
  | .fcomip _ => true
  | .fucomi _ => true
  | .fucomip _ => true
  | .fdiv f => WellFormed.fArith c f
  | .fdivp _ => true
  | .fidiv f => WellFormed.fInt2 c f
  | .fdivr f => WellFormed.fArith c f
  | .fdivrp _ => true
  | .fidivr f => WellFormed.fInt2 c f
  | .ffree _ => true
  | .ficom f => WellFormed.fInt2 c f
  | .ficomp f => WellFormed.fInt2 c f
  | .fild f => WellFormed.fInt3 c f
  | .fist f => WellFormed.fInt2 c f
  | .fistp f => WellFormed.fInt3 c f
  | .fld f => WellFormed.fLd c f
  | .fldcw m => WellFormed.ea c m
  | .fldenv m => WellFormed.ea c m
  | .fmul f => WellFormed.fArith c f
  | .fmulp _ => true
  | .fimul f => WellFormed.fInt2 c f
  | .frstor m => WellFormed.ea c m
  | .fsave m => WellFormed.ea c m && !c.waitAlone
  | .fnsave m => WellFormed.ea c m
  | .fst f => WellFormed.fCom c f
  | .fstp f => WellFormed.fLd c f
  | .fstcw m => WellFormed.ea c m && !c.waitAlone
  | .fnstcw m => WellFormed.ea c m
  | .fstenv m => WellFormed.ea c m && !c.waitAlone
  | .fnstenv m => WellFormed.ea c m
  | .fstsw f => WellFormed.fStsw c f && !c.waitAlone
  | .fnstsw f => WellFormed.fStsw c f
  | .fsub f => WellFormed.fArith c f
  | .fsubp _ => true
  | .fisub f => WellFormed.fInt2 c f
  | .fsubr f => WellFormed.fArith c f
  | .fsubrp _ => true
  | .fisubr f => WellFormed.fInt2 c f
  | .fucom _ => true
  | .fucomp _ => true
  | .fxch _ => true
  | .idiv _ src => WellFormed.rm c src
  | .imul f => WellFormed.imul c f
  | .inp _ _ => true
  | .inc f => WellFormed.inc c f
  | .ins _ => true
  | .intN _ => true
  | .invlpg m => WellFormed.rm c m
  | .jo t => WellFormed.jcc c t
  | .jno t => WellFormed.jcc c t
  | .jb t => WellFormed.jcc c t
  | .jae t => WellFormed.jcc c t
  | .je t => WellFormed.jcc c t
  | .jne t => WellFormed.jcc c t
  | .jbe t => WellFormed.jcc c t
  | .ja t => WellFormed.jcc c t
  | .js t => WellFormed.jcc c t
  | .jns t => WellFormed.jcc c t
  | .jp t => WellFormed.jcc c t
  | .jnp t => WellFormed.jcc c t
  | .jl t => WellFormed.jcc c t
  | .jge t => WellFormed.jcc c t
  | .jle t => WellFormed.jcc c t
  | .jg t => WellFormed.jcc c t
  | .jcxz _ => !c.as32
  | .jecxz _ => c.as32
  | .jmp f => WellFormed.jmp c f
  | .lar _ src => WellFormed.rm c src
  | .lds _ m => WellFormed.rm c m
  | .les _ m => WellFormed.rm c m
  | .lss _ m => WellFormed.rm c m
  | .lfs _ m => WellFormed.rm c m
  | .lgs _ m => WellFormed.rm c m
  | .lea _ m => WellFormed.rm c m
  | .lgdt m => WellFormed.rm c m
  | .lidt m => WellFormed.rm c m
  | .lldt src => WellFormed.rm c src
  | .lmsw src => WellFormed.rm c src
  | .lods _ => true
  | .loop _ => true
  | .loope _ => true
  | .loopne _ => true
  | .lsl _ src => WellFormed.rm c src
  | .ltr src => WellFormed.rm c src
  | .mov f => WellFormed.mov c f
  | .movSreg f => WellFormed.movSreg c f
  | .movCr f => WellFormed.movSys f
  | .movDr f => WellFormed.movSys f
  | .movd f => WellFormed.movd c f
  | .movq f => WellFormed.movq c f
  | .movs _ => true
  | .movsx _ _ src => WellFormed.rm c src
  | .movzx _ _ src => WellFormed.rm c src
  | .mul _ src => WellFormed.rm c src
  | .neg _ dst => WellFormed.rm c dst
  | .not_ _ dst => WellFormed.rm c dst
  | .or_ f => WellFormed.alu c f
  | .outp _ _ => true
  | .outs _ => true
  | .packsswb _ src => WellFormed.mmRm c src
  | .packssdw _ src => WellFormed.mmRm c src
  | .packuswb _ src => WellFormed.mmRm c src
  | .paddb _ src => WellFormed.mmRm c src
  | .paddw _ src => WellFormed.mmRm c src
  | .paddd _ src => WellFormed.mmRm c src
  | .paddsb _ src => WellFormed.mmRm c src
  | .paddsw _ src => WellFormed.mmRm c src
  | .paddusb _ src => WellFormed.mmRm c src
  | .paddusw _ src => WellFormed.mmRm c src
  | .pand _ src => WellFormed.mmRm c src
  | .pandn _ src => WellFormed.mmRm c src
  | .pcmpeqb _ src => WellFormed.mmRm c src
  | .pcmpeqw _ src => WellFormed.mmRm c src
  | .pcmpeqd _ src => WellFormed.mmRm c src
  | .pcmpgtb _ src => WellFormed.mmRm c src
  | .pcmpgtw _ src => WellFormed.mmRm c src
  | .pcmpgtd _ src => WellFormed.mmRm c src
  | .pmaddwd _ src => WellFormed.mmRm c src
  | .pmulhw _ src => WellFormed.mmRm c src
  | .pmullw _ src => WellFormed.mmRm c src
  | .por _ src => WellFormed.mmRm c src
  | .psllw f => WellFormed.mshift c f
  | .pslld f => WellFormed.mshift c f
  | .psllq f => WellFormed.mshift c f
  | .psraw f => WellFormed.mshift c f
  | .psrad f => WellFormed.mshift c f
  | .psrlw f => WellFormed.mshift c f
  | .psrld f => WellFormed.mshift c f
  | .psrlq f => WellFormed.mshift c f
  | .psubb _ src => WellFormed.mmRm c src
  | .psubw _ src => WellFormed.mmRm c src
  | .psubd _ src => WellFormed.mmRm c src
  | .psubsb _ src => WellFormed.mmRm c src
  | .psubsw _ src => WellFormed.mmRm c src
  | .psubusb _ src => WellFormed.mmRm c src
  | .psubusw _ src => WellFormed.mmRm c src
  | .punpckhbw _ src => WellFormed.mmRm c src
  | .punpckhwd _ src => WellFormed.mmRm c src
  | .punpckhdq _ src => WellFormed.mmRm c src
  | .punpcklbw _ src => WellFormed.mmRm c src
  | .punpcklwd _ src => WellFormed.mmRm c src
  | .punpckldq _ src => WellFormed.mmRm c src
  | .pxor _ src => WellFormed.mmRm c src
  | .pop f => WellFormed.pop c f
  | .push f => WellFormed.push c f
  | .rol f => WellFormed.rm c f.dst
  | .ror f => WellFormed.rm c f.dst
  | .rcl f => WellFormed.rm c f.dst
  | .rcr f => WellFormed.rm c f.dst
  | .ret _ => true
  | .salShl f => WellFormed.rm c f.dst
  | .shr f => WellFormed.rm c f.dst
  | .sar f => WellFormed.rm c f.dst
  | .sbb f => WellFormed.alu c f
  | .scas _ => true
  | .seto dst => WellFormed.rm c dst
  | .setno dst => WellFormed.rm c dst
  | .setb dst => WellFormed.rm c dst
  | .setae dst => WellFormed.rm c dst
  | .sete dst => WellFormed.rm c dst
  | .setne dst => WellFormed.rm c dst
  | .setbe dst => WellFormed.rm c dst
  | .seta dst => WellFormed.rm c dst
  | .sets dst => WellFormed.rm c dst
  | .setns dst => WellFormed.rm c dst
  | .setp dst => WellFormed.rm c dst
  | .setnp dst => WellFormed.rm c dst
  | .setl dst => WellFormed.rm c dst
  | .setge dst => WellFormed.rm c dst
  | .setle dst => WellFormed.rm c dst
  | .setg dst => WellFormed.rm c dst
  | .sgdt m => WellFormed.rm c m
  | .sidt m => WellFormed.rm c m
  | .shld f => WellFormed.shxd c f
  | .shrd f => WellFormed.shxd c f
  | .sldt dst => WellFormed.rm c dst
  | .smsw dst => WellFormed.rm c dst
  | .stos _ => true
  | .str dst => WellFormed.rm c dst
  | .sub f => WellFormed.alu c f
  | .test f => WellFormed.test c f
  | .verr src => WellFormed.rm c src
  | .verw src => WellFormed.rm c src
  | .xadd _ dst _ => WellFormed.rm c dst
  | .xchg f => WellFormed.xchg c f
  | .xor_ f => WellFormed.alu c f
  | .segCs => true
  | .segSs => true
  | .segDs => true
  | .segEs => true
  | .segFs => true
  | .segGs => true
  | .opSize => true
  | .adSize => true
  | .lock => true
  | .rep => true
  | .repne => true
  | .invalidOpcode => true
  | .aaa => true
  | .aas => true
  | .cbw => !c.os32
  | .cwde => c.os32
  | .clc => true
  | .cld => true
  | .cli => true
  | .clts => true
  | .cmc => true
  | .cpuid => true
  | .cwd => !c.os32
  | .cdq => c.os32
  | .daa => true
  | .das => true
  | .emms => true
  | .f2xm1 => true
  | .fabs => true
  | .fchs => true
  | .fclex => !c.waitAlone
  | .fnclex => true
  | .fcompp => true
  | .fcos => true
  | .fdecstp => true
  | .fincstp => true
  | .finit => !c.waitAlone
  | .fninit => true
  | .fld1 => true
  | .fldl2t => true
  | .fldl2e => true
  | .fldpi => true
  | .fldlg2 => true
  | .fldln2 => true
  | .fldz => true
  | .fnop => true
  | .fpatan => true
  | .fprem => true
  | .fprem1 => true
  | .fptan => true
  | .frndint => true
  | .fscale => true
  | .fsin => true
  | .fsincos => true
  | .fsqrt => true
  | .ftst => true
  | .fucompp => true
  | .fxam => true
  | .fxtract => true
  | .fyl2x => true
  | .fyl2xp1 => true
  | .hlt => true
  | .int3 => true
  | .into => true
  | .invd => true
  | .iret => !c.os32
  | .iretd => c.os32
  | .lahf => true
  | .leave => true
  | .nop => true
  | .popa => !c.os32
  | .popad => c.os32
  | .popf => !c.os32
  | .popfd => c.os32
  | .pusha => !c.os32
  | .pushad => c.os32
  | .pushf => !c.os32
  | .pushfd => c.os32
  | .rdmsr => true
  | .rdpmc => true
  | .rdtsc => true
  | .rsm => true
  | .sahf => true
  | .stc => true
  | .std => true
  | .sti => true
  | .ud2 => true
  | .wait => true
  | .wbinvd => true
  | .wrmsr => true
  | .xlat => true


end Sys2Proof
end

