-- ==== Sys2Proof/Decode.lean ====
section
/-! DEFINITION. The decoder and the encoder (spec 30_encoding). The decoder is total on byte strings: it reads
an instruction, or asks for more bytes; a blank cell decodes to `Instr.reserved`. Every prefix byte is an
instruction of its own (R161). -/

namespace Sys2Proof

/-- Number of a general register (10_state R31). -/
def Reg.num : Reg → Nat
  | .eax => 0 | .ecx => 1 | .edx => 2 | .ebx => 3 | .esp => 4 | .ebp => 5 | .esi => 6 | .edi => 7

/-- The general register of a number (10_state R31). -/
def Reg.ofNum (n : Nat) : Reg :=
  match n with
  | 0 => .eax | 1 => .ecx | 2 => .edx | 3 => .ebx | 4 => .esp | 5 => .ebp | 6 => .esi | _ => .edi

/-- The value of a three-bit field. -/
def Idx8.num : Idx8 → Nat
  | .i0 => 0 | .i1 => 1 | .i2 => 2 | .i3 => 3 | .i4 => 4 | .i5 => 5 | .i6 => 6 | .i7 => 7

/-- The three-bit field of a value. -/
def Idx8.ofNum (n : Nat) : Idx8 :=
  match n with
  | 0 => .i0 | 1 => .i1 | 2 => .i2 | 3 => .i3 | 4 => .i4 | 5 => .i5 | 6 => .i6 | _ => .i7

/-- The base of a 16-bit effective address by `r/m` (R173). -/
def Base16.ofNum (n : Nat) : Base16 :=
  match n with
  | 0 => .bxsi | 1 => .bxdi | 2 => .bpsi | 3 => .bpdi | 4 => .si | 5 => .di | 6 => .bp | _ => .bx

/-- The `r/m` value of a 16-bit base (R173). -/
def Base16.num : Base16 → Nat
  | .bxsi => 0 | .bxdi => 1 | .bpsi => 2 | .bpdi => 3 | .si => 4 | .di => 5 | .bp => 6 | .bx => 7

/-- The scale of an index by the `scale` field (R175). -/
def Scale.ofNum (n : Nat) : Scale :=
  match n with
  | 0 => .x1 | 1 => .x2 | 2 => .x4 | _ => .x8

/-- The `scale` field (R175). -/
def Scale.num : Scale → Nat
  | .x1 => 0 | .x2 => 1 | .x4 => 2 | .x8 => 3

/-- A reader of instruction bytes: none when it needs more bytes than there are (R178 step 6). -/
abbrev Parser := StateT (List Byte) Option

/-- Read one byte. -/
def pByte : Parser Byte := fun bs =>
  match bs with
  | [] => none
  | b :: rest => some (b, rest)

/-- Read a little-endian word (R177). -/
def pWord : Parser Word := do
  let b0 ← pByte
  let b1 ← pByte
  return (b1 ++ b0 : BitVec 16)

/-- Read a little-endian doubleword (R177). -/
def pDword : Parser Dword := do
  let b0 ← pByte
  let b1 ← pByte
  let b2 ← pByte
  let b3 ← pByte
  return (b3 ++ b2 ++ b1 ++ b0 : BitVec 32)

/-- Read a value of operand size, zero-extended (R178 step 4: Iv, Jv). -/
def pOp (c : Ctx) : Parser Dword := do
  if c.os32 then pDword else return (← pWord).setWidth 32

/-- Read an offset of address size, zero-extended (R178 step 4: Ob, Ov). -/
def pMoffs (c : Ctx) : Parser Dword := do
  if c.as32 then pDword else return (← pWord).setWidth 32

/-- Read an immediate of width `w`, zero-extended. -/
def pImm (c : Ctx) (w : Wd) : Parser Dword := do
  match w with
  | .b => return (← pByte).setWidth 32
  | .v => pOp c

/-- Read the SIB byte and displacement of a 32-bit form (R174, R175); `md` is 0, 1 or 2. -/
def pSib (md : Nat) : Parser Ea := do
  let sib ← pByte
  let idx := sib.toNat / 8 % 8
  let index := if idx == 4 then none else some (Reg.ofNum idx, Scale.ofNum (sib.toNat / 64))
  let b := sib.toNat % 8
  match md with
  | 0 => if b == 5 then return .a32 none index (← pDword) else return .a32 (some (Reg.ofNum b)) index 0#32
  | 1 => return .a32 (some (Reg.ofNum b)) index ((← pByte).signExtend 32)
  | _ => return .a32 (some (Reg.ofNum b)) index (← pDword)

/-- Read what follows a ModR/M byte that names memory (R173 to R176). -/
def pEa (c : Ctx) (md rm : Nat) : Parser Ea := do
  if c.as32 then
    if rm == 4 then pSib md
    else
      match md with
      | 0 => if rm == 5 then return .a32 none none (← pDword) else return .a32 (some (Reg.ofNum rm)) none 0#32
      | 1 => return .a32 (some (Reg.ofNum rm)) none ((← pByte).signExtend 32)
      | _ => return .a32 (some (Reg.ofNum rm)) none (← pDword)
  else
    match md with
    | 0 => if rm == 6 then return .a16 none (← pWord) else return .a16 (some (Base16.ofNum rm)) 0#16
    | 1 => return .a16 (some (Base16.ofNum rm)) ((← pByte).signExtend 16)
    | _ => return .a16 (some (Base16.ofNum rm)) (← pWord)

/-- The `r/m` operand of a ModR/M byte already read (R171). -/
def pRmOf (c : Ctx) (m : Byte) : Parser Rm := do
  if modOf m == 3 then return .reg (Reg.ofNum (rmOf m)) else return .mem (← pEa c (modOf m) (rmOf m))

/-- The `mm/m64` operand of a ModR/M byte already read. -/
def pMmRmOf (c : Ctx) (m : Byte) : Parser MmRm := do
  if modOf m == 3 then return .reg (Idx8.ofNum (rmOf m)) else return .mem (← pEa c (modOf m) (rmOf m))

/-- Read ModR/M: the register of `reg`, and the `r/m` operand. -/
def pRegRm (c : Ctx) : Parser (Reg × Rm) := do
  let m ← pByte
  return (Reg.ofNum (regOf m), ← pRmOf c m)

/-- Read ModR/M: the number in `reg`, and the `r/m` operand. -/
def pIdxRm (c : Ctx) : Parser (Idx8 × Rm) := do
  let m ← pByte
  return (Idx8.ofNum (regOf m), ← pRmOf c m)

/-- Read ModR/M: an MMX register, and the `mm/m64` operand. -/
def pMm (c : Ctx) : Parser (Idx8 × MmRm) := do
  let m ← pByte
  return (Idx8.ofNum (regOf m), ← pMmRmOf c m)

/-- The byte form has bit 0 of the opcode clear (R182). -/
def wdOf (op : Nat) : Wd := if op % 2 == 0 then .b else .v

/-- Opcodes xx0 to xx5 of the eight arithmetic instructions (R190). -/
def pAluForm (c : Ctx) (k : Nat) : Parser AluForm := do
  match k with
  | 0 => let (r, rm) ← pRegRm c; return .rmR .b rm r
  | 1 => let (r, rm) ← pRegRm c; return .rmR .v rm r
  | 2 => let (r, rm) ← pRegRm c; return .rRm .b r rm
  | 3 => let (r, rm) ← pRegRm c; return .rRm .v r rm
  | 4 => return .accImm .b (← pImm c .b)
  | _ => return .accImm .v (← pImm c .v)

/-- The arithmetic instruction of a number: opcode bits 5:3, or the digit of group 1 (R190, R192). -/
def aluOf (n : Nat) (f : AluForm) : Instr :=
  match n with
  | 0 => .add f | 1 => .or_ f | 2 => .adc f | 3 => .sbb f
  | 4 => .and_ f | 5 => .sub f | 6 => .xor_ f | _ => .cmp f

/-- The shift or rotate of a digit of group 2 (R192). -/
def shiftOf (n : Nat) (f : ShiftForm) : Instr :=
  match n with
  | 0 => .rol f | 1 => .ror f | 2 => .rcl f | 3 => .rcr f
  | 4 => .salShl f | 5 => .shr f | _ => .sar f

/-- Jcc by condition number (10_state R46). -/
def jccOf (n : Nat) (t : JForm) : Instr :=
  match n with
  | 0 => .jo t | 1 => .jno t | 2 => .jb t | 3 => .jae t
  | 4 => .je t | 5 => .jne t | 6 => .jbe t | 7 => .ja t
  | 8 => .js t | 9 => .jns t | 10 => .jp t | 11 => .jnp t
  | 12 => .jl t | 13 => .jge t | 14 => .jle t | _ => .jg t

/-- SETcc by condition number (10_state R46). -/
def setccOf (n : Nat) (d : Rm) : Instr :=
  match n with
  | 0 => .seto d | 1 => .setno d | 2 => .setb d | 3 => .setae d
  | 4 => .sete d | 5 => .setne d | 6 => .setbe d | 7 => .seta d
  | 8 => .sets d | 9 => .setns d | 10 => .setp d | 11 => .setnp d
  | 12 => .setl d | 13 => .setge d | 14 => .setle d | _ => .setg d

/-- CMOVcc by condition number (10_state R46). -/
def cmovOf (n : Nat) (d : Reg) (s : Rm) : Instr :=
  match n with
  | 0 => .cmovo d s | 1 => .cmovno d s | 2 => .cmovb d s | 3 => .cmovae d s
  | 4 => .cmove d s | 5 => .cmovne d s | 6 => .cmovbe d s | 7 => .cmova d s
  | 8 => .cmovs d s | 9 => .cmovns d s | 10 => .cmovp d s | 11 => .cmovnp d s
  | 12 => .cmovl d s | 13 => .cmovge d s | 14 => .cmovle d s | _ => .cmovg d s

/-- Opcodes 00 to 3F (R190). -/
def pLow (c : Ctx) (op : Nat) : Parser Instr := do
  if op % 8 < 6 then return aluOf (op / 8) (← pAluForm c (op % 8))
  else
    match op with
    | 0x06 => return .push (.sreg .es)
    | 0x07 => return .pop (.sreg .es)
    | 0x0E => return .push (.sreg .cs)
    | 0x16 => return .push (.sreg .ss)
    | 0x17 => return .pop (.sreg .ss)
    | 0x1E => return .push (.sreg .ds)
    | 0x1F => return .pop (.sreg .ds)
    | 0x26 => return .segEs
    | 0x27 => return .daa
    | 0x2E => return .segCs
    | 0x2F => return .das
    | 0x36 => return .segSs
    | 0x37 => return .aaa
    | 0x3E => return .segDs
    | _ => return .aas

/-- Opcodes 40 to 7F (R190). -/
def p40 (c : Ctx) (op : Nat) : Parser Instr := do
  match op / 8 with
  | 8 => return .inc (.reg (Reg.ofNum (op % 8)))
  | 9 => return .dec (.reg (Reg.ofNum (op % 8)))
  | 10 => return .push (.reg (Reg.ofNum (op % 8)))
  | 11 => return .pop (.reg (Reg.ofNum (op % 8)))
  | 12 =>
    match op with
    | 0x60 => return if c.os32 then .pushad else .pusha
    | 0x61 => return if c.os32 then .popad else .popa
    | 0x62 => let (r, rm) ← pRegRm c; return .bound r rm
    | 0x63 => let (r, rm) ← pRegRm c; return .arpl rm r
    | 0x64 => return .segFs
    | 0x65 => return .segGs
    | 0x66 => return .opSize
    | _ => return .adSize
  | 13 =>
    match op with
    | 0x68 => return .push (.imm (.v (← pOp c)))
    | 0x69 => let (r, rm) ← pRegRm c; return .imul (.three r rm (.v (← pOp c)))
    | 0x6A => return .push (.imm (.b (← pByte)))
    | 0x6B => let (r, rm) ← pRegRm c; return .imul (.three r rm (.b (← pByte)))
    | 0x6C => return .ins .b
    | 0x6D => return .ins .v
    | 0x6E => return .outs .b
    | _ => return .outs .v
  | _ => return jccOf (op % 16) (.short (← pByte))

/-- Opcodes 80 to BF (R190). -/
def p80 (c : Ctx) (op : Nat) : Parser Instr := do
  match op with
  | 0x80 => let m ← pByte; let d ← pRmOf c m; return aluOf (regOf m) (.rmImm .b d (← pImm c .b))
  | 0x81 => let m ← pByte; let d ← pRmOf c m; return aluOf (regOf m) (.rmImm .v d (← pImm c .v))
  | 0x82 => return .reserved (.op1 0x82#8)
  | 0x83 => let m ← pByte; let d ← pRmOf c m; return aluOf (regOf m) (.rmImm8 d (← pByte))
  | 0x84 => let (r, rm) ← pRegRm c; return .test (.rmR .b rm r)
  | 0x85 => let (r, rm) ← pRegRm c; return .test (.rmR .v rm r)
  | 0x86 => let (r, rm) ← pRegRm c; return .xchg (.rmR .b rm r)
  | 0x87 => let (r, rm) ← pRegRm c; return .xchg (.rmR .v rm r)
  | 0x88 => let (r, rm) ← pRegRm c; return .mov (.rmR .b rm r)
  | 0x89 => let (r, rm) ← pRegRm c; return .mov (.rmR .v rm r)
  | 0x8A => let (r, rm) ← pRegRm c; return .mov (.rRm .b r rm)
  | 0x8B => let (r, rm) ← pRegRm c; return .mov (.rRm .v r rm)
  | 0x8C => let (s, rm) ← pIdxRm c; return .movSreg (.fromSreg rm s)
  | 0x8D => let (r, rm) ← pRegRm c; return .lea r rm
  | 0x8E => let (s, rm) ← pIdxRm c; return .movSreg (.toSreg s rm)
  | 0x8F => let m ← pByte
            if regOf m == 0 then return .pop (.rm (← pRmOf c m)) else return .reserved (.ext1 0x8F#8 m)
  | 0x90 => return .nop
  | 0x98 => return if c.os32 then .cwde else .cbw
  | 0x99 => return if c.os32 then .cdq else .cwd
  | 0x9A => let off ← pOp c; return .call (.ptr (← pWord) off)
  | 0x9C => return if c.os32 then .pushfd else .pushf
  | 0x9D => return if c.os32 then .popfd else .popf
  | 0x9E => return .sahf
  | 0x9F => return .lahf
  | 0xA0 => return .mov (.accMoffs .b (← pMoffs c))
  | 0xA1 => return .mov (.accMoffs .v (← pMoffs c))
  | 0xA2 => return .mov (.moffsAcc .b (← pMoffs c))
  | 0xA3 => return .mov (.moffsAcc .v (← pMoffs c))
  | 0xA4 => return .movs .b
  | 0xA5 => return .movs .v
  | 0xA6 => return .cmps .b
  | 0xA7 => return .cmps .v
  | 0xA8 => return .test (.accImm .b (← pImm c .b))
  | 0xA9 => return .test (.accImm .v (← pImm c .v))
  | 0xAA => return .stos .b
  | 0xAB => return .stos .v
  | 0xAC => return .lods .b
  | 0xAD => return .lods .v
  | 0xAE => return .scas .b
  | 0xAF => return .scas .v
  | _ =>
    if op < 0xB0 then return .xchg (.acc (Reg.ofNum (op % 8)))
    else if op < 0xB8 then return .mov (.rImm .b (Reg.ofNum (op % 8)) (← pImm c .b))
    else return .mov (.rImm .v (Reg.ofNum (op % 8)) (← pImm c .v))

/-- Group 2 with its count (R192). -/
def pShift (c : Ctx) (op : Nat) : Parser Instr := do
  let m ← pByte
  if regOf m == 6 then return .reserved (.ext1 (BitVec.ofNat 8 op) m)
  else
    let d ← pRmOf c m
    let n ← if op < 0xD0 then (return .imm (← pByte)) else if op < 0xD2 then (return .one) else (return .cl)
    return shiftOf (regOf m) { w := wdOf op, dst := d, count := n }

/-- Opcodes C0 to D7 (R190). -/
def pC0 (c : Ctx) (op : Nat) : Parser Instr := do
  match op with
  | 0xC0 | 0xC1 | 0xD0 | 0xD1 | 0xD2 | 0xD3 => pShift c op
  | 0xC2 => return .ret (.near (some (← pWord)))
  | 0xC3 => return .ret (.near none)
  | 0xC4 => let (r, rm) ← pRegRm c; return .les r rm
  | 0xC5 => let (r, rm) ← pRegRm c; return .lds r rm
  | 0xC6 | 0xC7 =>
    let m ← pByte
    if regOf m == 0 then
      let d ← pRmOf c m
      return .mov (.rmImm (wdOf op) d (← pImm c (wdOf op)))
    else return .reserved (.ext1 (BitVec.ofNat 8 op) m)
  | 0xC8 => let size ← pWord; return .enter size (← pByte)
  | 0xC9 => return .leave
  | 0xCA => return .ret (.far (some (← pWord)))
  | 0xCB => return .ret (.far none)
  | 0xCC => return .int3
  | 0xCD => return .intN (← pByte)
  | 0xCE => return .into
  | 0xCF => return if c.os32 then .iretd else .iret
  | 0xD4 => return .aam (← pByte)
  | 0xD5 => return .aad (← pByte)
  | 0xD6 => return .reserved (.op1 0xD6#8)
  | _ => return .xlat

/-- Group 3 (R192). -/
def pGroup3 (c : Ctx) (op : Nat) : Parser Instr := do
  let m ← pByte
  let w := wdOf op
  match regOf m with
  | 0 => let d ← pRmOf c m; return .test (.rmImm w d (← pImm c w))
  | 1 => return .reserved (.ext1 (BitVec.ofNat 8 op) m)
  | 2 => return .not_ w (← pRmOf c m)
  | 3 => return .neg w (← pRmOf c m)
  | 4 => return .mul w (← pRmOf c m)
  | 5 => return .imul (.one w (← pRmOf c m))
  | 6 => return .div w (← pRmOf c m)
  | _ => return .idiv w (← pRmOf c m)

/-- Groups 4 and 5 (R192). -/
def pGroup45 (c : Ctx) (op : Nat) : Parser Instr := do
  let m ← pByte
  match regOf m with
  | 0 => return .inc (.rm (wdOf op) (← pRmOf c m))
  | 1 => return .dec (.rm (wdOf op) (← pRmOf c m))
  | k =>
    if op == 0xFE then return .reserved (.ext1 0xFE#8 m)
    else
      match k with
      | 2 => return .call (.rm (← pRmOf c m))
      | 3 => return .call (.mfar (← pRmOf c m))
      | 4 => return .jmp (.rm (← pRmOf c m))
      | 5 => return .jmp (.mfar (← pRmOf c m))
      | 6 => return .push (.rm (← pRmOf c m))
      | _ => return .reserved (.ext1 0xFF#8 m)

/-- Opcodes E0 to FF (R190). -/
def pE0 (c : Ctx) (op : Nat) : Parser Instr := do
  match op with
  | 0xE0 => return .loopne (← pByte)
  | 0xE1 => return .loope (← pByte)
  | 0xE2 => return .loop (← pByte)
  | 0xE3 => let d ← pByte; return if c.as32 then .jecxz d else .jcxz d
  | 0xE4 => return .inp .b (.imm (← pByte))
  | 0xE5 => return .inp .v (.imm (← pByte))
  | 0xE6 => return .outp .b (.imm (← pByte))
  | 0xE7 => return .outp .v (.imm (← pByte))
  | 0xE8 => return .call (.rel (← pOp c))
  | 0xE9 => return .jmp (.rel (← pOp c))
  | 0xEA => let off ← pOp c; return .jmp (.ptr (← pWord) off)
  | 0xEB => return .jmp (.short (← pByte))
  | 0xEC => return .inp .b .dx
  | 0xED => return .inp .v .dx
  | 0xEE => return .outp .b .dx
  | 0xEF => return .outp .v .dx
  | 0xF0 => return .lock
  | 0xF1 => return .reserved (.op1 0xF1#8)
  | 0xF2 => return .repne
  | 0xF3 => return .rep
  | 0xF4 => return .hlt
  | 0xF5 => return .cmc
  | 0xF6 | 0xF7 => pGroup3 c op
  | 0xF8 => return .clc
  | 0xF9 => return .stc
  | 0xFA => return .cli
  | 0xFB => return .sti
  | 0xFC => return .cld
  | 0xFD => return .std
  | _ => pGroup45 c op

/-- The arithmetic of D8, DC, and with integers DA, DE (R193, R195, R197, R199). -/
def fArithOf (n : Nat) (f : FArith) : Instr :=
  match n with
  | 0 => .fadd f | 1 => .fmul f | 4 => .fsub f | 5 => .fsubr f | 6 => .fdiv f | _ => .fdivr f

/-- Integer-operand arithmetic by digit (R195, R199). -/
def fIntOf (n : Nat) (f : FInt2) : Instr :=
  match n with
  | 0 => .fiadd f | 1 => .fimul f | 2 => .ficom f | 3 => .ficomp f
  | 4 => .fisub f | 5 => .fisubr f | 6 => .fidiv f | _ => .fidivr f

/-- Memory forms of the escape opcodes; `esc` is the opcode's low three bits (R193 to R200). -/
def pEscMem (esc reg : Nat) (a : Ea) : Instr :=
  match esc with
  | 0 => match reg with
    | 2 => .fcom (.m32 a) | 3 => .fcomp (.m32 a) | n => fArithOf n (.m32 a)
  | 1 => match reg with
    | 0 => .fld (.m32 a) | 2 => .fst (.m32 a) | 3 => .fstp (.m32 a)
    | 4 => .fldenv a | 5 => .fldcw a | 6 => .fnstenv a | _ => .fnstcw a
  | 2 => fIntOf reg (.i32 a)
  | 3 => match reg with
    | 0 => .fild (.i32 a) | 2 => .fist (.i32 a) | 3 => .fistp (.i32 a) | 5 => .fld (.m80 a) | _ => .fstp (.m80 a)
  | 4 => match reg with
    | 2 => .fcom (.m64 a) | 3 => .fcomp (.m64 a) | n => fArithOf n (.m64 a)
  | 5 => match reg with
    | 0 => .fld (.m64 a) | 2 => .fst (.m64 a) | 3 => .fstp (.m64 a)
    | 4 => .frstor a | 6 => .fnsave a | _ => .fnstsw (.mem a)
  | 6 => fIntOf reg (.i16 a)
  | _ => match reg with
    | 0 => .fild (.i16 a) | 2 => .fist (.i16 a) | 3 => .fistp (.i16 a)
    | 4 => .fbld a | 5 => .fild (.i64 a) | 6 => .fbstp a | _ => .fistp (.i64 a)

/-- D9 C0 to FF (R194). -/
def escD9 (low : Nat) (i : Idx8) : Instr :=
  match low with
  | 0x10 => .fnop | 0x20 => .fchs | 0x21 => .fabs | 0x24 => .ftst | 0x25 => .fxam
  | 0x28 => .fld1 | 0x29 => .fldl2t | 0x2A => .fldl2e | 0x2B => .fldpi | 0x2C => .fldlg2 | 0x2D => .fldln2
  | 0x2E => .fldz
  | 0x30 => .f2xm1 | 0x31 => .fyl2x | 0x32 => .fptan | 0x33 => .fpatan | 0x34 => .fxtract | 0x35 => .fprem1
  | 0x36 => .fdecstp | 0x37 => .fincstp
  | 0x38 => .fprem | 0x39 => .fyl2xp1 | 0x3A => .fsqrt | 0x3B => .fsincos | 0x3C => .frndint | 0x3D => .fscale
  | 0x3E => .fsin | 0x3F => .fcos
  | _ => if low < 8 then .fld (.st i) else .fxch i

/-- Register forms of the escape opcodes that are not blank (R193 to R200); `low` is ModR/M less C0H. -/
def escReg (esc low : Nat) : Instr :=
  let i := Idx8.ofNum (low % 8)
  match esc with
  | 0 => match low / 8 with
    | 2 => .fcom (.st i) | 3 => .fcomp (.st i) | n => fArithOf n (.st0i i)
  | 1 => escD9 low i
  | 2 => match low / 8 with
    | 0 => .fcmovb i | 1 => .fcmove i | 2 => .fcmovbe i | 3 => .fcmovu i | _ => .fucompp
  | 3 => match low / 8 with
    | 0 => .fcmovnb i | 1 => .fcmovne i | 2 => .fcmovnbe i | 3 => .fcmovnu i
    | 4 => if low == 0x22 then .fnclex else .fninit
    | 5 => .fucomi i | _ => .fcomi i
  | 4 => match low / 8 with
    | 0 => .fadd (.sti0 i) | 1 => .fmul (.sti0 i) | 4 => .fsubr (.sti0 i) | 5 => .fsub (.sti0 i)
    | 6 => .fdivr (.sti0 i) | _ => .fdiv (.sti0 i)
  | 5 => match low / 8 with
    | 0 => .ffree i | 2 => .fst (.st i) | 3 => .fstp (.st i) | 4 => .fucom i | _ => .fucomp i
  | 6 => match low / 8 with
    | 0 => .faddp i | 1 => .fmulp i | 3 => .fcompp | 4 => .fsubrp i | 5 => .fsubp i | 6 => .fdivrp i | _ => .fdivp i
  | _ => match low / 8 with
    | 4 => .fnstsw .ax | 5 => .fucomip i | _ => .fcomip i

/-- The escape opcodes D8 to DF (R193). -/
def pEsc (c : Ctx) (op : Nat) : Parser Instr := do
  let m ← pByte
  if modOf m == 3 then
    if blankEscReg (op % 8) (m.toNat % 64) then return .reserved (.ext1 (BitVec.ofNat 8 op) m)
    else return escReg (op % 8) (m.toNat % 64)
  else if blankEscMem (op % 8) (regOf m) then return .reserved (.ext1 (BitVec.ofNat 8 op) m)
  else return pEscMem (op % 8) (regOf m) (← pEa c (modOf m) (rmOf m))

/-- 9B: WAIT, or with the no-wait instruction that follows it one of the six wait forms (R223). The bytes after
9B are only looked at: where they are missing or are another instruction, this is WAIT. -/
def pWait (c : Ctx) : Parser Instr := fun bs =>
  if c.waitAlone then some (.wait, bs)
  else
    match bs with
    | e :: m :: rest =>
      let mem (k : Ea → Instr) : Option (Instr × List Byte) :=
        match (pEa c (modOf m) (rmOf m)).run rest with
        | some (a, r) => some (k a, r)
        | none => some (.wait, bs)
      if e == 0xDB#8 && m == 0xE2#8 then some (.fclex, rest)
      else if e == 0xDB#8 && m == 0xE3#8 then some (.finit, rest)
      else if e == 0xDF#8 && m == 0xE0#8 then some (.fstsw .ax, rest)
      else if modOf m == 3 then some (.wait, bs)
      else if e == 0xD9#8 && regOf m == 6 then mem .fstenv
      else if e == 0xD9#8 && regOf m == 7 then mem .fstcw
      else if e == 0xDD#8 && regOf m == 6 then mem .fsave
      else if e == 0xDD#8 && regOf m == 7 then mem (fun a => .fstsw (.mem a))
      else some (.wait, bs)
    | _ => some (.wait, bs)

/-- Group 6 (R192). -/
def pGroup6 (c : Ctx) : Parser Instr := do
  let m ← pByte
  match regOf m with
  | 0 => return .sldt (← pRmOf c m)
  | 1 => return .str (← pRmOf c m)
  | 2 => return .lldt (← pRmOf c m)
  | 3 => return .ltr (← pRmOf c m)
  | 4 => return .verr (← pRmOf c m)
  | 5 => return .verw (← pRmOf c m)
  | _ => return .reserved (.ext2 0x00#8 m)

/-- Group 7 (R192). -/
def pGroup7 (c : Ctx) : Parser Instr := do
  let m ← pByte
  match regOf m with
  | 0 => return .sgdt (← pRmOf c m)
  | 1 => return .sidt (← pRmOf c m)
  | 2 => return .lgdt (← pRmOf c m)
  | 3 => return .lidt (← pRmOf c m)
  | 4 => return .smsw (← pRmOf c m)
  | 5 => return .reserved (.ext2 0x01#8 m)
  | 6 => return .lmsw (← pRmOf c m)
  | _ => return .invlpg (← pRmOf c m)

/-- Group 8 (R192). -/
def pGroup8 (c : Ctx) : Parser Instr := do
  let m ← pByte
  if regOf m < 4 then return .reserved (.ext2 0xBA#8 m)
  else
    let d ← pRmOf c m
    let f := BtForm.rmImm d (← pByte)
    match regOf m with
    | 4 => return .bt f
    | 5 => return .bts f
    | 6 => return .btr f
    | _ => return .btc f

/-- Group A: MMX shifts by an immediate (R192). -/
def pGroupA (op : Nat) : Parser Instr := do
  let m ← pByte
  if blankExtTwo (BitVec.ofNat 8 op) m then return .reserved (.ext2 (BitVec.ofNat 8 op) m)
  else
    let f := MShift.imm (Idx8.ofNum (rmOf m)) (← pByte)
    match op, regOf m with
    | 0x71, 2 => return .psrlw f
    | 0x71, 4 => return .psraw f
    | 0x71, _ => return .psllw f
    | 0x72, 2 => return .psrld f
    | 0x72, 4 => return .psrad f
    | 0x72, _ => return .pslld f
    | _, 2 => return .psrlq f
    | _, _ => return .psllq f

/-- MOV from or to (`write`) a control or debug register (46_int R511, R512). -/
def movSysOf (write : Bool) (m : Byte) : MovSysForm :=
  if m < 0xC0#8 then .badMod write m
  else if write then .toSys (Idx8.ofNum (regOf m)) (Reg.ofNum (rmOf m))
  else .fromSys (Reg.ofNum (rmOf m)) (Idx8.ofNum (regOf m))

/-- Two-byte opcodes 00 to 3F (R191). -/
def pTwo0 (c : Ctx) (op : Nat) : Parser Instr := do
  match op with
  | 0x00 => pGroup6 c
  | 0x01 => pGroup7 c
  | 0x02 => let (r, rm) ← pRegRm c; return .lar r rm
  | 0x03 => let (r, rm) ← pRegRm c; return .lsl r rm
  | 0x06 => return .clts
  | 0x08 => return .invd
  | 0x09 => return .wbinvd
  | 0x0B => return .ud2
  | 0x20 => return .movCr (movSysOf false (← pByte))
  | 0x21 => return .movDr (movSysOf false (← pByte))
  | 0x22 => return .movCr (movSysOf true (← pByte))
  | 0x23 => return .movDr (movSysOf true (← pByte))
  | 0x30 => return .wrmsr
  | 0x31 => return .rdtsc
  | 0x32 => return .rdmsr
  | _ => return .rdpmc

/-- MMX instructions of the form `mm, mm/m64` by second opcode byte (R191). -/
def mmxOf (op : Nat) (d : Idx8) (s : MmRm) : Instr :=
  match op with
  | 0x60 => .punpcklbw d s
  | 0x61 => .punpcklwd d s
  | 0x62 => .punpckldq d s
  | 0x63 => .packsswb d s
  | 0x64 => .pcmpgtb d s
  | 0x65 => .pcmpgtw d s
  | 0x66 => .pcmpgtd d s
  | 0x67 => .packuswb d s
  | 0x68 => .punpckhbw d s
  | 0x69 => .punpckhwd d s
  | 0x6A => .punpckhdq d s
  | 0x6B => .packssdw d s
  | 0x74 => .pcmpeqb d s
  | 0x75 => .pcmpeqw d s
  | 0x76 => .pcmpeqd d s
  | 0xD1 => .psrlw (.rm d s)
  | 0xD2 => .psrld (.rm d s)
  | 0xD3 => .psrlq (.rm d s)
  | 0xD5 => .pmullw d s
  | 0xD8 => .psubusb d s
  | 0xD9 => .psubusw d s
  | 0xDB => .pand d s
  | 0xDC => .paddusb d s
  | 0xDD => .paddusw d s
  | 0xDF => .pandn d s
  | 0xE1 => .psraw (.rm d s)
  | 0xE2 => .psrad (.rm d s)
  | 0xE5 => .pmulhw d s
  | 0xE8 => .psubsb d s
  | 0xE9 => .psubsw d s
  | 0xEB => .por d s
  | 0xEC => .paddsb d s
  | 0xED => .paddsw d s
  | 0xEF => .pxor d s
  | 0xF1 => .psllw (.rm d s)
  | 0xF2 => .pslld (.rm d s)
  | 0xF3 => .psllq (.rm d s)
  | 0xF5 => .pmaddwd d s
  | 0xF8 => .psubb d s
  | 0xF9 => .psubw d s
  | 0xFA => .psubd d s
  | 0xFC => .paddb d s
  | 0xFD => .paddw d s
  | _ => .paddd d s

/-- Two-byte opcodes 40 to 7F (R191). -/
def pTwo40 (c : Ctx) (op : Nat) : Parser Instr := do
  if op < 0x50 then let (r, rm) ← pRegRm c; return cmovOf (op % 16) r rm
  else
    match op with
    | 0x6E => let (d, rm) ← pIdxRm c; return .movd (.toMm d rm)
    | 0x6F => let (d, s) ← pMm c; return .movq (.load d s)
    | 0x71 | 0x72 | 0x73 => pGroupA op
    | 0x77 => return .emms
    | 0x7E => let (d, rm) ← pIdxRm c; return .movd (.fromMm rm d)
    | 0x7F => let (d, s) ← pMm c; return .movq (.store s d)
    | _ => let (d, s) ← pMm c; return mmxOf op d s

/-- Two-byte opcodes 80 to BF (R191). -/
def pTwo80 (c : Ctx) (op : Nat) : Parser Instr := do
  if op < 0x90 then return jccOf (op % 16) (.near (← pOp c))
  else if op < 0xA0 then let (_, rm) ← pRegRm c; return setccOf (op % 16) rm
  else
    match op with
    | 0xA0 => return .push (.sreg .fs)
    | 0xA1 => return .pop (.sreg .fs)
    | 0xA2 => return .cpuid
    | 0xA3 => let (r, rm) ← pRegRm c; return .bt (.rmR rm r)
    | 0xA4 => let (r, rm) ← pRegRm c; return .shld (.imm rm r (← pByte))
    | 0xA5 => let (r, rm) ← pRegRm c; return .shld (.cl rm r)
    | 0xA8 => return .push (.sreg .gs)
    | 0xA9 => return .pop (.sreg .gs)
    | 0xAA => return .rsm
    | 0xAB => let (r, rm) ← pRegRm c; return .bts (.rmR rm r)
    | 0xAC => let (r, rm) ← pRegRm c; return .shrd (.imm rm r (← pByte))
    | 0xAD => let (r, rm) ← pRegRm c; return .shrd (.cl rm r)
    | 0xAF => let (r, rm) ← pRegRm c; return .imul (.two r rm)
    | 0xB0 => let (r, rm) ← pRegRm c; return .cmpxchg .b rm r
    | 0xB1 => let (r, rm) ← pRegRm c; return .cmpxchg .v rm r
    | 0xB2 => let (r, rm) ← pRegRm c; return .lss r rm
    | 0xB3 => let (r, rm) ← pRegRm c; return .btr (.rmR rm r)
    | 0xB4 => let (r, rm) ← pRegRm c; return .lfs r rm
    | 0xB5 => let (r, rm) ← pRegRm c; return .lgs r rm
    | 0xB6 => let (r, rm) ← pRegRm c; return .movzx .b r rm
    | 0xB7 => let (r, rm) ← pRegRm c; return .movzx .v r rm
    | 0xB9 => return .invalidOpcode
    | 0xBA => pGroup8 c
    | 0xBB => let (r, rm) ← pRegRm c; return .btc (.rmR rm r)
    | 0xBC => let (r, rm) ← pRegRm c; return .bsf r rm
    | 0xBD => let (r, rm) ← pRegRm c; return .bsr r rm
    | 0xBE => let (r, rm) ← pRegRm c; return .movsx .b r rm
    | _ => let (r, rm) ← pRegRm c; return .movsx .v r rm

/-- Two-byte opcodes C0 to FF (R191). -/
def pTwoC0 (c : Ctx) (op : Nat) : Parser Instr := do
  match op with
  | 0xC0 => let (r, rm) ← pRegRm c; return .xadd .b rm r
  | 0xC1 => let (r, rm) ← pRegRm c; return .xadd .v rm r
  | 0xC7 =>
    let m ← pByte
    if regOf m == 1 then return .cmpxchg8b (← pRmOf c m) else return .reserved (.ext2 0xC7#8 m)
  | _ =>
    if op < 0xD0 then return .bswap (Reg.ofNum (op % 8))
    else let (d, s) ← pMm c; return mmxOf op d s

/-- Opcodes after 0F (R191). -/
def pTwo (c : Ctx) : Parser Instr := do
  let op ← pByte
  if blankTwo op then return .reserved (.op2 op)
  else if op.toNat < 0x40 then pTwo0 c op.toNat
  else if op.toNat < 0x80 then pTwo40 c op.toNat
  else if op.toNat < 0xC0 then pTwo80 c op.toNat
  else pTwoC0 c op.toNat

/-- Read one instruction or prefix byte (R178). -/
def pInstr (c : Ctx) : Parser Instr := do
  let op ← pByte
  let n := op.toNat
  if n == 0x0F then pTwo c
  else if n < 0x40 then pLow c n
  else if n < 0x80 then p40 c n
  else if n == 0x9B then pWait c
  else if n < 0xC0 then p80 c n
  else if n < 0xD8 then pC0 c n
  else if n < 0xE0 then pEsc c n
  else pE0 c n

/-- The decoder: the first instruction (or prefix) of a byte string and the bytes after it, or none where the
string ends too early (R178). -/
def decode (c : Ctx) (bs : List Byte) : Option (Instr × List Byte) := (pInstr c).run bs

/-! ## Encoding -/

/-- A ModR/M or SIB byte from its fields (R171, R172). -/
def fields3 (hi mid lo : Nat) : Byte := BitVec.ofNat 8 (hi * 64 + mid * 8 + lo)

/-- A word as two bytes, low byte first (R177). -/
def leWord (v : Word) : List Byte := [v.extractLsb' 0 8, v.extractLsb' 8 8]

/-- A doubleword as four bytes, low byte first (R177). -/
def leDword (v : Dword) : List Byte :=
  [v.extractLsb' 0 8, v.extractLsb' 8 8, v.extractLsb' 16 8, v.extractLsb' 24 8]

/-- A value of operand size. -/
def encOp (c : Ctx) (v : Dword) : List Byte := if c.os32 then leDword v else leWord (v.setWidth 16)

/-- An offset of address size. -/
def encMoffs (c : Ctx) (v : Dword) : List Byte := if c.as32 then leDword v else leWord (v.setWidth 16)

/-- An immediate of width `w`. -/
def encImm (c : Ctx) (w : Wd) (v : Dword) : List Byte :=
  match w with
  | .b => [v.setWidth 8]
  | .v => encOp c v

/-- ModR/M, SIB and displacement of a memory operand with `reg` field `g`: always the full displacement. -/
def encEa (g : Nat) : Ea → List Byte
  | .a16 none d => fields3 0 g 6 :: leWord d
  | .a16 (some b) d => fields3 2 g b.num :: leWord d
  | .a32 none none d => fields3 0 g 5 :: leDword d
  | .a32 none (some (i, s)) d => fields3 0 g 4 :: fields3 s.num i.num 5 :: leDword d
  | .a32 (some .esp) none d => fields3 2 g 4 :: fields3 0 4 4 :: leDword d
  | .a32 (some b) none d => fields3 2 g b.num :: leDword d
  | .a32 (some b) (some (i, s)) d => fields3 2 g 4 :: fields3 s.num i.num b.num :: leDword d

/-- ModR/M and what follows it for an `r/m` operand. -/
def encRm (g : Nat) : Rm → List Byte
  | .reg r => [fields3 3 g r.num]
  | .mem a => encEa g a

/-- ModR/M and what follows it for an `mm/m64` operand. -/
def encMmRm (g : Nat) : MmRm → List Byte
  | .reg r => [fields3 3 g r.num]
  | .mem a => encEa g a

/-- Bit 0 of an opcode with a `w` bit (R182). -/
def Wd.bit : Wd → Nat
  | .b => 0
  | .v => 1

/-- An opcode byte. -/
def opByte (n : Nat) : Byte := BitVec.ofNat 8 n

/-- The eight arithmetic instructions: opcode base `8 * n`, digit `n`. -/
def encAlu (c : Ctx) (n : Nat) : AluForm → List Byte
  | .rmR w d s => opByte (8 * n + w.bit) :: encRm s.num d
  | .rRm w d s => opByte (8 * n + 2 + w.bit) :: encRm d.num s
  | .accImm w i => opByte (8 * n + 4 + w.bit) :: encImm c w i
  | .rmImm w d i => opByte (0x80 + w.bit) :: (encRm n d ++ encImm c w i)
  | .rmImm8 d i => opByte 0x83 :: (encRm n d ++ [i])

/-- Group 2 with digit `n`. -/
def encShift (n : Nat) (f : ShiftForm) : List Byte :=
  match f.count with
  | .one => opByte (0xD0 + f.w.bit) :: encRm n f.dst
  | .cl => opByte (0xD2 + f.w.bit) :: encRm n f.dst
  | .imm k => opByte (0xC0 + f.w.bit) :: (encRm n f.dst ++ [k])

/-- SHLD and SHRD with second opcode byte `op`. -/
def encShxd (op : Nat) : ShxdForm → List Byte
  | .imm d s k => 0x0F#8 :: opByte op :: (encRm s.num d ++ [k])
  | .cl d s => 0x0F#8 :: opByte (op + 1) :: encRm s.num d

/-- The bit instructions: opcode `op`, digit `n` of group 8. -/
def encBt (op n : Nat) : BtForm → List Byte
  | .rmR b o => 0x0F#8 :: opByte op :: encRm o.num b
  | .rmImm b o => 0x0F#8 :: 0xBA#8 :: (encRm n b ++ [o])

def encTest (c : Ctx) : TestForm → List Byte
  | .rmR w a b => opByte (0x84 + w.bit) :: encRm b.num a
  | .accImm w i => opByte (0xA8 + w.bit) :: encImm c w i
  | .rmImm w a i => opByte (0xF6 + w.bit) :: (encRm 0 a ++ encImm c w i)

/-- INC (`n` = 0) and DEC (`n` = 1). -/
def encInc (n : Nat) : IncForm → List Byte
  | .rm w d => opByte (0xFE + w.bit) :: encRm n d
  | .reg r => [opByte (0x40 + 8 * n + r.num)]

def encCall (c : Ctx) : CallForm → List Byte
  | .rel d => 0xE8#8 :: encOp c d
  | .rm m => 0xFF#8 :: encRm 2 m
  | .ptr sel off => 0x9A#8 :: (encOp c off ++ leWord sel)
  | .mfar m => 0xFF#8 :: encRm 3 m

def encJmp (c : Ctx) : JmpForm → List Byte
  | .short d => [0xEB#8, d]
  | .rel d => 0xE9#8 :: encOp c d
  | .rm m => 0xFF#8 :: encRm 4 m
  | .ptr sel off => 0xEA#8 :: (encOp c off ++ leWord sel)
  | .mfar m => 0xFF#8 :: encRm 5 m

/-- RET: opcode `op` with a word, `op + 1` without. -/
def encRet : RetForm → List Byte
  | .near none => [0xC3#8]
  | .near (some k) => 0xC2#8 :: leWord k
  | .far none => [0xCB#8]
  | .far (some k) => 0xCA#8 :: leWord k

def encImul (c : Ctx) : ImulForm → List Byte
  | .one w s => opByte (0xF6 + w.bit) :: encRm 5 s
  | .two d s => 0x0F#8 :: 0xAF#8 :: encRm d.num s
  | .three d s (.v k) => 0x69#8 :: (encRm d.num s ++ encOp c k)
  | .three d s (.b k) => 0x6B#8 :: (encRm d.num s ++ [k])

def encMovSreg : MovSregForm → List Byte
  | .fromSreg d s => 0x8C#8 :: encRm s.num d
  | .toSreg s r => 0x8E#8 :: encRm s.num r

/-- MOV from (`op`) and to (`op + 2`) a control or debug register: ModR/M with mod 11, or the byte that is refused. -/
def encMovSys (op : Nat) : MovSysForm → List Byte
  | .fromSys d n => [0x0F#8, opByte op, fields3 3 n.num d.num]
  | .toSys n s => [0x0F#8, opByte (op + 2), fields3 3 n.num s.num]
  | .badMod w m => [0x0F#8, opByte (if w then op + 2 else op), m]

def encMov (c : Ctx) : MovForm → List Byte
  | .rmR w d s => opByte (0x88 + w.bit) :: encRm s.num d
  | .rRm w d s => opByte (0x8A + w.bit) :: encRm d.num s
  | .rImm w d i => opByte (0xB0 + 8 * w.bit + d.num) :: encImm c w i
  | .rmImm w d i => opByte (0xC6 + w.bit) :: (encRm 0 d ++ encImm c w i)
  | .accMoffs w o => opByte (0xA0 + w.bit) :: encMoffs c o
  | .moffsAcc w o => opByte (0xA2 + w.bit) :: encMoffs c o

def encPush (c : Ctx) : PushForm → List Byte
  | .rm s => 0xFF#8 :: encRm 6 s
  | .reg r => [opByte (0x50 + r.num)]
  | .imm (.v i) => 0x68#8 :: encOp c i
  | .imm (.b i) => [0x6A#8, i]
  | .sreg .es => [0x06#8]
  | .sreg .cs => [0x0E#8]
  | .sreg .ss => [0x16#8]
  | .sreg .ds => [0x1E#8]
  | .sreg .fs => [0x0F#8, 0xA0#8]
  | .sreg .gs => [0x0F#8, 0xA8#8]

def encPop : PopForm → List Byte
  | .rm d => 0x8F#8 :: encRm 0 d
  | .reg r => [opByte (0x58 + r.num)]
  | .sreg .es => [0x07#8]
  | .sreg .cs => []
  | .sreg .ss => [0x17#8]
  | .sreg .ds => [0x1F#8]
  | .sreg .fs => [0x0F#8, 0xA1#8]
  | .sreg .gs => [0x0F#8, 0xA9#8]

/-- Jcc with condition number `n`. -/
def encJcc (c : Ctx) (n : Nat) : JForm → List Byte
  | .short d => [opByte (0x70 + n), d]
  | .near d => 0x0F#8 :: opByte (0x80 + n) :: encOp c d

/-- IN (`op` E4) and OUT (`op` E6). -/
def encPort (op : Nat) (w : Wd) : Port → List Byte
  | .imm n => [opByte (op + w.bit), n]
  | .dx => [opByte (op + 8 + w.bit)]

/-- FPU arithmetic: digit `n` for D8, DC memory and D8 registers, `k` for DC registers (R193, R197). -/
def encFArith (n k : Nat) : FArith → List Byte
  | .m32 a => 0xD8#8 :: encEa n a
  | .m64 a => 0xDC#8 :: encEa n a
  | .st0i i => [0xD8#8, fields3 3 n i.num]
  | .sti0 i => [0xDC#8, fields3 3 k i.num]

/-- FPU arithmetic with an integer, digit `n` (R195, R199). -/
def encFInt2 (n : Nat) : FInt2 → List Byte
  | .i32 a => 0xDA#8 :: encEa n a
  | .i16 a => 0xDE#8 :: encEa n a

/-- FCOM, FCOMP with digit `n`. -/
def encFCom (n : Nat) : FComForm → List Byte
  | .m32 a => 0xD8#8 :: encEa n a
  | .m64 a => 0xDC#8 :: encEa n a
  | .st i => [0xD8#8, fields3 3 n i.num]

def encFStsw : FStsw → List Byte
  | .mem a => 0xDD#8 :: encEa 7 a
  | .ax => [0xDF#8, 0xE0#8]

/-- An MMX instruction `mm, mm/m64` with second opcode byte `op`. -/
def encMm (op : Nat) (d : Idx8) (s : MmRm) : List Byte := 0x0F#8 :: opByte op :: encMmRm d.num s

/-- An MMX shift: register form `op`, immediate form `opi` with digit `n`. -/
def encMShift (op opi n : Nat) : MShift → List Byte
  | .rm d s => encMm op d s
  | .imm d k => [0x0F#8, opByte opi, fields3 3 n d.num, k]

/-- Two-byte opcode with register and `r/m`. -/
def encTwo (op : Nat) (r : Reg) (m : Rm) : List Byte := 0x0F#8 :: opByte op :: encRm r.num m

/-- Two-byte opcode with a digit and `r/m`. -/
def encTwoDigit (op n : Nat) (m : Rm) : List Byte := 0x0F#8 :: opByte op :: encRm n m

def encBlank : BlankCell → List Byte
  | .op1 op => [op]
  | .op2 op => [0x0F#8, op]
  | .ext1 op m => [op, m]
  | .ext2 op m => [0x0F#8, op, m]

/-- The bytes of a well-formed instruction, from the encodings of spec/opcode_table.json. -/
def encode (c : Ctx) : Instr → List Byte
  | .reserved x => encBlank x
  | .aad b => [0xD5#8, b]
  | .aam b => [0xD4#8, b]
  | .adc f => encAlu c 2 f
  | .add f => encAlu c 0 f
  | .and_ f => encAlu c 4 f
  | .arpl d s => 0x63#8 :: encRm s.num d
  | .bound r b => 0x62#8 :: encRm r.num b
  | .bsf d s => encTwo 0xBC d s
  | .bsr d s => encTwo 0xBD d s
  | .bswap r => [0x0F#8, opByte (0xC8 + r.num)]
  | .bt f => encBt 0xA3 4 f
  | .btc f => encBt 0xBB 7 f
  | .btr f => encBt 0xB3 6 f
  | .bts f => encBt 0xAB 5 f
  | .call f => encCall c f
  | .cmovo d s => encTwo 0x40 d s
  | .cmovno d s => encTwo 0x41 d s
  | .cmovb d s => encTwo 0x42 d s
  | .cmovae d s => encTwo 0x43 d s
  | .cmove d s => encTwo 0x44 d s
  | .cmovne d s => encTwo 0x45 d s
  | .cmovbe d s => encTwo 0x46 d s
  | .cmova d s => encTwo 0x47 d s
  | .cmovs d s => encTwo 0x48 d s
  | .cmovns d s => encTwo 0x49 d s
  | .cmovp d s => encTwo 0x4A d s
  | .cmovnp d s => encTwo 0x4B d s
  | .cmovl d s => encTwo 0x4C d s
  | .cmovge d s => encTwo 0x4D d s
  | .cmovle d s => encTwo 0x4E d s
  | .cmovg d s => encTwo 0x4F d s
  | .cmp f => encAlu c 7 f
  | .cmps w => [opByte (0xA6 + w.bit)]
  | .cmpxchg w d s => encTwo (0xB0 + w.bit) s d
  | .cmpxchg8b m => encTwoDigit 0xC7 1 m
  | .dec f => encInc 1 f
  | .div w s => opByte (0xF6 + w.bit) :: encRm 6 s
  | .enter s l => 0xC8#8 :: (leWord s ++ [l])
  | .fadd f => encFArith 0 0 f
  | .faddp i => [0xDE#8, fields3 3 0 i.num]
  | .fiadd f => encFInt2 0 f
  | .fbld a => 0xDF#8 :: encEa 4 a
  | .fbstp a => 0xDF#8 :: encEa 6 a
  | .fcmovb i => [0xDA#8, fields3 3 0 i.num]
  | .fcmove i => [0xDA#8, fields3 3 1 i.num]
  | .fcmovbe i => [0xDA#8, fields3 3 2 i.num]
  | .fcmovu i => [0xDA#8, fields3 3 3 i.num]
  | .fcmovnb i => [0xDB#8, fields3 3 0 i.num]
  | .fcmovne i => [0xDB#8, fields3 3 1 i.num]
  | .fcmovnbe i => [0xDB#8, fields3 3 2 i.num]
  | .fcmovnu i => [0xDB#8, fields3 3 3 i.num]
  | .fcom f => encFCom 2 f
  | .fcomp f => encFCom 3 f
  | .fcomi i => [0xDB#8, fields3 3 6 i.num]
  | .fcomip i => [0xDF#8, fields3 3 6 i.num]
  | .fucomi i => [0xDB#8, fields3 3 5 i.num]
  | .fucomip i => [0xDF#8, fields3 3 5 i.num]
  | .fdiv f => encFArith 6 7 f
  | .fdivp i => [0xDE#8, fields3 3 7 i.num]
  | .fidiv f => encFInt2 6 f
  | .fdivr f => encFArith 7 6 f
  | .fdivrp i => [0xDE#8, fields3 3 6 i.num]
  | .fidivr f => encFInt2 7 f
  | .ffree i => [0xDD#8, fields3 3 0 i.num]
  | .ficom f => encFInt2 2 f
  | .ficomp f => encFInt2 3 f
  | .fild f => match f with | .i16 a => 0xDF#8 :: encEa 0 a | .i32 a => 0xDB#8 :: encEa 0 a | .i64 a => 0xDF#8 :: encEa 5 a
  | .fist f => match f with | .i16 a => 0xDF#8 :: encEa 2 a | .i32 a => 0xDB#8 :: encEa 2 a
  | .fistp f => match f with | .i16 a => 0xDF#8 :: encEa 3 a | .i32 a => 0xDB#8 :: encEa 3 a | .i64 a => 0xDF#8 :: encEa 7 a
  | .fld f => match f with
    | .m32 a => 0xD9#8 :: encEa 0 a | .m64 a => 0xDD#8 :: encEa 0 a | .m80 a => 0xDB#8 :: encEa 5 a
    | .st i => [0xD9#8, fields3 3 0 i.num]
  | .fldcw a => 0xD9#8 :: encEa 5 a
  | .fldenv a => 0xD9#8 :: encEa 4 a
  | .fmul f => encFArith 1 1 f
  | .fmulp i => [0xDE#8, fields3 3 1 i.num]
  | .fimul f => encFInt2 1 f
  | .frstor a => 0xDD#8 :: encEa 4 a
  | .fsave a => 0x9B#8 :: 0xDD#8 :: encEa 6 a
  | .fnsave a => 0xDD#8 :: encEa 6 a
  | .fst f => match f with | .m32 a => 0xD9#8 :: encEa 2 a | .m64 a => 0xDD#8 :: encEa 2 a | .st i => [0xDD#8, fields3 3 2 i.num]
  | .fstp f => match f with
    | .m32 a => 0xD9#8 :: encEa 3 a | .m64 a => 0xDD#8 :: encEa 3 a | .m80 a => 0xDB#8 :: encEa 7 a
    | .st i => [0xDD#8, fields3 3 3 i.num]
  | .fstcw a => 0x9B#8 :: 0xD9#8 :: encEa 7 a
  | .fnstcw a => 0xD9#8 :: encEa 7 a
  | .fstenv a => 0x9B#8 :: 0xD9#8 :: encEa 6 a
  | .fnstenv a => 0xD9#8 :: encEa 6 a
  | .fstsw f => 0x9B#8 :: encFStsw f
  | .fnstsw f => encFStsw f
  | .fsub f => encFArith 4 5 f
  | .fsubp i => [0xDE#8, fields3 3 5 i.num]
  | .fisub f => encFInt2 4 f
  | .fsubr f => encFArith 5 4 f
  | .fsubrp i => [0xDE#8, fields3 3 4 i.num]
  | .fisubr f => encFInt2 5 f
  | .fucom i => [0xDD#8, fields3 3 4 i.num]
  | .fucomp i => [0xDD#8, fields3 3 5 i.num]
  | .fxch i => [0xD9#8, fields3 3 1 i.num]
  | .idiv w s => opByte (0xF6 + w.bit) :: encRm 7 s
  | .imul f => encImul c f
  | .inp w p => encPort 0xE4 w p
  | .inc f => encInc 0 f
  | .ins w => [opByte (0x6C + w.bit)]
  | .intN n => [0xCD#8, n]
  | .invlpg m => encTwoDigit 0x01 7 m
  | .jo t => encJcc c 0 t
  | .jno t => encJcc c 1 t
  | .jb t => encJcc c 2 t
  | .jae t => encJcc c 3 t
  | .je t => encJcc c 4 t
  | .jne t => encJcc c 5 t
  | .jbe t => encJcc c 6 t
  | .ja t => encJcc c 7 t
  | .js t => encJcc c 8 t
  | .jns t => encJcc c 9 t
  | .jp t => encJcc c 10 t
  | .jnp t => encJcc c 11 t
  | .jl t => encJcc c 12 t
  | .jge t => encJcc c 13 t
  | .jle t => encJcc c 14 t
  | .jg t => encJcc c 15 t
  | .jcxz d => [0xE3#8, d]
  | .jecxz d => [0xE3#8, d]
  | .jmp f => encJmp c f
  | .lar d s => encTwo 0x02 d s
  | .lds d m => 0xC5#8 :: encRm d.num m
  | .les d m => 0xC4#8 :: encRm d.num m
  | .lss d m => encTwo 0xB2 d m
  | .lfs d m => encTwo 0xB4 d m
  | .lgs d m => encTwo 0xB5 d m
  | .lea d m => 0x8D#8 :: encRm d.num m
  | .lgdt m => encTwoDigit 0x01 2 m
  | .lidt m => encTwoDigit 0x01 3 m
  | .lldt m => encTwoDigit 0x00 2 m
  | .lmsw m => encTwoDigit 0x01 6 m
  | .lods w => [opByte (0xAC + w.bit)]
  | .loop d => [0xE2#8, d]
  | .loope d => [0xE1#8, d]
  | .loopne d => [0xE0#8, d]
  | .lsl d s => encTwo 0x03 d s
  | .ltr m => encTwoDigit 0x00 3 m
  | .mov f => encMov c f
  | .movSreg f => encMovSreg f
  | .movCr f => encMovSys 0x20 f
  | .movDr f => encMovSys 0x21 f
  | .movd f => match f with | .toMm d s => 0x0F#8 :: 0x6E#8 :: encRm d.num s | .fromMm d s => 0x0F#8 :: 0x7E#8 :: encRm s.num d
  | .movq f => match f with | .load d s => encMm 0x6F d s | .store d s => encMm 0x7F s d
  | .movs w => [opByte (0xA4 + w.bit)]
  | .movsx w d s => encTwo (0xBE + w.bit) d s
  | .movzx w d s => encTwo (0xB6 + w.bit) d s
  | .mul w s => opByte (0xF6 + w.bit) :: encRm 4 s
  | .neg w s => opByte (0xF6 + w.bit) :: encRm 3 s
  | .not_ w s => opByte (0xF6 + w.bit) :: encRm 2 s
  | .or_ f => encAlu c 1 f
  | .outp w p => encPort 0xE6 w p
  | .outs w => [opByte (0x6E + w.bit)]
  | .packsswb d s => encMm 0x63 d s
  | .packssdw d s => encMm 0x6B d s
  | .packuswb d s => encMm 0x67 d s
  | .paddb d s => encMm 0xFC d s
  | .paddw d s => encMm 0xFD d s
  | .paddd d s => encMm 0xFE d s
  | .paddsb d s => encMm 0xEC d s
  | .paddsw d s => encMm 0xED d s
  | .paddusb d s => encMm 0xDC d s
  | .paddusw d s => encMm 0xDD d s
  | .pand d s => encMm 0xDB d s
  | .pandn d s => encMm 0xDF d s
  | .pcmpeqb d s => encMm 0x74 d s
  | .pcmpeqw d s => encMm 0x75 d s
  | .pcmpeqd d s => encMm 0x76 d s
  | .pcmpgtb d s => encMm 0x64 d s
  | .pcmpgtw d s => encMm 0x65 d s
  | .pcmpgtd d s => encMm 0x66 d s
  | .pmaddwd d s => encMm 0xF5 d s
  | .pmulhw d s => encMm 0xE5 d s
  | .pmullw d s => encMm 0xD5 d s
  | .por d s => encMm 0xEB d s
  | .psllw f => encMShift 0xF1 0x71 6 f
  | .pslld f => encMShift 0xF2 0x72 6 f
  | .psllq f => encMShift 0xF3 0x73 6 f
  | .psraw f => encMShift 0xE1 0x71 4 f
  | .psrad f => encMShift 0xE2 0x72 4 f
  | .psrlw f => encMShift 0xD1 0x71 2 f
  | .psrld f => encMShift 0xD2 0x72 2 f
  | .psrlq f => encMShift 0xD3 0x73 2 f
  | .psubb d s => encMm 0xF8 d s
  | .psubw d s => encMm 0xF9 d s
  | .psubd d s => encMm 0xFA d s
  | .psubsb d s => encMm 0xE8 d s
  | .psubsw d s => encMm 0xE9 d s
  | .psubusb d s => encMm 0xD8 d s
  | .psubusw d s => encMm 0xD9 d s
  | .punpckhbw d s => encMm 0x68 d s
  | .punpckhwd d s => encMm 0x69 d s
  | .punpckhdq d s => encMm 0x6A d s
  | .punpcklbw d s => encMm 0x60 d s
  | .punpcklwd d s => encMm 0x61 d s
  | .punpckldq d s => encMm 0x62 d s
  | .pxor d s => encMm 0xEF d s
  | .pop f => encPop f
  | .push f => encPush c f
  | .rol f => encShift 0 f
  | .ror f => encShift 1 f
  | .rcl f => encShift 2 f
  | .rcr f => encShift 3 f
  | .ret f => encRet f
  | .salShl f => encShift 4 f
  | .shr f => encShift 5 f
  | .sar f => encShift 7 f
  | .sbb f => encAlu c 3 f
  | .scas w => [opByte (0xAE + w.bit)]
  | .seto d => encTwoDigit 0x90 0 d
  | .setno d => encTwoDigit 0x91 0 d
  | .setb d => encTwoDigit 0x92 0 d
  | .setae d => encTwoDigit 0x93 0 d
  | .sete d => encTwoDigit 0x94 0 d
  | .setne d => encTwoDigit 0x95 0 d
  | .setbe d => encTwoDigit 0x96 0 d
  | .seta d => encTwoDigit 0x97 0 d
  | .sets d => encTwoDigit 0x98 0 d
  | .setns d => encTwoDigit 0x99 0 d
  | .setp d => encTwoDigit 0x9A 0 d
  | .setnp d => encTwoDigit 0x9B 0 d
  | .setl d => encTwoDigit 0x9C 0 d
  | .setge d => encTwoDigit 0x9D 0 d
  | .setle d => encTwoDigit 0x9E 0 d
  | .setg d => encTwoDigit 0x9F 0 d
  | .sgdt m => encTwoDigit 0x01 0 m
  | .sidt m => encTwoDigit 0x01 1 m
  | .shld f => encShxd 0xA4 f
  | .shrd f => encShxd 0xAC f
  | .sldt m => encTwoDigit 0x00 0 m
  | .smsw m => encTwoDigit 0x01 4 m
  | .stos w => [opByte (0xAA + w.bit)]
  | .str m => encTwoDigit 0x00 1 m
  | .sub f => encAlu c 5 f
  | .test f => encTest c f
  | .verr m => encTwoDigit 0x00 4 m
  | .verw m => encTwoDigit 0x00 5 m
  | .xadd w d s => encTwo (0xC0 + w.bit) s d
  | .xchg f => match f with | .rmR w a b => opByte (0x86 + w.bit) :: encRm b.num a | .acc r => [opByte (0x90 + r.num)]
  | .xor_ f => encAlu c 6 f
  | .segCs => [0x2E#8]
  | .segSs => [0x36#8]
  | .segDs => [0x3E#8]
  | .segEs => [0x26#8]
  | .segFs => [0x64#8]
  | .segGs => [0x65#8]
  | .opSize => [0x66#8]
  | .adSize => [0x67#8]
  | .lock => [0xF0#8]
  | .rep => [0xF3#8]
  | .repne => [0xF2#8]
  | .invalidOpcode => [0x0F#8, 0xB9#8]
  | .aaa => [0x37#8]
  | .aas => [0x3F#8]
  | .cbw => [0x98#8]
  | .cwde => [0x98#8]
  | .clc => [0xF8#8]
  | .cld => [0xFC#8]
  | .cli => [0xFA#8]
  | .clts => [0x0F#8, 0x06#8]
  | .cmc => [0xF5#8]
  | .cpuid => [0x0F#8, 0xA2#8]
  | .cwd => [0x99#8]
  | .cdq => [0x99#8]
  | .daa => [0x27#8]
  | .das => [0x2F#8]
  | .emms => [0x0F#8, 0x77#8]
  | .f2xm1 => [0xD9#8, 0xF0#8]
  | .fabs => [0xD9#8, 0xE1#8]
  | .fchs => [0xD9#8, 0xE0#8]
  | .fclex => [0x9B#8, 0xDB#8, 0xE2#8]
  | .fnclex => [0xDB#8, 0xE2#8]
  | .fcompp => [0xDE#8, 0xD9#8]
  | .fcos => [0xD9#8, 0xFF#8]
  | .fdecstp => [0xD9#8, 0xF6#8]
  | .fincstp => [0xD9#8, 0xF7#8]
  | .finit => [0x9B#8, 0xDB#8, 0xE3#8]
  | .fninit => [0xDB#8, 0xE3#8]
  | .fld1 => [0xD9#8, 0xE8#8]
  | .fldl2t => [0xD9#8, 0xE9#8]
  | .fldl2e => [0xD9#8, 0xEA#8]
  | .fldpi => [0xD9#8, 0xEB#8]
  | .fldlg2 => [0xD9#8, 0xEC#8]
  | .fldln2 => [0xD9#8, 0xED#8]
  | .fldz => [0xD9#8, 0xEE#8]
  | .fnop => [0xD9#8, 0xD0#8]
  | .fpatan => [0xD9#8, 0xF3#8]
  | .fprem => [0xD9#8, 0xF8#8]
  | .fprem1 => [0xD9#8, 0xF5#8]
  | .fptan => [0xD9#8, 0xF2#8]
  | .frndint => [0xD9#8, 0xFC#8]
  | .fscale => [0xD9#8, 0xFD#8]
  | .fsin => [0xD9#8, 0xFE#8]
  | .fsincos => [0xD9#8, 0xFB#8]
  | .fsqrt => [0xD9#8, 0xFA#8]
  | .ftst => [0xD9#8, 0xE4#8]
  | .fucompp => [0xDA#8, 0xE9#8]
  | .fxam => [0xD9#8, 0xE5#8]
  | .fxtract => [0xD9#8, 0xF4#8]
  | .fyl2x => [0xD9#8, 0xF1#8]
  | .fyl2xp1 => [0xD9#8, 0xF9#8]
  | .hlt => [0xF4#8]
  | .int3 => [0xCC#8]
  | .into => [0xCE#8]
  | .invd => [0x0F#8, 0x08#8]
  | .iret => [0xCF#8]
  | .iretd => [0xCF#8]
  | .lahf => [0x9F#8]
  | .leave => [0xC9#8]
  | .nop => [0x90#8]
  | .popa => [0x61#8]
  | .popad => [0x61#8]
  | .popf => [0x9D#8]
  | .popfd => [0x9D#8]
  | .pusha => [0x60#8]
  | .pushad => [0x60#8]
  | .pushf => [0x9C#8]
  | .pushfd => [0x9C#8]
  | .rdmsr => [0x0F#8, 0x32#8]
  | .rdpmc => [0x0F#8, 0x33#8]
  | .rdtsc => [0x0F#8, 0x31#8]
  | .rsm => [0x0F#8, 0xAA#8]
  | .sahf => [0x9E#8]
  | .stc => [0xF9#8]
  | .std => [0xFD#8]
  | .sti => [0xFB#8]
  | .ud2 => [0x0F#8, 0x0B#8]
  | .wait => [0x9B#8]
  | .wbinvd => [0x0F#8, 0x09#8]
  | .wrmsr => [0x0F#8, 0x30#8]
  | .xlat => [0xD7#8]

/-! ## The host's view -/

/-- The low `k` bytes of a number, first byte first. -/
def tableBytes : Nat → Nat → List Byte
  | 0, _ => []
  | k + 1, w => BitVec.ofNat 8 w :: tableBytes k (w / 256)

/-- The decoding context after reset: real-address mode, 16-bit sizes, no prefix (R168, R169). -/
def Ctx.reset : Ctx := { os32 := false, as32 := false, waitAlone := false }

/-- The instruction the decoder reads from the bits `w` of a row of the opcode table, in the context after
reset: the row's bytes, then zeros. -/
def decodeTableWord (nbits w : Nat) : Option Instr :=
  (decode Ctx.reset (tableBytes Config.maxLen (w % 2 ^ nbits))).map Prod.fst

end Sys2Proof
end

