-- ==== Sys2Proof/Machine/State.lean ====
section
/-! DEFINITION. The machine's state as plain data (spec 10_state), its faults and refusals, the exceptions
it can take, and the state after reset (R90). -/

namespace Sys2Proof.Machine

/-- The eight general registers (R30). -/
structure Gprs where
  eax : Dword
  ecx : Dword
  edx : Dword
  ebx : Dword
  esp : Dword
  ebp : Dword
  esi : Dword
  edi : Dword
deriving DecidableEq, Repr

/-- EFLAGS by its named bits (R40). The reserved bits are constants of `Flags.toDword`: bit 1 reads 1, bits 3,
5, 15 and 31:22 read 0, so no write can reach them. -/
structure Flags where
  cf : Bool
  pf : Bool
  af : Bool
  zf : Bool
  sf : Bool
  tf : Bool
  if_ : Bool
  df : Bool
  of_ : Bool
  iopl : BitVec 2
  nt : Bool
  rf : Bool
  vm : Bool
  ac : Bool
  vif : Bool
  vip : Bool
  id : Bool
deriving DecidableEq, Repr

/-- A segment register: the visible selector and the hidden descriptor cache (R50, R51). LDTR and TR have the
same shape (R53). `limit` is byte-granular, already scaled by G; `typ` is the four-bit type field (20_memory
R130, R131). -/
structure SegReg where
  sel : Word
  base : Dword
  limit : Dword
  typ : BitVec 4
  s : Bool
  dpl : BitVec 2
  p : Bool
  avl : Bool
  db : Bool
  g : Bool
  valid : Bool
deriving DecidableEq, Repr

/-- The six segment registers (R50). -/
structure Segs where
  es : SegReg
  cs : SegReg
  ss : SegReg
  ds : SegReg
  fs : SegReg
  gs : SegReg
deriving DecidableEq, Repr

/-- GDTR or IDTR: linear base and 16-bit limit (R52). -/
structure TableReg where
  base : Dword
  limit : Word
deriving DecidableEq, Repr

/-- The FPU status word by its fields (R72). Bit 15 (B) mirrors ES and is not stored. -/
structure FpuStatus where
  ie : Bool
  de : Bool
  ze : Bool
  oe : Bool
  ue : Bool
  pe : Bool
  sf : Bool
  es : Bool
  c0 : Bool
  c1 : Bool
  c2 : Bool
  c3 : Bool
  top : BitVec 3
deriving DecidableEq, Repr

/-- The FPU (R70 to R74): the data registers R0 to R7 (whose low 64 bits are MM0 to MM7, R77), control, status
and tag words, and the pointers to the last instruction and operand. `ferr` is the FERR# output (60 R709). -/
structure Fpu where
  r0 : Ext
  r1 : Ext
  r2 : Ext
  r3 : Ext
  r4 : Ext
  r5 : Ext
  r6 : Ext
  r7 : Ext
  cw : Word
  sw : FpuStatus
  tags : Word
  fipSel : Word
  fip : Dword
  fdpSel : Word
  fdp : Dword
  fop : BitVec 11
  ferr : Bool
deriving DecidableEq, Repr

/-- The interrupt shadow (R80): what it holds off is said in 60 R721. -/
inductive Shadow | none | sti | movSs
deriving DecidableEq, Repr

/-- The activity state (R84); system management mode is not modelled (D27). -/
inductive Activity | running | halted | shutdown
deriving DecidableEq, Repr

/-- A cached translation (R82, 20_memory R127): the linear page `page` (4-KByte page number, or the number of
a 2- or 4-MByte page when `big` gives its size in bits) maps to the physical address `frame`. -/
structure TlbEntry where
  page : Nat
  shift : Nat
  frame : Nat
  user : Bool
  write : Bool
  dirty : Bool
  global : Bool
deriving DecidableEq, Repr

/-- What lies at physical addresses that are not RAM: a memory-mapped device, or nothing (20_memory R155, D37). -/
inductive RegionKind | device | absent
deriving DecidableEq, Repr

/-- A range of physical addresses that is not RAM. -/
structure Region where
  base : Nat
  size : Nat
  kind : RegionKind
deriving DecidableEq, Repr

/-- A host event: a read of `size` bytes of a port, or a write of `value` (20_memory R140), and a read or a write of
bytes of memory-mapped devices (R156). -/
inductive IoEvent
  | read (port : Word) (size : Nat) (value : Dword)
  | write (port : Word) (size : Nat) (value : Dword)
  | memRead (cells : List Host.Cell)
  | memWrite (cells : List Host.Cell)
deriving DecidableEq, Repr

/-- A repeat prefix (30_encoding R163). -/
inductive Rep | none | rep | repne
deriving DecidableEq, Repr

/-- The prefixes of the instruction being executed (30_encoding R161): the MODEL's own latch. -/
structure Pfx where
  seg : Option SReg
  opsz : Bool
  adsz : Bool
  lock : Bool
  rep : Rep
deriving DecidableEq, Repr

/-- No prefix. -/
def Pfx.clear : Pfx := { seg := Option.none, opsz := false, adsz := false, lock := false, rep := .none }

/-- Physical memory: address and byte, addresses strictly rising, no entry equal to what an unlisted address
reads as (`Memory.wf`, in Machine/Mem.lean). -/
abbrev Memory := List Host.Cell

/-- An exception to be delivered (60_exceptions R700 to R704). `trap` saves the address of the next
instruction, else that of this one (R702); `cr2` is the linear address of a page fault; `dr6` are the bits a
debug exception sets in DR6; `flags` are the flags a divide error leaves undefined (93_implementation_defined 1.1). -/
structure Exc where
  vector : Byte
  err : Option Word
  trap : Bool
  cr2 : Option Dword
  dr6 : Dword
  flags : Option Flags
deriving DecidableEq, Repr

/-- Where an event comes from (60 R710): a software interrupt, an external one, or an exception (a fault or not). -/
inductive EventKind
  | software
  | external
  | exception (fault : Bool)
deriving DecidableEq, Repr

/-- An event to deliver (60 R710). -/
structure Event where
  vector : Byte
  kind : EventKind
  err : Option Word
deriving DecidableEq, Repr

/-- The machine's own faults: there are none. An exception of the architecture is taken. -/
inductive Fault
deriving DecidableEq, Repr

/-- The reasons an instruction is refused. -/
inductive Refusal
  /-- The instruction has no meaning in the model yet. Raised by `exec` only. Safe. -/
  | notModelled (mnemonic : String)
  /-- Two prefixes of one group (30 R166: "undefined and may vary from processor to processor"). Raised by the
  prefix instructions. Safe. -/
  | redundantPrefix
  /-- A repeat prefix with an instruction for which none is defined (30 R221: "undefined when used with
  non-string instructions"). Raised before the instruction's effect. Safe. -/
  | repUndefined
  /-- A write of 1 to CR4.VME or CR4.PVI (60 R735: no rule describes the modes they enable). Raised by MOV to
  CR4. Safe. -/
  | vmePvi
  /-- An FPU operation that rounds while the precision control is 01 (93_implementation_defined 1.5: refuse). Raised by
  the FPU instructions that round to the precision control. Safe. -/
  | reservedPrecision
  /-- MOV to or from a control or debug register with mod other than 11 (46 R511, R512; 93_implementation_defined:
  refuse). Raised by MOV CR and MOV DR. Safe. -/
  | movSysMod
deriving DecidableEq, Repr

/-- How a meaning can stop before its end: an exception (`exc` undoes what the instruction did, `excKeep`
keeps the state reached, as a task switch past its commit point does, 60 R741), a software interrupt (44 R446), a shutdown
(R84), the freeze before a waiting FPU instruction (60 R709), or a refusal. -/
inductive Stop
  | exc (e : Exc)
  | excKeep (e : Exc)
  | software (vector : Byte)
  | shutdown
  | freeze
  | refuse (r : Refusal)
deriving DecidableEq, Repr

/-- The state of the machine. INVENTORY.md lists every field with the rule that names it. -/
structure State where
  gpr : Gprs
  eip : Dword
  /-- the MODEL's own: the address after the instruction being executed (`next_pc`, R35) -/
  npc : Dword
  flags : Flags
  seg : Segs
  gdtr : TableReg
  idtr : TableReg
  ldtr : SegReg
  tr : SegReg
  cr0 : Dword
  cr2 : Dword
  cr3 : Dword
  cr4 : Dword
  pdpte0 : Qword
  pdpte1 : Qword
  pdpte2 : Qword
  pdpte3 : Qword
  dr0 : Dword
  dr1 : Dword
  dr2 : Dword
  dr3 : Dword
  dr6 : Dword
  dr7 : Dword
  /-- CPL in protected mode (R67); `State.curPl` gives it in every mode -/
  cpl : BitVec 2
  tsc : Qword
  pmc0 : BitVec 40
  pmc1 : BitVec 40
  /-- the model-specific registers written so far, indices strictly rising; another index holds
  `Config.msrReset` (R66) -/
  msrs : List (Dword × Qword)
  fpu : Fpu
  shadow : Shadow
  activity : Activity
  nmiBlocked : Bool
  tlb : List TlbEntry
  /-- an NMI request from outside (60 R720) -/
  nmiPending : Bool
  /-- a maskable interrupt request from outside, with its vector (60 R720) -/
  intrPending : Option Byte
  /-- the host's map of the physical addresses that are not RAM (20 R155); the first region that holds an address counts -/
  map : List Region
  /-- the MODEL's own: the I/O events so far, newest first -/
  ioLog : List IoEvent
  /-- the MODEL's own: bits set in memory by address translation and segment loading during this instruction;
  they stay set when the instruction faults (20 R122, R138) -/
  adLog : List (Nat × Byte)
  /-- the MODEL's own: which of DR0 to DR3 this instruction's accesses have matched (60 R748) -/
  dbgHits : BitVec 4
  /-- the MODEL's own: the prefixes read so far -/
  pfx : Pfx
  /-- the MODEL's own: the first two bytes after the prefixes of the instruction being executed, the first one low;
  the FPU takes its last-opcode register from them (R74) -/
  opBytes : Word
  /-- the MODEL's own: this step has delivered an exception or interrupt, or has frozen; what happens when an
  instruction completes (60 R748: RF, single step) does not happen then -/
  interrupted : Bool
  /-- the MODEL's own: this instruction has loaded RF from an image, so that its completion does not clear it (48 R602, 60
  R748) -/
  rfKept : Bool
  /-- the MODEL's own: an event that the next step delivers first: what a chain of deliveries longer than one step takes
  leads to (60 R723), or the debug trap after a delivery whose pushes met a data breakpoint (R748) -/
  deferred : Option Event
  /-- the MODEL's own: a counter that every free value is a function of -/
  fresh : Nat
  /-- RAM; at an address that is not RAM, the byte of the last access there, which nothing reads again (20 R155) -/
  mem : Memory
deriving DecidableEq, Repr

/-- Every flag 0: EFLAGS = 00000002H (R90). -/
def Flags.zero : Flags :=
  { cf := false, pf := false, af := false, zf := false, sf := false, tf := false, if_ := false, df := false,
    of_ := false, iopl := 0#2, nt := false, rf := false, vm := false, ac := false, vif := false, vip := false,
    id := false }

/-- A data segment register after reset: selector 0, base 0, limit FFFFH, read/write, accessed (R90). -/
def SegReg.resetData : SegReg :=
  { sel := 0x0000#16, base := 0x00000000#32, limit := 0x0000FFFF#32, typ := 0x3#4, s := true, dpl := 0#2,
    p := true, avl := false, db := false, g := false, valid := true }

/-- CS after reset: selector F000H, base FFFF0000H, limit FFFFH, accessed (R90). The type is that of a
readable code segment. -/
def SegReg.resetCs : SegReg :=
  { SegReg.resetData with sel := 0xF000#16, base := 0xFFFF0000#32, typ := 0xB#4 }

/-- LDTR (type 2) or TR (type 11, a busy 32-bit TSS: 70_reset R763 item 3) after reset: selector 0, base 0, limit FFFFH
(R90). -/
def SegReg.resetSys (t : BitVec 4) : SegReg :=
  { SegReg.resetData with typ := t, s := false }

/-- The FPU after hardware reset (R90): registers +0.0, control word 0040H, tag word 5555H. -/
def Fpu.reset : Fpu :=
  { r0 := 0#80, r1 := 0#80, r2 := 0#80, r3 := 0#80, r4 := 0#80, r5 := 0#80, r6 := 0#80, r7 := 0#80,
    cw := 0x0040#16,
    sw := { ie := false, de := false, ze := false, oe := false, ue := false, pe := false, sf := false,
            es := false, c0 := false, c1 := false, c2 := false, c3 := false, top := 0#3 },
    tags := 0x5555#16, fipSel := 0#16, fip := 0#32, fdpSel := 0#16, fdp := 0#32, fop := 0#11, ferr := false }

/-- The machine right after RESET# (R90). -/
def State.reset : State :=
  { gpr := { eax := 0#32, ecx := 0#32, edx := 0x00000611#32, ebx := 0#32, esp := 0#32, ebp := 0#32,
             esi := 0#32, edi := 0#32 },
    eip := 0x0000FFF0#32, npc := 0#32, flags := Flags.zero,
    seg := { es := SegReg.resetData, cs := SegReg.resetCs, ss := SegReg.resetData, ds := SegReg.resetData,
             fs := SegReg.resetData, gs := SegReg.resetData },
    gdtr := { base := 0#32, limit := 0xFFFF#16 }, idtr := { base := 0#32, limit := 0xFFFF#16 },
    ldtr := SegReg.resetSys 0x2#4, tr := SegReg.resetSys 0xB#4,
    cr0 := 0x60000010#32, cr2 := 0#32, cr3 := 0#32, cr4 := 0#32,
    pdpte0 := 0#64, pdpte1 := 0#64, pdpte2 := 0#64, pdpte3 := 0#64,
    dr0 := 0#32, dr1 := 0#32, dr2 := 0#32, dr3 := 0#32, dr6 := 0xFFFF0FF0#32, dr7 := 0x00000400#32,
    cpl := 0#2, tsc := 0#64, pmc0 := 0#40, pmc1 := 0#40, msrs := [], fpu := Fpu.reset,
    shadow := .none, activity := .running, nmiBlocked := false, tlb := [], nmiPending := false,
    intrPending := none, map := [], ioLog := [], adLog := [], dbgHits := 0#4, pfx := Pfx.clear, opBytes := 0#16,
    interrupted := false, rfKept := false, deferred := none, fresh := 0, mem := [] }

end Sys2Proof.Machine
end

