-- ==== Sys2Proof/Machine/Mem.lean ====
section
/-! DEFINITION. Physical memory: a sorted list of the bytes that differ from what an unlisted address reads as
(spec 20_memory R100). Byte order is decided here, once: little-endian. -/

namespace Sys2Proof.Machine

/-- The byte at a physical address. -/
def Memory.read : Memory → Nat → Byte
  | [], _ => Config.unlistedByte
  | (x, b) :: t, a => if x = a then b else if a < x then Config.unlistedByte else Memory.read t a

/-- `m` with the byte at `a` before all of `m`'s entries. -/
def Memory.cons (a : Nat) (b : Byte) (m : Memory) : Memory :=
  if b = Config.unlistedByte then m else (a, b) :: m

/-- Store a byte, keeping the canonical form. -/
def Memory.write : Memory → Nat → Byte → Memory
  | [], a, b => Memory.cons a b []
  | (x, c) :: t, a, b =>
    if x = a then Memory.cons a b t
    else if a < x then Memory.cons a b ((x, c) :: t)
    else (x, c) :: Memory.write t a b

/-- Every entry of `m` lies above `lo`, addresses rise strictly, and no entry holds the unlisted byte. -/
def Memory.wfAbove : Option Nat → Memory → Bool
  | _, [] => true
  | lo, (x, b) :: t =>
    (match lo with | none => true | some l => decide (l < x)) && (b != Config.unlistedByte) &&
      Memory.wfAbove (some x) t

/-- The canonical form of memory. -/
def Memory.wf (m : Memory) : Bool := Memory.wfAbove none m

/-- The bytes at a list of addresses, in order. -/
def Memory.readList (m : Memory) (as : List Nat) : List Byte := as.map m.read

/-- A number from its bytes, the first least significant (R100). -/
def leNat : List Byte → Nat
  | [] => 0
  | b :: t => b.toNat + 256 * leNat t

/-- The `n` low bytes of a number, the least significant first (R100). -/
def leBytes : Nat → Nat → List Byte
  | 0, _ => []
  | n + 1, v => BitVec.ofNat 8 v :: leBytes n (v / 256)

/-- Store a number at a list of addresses, low byte at the first (R100). -/
def Memory.writeList (m : Memory) : List Nat → Nat → Memory
  | [], _ => m
  | a :: as, v => Memory.writeList (m.write a (BitVec.ofNat 8 v)) as (v / 256)

/-- `n` consecutive addresses. -/
def addrs : Nat → Nat → List Nat
  | 0, _ => []
  | n + 1, a => a :: addrs n (a + 1)

end Sys2Proof.Machine
end

