-- ==== Sys2Proof/Machine/Regs.lean ====
section
/-! DEFINITION. The registers: one accessor for every register (spec 10_state), operand sizes, modes, and the
monad the meanings are written in. -/

namespace Sys2Proof.Machine

/-- An operand or address size (30_encoding R168, R169, R182). -/
inductive Sz | b | w | d
deriving DecidableEq, Repr

/-- Size in bits. -/
abbrev Sz.bits : Sz → Nat
  | .b => 8 | .w => 16 | .d => 32

/-- Size in bytes. -/
abbrev Sz.bytes : Sz → Nat
  | .b => 1 | .w => 2 | .d => 4

/-- A computation on the machine: it may stop, and then the state it reached is kept beside the reason. -/
abbrev M := EStateM Stop State

/-! ## General registers (R30, R31) -/

/-- A 32-bit register. -/
def Gprs.get (g : Gprs) : Reg → Dword
  | .eax => g.eax | .ecx => g.ecx | .edx => g.edx | .ebx => g.ebx
  | .esp => g.esp | .ebp => g.ebp | .esi => g.esi | .edi => g.edi

/-- Write a 32-bit register. -/
def Gprs.set (g : Gprs) (r : Reg) (v : Dword) : Gprs :=
  match r with
  | .eax => { g with eax := v } | .ecx => { g with ecx := v } | .edx => { g with edx := v }
  | .ebx => { g with ebx := v } | .esp => { g with esp := v } | .ebp => { g with ebp := v }
  | .esi => { g with esi := v } | .edi => { g with edi := v }

/-- The 32-bit register that holds byte register `r`, and whether the byte is its bits 15:8 (R31). -/
def byteHome : Reg → Reg × Bool
  | .eax => (.eax, false) | .ecx => (.ecx, false) | .edx => (.edx, false) | .ebx => (.ebx, false)
  | .esp => (.eax, true) | .ebp => (.ecx, true) | .esi => (.edx, true) | .edi => (.ebx, true)

/-- A byte register (R31). -/
def Gprs.get8 (g : Gprs) (r : Reg) : Byte :=
  let (h, hi) := byteHome r
  if hi then (g.get h).extractLsb' 8 8 else (g.get h).extractLsb' 0 8

/-- `v` with its low 16 bits replaced (R30). -/
def putLow16 (v : Dword) (x : Word) : Dword := v.extractLsb' 16 16 ++ x
/-- `v` with its low 8 bits replaced (R30). -/
def putLow8 (v : Dword) (x : Byte) : Dword := v.extractLsb' 8 24 ++ x
/-- `v` with its bits 15:8 replaced (R30). -/
def putHigh8 (v : Dword) (x : Byte) : Dword := v.extractLsb' 16 16 ++ x ++ v.extractLsb' 0 8

/-- Write a byte register; the other bits stay (R30). -/
def Gprs.set8 (g : Gprs) (r : Reg) (v : Byte) : Gprs :=
  let (h, hi) := byteHome r
  g.set h (if hi then putHigh8 (g.get h) v else putLow8 (g.get h) v)

/-- Register `r` at size `sz` (R31). -/
def Gprs.getSz (g : Gprs) (sz : Sz) (r : Reg) : BitVec sz.bits :=
  match sz with
  | .b => g.get8 r
  | .w => (g.get r).extractLsb' 0 16
  | .d => g.get r

/-- Write register `r` at size `sz`; the other bits stay (R30). -/
def Gprs.setSz (g : Gprs) (sz : Sz) (r : Reg) (v : BitVec sz.bits) : Gprs :=
  match sz, v with
  | .b, v => g.set8 r v
  | .w, v => g.set r (putLow16 (g.get r) v)
  | .d, v => g.set r v

/-- Register `r` at size `sz`. -/
def State.reg (s : State) (sz : Sz) (r : Reg) : BitVec sz.bits := s.gpr.getSz sz r

/-- The state with register `r` of size `sz` written. -/
def State.setReg (s : State) (sz : Sz) (r : Reg) (v : BitVec sz.bits) : State :=
  { s with gpr := s.gpr.setSz sz r v }

/-- Write a register. -/
def setReg (sz : Sz) (r : Reg) (v : BitVec sz.bits) : M Unit := modify (fun s => s.setReg sz r v)

/-! ## EFLAGS (R40) -/

/-- Bit `i` of a word made from a flag. -/
def bitAt (w i : Nat) (b : Bool) : BitVec w := if b then BitVec.ofNat w (2 ^ i) else 0

/-- EFLAGS as a doubleword (R40). -/
def Flags.toDword (f : Flags) : Dword :=
  bitAt 32 0 f.cf ||| bitAt 32 1 true ||| bitAt 32 2 f.pf ||| bitAt 32 4 f.af ||| bitAt 32 6 f.zf |||
  bitAt 32 7 f.sf ||| bitAt 32 8 f.tf ||| bitAt 32 9 f.if_ ||| bitAt 32 10 f.df ||| bitAt 32 11 f.of_ |||
  (f.iopl.setWidth 32 <<< 12) ||| bitAt 32 14 f.nt ||| bitAt 32 16 f.rf ||| bitAt 32 17 f.vm |||
  bitAt 32 18 f.ac ||| bitAt 32 19 f.vif ||| bitAt 32 20 f.vip ||| bitAt 32 21 f.id

/-- The flags of a doubleword; reserved bits are ignored (R40). -/
def Flags.ofDword (v : Dword) : Flags :=
  { cf := v.getLsbD 0, pf := v.getLsbD 2, af := v.getLsbD 4, zf := v.getLsbD 6, sf := v.getLsbD 7,
    tf := v.getLsbD 8, if_ := v.getLsbD 9, df := v.getLsbD 10, of_ := v.getLsbD 11,
    iopl := v.extractLsb' 12 2, nt := v.getLsbD 14, rf := v.getLsbD 16, vm := v.getLsbD 17,
    ac := v.getLsbD 18, vif := v.getLsbD 19, vip := v.getLsbD 20, id := v.getLsbD 21 }

/-- Change the flags. -/
def modifyFlags (f : Flags → Flags) : M Unit := modify (fun s => { s with flags := f s.flags })

/-! ## Modes and privilege (60_exceptions R730, R731) -/

/-- CR0.PE (R55). -/
def State.pe (s : State) : Bool := s.cr0.getLsbD 0
/-- Real-address mode. -/
def State.real (s : State) : Bool := !s.pe
/-- Virtual-8086 mode. -/
def State.v86 (s : State) : Bool := s.pe && s.flags.vm
/-- Protected mode proper. -/
def State.prot (s : State) : Bool := s.pe && !s.flags.vm
/-- The current privilege level: 0 in real-address mode, 3 in virtual-8086 mode (R67). After MOV CR0 or LMSW has set PE it
stays 0 until the first far transfer loads CS, whatever the low bits of the real-mode selector. DESIGN CHOICE, log 53. -/
def State.curPl (s : State) : Nat := if s.pe then (if s.flags.vm then 3 else s.cpl.toNat) else 0

/-- CR0 bits (R55). -/
def State.cr0Mp (s : State) : Bool := s.cr0.getLsbD 1
/-- CR0.EM. -/
def State.cr0Em (s : State) : Bool := s.cr0.getLsbD 2
/-- CR0.TS. -/
def State.cr0Ts (s : State) : Bool := s.cr0.getLsbD 3
/-- CR0.NE. -/
def State.cr0Ne (s : State) : Bool := s.cr0.getLsbD 5
/-- CR0.WP. -/
def State.cr0Wp (s : State) : Bool := s.cr0.getLsbD 16
/-- CR0.AM. -/
def State.cr0Am (s : State) : Bool := s.cr0.getLsbD 18
/-- CR0.PG. -/
def State.cr0Pg (s : State) : Bool := s.cr0.getLsbD 31
/-- CR4.TSD (R58). -/
def State.cr4Tsd (s : State) : Bool := s.cr4.getLsbD 2
/-- CR4.DE. -/
def State.cr4De (s : State) : Bool := s.cr4.getLsbD 3
/-- CR4.PSE. -/
def State.cr4Pse (s : State) : Bool := s.cr4.getLsbD 4
/-- CR4.PAE. -/
def State.cr4Pae (s : State) : Bool := s.cr4.getLsbD 5
/-- CR4.PGE. -/
def State.cr4Pge (s : State) : Bool := s.cr4.getLsbD 7
/-- CR4.PCE. -/
def State.cr4Pce (s : State) : Bool := s.cr4.getLsbD 8

/-- The operand and address size of code: 32 if CS.D in protected mode, else 16 (30_encoding R168). -/
def State.code32 (s : State) : Bool := s.prot && s.seg.cs.db
/-- The operand-size attribute is 32 (R168). -/
def State.os32 (s : State) : Bool := s.code32 != s.pfx.opsz
/-- The address-size attribute is 32 (R169). -/
def State.as32 (s : State) : Bool := s.code32 != s.pfx.adsz
/-- The operand size. -/
def State.osz (s : State) : Sz := if s.os32 then .d else .w
/-- The address size. -/
def State.asz (s : State) : Sz := if s.as32 then .d else .w
/-- The stack address size is 32 (20_memory R118). -/
def State.sas32 (s : State) : Bool := s.seg.ss.db

/-- The size of an operand of width `w` (30_encoding R182). -/
def State.wd (s : State) : Wd → Sz
  | .b => .b
  | .v => s.osz

/-! ## Segment registers (R50, R51) -/

/-- A segment register. -/
def Segs.get (g : Segs) : SReg → SegReg
  | .es => g.es | .cs => g.cs | .ss => g.ss | .ds => g.ds | .fs => g.fs | .gs => g.gs

/-- Write a segment register. -/
def Segs.set (g : Segs) (r : SReg) (v : SegReg) : Segs :=
  match r with
  | .es => { g with es := v } | .cs => { g with cs := v } | .ss => { g with ss := v }
  | .ds => { g with ds := v } | .fs => { g with fs := v } | .gs => { g with gs := v }

/-- Write a segment register. -/
def setSeg (r : SReg) (v : SegReg) : M Unit := modify (fun s => { s with seg := s.seg.set r v })

/-! ## Stops -/

/-- A fault without an error code (60_exceptions R700). -/
def Exc.plain (v : Byte) : Exc := { vector := v, err := none, trap := false, cr2 := none, dr6 := 0, flags := none }
/-- A fault with an error code. -/
def Exc.code (v : Byte) (e : Word) : Exc := { vector := v, err := some e, trap := false, cr2 := none, dr6 := 0, flags := none }
/-- The error code that names a selector: its RPL replaced by EXT = 0, IDT = 0 (R703). -/
def selCode (sel : Word) : Word := sel &&& 0xFFFC#16

/-- Divide error. -/
def Exc.de : Exc := .plain 0
/-- Debug exception; `bits` are set in DR6 (R748). -/
def Exc.db (trap : Bool) (bits : Dword) : Exc := { vector := 1, err := none, trap := trap, cr2 := none, dr6 := bits, flags := none }
/-- BOUND range exceeded. -/
def Exc.br : Exc := .plain 5
/-- Invalid opcode. -/
def Exc.ud : Exc := .plain 6
/-- Device not available. -/
def Exc.nm : Exc := .plain 7
/-- Double fault. -/
def Exc.df : Exc := { vector := 8, err := some 0, trap := false, cr2 := none, dr6 := 0, flags := none }
/-- Invalid TSS. -/
def Exc.ts (sel : Word) : Exc := .code 10 (selCode sel)
/-- Segment not present. -/
def Exc.np (sel : Word) : Exc := .code 11 (selCode sel)
/-- Stack fault. -/
def Exc.ss (sel : Word) : Exc := .code 12 (selCode sel)
/-- General protection. -/
def Exc.gp (sel : Word) : Exc := .code 13 (selCode sel)
/-- Page fault at `la` (20_memory R123). -/
def Exc.pf (la : Dword) (e : Word) : Exc := { vector := 14, err := some e, trap := false, cr2 := some la, dr6 := 0, flags := none }
/-- Floating-point error. -/
def Exc.mf : Exc := .plain 16
/-- Alignment check. -/
def Exc.ac : Exc := .code 17 0

/-- Abandon the instruction with an exception (60_exceptions R702). -/
def raise {α : Type} (e : Exc) : M α := throw (.exc e)

/-- Raise `e` where `c` holds. -/
def raiseIf (c : Bool) (e : Exc) : M Unit := if c then raise e else pure ()

/-! ## Free values -/

/-- A fresh index for a free value. -/
def freshNat : M Nat := do
  let s ← get
  set { s with fresh := s.fresh + 1 }
  return s.fresh

/-- A free bit (R47, D42). -/
def freeBit : M Bool := return Config.freeBit (← freshNat)
/-- A free doubleword (D42). -/
def freeDword : M Dword := return Config.freeDword (← freshNat)

end Sys2Proof.Machine
end

