-- ==== Sys2Proof/Machine/Flags.lean ====
section
/-! DEFINITION. The flag computations (spec 10_state R42 to R46), for an operand of any width. -/

namespace Sys2Proof.Machine

/-- PF: the low byte has an even number of 1 bits (R42). -/
def parity {w : Nat} (r : BitVec w) : Bool :=
  !(r.getLsbD 0 ^^ r.getLsbD 1 ^^ r.getLsbD 2 ^^ r.getLsbD 3 ^^ r.getLsbD 4 ^^ r.getLsbD 5 ^^ r.getLsbD 6 ^^
    r.getLsbD 7)

/-- SZP of a result (R42). -/
def Flags.szp {w : Nat} (f : Flags) (r : BitVec w) : Flags :=
  { f with sf := r.msb, zf := r == 0, pf := parity r }

/-- A carry as a number. -/
def carryNat (c : Bool) : Nat := if c then 1 else 0

/-- `a + b + c` in `w` bits. -/
def addC {w : Nat} (a b : BitVec w) (c : Bool) : BitVec w := a + b + BitVec.ofNat w (carryNat c)
/-- `a - b - c` in `w` bits. -/
def subC {w : Nat} (a b : BitVec w) (c : Bool) : BitVec w := a - b - BitVec.ofNat w (carryNat c)

/-- ADD_FLAGS (R43). -/
def Flags.addF {w : Nat} (f : Flags) (a b : BitVec w) (c : Bool) : Flags :=
  let r := addC a b c
  { f.szp r with
    cf := decide (2 ^ w ≤ a.toNat + b.toNat + carryNat c)
    of_ := a.msb == b.msb && r.msb != a.msb
    af := decide (16 ≤ a.toNat % 16 + b.toNat % 16 + carryNat c) }

/-- SUB_FLAGS (R44). -/
def Flags.subF {w : Nat} (f : Flags) (a b : BitVec w) (c : Bool) : Flags :=
  let r := subC a b c
  { f.szp r with
    cf := decide (a.toNat < b.toNat + carryNat c)
    of_ := a.msb != b.msb && r.msb != a.msb
    af := decide (a.toNat % 16 < b.toNat % 16 + carryNat c) }

/-- LOGIC_FLAGS (R45), AF being the free bit `af`. -/
def Flags.logicF {w : Nat} (f : Flags) (r : BitVec w) (af : Bool) : Flags :=
  { f.szp r with cf := false, of_ := false, af := af }

/-- The condition of a `tttn` number (R46). -/
inductive Cond | o | no | b | ae | e | ne | be | a | s | ns | p | np | l | ge | le | g
deriving DecidableEq, Repr

/-- Whether a condition holds (R46). -/
def Flags.cond (f : Flags) : Cond → Bool
  | .o => f.of_
  | .no => !f.of_
  | .b => f.cf
  | .ae => !f.cf
  | .e => f.zf
  | .ne => !f.zf
  | .be => f.cf || f.zf
  | .a => !f.cf && !f.zf
  | .s => f.sf
  | .ns => !f.sf
  | .p => f.pf
  | .np => !f.pf
  | .l => f.sf != f.of_
  | .ge => f.sf == f.of_
  | .le => f.zf || f.sf != f.of_
  | .g => !f.zf && f.sf == f.of_

end Sys2Proof.Machine
end

