-- ==== Sys2Proof/Machine/Paging.lean ====
section
/-! DEFINITION. Physical accesses to RAM and devices (spec 20_memory R155, R156), linear to physical addresses: paging,
the TLB, and system accesses (R120 to R127, R153). -/

namespace Sys2Proof.Machine

/-! ## Physical accesses -/

/-- The region that holds an address, if it is not RAM (R155). -/
def State.region (s : State) (a : Nat) : Option Region :=
  s.map.find? (fun r => decide (r.base ≤ a) && decide (a < r.base + r.size))

/-- The address is RAM (R155). -/
def State.isRam (s : State) (a : Nat) : Bool := (s.region a).isNone

/-- The address belongs to a memory-mapped device (R155). -/
def State.isDevice (s : State) (a : Nat) : Bool := (s.region a).any (fun r => decide (r.kind = .device))

/-- The host events with one more where it has bytes. -/
def logCells (mk : List Host.Cell → IoEvent) (cells : List Host.Cell) (log : List IoEvent) : List IoEvent :=
  if cells.isEmpty then log else mk cells :: log

/-- One read of the bytes at physical addresses is made: those that are not RAM take what the bus answers, and the bytes
of devices are a host event (R155, R156). Nothing happens where all of them are RAM. -/
def State.sampled (s : State) (ps : List Nat) : State :=
  let out := ps.filter (fun a => !s.isRam a)
  if out.isEmpty then s
  else
    let cells : List Host.Cell := out.map (fun a => (a, Config.busByte s.fresh a))
    { s with
      mem := cells.foldl (fun m c => m.write c.1 c.2) s.mem
      fresh := s.fresh + 1
      ioLog := logCells .memRead (cells.filter (fun c => s.isDevice c.1)) s.ioLog }

/-- A number stored at physical addresses; the bytes of devices are a host event (R100, R155, R156). -/
def State.stored (s : State) (ps : List Nat) (v : Nat) : State :=
  let m := s.mem.writeList ps v
  { s with mem := m, ioLog := logCells .memWrite ((ps.filter s.isDevice).map (fun a => (a, m.read a))) s.ioLog }

/-- Make one read of the bytes at physical addresses (R156). -/
def sample (ps : List Nat) : M Unit := modify (·.sampled ps)

/-- The bytes at physical addresses, as the last read found them, as one number (R100). -/
def loadAt (ps : List Nat) : M Nat := return leNat ((← get).mem.readList ps)

/-- Store a number at physical addresses (R100). -/
def storeAt (ps : List Nat) (v : Nat) : M Unit := modify (·.stored ps v)

/-! ## Paging -/

/-- Set bits of a byte of memory during translation or segment loading; the bits stay set if the instruction
then faults (R122, R138; 60 R702). -/
def orMem (pa : Nat) (mask : Byte) : M Unit := do
  let s ← get
  let b := s.mem.read pa
  if b ||| mask = b then pure ()
  else set { s.stored [pa] (b ||| mask).toNat with adLog := (pa, mask) :: s.adLog }

/-- An entry of `n` bytes of a paging structure. -/
def State.entry (s : State) (pa n : Nat) : Nat := leNat (s.mem.readList (addrs n pa))

/-- Read an entry of `n` bytes of a paging structure. -/
def readEntry (pa n : Nat) : M Nat := do
  sample (addrs n pa)
  return (← get).entry pa n

/-- The page-fault code: not-present or protection, write, user, reserved bit (R123). -/
def pfCode (p write user rsvd : Bool) : Word :=
  bitAt 16 0 p ||| bitAt 16 1 write ||| bitAt 16 2 user ||| bitAt 16 3 rsvd

/-- Whether the page permissions forbid the access (R122). -/
def pageDenied (wp pageUser pageWrite write user : Bool) : Bool :=
  (user && !pageUser) || (write && !pageWrite && (user || wp))

/-- A page the tables map: its size in bits, its frame, its permissions, and the addresses of the entries that
map it (`leaf` last). -/
structure Mapping where
  shift : Nat
  frame : Nat
  user : Bool
  write : Bool
  dirty : Bool
  global : Bool
  upper : Option Nat
  leaf : Nat
deriving DecidableEq, Repr

/-- The tables' mapping of `la`, or the page fault's P and RSVD bits (R121, R124, R125). -/
def lookup (la : Nat) : M (Except (Bool × Bool) Mapping) := do
  let s ← get
  if s.cr4Pae then
    let pdpte := (match la >>> 30 with
      | 0 => s.pdpte0 | 1 => s.pdpte1 | 2 => s.pdpte2 | _ => s.pdpte3).toNat
    let base (e : Nat) : Nat := e % 2 ^ Config.physBits / 4096 * 4096
    if !pdpte.testBit 0 then return .error (false, false)
    else
      let pdeAddr := base pdpte + 8 * (la >>> 21 % 512)
      let pde ← readEntry pdeAddr 8
      if !pde.testBit 0 then return .error (false, false)
      else if 2 ^ Config.physBits ≤ pde then return .error (true, true)
      else if pde.testBit 7 then
        return .ok { shift := 21, frame := pde / 2 ^ 21 * 2 ^ 21, user := pde.testBit 2, write := pde.testBit 1,
                     dirty := pde.testBit 6, global := pde.testBit 8, upper := none, leaf := pdeAddr }
      else
        let pteAddr := base pde + 8 * (la >>> 12 % 512)
        let pte ← readEntry pteAddr 8
        if !pte.testBit 0 then return .error (false, false)
        else if 2 ^ Config.physBits ≤ pte then return .error (true, true)
        else
          return .ok { shift := 12, frame := base pte, user := pde.testBit 2 && pte.testBit 2,
                       write := pde.testBit 1 && pte.testBit 1, dirty := pte.testBit 6, global := pte.testBit 8,
                       upper := some pdeAddr, leaf := pteAddr }
  else
    let pdeAddr := s.cr3.toNat / 4096 * 4096 + 4 * (la >>> 22)
    let pde ← readEntry pdeAddr 4
    if !pde.testBit 0 then return .error (false, false)
    else if s.cr4Pse && pde.testBit 7 then
      if pde / 2 ^ 13 % 2 ^ 9 ≠ 0 then return .error (true, true)
      else
        return .ok { shift := 22, frame := pde / 2 ^ 22 * 2 ^ 22, user := pde.testBit 2, write := pde.testBit 1,
                     dirty := pde.testBit 6, global := pde.testBit 8, upper := none, leaf := pdeAddr }
    else
      let pteAddr := pde / 4096 * 4096 + 4 * (la >>> 12 % 1024)
      let pte ← readEntry pteAddr 4
      if !pte.testBit 0 then return .error (false, false)
      else
        return .ok { shift := 12, frame := pte / 4096 * 4096, user := pde.testBit 2 && pte.testBit 2,
                     write := pde.testBit 1 && pte.testBit 1, dirty := pte.testBit 6, global := pte.testBit 8,
                     upper := some pdeAddr, leaf := pteAddr }

/-- The offset of `la` in a page of `2 ^ shift` bytes. -/
def pageOffset (la shift : Nat) : Nat := la % 2 ^ shift

/-- Cache a translation (R127). -/
def cacheTlb (e : TlbEntry) : M Unit := modify (fun s => if s.tlb.contains e then s else { s with tlb := e :: s.tlb })

/-- Translate through the tables, setting the accessed and dirty bits and caching the translation (R121, R122,
R127). -/
def walk (la : Dword) (write user : Bool) : M Nat := do
  let s ← get
  match ← lookup la.toNat with
  | .error (p, rsvd) => raise (.pf la (pfCode p write user rsvd))
  | .ok m =>
    if pageDenied s.cr0Wp m.user m.write write user then raise (.pf la (pfCode true write user false))
    else
      match m.upper with
      | some a => orMem a 0x20#8
      | none => pure ()
      orMem m.leaf (if write then 0x60#8 else 0x20#8)
      cacheTlb
        { page := la.toNat >>> m.shift, shift := m.shift, frame := m.frame, user := m.user, write := m.write,
          dirty := m.dirty || write, global := m.global && s.cr4Pge }
      return m.frame + pageOffset la.toNat m.shift

/-- The cached translations of `la`. -/
def State.cached (s : State) (la : Dword) : List TlbEntry :=
  s.tlb.filter (fun e => la.toNat >>> e.shift == e.page)

/-- The physical address of a linear address (R120). Where the TLB holds translations of the page, whether one of
them or the tables are used is a free choice (R127, D34); a write through an entry not marked dirty walks. -/
def translate (la : Dword) (write user : Bool) : M Nat := do
  let s ← get
  if !s.cr0Pg then return la.toNat
  else
    match s.cached la with
    | [] => walk la write user
    | c :: cs => do
      let k := Config.tlbChoice (← freshNat)
      match (c :: cs)[k]? with
      | none => walk la write user
      | some e =>
        if pageDenied s.cr0Wp e.user e.write write user then raise (.pf la (pfCode true write user false))
        else if write && !e.dirty then walk la write user
        else return e.frame + pageOffset la.toNat e.shift

/-- The physical addresses of `n` bytes from linear address `la`; each page is translated once, the lowest
failing byte raises its fault (R110 step 6). `prev` is the address of the byte below, in the same page or not. -/
def physFrom (write user : Bool) : Nat → Dword → Option Nat → M (List Nat)
  | 0, _, _ => pure []
  | n + 1, la, prev => do
    let pa ← match prev with
      | some p => if la.toNat % 4096 == 0 then translate la write user else pure (p + 1)
      | none => translate la write user
    let rest ← physFrom write user n (la + 1) (some pa)
    return pa :: rest

/-- The physical addresses of `n` bytes from linear address `la`. -/
def phys (la : Dword) (n : Nat) (write user : Bool) : M (List Nat) := physFrom write user n la none

/-- Read `n` bytes at a linear address as a supervisor: descriptor tables and the TSS (R133, R134). -/
def sysRead (la : Dword) (n : Nat) : M Nat := do
  let ps ← phys la n false false
  sample ps
  loadAt ps

/-- Write `n` bytes at a linear address as a supervisor. -/
def sysWrite (la : Dword) (n v : Nat) : M Unit := do storeAt (← phys la n true false) v

/-- Set bits of one byte at a linear address as a supervisor: a locked read-modify-write (R138). -/
def sysOr (la : Dword) (mask : Byte) : M Unit := do
  match ← phys la 1 true false with
  | p :: _ => do sample [p]; orMem p mask
  | [] => pure ()

/-- Drop every cached translation (R153). -/
def flushTlbAll : M Unit := modify (fun s => { s with tlb := [] })

/-- Drop the cached translations that are not global (R153). -/
def flushTlb : M Unit := modify (fun s => { s with tlb := s.tlb.filter (·.global) })

/-- Drop the cached translations of the page of `la` (R153). -/
def flushPage (la : Dword) : M Unit :=
  modify (fun s => { s with tlb := s.tlb.filter (fun e => la.toNat >>> e.shift != e.page) })

end Sys2Proof.Machine
end

