-- ==== Sys2Proof/Machine/Segments.lean ====
section
/-! DEFINITION. Segmentation: the checks of a memory access, descriptors, and loading segment registers (spec
20_memory R105 to R119, R130 to R141). -/

namespace Sys2Proof.Machine

/-! ## Debug breakpoints (60_exceptions R748) -/

/-- Bit `i` of a two-bit field of DR7. -/
def State.dr7Field (s : State) (lo : Nat) : BitVec 2 := s.dr7.extractLsb' lo 2

/-- Breakpoint address `i` (R60). -/
def State.drAddr (s : State) (i : Nat) : Dword :=
  match i with
  | 0 => s.dr0 | 1 => s.dr1 | 2 => s.dr2 | _ => s.dr3

/-- Breakpoint `i` is enabled, locally or globally (R62). -/
def State.bpEnabled (s : State) (i : Nat) : Bool := s.dr7.getLsbD (2 * i) || s.dr7.getLsbD (2 * i + 1)

/-- The length in bytes of breakpoint `i`; the undefined encoding 10 has none (R62). -/
def State.bpLen (s : State) (i : Nat) : Option Nat :=
  match (s.dr7Field (18 + 4 * i)).toNat with
  | 0 => some 1 | 1 => some 2 | 3 => some 4 | _ => none

/-- Whether the range of `len` bytes that holds address `a`, aligned on `len`, meets the `n` bytes at `x`. -/
def rangesMeet (a len x n : Nat) : Bool :=
  let lo := a / len * len
  decide (lo < x + n) && decide (x < lo + len)

/-- Record the enabled breakpoints whose R/W field `kinds` admits and whose range meets `n` bytes at `x`. The
undefined LEN = 10 matches freely. -/
def recordHits (kinds : BitVec 2 → Bool) (x n : Nat) : Nat → M Unit
  | 0 => pure ()
  | i + 1 => do
    recordHits kinds x n i
    let s ← get
    if s.bpEnabled i && kinds (s.dr7Field (16 + 4 * i)) then
      let hit ← match s.bpLen i with
        | some len => pure (rangesMeet (s.drAddr i).toNat len x n)
        | none => freeBit
      if hit then modify (fun s => { s with dbgHits := s.dbgHits ||| BitVec.ofNat 4 (2 ^ i) })
      else pure ()
    else pure ()

/-- Record the data breakpoints an access of `n` bytes at `la` meets: R/W = 01 on a write, 11 on either (R748). -/
def recordData (la : Dword) (n : Nat) (write : Bool) : M Unit := do
  if (← get).dr7.extractLsb' 0 8 == 0#8 then pure ()
  else recordHits (fun k => k == 3#2 || (write && k == 1#2)) la.toNat n 4

/-- Record the I/O breakpoints an access of `n` ports meets: CR4.DE = 1 and R/W = 10 (R748). -/
def recordIo (port : Word) (n : Nat) : M Unit := do
  let s ← get
  if s.dr7.extractLsb' 0 8 == 0#8 || !s.cr4De then pure ()
  else recordHits (fun k => k == 2#2) port.toNat n 4

/-! ## Access through a segment register -/

/-- The segment is a data segment (R130). -/
def SegReg.isData (g : SegReg) : Bool := g.s && !g.typ.getLsbD 3
/-- The segment is a code segment (R130). -/
def SegReg.isCode (g : SegReg) : Bool := g.s && g.typ.getLsbD 3
/-- A conforming code segment (R130). -/
def SegReg.conforming (g : SegReg) : Bool := g.typ.getLsbD 2
/-- A writable data segment (R130). -/
def SegReg.writable (g : SegReg) : Bool := g.isData && g.typ.getLsbD 1
/-- A data segment or readable code segment (R130). -/
def SegReg.readable (g : SegReg) : Bool := g.s && (!g.typ.getLsbD 3 || g.typ.getLsbD 1)
/-- An expand-down data segment (R107). -/
def SegReg.expandDown (g : SegReg) : Bool := g.isData && g.typ.getLsbD 2

/-- The limit check of an access of `n` bytes at offset `off` (R107). -/
def SegReg.inLimit (g : SegReg) (off : Dword) (n : Nat) : Bool :=
  let last := off.toNat + n - 1
  if g.expandDown then
    decide (g.limit.toNat < off.toNat) && decide (last ≤ if g.db then 0xFFFFFFFF else 0xFFFF)
  else decide (last ≤ g.limit.toNat) && decide (last ≤ 0xFFFFFFFF)

/-- CodeOffsetOK (R116). -/
def SegReg.codeOk (g : SegReg) (off : Dword) : Bool := decide (off.toNat ≤ g.limit.toNat)

/-- How an access uses memory; `rw` makes the checks of a write before the read (R111). -/
inductive Acc | r | w | rw
deriving DecidableEq, Repr

/-- The access writes. -/
def Acc.writes : Acc → Bool
  | .r => false | .w => true | .rw => true

/-- The access reads. -/
def Acc.reads : Acc → Bool
  | .r => true | .w => false | .rw => true

/-- #SS(0) through SS, #GP(0) otherwise (R107). -/
def segExc (r : SReg) : Exc := if r = .ss then .ss 0 else .gp 0

/-- Alignment checking is on (R113). -/
def State.alignOn (s : State) : Bool := s.cr0Am && s.flags.ac && s.curPl == 3

/-- The checks of steps 1 and 2 of R110, R111: a null segment, or one of the wrong type. -/
def State.segTypeOk (s : State) (r : SReg) (k : Acc) : Bool :=
  let g := s.seg.get r
  !s.prot || ((g.valid || r == .cs || r == .ss) && (if k.writes then g.writable else g.readable))

/-- LRead and LWrite up to the use of the value (R110, R111): check `n` bytes at `r:off`, aligned on `al` when
alignment checking is on, make the one read of an access that reads (R156), and give their physical addresses. Data
breakpoints match these accesses only, not those the processor makes for itself (`sysRead`, `sysWrite`): 60_exceptions R748
does not say. DESIGN CHOICE, log 25. An access that reads and writes is a write, for the dirty bit and the breakpoints too,
also where nothing is then stored. DESIGN CHOICE, log 55. -/
def access (r : SReg) (off : Dword) (n al : Nat) (k : Acc) : M (List Nat) := do
  let s ← get
  let g := s.seg.get r
  raiseIf (!s.segTypeOk r k) (.gp 0)
  raiseIf (!g.inLimit off n) (segExc r)
  let la := g.base + off
  raiseIf (s.alignOn && la.toNat % al != 0) .ac
  let ps ← phys la n k.writes (s.curPl == 3)
  recordData la n k.writes
  if k.reads then sample ps else pure ()
  return ps

/-- Read `n` bytes at `r:off`. -/
def readSeg (r : SReg) (off : Dword) (n al : Nat) : M Nat := do loadAt (← access r off n al .r)

/-- Write `n` bytes at `r:off`. -/
def writeSeg (r : SReg) (off : Dword) (n al v : Nat) : M Unit := do storeAt (← access r off n al .w) v

/-! ## Descriptors (R130 to R134) -/

/-- The selector is null (R137). -/
def isNull (sel : Word) : Bool := sel &&& 0xFFFC#16 == 0#16
/-- The RPL of a selector (R50). -/
def rpl (sel : Word) : Nat := sel.toNat % 4
/-- The table indicator of a selector: the LDT (R50). -/
def selTi (sel : Word) : Bool := sel.getLsbD 2
/-- The selector with its RPL replaced. -/
def withRpl (sel : Word) (n : Nat) : Word := (sel &&& 0xFFFC#16) ||| BitVec.ofNat 16 (n % 4)

/-- A descriptor as the hidden part of a segment register, under selector `sel` (R130). -/
def SegReg.ofDesc (sel : Word) (d : Qword) : SegReg :=
  let raw : Dword := (d.extractLsb' 48 4 ++ d.extractLsb' 0 16).setWidth 32
  { sel := sel
    base := d.extractLsb' 56 8 ++ d.extractLsb' 16 24
    limit := if d.getLsbD 55 then (raw <<< 12) ||| 0xFFF#32 else raw
    typ := d.extractLsb' 40 4, s := d.getLsbD 44, dpl := d.extractLsb' 45 2, p := d.getLsbD 47
    avl := d.getLsbD 52, db := d.getLsbD 54, g := d.getLsbD 55, valid := true }

/-- A gate descriptor (R132). -/
structure Gate where
  off : Dword
  sel : Word
  count : Nat
  typ : BitVec 4
  s : Bool
  dpl : Nat
  p : Bool
deriving DecidableEq, Repr

/-- The gate of eight bytes; a 16-bit gate has a 16-bit offset (R132). -/
def Gate.ofDesc (d : Qword) : Gate :=
  { off := if d.getLsbD 43 then d.extractLsb' 48 16 ++ d.extractLsb' 0 16 else (d.extractLsb' 0 16).setWidth 32
    sel := d.extractLsb' 16 16, count := (d.extractLsb' 32 5).toNat, typ := d.extractLsb' 40 4
    s := d.getLsbD 44, dpl := (d.extractLsb' 45 2).toNat, p := d.getLsbD 47 }

/-- The gate is a 32-bit gate (R131). -/
def Gate.is32 (g : Gate) : Bool := g.typ.getLsbD 3

/-- The linear address of a selector's descriptor, or none where its table does not hold it (R134). -/
def State.descAddr (s : State) (sel : Word) : Option Dword :=
  let off := sel.toNat / 8 * 8
  if selTi sel then
    if s.ldtr.valid && off + 7 ≤ s.ldtr.limit.toNat then some (s.ldtr.base + BitVec.ofNat 32 off) else none
  else if off + 7 ≤ s.gdtr.limit.toNat then some (s.gdtr.base + BitVec.ofNat 32 off)
  else none

/-- A descriptor with its address. -/
structure Desc where
  addr : Dword
  raw : Qword
deriving DecidableEq, Repr

/-- The descriptor as a segment register under its selector. -/
def Desc.seg (d : Desc) (sel : Word) : SegReg := .ofDesc sel d.raw
/-- The type field (R130). -/
def Desc.typ (d : Desc) : Nat := (d.raw.extractLsb' 40 4).toNat
/-- S: code or data. -/
def Desc.s (d : Desc) : Bool := d.raw.getLsbD 44
/-- DPL. -/
def Desc.dpl (d : Desc) : Nat := (d.raw.extractLsb' 45 2).toNat
/-- Present. -/
def Desc.p (d : Desc) : Bool := d.raw.getLsbD 47
/-- A code segment. -/
def Desc.isCode (d : Desc) : Bool := d.s && d.raw.getLsbD 43
/-- A conforming code segment. -/
def Desc.conf (d : Desc) : Bool := d.raw.getLsbD 42
/-- A writable data segment. -/
def Desc.writable (d : Desc) : Bool := d.s && !d.raw.getLsbD 43 && d.raw.getLsbD 41
/-- A data segment or readable code segment. -/
def Desc.readable (d : Desc) : Bool := d.s && (!d.raw.getLsbD 43 || d.raw.getLsbD 41)

/-- ReadDescriptor (R134). -/
def readDesc (sel : Word) : M (Option Desc) := do
  match (← get).descAddr sel with
  | none => return none
  | some a => return some { addr := a, raw := BitVec.ofNat 64 (← sysRead a 8) }

/-- ReadDescriptor, raising `e` where there is none. -/
def needDesc (sel : Word) (e : Exc) : M Desc := do
  match ← readDesc sel with
  | none => raise e
  | some d => return d

/-- Set the accessed bit of a code or data descriptor that has it clear (R138). -/
def setAccessed (d : Desc) : M Unit :=
  if d.raw.getLsbD 40 then pure () else sysOr (d.addr + 5) 0x01#8

/-- The descriptor with its accessed bit set, as a segment register (R138, R139). -/
def Desc.loaded (d : Desc) (sel : Word) : SegReg := .ofDesc sel (d.raw ||| BitVec.ofNat 64 (2 ^ 40))

/-! ## Loading segment registers (R106, R135, R136, R139) -/

/-- A segment register loaded the 8086 way: base 16 times the selector, limit FFFFH, and a writable data segment (R106),
whose level is that of the mode. In real-address mode the bits D/B and G stay: the stack is 32 bits wide there where
a 32-bit stack segment was loaded in protected mode (R118). Log 27. -/
def SegReg.load86 (g : SegReg) (v86 : Bool) (sel : Word) : SegReg :=
  { sel := sel, base := sel.setWidth 32 <<< 4, limit := 0xFFFF#32, typ := 0x3#4, s := true
    dpl := if v86 then 3#2 else 0#2, p := true, avl := false
    db := !v86 && g.db, g := !v86 && g.g, valid := true }

/-- CS loaded the 8086 way by a far return, or by IRET in real-address mode: its limit stays (44 R449, 48 R616). -/
def SegReg.return86 (g : SegReg) (v86 : Bool) (sel : Word) : SegReg := { g.load86 v86 sel with limit := g.limit }

/-- Load a segment register in real-address or virtual-8086 mode (R106). -/
def load86 (r : SReg) (sel : Word) : M Unit := do
  let s ← get
  setSeg r ((s.seg.get r).load86 s.v86 sel)

/-- Load CS by a far return in real-address or virtual-8086 mode, or by IRET in real-address mode. -/
def return86 (sel : Word) : M Unit := do
  let s ← get
  setSeg .cs (s.seg.cs.return86 s.v86 sel)

/-- LoadDataSeg (R135). -/
def loadDataSeg (r : SReg) (sel : Word) : M Unit := do
  if isNull sel then
    modify (fun s => { s with seg := s.seg.set r { s.seg.get r with sel := sel, valid := false } })
  else
    let d ← needDesc sel (.gp sel)
    let cpl := (← get).curPl
    raiseIf (!d.readable) (.gp sel)
    raiseIf (!(d.isCode && d.conf) && (decide (d.dpl < rpl sel) || decide (d.dpl < cpl))) (.gp sel)
    raiseIf (!d.p) (.np sel)
    setAccessed d
    setSeg r (d.loaded sel)

/-- LoadSS (R136). -/
def loadSs (sel : Word) : M Unit := do
  raiseIf (isNull sel) (.gp 0)
  let d ← needDesc sel (.gp sel)
  let cpl := (← get).curPl
  raiseIf (rpl sel != cpl || !d.writable || d.dpl != cpl) (.gp sel)
  raiseIf (!d.p) (.ss sel)
  setAccessed d
  setSeg .ss (d.loaded sel)

/-- Load a segment register by MOV, POP or a far pointer, in every mode. -/
def loadSegReg (r : SReg) (sel : Word) : M Unit := do
  if (← get).prot then (if r = .ss then loadSs sel else loadDataSeg r sel)
  else load86 r sel

/-- LoadCS: the selector with RPL `pl`, and CPL becomes `pl` (R139, R67). -/
def loadCs (sel : Word) (d : Desc) (pl : Nat) : M Unit := do
  setAccessed d
  modify (fun s => { s with seg := { s.seg with cs := d.loaded (withRpl sel pl) }, cpl := BitVec.ofNat 2 pl })

/-! ## I/O permission (R140, R141) -/

/-- The current TSS is a 32-bit TSS (R131). -/
def State.tss32 (s : State) : Bool := s.tr.typ.getLsbD 3

/-- IoAllowed (R141): raise #GP(0) where the ports `port` to `port + n - 1` may not be used. A 32-bit TSS whose limit is
below 67H has no room for the map's base and denies every port. DESIGN CHOICE, log 54. -/
def checkIo (port : Word) (n : Nat) : M Unit := do
  let s ← get
  if s.pe && (decide (s.flags.iopl.toNat < s.curPl) || s.flags.vm) then
    raiseIf (!s.tss32) (.gp 0)
    raiseIf (decide (s.tr.limit.toNat < 0x67)) (.gp 0)
    let b ← sysRead (s.tr.base + 0x66#32) 2
    let o := b + port.toNat / 8
    raiseIf (decide (s.tr.limit.toNat < o + 1)) (.gp 0)
    let bits ← sysRead (s.tr.base + BitVec.ofNat 32 o) 2
    raiseIf (bits / 2 ^ (port.toNat % 8) % 2 ^ n != 0) (.gp 0)
  else pure ()

end Sys2Proof.Machine
end

