-- ==== Sys2Proof/Machine/Operands.lean ====
section
/-! DEFINITION. Operand forms: effective addresses (spec 30_encoding R173 to R176), `r/m` operands, immediates,
and the stack (20_memory R118; 48_int R600, R606). -/

namespace Sys2Proof.Machine

/-! ## Effective addresses -/

/-- A 16-bit base, from the registers before the instruction (R173). -/
def Gprs.base16 (g : Gprs) : Base16 → Word
  | .bxsi => g.getSz .w .ebx + g.getSz .w .esi
  | .bxdi => g.getSz .w .ebx + g.getSz .w .edi
  | .bpsi => g.getSz .w .ebp + g.getSz .w .esi
  | .bpdi => g.getSz .w .ebp + g.getSz .w .edi
  | .si => g.getSz .w .esi
  | .di => g.getSz .w .edi
  | .bp => g.getSz .w .ebp
  | .bx => g.getSz .w .ebx

/-- The scale as a shift (R175). -/
def scaleShift : Scale → Nat
  | .x1 => 0 | .x2 => 1 | .x4 => 2 | .x8 => 3

/-- The index of a 32-bit form (R175). -/
def Gprs.index (g : Gprs) : Option (Reg × Scale) → Dword
  | none => 0
  | some (r, s) => g.get r <<< scaleShift s

/-- The offset of a memory operand (R176). -/
def Gprs.eaOff (g : Gprs) : Ea → Dword
  | .a16 none d => d.setWidth 32
  | .a16 (some b) d => (g.base16 b + d).setWidth 32
  | .a32 none i d => g.index i + d
  | .a32 (some b) i d => g.get b + g.index i + d

/-- The default segment: SS where the base is BP, EBP or ESP, else DS (R173 to R176). -/
def defaultSeg : Ea → SReg
  | .a16 (some .bpsi) _ => .ss
  | .a16 (some .bpdi) _ => .ss
  | .a16 (some .bp) _ => .ss
  | .a32 (some .ebp) _ _ => .ss
  | .a32 (some .esp) _ _ => .ss
  | _ => .ds

/-- The segment of a memory operand: the override, or the default (20_memory R108). -/
def State.eaSeg (s : State) (a : Ea) : SReg := s.pfx.seg.getD (defaultSeg a)

/-- The segment of an operand that takes DS by default (R108). -/
def State.dsSeg (s : State) : SReg := s.pfx.seg.getD .ds

/-- Check an access of `n` bytes to a memory operand. -/
def accessEa (a : Ea) (n al : Nat) (k : Acc) : M (List Nat) := do
  let s ← get
  access (s.eaSeg a) (s.gpr.eaOff a) n al k

/-- Read `n` bytes of a memory operand. -/
def readEa (a : Ea) (n al : Nat) : M Nat := do loadAt (← accessEa a n al .r)

/-- Write `n` bytes of a memory operand. -/
def writeEa (a : Ea) (n al v : Nat) : M Unit := do storeAt (← accessEa a n al .w) v

/-- The memory operand of an instruction that allows no register there, else #UD (30_encoding R217). -/
def needMem : Rm → M Ea
  | .mem a => pure a
  | .reg _ => raise .ud

/-! ## `r/m` operands -/

/-- Where an operand is: a register, or checked physical addresses. -/
inductive Loc
  | reg (r : Reg)
  | mem (ps : List Nat)
deriving DecidableEq, Repr

/-- Find an operand of size `sz`, making the checks of its use. -/
def locate (sz : Sz) (m : Rm) (k : Acc) : M Loc := do
  match m with
  | .reg r => return .reg r
  | .mem a => return .mem (← accessEa a sz.bytes sz.bytes k)

/-- Read a located operand. -/
def Loc.read (sz : Sz) (l : Loc) : M (BitVec sz.bits) := do
  match l with
  | .reg r => return (← get).reg sz r
  | .mem ps => return BitVec.ofNat sz.bits (← loadAt ps)

/-- Write a located operand. -/
def Loc.write (sz : Sz) (l : Loc) (v : BitVec sz.bits) : M Unit :=
  match l with
  | .reg r => setReg sz r v
  | .mem ps => storeAt ps v.toNat

/-- Read an `r/m` operand. -/
def readRm (sz : Sz) (m : Rm) : M (BitVec sz.bits) := do (← locate sz m .r).read sz

/-- Write an `r/m` operand. -/
def writeRm (sz : Sz) (m : Rm) (v : BitVec sz.bits) : M Unit := do (← locate sz m .w).write sz v

/-- Read a register. -/
def getReg (sz : Sz) (r : Reg) : M (BitVec sz.bits) := return (← get).reg sz r

/-- An immediate at size `sz`. -/
def immSz (sz : Sz) (i : Dword) : BitVec sz.bits := i.setWidth sz.bits

/-- A byte sign-extended to size `sz` (R177). -/
def sext8 (sz : Sz) (i : Byte) : BitVec sz.bits := i.signExtend sz.bits

/-! ## Address-size registers (30_encoding R169) -/

/-- A register at the address size, zero-extended: CX or ECX, SI or ESI, and so on. -/
def State.regA (s : State) (r : Reg) : Dword := if s.as32 then s.gpr.get r else (s.gpr.getSz .w r).setWidth 32

/-- Write a register at the address size; with 16 bits the upper half stays (R30). -/
def State.setRegA (s : State) (r : Reg) (v : Dword) : State :=
  if s.as32 then s.setReg .d r v else s.setReg .w r (v.setWidth 16)

/-! ## The stack -/

/-- The stack pointer by the stack address size, zero-extended (20_memory R118). -/
def State.sp (s : State) : Dword :=
  if s.sas32 then s.gpr.esp else (s.gpr.esp.extractLsb' 0 16).setWidth 32

/-- An offset in the stack, modulo the stack address size (R118). -/
def State.wrapSp (s : State) (v : Dword) : Dword := if s.sas32 then v else (v.extractLsb' 0 16).setWidth 32

/-- Set the stack pointer; a 16-bit stack leaves ESP[31:16] (R118). -/
def State.setSp (s : State) (v : Dword) : State :=
  { s with gpr := { s.gpr with esp := if s.sas32 then v else putLow16 s.gpr.esp (v.setWidth 16) } }

/-- Set the stack pointer. -/
def setSp (v : Dword) : M Unit := modify (fun s => s.setSp v)

/-- Push_n (48_int R606). -/
def pushN (n v : Nat) : M Unit := do
  let a := (← get).wrapSp ((← get).sp - BitVec.ofNat 32 n)
  writeSeg .ss a n n v
  setSp a

/-- Pop_n (48_int R600). -/
def popN (n : Nat) : M Nat := do
  let s ← get
  let v ← readSeg .ss s.sp n n
  modify (fun s => s.setSp (s.sp + BitVec.ofNat 32 n))
  return v

/-- Push a value of size `sz`. -/
def pushSz (sz : Sz) (v : BitVec sz.bits) : M Unit := pushN sz.bytes v.toNat

/-- Pop a value of size `sz`. -/
def popSz (sz : Sz) : M (BitVec sz.bits) := return BitVec.ofNat sz.bits (← popN sz.bytes)

/-- StackRoom (20_memory R119): the `n` bytes below the top of stack are in the limit of SS. -/
def State.stackRoom (s : State) (n : Nat) : Bool :=
  s.seg.ss.inLimit (s.wrapSp (s.sp - BitVec.ofNat 32 n)) n

/-- The `n` bytes at the top of stack are in the limit of SS. -/
def State.stackHas (s : State) (n : Nat) : Bool := s.seg.ss.inLimit s.sp n

/-- Set the address of the next instruction. -/
def setNpc (v : Dword) : M Unit := modify (fun s => { s with npc := v })

end Sys2Proof.Machine
end

