-- ==== Sys2Proof/Machine/Ops.lean ====
section
/-! DEFINITION. Shared operations over whole instructions: task switches (spec 60_exceptions R740), delivering an
exception or interrupt (R710 to R723), returning from one (44_int R449 to R454), and running a meaning. -/

namespace Sys2Proof.Machine

/-! ## Small helpers -/

/-- The code of a selector with EXT (R703). -/
def extCode (sel : Word) (ext : Bool) : Word := selCode sel ||| bitAt 16 0 ext
/-- #TS with EXT. -/
def Exc.tsX (sel : Word) (ext : Bool) : Exc := .code 10 (extCode sel ext)
/-- #NP with EXT. -/
def Exc.npX (sel : Word) (ext : Bool) : Exc := .code 11 (extCode sel ext)
/-- #SS with EXT. -/
def Exc.ssX (sel : Word) (ext : Bool) : Exc := .code 12 (extCode sel ext)
/-- #GP with EXT. -/
def Exc.gpX (sel : Word) (ext : Bool) : Exc := .code 13 (extCode sel ext)

/-- ReadDescriptor, raising `e` where there is none or where `ok` does not hold. -/
def needDescOf (sel : Word) (ok : Desc → Bool) (e : Exc) : M Desc := do
  let d ← needDesc sel e
  raiseIf (!ok d) e
  return d

/-- `old` with the bits of `mask` taken from `img` (reserved bits stay fixed, R40). -/
def Flags.merge (old : Flags) (img mask : Dword) : Flags :=
  .ofDword ((old.toDword &&& ~~~mask) ||| (img &&& mask))

/-- The descriptor is a TSS (20_memory R131). -/
def Desc.isTss (d : Desc) : Bool := !d.s && (d.typ == 1 || d.typ == 3 || d.typ == 9 || d.typ == 11)
/-- The descriptor is an available TSS. -/
def Desc.availTss (d : Desc) : Bool := !d.s && (d.typ == 1 || d.typ == 9)
/-- The descriptor is a busy TSS. -/
def Desc.busyTss (d : Desc) : Bool := !d.s && (d.typ == 3 || d.typ == 11)

/-- Load the four page-directory-pointer registers from the table at CR3; a reserved bit raises #GP(0)
(20_memory R125). -/
def loadPdptes : M Unit := do
  let base := (← get).cr3.toNat / 32 * 32
  sample (addrs 32 base)
  let s ← get
  let e (i : Nat) : Nat := s.entry (base + 8 * i) 8
  raiseIf (decide (2 ^ Config.physBits ≤ e 0) || decide (2 ^ Config.physBits ≤ e 1) ||
    decide (2 ^ Config.physBits ≤ e 2) || decide (2 ^ Config.physBits ≤ e 3)) (.gp 0)
  set { s with pdpte0 := BitVec.ofNat 64 (e 0), pdpte1 := BitVec.ofNat 64 (e 1),
               pdpte2 := BitVec.ofNat 64 (e 2), pdpte3 := BitVec.ofNat 64 (e 3) }

/-! ## Task switches (R740, R741) -/

/-- What causes a task switch. -/
inductive SwitchKind | jmp | call | int | iret
deriving DecidableEq, Repr

/-- Turn the exceptions of `m` into exceptions that keep the state reached: those after the commit point of a
task switch (R741). A page fault still undoes the whole switch: the processor touches the pages it will need
before the commit point (R740). -/
def keepFaults {α : Type} (m : M α) : M α := fun s =>
  match m s with
  | .error (.exc e) s' => if e.vector = 14 then .error (.exc e) s' else .error (.excKeep e) s'
  | r => r

/-- The exception with EXT set, where its code is a selector code (R703). -/
def Exc.addExt (e : Exc) : Exc :=
  if e.vector = 10 ∨ e.vector = 11 ∨ e.vector = 12 ∨ e.vector = 13 then
    { e with err := e.err.map (· ||| 1#16) }
  else e

/-- Set EXT in the error codes that `m` raises, where `ext` holds. -/
def withExt {α : Type} (ext : Bool) (m : M α) : M α := fun s =>
  match m s with
  | .error (.exc e) s' => .error (.exc (if ext then e.addExt else e)) s'
  | .error (.excKeep e) s' => .error (.excKeep (if ext then e.addExt else e)) s'
  | r => r

/-- Set or clear the busy bit of the descriptor of `sel` in the GDT (20_memory R138). -/
def markBusy (sel : Word) (busy : Bool) : M Unit := do
  let a := (← get).gdtr.base + BitVec.ofNat 32 (sel.toNat / 8 * 8 + 5)
  let b : Byte := BitVec.ofNat 8 (← sysRead a 1)
  sysWrite a 1 (if busy then b ||| 0x02#8 else b &&& 0xFD#8).toNat

/-- Write fields of `n` bytes, `step` bytes apart. -/
def saveFields (n step : Nat) : Dword → List Nat → M Unit
  | _, [] => pure ()
  | a, v :: vs => do
    sysWrite a n v
    saveFields n step (a + BitVec.ofNat 32 step) vs

/-- Save the outgoing task in its TSS: the return address, the flags image, the registers and the selectors (R740
step 4, 20_memory R133). -/
def saveTask (eip : Dword) (img : Dword) : M Unit := do
  let s ← get
  let g := s.gpr
  let regs : List Nat := [eip.toNat, img.toNat, g.eax.toNat, g.ecx.toNat, g.edx.toNat, g.ebx.toNat, g.esp.toNat,
    g.ebp.toNat, g.esi.toNat, g.edi.toNat]
  let sels : List Nat := [s.seg.es.sel.toNat, s.seg.cs.sel.toNat, s.seg.ss.sel.toNat, s.seg.ds.sel.toNat]
  if s.tss32 then
    saveFields 4 4 (s.tr.base + 0x20#32) regs
    saveFields 2 4 (s.tr.base + 0x48#32) (sels ++ [s.seg.fs.sel.toNat, s.seg.gs.sel.toNat])
  else
    saveFields 2 2 (s.tr.base + 0x0E#32) regs
    saveFields 2 2 (s.tr.base + 0x22#32) sels

/-- The image of a task in its TSS (20_memory R133). -/
structure TaskImage where
  cr3 : Dword
  eip : Dword
  flags : Dword
  eax : Dword
  ecx : Dword
  edx : Dword
  ebx : Dword
  esp : Dword
  ebp : Dword
  esi : Dword
  edi : Dword
  es : Word
  cs : Word
  ss : Word
  ds : Word
  fs : Word
  gs : Word
  ldt : Word
  trap : Bool
deriving DecidableEq, Repr

/-- The 32-bit TSS at `b`. -/
def readTask32 (b : Dword) : M TaskImage := do
  let r4 (o : Dword) : M Dword := return BitVec.ofNat 32 (← sysRead (b + o) 4)
  let r2 (o : Dword) : M Word := return BitVec.ofNat 16 (← sysRead (b + o) 2)
  return { cr3 := ← r4 0x1C, eip := ← r4 0x20, flags := ← r4 0x24, eax := ← r4 0x28, ecx := ← r4 0x2C,
           edx := ← r4 0x30, ebx := ← r4 0x34, esp := ← r4 0x38, ebp := ← r4 0x3C, esi := ← r4 0x40,
           edi := ← r4 0x44, es := ← r2 0x48, cs := ← r2 0x4C, ss := ← r2 0x50, ds := ← r2 0x54,
           fs := ← r2 0x58, gs := ← r2 0x5C, ldt := ← r2 0x60, trap := (← r2 0x64).getLsbD 0 }

/-- The 16-bit TSS at `b`; the upper halves of the registers may have any value (R740 step 7), FS and GS
become 0. -/
def readTask16 (b : Dword) : M TaskImage := do
  let r2 (o : Dword) : M Word := return BitVec.ofNat 16 (← sysRead (b + o) 2)
  let z (o : Dword) : M Dword := return (← r2 o).setWidth 32
  let u (o : Dword) : M Dword := return putLow16 (← freeDword) (← r2 o)
  return { cr3 := (← get).cr3, eip := ← z 0x0E, flags := ← z 0x10, eax := ← u 0x12, ecx := ← u 0x14,
           edx := ← u 0x16, ebx := ← u 0x18, esp := ← u 0x1A, ebp := ← u 0x1C, esi := ← u 0x1E,
           edi := ← u 0x20, es := ← r2 0x22, cs := ← r2 0x24, ss := ← r2 0x26, ds := ← r2 0x28,
           fs := 0, gs := 0, ldt := ← r2 0x2A, trap := false }

/-- A segment register that holds only a selector: its hidden part is marked invalid (R740 step 7). -/
def SegReg.selOnly (g : SegReg) (sel : Word) : SegReg := { g with sel := sel, valid := false }

/-- Load the registers of the incoming task (R740 step 7). RF is the image's, and the end of the instruction keeps it
(R748). -/
def loadTask (t : TaskImage) (is32 nested : Bool) : M Unit := do
  let s ← get
  let fl := Flags.ofDword t.flags
  set { s with
    gpr := { eax := t.eax, ecx := t.ecx, edx := t.edx, ebx := t.ebx, esp := t.esp, ebp := t.ebp, esi := t.esi,
             edi := t.edi }
    npc := t.eip
    flags := { fl with nt := fl.nt || nested }
    seg := { es := s.seg.es.selOnly t.es, cs := s.seg.cs.selOnly t.cs, ss := s.seg.ss.selOnly t.ss,
             ds := s.seg.ds.selOnly t.ds, fs := s.seg.fs.selOnly t.fs, gs := s.seg.gs.selOnly t.gs }
    ldtr := s.ldtr.selOnly t.ldt
    cpl := if fl.vm then 3#2 else t.cs.extractLsb' 0 2
    rfKept := true }
  if is32 && s.cr0Pg then
    modify (fun s => { s with cr3 := t.cr3 })
    flushTlb
    if s.cr4Pae then loadPdptes else pure ()
  else pure ()

/-- Load LDTR in a task switch: null, or a present LDT in the GDT (R740 step 8). -/
def loadLdtr (sel : Word) : M Unit := do
  if isNull sel then pure ()
  else
    raiseIf (selTi sel) (.ts sel)
    let d ← needDescOf sel (fun d => !d.s && d.typ == 2 && d.p) (.ts sel)
    modify (fun s => { s with ldtr := d.seg sel })

/-- Load CS in a task switch (R740 step 9). -/
def loadTaskCs (sel : Word) : M Unit := do
  raiseIf (isNull sel) (.ts sel)
  let d ← needDescOf sel
    (fun d => d.isCode && (if d.conf then decide (d.dpl ≤ rpl sel) else d.dpl == rpl sel)) (.ts sel)
  raiseIf (!d.p) (.np sel)
  loadCs sel d (rpl sel)

/-- Load SS in a task switch (R740 step 9). -/
def loadTaskSs (sel : Word) : M Unit := do
  raiseIf (isNull sel) (.ts sel)
  let cpl := (← get).curPl
  let d ← needDescOf sel (fun d => d.writable && rpl sel == cpl && d.dpl == cpl) (.ts sel)
  raiseIf (!d.p) (.ss sel)
  setAccessed d
  setSeg .ss (d.loaded sel)

/-- Load a data segment register in a task switch (R740 step 9). -/
def loadTaskData (r : SReg) (sel : Word) : M Unit := do
  if isNull sel then pure ()
  else
    let cpl := (← get).curPl
    let d ← needDescOf sel
      (fun d => d.readable && ((d.isCode && d.conf) || (decide (cpl ≤ d.dpl) && decide (rpl sel ≤ d.dpl)))) (.ts sel)
    raiseIf (!d.p) (.np sel)
    setAccessed d
    setSeg r (d.loaded sel)

/-- Load the descriptors of the incoming task (R740 steps 8 and 9). -/
def loadTaskSegs (t : TaskImage) : M Unit := do
  loadLdtr t.ldt
  if (← get).flags.vm then
    load86 .es t.es; load86 .cs t.cs; load86 .ss t.ss; load86 .ds t.ds; load86 .fs t.fs; load86 .gs t.gs
  else
    loadTaskCs t.cs
    loadTaskSs t.ss
    loadTaskData .ds t.ds
    loadTaskData .es t.es
    loadTaskData .fs t.fs
    loadTaskData .gs t.gs

/-- SwitchTasks up to the commit point (R740 steps 1 to 6): the busy bits, the outgoing task's TSS, and TR; `ret` is the
saved EIP, `img` the saved flags before step 3. TR that holds no TSS yet has no descriptor (20_memory R137). A switch also
clears the local breakpoint enables of DR7 (R741). -/
def leaveTask (tsel : Word) (xs : SegReg) (kind : SwitchKind) (ret img : Dword) : M Unit := do
  raiseIf (decide (xs.limit.toNat < if xs.typ.getLsbD 3 then 0x67 else 0x2B)) (.ts tsel)
  let old := (← get).tr.sel
  if (kind = .jmp ∨ kind = .iret) ∧ isNull old = false then markBusy old false else pure ()
  saveTask ret (if kind = .iret then img &&& 0xFFFFBFFF#32 else img)
  if kind = .iret then pure () else markBusy tsel true
  modify (fun s => { s with tr := { xs with typ := xs.typ ||| 2#4 }, cr0 := s.cr0 ||| 8#32,
                            dr7 := s.dr7 &&& 0xFFFFFEAA#32 })

/-- SwitchTasks from the commit point (R740 steps 7 to 9): the incoming task's image, whose link is `old` where the switch
nests. Answers whether its TSS asks for a debug trap. -/
def enterTask (xs : SegReg) (nested : Bool) (old : Word) : M Bool := do
  let t ← if xs.typ.getLsbD 3 then readTask32 xs.base else readTask16 xs.base
  if nested then sysWrite xs.base 2 old.toNat else pure ()
  loadTask t (xs.typ.getLsbD 3) nested
  loadTaskSegs t
  return t.trap

/-- A switch by CALL or an event nests (R740). -/
def SwitchKind.nests (k : SwitchKind) : Bool := decide (k = .call ∨ k = .int)

/-- SwitchTasks (R740) up to and including step 9, to the TSS `x` that `tsel` names. -/
def switchTasks (tsel : Word) (x : Desc) (kind : SwitchKind) (ret img : Dword) : M Bool := do
  let old := (← get).tr.sel
  leaveTask tsel (x.seg tsel) kind ret img
  keepFaults (enterTask (x.seg tsel) kind.nests old)

/-- The end of a task switch: the limit check of the caller, and the debug trap (R740 step 10). -/
def afterSwitch (trap : Bool) : M Unit := do
  keepFaults do
    let s ← get
    raiseIf (!s.seg.cs.codeOk s.npc) (.gp 0)
  if trap then throw (.excKeep (.db true 0x8000#32)) else pure ()

/-! ## Stack switches (R713, 41_int R283) -/

/-- The stack of level `pl` from the current TSS. -/
def tssStack (pl : Nat) : M (Word × Dword) := do
  let s ← get
  if s.tss32 then
    let a := pl * 8 + 4
    raiseIf (decide (s.tr.limit.toNat < a + 7)) (.ts s.tr.sel)
    let esp ← sysRead (s.tr.base + BitVec.ofNat 32 a) 4
    let ss ← sysRead (s.tr.base + BitVec.ofNat 32 (a + 4)) 2
    return (BitVec.ofNat 16 ss, BitVec.ofNat 32 esp)
  else
    let a := pl * 4 + 2
    raiseIf (decide (s.tr.limit.toNat < a + 4)) (.ts s.tr.sel)
    let sp ← sysRead (s.tr.base + BitVec.ofNat 32 a) 2
    let ss ← sysRead (s.tr.base + BitVec.ofNat 32 (a + 2)) 2
    return (BitVec.ofNat 16 ss, BitVec.ofNat 32 sp)

/-- The new stack of an inner level `pl`, with its checks: selector, pointer, descriptor. -/
def innerStack (pl : Nat) (ext : Bool) : M (Word × Dword × Desc) := do
  let (ss, esp) ← tssStack pl
  raiseIf (isNull ss) (.tsX ss ext)
  let d ← needDescOf ss (fun d => rpl ss == pl && d.dpl == pl && d.writable) (.tsX ss ext)
  raiseIf (!d.p) (.ssX ss ext)
  return (ss, esp, d)

/-- Room for `n` bytes below `esp` in the stack segment `g` (20_memory R119). -/
def SegReg.roomBelow (g : SegReg) (esp : Dword) (n : Nat) : Bool :=
  let a := esp - BitVec.ofNat 32 n
  g.inLimit (if g.db then a else (a.extractLsb' 0 16).setWidth 32) n

/-- Load SS:ESP with a checked stack. -/
def loadStack (ss : Word) (esp : Dword) (d : Desc) : M Unit := do
  setAccessed d
  modify (fun s => { s with seg := { s.seg with ss := d.loaded ss }, gpr := { s.gpr with esp := esp } })

/-- Push a list of values of `n` bytes each, the first first. -/
def pushAll (n : Nat) : List Nat → M Unit
  | [] => pure ()
  | v :: vs => do pushN n v; pushAll n vs

/-! ## Delivery (R710 to R717) -/

/-- EXT: the event did not come from a software interrupt (R703). -/
def Event.ext (ev : Event) : Bool := decide (ev.kind ≠ .software)

/-- The address an event returns to: after a software interrupt; the current EIP otherwise (R710). -/
def State.returnEip (s : State) (ev : Event) : Dword := if ev.kind = .software then s.npc else s.eip

/-- The flags image an event saves: a fault's has RF set (R710, R748). -/
def State.flagsImage (s : State) (ev : Event) : Dword :=
  if ev.kind = .exception true then s.flags.toDword ||| 0x00010000#32 else s.flags.toDword

/-- The error code of an event as a list of values to push. -/
def Event.errList (ev : Event) : List Nat :=
  match ev.err with
  | none => []
  | some c => [c.toNat]

/-- REAL-ADDRESS-MODE delivery (R711). -/
def deliverReal (ev : Event) : M Unit := do
  let s ← get
  let v := ev.vector.toNat * 4
  raiseIf (decide (s.idtr.limit.toNat < v + 3)) (.gp 0)
  raiseIf (!s.stackRoom 6) (.ss 0)
  pushAll 2 [s.flags.toDword.toNat, s.seg.cs.sel.toNat, (s.returnEip ev).toNat]
  let vec ← sysRead (s.idtr.base + BitVec.ofNat 32 v) 4
  load86 .cs (BitVec.ofNat 16 (vec / 65536))
  setNpc (BitVec.ofNat 32 (vec % 65536))
  modifyFlags (fun f => { f with if_ := false, tf := false, ac := false, rf := false })

/-- The flags after delivery through gate `g`: IF is cleared by an interrupt gate (R713 to R715). -/
def Flags.delivered (f : Flags) (g : Gate) : Flags :=
  { f with tf := false, vm := false, rf := false, nt := false, if_ := f.if_ && g.typ.getLsbD 0 }

/-- INTRA-PRIVILEGE-LEVEL-INTERRUPT (R715). -/
def deliverIntra (ev : Event) (g : Gate) (d : Desc) : M Unit := do
  let s ← get
  let m := if g.is32 then 4 else 2
  let frame := [(s.flagsImage ev).toNat, s.seg.cs.sel.toNat, (s.returnEip ev).toNat] ++ ev.errList
  raiseIf (!s.stackRoom (frame.length * m)) (.ss 0)
  raiseIf (!(d.seg g.sel).codeOk g.off) (.gp 0)
  pushAll m frame
  loadCs g.sel d s.curPl
  setNpc g.off
  modifyFlags (·.delivered g)

/-- A null data segment register: selector 0, invalid. -/
def SegReg.nulled (g : SegReg) : SegReg := g.selOnly 0

/-- INTER-PRIVILEGE-LEVEL-INTERRUPT (R713), and INTERRUPT-FROM-VIRTUAL-8086-MODE (R714) where VM is set: four
more words are pushed and the data segments are nullified. -/
def deliverInter (ev : Event) (g : Gate) (d : Desc) : M Unit := do
  let s ← get
  let (nss, nesp, sd) ← innerStack d.dpl ev.ext
  let m := if g.is32 then 4 else 2
  let data := if s.flags.vm then
      [s.seg.gs.sel.toNat, s.seg.fs.sel.toNat, s.seg.ds.sel.toNat, s.seg.es.sel.toNat] else []
  let frame := data ++ [s.seg.ss.sel.toNat, s.gpr.esp.toNat, (s.flagsImage ev).toNat, s.seg.cs.sel.toNat,
    (s.returnEip ev).toNat] ++ ev.errList
  raiseIf (!(sd.seg nss).roomBelow nesp (frame.length * m)) (.ssX nss ev.ext)
  raiseIf (!(d.seg g.sel).codeOk g.off) (.gp 0)
  modifyFlags (·.delivered g)
  loadStack nss nesp sd
  loadCs g.sel d d.dpl
  pushAll m frame
  setNpc g.off
  if s.flags.vm then
    modify (fun s => { s with seg := { s.seg with
      gs := s.seg.gs.nulled, fs := s.seg.fs.nulled, ds := s.seg.ds.nulled, es := s.seg.es.nulled } })
  else pure ()

/-- TRAP-OR-INTERRUPT-GATE (R712). -/
def deliverGate (ev : Event) (g : Gate) : M Unit := do
  let s ← get
  raiseIf (isNull g.sel) (.gpX 0 ev.ext)
  let d ← needDescOf g.sel (fun d => d.isCode && decide (d.dpl ≤ s.curPl)) (.gpX g.sel ev.ext)
  raiseIf (!d.p) (.npX g.sel ev.ext)
  if !d.conf && decide (d.dpl < s.curPl) then
    raiseIf (s.flags.vm && d.dpl != 0) (.gpX g.sel ev.ext)
    deliverInter ev g d
  else
    raiseIf s.flags.vm (.gpX g.sel ev.ext)
    deliverIntra ev g d

/-- TASK-GATE delivery (R717); a null selector names no TSS (20_memory R137). -/
def deliverTask (ev : Event) (g : Gate) : M Unit := do
  let s ← get
  raiseIf (isNull g.sel || selTi g.sel) (.gpX g.sel ev.ext)
  let x ← needDescOf g.sel Desc.availTss (.gpX g.sel ev.ext)
  raiseIf (!x.p) (.npX g.sel ev.ext)
  let trap ← withExt ev.ext (switchTasks g.sel x .int (s.returnEip ev) (s.flagsImage ev))
  keepFaults do
    let s ← get
    let m := if s.tss32 then 4 else 2
    match ev.err with
    | none => pure ()
    | some c =>
      raiseIf (!s.stackRoom m) (.ss 0)
      pushN m c.toNat
  afterSwitch trap

/-- PROTECTED-MODE delivery: gate lookup (R712). -/
def deliverProt (ev : Event) : M Unit := do
  let s ← get
  let v := ev.vector.toNat * 8
  let code : Word := BitVec.ofNat 16 (v + 2) ||| bitAt 16 0 ev.ext
  raiseIf (decide (s.idtr.limit.toNat < v + 7)) (.code 13 code)
  let g := Gate.ofDesc (BitVec.ofNat 64 (← sysRead (s.idtr.base + BitVec.ofNat 32 v) 8))
  raiseIf (g.s || !(g.typ == 5#4 || g.typ == 6#4 || g.typ == 7#4 || g.typ == 14#4 || g.typ == 15#4)) (.code 13 code)
  raiseIf (decide (ev.kind = .software) && decide (g.dpl < s.curPl)) (.code 13 code)
  raiseIf (!g.p) (.code 11 code)
  if g.typ = 5#4 then deliverTask ev g else deliverGate ev g

/-- Deliver (R710): the interrupt shadow ends, a halted processor runs, and an NMI blocks further NMIs (R720,
R721). -/
def deliver (ev : Event) : M Unit := do
  modify (fun s => { s with
    shadow := .none, activity := .running, interrupted := true
    nmiBlocked := s.nmiBlocked || (decide (ev.kind = .external) && decide (ev.vector = 2)) })
  if (← get).pe then deliverProt ev else deliverReal ev

/-! ## Taking an exception (R702, R723) -/

/-- A read of a device, which cannot be undone (20_memory R156). -/
def IoEvent.isMemRead : IoEvent → Bool
  | .memRead _ => true
  | .read _ _ _ | .write _ _ _ | .memWrite _ => false

/-- What remains of a computation from `s0` that was abandoned in `s`: bits set in page tables and descriptors,
cached translations, reads of devices, and free values used (R702). Translations walked under a CR3 that a task switch
loaded before its page fault stay cached: DESIGN CHOICE, log 56. Translations dropped by MOV to a control register that then
faults stay dropped: DESIGN CHOICE, log 32. -/
def State.rollback (s0 s : State) : State :=
  { s0 with
    mem := s.adLog.foldr (fun (a, k) m => m.write a (m.read a ||| k)) s0.mem
    ioLog := (s.ioLog.take (s.ioLog.length - s0.ioLog.length)).filter IoEvent.isMemRead ++ s0.ioLog
    tlb := s.tlb, fresh := s.fresh, adLog := [] }

/-- What an exception records besides its delivery: CR2 (20_memory R123), DR6, GD cleared by a debug exception (R748, which
says so of general detect; for the other causes DESIGN CHOICE, log 61), and the flags a divide error leaves undefined
(93_implementation_defined 1.1). -/
def State.record (s : State) (e : Exc) : State :=
  { s with
    flags := e.flags.getD s.flags
    cr2 := e.cr2.getD s.cr2
    dr6 := s.dr6 ||| e.dr6
    dr7 := if e.vector = 1 then s.dr7 &&& 0xFFFFDFFF#32 else s.dr7 }

/-- The event an exception delivers; #DF is no fault (R700). -/
def Exc.event (e : Exc) : Event :=
  { vector := e.vector, kind := .exception (!e.trap && decide (e.vector ≠ 8)), err := e.err }

/-- The classes of R723. -/
inductive EventClass | benign | contributory | pageFault | doubleFault
deriving DecidableEq, Repr

/-- The class of an event (R723). -/
def Event.cls (ev : Event) : EventClass :=
  match ev.kind with
  | .exception _ =>
    if ev.vector = 8 then .doubleFault
    else if ev.vector = 14 then .pageFault
    else if ev.vector = 0 ∨ ev.vector = 10 ∨ ev.vector = 11 ∨ ev.vector = 12 ∨ ev.vector = 13 then .contributory
    else .benign
  | _ => .benign

/-- What follows when delivering a first event raises a second (R723). -/
inductive Nested | second | double | shutdown
deriving DecidableEq, Repr

/-- The table of R723. -/
def nestedOf (first second : EventClass) : Nested :=
  match first, second with
  | .doubleFault, .benign => .second
  | .doubleFault, _ => .shutdown
  | .contributory, .contributory => .double
  | .pageFault, .contributory => .double
  | .pageFault, .pageFault => .double
  | _, _ => .second

/-- A shutdown (10_state R84; 70_reset R781). The instruction that led to it is over, and with it the interrupt shadow: an
NMI leaves the shutdown (R723). -/
def State.shut (s : State) : State := { s with activity := .shutdown, shadow := .none, interrupted := true }

/-- Deliver an event, and what its own faults lead to (R723). An event that replaces a software interrupt saves that one's
return address. Without task gates that is never more than five deliveries; a debug trap of the TSS that a delivery
switches to may begin another such chain, and after `n` deliveries the next step goes on with it (log 20). -/
def takeEvent : Nat → Event → State → Host.Outcome State Fault Refusal
  | 0, ev, s => .next { s with deferred := some ev, interrupted := true }
  | n + 1, ev, s =>
    let next (e : Exc) (t : State) : Host.Outcome State Fault Refusal :=
      match nestedOf ev.cls e.event.cls with
      | .second => takeEvent n e.event t
      | .double => takeEvent n Exc.df.event t
      | .shutdown => .next t.shut
    match deliver ev { s with adLog := [] } with
    | .ok _ t => .next { t with eip := t.npc, adLog := [] }
    | .error (.exc e) t => next e ({ s.rollback t with eip := s.returnEip ev }.record e)
    | .error (.excKeep e) t => next e ({ t with eip := t.npc, adLog := [] }.record e)
    | .error (.software _) t => .next { s.rollback t with interrupted := true }
    | .error .shutdown t => .next (s.rollback t).shut
    | .error .freeze t => .next { s.rollback t with interrupted := true }
    | .error (.refuse r) _ => .refused r

/-- The deliveries one event may lead to in one step. -/
def nestingBound : Nat := 40

/-- Take an exception: at the current EIP (R710). -/
def takeExc (e : Exc) (s : State) : Host.Outcome State Fault Refusal := takeEvent nestingBound e.event (s.record e)

/-! ## Return from an interrupt (44_int R449 to R454) -/

/-- Load a segment register of virtual-8086 mode. -/
def loadV86 (r : SReg) (sel : Word) : M Unit := modify (fun s => { s with seg := s.seg.set r ((s.seg.get r).load86 true sel) })

/-- RF is loaded from an image where `os32` holds: the end of the instruction keeps it (48_int R602, 60_exceptions
R748). -/
def loadRf (os32 : Bool) : M Unit := modify (fun s => { s with rfKept := s.rfKept || os32 })

/-- The three values IRET pops: EIP, CS and EFLAGS. -/
def popFrame (n : Nat) : M (Dword × Word × Dword) := do
  raiseIf (!(← get).stackHas (3 * n)) (.ss 0)
  let ip ← popN n
  let cs ← popN n
  let fl ← popN n
  return (BitVec.ofNat 32 ip, BitVec.ofNat 16 cs, BitVec.ofNat 32 fl)

/-- IRET in real-address mode (R449). -/
def iretReal : M Unit := do
  let s ← get
  let (ip, cs, fl) ← popFrame s.osz.bytes
  raiseIf (!s.seg.cs.codeOk ip) (.gp 0)
  return86 cs
  setNpc ip
  loadRf s.os32
  modifyFlags (fun f => f.merge fl (if s.os32 then 0x00257FD5#32 else 0x00007FD5#32))

/-- IRET in virtual-8086 mode (R450). -/
def iretV86 : M Unit := do
  let s ← get
  raiseIf (s.flags.iopl != 3#2) (.gp 0)
  let (ip, cs, fl) ← popFrame s.osz.bytes
  raiseIf (!s.seg.cs.codeOk ip) (.gp 0)
  load86 .cs cs
  setNpc ip
  loadRf s.os32
  modifyFlags (fun f => f.merge fl (if s.os32 then 0x00254FD5#32 else 0x00004FD5#32))

/-- RETURN-TO-VIRTUAL-8086-MODE (R451). -/
def iretToV86 (ip : Dword) (cs : Word) (fl : Dword) : M Unit := do
  raiseIf (!(← get).stackHas 24) (.ss 0)
  raiseIf (decide (0xFFFF < ip.toNat)) (.gp 0)
  let esp ← popN 4
  let ss ← popN 4
  let es ← popN 4
  let ds ← popN 4
  let fs ← popN 4
  let gs ← popN 4
  modify (fun s => { s with flags := .ofDword fl, rfKept := true, cpl := 3#2, npc := ip,
                            gpr := { s.gpr with esp := BitVec.ofNat 32 esp } })
  loadV86 .cs cs
  loadV86 .ss (BitVec.ofNat 16 ss)
  loadV86 .es (BitVec.ofNat 16 es)
  loadV86 .ds (BitVec.ofNat 16 ds)
  loadV86 .fs (BitVec.ofNat 16 fs)
  loadV86 .gs (BitVec.ofNat 16 gs)

/-- LoadFlags (R453): the mask of the bits taken from the image. -/
def iretMask (os32 : Bool) (cpl iopl : Nat) : Dword :=
  0x00004DD5#32 ||| (if os32 then 0x00250000#32 else 0) ||| (if cpl ≤ iopl then 0x00000200#32 else 0) |||
    (if cpl = 0 then 0x00003000#32 ||| (if os32 then 0x001A0000#32 else 0) else 0)

/-- Whether a data segment register must be nullified on a return to level `pl` (R454, D23). -/
def SegReg.tooInner (g : SegReg) (pl : Nat) : Bool :=
  g.valid && (g.isData || (g.isCode && !g.conforming)) && decide (g.dpl.toNat < pl)

/-- Nullify a data segment register that an outer level may not use (R454). -/
def SegReg.cleanFor (g : SegReg) (pl : Nat) : SegReg := if g.tooInner pl then g.nulled else g

/-- Nullify the data segment registers that level `pl` may not use (R454). -/
def cleanSegs (pl : Nat) : M Unit :=
  modify (fun s => { s with seg := { s.seg with
    es := s.seg.es.cleanFor pl, fs := s.seg.fs.cleanFor pl, gs := s.seg.gs.cleanFor pl,
    ds := s.seg.ds.cleanFor pl } })

/-- The checks on a return code segment (R453; 48_int R617). -/
def returnDesc (cs : Word) : M Desc := do
  raiseIf (isNull cs) (.gp 0)
  let cpl := (← get).curPl
  let d ← needDescOf cs (fun d => d.isCode && decide (cpl ≤ rpl cs) &&
    (if d.conf then decide (d.dpl ≤ rpl cs) else d.dpl == rpl cs)) (.gp cs)
  raiseIf (!d.p) (.np cs)
  return d

/-- The checks on a return stack segment (R454; 48_int R618). -/
def returnStack (ss cs : Word) : M Desc := do
  raiseIf (isNull ss) (.gp 0)
  let d ← needDescOf ss (fun d => rpl ss == rpl cs && d.writable && d.dpl == rpl cs) (.gp ss)
  raiseIf (!d.p) (.ss ss)
  return d

/-- SS:ESP of a return to an outer level. A 16-bit stack keeps the upper half that ESP had before the instruction (`old`);
on a 32-bit one it may have any value where the operand size is 16 (R454; 48_int R618; 93_implementation_defined 2). -/
def setOuterStack (os32 : Bool) (ss : Word) (d : Desc) (old esp : Dword) : M Unit := do
  let any ← freeDword
  let v := if d.raw.getLsbD 54 then (if os32 then esp else putLow16 any (esp.setWidth 16))
    else putLow16 old (esp.setWidth 16)
  loadStack ss v d

/-- PROTECTED-MODE-RETURN (R453, R454); `old` is ESP before the instruction. -/
def iretProt (old ip : Dword) (cs : Word) (fl : Dword) : M Unit := do
  let s ← get
  let d ← returnDesc cs
  let mask := iretMask s.os32 s.curPl s.flags.iopl.toNat
  if s.curPl < rpl cs then
    let n := s.osz.bytes
    raiseIf (!s.stackHas (2 * n)) (.ss 0)
    let esp ← popN n
    let ss : Word := BitVec.ofNat 16 (← popN n)
    let sd ← returnStack ss cs
    raiseIf (!(d.seg cs).codeOk ip) (.gp 0)
    setNpc ip
    loadCs cs d (rpl cs)
    loadRf s.os32
    modifyFlags (fun f => f.merge fl mask)
    setOuterStack s.os32 ss sd old (BitVec.ofNat 32 esp)
    cleanSegs (rpl cs)
  else
    raiseIf (!(d.seg cs).codeOk ip) (.gp 0)
    setNpc ip
    loadCs cs d (rpl cs)
    loadRf s.os32
    modifyFlags (fun f => f.merge fl mask)

/-- TASK-RETURN (R452); a null link names no TSS (20_memory R137). -/
def taskReturn : M Unit := do
  let s ← get
  let link : Word := BitVec.ofNat 16 (← sysRead s.tr.base 2)
  raiseIf (isNull link || selTi link) (.gp link)
  let d ← needDescOf link Desc.busyTss (.gp link)
  raiseIf (!d.p) (.np link)
  let trap ← switchTasks link d .iret s.npc s.flags.toDword
  afterSwitch trap

/-- IRET (R449 to R454). Every IRET that completes unblocks NMI (60 R720). -/
def iret : M Unit := do
  modify (fun s => { s with nmiBlocked := false })
  let s ← get
  if s.real then iretReal
  else if s.flags.vm then iretV86
  else if s.flags.nt then taskReturn
  else
    let (ip, cs, fl) ← popFrame s.osz.bytes
    if fl.getLsbD 17 && s.curPl == 0 then iretToV86 ip cs fl else iretProt s.gpr.esp ip cs fl

/-! ## Running a meaning -/

/-- Which repeat prefixes an instruction takes (30_encoding R221). -/
inductive RepUse | never | repOnly | both
deriving DecidableEq, Repr

/-- The repeat prefix present is one the instruction takes. -/
def RepUse.allows : RepUse → Rep → Bool
  | _, .none => true
  | .never, _ => false
  | .repOnly, .rep => true
  | .repOnly, .repne => false
  | .both, _ => true

/-- How an abandoned or completed meaning ends. -/
def finish (s0 : State) : EStateM.Result Stop State Unit → Host.Outcome State Fault Refusal
  | .ok _ s => .next { s with eip := s.npc }
  | .error (.exc e) s => takeExc e (s0.rollback s)
  | .error (.excKeep e) s => takeExc e { s with eip := s.npc, adLog := [] }
  | .error (.software v) s => takeEvent nestingBound { vector := v, kind := .software, err := none } s
  | .error .shutdown s => .next (s0.rollback s).shut
  | .error .freeze s =>
    let t := s0.rollback s
    .next { t with fpu := { t.fpu with ferr := true }, interrupted := true }
  | .error (.refuse r) _ => .refused r

/-- Run a meaning: LOCK and repeat prefixes it does not take stop it first (30_encoding R220, R221). -/
def runWith (lockable : Bool) (rep : RepUse) (m : M Unit) (s : State) : Host.Outcome State Fault Refusal :=
  if s.pfx.lock && !lockable then takeExc .ud s
  else if rep.allows s.pfx.rep then finish s (m s)
  else .refused .repUndefined

/-- Run a meaning that takes neither LOCK nor a repeat prefix. -/
def run (m : M Unit) (s : State) : Host.Outcome State Fault Refusal := runWith false .never m s

/-- LOCK is legal with a memory destination only (R220). -/
def rmLockable : Rm → Bool
  | .mem _ => true
  | .reg _ => false

/-- Run a meaning whose destination `m` may be locked. -/
def runLock (m : Rm) (b : M Unit) (s : State) : Host.Outcome State Fault Refusal := runWith (rmLockable m) .never b s

end Sys2Proof.Machine
end

