-- ==== Sys2Proof/Machine/Boundary.lean ====
section
/-! DEFINITION. What is recognised between two instructions: external events (spec 60_exceptions R720 to R722) and
instruction breakpoints (R748). -/

namespace Sys2Proof.Machine

/-! ## External events -/

/-- An NMI is recognised (R720, R721). -/
def State.takesNmi (s : State) : Bool := s.nmiPending && !s.nmiBlocked && decide (s.shadow ≠ .movSs)

/-- The vector of a maskable interrupt that is recognised (R720, R721); shutdown ignores it (R723). -/
def State.takesIntr (s : State) : Option Byte :=
  if s.flags.if_ && decide (s.shadow = .none) && decide (s.activity ≠ .shutdown) then s.intrPending else none

/-- The external event recognised at this boundary, NMI first (R722 item 5), and the state without it. -/
def State.pendingEvent (s : State) : Option (Event × State) :=
  if s.takesNmi then
    some ({ vector := 2, kind := .external, err := none }, { s with nmiPending := false })
  else
    match s.takesIntr with
    | some v => some ({ vector := v, kind := .external, err := none }, { s with intrPending := none })
    | none => none

/-! ## Instruction breakpoints -/

/-- Instruction breakpoint `i` matches. -/
def State.codeHit (s : State) (i : Nat) : Bool :=
  s.bpEnabled i && s.dr7Field (16 + 4 * i) == 0#2 && s.dr7Field (18 + 4 * i) == 0#2 &&
    s.drAddr i == s.seg.cs.base + s.eip

/-- The DR6 bits of the instruction breakpoints that match; none while RF is set or under a MOV SS shadow. -/
def State.codeHits (s : State) : Dword :=
  if s.flags.rf || decide (s.shadow = .movSs) then 0
  else bitAt 32 0 (s.codeHit 0) ||| bitAt 32 1 (s.codeHit 1) ||| bitAt 32 2 (s.codeHit 2) |||
    bitAt 32 3 (s.codeHit 3)

/-! ## Two instructions under one mnemonic -/

/-- After a one-byte instruction begun in this state something is recognised before the next instruction: a single-step or
data-breakpoint trap, an instruction breakpoint, or an external event (R722 items 4 to 6). -/
def State.breaksAfterByte (s : State) : Bool :=
  let t := { s with eip := s.eip + 1, shadow := .none, flags := { s.flags with rf := false } }
  s.flags.tf || s.dbgHits != 0#4 || t.codeHits != 0#32 || t.pendingEvent.isSome

/-- A step that begins with WAIT in this state does not get beyond it: WAIT faults or freezes (49_int R659), or something is
recognised after it. -/
def State.waitStops (s : State) : Bool := (s.cr0Mp && s.cr0Ts) || s.fpu.sw.es || s.breaksAfterByte

end Sys2Proof.Machine
end

