-- ==== Sys2Proof/Machine/Cycle.lean ====
section
/-! DEFINITION. What a step does around an instruction: events before it (spec 60_exceptions R720 to R723), fetching
(20_memory R116; 30_encoding R161, R167), and completion (R721, R748). The meanings are a parameter here;
Machine/Step.lean supplies them. -/

namespace Sys2Proof.Machine

/-- What an instruction does to a state. -/
abbrev Exec := Instr → State → Host.Outcome State Fault Refusal

/-! ## The start and the end of a step -/

/-- The state at the start of a step: the MODEL's own latches are clear. Breakpoints matched under a MOV SS shadow
(R721), or by deliveries that go on in this step, stay pending. -/
def State.begin (s : State) : State :=
  { s with pfx := Pfx.clear, adLog := [], interrupted := false, rfKept := false, deferred := none,
           dbgHits := if s.shadow = .movSs ∨ s.deferred ≠ none then s.dbgHits else 0#4 }

/-- Clocks advance in every step (10_state R64, R65; D30). -/
def State.tick (s : State) : State :=
  { s with
    tsc := s.tsc + 1 + (Config.clockTicks s.fresh).setWidth 64
    pmc0 := s.pmc0 + (Config.counterTicks false s.fresh).setWidth 40
    pmc1 := s.pmc1 + (Config.counterTicks true s.fresh).setWidth 40
    fresh := s.fresh + 1 }

/-! ## Fetching -/

/-- Fetch one byte of code (20_memory R116, R155): the byte and its physical address; `prev` is the address of the byte
below. -/
def fetchByte (off : Dword) (prev : Option Nat) : M (Byte × Nat) := do
  let s ← get
  raiseIf (!s.seg.cs.inLimit off 1) (.gp 0)
  let la := s.seg.cs.base + off
  let pa ← match prev with
    | some p => if la.toNat % 4096 == 0 then translate la false (s.curPl == 3) else pure (p + 1)
    | none => translate la false (s.curPl == 3)
  sample [pa]
  return ((← get).mem.read pa, pa)

/-- The bytes that can be fetched at `off`, at most `n`, with their physical addresses; the state they leave is
not kept. -/
def fetchAhead : Nat → Dword → Option Nat → State → List (Byte × Nat)
  | 0, _, _, _ => []
  | n + 1, off, prev, s =>
    match fetchByte off prev s with
    | .ok (b, pa) s' => (b, pa) :: fetchAhead n (off + 1) (some pa) s'
    | .error _ _ => []

/-- Fetch `n` bytes of code. -/
def fetchN : Nat → Dword → Option Nat → M Unit
  | 0, _, _ => pure ()
  | n + 1, off, prev => do
    let (_, pa) ← fetchByte off prev
    fetchN n (off + 1) (some pa)

/-- The bytes ahead of EIP, at most as many as the longest instruction has. -/
def State.codeAhead (s : State) : List Byte := (fetchAhead Config.maxLen s.eip none s).map Prod.fst

/-- The decoding context (30_encoding R168, R169). 9B is WAIT by itself after a prefix, and where the processor does not
get beyond it in this step: then the no-wait half is not fetched (R223; 20_memory R151). Log 46. -/
def State.ctx (s : State) : Ctx :=
  { os32 := s.os32, as32 := s.as32, waitAlone := decide (s.pfx ≠ Pfx.clear) || s.waitStops }

/-- The instruction is a prefix (R161). -/
def isPrefix : Instr → Bool
  | .segCs | .segSs | .segDs | .segEs | .segFs | .segGs | .opSize | .adSize | .lock | .rep | .repne => true
  | _ => false

/-- The bytes ahead hold no whole instruction: the fetch faults, or the instruction is too long (R167). -/
def fetchFault (s : State) : Host.Outcome State Fault Refusal :=
  match fetchN Config.maxLen s.eip none s with
  | .error (.exc e) t => takeExc e (s.rollback t)
  | _ => takeExc (.gp 0) s

/-- Commit the fetch of an instruction of `n` bytes and set the address after it (10_state R35). -/
def fetchCommit (n : Nat) (s : State) : State :=
  match fetchN n s.eip none s with
  | .ok _ t => { t with npc := s.eip + BitVec.ofNat 32 n, adLog := [] }
  | .error _ _ => { s with npc := s.eip + BitVec.ofNat 32 n }

/-- The first two bytes of an instruction, the first one low. -/
def opBytesOf : List Byte → Word
  | [] => 0
  | [b] => b.setWidth 16
  | b :: c :: _ => c ++ b

/-! ## Completion -/

/-- After an instruction from `s0` that ended in `s1`: RF is cleared, unless the instruction has loaded it or is to be
repeated, the interrupt shadow ends or begins, and debug traps are taken (R721, R748; 48_int R602). A delivery, and the
freeze before a waiting FPU instruction (R709), end the shadow: for the freeze a DESIGN CHOICE, log 24. -/
def complete (s0 s1 : State) : Host.Outcome State Fault Refusal :=
  if s1.interrupted then .next { s1 with shadow := .none }
  else
    let repeating := decide (s1.pfx.rep ≠ .none) && s1.eip == s0.eip
    let shadow := if s0.shadow = .none then s1.shadow else .none
    let s2 := { s1 with
      shadow := shadow
      flags := { s1.flags with rf := s1.flags.rf && (repeating || s1.rfKept) } }
    let bits := bitAt 32 14 s0.flags.tf ||| s1.dbgHits.setWidth 32
    if shadow = .movSs ∨ bits = 0 then .next s2 else takeExc (.db true bits) { s2 with dbgHits := 0#4 }

/-- Complete an outcome. -/
def completeOutcome (s0 : State) : Host.Outcome State Fault Refusal → Host.Outcome State Fault Refusal
  | .next s1 => complete s0 s1
  | .fault f => .fault f
  | .refused r => .refused r

/-- Decode and run the prefixes and the instruction in `bs`; `used` bytes have been consumed, `s0` is the state
the step began in, `n` bounds the units. -/
def runUnits (ex : Exec) (s0 : State) : Nat → Nat → List Byte → State → Host.Outcome State Fault Refusal
  | 0, _, _, _ => fetchFault s0
  | n + 1, used, bs, s =>
    match decode s.ctx bs with
    | none => fetchFault s0
    | some (i, rest) =>
      let len := used + (bs.length - rest.length)
      if isPrefix i then
        match ex i s with
        | .next s' => runUnits ex s0 n len rest s'
        | .fault f => .fault f
        | .refused r => .refused r
      else completeOutcome s0 (ex i { fetchCommit len s with opBytes := opBytesOf bs })

/-- Fetch, decode and run one instruction. -/
def runInstr (ex : Exec) (s : State) : Host.Outcome State Fault Refusal :=
  if s.codeHits = 0 then runUnits ex s (Config.maxLen + 1) 0 s.codeAhead s
  else takeExc (.db false s.codeHits) s

/-- After deliveries whose pushes met data breakpoints the debug trap is due, before anything else (R722 item 4, R748). -/
def State.settle (s : State) : State :=
  if s.interrupted && decide (s.deferred = none) && decide (s.activity = .running) && s.dbgHits != 0#4 then
    let e := Exc.db true (s.dbgHits.setWidth 32)
    { s.record e with deferred := some e.event, dbgHits := 0#4 }
  else s

/-- The end of an outcome: the debug trap that is due, and the clocks. -/
def endOutcome : Host.Outcome State Fault Refusal → Host.Outcome State Fault Refusal
  | .next s => .next s.settle.tick
  | .fault f => .fault f
  | .refused r => .refused r

/-- One step: an event left by the step before, or an external event, or nothing where the processor is halted or shut
down (10_state R84), or an instruction. -/
def stepWith (ex : Exec) (s : State) : Host.Outcome State Fault Refusal :=
  let b := s.begin
  endOutcome (
    match s.deferred with
    | some ev => takeEvent nestingBound ev b
    | none =>
      match b.pendingEvent with
      | some (ev, t) => takeEvent nestingBound ev t
      | none =>
        match b.activity with
        | .running => runInstr ex b
        | .halted => .next b
        | .shutdown => .next b)

/-! ## Resets from outside (70_reset R760) -/

/-- RESET#: every register takes its reset value; memory and the host's map are not changed. -/
def State.hardReset (s : State) : State :=
  { State.reset with mem := s.mem, map := s.map, fresh := s.fresh, ioLog := s.ioLog }

/-- INIT#: as RESET#, but the FPU, the model-specific registers, CR0.CD and CR0.NW keep their values (R760), and so do the
two performance counters. DESIGN CHOICE, log 15. -/
def State.softInit (s : State) : State :=
  { s.hardReset with
    fpu := s.fpu, msrs := s.msrs, tsc := s.tsc, pmc0 := s.pmc0, pmc1 := s.pmc1
    cr0 := (s.hardReset.cr0 &&& 0x9FFFFFFF#32) ||| (s.cr0 &&& 0x60000000#32) }

/-! ## Placing an instruction -/

/-- The physical addresses the next fetch reads. -/
def State.fetchAddrs (s : State) : List Nat := (fetchAhead Config.maxLen s.eip none s).map Prod.snd

/-- Store bytes at addresses. -/
def Memory.putAll : Memory → List Nat → List Byte → Memory
  | m, a :: as, b :: bs => Memory.putAll (m.write a b) as bs
  | m, _, _ => m

end Sys2Proof.Machine
end

