-- ==== Sys2Proof/Machine/Alu.lean ====
section
/-! DEFINITION. Integer arithmetic and logic: two-operand instructions, INC to NOT, multiplication and division,
decimal adjustment, conversions (spec 40_int, 41_int, 44_int, 46_int, 49_int). -/

namespace Sys2Proof.Machine

/-! ## Shared operations -/

/-- Change the flags with `k` free bits, which are the flags an instruction leaves undefined (10_state R47). -/
def modifyFlagsFree (k : Nat) (f : (Nat → Bool) → Flags → Flags) : M Unit :=
  modify (fun s => { s with fresh := s.fresh + k, flags := f (fun i => Config.freeBit (s.fresh + i)) s.flags })

/-- A computation on two operands that sets the flags and gives the result. -/
abbrev BinOp := (sz : Sz) → BitVec sz.bits → BitVec sz.bits → M (BitVec sz.bits)

/-- Addition, with the carry where `c` holds (R43). -/
def addOp (c : Bool) : BinOp := fun _ a b => do
  let f := (← get).flags
  let ci := c && f.cf
  modifyFlags (·.addF a b ci)
  return addC a b ci

/-- Subtraction, with the borrow where `c` holds (R44). -/
def subOp (c : Bool) : BinOp := fun _ a b => do
  let f := (← get).flags
  let ci := c && f.cf
  modifyFlags (·.subF a b ci)
  return subC a b ci

/-- A bitwise operation; AF is free (R45). -/
def logicOp (g : {w : Nat} → BitVec w → BitVec w → BitVec w) : BinOp := fun _ a b => do
  let r := g a b
  modifyFlagsFree 1 (fun u f => f.logicF r (u 0))
  return r

/-- The use of a destination: written, or read only. -/
def useOf (write : Bool) : Acc := if write then .rw else .r

/-- An operation on an `r/m` destination and a value; the result is stored where `write` holds. -/
def binRm (write : Bool) (op : BinOp) (sz : Sz) (d : Rm) (b : BitVec sz.bits) : M Unit := do
  let l ← locate sz d (useOf write)
  let a ← l.read sz
  let r ← op sz a b
  if write then l.write sz r else pure ()

/-- An operation on a register destination and a value. -/
def binReg (write : Bool) (op : BinOp) (sz : Sz) (r : Reg) (b : BitVec sz.bits) : M Unit := do
  let a ← getReg sz r
  let v ← op sz a b
  if write then setReg sz r v else pure ()

/-- The five operand forms of the two-operand instructions (40_int R234). -/
def alu (write : Bool) (op : BinOp) (f : AluForm) : M Unit := do
  let s ← get
  match f with
  | .rmR w d r => binRm write op (s.wd w) d (s.reg (s.wd w) r)
  | .rRm w r m => binReg write op (s.wd w) r (← readRm (s.wd w) m)
  | .accImm w i => binReg write op (s.wd w) .eax (immSz (s.wd w) i)
  | .rmImm w d i => binRm write op (s.wd w) d (immSz (s.wd w) i)
  | .rmImm8 d i => binRm write op s.osz d (sext8 s.osz i)

/-- LOCK is legal with a memory destination (30_encoding R220). -/
def aluLockable : AluForm → Bool
  | .rmR _ d _ => rmLockable d
  | .rRm _ _ _ => false
  | .accImm _ _ => false
  | .rmImm _ d _ => rmLockable d
  | .rmImm8 d _ => rmLockable d

/-- Run a two-operand instruction that writes its destination. -/
def runAlu (op : BinOp) (f : AluForm) (s : State) : Host.Outcome State Fault Refusal :=
  runWith (aluLockable f) .never (alu true op f) s

/-- A computation on one operand. -/
abbrev UnOp := (sz : Sz) → BitVec sz.bits → M (BitVec sz.bits)

/-- Replace an `r/m` operand by a function of it. -/
def unRm (op : UnOp) (sz : Sz) (d : Rm) : M Unit := do
  let l ← locate sz d .rw
  let r ← op sz (← l.read sz)
  l.write sz r

/-- Addition of 1; CF stays (44_int R444). -/
def incOp : UnOp := fun _ a => do
  modifyFlags (fun f => { f.addF a 1 false with cf := f.cf })
  return a + 1

/-- Subtraction of 1; CF stays (41_int R309). -/
def decOp : UnOp := fun _ a => do
  modifyFlags (fun f => { f.subF a 1 false with cf := f.cf })
  return a - 1

/-- Two's complement negation (46_int R519). -/
def negOp : UnOp := fun _ a => do
  modifyFlags (·.subF 0 a false)
  return -a

/-- One's complement negation; no flag changes (46_int R521). -/
def notOp : UnOp := fun _ a => return ~~~a

/-- The two operand forms of INC and DEC. -/
def incForm (op : UnOp) (f : IncForm) : M Unit := do
  let s ← get
  match f with
  | .rm w d => unRm op (s.wd w) d
  | .reg r => unRm op s.osz (.reg r)

/-- LOCK with INC and DEC. -/
def incLockable : IncForm → Bool
  | .rm _ d => rmLockable d
  | .reg _ => false

/-! ## The two-operand instructions -/

/-- ADD (40_int R235). -/
def execAdd (f : AluForm) (s : State) : Host.Outcome State Fault Refusal := runAlu (addOp false) f s
/-- ADC (40_int R234). -/
def execAdc (f : AluForm) (s : State) : Host.Outcome State Fault Refusal := runAlu (addOp true) f s
/-- SUB (49_int R655). -/
def execSub (f : AluForm) (s : State) : Host.Outcome State Fault Refusal := runAlu (subOp false) f s
/-- SBB (49_int R642). -/
def execSbb (f : AluForm) (s : State) : Host.Outcome State Fault Refusal := runAlu (subOp true) f s
/-- AND (40_int R236). -/
def execAnd (f : AluForm) (s : State) : Host.Outcome State Fault Refusal := runAlu (logicOp (· &&& ·)) f s
/-- OR (46_int R522). -/
def execOr (f : AluForm) (s : State) : Host.Outcome State Fault Refusal := runAlu (logicOp (· ||| ·)) f s
/-- XOR (49_int R665). -/
def execXor (f : AluForm) (s : State) : Host.Outcome State Fault Refusal := runAlu (logicOp (· ^^^ ·)) f s
/-- CMP: nothing is written (41_int R293). -/
def execCmp (f : AluForm) (s : State) : Host.Outcome State Fault Refusal := run (alu false (subOp false) f) s

/-- TEST in its three forms (49_int R656). -/
def testForm (f : TestForm) : M Unit := do
  let s ← get
  match f with
  | .rmR w d r => binRm false (logicOp (· &&& ·)) (s.wd w) d (s.reg (s.wd w) r)
  | .accImm w i => binReg false (logicOp (· &&& ·)) (s.wd w) .eax (immSz (s.wd w) i)
  | .rmImm w d i => binRm false (logicOp (· &&& ·)) (s.wd w) d (immSz (s.wd w) i)

/-- TEST (49_int R656). -/
def execTest (f : TestForm) (s : State) : Host.Outcome State Fault Refusal := run (testForm f) s

/-! ## One operand -/

/-- INC (44_int R444). -/
def execInc (f : IncForm) (s : State) : Host.Outcome State Fault Refusal :=
  runWith (incLockable f) .never (incForm incOp f) s
/-- DEC (41_int R309). -/
def execDec (f : IncForm) (s : State) : Host.Outcome State Fault Refusal :=
  runWith (incLockable f) .never (incForm decOp f) s
/-- NEG (46_int R519). -/
def execNeg (w : Wd) (dst : Rm) (s : State) : Host.Outcome State Fault Refusal :=
  runLock dst (unRm negOp (s.wd w) dst) s
/-- NOT (46_int R521). -/
def execNot (w : Wd) (dst : Rm) (s : State) : Host.Outcome State Fault Refusal :=
  runLock dst (unRm notOp (s.wd w) dst) s

/-! ## Multiplication and division -/

/-- The double-width accumulator AX, DX:AX or EDX:EAX. -/
def State.wideAcc (s : State) (sz : Sz) : Nat :=
  match sz with
  | .b => (s.reg .w .eax).toNat
  | .w => (s.reg .w .edx).toNat * 2 ^ 16 + (s.reg .w .eax).toNat
  | .d => s.gpr.edx.toNat * 2 ^ 32 + s.gpr.eax.toNat

/-- Write the double-width accumulator. -/
def setWideAcc (sz : Sz) (hi lo : Nat) : M Unit :=
  match sz with
  | .b => setReg .w .eax (BitVec.ofNat 16 (hi * 2 ^ 8 + lo))
  | .w => do setReg .w .eax (BitVec.ofNat 16 lo); setReg .w .edx (BitVec.ofNat 16 hi)
  | .d => do setReg .d .eax (BitVec.ofNat 32 lo); setReg .d .edx (BitVec.ofNat 32 hi)

/-- CF and OF as given; SF, ZF, AF, PF free (46_int R518, 44_int R442). -/
def mulFlags (c : Bool) : M Unit :=
  modifyFlagsFree 4 (fun u f => { f with cf := c, of_ := c, sf := u 0, zf := u 1, af := u 2, pf := u 3 })

/-- All status flags free (41_int R310, 44_int R441). -/
def divFlags : M Unit :=
  modifyFlagsFree 6 (fun u f =>
    { f with cf := u 0, of_ := u 1, sf := u 2, zf := u 3, af := u 4, pf := u 5 })

/-- MUL (46_int R518). -/
def mul (sz : Sz) (src : Rm) : M Unit := do
  let b ← readRm sz src
  let a ← getReg sz .eax
  let p := a.toNat * b.toNat
  let hi := p / 2 ^ sz.bits
  setWideAcc sz hi (p % 2 ^ sz.bits)
  mulFlags (hi != 0)

/-- One-operand IMUL (44_int R442). -/
def imulWide (sz : Sz) (src : Rm) : M Unit := do
  let b ← readRm sz src
  let a ← getReg sz .eax
  let p := a.toInt * b.toInt
  let lo := BitVec.ofInt sz.bits p
  setWideAcc sz (BitVec.ofInt sz.bits (p / (2 ^ sz.bits : Int))).toNat lo.toNat
  mulFlags (lo.toInt != p)

/-- Two- and three-operand IMUL (44_int R442). -/
def imulTrunc (sz : Sz) (dst : Reg) (a b : BitVec sz.bits) : M Unit := do
  let p := a.toInt * b.toInt
  let lo := BitVec.ofInt sz.bits p
  setReg sz dst lo
  mulFlags (lo.toInt != p)

/-- IMUL in its three forms (44_int R442). -/
def imulForm (f : ImulForm) : M Unit := do
  let s ← get
  match f with
  | .one w src => imulWide (s.wd w) src
  | .two dst src => imulTrunc s.osz dst (s.reg s.osz dst) (← readRm s.osz src)
  | .three dst src (.v i) => imulTrunc s.osz dst (← readRm s.osz src) (immSz s.osz i)
  | .three dst src (.b i) => imulTrunc s.osz dst (← readRm s.osz src) (sext8 s.osz i)

/-- The divide error of DIV and IDIV: the status flags are undefined in the image it saves too
(93_implementation_defined 1.1). -/
def divideError : M Unit := do
  divFlags
  raise { Exc.de with flags := some (← get).flags }

/-- DIV (41_int R310). -/
def divU (sz : Sz) (src : Rm) : M Unit := do
  let b := (← readRm sz src).toNat
  let d := (← get).wideAcc sz
  let q := d / b
  if b = 0 ∨ 2 ^ sz.bits ≤ q then divideError
  else
    setWideAcc sz (d % b) q
    divFlags

/-- IDIV: chopped toward 0, the remainder with the sign of the dividend (44_int R441). -/
def divS (sz : Sz) (src : Rm) : M Unit := do
  let b := (← readRm sz src).toInt
  let d := (BitVec.ofNat (2 * sz.bits) ((← get).wideAcc sz)).toInt
  let q := d.tdiv b
  let r := d.tmod b
  if b = 0 ∨ q < -(2 : Int) ^ (sz.bits - 1) ∨ (2 : Int) ^ (sz.bits - 1) ≤ q then divideError
  else
    setWideAcc sz (BitVec.ofInt sz.bits r).toNat (BitVec.ofInt sz.bits q).toNat
    divFlags

/-- MUL (46_int R518). -/
def execMul (w : Wd) (src : Rm) (s : State) : Host.Outcome State Fault Refusal := run (mul (s.wd w) src) s
/-- IMUL (44_int R442). -/
def execImul (f : ImulForm) (s : State) : Host.Outcome State Fault Refusal := run (imulForm f) s
/-- DIV (41_int R310). -/
def execDiv (w : Wd) (src : Rm) (s : State) : Host.Outcome State Fault Refusal := run (divU (s.wd w) src) s
/-- IDIV (44_int R441). -/
def execIdiv (w : Wd) (src : Rm) (s : State) : Host.Outcome State Fault Refusal := run (divS (s.wd w) src) s

/-! ## Decimal adjustment -/

/-- AL. -/
def getAl : M Byte := getReg .b .eax
/-- AH. -/
def getAh : M Byte := getReg .b .esp
/-- Write AL. -/
def setAl (v : Byte) : M Unit := setReg .b .eax v
/-- Write AH. -/
def setAh (v : Byte) : M Unit := setReg .b .esp v

/-- The low digit of AL needs adjusting. -/
def lowAdjust (al : Byte) (f : Flags) : Bool := decide (9 < al.toNat % 16) || f.af

/-- AAA and AAS: `d` is added to AL and AH's step to AH (40_int R230, R233). -/
def asciiAdjust (dl dh : Byte) : M Unit := do
  let al ← getAl
  let ah ← getAh
  let adj := lowAdjust al (← get).flags
  setAl ((if adj then al + dl else al) &&& 0x0F#8)
  setAh (if adj then ah + dh else ah)
  modifyFlagsFree 4 (fun u f => { f with af := adj, cf := adj, of_ := u 0, sf := u 1, zf := u 2, pf := u 3 })

/-- SF, ZF, PF from the byte result; OF, AF, CF free (40_int R231, R232). -/
def aaFlags (r : Byte) : M Unit :=
  modifyFlagsFree 3 (fun u f => { f.szp r with of_ := u 0, af := u 1, cf := u 2 })

/-- AAD (40_int R231). -/
def aadBody (base : Byte) : M Unit := do
  let r := (← getAl) + (← getAh) * base
  setAl r
  setAh 0
  aaFlags r

/-- AAM (40_int R232). -/
def aamBody (base : Byte) : M Unit := do
  raiseIf (base == 0) .de
  let al ← getAl
  setAh (al / base)
  setAl (al % base)
  aaFlags (al % base)

/-- DAA and DAS (41_int R307, R308): the two steps, with `sub` for DAS. -/
def decimalAdjust (sub : Bool) : M Unit := do
  let al ← getAl
  let f := (← get).flags
  let adj := lowAdjust al f
  let a1 := if adj then (if sub then al - 6 else al + 6) else al
  let c1 := f.cf || (adj && (if sub then decide (al.toNat < 6) else decide (256 ≤ al.toNat + 6)))
  let high := (if sub then decide (0x9F < a1.toNat) else decide (0x90 < (a1 &&& 0xF0#8).toNat)) || c1
  let a2 := if high then (if sub then a1 - 0x60#8 else a1 + 0x60#8) else a1
  setAl a2
  modifyFlagsFree 1 (fun u f => { f.szp a2 with af := adj, cf := high, of_ := u 0 })

/-- AAA (40_int R230). -/
def execAaa (s : State) : Host.Outcome State Fault Refusal := run (asciiAdjust 6 1) s
/-- AAS (40_int R233). -/
def execAas (s : State) : Host.Outcome State Fault Refusal := run (asciiAdjust (-6) (-1)) s
/-- AAD (40_int R231). -/
def execAad (base : Byte) (s : State) : Host.Outcome State Fault Refusal := run (aadBody base) s
/-- AAM (40_int R232). -/
def execAam (base : Byte) (s : State) : Host.Outcome State Fault Refusal := run (aamBody base) s
/-- DAA (41_int R307). -/
def execDaa (s : State) : Host.Outcome State Fault Refusal := run (decimalAdjust false) s
/-- DAS (41_int R308). -/
def execDas (s : State) : Host.Outcome State Fault Refusal := run (decimalAdjust true) s

/-! ## Conversions (41_int R285, R305) -/

/-- Sign-extend AL to AX, or AX to EAX, by the operand size. -/
def convertAcc : M Unit := do
  if (← get).os32 then setReg .d .eax ((← getReg .w .eax).signExtend 32)
  else setReg .w .eax ((← getReg .b .eax).signExtend 16)

/-- Spread the sign of AX over DX, or of EAX over EDX. -/
def spreadSign : M Unit := do
  let sz := (← get).osz
  let a ← getReg sz .eax
  setReg sz .edx (if a.msb then BitVec.allOnes sz.bits else 0)

/-- CBW (41_int R285). -/
def execCbw (s : State) : Host.Outcome State Fault Refusal := run convertAcc s
/-- CWDE (41_int R285). -/
def execCwde (s : State) : Host.Outcome State Fault Refusal := run convertAcc s
/-- CWD (41_int R305). -/
def execCwd (s : State) : Host.Outcome State Fault Refusal := run spreadSign s
/-- CDQ (41_int R305). -/
def execCdq (s : State) : Host.Outcome State Fault Refusal := run spreadSign s

end Sys2Proof.Machine
end

