-- ==== Sys2Proof/Machine/Bits.lean ====
section
/-! DEFINITION. Shifts, rotates, bit tests, bit scans and conditional moves and sets (spec 40_int R239 to R246,
41_int R292, 48_int R610, 49_int R641, R644, R646, R647). -/

namespace Sys2Proof.Machine

/-! ## Shifts and rotates -/

/-- The seven operations. -/
inductive ShiftKind | rol | ror | rcl | rcr | shl | shr | sar
deriving DecidableEq, Repr

/-- The carry and the operand as one value, the carry on top. -/
def withCarry {w : Nat} (c : Bool) (a : BitVec w) : BitVec (w + 1) := (BitVec.ofBool c ++ a).setWidth (w + 1)

/-- The result of a shift or rotate by a count that is not 0, from the old carry (48_int R610, 49_int R641). -/
def ShiftKind.result {w : Nat} (k : ShiftKind) (a : BitVec w) (c : Bool) (n : Nat) : BitVec w :=
  match k with
  | .rol => a.rotateLeft (n % w)
  | .ror => a.rotateRight (n % w)
  | .rcl => ((withCarry c a).rotateLeft (n % (w + 1))).setWidth w
  | .rcr => ((withCarry c a).rotateRight (n % (w + 1))).setWidth w
  | .shl => a <<< n
  | .shr => a >>> n
  | .sar => a.sshiftRight n

/-- The new carry; `free` where it is undefined (SHL and SHR by the operand size or more). -/
def ShiftKind.carry {w : Nat} (k : ShiftKind) (a : BitVec w) (c : Bool) (n : Nat) (free : Bool) : Bool :=
  match k with
  | .rol => (k.result a c n).getLsbD 0
  | .ror => (k.result a c n).msb
  | .rcl => ((withCarry c a).rotateLeft (n % (w + 1))).msb
  | .rcr => ((withCarry c a).rotateRight (n % (w + 1))).msb
  | .shl => if w ≤ n then free else a.getLsbD (w - n)
  | .shr => if w ≤ n then free else a.getLsbD (n - 1)
  | .sar => if w ≤ n then a.msb else a.getLsbD (n - 1)

/-- OF of a shift or rotate by 1 (48_int R610, 49_int R641). -/
def ShiftKind.overflow {w : Nat} (k : ShiftKind) (a : BitVec w) (c : Bool) : Bool :=
  let r := k.result a c 1
  match k with
  | .rol => r.msb ^^ r.getLsbD 0
  | .ror => r.msb ^^ r.getLsbD (w - 2)
  | .rcl => r.msb ^^ k.carry a c 1 false
  | .rcr => a.msb ^^ c
  | .shl => r.msb ^^ a.msb
  | .shr => a.msb
  | .sar => false

/-- The operation is a shift: it sets SF, ZF, PF and leaves AF undefined. -/
def ShiftKind.isShift : ShiftKind → Bool
  | .shl => true | .shr => true | .sar => true
  | .rol => false | .ror => false | .rcl => false | .rcr => false

/-- The flags of a shift or rotate by `n`, not 0; `u` are free bits. -/
def ShiftKind.flags {w : Nat} (k : ShiftKind) (a : BitVec w) (n : Nat) (u : Nat → Bool) (f : Flags) : Flags :=
  let g := { f with cf := k.carry a f.cf n (u 0), of_ := if n = 1 then k.overflow a f.cf else u 1 }
  if k.isShift then { g.szp (k.result a f.cf n) with af := u 2 } else g

/-- The count, masked to 5 bits. -/
def State.count (s : State) : Count → Nat
  | .one => 1
  | .cl => (s.reg .b .ecx).toNat % 32
  | .imm n => n.toNat % 32

/-- A shift or rotate; a count of 0 changes nothing, but for a destination in memory what a write does in translation and
breakpoints. DESIGN CHOICE, log 55. -/
def shift (k : ShiftKind) (f : ShiftForm) : M Unit := do
  let s ← get
  let sz := s.wd f.w
  let n := s.count f.count
  let l ← locate sz f.dst .rw
  let a ← l.read sz
  if n = 0 then pure ()
  else
    let c := (← get).flags.cf
    modifyFlagsFree 3 (k.flags a n)
    l.write sz (k.result a c n)

/-- ROL (48_int R610). -/
def execRol (f : ShiftForm) (s : State) : Host.Outcome State Fault Refusal := run (shift .rol f) s
/-- ROR (48_int R610). -/
def execRor (f : ShiftForm) (s : State) : Host.Outcome State Fault Refusal := run (shift .ror f) s
/-- RCL (48_int R610). -/
def execRcl (f : ShiftForm) (s : State) : Host.Outcome State Fault Refusal := run (shift .rcl f) s
/-- RCR (48_int R610). -/
def execRcr (f : ShiftForm) (s : State) : Host.Outcome State Fault Refusal := run (shift .rcr f) s
/-- SAL, SHL (49_int R641). -/
def execSalShl (f : ShiftForm) (s : State) : Host.Outcome State Fault Refusal := run (shift .shl f) s
/-- SHR (49_int R641). -/
def execShr (f : ShiftForm) (s : State) : Host.Outcome State Fault Refusal := run (shift .shr f) s
/-- SAR (49_int R641). -/
def execSar (f : ShiftForm) (s : State) : Host.Outcome State Fault Refusal := run (shift .sar f) s

/-! ## Double shifts (49_int R646, R647) -/

/-- The result of SHLD (`left`) or SHRD by `n`. -/
def shxdResult {w : Nat} (left : Bool) (a b : BitVec w) (n : Nat) : BitVec w :=
  if left then ((a ++ b) <<< n).extractLsb' w w else ((b ++ a) >>> n).extractLsb' 0 w

/-- The flags of SHLD or SHRD by `n`, from 1 to the width. -/
def shxdFlags {w : Nat} (left : Bool) (a b : BitVec w) (n : Nat) (u : Nat → Bool) (f : Flags) : Flags :=
  let r := shxdResult left a b n
  { f.szp r with
    cf := a.getLsbD (if left then w - n else n - 1), af := u 0
    of_ := if n = 1 then r.msb != a.msb else u 1 }

/-- SHLD, SHRD; a count above the operand size leaves the destination and the flags undefined. A count of 0 is as in `shift`:
DESIGN CHOICE, log 55. -/
def shxd (left : Bool) (dst : Rm) (src : Reg) (n : Nat) : M Unit := do
  let sz := (← get).osz
  let l ← locate sz dst .rw
  let a ← l.read sz
  let b ← getReg sz src
  if n = 0 then pure ()
  else if sz.bits < n then
    divFlags
    l.write sz ((← freeDword).setWidth sz.bits)
  else
    modifyFlagsFree 2 (shxdFlags left a b n)
    l.write sz (shxdResult left a b n)

/-- The two operand forms. -/
def shxdForm (left : Bool) (f : ShxdForm) : M Unit := do
  match f with
  | .imm dst src n => shxd left dst src (n.toNat % 32)
  | .cl dst src => shxd left dst src ((← get).count .cl)

/-- SHLD (49_int R646). -/
def execShld (f : ShxdForm) (s : State) : Host.Outcome State Fault Refusal := run (shxdForm true f) s
/-- SHRD (49_int R647). -/
def execShrd (f : ShxdForm) (s : State) : Host.Outcome State Fault Refusal := run (shxdForm false f) s

/-! ## Bit tests (40_int R242 to R246) -/

/-- A linear offset wrapped to the address size (20_memory R115). -/
def State.wrapA (s : State) (v : Dword) : Dword := if s.as32 then v else (v.extractLsb' 0 16).setWidth 32

/-- The unit that holds the selected bit, and the bit's place in it (R246). -/
def bitUnit (sz : Sz) (f : BtForm) (k : Acc) : M (Loc × Nat) := do
  match f with
  | .rmImm base off => return (← locate sz base k, off.toNat % sz.bits)
  | .rmR (.reg r) off => return (.reg r, (← getReg sz off).toNat % sz.bits)
  | .rmR (.mem a) off =>
    let s ← get
    let o := (s.reg sz off).toInt
    let disp := BitVec.ofInt 32 (o / (sz.bits : Int) * (sz.bytes : Int))
    let ps ← access (s.eaSeg a) (s.wrapA (s.gpr.eaOff a + disp)) sz.bytes sz.bytes k
    return (.mem ps, (o % (sz.bits : Int)).toNat)

/-- CF is the selected bit; OF, SF, ZF, AF, PF are free. -/
def btFlags (c : Bool) : M Unit :=
  modifyFlagsFree 5 (fun u f => { f with cf := c, of_ := u 0, sf := u 1, zf := u 2, af := u 3, pf := u 4 })

/-- BT: the selected bit. -/
def bitTest (f : BtForm) : M Unit := do
  let sz := (← get).osz
  let (l, i) ← bitUnit sz f .r
  btFlags ((← l.read sz).getLsbD i)

/-- BTC, BTR, BTS: the unit is replaced by `g` of it and the mask of the bit. -/
def bitChange (g : {w : Nat} → BitVec w → BitVec w → BitVec w) (f : BtForm) : M Unit := do
  let sz := (← get).osz
  let (l, i) ← bitUnit sz f .rw
  let a ← l.read sz
  btFlags (a.getLsbD i)
  l.write sz (g a (BitVec.ofNat sz.bits (2 ^ i)))

/-- LOCK with BTC, BTR, BTS. -/
def btLockable : BtForm → Bool
  | .rmR b _ => rmLockable b
  | .rmImm b _ => rmLockable b

/-- BT (40_int R242). -/
def execBt (f : BtForm) (s : State) : Host.Outcome State Fault Refusal := run (bitTest f) s
/-- BTC (40_int R243). -/
def execBtc (f : BtForm) (s : State) : Host.Outcome State Fault Refusal :=
  runWith (btLockable f) .never (bitChange (· ^^^ ·) f) s
/-- BTR (40_int R244). -/
def execBtr (f : BtForm) (s : State) : Host.Outcome State Fault Refusal :=
  runWith (btLockable f) .never (bitChange (fun a m => a &&& ~~~m) f) s
/-- BTS (40_int R245). -/
def execBts (f : BtForm) (s : State) : Host.Outcome State Fault Refusal :=
  runWith (btLockable f) .never (bitChange (· ||| ·) f) s

/-! ## Bit scans and BSWAP (40_int R239 to R241) -/

/-- The first of a list of bit numbers that is set. -/
def firstSet {w : Nat} (a : BitVec w) (is : List Nat) : Option Nat := is.find? (fun i => a.getLsbD i)

/-- BSF, BSR: scan the bits in the order `is`; a source of 0 leaves the destination undefined. -/
def bitScan (is : Nat → List Nat) (dst : Reg) (src : Rm) : M Unit := do
  let sz := (← get).osz
  let a ← readRm sz src
  let z := a == 0
  modifyFlagsFree 5 (fun u f => { f with zf := z, cf := u 0, of_ := u 1, sf := u 2, af := u 3, pf := u 4 })
  match firstSet a (is sz.bits) with
  | some i => setReg sz dst (BitVec.ofNat sz.bits i)
  | none => setReg sz dst ((← freeDword).setWidth sz.bits)

/-- BSF (40_int R239). -/
def execBsf (dst : Reg) (src : Rm) (s : State) : Host.Outcome State Fault Refusal := run (bitScan List.range dst src) s
/-- BSR (40_int R240). -/
def execBsr (dst : Reg) (src : Rm) (s : State) : Host.Outcome State Fault Refusal :=
  run (bitScan (fun n => (List.range n).reverse) dst src) s

/-- The bytes of a doubleword in reverse order. -/
def byteSwap (v : Dword) : Dword :=
  v.extractLsb' 0 8 ++ v.extractLsb' 8 8 ++ v.extractLsb' 16 8 ++ v.extractLsb' 24 8

/-- BSWAP; with a 16-bit operand size the result is undefined. -/
def bswapBody (r : Reg) : M Unit := do
  if (← get).os32 then setReg .d r (byteSwap (← getReg .d r))
  else setReg .d r (← freeDword)

/-- BSWAP (40_int R241). -/
def execBswap (r : Reg) (s : State) : Host.Outcome State Fault Refusal := run (bswapBody r) s

/-! ## Conditional moves and sets (41_int R292, 49_int R644) -/

/-- CMOVcc: the source is read whether or not the condition holds. -/
def cmov (c : Cond) (dst : Reg) (src : Rm) : M Unit := do
  let sz := (← get).osz
  let v ← readRm sz src
  if (← get).flags.cond c then setReg sz dst v else pure ()

/-- SETcc: a byte 1 or 0. -/
def setcc (c : Cond) (dst : Rm) : M Unit := do
  let f := (← get).flags
  writeRm .b dst (if f.cond c then 1 else 0)

/-- CMOVO (41_int R292). -/
def execCmovo (dst : Reg) (src : Rm) (s : State) : Host.Outcome State Fault Refusal := run (cmov .o dst src) s
/-- CMOVNO (41_int R292). -/
def execCmovno (dst : Reg) (src : Rm) (s : State) : Host.Outcome State Fault Refusal := run (cmov .no dst src) s
/-- CMOVB (41_int R292). -/
def execCmovb (dst : Reg) (src : Rm) (s : State) : Host.Outcome State Fault Refusal := run (cmov .b dst src) s
/-- CMOVAE (41_int R292). -/
def execCmovae (dst : Reg) (src : Rm) (s : State) : Host.Outcome State Fault Refusal := run (cmov .ae dst src) s
/-- CMOVE (41_int R292). -/
def execCmove (dst : Reg) (src : Rm) (s : State) : Host.Outcome State Fault Refusal := run (cmov .e dst src) s
/-- CMOVNE (41_int R292). -/
def execCmovne (dst : Reg) (src : Rm) (s : State) : Host.Outcome State Fault Refusal := run (cmov .ne dst src) s
/-- CMOVBE (41_int R292). -/
def execCmovbe (dst : Reg) (src : Rm) (s : State) : Host.Outcome State Fault Refusal := run (cmov .be dst src) s
/-- CMOVA (41_int R292). -/
def execCmova (dst : Reg) (src : Rm) (s : State) : Host.Outcome State Fault Refusal := run (cmov .a dst src) s
/-- CMOVS (41_int R292). -/
def execCmovs (dst : Reg) (src : Rm) (s : State) : Host.Outcome State Fault Refusal := run (cmov .s dst src) s
/-- CMOVNS (41_int R292). -/
def execCmovns (dst : Reg) (src : Rm) (s : State) : Host.Outcome State Fault Refusal := run (cmov .ns dst src) s
/-- CMOVP (41_int R292). -/
def execCmovp (dst : Reg) (src : Rm) (s : State) : Host.Outcome State Fault Refusal := run (cmov .p dst src) s
/-- CMOVNP (41_int R292). -/
def execCmovnp (dst : Reg) (src : Rm) (s : State) : Host.Outcome State Fault Refusal := run (cmov .np dst src) s
/-- CMOVL (41_int R292). -/
def execCmovl (dst : Reg) (src : Rm) (s : State) : Host.Outcome State Fault Refusal := run (cmov .l dst src) s
/-- CMOVGE (41_int R292). -/
def execCmovge (dst : Reg) (src : Rm) (s : State) : Host.Outcome State Fault Refusal := run (cmov .ge dst src) s
/-- CMOVLE (41_int R292). -/
def execCmovle (dst : Reg) (src : Rm) (s : State) : Host.Outcome State Fault Refusal := run (cmov .le dst src) s
/-- CMOVG (41_int R292). -/
def execCmovg (dst : Reg) (src : Rm) (s : State) : Host.Outcome State Fault Refusal := run (cmov .g dst src) s
/-- SETO (49_int R644). -/
def execSeto (dst : Rm) (s : State) : Host.Outcome State Fault Refusal := run (setcc .o dst) s
/-- SETNO (49_int R644). -/
def execSetno (dst : Rm) (s : State) : Host.Outcome State Fault Refusal := run (setcc .no dst) s
/-- SETB (49_int R644). -/
def execSetb (dst : Rm) (s : State) : Host.Outcome State Fault Refusal := run (setcc .b dst) s
/-- SETAE (49_int R644). -/
def execSetae (dst : Rm) (s : State) : Host.Outcome State Fault Refusal := run (setcc .ae dst) s
/-- SETE (49_int R644). -/
def execSete (dst : Rm) (s : State) : Host.Outcome State Fault Refusal := run (setcc .e dst) s
/-- SETNE (49_int R644). -/
def execSetne (dst : Rm) (s : State) : Host.Outcome State Fault Refusal := run (setcc .ne dst) s
/-- SETBE (49_int R644). -/
def execSetbe (dst : Rm) (s : State) : Host.Outcome State Fault Refusal := run (setcc .be dst) s
/-- SETA (49_int R644). -/
def execSeta (dst : Rm) (s : State) : Host.Outcome State Fault Refusal := run (setcc .a dst) s
/-- SETS (49_int R644). -/
def execSets (dst : Rm) (s : State) : Host.Outcome State Fault Refusal := run (setcc .s dst) s
/-- SETNS (49_int R644). -/
def execSetns (dst : Rm) (s : State) : Host.Outcome State Fault Refusal := run (setcc .ns dst) s
/-- SETP (49_int R644). -/
def execSetp (dst : Rm) (s : State) : Host.Outcome State Fault Refusal := run (setcc .p dst) s
/-- SETNP (49_int R644). -/
def execSetnp (dst : Rm) (s : State) : Host.Outcome State Fault Refusal := run (setcc .np dst) s
/-- SETL (49_int R644). -/
def execSetl (dst : Rm) (s : State) : Host.Outcome State Fault Refusal := run (setcc .l dst) s
/-- SETGE (49_int R644). -/
def execSetge (dst : Rm) (s : State) : Host.Outcome State Fault Refusal := run (setcc .ge dst) s
/-- SETLE (49_int R644). -/
def execSetle (dst : Rm) (s : State) : Host.Outcome State Fault Refusal := run (setcc .le dst) s
/-- SETG (49_int R644). -/
def execSetg (dst : Rm) (s : State) : Host.Outcome State Fault Refusal := run (setcc .g dst) s

end Sys2Proof.Machine
end

