-- ==== Sys2Proof/Machine/Move.lean ====
section
/-! DEFINITION. Data movement: MOV, exchanges, far pointers, LEA, XLAT, flag moves, BOUND (spec 40_int R238, 41_int R295,
R296, 45_int R477, R479, R480, 46_int R510, R516, R517, 49_int R640, R662 to R664). -/

namespace Sys2Proof.Machine

/-! ## MOV (46_int R510) -/

/-- The general forms of MOV. -/
def movForm (f : MovForm) : M Unit := do
  let s ← get
  match f with
  | .rmR w d r => writeRm (s.wd w) d (s.reg (s.wd w) r)
  | .rRm w r m => setReg (s.wd w) r (← readRm (s.wd w) m)
  | .rImm w r i => setReg (s.wd w) r (immSz (s.wd w) i)
  | .rmImm w d i => writeRm (s.wd w) d (immSz (s.wd w) i)
  | .accMoffs w o =>
    let sz := s.wd w
    setReg sz .eax (BitVec.ofNat sz.bits (← readSeg s.dsSeg o sz.bytes sz.bytes))
  | .moffsAcc w o =>
    let sz := s.wd w
    writeSeg s.dsSeg o sz.bytes sz.bytes (s.reg sz .eax).toNat

/-- The segment register a number names (10_state R50); 6 and 7 are reserved (30_encoding R218). -/
def sregOf : Idx8 → Option SReg
  | .i0 => some .es | .i1 => some .cs | .i2 => some .ss | .i3 => some .ds | .i4 => some .fs | .i5 => some .gs
  | .i6 => none | .i7 => none

/-- Store a selector: 16 bits in memory; a 32-bit register is zero-extended (46_int R510; 49_int R648, R654). -/
def storeSelector (dst : Rm) (v : Word) : M Unit := do
  match dst with
  | .mem a => writeEa a 2 2 v.toNat
  | .reg r => if (← get).os32 then setReg .d r (v.setWidth 32) else setReg .w r v

/-- A 16-bit operand, whatever the operand size. -/
def readWord (m : Rm) : M Word := readRm .w m

/-- Begin the shadow that follows a load of SS (10_state R80). -/
def shadowSs : M Unit := modify (fun s => { s with shadow := .movSs })

/-- MOV to and from segment registers. -/
def movSregForm (f : MovSregForm) : M Unit := do
  match f with
  | .fromSreg dst n =>
    match sregOf n with
    | none => raise .ud
    | some r => storeSelector dst ((← get).seg.get r).sel
  | .toSreg n src =>
    match sregOf n with
    | none => raise .ud
    | some r =>
      raiseIf (r == .cs) .ud
      loadSegReg r (← readWord src)
      if r = .ss then shadowSs else pure ()

/-- MOV (46_int R510). -/
def execMov (f : MovForm) (s : State) : Host.Outcome State Fault Refusal := run (movForm f) s
/-- MOV to and from segment registers (46_int R510). -/
def execMovSreg (f : MovSregForm) (s : State) : Host.Outcome State Fault Refusal := run (movSregForm f) s

/-! ## MOVSX, MOVZX (46_int R516, R517) -/

/-- The size of the source: a byte, or a word. -/
def extSrc : Wd → Sz
  | .b => .b | .v => .w

/-- MOVSX, MOVZX, by whether the sign is extended. -/
def movExtend (signed : Bool) (w : Wd) (dst : Reg) (src : Rm) : M Unit := do
  let sz := (← get).osz
  let v ← readRm (extSrc w) src
  setReg sz dst (if signed then v.signExtend sz.bits else v.setWidth sz.bits)

/-- MOVSX (46_int R516). -/
def execMovsx (w : Wd) (dst : Reg) (src : Rm) (s : State) : Host.Outcome State Fault Refusal :=
  run (movExtend true w dst src) s
/-- MOVZX (46_int R517). -/
def execMovzx (w : Wd) (dst : Reg) (src : Rm) (s : State) : Host.Outcome State Fault Refusal :=
  run (movExtend false w dst src) s

/-! ## Exchanges -/

/-- XCHG (49_int R663). -/
def xchgForm (f : XchgForm) : M Unit := do
  let s ← get
  match f with
  | .rmR w a b =>
    let sz := s.wd w
    let l ← locate sz a .rw
    let x ← l.read sz
    l.write sz (s.reg sz b)
    setReg sz b x
  | .acc r =>
    let sz := s.osz
    setReg sz .eax (s.reg sz r)
    setReg sz r (s.reg sz .eax)

/-- LOCK with XCHG. -/
def xchgLockable : XchgForm → Bool
  | .rmR _ a _ => rmLockable a
  | .acc _ => false

/-- XADD: the register takes the old destination, then the destination takes the sum (49_int R662). -/
def xadd (sz : Sz) (dst : Rm) (src : Reg) : M Unit := do
  let l ← locate sz dst .rw
  let a ← l.read sz
  let b ← getReg sz src
  let r ← addOp false sz a b
  setReg sz src a
  l.write sz r

/-- CMPXCHG: a destination that differs is written back (41_int R295). -/
def cmpxchg (sz : Sz) (dst : Rm) (src : Reg) : M Unit := do
  let l ← locate sz dst .rw
  let d ← l.read sz
  let acc ← getReg sz .eax
  let b ← getReg sz src
  let _ ← subOp false sz acc d
  if acc = d then l.write sz b
  else
    l.write sz d
    setReg sz .eax d

/-- CMPXCHG8B (41_int R296). -/
def cmpxchg8b (m : Rm) : M Unit := do
  let a ← needMem m
  let ps ← accessEa a 8 8 .rw
  let d ← loadAt ps
  let g := (← get).gpr
  if g.edx.toNat * 2 ^ 32 + g.eax.toNat = d then
    storeAt ps (g.ecx.toNat * 2 ^ 32 + g.ebx.toNat)
    modifyFlags (fun f => { f with zf := true })
  else
    storeAt ps d
    setReg .d .edx (BitVec.ofNat 32 (d / 2 ^ 32))
    setReg .d .eax (BitVec.ofNat 32 d)
    modifyFlags (fun f => { f with zf := false })

/-- XCHG (49_int R663). -/
def execXchg (f : XchgForm) (s : State) : Host.Outcome State Fault Refusal :=
  runWith (xchgLockable f) .never (xchgForm f) s
/-- XADD (49_int R662). -/
def execXadd (w : Wd) (dst : Rm) (src : Reg) (s : State) : Host.Outcome State Fault Refusal :=
  runLock dst (xadd (s.wd w) dst src) s
/-- CMPXCHG (41_int R295). -/
def execCmpxchg (w : Wd) (dst : Rm) (src : Reg) (s : State) : Host.Outcome State Fault Refusal :=
  runLock dst (cmpxchg (s.wd w) dst src) s
/-- CMPXCHG8B (41_int R296). -/
def execCmpxchg8b (m : Rm) (s : State) : Host.Outcome State Fault Refusal := runLock m (cmpxchg8b m) s

/-! ## Far pointers, LEA, XLAT -/

/-- A far pointer in memory, one operand: an offset of `n` bytes, then a selector (20_memory R101; alignment R113). -/
def readFar (a : Ea) (n : Nat) : M (Word × Dword) := do
  let v ← readEa a (n + 2) n
  return (BitVec.ofNat 16 (v / 2 ^ (8 * n)), BitVec.ofNat 32 (v % 2 ^ (8 * n)))

/-- LDS, LES, LFS, LGS, LSS (45_int R479). -/
def loadFar (r : SReg) (dst : Reg) (m : Rm) : M Unit := do
  let a ← needMem m
  let sz := (← get).osz
  let (sel, off) ← readFar a sz.bytes
  loadSegReg r sel
  setReg sz dst (off.setWidth sz.bits)

/-- LDS (45_int R479). -/
def execLds (dst : Reg) (m : Rm) (s : State) : Host.Outcome State Fault Refusal := run (loadFar .ds dst m) s
/-- LES (45_int R479). -/
def execLes (dst : Reg) (m : Rm) (s : State) : Host.Outcome State Fault Refusal := run (loadFar .es dst m) s
/-- LSS (45_int R479). -/
def execLss (dst : Reg) (m : Rm) (s : State) : Host.Outcome State Fault Refusal := run (loadFar .ss dst m) s
/-- LFS (45_int R479). -/
def execLfs (dst : Reg) (m : Rm) (s : State) : Host.Outcome State Fault Refusal := run (loadFar .fs dst m) s
/-- LGS (45_int R479). -/
def execLgs (dst : Reg) (m : Rm) (s : State) : Host.Outcome State Fault Refusal := run (loadFar .gs dst m) s

/-- LEA: the offset only (45_int R480). -/
def lea (dst : Reg) (m : Rm) : M Unit := do
  let a ← needMem m
  let s ← get
  setReg s.osz dst ((s.gpr.eaOff a).setWidth s.osz.bits)

/-- LEA (45_int R480). -/
def execLea (dst : Reg) (m : Rm) (s : State) : Host.Outcome State Fault Refusal := run (lea dst m) s

/-- XLAT (49_int R664). -/
def xlat : M Unit := do
  let s ← get
  let o := s.wrapA (s.regA .ebx + (s.reg .b .eax).setWidth 32)
  setReg .b .eax (BitVec.ofNat 8 (← readSeg s.dsSeg o 1 1))

/-- XLAT (49_int R664). -/
def execXlat (s : State) : Host.Outcome State Fault Refusal := run xlat s

/-! ## Flags -/

/-- LAHF (45_int R477). -/
def lahf : M Unit := do setAh ((← get).flags.toDword.extractLsb' 0 8)

/-- SAHF (49_int R640). -/
def sahf : M Unit := do
  let ah ← getAh
  modifyFlags (fun f => f.merge (ah.setWidth 32) 0x000000D5#32)

/-- LAHF (45_int R477). -/
def execLahf (s : State) : Host.Outcome State Fault Refusal := run lahf s
/-- SAHF (49_int R640). -/
def execSahf (s : State) : Host.Outcome State Fault Refusal := run sahf s
/-- CLC (41_int R287). -/
def execClc (s : State) : Host.Outcome State Fault Refusal := run (modifyFlags (fun f => { f with cf := false })) s
/-- STC (49_int R650). -/
def execStc (s : State) : Host.Outcome State Fault Refusal := run (modifyFlags (fun f => { f with cf := true })) s
/-- CMC (41_int R291). -/
def execCmc (s : State) : Host.Outcome State Fault Refusal := run (modifyFlags (fun f => { f with cf := !f.cf })) s
/-- CLD (41_int R288). -/
def execCld (s : State) : Host.Outcome State Fault Refusal := run (modifyFlags (fun f => { f with df := false })) s
/-- STD (49_int R651). -/
def execStd (s : State) : Host.Outcome State Fault Refusal := run (modifyFlags (fun f => { f with df := true })) s

/-! ## BOUND (40_int R238) -/

/-- BOUND: both bounds are read before the comparison. -/
def boundBody (r : Reg) (m : Rm) : M Unit := do
  let a ← needMem m
  let s ← get
  let sz := s.osz
  let o := s.gpr.eaOff a
  let lo ← readSeg (s.eaSeg a) o sz.bytes sz.bytes
  let hi ← readSeg (s.eaSeg a) (s.wrapA (o + BitVec.ofNat 32 sz.bytes)) sz.bytes sz.bytes
  let i := (s.reg sz r).toInt
  raiseIf (decide (i < (BitVec.ofNat sz.bits lo).toInt) ||
    decide ((BitVec.ofNat sz.bits hi).toInt + Config.boundSlack sz.bytes < i)) .br

/-- BOUND (40_int R238). -/
def execBound (r : Reg) (bnd : Rm) (s : State) : Host.Outcome State Fault Refusal := run (boundBody r bnd) s

end Sys2Proof.Machine
end

