-- ==== Sys2Proof/Machine/Stack.lean ====
section
/-! DEFINITION. Stack instructions (spec 41_int R312, 45_int R481, 48_int R600 to R602, R606 to R608). -/

namespace Sys2Proof.Machine

/-- In real-address mode a PUSH with a stack pointer of 1 shuts the processor down (48_int R606). -/
def pushGuard : M Unit := do
  let s ← get
  if s.real && s.sp == 1 then throw .shutdown else pure ()

/-- Push an operand that has been read. -/
def pushValue (sz : Sz) (v : BitVec sz.bits) : M Unit := do
  pushGuard
  pushSz sz v

/-- PUSH (48_int R606). -/
def pushForm (f : PushForm) : M Unit := do
  let s ← get
  let sz := s.osz
  match f with
  | .rm m => pushValue sz (← readRm sz m)
  | .reg r => pushValue sz (s.reg sz r)
  | .imm (.v i) => pushValue sz (immSz sz i)
  | .imm (.b i) => pushValue sz (sext8 sz i)
  | .sreg r => pushValue sz ((s.seg.get r).sel.setWidth sz.bits)

/-- POP (48_int R600): the stack pointer moves before the destination is addressed. There is no POP CS. -/
def popForm (f : PopForm) : M Unit := do
  let sz := (← get).osz
  match f with
  | .rm m => do let v ← popSz sz; writeRm sz m v
  | .reg r => do let v ← popSz sz; setReg sz r v
  | .sreg r =>
    raiseIf (r == .cs) .ud
    let v ← popSz sz
    loadSegReg r (v.setWidth 16)
    if r = .ss then shadowSs else pure ()

/-- PUSHA, PUSHAD (48_int R607). -/
def pushAllRegs : M Unit := do
  let s ← get
  let sz := s.osz
  let sp := s.sp.toNat
  let small := !s.sas32 && !s.os32
  if small && s.real && (sp == 1 || sp == 3 || sp == 5) then throw .shutdown
  else
    raiseIf (small && !s.prot && (sp == 7 || sp == 9 || sp == 11 || sp == 13 || sp == 15)) (.gp 0)
    pushSz sz (s.reg sz .eax)
    pushSz sz (s.reg sz .ecx)
    pushSz sz (s.reg sz .edx)
    pushSz sz (s.reg sz .ebx)
    pushSz sz (s.reg sz .esp)
    pushSz sz (s.reg sz .ebp)
    pushSz sz (s.reg sz .esi)
    pushSz sz (s.reg sz .edi)

/-- Pop into a register. -/
def popReg (sz : Sz) (r : Reg) : M Unit := do setReg sz r (← popSz sz)

/-- POPA, POPAD (48_int R601): the saved stack pointer is skipped. -/
def popAllRegs : M Unit := do
  let s ← get
  let sz := s.osz
  raiseIf (!s.stackHas (8 * sz.bytes)) (.ss 0)
  popReg sz .edi
  popReg sz .esi
  popReg sz .ebp
  modify (fun s => s.setSp (s.sp + BitVec.ofNat 32 sz.bytes))
  popReg sz .ebx
  popReg sz .edx
  popReg sz .ecx
  popReg sz .eax

/-- PUSHF, PUSHFD (48_int R608). -/
def pushFlags : M Unit := do
  let s ← get
  raiseIf (s.v86 && s.flags.iopl != 3#2) (.gp 0)
  pushValue s.osz ((s.flags.toDword &&& 0x00FCFFFF#32).setWidth s.osz.bits)

/-- The bits POPF may change (48_int R602). -/
def State.popfMask (s : State) : Dword :=
  if s.v86 then (if s.os32 then 0x00244FD5#32 else 0x00004FD5#32)
  else
    let m : Dword :=
      if s.curPl == 0 then (if s.os32 then 0x00257FD5#32 else 0x00007FD5#32)
      else (if s.os32 then 0x00254FD5#32 else 0x00004FD5#32)
    if s.flags.iopl.toNat < s.curPl then m &&& 0xFFFFFDFF#32 else m

/-- POPF, POPFD (48_int R602): POPFD outside virtual-8086 mode loads RF. -/
def popFlags : M Unit := do
  let s ← get
  raiseIf (s.v86 && s.flags.iopl != 3#2) (.gp 0)
  let img : Dword := (← popSz s.osz).setWidth 32
  modifyFlags (fun f => f.merge img s.popfMask)
  loadRf (s.os32 && !s.v86)
  if s.os32 && !s.v86 then modifyFlags (fun f => { f with vif := false, vip := false }) else pure ()

/-- The frame pointer by the stack address size. -/
def State.fp (s : State) : Dword := s.wrapSp s.gpr.ebp

/-- Write the frame pointer by the stack address size. -/
def State.setFp (s : State) (v : Dword) : State :=
  { s with gpr := { s.gpr with ebp := if s.sas32 then v else putLow16 s.gpr.ebp (v.setWidth 16) } }

/-- Copy `k` frame pointers of the enclosing display, below `fp` (41_int R312). -/
def copyDisplay (m : Nat) : Nat → Dword → M Unit
  | 0, _ => pure ()
  | k + 1, fp => do
    let fp := (← get).wrapSp (fp - BitVec.ofNat 32 m)
    pushN m (← readSeg .ss fp m m)
    copyDisplay m k fp

/-- ENTER (41_int R312). -/
def enter (size : Word) (level : Byte) : M Unit := do
  let s ← get
  let m := s.osz.bytes
  let lv := level.toNat % 32
  pushN m s.gpr.ebp.toNat
  let frame := (← get).sp
  if lv = 0 then pure ()
  else
    copyDisplay m (lv - 1) s.fp
    pushN m frame.toNat
  modify (fun s => (s.setFp frame).setSp (s.sp - size.setWidth 32))
  raiseIf (!(← get).stackHas 1) (.ss 0)

/-- LEAVE (45_int R481). -/
def leave : M Unit := do
  let s ← get
  let sz := s.osz
  let v ← readSeg .ss s.fp sz.bytes sz.bytes
  setSp (s.fp + BitVec.ofNat 32 sz.bytes)
  setReg sz .ebp (BitVec.ofNat sz.bits v)

/-- PUSH (48_int R606). -/
def execPush (f : PushForm) (s : State) : Host.Outcome State Fault Refusal := run (pushForm f) s
/-- POP (48_int R600). -/
def execPop (f : PopForm) (s : State) : Host.Outcome State Fault Refusal := run (popForm f) s
/-- PUSHA (48_int R607). -/
def execPusha (s : State) : Host.Outcome State Fault Refusal := run pushAllRegs s
/-- PUSHAD (48_int R607). -/
def execPushad (s : State) : Host.Outcome State Fault Refusal := run pushAllRegs s
/-- POPA (48_int R601). -/
def execPopa (s : State) : Host.Outcome State Fault Refusal := run popAllRegs s
/-- POPAD (48_int R601). -/
def execPopad (s : State) : Host.Outcome State Fault Refusal := run popAllRegs s
/-- PUSHF (48_int R608). -/
def execPushf (s : State) : Host.Outcome State Fault Refusal := run pushFlags s
/-- PUSHFD (48_int R608). -/
def execPushfd (s : State) : Host.Outcome State Fault Refusal := run pushFlags s
/-- POPF (48_int R602). -/
def execPopf (s : State) : Host.Outcome State Fault Refusal := run popFlags s
/-- POPFD (48_int R602). -/
def execPopfd (s : State) : Host.Outcome State Fault Refusal := run popFlags s
/-- ENTER (41_int R312). -/
def execEnter (size : Word) (level : Byte) (s : State) : Host.Outcome State Fault Refusal := run (enter size level) s
/-- LEAVE (45_int R481). -/
def execLeave (s : State) : Host.Outcome State Fault Refusal := run leave s

end Sys2Proof.Machine
end

