-- ==== Sys2Proof/Machine/Control.lean ====
section
/-! DEFINITION. Control transfers: jumps, loops, calls, returns, software interrupts, IRET (spec 41_int R280 to R284,
44_int R446 to R454, 45_int R470 to R476, R487, 48_int R615 to R618). -/

namespace Sys2Proof.Machine

/-! ## Near transfers -/

/-- A near target by the operand size (45_int R470). -/
def State.nearTarget (s : State) (t : Dword) : Dword := if s.os32 then t else (t.extractLsb' 0 16).setWidth 32

/-- Go to a near target that passes the limit check. -/
def nearJump (t : Dword) : M Unit := do
  let s ← get
  raiseIf (!s.seg.cs.codeOk (s.nearTarget t)) (.gp 0)
  setNpc (s.nearTarget t)

/-- The target of a relative byte. -/
def State.rel8 (s : State) (d : Byte) : Dword := s.npc + d.signExtend 32

/-- The target of a relative offset of operand size. -/
def State.relV (s : State) (d : Dword) : Dword :=
  s.npc + if s.os32 then d else (d.extractLsb' 0 16).signExtend 32

/-- Jcc (45_int R470). -/
def jcc (c : Cond) (t : JForm) : M Unit := do
  let s ← get
  if s.flags.cond c then
    match t with
    | .short d => nearJump (s.rel8 d)
    | .near d => nearJump (s.relV d)
  else pure ()
/-- JO (45_int R470). -/
def execJo (t : JForm) (s : State) : Host.Outcome State Fault Refusal := run (jcc .o t) s
/-- JNO (45_int R470). -/
def execJno (t : JForm) (s : State) : Host.Outcome State Fault Refusal := run (jcc .no t) s
/-- JB (45_int R470). -/
def execJb (t : JForm) (s : State) : Host.Outcome State Fault Refusal := run (jcc .b t) s
/-- JAE (45_int R470). -/
def execJae (t : JForm) (s : State) : Host.Outcome State Fault Refusal := run (jcc .ae t) s
/-- JE (45_int R470). -/
def execJe (t : JForm) (s : State) : Host.Outcome State Fault Refusal := run (jcc .e t) s
/-- JNE (45_int R470). -/
def execJne (t : JForm) (s : State) : Host.Outcome State Fault Refusal := run (jcc .ne t) s
/-- JBE (45_int R470). -/
def execJbe (t : JForm) (s : State) : Host.Outcome State Fault Refusal := run (jcc .be t) s
/-- JA (45_int R470). -/
def execJa (t : JForm) (s : State) : Host.Outcome State Fault Refusal := run (jcc .a t) s
/-- JS (45_int R470). -/
def execJs (t : JForm) (s : State) : Host.Outcome State Fault Refusal := run (jcc .s t) s
/-- JNS (45_int R470). -/
def execJns (t : JForm) (s : State) : Host.Outcome State Fault Refusal := run (jcc .ns t) s
/-- JP (45_int R470). -/
def execJp (t : JForm) (s : State) : Host.Outcome State Fault Refusal := run (jcc .p t) s
/-- JNP (45_int R470). -/
def execJnp (t : JForm) (s : State) : Host.Outcome State Fault Refusal := run (jcc .np t) s
/-- JL (45_int R470). -/
def execJl (t : JForm) (s : State) : Host.Outcome State Fault Refusal := run (jcc .l t) s
/-- JGE (45_int R470). -/
def execJge (t : JForm) (s : State) : Host.Outcome State Fault Refusal := run (jcc .ge t) s
/-- JLE (45_int R470). -/
def execJle (t : JForm) (s : State) : Host.Outcome State Fault Refusal := run (jcc .le t) s
/-- JG (45_int R470). -/
def execJg (t : JForm) (s : State) : Host.Outcome State Fault Refusal := run (jcc .g t) s

/-- JCXZ, JECXZ: the count register by the address size (45_int R470). -/
def jcxz (d : Byte) : M Unit := do
  let s ← get
  if s.regA .ecx = 0 then nearJump (s.rel8 d) else pure ()

/-- JCXZ (45_int R470). -/
def execJcxz (rel : Byte) (s : State) : Host.Outcome State Fault Refusal := run (jcxz rel) s
/-- JECXZ (45_int R470). -/
def execJecxz (rel : Byte) (s : State) : Host.Outcome State Fault Refusal := run (jcxz rel) s

/-- LOOP, LOOPE, LOOPNE: `ok` is the condition on the flags (45_int R487). -/
def loopBody (ok : Flags → Bool) (d : Byte) : M Unit := do
  modify (fun s => s.setRegA .ecx (s.regA .ecx - 1))
  let s ← get
  if s.regA .ecx != 0 && ok s.flags then nearJump (s.rel8 d) else pure ()

/-- LOOP (45_int R487). -/
def execLoop (rel : Byte) (s : State) : Host.Outcome State Fault Refusal := run (loopBody (fun _ => true) rel) s
/-- LOOPE (45_int R487). -/
def execLoope (rel : Byte) (s : State) : Host.Outcome State Fault Refusal := run (loopBody (·.zf) rel) s
/-- LOOPNE (45_int R487). -/
def execLoopne (rel : Byte) (s : State) : Host.Outcome State Fault Refusal := run (loopBody (fun f => !f.zf) rel) s

/-- Push the return address and go to a near target (41_int R280). -/
def callNear (t : Dword) : M Unit := do
  let s ← get
  raiseIf (!s.seg.cs.codeOk (s.nearTarget t)) (.gp 0)
  raiseIf (!s.stackRoom s.osz.bytes) (.ss 0)
  pushN s.osz.bytes s.npc.toNat
  setNpc (s.nearTarget t)

/-- A near target in a register or memory, of operand size. -/
def readTarget (m : Rm) : M Dword := do
  let sz := (← get).osz
  return (← readRm sz m).setWidth 32

/-- RET near (48_int R615). -/
def retNear (src : Word) : M Unit := do
  let s ← get
  let t := BitVec.ofNat 32 (← popN s.osz.bytes)
  raiseIf (!s.seg.cs.codeOk t) (.gp 0)
  setNpc t
  modify (fun s => s.setSp (s.sp + src.setWidth 32))

/-! ## Far transfers through descriptors -/

/-- The checks on the code segment of a direct far transfer (41_int R282, 45_int R473). -/
def checkDirect (sel : Word) (d : Desc) : M Unit := do
  let cpl := (← get).curPl
  if d.conf then raiseIf (decide (cpl < d.dpl)) (.gp sel)
  else raiseIf (decide (cpl < rpl sel) || d.dpl != cpl) (.gp sel)
  raiseIf (!d.p) (.np sel)

/-- The checks on a gate or TSS that a far transfer names: DPL and presence. -/
def checkGate (sel : Word) (d : Desc) : M Unit := do
  raiseIf (decide (d.dpl < (← get).curPl) || decide (d.dpl < rpl sel)) (.gp sel)
  raiseIf (!d.p) (.np sel)

/-- The selector and offset of a call gate: a 16-bit gate has a 16-bit offset. -/
def Desc.gate (d : Desc) : Gate := .ofDesc d.raw

/-- The code segment a call gate names, where `ok` says which privilege levels it may have. -/
def gateTarget (g : Gate) (ok : Desc → Bool) : M Desc := do
  raiseIf (isNull g.sel) (.gp 0)
  let c ← needDescOf g.sel (fun c => c.isCode && ok c) (.gp g.sel)
  raiseIf (!c.p) (.np g.sel)
  return c

/-- Switch to the available TSS of a task gate (41_int R284, 45_int R475); a null selector names none (20_memory R137). -/
def taskGate (g : Gate) (kind : SwitchKind) : M Unit := do
  let s ← get
  raiseIf (isNull g.sel || selTi g.sel) (.gp g.sel)
  let x ← needDescOf g.sel Desc.availTss (.gp g.sel)
  raiseIf (!x.p) (.np g.sel)
  let trap ← switchTasks g.sel x kind s.npc s.flags.toDword
  afterSwitch trap

/-- Switch to a TSS that a far pointer names; JMP refuses a local selector (41_int R284, 45_int R476). -/
def taskState (sel : Word) (x : Desc) (kind : SwitchKind) : M Unit := do
  let s ← get
  raiseIf (decide (x.dpl < s.curPl) || decide (x.dpl < rpl sel) || !x.availTss || (decide (kind = .jmp) && selTi sel))
    (.gp sel)
  raiseIf (!x.p) (.np sel)
  let trap ← switchTasks sel x kind s.npc s.flags.toDword
  afterSwitch trap

/-- Read `k` parameters of `m` bytes from the caller's stack (41_int R283). -/
def readParams (m : Nat) : Nat → Dword → M (List Nat)
  | 0, _ => pure []
  | k + 1, o => do
    let s ← get
    let v ← readSeg .ss (s.wrapSp o) m m
    let rest ← readParams m k (o + BitVec.ofNat 32 m)
    return v :: rest

/-- CALL through a call gate (41_int R283): SS:ESP and CS:EIP are loaded before the pushes, which on an inner stack are made
at the new level. DESIGN CHOICE, log 57. -/
def callGate (sel : Word) (gd : Desc) : M Unit := do
  checkGate sel gd
  let g := gd.gate
  let s ← get
  let c ← gateTarget g (fun c => decide (c.dpl ≤ s.curPl))
  let m := if g.is32 then 4 else 2
  if !c.conf && decide (c.dpl < s.curPl) then
    let (nss, nesp, sd) ← innerStack c.dpl false
    raiseIf (!(sd.seg nss).roomBelow nesp (g.count * m + 4 * m)) (.ss nss)
    raiseIf (!(c.seg g.sel).codeOk g.off) (.gp 0)
    let params ← readParams m g.count s.sp
    loadStack nss nesp sd
    loadCs g.sel c c.dpl
    pushAll m ([s.seg.ss.sel.toNat, s.gpr.esp.toNat] ++ params.reverse ++ [s.seg.cs.sel.toNat, s.npc.toNat])
  else
    raiseIf (!s.stackRoom (2 * m)) (.ss 0)
    raiseIf (!(c.seg g.sel).codeOk g.off) (.gp 0)
    loadCs g.sel c s.curPl
    pushAll m [s.seg.cs.sel.toNat, s.npc.toNat]
  setNpc g.off

/-- JMP through a call gate (45_int R474). -/
def jmpGate (sel : Word) (gd : Desc) : M Unit := do
  checkGate sel gd
  let g := gd.gate
  let cpl := (← get).curPl
  let c ← gateTarget g (fun c => if c.conf then decide (c.dpl ≤ cpl) else c.dpl == cpl)
  raiseIf (!(c.seg g.sel).codeOk g.off) (.gp 0)
  loadCs g.sel c cpl
  setNpc g.off

/-- What a far pointer's descriptor is (41_int R282). -/
inductive FarKind | code | callGate | taskGate | tss | other
deriving DecidableEq, Repr

/-- Classify a descriptor (20_memory R131). -/
def Desc.farKind (d : Desc) : FarKind :=
  if d.isCode then .code
  else if d.s then .other
  else if d.typ == 4 || d.typ == 12 then .callGate
  else if d.typ == 5 then .taskGate
  else if d.isTss then .tss
  else .other

/-- CALL far in protected mode (41_int R282 to R284). -/
def callProt (sel : Word) (off : Dword) : M Unit := do
  raiseIf (isNull sel) (.gp 0)
  let d ← needDesc sel (.gp sel)
  match d.farKind with
  | .code =>
    checkDirect sel d
    let s ← get
    let n := s.osz.bytes
    raiseIf (!s.stackRoom (2 * n)) (.ss 0)
    raiseIf (!(d.seg sel).codeOk (s.nearTarget off)) (.gp 0)
    pushAll n [s.seg.cs.sel.toNat, s.npc.toNat]
    loadCs sel d s.curPl
    setNpc (s.nearTarget off)
  | .callGate => callGate sel d
  | .taskGate => do checkGate sel d; taskGate d.gate .call
  | .tss => taskState sel d .call
  | .other => raise (.gp sel)

/-- JMP far in protected mode (45_int R473 to R476). -/
def jmpProt (sel : Word) (off : Dword) : M Unit := do
  raiseIf (isNull sel) (.gp 0)
  let d ← needDesc sel (.gp sel)
  match d.farKind with
  | .code =>
    checkDirect sel d
    let s ← get
    raiseIf (!(d.seg sel).codeOk (s.nearTarget off)) (.gp 0)
    loadCs sel d s.curPl
    setNpc (s.nearTarget off)
  | .callGate => jmpGate sel d
  | .taskGate => do checkGate sel d; taskGate d.gate .jmp
  | .tss => taskState sel d .jmp
  | .other => raise (.gp sel)

/-- Where a far pointer is. -/
inductive FarSrc
  | imm (sel : Word) (off : Dword)
  | mem (a : Ea)
deriving DecidableEq, Repr

/-- Read a far pointer of operand size. -/
def FarSrc.read (f : FarSrc) : M (Word × Dword) := do
  match f with
  | .imm sel off => return (sel, off)
  | .mem a => readFar a (← get).osz.bytes

/-- CALL far in real-address or virtual-8086 mode (41_int R281). The limit tested is the one CS then holds, which is not FFFFH
where protected mode has left another. DESIGN CHOICE, log 27. -/
def callReal (f : FarSrc) : M Unit := do
  let s ← get
  raiseIf (!s.stackRoom (if s.os32 then 6 else 4)) (.ss 0)
  let (sel, off) ← f.read
  raiseIf (!s.seg.cs.codeOk (s.nearTarget off)) (.gp 0)
  pushAll s.osz.bytes [s.seg.cs.sel.toNat, s.npc.toNat]
  load86 .cs sel
  setNpc (s.nearTarget off)

/-- CALL far (41_int R281 to R284). -/
def callFar (f : FarSrc) : M Unit := do
  if (← get).prot then
    let (sel, off) ← f.read
    callProt sel off
  else callReal f

/-- JMP far (45_int R472 to R476); the limit in real-address and virtual-8086 mode is as in `callReal`. DESIGN CHOICE, log
27. -/
def jmpFar (f : FarSrc) : M Unit := do
  let (sel, off) ← f.read
  let s ← get
  if s.prot then jmpProt sel off
  else
    raiseIf (!s.seg.cs.codeOk (s.nearTarget off)) (.gp 0)
    load86 .cs sel
    setNpc (s.nearTarget off)

/-- CALL in all its forms. -/
def callForm (f : CallForm) : M Unit := do
  match f with
  | .rel d => callNear ((← get).relV d)
  | .rm m => callNear (← readTarget m)
  | .ptr sel off => callFar (.imm sel off)
  | .mfar m => callFar (.mem (← needMem m))

/-- JMP in all its forms (45_int R471 to R476). -/
def jmpForm (f : JmpForm) : M Unit := do
  match f with
  | .short d => nearJump ((← get).rel8 d)
  | .rel d => nearJump ((← get).relV d)
  | .rm m => nearJump (← readTarget m)
  | .ptr sel off => jmpFar (.imm sel off)
  | .mfar m => jmpFar (.mem (← needMem m))

/-- RET far in real-address or virtual-8086 mode (48_int R616). -/
def retReal (src : Word) : M Unit := do
  let s ← get
  let n := s.osz.bytes
  raiseIf (!s.stackHas (2 * n)) (.ss 0)
  let ip := BitVec.ofNat 32 (← popN n)
  let cs := BitVec.ofNat 16 (← popN n)
  raiseIf (!s.seg.cs.codeOk ip) (.gp 0)
  return86 cs
  setNpc ip
  modify (fun s => s.setSp (s.sp + src.setWidth 32))

/-- RET far in protected mode (48_int R617, R618). -/
def retProt (src : Word) : M Unit := do
  let s ← get
  let n := s.osz.bytes
  raiseIf (!s.stackHas (2 * n)) (.ss 0)
  let ip := BitVec.ofNat 32 (← popN n)
  let cs := BitVec.ofNat 16 (← popN n)
  let d ← returnDesc cs
  if s.curPl < rpl cs then
    raiseIf (!s.stackHas (4 * n + src.toNat)) (.ss 0)
    modify (fun s => s.setSp (s.sp + src.setWidth 32))
    let esp := BitVec.ofNat 32 (← popN n)
    let ss : Word := BitVec.ofNat 16 (← popN n)
    let sd ← returnStack ss cs
    raiseIf (!(d.seg cs).codeOk ip) (.gp 0)
    setNpc ip
    loadCs cs d (rpl cs)
    setOuterStack s.os32 ss sd s.gpr.esp esp
    cleanSegs (rpl cs)
  else
    raiseIf (!(d.seg cs).codeOk ip) (.gp 0)
    setNpc ip
    loadCs cs d (rpl cs)
  modify (fun s => s.setSp (s.sp + src.setWidth 32))

/-- RET in all its forms. -/
def retForm (f : RetForm) : M Unit := do
  match f with
  | .near i => retNear (i.getD 0)
  | .far i => if (← get).prot then retProt (i.getD 0) else retReal (i.getD 0)

/-- CALL (41_int R280 to R284). -/
def execCall (f : CallForm) (s : State) : Host.Outcome State Fault Refusal := run (callForm f) s
/-- JMP (45_int R471 to R476). -/
def execJmp (f : JmpForm) (s : State) : Host.Outcome State Fault Refusal := run (jmpForm f) s
/-- RET (48_int R615 to R618). -/
def execRet (f : RetForm) (s : State) : Host.Outcome State Fault Refusal := run (retForm f) s

/-! ## Software interrupts and IRET -/

/-- A software interrupt (44_int R446): it ends the instruction, and `finish` delivers it. -/
def softInt (v : Byte) : M Unit := throw (.software v)

/-- INT n: IOPL-sensitive in virtual-8086 mode. -/
def intBody (n : Byte) : M Unit := do
  let s ← get
  raiseIf (s.v86 && s.flags.iopl != 3#2) (.gp 0)
  softInt n

/-- INTO: nothing where OF = 0. -/
def intoBody : M Unit := do if (← get).flags.of_ then softInt 4 else pure ()

/-- INT 3 (44_int R446). -/
def execInt3 (s : State) : Host.Outcome State Fault Refusal := run (softInt 3) s
/-- INT n (44_int R446). -/
def execIntN (n : Byte) (s : State) : Host.Outcome State Fault Refusal := run (intBody n) s
/-- INTO (44_int R446). -/
def execInto (s : State) : Host.Outcome State Fault Refusal := run intoBody s
/-- IRET (44_int R449 to R454). -/
def execIret (s : State) : Host.Outcome State Fault Refusal := run iret s
/-- IRETD (44_int R449 to R454). -/
def execIretd (s : State) : Host.Outcome State Fault Refusal := run iret s

end Sys2Proof.Machine
end

