-- ==== Sys2Proof/Machine/FpuNum.lean ====
section
/-! DEFINITION. Floating-point numbers: the classes and encodings of the formats (spec 10_state R75, R76; 42_fpu R334),
exact values, and rounding (42_fpu R331, R332). Arithmetic is exact on integers and is narrowed here only. -/

namespace Sys2Proof.Machine

/-! ## Extended reals (10_state R75) -/

/-- The sign bit. -/
def extNeg (v : Ext) : Bool := v.getLsbD 79
/-- The biased exponent. -/
def extExp (v : Ext) : Nat := (v.extractLsb' 64 15).toNat
/-- The significand, with its integer bit. -/
def extSig (v : Ext) : Nat := (v.extractLsb' 0 64).toNat

/-- An extended real from its fields. -/
def mkExt (neg : Bool) (e sig : Nat) : Ext := BitVec.ofBool neg ++ BitVec.ofNat 15 e ++ BitVec.ofNat 64 sig

/-- A zero. -/
def extZero (neg : Bool) : Ext := mkExt neg 0 0
/-- An infinity. -/
def extInf (neg : Bool) : Ext := mkExt neg 0x7FFF 0x8000000000000000
/-- One. -/
def extOne (neg : Bool) : Ext := mkExt neg 0x3FFF 0x8000000000000000
/-- The real indefinite (42_fpu R334). -/
def extIndef : Ext := mkExt true 0x7FFF 0xC000000000000000
/-- A NaN made quiet (42_fpu R334). -/
def extQuiet (v : Ext) : Ext := v ||| BitVec.ofNat 80 (2 ^ 62)
/-- The value with its sign bit replaced. -/
def extWithSign (neg : Bool) (v : Ext) : Ext := BitVec.ofBool neg ++ v.extractLsb' 0 79

/-- The classes of a register's content (10_state R76). -/
inductive FClass | zero | denormal | normal | inf | snan | qnan | unsupported
deriving DecidableEq, Repr

/-- The class of an extended real; a pseudo-denormal counts as a denormal (42_fpu R334). -/
def fclass (v : Ext) : FClass :=
  if extExp v = 0 then (if extSig v = 0 then .zero else .denormal)
  else if !v.getLsbD 63 then .unsupported
  else if extExp v = 0x7FFF then
    if v.extractLsb' 0 63 = 0 then .inf else if v.getLsbD 62 then .qnan else .snan
  else .normal

/-- A NaN, quiet or signalling. -/
def FClass.isNan (c : FClass) : Bool := decide (c = .snan) || decide (c = .qnan)
/-- An SNaN or an unsupported format: every arithmetic use is invalid (42_fpu R334). -/
def FClass.isBad (c : FClass) : Bool := decide (c = .snan) || decide (c = .unsupported)
/-- A finite number. -/
def FClass.isFinite (c : FClass) : Bool := decide (c = .zero) || decide (c = .denormal) || decide (c = .normal)

/-! ## Exact values -/

/-- The number `±mant * 2 ^ exp`. -/
structure FpNum where
  neg : Bool
  mant : Nat
  exp : Int
deriving DecidableEq, Repr

/-- The value of a finite extended real. -/
def numOf (v : Ext) : FpNum := { neg := extNeg v, mant := extSig v, exp := Int.ofNat (max (extExp v) 1) - 16446 }

/-- The power of two just below a number that is not 0. -/
def FpNum.top (n : FpNum) : Int := Int.ofNat n.mant.log2 + n.exp

/-- The number as a multiple of `2 ^ e`, where `e` is at most its exponent. -/
def FpNum.scaled (n : FpNum) (e : Int) : Int :=
  let m := Int.ofNat (n.mant * 2 ^ (n.exp - e).toNat)
  if n.neg then -m else m

/-- The sum; its sign is that of the exact sum, and `z` for a sum of 0. -/
def FpNum.add (a b : FpNum) (z : Bool) : FpNum :=
  let e := min a.exp b.exp
  let r := a.scaled e + b.scaled e
  { neg := if r = 0 then z else decide (r < 0), mant := r.natAbs, exp := e }

/-- The product. -/
def FpNum.mul (a b : FpNum) : FpNum := { neg := a.neg != b.neg, mant := a.mant * b.mant, exp := a.exp + b.exp }

/-- The quotient, to more than 66 bits, the lowest of which says whether it is inexact; it rounds as the exact
quotient does. -/
def FpNum.div (a b : FpNum) : FpNum :=
  let n := a.mant * 2 ^ 130
  { neg := a.neg != b.neg, mant := 2 * (n / b.mant) + (if n % b.mant = 0 then 0 else 1), exp := a.exp - b.exp - 131 }

/-- Bits of an integer square root, from bit `k - 1` down. -/
def sqrtFrom (n : Nat) : Nat → Nat → Nat
  | 0, r => r
  | k + 1, r => sqrtFrom n k (if (r + 2 ^ k) * (r + 2 ^ k) ≤ n then r + 2 ^ k else r)

/-- The square root of a positive number, to more than 66 bits, the lowest of which says whether it is inexact. -/
def FpNum.sqrt (a : FpNum) : FpNum :=
  let k0 := 140 - a.mant.log2
  let k := if (a.exp - Int.ofNat k0) % 2 = 0 then k0 else k0 + 1
  let n := a.mant * 2 ^ k
  let r := sqrtFrom n (n.log2 / 2 + 1) 0
  { neg := false, mant := 2 * r + (if r * r = n then 0 else 1), exp := (a.exp - Int.ofNat k) / 2 - 1 }

/-- How two numbers compare. -/
inductive FRel | gt | lt | eq | unordered
deriving DecidableEq, Repr

/-- The order of two numbers; the sign of zero is ignored (42_fpu R343). -/
def FpNum.rel (a b : FpNum) : FRel :=
  let e := min a.exp b.exp
  let x := a.scaled e
  let y := b.scaled e
  if x = y then .eq else if x < y then .lt else .gt

/-- The order of two extended reals that are not NaNs; infinities are ordered (42_fpu R343). -/
def extRel (x y : Ext) : FRel :=
  match decide (fclass x = .inf), decide (fclass y = .inf) with
  | true, true => if extNeg x = extNeg y then .eq else if extNeg x then .lt else .gt
  | true, false => if extNeg x then .lt else .gt
  | false, true => if extNeg y then .gt else .lt
  | false, false => (numOf x).rel (numOf y)

/-! ## Rounding (42_fpu R332) -/

/-- Whether the magnitude is rounded up: `rem` of `unit` is cut off, the rest being odd or not. -/
def roundsUp (rc : BitVec 2) (neg odd : Bool) (rem unit : Nat) : Bool :=
  match rc.toNat with
  | 0 => decide (unit < 2 * rem) || (decide (2 * rem = unit) && odd)
  | 1 => neg && decide (rem ≠ 0)
  | 2 => !neg && decide (rem ≠ 0)
  | _ => false

/-- A rounded number `mant * 2 ^ exp`. -/
structure Rounded where
  mant : Nat
  exp : Int
  inexact : Bool
  up : Bool
deriving DecidableEq, Repr

/-- Round a number to a multiple of `2 ^ ulp`. -/
def FpNum.roundAt (n : FpNum) (rc : BitVec 2) (ulp : Int) : Rounded :=
  if ulp ≤ n.exp then { mant := n.mant * 2 ^ (n.exp - ulp).toNat, exp := ulp, inexact := false, up := false }
  else
    let k := (ulp - n.exp).toNat
    let q := n.mant / 2 ^ k
    let r := n.mant % 2 ^ k
    let up := roundsUp rc n.neg (q % 2 == 1) r (2 ^ k)
    { mant := if up then q + 1 else q, exp := ulp, inexact := decide (r ≠ 0), up := up }

/-- The power of two just below a rounded number that is not 0. -/
def Rounded.top (r : Rounded) : Int := Int.ofNat r.mant.log2 + r.exp

/-- `m` with its highest bit moved to place `p`. -/
def alignTop (m p : Nat) : Nat := if m.log2 ≤ p then m * 2 ^ (p - m.log2) else m / 2 ^ (m.log2 - p)

/-- An extended real whose value is `±mant * 2 ^ exp`, which must be one. -/
def packExt (neg : Bool) (mant : Nat) (exp : Int) : Ext :=
  if mant = 0 then extZero neg
  else
    let e := Int.ofNat mant.log2 + exp + 16383
    if 1 ≤ e then mkExt neg e.toNat (alignTop mant 63) else mkExt neg 0 (mant * 2 ^ (exp + 16445).toNat)

/-- An integer as an extended real. -/
def intExt (i : Int) : Ext := packExt (decide (i < 0)) i.natAbs 0

/-- Overflow under masked #O gives infinity, else the largest finite number (42_fpu R331). -/
def overflowsToInf (rc : BitVec 2) (neg : Bool) : Bool :=
  match rc.toNat with
  | 0 => true
  | 1 => neg
  | 2 => !neg
  | _ => false

/-- A result with the exceptions its rounding raises and C1. -/
structure FRes where
  val : Ext
  o : Bool
  u : Bool
  p : Bool
  c1 : Bool
deriving DecidableEq, Repr

/-- The largest finite number of `prec` bits. -/
def extMax (neg : Bool) (prec : Nat) : Ext := mkExt neg 0x7FFE ((2 ^ prec - 1) * 2 ^ (64 - prec))

/-- `packExt` of a result whose exponent has been biased; what is still out of range becomes infinity or zero. -/
def packBiased (neg : Bool) (mant : Nat) (exp : Int) : Ext :=
  let e := Int.ofNat mant.log2 + exp
  if 16383 < e then extInf neg else if e < -16382 then extZero neg else packExt neg mant exp

/-- Round a number that is not 0 to an extended real of `prec` bits; `om` and `um` say whether #O and #U are masked
(42_fpu R331, R332). -/
def FpNum.toExt (n : FpNum) (prec : Nat) (rc : BitVec 2) (om um : Bool) : FRes :=
  let r := n.roundAt rc (n.top - Int.ofNat (prec - 1))
  if 16383 < r.top then
    if om then
      let i := overflowsToInf rc n.neg
      { val := if i then extInf n.neg else extMax n.neg prec, o := true, u := false, p := true, c1 := i }
    else { val := packBiased n.neg r.mant (r.exp - 24576), o := true, u := false, p := r.inexact, c1 := r.up }
  else if r.top < -16382 then
    if um then
      let d := n.roundAt rc (-16382 - Int.ofNat (prec - 1))
      { val := packExt n.neg d.mant d.exp, o := false, u := d.inexact, p := d.inexact, c1 := d.up }
    else { val := packBiased n.neg r.mant (r.exp + 24576), o := false, u := true, p := r.inexact, c1 := r.up }
  else { val := packExt n.neg r.mant r.exp, o := false, u := false, p := r.inexact, c1 := r.up }

/-! ## Single and double reals (10_state R75) -/

/-- A memory format: exponent and fraction bits. -/
structure RealFmt where
  ebits : Nat
  fbits : Nat
deriving DecidableEq, Repr

/-- Single-real. -/
def RealFmt.single : RealFmt := { ebits := 8, fbits := 23 }
/-- Double-real. -/
def RealFmt.double : RealFmt := { ebits := 11, fbits := 52 }
/-- The size in bytes. -/
def RealFmt.bytes (f : RealFmt) : Nat := (1 + f.ebits + f.fbits) / 8
/-- The exponent bias. -/
def RealFmt.bias (f : RealFmt) : Nat := 2 ^ (f.ebits - 1) - 1
/-- A number of the format from its fields. -/
def RealFmt.pack (f : RealFmt) (neg : Bool) (e frac : Nat) : Nat :=
  (if neg then 2 ^ (f.ebits + f.fbits) else 0) + e * 2 ^ f.fbits + frac % 2 ^ f.fbits
/-- The sign, exponent and fraction of a number of the format. -/
def RealFmt.fields (f : RealFmt) (v : Nat) : Bool × Nat × Nat :=
  (v.testBit (f.ebits + f.fbits), v / 2 ^ f.fbits % 2 ^ f.ebits, v % 2 ^ f.fbits)

/-- A number of the format as an extended real, exactly; a NaN keeps its payload and stays signalling (42_fpu R355). -/
def RealFmt.toExt (f : RealFmt) (v : Nat) : Ext :=
  let (neg, e, frac) := f.fields v
  let sig := 2 ^ 63 + frac * 2 ^ (63 - f.fbits)
  if e = 2 ^ f.ebits - 1 then mkExt neg 0x7FFF sig
  else if e = 0 then packExt neg frac (1 - Int.ofNat f.bias - Int.ofNat f.fbits)
  else mkExt neg (e + 16383 - f.bias) sig

/-- The number of the format is a denormal. -/
def RealFmt.isDenormal (f : RealFmt) (v : Nat) : Bool :=
  let (_, e, frac) := f.fields v
  decide (e = 0) && decide (frac ≠ 0)

/-- An infinity of the format. -/
def RealFmt.inf (f : RealFmt) (neg : Bool) : Nat := f.pack neg (2 ^ f.ebits - 1) 0
/-- The real indefinite of the format (42_fpu R334). -/
def RealFmt.indef (f : RealFmt) : Nat := f.pack true (2 ^ f.ebits - 1) (2 ^ (f.fbits - 1))
/-- A NaN cut to the format, quiet (43_fpu R393). -/
def RealFmt.nan (f : RealFmt) (v : Ext) : Nat :=
  f.pack (extNeg v) (2 ^ f.ebits - 1) (extSig (extQuiet v) / 2 ^ (63 - f.fbits))

/-- What rounding to a memory format gives. -/
structure StoreRes where
  bits : Nat
  o : Bool
  u : Bool
  p : Bool
  c1 : Bool
deriving DecidableEq, Repr

/-- A number `±mant * 2 ^ exp` of the format, which must be one. -/
def RealFmt.packNum (f : RealFmt) (neg : Bool) (mant : Nat) (exp : Int) : Nat :=
  let e := Int.ofNat mant.log2 + exp + Int.ofNat f.bias
  if mant = 0 then f.pack neg 0 0
  else if 1 ≤ e then f.pack neg e.toNat (alignTop mant f.fbits)
  else f.pack neg 0 (mant * 2 ^ (exp + Int.ofNat f.bias - 1 + Int.ofNat f.fbits).toNat)

/-- Round a number that is not 0 to a memory format (43_fpu R393): `o` and `u` say that it is too large or tiny; the
bits are those stored when the exception is masked. -/
def RealFmt.round (f : RealFmt) (n : FpNum) (rc : BitVec 2) (um : Bool) : StoreRes :=
  let emax : Int := Int.ofNat f.bias
  let emin : Int := 1 - Int.ofNat f.bias
  let r := n.roundAt rc (n.top - Int.ofNat f.fbits)
  if emax < r.top then
    let i := overflowsToInf rc n.neg
    { bits := if i then f.inf n.neg else f.pack n.neg (2 ^ f.ebits - 2) (2 ^ f.fbits - 1)
      o := true, u := false, p := true, c1 := i }
  else if r.top < emin then
    let d := n.roundAt rc (emin - Int.ofNat f.fbits)
    { bits := f.packNum n.neg d.mant d.exp, o := false, u := d.inexact || !um, p := d.inexact, c1 := d.up }
  else { bits := f.packNum n.neg r.mant r.exp, o := false, u := false, p := r.inexact, c1 := r.up }

/-! ## Packed BCD (42_fpu R338, R339) -/

/-- The value of `k` BCD digits, the lowest first, or none where a digit is above 9. -/
def bcdValue : Nat → Nat → Option Nat
  | 0, _ => some 0
  | k + 1, v => if 9 < v % 16 then none else (bcdValue k (v / 16)).map (fun r => v % 16 + 10 * r)

/-- The `k` low decimal digits of a number as BCD. -/
def toBcd : Nat → Nat → Nat
  | 0, _ => 0
  | k + 1, v => v % 10 + 16 * toBcd k (v / 10)

end Sys2Proof.Machine
end

