-- ==== Sys2Proof/Machine/Fpu.lean ====
section
/-! DEFINITION. The FPU register stack, exceptions, pointers and entry checks (spec 10_state R70 to R74, 42_fpu R330 to
R334, 60_exceptions R709). -/

namespace Sys2Proof.Machine

/-! ## Registers and tags (10_state R70, R71) -/

/-- A three-bit field as a number. -/
def idxNat : Idx8 → Nat
  | .i0 => 0 | .i1 => 1 | .i2 => 2 | .i3 => 3 | .i4 => 4 | .i5 => 5 | .i6 => 6 | .i7 => 7

/-- A physical data register. -/
def Fpu.reg (f : Fpu) (n : BitVec 3) : Ext :=
  match n.toNat with
  | 0 => f.r0 | 1 => f.r1 | 2 => f.r2 | 3 => f.r3 | 4 => f.r4 | 5 => f.r5 | 6 => f.r6 | _ => f.r7

/-- Write a physical data register. -/
def Fpu.setReg (f : Fpu) (n : BitVec 3) (v : Ext) : Fpu :=
  match n.toNat with
  | 0 => { f with r0 := v } | 1 => { f with r1 := v } | 2 => { f with r2 := v } | 3 => { f with r3 := v }
  | 4 => { f with r4 := v } | 5 => { f with r5 := v } | 6 => { f with r6 := v } | _ => { f with r7 := v }

/-- The physical register of ST(i). -/
def Fpu.phys (f : Fpu) (i : Nat) : BitVec 3 := f.sw.top + BitVec.ofNat 3 i
/-- ST(i). -/
def Fpu.st (f : Fpu) (i : Nat) : Ext := f.reg (f.phys i)
/-- The tag of a physical register. -/
def Fpu.tag (f : Fpu) (n : BitVec 3) : BitVec 2 := f.tags.extractLsb' (2 * n.toNat) 2
/-- Write the tag of a physical register. -/
def Fpu.setTag (f : Fpu) (n : BitVec 3) (t : BitVec 2) : Fpu :=
  let k := 2 * n.toNat
  { f with tags := (f.tags &&& ~~~(3#16 <<< k)) ||| (t.setWidth 16 <<< k) }
/-- ST(i) is empty. -/
def Fpu.isEmpty (f : Fpu) (i : Nat) : Bool := f.tag (f.phys i) == 3#2

/-- The tag of a content: valid, zero or special (R71). -/
def tagOf (v : Ext) : BitVec 2 :=
  match fclass v with
  | .normal => 0#2
  | .zero => 1#2
  | .denormal | .inf | .snan | .qnan | .unsupported => 2#2

/-- Write ST(i) and its tag. -/
def Fpu.setSt (f : Fpu) (i : Nat) (v : Ext) : Fpu := (f.setReg (f.phys i) v).setTag (f.phys i) (tagOf v)

/-- Set TOP. -/
def Fpu.setTop (f : Fpu) (t : BitVec 3) : Fpu := { f with sw := { f.sw with top := t } }

/-- FpuPop (42_fpu R330). -/
def Fpu.pop (f : Fpu) : Fpu := (f.setTag (f.phys 0) 3#2).setTop (f.sw.top + 1)

/-- Change the FPU. -/
def modifyFpu (g : Fpu → Fpu) : M Unit := modify (fun s => { s with fpu := g s.fpu })
/-- ST(i). -/
def getSt (i : Nat) : M Ext := return (← get).fpu.st i
/-- Write ST(i). -/
def setSt (i : Nat) (v : Ext) : M Unit := modifyFpu (·.setSt i v)
/-- FpuPop where `p` holds. -/
def popIf (p : Bool) : M Unit := if p then modifyFpu Fpu.pop else pure ()

/-! ## Status and control words (10_state R72, R73) -/

/-- The status word; B mirrors ES. -/
def FpuStatus.toWord (w : FpuStatus) : Word :=
  bitAt 16 0 w.ie ||| bitAt 16 1 w.de ||| bitAt 16 2 w.ze ||| bitAt 16 3 w.oe ||| bitAt 16 4 w.ue |||
  bitAt 16 5 w.pe ||| bitAt 16 6 w.sf ||| bitAt 16 7 w.es ||| bitAt 16 8 w.c0 ||| bitAt 16 9 w.c1 |||
  bitAt 16 10 w.c2 ||| (w.top.setWidth 16 <<< 11) ||| bitAt 16 14 w.c3 ||| bitAt 16 15 w.es

/-- The status word of an image. -/
def FpuStatus.ofWord (v : Word) : FpuStatus :=
  { ie := v.getLsbD 0, de := v.getLsbD 1, ze := v.getLsbD 2, oe := v.getLsbD 3, ue := v.getLsbD 4,
    pe := v.getLsbD 5, sf := v.getLsbD 6, es := v.getLsbD 7, c0 := v.getLsbD 8, c1 := v.getLsbD 9,
    c2 := v.getLsbD 10, c3 := v.getLsbD 14, top := v.extractLsb' 11 3 }

/-- Set C1. -/
def setC1 (b : Bool) : M Unit := modifyFpu (fun f => { f with sw := { f.sw with c1 := b } })
/-- Set C2. -/
def setC2 (b : Bool) : M Unit := modifyFpu (fun f => { f with sw := { f.sw with c2 := b } })

/-- Set C0, C2 and C3 to free bits: an instruction leaves them undefined (42_fpu R332). -/
def freeC023 : M Unit := do
  let a ← freeBit
  let b ← freeBit
  let c ← freeBit
  modifyFpu (fun f => { f with sw := { f.sw with c0 := a, c2 := b, c3 := c } })

/-- Set all four condition bits to free bits. -/
def freeC0123 : M Unit := do
  freeC023
  setC1 (← freeBit)

/-- Set C3, C2 and C0 (42_fpu R343). -/
def setC320 (c3 c2 c0 : Bool) : M Unit :=
  modifyFpu (fun f => { f with sw := { f.sw with c3 := c3, c2 := c2, c0 := c0 } })

/-- The rounding control. -/
def Fpu.rc (f : Fpu) : BitVec 2 := f.cw.extractLsb' 10 2

/-- The precision of arithmetic results in bits; the reserved encoding 01 is refused (R73; 93_implementation_defined 1.5). -/
def precision : M Nat := do
  match ((← get).fpu.cw.extractLsb' 8 2).toNat with
  | 0 => return 24
  | 1 => throw (.refuse .reservedPrecision)
  | 2 => return 53
  | _ => return 64

/-- Recompute ES: some exception flag is set whose mask is 0 (42_fpu R357). -/
def Fpu.fixEs (f : Fpu) : Fpu :=
  { f with sw := { f.sw with
      es := (f.sw.ie && !f.cw.getLsbD 0) || (f.sw.de && !f.cw.getLsbD 1) || (f.sw.ze && !f.cw.getLsbD 2) ||
        (f.sw.oe && !f.cw.getLsbD 3) || (f.sw.ue && !f.cw.getLsbD 4) || (f.sw.pe && !f.cw.getLsbD 5) } }

/-! ## Exceptions (42_fpu R331) -/

/-- The floating-point exceptions. -/
inductive FpExc | ia | d | z | o | u | p
deriving DecidableEq, Repr

/-- The place of the mask bit, and of the flag (R331). -/
def FpExc.bit : FpExc → Nat
  | .ia => 0 | .d => 1 | .z => 2 | .o => 3 | .u => 4 | .p => 5

/-- Set the sticky flag of an exception. -/
def FpuStatus.flag (w : FpuStatus) : FpExc → FpuStatus
  | .ia => { w with ie := true } | .d => { w with de := true } | .z => { w with ze := true }
  | .o => { w with oe := true } | .u => { w with ue := true } | .p => { w with pe := true }

/-- FpException: set the flag, and ES where the exception is not masked; answers whether it is masked (R331). An #IA leaves
SF as an earlier stack fault left it: the flags are sticky. DESIGN CHOICE, log 58. -/
def fpException (x : FpExc) : M Bool := do
  let masked := (← get).fpu.cw.getLsbD x.bit
  modifyFpu (fun f => let w := f.sw.flag x; { f with sw := { w with es := w.es || !masked } })
  return masked

/-- FpException where `c` holds. -/
def fpExceptionIf (c : Bool) (x : FpExc) : M Unit := do
  if c then
    let _ ← fpException x
  else pure ()

/-- StackFault: C1 tells overflow from underflow; answers whether it is masked (R330). -/
def stackFault (overflow : Bool) : M Bool := do
  modifyFpu (fun f => { f with sw := { f.sw with sf := true, c1 := overflow } })
  fpException .ia

/-- Some register of ST(i) for `i` in the list is empty. -/
def anyEmpty (is : List Nat) : M Bool := return is.any (← get).fpu.isEmpty

/-- FpuPush (R330). -/
def fpuPush (v : Ext) : M Unit := do
  let f := (← get).fpu
  if f.isEmpty 7 then
    modifyFpu (fun f => (f.setTop (f.sw.top - 1)).setSt 0 v)
    setC1 false
  else if ← stackFault true then modifyFpu (fun f => (f.setTop (f.sw.top - 1)).setSt 0 extIndef)
  else pure ()

/-! ## Entry and pointers -/

/-- A pending unmasked exception is delivered: #MF, or the freeze where CR0.NE = 0 (60_exceptions R709). -/
def pendingCheck : M Unit := do
  let s ← get
  if s.fpu.sw.es then (if s.cr0Ne then raise .mf else throw .freeze) else pure ()

/-- FpuEntry (42_fpu R330). -/
def fpuEntry (waiting : Bool) : M Unit := do
  let s ← get
  raiseIf (s.cr0Em || s.cr0Ts) .nm
  if waiting then pendingCheck else pure ()

/-- The last-opcode register for the instruction being executed (10_state R74, 43_fpu R410). -/
def State.fopNow (s : State) : BitVec 11 := s.opBytes.extractLsb' 0 3 ++ s.opBytes.extractLsb' 8 8

/-- Update the FPU instruction pointer and opcode, and the data pointer where there is a memory operand (R74). -/
def fpuPointers (m : Option Ea) : M Unit :=
  modify (fun s =>
    let f := { s.fpu with fipSel := s.seg.cs.sel, fip := s.eip, fop := s.fopNow }
    { s with fpu := match m with
        | none => f
        | some a => { f with fdpSel := (s.seg.get (s.eaSeg a)).sel, fdp := s.gpr.eaOff a } })

/-- An FPU instruction that is not a control instruction, with its memory operand. -/
def fpuInstr (m : Option Ea) (body : M Unit) : M Unit := do
  fpuEntry true
  body
  fpuPointers m

/-! ## Operands -/

/-- A source operand: its value, and whether it was a denormal in its own format. -/
structure Src where
  val : Ext
  denorm : Bool
deriving DecidableEq, Repr

/-- A register operand. -/
def Src.ofReg (v : Ext) : Src := { val := v, denorm := decide (fclass v = .denormal) }

/-- A single- or double-real memory operand. -/
def readReal (fmt : RealFmt) (a : Ea) : M Src := do
  let v ← readEa a fmt.bytes fmt.bytes
  return { val := fmt.toExt v, denorm := fmt.isDenormal v }

/-- An integer memory operand of `n` bytes. -/
def readInt (a : Ea) (n : Nat) : M Src := do
  let v ← readEa a n n
  return { val := intExt (BitVec.ofNat (8 * n) v).toInt, denorm := false }

/-! ## NaNs and denormals (42_fpu R334) -/

/-- The NaN of an operation with NaN operands: the one with the larger significand, made quiet; where they are equal
either; none gives the real indefinite. -/
def nanResult (x y : Ext) : M Ext := do
  let choose ← freeBit
  return match (fclass x).isNan, (fclass y).isNan with
    | true, true =>
      if extSig x = extSig y then extQuiet (if choose then x else y)
      else if extSig y < extSig x then extQuiet x else extQuiet y
    | true, false => extQuiet x
    | false, true => extQuiet y
    | false, false => extIndef

/-- What the NaN and format checks of an operation decide. -/
inductive Checked
  | go
  | result (v : Ext)
  | stop
deriving DecidableEq, Repr

/-- A masked #IA gives `v`; an unmasked one stops. -/
def invalidOp (v : Ext) : M Checked := do
  if ← fpException .ia then return .result v else return .stop

/-- SNaN or unsupported operands raise #IA, a QNaN passes through (R334, R337). -/
def nanCheck (x y : Ext) : M Checked := do
  if (fclass x).isBad || (fclass y).isBad then invalidOp (← nanResult x y)
  else if (fclass x).isNan || (fclass y).isNan then return .result (← nanResult x y)
  else return .go

/-- #D where `c` holds; answers whether the operation goes on. -/
def denormalCheck (c : Bool) : M Bool := if c then fpException .d else pure true

/-- Raise the exceptions of a rounding, set C1, and give the value (R331, R332). -/
def commitRes (r : FRes) : M Ext := do
  fpExceptionIf r.o .o
  fpExceptionIf r.u .u
  fpExceptionIf r.p .p
  setC1 r.c1
  return r.val

/-- Round a number to an extended real of `prec` bits; 0 takes its own sign. -/
def roundExt (n : FpNum) (prec : Nat) : M Ext := do
  let f := (← get).fpu
  if n.mant = 0 then return extZero n.neg
  else commitRes (n.toExt prec f.rc (f.cw.getLsbD 3) (f.cw.getLsbD 4))

/-- Write the result of an operation to ST(i) and pop, unless it stopped. -/
def storeSt (i : Nat) (pop : Bool) : Option Ext → M Unit
  | none => pure ()
  | some v => do
    setSt i v
    popIf pop

/-- An operation on registers of which `needs` must not be empty, with its result in ST(dst): a masked stack fault
stores the real indefinite there (R330). C1 is cleared first. -/
def stBody (needs : List Nat) (dst : Nat) (pop : Bool) (body : M (Option Ext)) : M Unit := do
  if ← anyEmpty needs then
    if ← stackFault false then storeSt dst pop (some extIndef) else pure ()
  else
    setC1 false
    storeSt dst pop (← body)

/-- Such an operation that leaves C0, C2 and C3 undefined. FPREM and FPREM1, which set them from the quotient, leave them
so where there is none: after a NaN operand, #IA or a stack fault. DESIGN CHOICE, log 59. -/
def stOp (needs : List Nat) (dst : Nat) (pop : Bool) (body : M (Option Ext)) : M Unit := do
  freeC023
  stBody needs dst pop body

end Sys2Proof.Machine
end

