-- ==== Sys2Proof/Machine/FpuArith.lean ====
section
/-! DEFINITION. FPU arithmetic and comparison: FADD to FDIVR, FSQRT, FRNDINT, FSCALE, FPREM, FXTRACT, FABS, FCHS, the
compares, FTST and FXAM (spec 42_fpu R336 to R350, 43_fpu R380 to R404). -/

namespace Sys2Proof.Machine

/-! ## Two-operand arithmetic (42_fpu R337) -/

/-- The operations. -/
inductive FOp | add | sub | mul | div
deriving DecidableEq, Repr

/-- The invalid cases (`*`) of the result tables (R337, R347; 43_fpu R380, R397). -/
def FOp.invalid (op : FOp) (x y : Ext) : Bool :=
  let xi := decide (fclass x = .inf)
  let yi := decide (fclass y = .inf)
  let xz := decide (fclass x = .zero)
  let yz := decide (fclass y = .zero)
  match op with
  | .add => xi && yi && extNeg x != extNeg y
  | .sub => xi && yi && extNeg x == extNeg y
  | .mul => (xi && yz) || (xz && yi)
  | .div => (xi && yi) || (xz && yz)

/-- The results that an infinity or a zero decides. -/
def FOp.special (op : FOp) (x y : Ext) : Option Ext :=
  let xi := decide (fclass x = .inf)
  let yi := decide (fclass y = .inf)
  let sg := extNeg x != extNeg y
  match op with
  | .add => if xi then some x else if yi then some y else none
  | .sub => if xi then some x else if yi then some (extInf (!extNeg y)) else none
  | .mul => if xi || yi then some (extInf sg) else none
  | .div => if xi then some (extInf sg) else if yi then some (extZero sg) else none

/-- The exact result on finite operands; a sum of 0 is +0, or -0 when rounding down, or has the sign of two like zeros
(R337, 43_fpu R397). -/
def FOp.exact (op : FOp) (x y : FpNum) (rc : BitVec 2) : FpNum :=
  let sum (y : FpNum) : FpNum :=
    x.add y (if x.mant = 0 ∧ y.mant = 0 ∧ x.neg = y.neg then x.neg else decide (rc = 1#2))
  match op with
  | .add => sum y
  | .sub => sum { y with neg := !y.neg }
  | .mul => x.mul y
  | .div => x.div y

/-- `x op y` with its exceptions, or none where an unmasked one stops it (R337, R347). -/
def arith2 (op : FOp) (x y : Src) : M (Option Ext) := do
  match ← nanCheck x.val y.val with
  | .stop => return none
  | .result v => return some v
  | .go =>
    if op.invalid x.val y.val then
      if ← fpException .ia then return some extIndef else return none
    else if op = .div ∧ fclass y.val = .zero ∧ (fclass x.val).isFinite then
      if ← fpException .z then return some (extInf (extNeg x.val != extNeg y.val)) else return none
    else if ← denormalCheck (x.denorm || y.denorm) then
      match op.special x.val y.val with
      | some v => return some v
      | none =>
        let prec ← precision
        return some (← roundExt (op.exact (numOf x.val) (numOf y.val) (← get).fpu.rc) prec)
    else return none

/-- ST(dst) op src, or src op ST(dst) where `rev` holds. -/
def arithTo (op : FOp) (rev : Bool) (dst : Nat) (src : Src) : M (Option Ext) := do
  let d := Src.ofReg (← getSt dst)
  if rev then arith2 op src d else arith2 op d src

/-- The register form: ST(dst) with ST(src). -/
def fArithReg (op : FOp) (rev pop : Bool) (dst src : Nat) : M Unit :=
  fpuInstr none (stOp [dst, src] dst pop (do arithTo op rev dst (.ofReg (← getSt src))))

/-- A memory form: ST(0) with a source that is read first. -/
def fArithMem (op : FOp) (rev : Bool) (a : Ea) (src : M Src) : M Unit :=
  fpuInstr (some a) (do
    let v ← src
    stOp [0] 0 false (arithTo op rev 0 v))

/-- The operand forms of FADD, FSUB, FMUL, FDIV and their reverses (R337). -/
def fArith (op : FOp) (rev : Bool) (f : FArith) : M Unit :=
  match f with
  | .m32 a => fArithMem op rev a (readReal .single a)
  | .m64 a => fArithMem op rev a (readReal .double a)
  | .st0i i => fArithReg op rev false 0 (idxNat i)
  | .sti0 i => fArithReg op rev false (idxNat i) 0

/-- The popping forms: ST(i) with ST(0). -/
def fArithP (op : FOp) (rev : Bool) (i : Idx8) : M Unit := fArithReg op rev true (idxNat i) 0

/-- The integer forms. -/
def fArithInt (op : FOp) (rev : Bool) (f : FInt2) : M Unit :=
  match f with
  | .i16 a => fArithMem op rev a (readInt a 2)
  | .i32 a => fArithMem op rev a (readInt a 4)

/-- FADD (42_fpu R337). -/
def execFadd (f : FArith) (s : State) : Host.Outcome State Fault Refusal := run (fArith .add false f) s
/-- FADDP (42_fpu R337). -/
def execFaddp (i : Idx8) (s : State) : Host.Outcome State Fault Refusal := run (fArithP .add false i) s
/-- FIADD (42_fpu R337). -/
def execFiadd (f : FInt2) (s : State) : Host.Outcome State Fault Refusal := run (fArithInt .add false f) s
/-- FSUB (43_fpu R397). -/
def execFsub (f : FArith) (s : State) : Host.Outcome State Fault Refusal := run (fArith .sub false f) s
/-- FSUBP (43_fpu R397). -/
def execFsubp (i : Idx8) (s : State) : Host.Outcome State Fault Refusal := run (fArithP .sub false i) s
/-- FISUB (43_fpu R397). -/
def execFisub (f : FInt2) (s : State) : Host.Outcome State Fault Refusal := run (fArithInt .sub false f) s
/-- FSUBR (43_fpu R398). -/
def execFsubr (f : FArith) (s : State) : Host.Outcome State Fault Refusal := run (fArith .sub true f) s
/-- FSUBRP (43_fpu R398). -/
def execFsubrp (i : Idx8) (s : State) : Host.Outcome State Fault Refusal := run (fArithP .sub true i) s
/-- FISUBR (43_fpu R398). -/
def execFisubr (f : FInt2) (s : State) : Host.Outcome State Fault Refusal := run (fArithInt .sub true f) s
/-- FMUL (43_fpu R380). -/
def execFmul (f : FArith) (s : State) : Host.Outcome State Fault Refusal := run (fArith .mul false f) s
/-- FMULP (43_fpu R380). -/
def execFmulp (i : Idx8) (s : State) : Host.Outcome State Fault Refusal := run (fArithP .mul false i) s
/-- FIMUL (43_fpu R380). -/
def execFimul (f : FInt2) (s : State) : Host.Outcome State Fault Refusal := run (fArithInt .mul false f) s
/-- FDIV (42_fpu R347). -/
def execFdiv (f : FArith) (s : State) : Host.Outcome State Fault Refusal := run (fArith .div false f) s
/-- FDIVP (42_fpu R347). -/
def execFdivp (i : Idx8) (s : State) : Host.Outcome State Fault Refusal := run (fArithP .div false i) s
/-- FIDIV (42_fpu R347). -/
def execFidiv (f : FInt2) (s : State) : Host.Outcome State Fault Refusal := run (fArithInt .div false f) s
/-- FDIVR (42_fpu R348). -/
def execFdivr (f : FArith) (s : State) : Host.Outcome State Fault Refusal := run (fArith .div true f) s
/-- FDIVRP (42_fpu R348). -/
def execFdivrp (i : Idx8) (s : State) : Host.Outcome State Fault Refusal := run (fArithP .div true i) s
/-- FIDIVR (42_fpu R348). -/
def execFidivr (f : FInt2) (s : State) : Host.Outcome State Fault Refusal := run (fArithInt .div true f) s

/-! ## One-operand arithmetic -/

/-- A change of the sign bit: no exception but the stack fault (42_fpu R336, R340). -/
def signOp (g : Bool → Bool) : M Unit :=
  fpuInstr none (stOp [0] 0 false (do
    let v ← getSt 0
    return some (extWithSign (g (extNeg v)) v)))

/-- An operation on ST(0), after its NaN, invalid and denormal checks. -/
def unaryOp (invalid : Ext → Bool) (body : Ext → M Ext) : M Unit :=
  fpuInstr none (stOp [0] 0 false (do
    let v ← getSt 0
    match ← nanCheck v v with
    | .stop => return none
    | .result r => return some r
    | .go =>
      if invalid v then
        if ← fpException .ia then return some extIndef else return none
      else if ← denormalCheck (decide (fclass v = .denormal)) then return some (← body v)
      else return none))

/-- FSQRT (43_fpu R392). -/
def fsqrt : M Unit :=
  unaryOp (fun v => extNeg v && decide (fclass v ≠ .zero)) (fun v => do
    if fclass v = .zero ∨ fclass v = .inf then return v
    else
      let prec ← precision
      roundExt (numOf v).sqrt prec)

/-- FRNDINT: a zero result has the sign of the source (43_fpu R386). -/
def frndint : M Unit :=
  unaryOp (fun _ => false) (fun v => do
    if fclass v = .inf then return v
    else
      let n := numOf v
      if 0 ≤ n.exp then return v
      else
        let r := n.roundAt (← get).fpu.rc 0
        fpExceptionIf r.inexact .p
        setC1 r.up
        return packExt n.neg r.mant r.exp)

/-- FABS (42_fpu R336). -/
def execFabs (s : State) : Host.Outcome State Fault Refusal := run (signOp (fun _ => false)) s
/-- FCHS (42_fpu R340). -/
def execFchs (s : State) : Host.Outcome State Fault Refusal := run (signOp (fun b => !b)) s
/-- FSQRT (43_fpu R392). -/
def execFsqrt (s : State) : Host.Outcome State Fault Refusal := run fsqrt s
/-- FRNDINT (43_fpu R386). -/
def execFrndint (s : State) : Host.Outcome State Fault Refusal := run frndint s

/-! ## FSCALE, FPREM, FXTRACT -/

/-- The scale factor: ST(1) cut to an integer. Beyond 2 ^ 17 every scale gives the same results. -/
def scaleOf (v : Ext) : Int :=
  let n := numOf v
  let m : Nat := if 18 < n.top then 2 ^ 18 else (n.roundAt 3#2 0).mant
  if n.neg then -Int.ofNat m else Int.ofNat m

/-- FSCALE on operands that are neither NaNs nor unsupported (43_fpu R389). -/
def fscaleValue (x y : Ext) : M (Option Ext) := do
  let xz := decide (fclass x = .zero)
  let xi := decide (fclass x = .inf)
  let yi := decide (fclass y = .inf)
  if yi && ((xz && !extNeg y) || (xi && extNeg y)) then
    if ← fpException .ia then return some extIndef else return none
  else if ← denormalCheck (decide (fclass x = .denormal ∨ fclass y = .denormal)) then
    if yi then return some (if extNeg y then extZero (extNeg x) else extInf (extNeg x))
    else if xz || xi then return some x
    else
      let n := numOf x
      return some (← roundExt { n with exp := n.exp + scaleOf y } 64)
  else return none

/-- An operation on ST(0) and ST(1), after its NaN check. -/
def binaryOp (dst : Nat) (pop : Bool) (body : Ext → Ext → M (Option Ext)) : M Unit :=
  fpuInstr none (stOp [0, 1] dst pop (do
    let x ← getSt 0
    let y ← getSt 1
    match ← nanCheck x y with
    | .stop => return none
    | .result r => return some r
    | .go => body x y))

/-- The exponent difference of which FPREM removes no more than 63 at a time (43_fpu R383): N, between 32 and 63. -/
def fpremN : M Nat := return 32 + (Config.fpremN (← freshNat)).toNat

/-- The quotient and what is left of it: `a / b` and the remainder, truncated or to nearest with ties to even. -/
def remDiv (nearest : Bool) (a b : Nat) : Nat × Int :=
  let q := a / b
  let r := a % b
  if nearest ∧ (b < 2 * r ∨ (2 * r = b ∧ q % 2 = 1)) then (q + 1, Int.ofNat r - Int.ofNat b) else (q, Int.ofNat r)

/-- Set the condition bits of a complete reduction from the quotient (R383). -/
def setQuotient (q : Nat) : M Unit := do
  setC320 (q.testBit 1) false (q.testBit 2)
  setC1 (q.testBit 0)

/-- The reduction of a finite dividend by a finite modulus that is not 0 (43_fpu R383, R384). -/
def fpremValue (nearest : Bool) (x y : Ext) : M Ext := do
  let a := numOf x
  let b := numOf y
  let e := min a.exp b.exp
  let m := (a.scaled e).natAbs
  let n := (b.scaled e).natAbs
  let d := a.top - b.top
  if d < 64 then
    let (q, r) := remDiv nearest m n
    let v ← roundExt { neg := if r < 0 then !a.neg else a.neg, mant := r.natAbs, exp := e } 64
    setQuotient q
    return v
  else
    let k := (d - Int.ofNat (← fpremN)).toNat
    let v ← roundExt { neg := a.neg, mant := m % (n * 2 ^ k), exp := e } 64
    freeC0123
    setC2 true
    return v

/-- FPREM, and FPREM1 where `nearest` holds: every zero modulus is invalid (43_fpu R383, R384). -/
def fprem (nearest : Bool) : M Unit :=
  binaryOp 0 false (fun x y => do
    if fclass x = .inf ∨ fclass y = .zero then
      if ← fpException .ia then return some extIndef else return none
    else if ← denormalCheck (decide (fclass x = .denormal ∨ fclass y = .denormal)) then
      if fclass y = .inf ∨ fclass x = .zero then
        setQuotient 0
        return some x
      else return some (← fpremValue nearest x y)
    else return none)

/-- Write ST(0), push a second value, and clear nothing else: the two results of FXTRACT, FSINCOS and FPTAN. -/
def twoResults (below top : Ext) : M Unit := do
  setSt 0 below
  modifyFpu (fun f => (f.setTop (f.sw.top - 1)).setSt 0 top)

/-- The stack checks of an instruction that replaces ST(0) and pushes; masked faults leave the real indefinite
(43_fpu R385, R391, R404). -/
def pushChecks (body : M Unit) : M Unit := do
  if (← get).fpu.isEmpty 0 then
    if ← stackFault false then setSt 0 extIndef else pure ()
  else if !(← get).fpu.isEmpty 7 then
    if ← stackFault true then twoResults extIndef extIndef else pure ()
  else
    setC1 false
    body

/-- FXTRACT of a value that is not a NaN (43_fpu R404). -/
def fxtractValue (v : Ext) : M Unit := do
  match fclass v with
  | .zero => if ← fpException .z then twoResults (extInf true) v else pure ()
  | .inf => twoResults (extInf false) v
  | _ =>
    if ← denormalCheck (decide (fclass v = .denormal)) then
      let n := numOf v
      twoResults (intExt n.top) (mkExt n.neg 0x3FFF (alignTop n.mant 63))
    else pure ()

/-- FXTRACT (43_fpu R404). -/
def fxtract : M Unit :=
  fpuInstr none (do
    freeC023
    pushChecks (do
      let v ← getSt 0
      match ← nanCheck v v with
      | .stop => pure ()
      | .result r => twoResults r r
      | .go => fxtractValue v))

/-- FSCALE (43_fpu R389). -/
def execFscale (s : State) : Host.Outcome State Fault Refusal := run (binaryOp 0 false fscaleValue) s
/-- FPREM (43_fpu R383). -/
def execFprem (s : State) : Host.Outcome State Fault Refusal := run (fprem false) s
/-- FPREM1 (43_fpu R384). -/
def execFprem1 (s : State) : Host.Outcome State Fault Refusal := run (fprem true) s
/-- FXTRACT (43_fpu R404). -/
def execFxtract (s : State) : Host.Outcome State Fault Refusal := run fxtract s

/-! ## Comparisons (42_fpu R343, R344, R350; 43_fpu R399, R400) -/

/-- Compare ST(0) with a source. A quiet NaN is invalid unless `quiet` holds; denormals raise #D where `den` holds. None
where an unmasked exception stops the comparison. -/
def compareSt0 (quiet den : Bool) (src : Src) : M (Option FRel) := do
  let x := Src.ofReg (← getSt 0)
  let cx := fclass x.val
  let cy := fclass src.val
  let nan := cx.isNan || cy.isNan || cx.isBad || cy.isBad
  let bad := cx.isBad || cy.isBad
  if bad || (nan && !quiet) then
    if ← fpException .ia then return some .unordered else return none
  else if nan then return some .unordered
  else if ← denormalCheck (den && (x.denorm || src.denorm)) then return some (extRel x.val src.val)
  else return none

/-- The condition bits of a relation (R343). -/
def setRel : FRel → M Unit
  | .gt => setC320 false false false
  | .lt => setC320 false false true
  | .eq => setC320 true false false
  | .unordered => setC320 true true true

/-- ZF, PF and CF of a relation; OF, SF and AF stay (R344, D14). -/
def setRelFlags (r : FRel) : M Unit :=
  modifyFlags (fun f => match r with
    | .gt => { f with zf := false, pf := false, cf := false }
    | .lt => { f with zf := false, pf := false, cf := true }
    | .eq => { f with zf := true, pf := false, cf := false }
    | .unordered => { f with zf := true, pf := true, cf := true })

/-- Pop `n` times. -/
def popTimes : Nat → M Unit
  | 0 => pure ()
  | n + 1 => do
    modifyFpu Fpu.pop
    popTimes n

/-- A comparison: registers that must not be empty, the source, where its relation goes, and how many pops follow, and
follow a masked stack fault. -/
def compareOp (needs : List Nat) (quiet den : Bool) (src : M Src) (set : FRel → M Unit) (pops faultPops : Nat) :
    M Unit := do
  if ← anyEmpty needs then
    if ← stackFault false then
      set .unordered
      popTimes faultPops
    else pure ()
  else
    setC1 false
    match ← compareSt0 quiet den (← src) with
    | none => pure ()
    | some r =>
      set r
      popTimes pops

/-- A comparison with ST(i) that sets the condition bits (R343; 43_fpu R400). -/
def compareReg (quiet : Bool) (i pops : Nat) : M Unit :=
  fpuInstr none (compareOp [0, i] quiet true (do return Src.ofReg (← getSt i)) setRel pops pops)

/-- A comparison with ST(i) that sets EFLAGS: no #D, and a masked stack fault does not pop (R344). -/
def compareFlags (quiet : Bool) (i pops : Nat) : M Unit :=
  fpuInstr none (compareOp [0, i] quiet false (do return Src.ofReg (← getSt i)) setRelFlags pops 0)

/-- A comparison with memory, which is read first. -/
def compareMem (a : Ea) (src : M Src) (pops : Nat) : M Unit :=
  fpuInstr (some a) (do
    let v ← src
    compareOp [0] false true (pure v) setRel pops pops)

/-- The operand forms of FCOM and FCOMP. -/
def fcomForm (f : FComForm) (pops : Nat) : M Unit :=
  match f with
  | .m32 a => compareMem a (readReal .single a) pops
  | .m64 a => compareMem a (readReal .double a) pops
  | .st i => compareReg false (idxNat i) pops

/-- The operand forms of FICOM and FICOMP. -/
def ficomForm (f : FInt2) (pops : Nat) : M Unit :=
  match f with
  | .i16 a => compareMem a (readInt a 2) pops
  | .i32 a => compareMem a (readInt a 4) pops

/-- FTST: a comparison with 0 (43_fpu R399). -/
def ftst : M Unit := fpuInstr none (compareOp [0] false true (pure (Src.ofReg (extZero false))) setRel 0 0)

/-- FXAM (43_fpu R402). -/
def fxam : M Unit :=
  fpuInstr none (do
    let f := (← get).fpu
    let v := f.st 0
    setC1 (extNeg v)
    if f.isEmpty 0 then setC320 true false true
    else
      match fclass v with
      | .unsupported => setC320 false false false
      | .snan => setC320 false false true
      | .qnan => setC320 false false true
      | .normal => setC320 false true false
      | .inf => setC320 false true true
      | .zero => setC320 true false false
      | .denormal => setC320 true true false)

/-- FCOM (42_fpu R343). -/
def execFcom (f : FComForm) (s : State) : Host.Outcome State Fault Refusal := run (fcomForm f 0) s
/-- FCOMP (42_fpu R343). -/
def execFcomp (f : FComForm) (s : State) : Host.Outcome State Fault Refusal := run (fcomForm f 1) s
/-- FCOMPP (42_fpu R343). -/
def execFcompp (s : State) : Host.Outcome State Fault Refusal := run (compareReg false 1 2) s
/-- FICOM (42_fpu R350). -/
def execFicom (f : FInt2) (s : State) : Host.Outcome State Fault Refusal := run (ficomForm f 0) s
/-- FICOMP (42_fpu R350). -/
def execFicomp (f : FInt2) (s : State) : Host.Outcome State Fault Refusal := run (ficomForm f 1) s
/-- FUCOM (43_fpu R400). -/
def execFucom (i : Idx8) (s : State) : Host.Outcome State Fault Refusal := run (compareReg true (idxNat i) 0) s
/-- FUCOMP (43_fpu R400). -/
def execFucomp (i : Idx8) (s : State) : Host.Outcome State Fault Refusal := run (compareReg true (idxNat i) 1) s
/-- FUCOMPP (43_fpu R400). -/
def execFucompp (s : State) : Host.Outcome State Fault Refusal := run (compareReg true 1 2) s
/-- FCOMI (42_fpu R344). -/
def execFcomi (i : Idx8) (s : State) : Host.Outcome State Fault Refusal := run (compareFlags false (idxNat i) 0) s
/-- FCOMIP (42_fpu R344). -/
def execFcomip (i : Idx8) (s : State) : Host.Outcome State Fault Refusal := run (compareFlags false (idxNat i) 1) s
/-- FUCOMI (42_fpu R344). -/
def execFucomi (i : Idx8) (s : State) : Host.Outcome State Fault Refusal := run (compareFlags true (idxNat i) 0) s
/-- FUCOMIP (42_fpu R344). -/
def execFucomip (i : Idx8) (s : State) : Host.Outcome State Fault Refusal := run (compareFlags true (idxNat i) 1) s
/-- FTST (43_fpu R399). -/
def execFtst (s : State) : Host.Outcome State Fault Refusal := run ftst s
/-- FXAM (43_fpu R402). -/
def execFxam (s : State) : Host.Outcome State Fault Refusal := run fxam s

end Sys2Proof.Machine
end

