-- ==== Sys2Proof/Machine/FpuMove.lean ====
section
/-! DEFINITION. FPU data movement and control: loads, constants, stores, exchanges, conditional moves, stack control, and
the control, status and state instructions (spec 42_fpu R338 to R358, 43_fpu R381 to R410, 49_int R659). -/

namespace Sys2Proof.Machine

/-! ## Loads -/

/-- Push a value that an instruction has found; C0, C2 and C3 are undefined. -/
def loadOp (m : Option Ea) (src : M (Option Ext)) : M Unit :=
  fpuInstr m (do
    freeC023
    setC1 false
    match ← src with
    | none => pure ()
    | some v => fpuPush v)

/-- A single- or double-real: an SNaN and a denormal raise their exceptions (42_fpu R355). -/
def loadReal (fmt : RealFmt) (a : Ea) : M (Option Ext) := do
  let x ← readReal fmt a
  if fclass x.val = .snan then
    if ← fpException .ia then return some (extQuiet x.val) else return none
  else if ← denormalCheck x.denorm then return some x.val
  else return none

/-- FLD (42_fpu R355). -/
def fld (f : FLdForm) : M Unit :=
  match f with
  | .m32 a => loadOp (some a) (loadReal .single a)
  | .m64 a => loadOp (some a) (loadReal .double a)
  | .m80 a => loadOp (some a) (do return some (BitVec.ofNat 80 (← readEa a 10 8)))
  | .st i =>
    fpuInstr none (do
      freeC023
      setC1 false
      if ← anyEmpty [idxNat i] then
        if ← stackFault false then modifyFpu (fun f => (f.setTop (f.sw.top - 1)).setSt 0 extIndef) else pure ()
      else fpuPush (← getSt (idxNat i)))

/-- FILD (42_fpu R351). -/
def fild (f : FInt3) : M Unit :=
  match f with
  | .i16 a => loadOp (some a) (do return some (← readInt a 2).val)
  | .i32 a => loadOp (some a) (do return some (← readInt a 4).val)
  | .i64 a => loadOp (some a) (do return some (← readInt a 8).val)

/-- FBLD: an encoding with a digit above 9 pushes an undefined value (42_fpu R338). -/
def fbld (a : Ea) : M Unit :=
  loadOp (some a) (do
    let v ← readEa a 10 8
    match bcdValue 18 v with
    | some n => return some (packExt (v.testBit 79) n 0)
    | none => return some (Config.freeExt (← freshNat)))

/-- A constant: its significand rounded to nearest, down, and up (42_fpu R356). -/
def fldConst (e near down up : Nat) : M Unit :=
  loadOp none (do
    let sig := match (← get).fpu.rc.toNat with
      | 0 => near | 1 => down | 2 => up | _ => down
    return some (mkExt false e sig))

/-- FLD (42_fpu R355). -/
def execFld (f : FLdForm) (s : State) : Host.Outcome State Fault Refusal := run (fld f) s
/-- FILD (42_fpu R351). -/
def execFild (f : FInt3) (s : State) : Host.Outcome State Fault Refusal := run (fild f) s
/-- FBLD (42_fpu R338). -/
def execFbld (m : Ea) (s : State) : Host.Outcome State Fault Refusal := run (fbld m) s
/-- FLD1 (42_fpu R356). -/
def execFld1 (s : State) : Host.Outcome State Fault Refusal :=
  run (fldConst 0x3FFF 0x8000000000000000 0x8000000000000000 0x8000000000000000) s
/-- FLDL2T (42_fpu R356). -/
def execFldl2t (s : State) : Host.Outcome State Fault Refusal :=
  run (fldConst 0x4000 0xD49A784BCD1B8AFE 0xD49A784BCD1B8AFE 0xD49A784BCD1B8AFF) s
/-- FLDL2E (42_fpu R356). -/
def execFldl2e (s : State) : Host.Outcome State Fault Refusal :=
  run (fldConst 0x3FFF 0xB8AA3B295C17F0BC 0xB8AA3B295C17F0BB 0xB8AA3B295C17F0BC) s
/-- FLDPI (42_fpu R356). -/
def execFldpi (s : State) : Host.Outcome State Fault Refusal :=
  run (fldConst 0x4000 0xC90FDAA22168C235 0xC90FDAA22168C234 0xC90FDAA22168C235) s
/-- FLDLG2 (42_fpu R356). -/
def execFldlg2 (s : State) : Host.Outcome State Fault Refusal :=
  run (fldConst 0x3FFD 0x9A209A84FBCFF799 0x9A209A84FBCFF798 0x9A209A84FBCFF799) s
/-- FLDLN2 (42_fpu R356). -/
def execFldln2 (s : State) : Host.Outcome State Fault Refusal :=
  run (fldConst 0x3FFE 0xB17217F7D1CF79AC 0xB17217F7D1CF79AB 0xB17217F7D1CF79AC) s
/-- FLDZ (42_fpu R356). -/
def execFldz (s : State) : Host.Outcome State Fault Refusal := run (fldConst 0 0 0 0) s

/-! ## Stores -/

/-- A store of ST(0) to memory: the bytes when the register is empty and the fault masked, and otherwise the number to
store, or none where an unmasked exception stops it (42_fpu R330, R354, 43_fpu R393). -/
def storeOp (a : Ea) (n al : Nat) (indef : Nat) (pop : Bool) (body : Ext → M (Option Nat)) : M Unit :=
  fpuInstr (some a) (do
    freeC023
    let v ← if ← anyEmpty [0] then do
        if ← stackFault false then pure (some indef) else pure none
      else do
        setC1 false
        body (← getSt 0)
    match v with
    | none => pure ()
    | some b => do
      writeEa a n al b
      popIf pop)

/-- ST(0) in a single- or double-real format (43_fpu R393): an unmasked #O or #U stores nothing. -/
def realBits (fmt : RealFmt) (v : Ext) : M (Option Nat) := do
  let f := (← get).fpu
  match fclass v with
  | .snan => if ← fpException .ia then return some (fmt.nan v) else return none
  | .unsupported => if ← fpException .ia then return some fmt.indef else return none
  | .qnan => return some (fmt.nan v)
  | .inf => return some (fmt.inf (extNeg v))
  | .zero => return some (fmt.pack (extNeg v) 0 0)
  | .normal | .denormal =>
    let r := fmt.round (numOf v) f.rc (f.cw.getLsbD 4)
    let mo ← if r.o then fpException .o else pure true
    let mu ← if r.u then fpException .u else pure true
    if mo && mu then
      fpExceptionIf r.p .p
      setC1 r.c1
      return some r.bits
    else return none

/-- FST and FSTP to ST(i): the copy is exact (43_fpu R393). -/
def storeReg (i : Nat) (pop : Bool) : M Unit := fpuInstr none (stOp [0] i pop (do return some (← getSt 0)))

/-- FST (43_fpu R393). -/
def fst (f : FComForm) : M Unit :=
  match f with
  | .m32 a => storeOp a 4 4 (RealFmt.indef .single) false (realBits .single)
  | .m64 a => storeOp a 8 8 (RealFmt.indef .double) false (realBits .double)
  | .st i => storeReg (idxNat i) false

/-- FSTP (43_fpu R393). -/
def fstp (f : FLdForm) : M Unit :=
  match f with
  | .m32 a => storeOp a 4 4 (RealFmt.indef .single) true (realBits .single)
  | .m64 a => storeOp a 8 8 (RealFmt.indef .double) true (realBits .double)
  | .m80 a => storeOp a 10 8 extIndef.toNat true (fun v => return some v.toNat)
  | .st i => storeReg (idxNat i) true

/-- ST(0) rounded to an integer whose magnitude passes `ok`, raising #IA or #P (42_fpu R339, R354). -/
def toInteger (ok : Bool → Nat → Bool) (indef : Nat) (enc : Bool → Nat → Nat) (v : Ext) : M (Option Nat) := do
  let n := numOf v
  let r := n.roundAt (← get).fpu.rc 0
  if (fclass v).isFinite && decide (n.top < 66) && ok n.neg r.mant then
    fpExceptionIf r.inexact .p
    setC1 r.up
    return some (enc n.neg r.mant)
  else if ← fpException .ia then return some indef
  else return none

/-- FIST and FISTP to `k` bytes (42_fpu R354). -/
def fistOp (a : Ea) (k : Nat) (pop : Bool) : M Unit :=
  let half := 2 ^ (8 * k - 1)
  storeOp a k k half pop
    (toInteger (fun neg m => if neg then decide (m ≤ half) else decide (m < half)) half
      (fun neg m => if neg then (2 * half - m) % (2 * half) else m))

/-- FIST (42_fpu R354). -/
def fist (f : FInt2) : M Unit :=
  match f with
  | .i16 a => fistOp a 2 false
  | .i32 a => fistOp a 4 false

/-- FISTP (42_fpu R354). -/
def fistp (f : FInt3) : M Unit :=
  match f with
  | .i16 a => fistOp a 2 true
  | .i32 a => fistOp a 4 true
  | .i64 a => fistOp a 8 true

/-- The packed BCD indefinite (42_fpu R334). -/
def bcdIndef : Nat := 0xFFFFC000000000000000

/-- FBSTP (42_fpu R339). -/
def fbstp (a : Ea) : M Unit :=
  storeOp a 10 8 bcdIndef true
    (toInteger (fun _ m => decide (m < 10 ^ 18)) bcdIndef (fun neg m => toBcd 18 m + if neg then 2 ^ 79 else 0))

/-- FST (43_fpu R393). -/
def execFst (f : FComForm) (s : State) : Host.Outcome State Fault Refusal := run (fst f) s
/-- FSTP (43_fpu R393). -/
def execFstp (f : FLdForm) (s : State) : Host.Outcome State Fault Refusal := run (fstp f) s
/-- FIST (42_fpu R354). -/
def execFist (f : FInt2) (s : State) : Host.Outcome State Fault Refusal := run (fist f) s
/-- FISTP (42_fpu R354). -/
def execFistp (f : FInt3) (s : State) : Host.Outcome State Fault Refusal := run (fistp f) s
/-- FBSTP (42_fpu R339). -/
def execFbstp (m : Ea) (s : State) : Host.Outcome State Fault Refusal := run (fbstp m) s

/-! ## Register moves and stack control -/

/-- FXCH: under a masked fault the empty registers take the real indefinite first (43_fpu R403). -/
def fxch (i : Nat) : M Unit :=
  fpuInstr none (do
    freeC023
    let f := (← get).fpu
    let a := if f.isEmpty 0 then extIndef else f.st 0
    let b := if f.isEmpty i then extIndef else f.st i
    let go ← if f.isEmpty 0 || f.isEmpty i then stackFault false else do
      setC1 false
      pure true
    if go then
      setSt i a
      setSt 0 b
    else pure ())

/-- FCMOVcc: the stack check comes first (42_fpu R342, D13). -/
def fcmov (c : Flags → Bool) (i : Nat) : M Unit :=
  fpuInstr none (stOp [0, i] 0 false (do
    if c (← get).flags then return some (← getSt i) else return none))

/-- FINCSTP and FDECSTP (42_fpu R346, R352). -/
def moveTop (d : BitVec 3) : M Unit :=
  fpuInstr none (do
    freeC023
    setC1 false
    modifyFpu (fun f => f.setTop (f.sw.top + d)))

/-- FFREE (42_fpu R349). -/
def ffree (i : Nat) : M Unit :=
  fpuInstr none (do
    freeC0123
    modifyFpu (fun f => f.setTag (f.phys i) 3#2))

/-- FNOP: the pointers stay (43_fpu R381, D15). -/
def fnop : M Unit := do
  fpuEntry true
  freeC0123

/-- FXCH (43_fpu R403). -/
def execFxch (i : Idx8) (s : State) : Host.Outcome State Fault Refusal := run (fxch (idxNat i)) s
/-- FCMOVB (42_fpu R342). -/
def execFcmovb (i : Idx8) (s : State) : Host.Outcome State Fault Refusal := run (fcmov (·.cf) (idxNat i)) s
/-- FCMOVE (42_fpu R342). -/
def execFcmove (i : Idx8) (s : State) : Host.Outcome State Fault Refusal := run (fcmov (·.zf) (idxNat i)) s
/-- FCMOVBE (42_fpu R342). -/
def execFcmovbe (i : Idx8) (s : State) : Host.Outcome State Fault Refusal :=
  run (fcmov (fun f => f.cf || f.zf) (idxNat i)) s
/-- FCMOVU (42_fpu R342). -/
def execFcmovu (i : Idx8) (s : State) : Host.Outcome State Fault Refusal := run (fcmov (·.pf) (idxNat i)) s
/-- FCMOVNB (42_fpu R342). -/
def execFcmovnb (i : Idx8) (s : State) : Host.Outcome State Fault Refusal := run (fcmov (fun f => !f.cf) (idxNat i)) s
/-- FCMOVNE (42_fpu R342). -/
def execFcmovne (i : Idx8) (s : State) : Host.Outcome State Fault Refusal := run (fcmov (fun f => !f.zf) (idxNat i)) s
/-- FCMOVNBE (42_fpu R342). -/
def execFcmovnbe (i : Idx8) (s : State) : Host.Outcome State Fault Refusal :=
  run (fcmov (fun f => !f.cf && !f.zf) (idxNat i)) s
/-- FCMOVNU (42_fpu R342). -/
def execFcmovnu (i : Idx8) (s : State) : Host.Outcome State Fault Refusal := run (fcmov (fun f => !f.pf) (idxNat i)) s
/-- FINCSTP (42_fpu R352). -/
def execFincstp (s : State) : Host.Outcome State Fault Refusal := run (moveTop 1) s
/-- FDECSTP (42_fpu R346). -/
def execFdecstp (s : State) : Host.Outcome State Fault Refusal := run (moveTop 7) s
/-- FFREE (42_fpu R349). -/
def execFfree (i : Idx8) (s : State) : Host.Outcome State Fault Refusal := run (ffree (idxNat i)) s
/-- FNOP (43_fpu R381). -/
def execFnop (s : State) : Host.Outcome State Fault Refusal := run fnop s

/-! ## WAIT and the forms that begin with it -/

/-- WAIT; C0 to C3 stay (49_int R659, D24). -/
def wait : M Unit := do
  let s ← get
  raiseIf (s.cr0Mp && s.cr0Ts) .nm
  pendingCheck

/-- An instruction written 9B and a no-wait instruction (42_fpu R330): WAIT, then that instruction at the address after
the 9B. They are two instructions under one mnemonic (30_encoding R223): where something is recognised between them this
ends after the WAIT, and so does a step, which then reads the 9B alone (`State.ctx`). A prefix belongs to the WAIT. -/
def runWaiting (body : M Unit) (s : State) : Host.Outcome State Fault Refusal :=
  if s.pfx.lock || decide (s.pfx.rep ≠ .none) then run wait s
  else
    match wait s with
    | .ok _ t =>
      if s.breaksAfterByte then .next { t with eip := s.eip + 1, npc := s.eip + 1 }
      else run body { t with eip := s.eip + 1 }
    | .error _ _ => run wait s

/-- The FPU after FINIT: the data registers stay (42_fpu R353). -/
def Fpu.init (f : Fpu) : Fpu :=
  { f with cw := 0x037F#16, sw := FpuStatus.ofWord 0, tags := 0xFFFF#16, fipSel := 0, fip := 0, fdpSel := 0,
           fdp := 0, fop := 0, ferr := false }

/-- FNINIT (42_fpu R353). -/
def fninit : M Unit := do
  fpuEntry false
  modifyFpu Fpu.init

/-- FNCLEX; C0 to C3 are undefined (42_fpu R341). -/
def fnclex : M Unit := do
  fpuEntry false
  modifyFpu (fun f => { f with
    ferr := false
    sw := { f.sw with ie := false, de := false, ze := false, oe := false, ue := false, pe := false, sf := false,
                      es := false } })
  freeC0123

/-- FNSTCW; C0 to C3 are undefined (43_fpu R394). -/
def fnstcw (a : Ea) : M Unit := do
  fpuEntry false
  writeEa a 2 2 (← get).fpu.cw.toNat
  freeC0123

/-- FLDCW: bit 6 reads 1; C0 to C3 are undefined (42_fpu R357). -/
def fldcw (a : Ea) : M Unit := do
  fpuEntry true
  let v : Word := BitVec.ofNat 16 (← readEa a 2 2)
  modifyFpu (fun f => Fpu.fixEs { f with cw := v ||| 0x0040#16 })
  freeC0123

/-- FNSTSW; C0 to C3 are undefined afterwards (43_fpu R396). -/
def fnstsw (f : FStsw) : M Unit := do
  fpuEntry false
  let v := (← get).fpu.sw.toWord
  match f with
  | .mem a => writeEa a 2 2 v.toNat
  | .ax => setReg .w .eax v
  freeC0123

/-- WAIT (49_int R659). -/
def execWait (s : State) : Host.Outcome State Fault Refusal := run wait s
/-- FINIT (42_fpu R353). -/
def execFinit (s : State) : Host.Outcome State Fault Refusal := runWaiting fninit s
/-- FNINIT (42_fpu R353). -/
def execFninit (s : State) : Host.Outcome State Fault Refusal := run fninit s
/-- FCLEX (42_fpu R341). -/
def execFclex (s : State) : Host.Outcome State Fault Refusal := runWaiting fnclex s
/-- FNCLEX (42_fpu R341). -/
def execFnclex (s : State) : Host.Outcome State Fault Refusal := run fnclex s
/-- FSTCW (43_fpu R394). -/
def execFstcw (m : Ea) (s : State) : Host.Outcome State Fault Refusal := runWaiting (fnstcw m) s
/-- FNSTCW (43_fpu R394). -/
def execFnstcw (m : Ea) (s : State) : Host.Outcome State Fault Refusal := run (fnstcw m) s
/-- FLDCW (42_fpu R357). -/
def execFldcw (m : Ea) (s : State) : Host.Outcome State Fault Refusal := run (fldcw m) s
/-- FSTSW (43_fpu R396). -/
def execFstsw (f : FStsw) (s : State) : Host.Outcome State Fault Refusal := runWaiting (fnstsw f) s
/-- FNSTSW (43_fpu R396). -/
def execFnstsw (f : FStsw) (s : State) : Host.Outcome State Fault Refusal := run (fnstsw f) s

/-! ## Environment and state images (43_fpu R410) -/

/-- The tag word as stored: empty tags, else the class of the content (10_state R71). -/
def Fpu.tagImage (f : Fpu) : Word :=
  let t (n : BitVec 3) : BitVec 2 := if f.tag n = 3#2 then 3#2 else tagOf (f.reg n)
  t 7 ++ t 6 ++ t 5 ++ t 4 ++ t 3 ++ t 2 ++ t 1 ++ t 0

/-- A real-mode pointer: the linear address of selector and offset. -/
def linearPtr (sel : Word) (off : Dword) : Dword := (sel.setWidth 32 <<< 4) + off

/-- The environment with operand size 32; `rsvd` fills the reserved halves. -/
def Fpu.env32 (f : Fpu) (prot : Bool) (rsvd : Nat → Word) : List Dword :=
  let half (i : Nat) (v : Word) : Dword := rsvd i ++ v
  let ip := linearPtr f.fipSel f.fip
  let dp := linearPtr f.fdpSel f.fdp
  let head := [half 0 f.cw, half 1 f.sw.toWord, half 2 f.tagImage]
  if prot then
    head ++ [f.fip, (f.fop.setWidth 16 : Word) ++ f.fipSel, f.fdp, half 3 f.fdpSel]
  else
    head ++ [half 3 (ip.setWidth 16), f.fop.setWidth 32 ||| ((ip >>> 16) <<< 12), half 4 (dp.setWidth 16),
      (dp >>> 16) <<< 12]

/-- The environment with operand size 16. -/
def Fpu.env16 (f : Fpu) (prot : Bool) : List Word :=
  let ip := linearPtr f.fipSel f.fip
  let dp := linearPtr f.fdpSel f.fdp
  let head := [f.cw, f.sw.toWord, f.tagImage]
  if prot then head ++ [f.fip.setWidth 16, f.fipSel, f.fdp.setWidth 16, f.fdpSel]
  else
    head ++ [ip.setWidth 16, f.fop.setWidth 16 ||| ((ip >>> 16) <<< 12).setWidth 16, dp.setWidth 16,
      ((dp >>> 16) <<< 12).setWidth 16]

/-- Words of `w` bits as one number, the first lowest. -/
def packList (w : Nat) : List Nat → Nat
  | [] => 0
  | v :: t => v + 2 ^ w * packList w t

/-- The environment image as a number; the reserved fields are free (93_implementation_defined). -/
def envImage : M Nat := do
  let s ← get
  if s.os32 then
    let k := s.fresh
    modify (fun s => { s with fresh := s.fresh + 5 })
    return packList 32 ((s.fpu.env32 s.prot (fun i => (Config.freeDword (k + i)).setWidth 16)).map BitVec.toNat)
  else return packList 16 ((s.fpu.env16 s.prot).map BitVec.toNat)

/-- The size of the environment in bytes. -/
def State.envSize (s : State) : Nat := if s.os32 then 28 else 14
/-- Its alignment (20_memory R113). -/
def State.envAlign (s : State) : Nat := if s.os32 then 4 else 2

/-- Bits `lo` to `lo + 15` of an image. -/
def word16 (v lo : Nat) : Word := BitVec.ofNat 16 (v / 2 ^ lo)
/-- Bits `lo` to `lo + 31` of an image. -/
def word32 (v lo : Nat) : Dword := BitVec.ofNat 32 (v / 2 ^ lo)

/-- Load the pointers and the opcode of an image. The real-mode formats give linear addresses: selector 0; the 16-bit
protected-mode format holds no opcode (43_fpu R410). -/
def Fpu.loadPtrs (f : Fpu) (os32 prot : Bool) (v : Nat) : Fpu :=
  match os32, prot with
  | true, true =>
    { f with fip := word32 v 96, fipSel := word16 v 128, fop := BitVec.ofNat 11 (v / 2 ^ 144), fdp := word32 v 160,
             fdpSel := word16 v 192 }
  | true, false =>
    { f with fip := word16 v 140 ++ word16 v 96, fipSel := 0, fop := BitVec.ofNat 11 (v / 2 ^ 128),
             fdp := word16 v 204 ++ word16 v 160, fdpSel := 0 }
  | false, true =>
    { f with fip := (word16 v 48).setWidth 32, fipSel := word16 v 64, fdp := (word16 v 80).setWidth 32,
             fdpSel := word16 v 96 }
  | false, false =>
    { f with fip := (BitVec.ofNat 4 (v / 2 ^ 76) ++ word16 v 48).setWidth 32, fipSel := 0,
             fop := BitVec.ofNat 11 (v / 2 ^ 64)
             fdp := (BitVec.ofNat 4 (v / 2 ^ 108) ++ word16 v 80).setWidth 32, fdpSel := 0 }

/-- Load an environment image; ES is recomputed (42_fpu R358, D16). -/
def Fpu.loadEnv (f : Fpu) (os32 prot : Bool) (v : Nat) : Fpu :=
  let w := if os32 then 32 else 16
  let g := { f with cw := word16 v 0 ||| 0x0040#16, sw := FpuStatus.ofWord (word16 v w), tags := word16 v (2 * w) }
  Fpu.fixEs (g.loadPtrs os32 prot v)

/-- The registers in stack order, ST(0) lowest. -/
def Fpu.stackImage (f : Fpu) : Nat :=
  packList 80 [(f.st 0).toNat, (f.st 1).toNat, (f.st 2).toNat, (f.st 3).toNat, (f.st 4).toNat, (f.st 5).toNat,
    (f.st 6).toNat, (f.st 7).toNat]

/-- Load ST(0) to ST(`k` - 1) from an image; the tags stay. -/
def Fpu.loadStack (f : Fpu) (v : Nat) : Nat → Fpu
  | 0 => f
  | k + 1 => (f.loadStack v k).setReg (f.phys k) (BitVec.ofNat 80 (v / 2 ^ (80 * k)))

/-- FNSTENV: all exceptions are masked after; C0 to C3 are undefined (43_fpu R395). -/
def fnstenv (a : Ea) : M Unit := do
  fpuEntry false
  let s ← get
  let v ← envImage
  writeEa a s.envSize s.envAlign v
  modifyFpu (fun f => { f with cw := f.cw ||| 0x003F#16 })
  freeC0123

/-- FLDENV (42_fpu R358). -/
def fldenv (a : Ea) : M Unit := do
  fpuEntry true
  let s ← get
  let v ← readEa a s.envSize s.envAlign
  modifyFpu (fun f => f.loadEnv s.os32 s.prot v)

/-- FNSAVE (43_fpu R388). -/
def fnsave (a : Ea) : M Unit := do
  fpuEntry false
  let s ← get
  let v ← envImage
  writeEa a (s.envSize + 80) s.envAlign (v + 2 ^ (8 * s.envSize) * s.fpu.stackImage)
  modifyFpu Fpu.init

/-- FRSTOR: the registers relative to the new TOP (43_fpu R387). -/
def frstor (a : Ea) : M Unit := do
  fpuEntry true
  let s ← get
  let v ← readEa a (s.envSize + 80) s.envAlign
  modifyFpu (fun f => (f.loadEnv s.os32 s.prot v).loadStack (v / 2 ^ (8 * s.envSize)) 8)

/-- FSTENV (43_fpu R395). -/
def execFstenv (m : Ea) (s : State) : Host.Outcome State Fault Refusal := runWaiting (fnstenv m) s
/-- FNSTENV (43_fpu R395). -/
def execFnstenv (m : Ea) (s : State) : Host.Outcome State Fault Refusal := run (fnstenv m) s
/-- FLDENV (42_fpu R358). -/
def execFldenv (m : Ea) (s : State) : Host.Outcome State Fault Refusal := run (fldenv m) s
/-- FSAVE (43_fpu R388). -/
def execFsave (m : Ea) (s : State) : Host.Outcome State Fault Refusal := runWaiting (fnsave m) s
/-- FNSAVE (43_fpu R388). -/
def execFnsave (m : Ea) (s : State) : Host.Outcome State Fault Refusal := run (fnsave m) s
/-- FRSTOR (43_fpu R387). -/
def execFrstor (m : Ea) (s : State) : Host.Outcome State Fault Refusal := run (frstor m) s

end Sys2Proof.Machine
end

