-- ==== Sys2Proof/Machine/FpuTrans.lean ====
section
/-! DEFINITION. The transcendental instructions (spec 42_fpu R333, R335, R345, 43_fpu R382, R385, R390, R391, R405, R406).
The function is the parameter `Config.transcendental`; the class tables bound what it may give (log 10). -/

namespace Sys2Proof.Machine

/-! ## The parameter and its bounds -/

/-- A number that orders the extended reals that are not NaNs, -0 below +0. -/
def extKey (v : Ext) : Int :=
  let m := Int.ofNat (extExp v * 2 ^ 64 + extSig v)
  if extNeg v then -1 - m else m

/-- `v` is a canonical number from `lo` to `hi`. -/
def extWithin (lo hi v : Ext) : Bool :=
  ((fclass v).isFinite || decide (fclass v = .inf)) && !(extExp v == 0 && v.getLsbD 63) &&
    decide (extKey lo ≤ extKey v) && decide (extKey v ≤ extKey hi)

/-- `v` where it lies between the bounds, else the lower one. -/
def clampExt (lo hi v : Ext) : Ext := if extWithin lo hi v then v else lo

/-- Commit a result that the parameter gives: #O where it is infinite, #U where it is tiny, #P where it is inexact, and
C1; an unmasked #O or #U stores a biased value, which is free (42_fpu R331, R333). -/
def commitTrans (v : Ext) (inexact up tinyU : Bool) : M Ext := do
  let f := (← get).fpu
  let huge := decide (fclass v = .inf)
  let tiny := (decide (fclass v = .denormal) || decide (fclass v = .zero)) && tinyU
  let um := f.cw.getLsbD 4
  let u := tiny && (inexact || !um)
  fpExceptionIf huge .o
  fpExceptionIf u .u
  fpExceptionIf (inexact || huge) .p
  setC1 (up && (inexact || huge))
  if (huge && !f.cw.getLsbD 3) || (u && !um) then return Config.freeExt (← freshNat) else return v

/-- The result of a transcendental function between the bounds of its class table. -/
def transValue (t : Config.Transcendental) (x y lo hi : Ext) (tinyU : Bool) : M Ext := do
  let rc := (← get).fpu.rc
  commitTrans (clampExt lo hi (Config.transcendental t x y rc)) (Config.transcendentalInexact t x y rc)
    (Config.transcendentalUp t x y rc) tinyU

/-- An operand out of the range an instruction gives its function: the result, and any of the exceptions, are free
(42_fpu R335, 43_fpu R406). -/
def outOfRange : M (Option Ext) := do
  let ia ← freeBit
  let d ← freeBit
  let goIa ← if ia then fpException .ia else pure true
  let goD ← if d then fpException .d else pure true
  if goIa && goD then
    fpExceptionIf (← freeBit) .o
    fpExceptionIf (← freeBit) .u
    fpExceptionIf (← freeBit) .p
    setC1 (← freeBit)
    return some (Config.freeExt (← freshNat))
  else return none

/-! ## Constants -/

/-- A multiple of pi rounded by RC: `sig` is its significand cut off, and the next bit is 1. -/
def piResult (neg : Bool) (e sig : Nat) : M Ext := do
  let rc := (← get).fpu.rc
  let up := roundsUp rc neg (sig % 2 == 1) 3 4
  let _ ← fpException .p
  setC1 up
  return mkExt neg e (if up then sig + 1 else sig)

/-- The significand of pi, cut off. -/
def piSig : Nat := 0xC90FDAA22168C234
/-- The significand of 3 pi / 4, cut off. -/
def pi34Sig : Nat := 0x96CBE3F9990E91A7

/-! ## F2XM1 (42_fpu R335) -/

/-- F2XM1 on a number. -/
def f2xm1Value (x : Ext) : M (Option Ext) := do
  let neg := extNeg x
  if extKey (extOne false) < extKey (extWithSign false x) then outOfRange
  else if fclass x = .zero then return some x
  else if ← denormalCheck (decide (fclass x = .denormal)) then
    if x = extOne false then return some x
    else if x = extOne true then return some (mkExt true 0x3FFE 0x8000000000000000)
    else
      let lo := if neg then mkExt true 0x3FFE 0x8000000000000000 else extZero false
      let hi := if neg then extZero true else extOne false
      return some (← transValue .f2xm1 x x lo hi true)
  else return none

/-- A function of ST(0) after its NaN check. -/
def ofSt0 (body : Ext → M (Option Ext)) : M (Option Ext) := do
  let v ← getSt 0
  match ← nanCheck v v with
  | .stop => return none
  | .result r => return some r
  | .go => body v

/-- F2XM1 (42_fpu R335). -/
def f2xm1 : M Unit := fpuInstr none (stOp [0] 0 false (ofSt0 f2xm1Value))

/-- F2XM1 (42_fpu R335). -/
def execF2xm1 (s : State) : Host.Outcome State Fault Refusal := run f2xm1 s

/-! ## FSIN, FCOS, FSINCOS, FPTAN -/

/-- The operand is finite and its magnitude is at least 2 ^ 63 (42_fpu R345). -/
def tooLarge (x : Ext) : Bool := (fclass x).isFinite && decide (16383 + 63 ≤ extExp x)

/-- C2 set, ST(0) unchanged, C1 undefined (R345). -/
def notReduced : M (Option Ext) := do
  setC2 true
  setC1 (← freeBit)
  return none

/-- The sine or cosine of a number whose magnitude is less than 2 ^ 63. The page of FSIN lists no #U, so that a tiny
result may raise it or not. -/
def trigValue (t : Config.Transcendental) (atZero : Ext → Ext) (x : Ext) : M Ext := do
  if fclass x = .zero then return atZero x
  else
    let u ← if t = .fsin then freeBit else pure true
    transValue t x x (extOne true) (extOne false) u

/-- FSIN, FCOS on a number. -/
def trigNumber (t : Config.Transcendental) (atZero : Ext → Ext) (x : Ext) : M (Option Ext) := do
  if tooLarge x then notReduced
  else if fclass x = .inf then
    if ← fpException .ia then return some extIndef else return none
  else if ← denormalCheck (decide (fclass x = .denormal)) then return some (← trigValue t atZero x)
  else return none

/-- FSIN, FCOS (42_fpu R345, 43_fpu R390): C2 is 1 where the operand is out of range and 0 otherwise; C0 and C3 are
undefined. -/
def trig (t : Config.Transcendental) (atZero : Ext → Ext) : M Unit :=
  fpuInstr none (do
    freeC023
    setC2 false
    stBody [0] 0 false (ofSt0 (trigNumber t atZero)))

/-- The cosine of zero. -/
def cosZero (_x : Ext) : Ext := extOne false

/-- An instruction that replaces ST(0) by one value and pushes another, on an operand below 2 ^ 63; out of range only
C2 changes (43_fpu R385, R391). A NaN or an invalid operand gives both results. -/
def trigTwo (body : Ext → M (Ext × Ext)) : M Unit :=
  fpuInstr none (do
    freeC023
    let f := (← get).fpu
    if !f.isEmpty 0 && tooLarge (f.st 0) then
      let _ ← notReduced
    else
      setC2 false
      pushChecks (do
        let x ← getSt 0
        match ← nanCheck x x with
        | .stop => pure ()
        | .result r => twoResults r r
        | .go =>
          if fclass x = .inf then
            if ← fpException .ia then twoResults extIndef extIndef else pure ()
          else if ← denormalCheck (decide (fclass x = .denormal)) then
            let (a, b) ← body x
            twoResults a b
          else pure ()))

/-- C1 after two results, each with whether it is inexact and whether it was rounded up: the direction of the inexact
ones, and free where they differ (43_fpu R391, D12). -/
def c1OfBoth (inexact up inexact' up' : Bool) : M Bool := do
  if inexact && inexact' && up != up' then freeBit
  else return (inexact && up) || (inexact' && up')

/-- FSINCOS: the sine below the cosine (43_fpu R391). -/
def fsincosValue (x : Ext) : M (Ext × Ext) := do
  if fclass x = .zero then return (x, extOne false)
  else
    let rc := (← get).fpu.rc
    let a ← transValue .fsin x x (extOne true) (extOne false) true
    let b ← transValue .fcos x x (extOne true) (extOne false) true
    setC1 (← c1OfBoth (Config.transcendentalInexact .fsin x x rc) (Config.transcendentalUp .fsin x x rc)
      (Config.transcendentalInexact .fcos x x rc) (Config.transcendentalUp .fcos x x rc))
    return (a, b)

/-- FPTAN: the tangent below 1 (43_fpu R385). -/
def fptanValue (x : Ext) : M (Ext × Ext) := do
  if fclass x = .zero then return (x, extOne false)
  else return (← transValue .fptan x x (extMax true 64) (extMax false 64) true, extOne false)

/-- FSIN (43_fpu R390). -/
def execFsin (s : State) : Host.Outcome State Fault Refusal := run (trig .fsin id) s
/-- FCOS (42_fpu R345). -/
def execFcos (s : State) : Host.Outcome State Fault Refusal := run (trig .fcos cosZero) s
/-- FSINCOS (43_fpu R391). -/
def execFsincos (s : State) : Host.Outcome State Fault Refusal := run (trigTwo fsincosValue) s
/-- FPTAN (43_fpu R385). -/
def execFptan (s : State) : Host.Outcome State Fault Refusal := run (trigTwo fptanValue) s

/-! ## FPATAN (43_fpu R382) -/

/-- The result table: the angle of the point (x, y); its sign is that of y. The multiples of pi, and the results where the
magnitudes are equal, are correctly rounded by RC with #P. DESIGN CHOICE, log 10. -/
def fpatanValue (x y : Ext) : M (Option Ext) := do
  let neg := extNeg y
  let xz := decide (fclass x = .zero)
  let yz := decide (fclass y = .zero)
  let xi := decide (fclass x = .inf)
  let yi := decide (fclass y = .inf)
  if ← denormalCheck (decide (fclass x = .denormal ∨ fclass y = .denormal)) then
    let pi := piResult neg 0x4000 piSig
    let half := piResult neg 0x3FFF piSig
    let same := decide (extKey (extWithSign false x) = extKey (extWithSign false y))
    let v ← if xi && yi || (same && !xz) then
        (if extNeg x then piResult neg 0x4000 pi34Sig else piResult neg 0x3FFE piSig)
      else if yz || xi then (if extNeg x then pi else pure (extZero neg))
      else if yi || xz then half
      else if extNeg x then
        if neg then transValue .fpatan x y (mkExt true 0x4000 (piSig + 1)) (mkExt true 0x3FFF piSig) true
        else transValue .fpatan x y (mkExt false 0x3FFF piSig) (mkExt false 0x4000 (piSig + 1)) true
      else
        if neg then transValue .fpatan x y (mkExt true 0x3FFF (piSig + 1)) (extZero true) true
        else transValue .fpatan x y (extZero false) (mkExt false 0x3FFF (piSig + 1)) true
    return some v
  else return none

/-- FPATAN (43_fpu R382). -/
def execFpatan (s : State) : Host.Outcome State Fault Refusal := run (binaryOp 1 true fpatanValue) s

/-! ## FYL2X, FYL2XP1 (43_fpu R405, R406) -/

/-- The finite results of one sign. -/
def signedValue (t : Config.Transcendental) (x y : Ext) (neg : Bool) : M Ext :=
  if neg then transValue t x y (extInf true) (extZero true) true
  else transValue t x y (extZero false) (extInf false) true

/-- FYL2X on a positive finite `x` and a finite `y` that is not 0; for a power of two the product is exact before
rounding (R405, its example). -/
def fyl2xFinite (x y : Ext) (neg : Bool) : M Ext := do
  let n := numOf x
  if n.mant = 2 ^ n.mant.log2 then
    let k := numOf (intExt n.top)
    roundExt ((numOf y).mul k) 64
  else signedValue .fyl2x x y neg

/-- The result table of FYL2X. -/
def fyl2xValue (x y : Ext) : M (Option Ext) := do
  let xz := decide (fclass x = .zero)
  let yz := decide (fclass y = .zero)
  let xi := decide (fclass x = .inf)
  let yi := decide (fclass y = .inf)
  let one := decide (x = extOne false)
  if (extNeg x && !xz) || (xz && yz) || (xi && yz) || (one && yi) then
    if ← fpException .ia then return some extIndef else return none
  else if xz then
    if yi then return some (extInf (!extNeg y))
    else if ← fpException .z then return some (extInf (!extNeg y))
    else return none
  else if ← denormalCheck (decide (fclass x = .denormal ∨ fclass y = .denormal)) then
    let neg := extNeg y != decide (extKey x < extKey (extOne false))
    if one then return some (extZero (extNeg y))
    else if yi || xi then return some (extInf neg)
    else if yz then return some (extZero neg)
    else return some (← fyl2xFinite x y neg)
  else return none

/-- The largest operand of FYL2XP1: 1 - sqrt(2)/2, cut off. -/
def yl2xp1Max : Ext := mkExt false 0x3FFD 0x95F619980C4336F7

/-- The result table of FYL2XP1. -/
def fyl2xp1Value (x y : Ext) : M (Option Ext) := do
  let xz := decide (fclass x = .zero)
  let yz := decide (fclass y = .zero)
  let yi := decide (fclass y = .inf)
  if extKey yl2xp1Max < extKey (extWithSign false x) then outOfRange
  else if xz && yi then
    if ← fpException .ia then return some extIndef else return none
  else if ← denormalCheck (decide (fclass x = .denormal ∨ fclass y = .denormal)) then
    let neg := extNeg y != extNeg x
    if yi then return some (extInf neg)
    else if xz || yz then return some (extZero neg)
    else return some (← signedValue .fyl2xp1 x y neg)
  else return none

/-- FYL2X (43_fpu R405). -/
def execFyl2x (s : State) : Host.Outcome State Fault Refusal := run (binaryOp 1 true fyl2xValue) s
/-- FYL2XP1 (43_fpu R406). -/
def execFyl2xp1 (s : State) : Host.Outcome State Fault Refusal := run (binaryOp 1 true fyl2xp1Value) s

end Sys2Proof.Machine
end

