-- ==== Sys2Proof/Machine/Mmx.lean ====
section
/-! DEFINITION. MMX instructions (spec 41_int R311, 46_int R513, R514, 47_mmx R550 to R572). -/

namespace Sys2Proof.Machine

/-! ## Registers, entry and exit (10_state R77, R78; 47_mmx R550) -/

/-- MMn: the low 64 bits of the physical FPU register n (R77). -/
def Fpu.mm (f : Fpu) (i : Idx8) : Qword := (f.reg (BitVec.ofNat 3 (idxNat i))).extractLsb' 0 64

/-- Write MMn; bits 79:64 become ones (R78). -/
def Fpu.setMm (f : Fpu) (i : Idx8) (v : Qword) : Fpu := f.setReg (BitVec.ofNat 3 (idxNat i)) (0xFFFF#16 ++ v)

/-- MmxEntry (R550). -/
def mmxEntry : M Unit := do
  let s ← get
  raiseIf s.cr0Em .ud
  raiseIf s.cr0Ts .nm
  pendingCheck

/-- MmxExit: TOP 0 and every tag valid (R550). -/
def mmxExit : M Unit := modifyFpu (fun f => { f.setTop 0 with tags := 0 })

/-- Read a source of `n` bytes, zero-extended. -/
def readMm (n : Nat) : MmRm → M Qword
  | .reg i => return (← get).fpu.mm i
  | .mem a => return BitVec.ofNat 64 (← readEa a n n)

/-- An instruction `DEST <- g DEST SRC` with a source of `n` bytes in memory. -/
def mmxOp (n : Nat) (g : Qword → Qword → Qword) (d : Idx8) (src : MmRm) : M Unit := do
  mmxEntry
  let b ← readMm n src
  modifyFpu (fun f => f.setMm d (g (f.mm d) b))
  mmxExit

/-! ## Elements (R550) -/

/-- Element `i` of width `w`. -/
def lane (w : Nat) (v : Qword) (i : Nat) : BitVec w := v.extractLsb' (w * i) w

/-- A quadword from its elements, element 0 first. -/
def ofLanes {w : Nat} : List (BitVec w) → Qword
  | [] => 0
  | x :: t => (ofLanes t <<< w) ||| x.setWidth 64

/-- The elements of a quadword, element 0 first. -/
def lanes (w : Nat) (v : Qword) : List (BitVec w) := (List.range (64 / w)).map (lane w v)

/-- Apply an operation to each pair of elements. -/
def lanewise (w : Nat) (g : BitVec w → BitVec w → BitVec w) (a b : Qword) : Qword :=
  ofLanes (List.zipWith g (lanes w a) (lanes w b))

/-- Signed saturation to `w` bits: SatSB, SatSW (R550). -/
def satS (w : Nat) (x : Int) : BitVec w :=
  if (2 : Int) ^ (w - 1) ≤ x then BitVec.ofNat w (2 ^ (w - 1) - 1)
  else if x < -((2 : Int) ^ (w - 1)) then BitVec.ofNat w (2 ^ (w - 1))
  else BitVec.ofInt w x

/-- Unsigned saturation to `w` bits: SatUB, SatUW (R550). -/
def satU (w : Nat) (x : Int) : BitVec w :=
  if (2 : Int) ^ w ≤ x then BitVec.ofNat w (2 ^ w - 1) else if x < 0 then 0 else BitVec.ofInt w x

/-- Narrow the elements of DEST, then those of SRC (R551, R552). -/
def pack (w : Nat) (g : Int → BitVec (w / 2)) (a b : Qword) : Qword :=
  ofLanes ((lanes w a ++ lanes w b).map (fun x => g x.toInt))

/-- Interleave two lists of elements. -/
def interleave {w : Nat} : List (BitVec w) → List (BitVec w) → List (BitVec w)
  | x :: xs, y :: ys => x :: y :: interleave xs ys
  | _, _ => []

/-- Interleave the low or the high elements (R570, R571). -/
def unpack (w : Nat) (high : Bool) (a b : Qword) : Qword :=
  let half (v : Qword) : List (BitVec w) :=
    if high then (lanes w v).drop (64 / w / 2) else (lanes w v).take (64 / w / 2)
  ofLanes (interleave (half a) (half b))

/-- All ones where `c` holds, else 0. -/
def maskOf (w : Nat) (c : Bool) : BitVec w := if c then BitVec.allOnes w else 0

/-- PMADDWD (R560). -/
def pmadd (a b : Qword) : Qword :=
  let p (i : Nat) : Int := (lane 16 a i).toInt * (lane 16 b i).toInt
  ofLanes [BitVec.ofInt 32 (p 0 + p 1), BitVec.ofInt 32 (p 2 + p 3)]

/-- The high word of a signed product (R561). -/
def mulHigh (x y : BitVec 16) : BitVec 16 := BitVec.ofInt 16 (x.toInt * y.toInt / 65536)

/-- A shift by the whole count, which is a 64-bit number or a byte (R564 to R566). -/
def mmxShift (g : Qword → Nat → Qword) (f : MShift) : M Unit :=
  match f with
  | .rm d src => mmxOp 8 (fun a b => g a b.toNat) d src
  | .imm d n => do
    mmxEntry
    modifyFpu (fun f => f.setMm d (g (f.mm d) n.toNat))
    mmxExit

/-- Shift each element left; a count of the width or more gives 0 (R564). -/
def shiftLeft (w : Nat) (a : Qword) (n : Nat) : Qword :=
  ofLanes ((lanes w a).map (fun x : BitVec w => if w ≤ n then 0 else x <<< n))
/-- Shift each element right; a count of the width or more gives 0 (R566). -/
def shiftRight (w : Nat) (a : Qword) (n : Nat) : Qword :=
  ofLanes ((lanes w a).map (fun x : BitVec w => if w ≤ n then 0 else x >>> n))
/-- Shift each element right with its sign; a count of the width or more gives the sign (R565). -/
def shiftSign (w : Nat) (a : Qword) (n : Nat) : Qword :=
  ofLanes ((lanes w a).map (fun x => x.sshiftRight (min n (w - 1))))

/-! ## Moves and EMMS -/

/-- EMMS: TOP stays (41_int R311). -/
def emms : M Unit := do
  mmxEntry
  modifyFpu (fun f => { f with tags := 0xFFFF#16 })

/-- MOVD: 32 bits, whatever the operand size (46_int R513). -/
def movd (f : MovdForm) : M Unit := do
  mmxEntry
  match f with
  | .toMm d src =>
    let v : Dword ← readRm .d src
    modifyFpu (fun f => f.setMm d (v.setWidth 64))
  | .fromMm dst i => writeRm .d dst (((← get).fpu.mm i).setWidth 32)
  mmxExit

/-- MOVQ (46_int R514). -/
def movq (f : MovqForm) : M Unit := do
  mmxEntry
  match f with
  | .load d src =>
    let v ← readMm 8 src
    modifyFpu (fun f => f.setMm d v)
  | .store dst i =>
    let v := (← get).fpu.mm i
    match dst with
    | .reg j => modifyFpu (fun f => f.setMm j v)
    | .mem a => writeEa a 8 8 v.toNat
  mmxExit

/-- EMMS (41_int R311). -/
def execEmms (s : State) : Host.Outcome State Fault Refusal := run emms s
/-- MOVD (46_int R513). -/
def execMovd (f : MovdForm) (s : State) : Host.Outcome State Fault Refusal := run (movd f) s
/-- MOVQ (46_int R514). -/
def execMovq (f : MovqForm) (s : State) : Host.Outcome State Fault Refusal := run (movq f) s

/-! ## The packed instructions -/

/-- PACKSSWB (47_mmx R551). -/
def execPacksswb (d : Idx8) (src : MmRm) (s : State) : Host.Outcome State Fault Refusal :=
  run (mmxOp 8 (pack 16 (satS 8)) d src) s
/-- PACKSSDW (47_mmx R551). -/
def execPackssdw (d : Idx8) (src : MmRm) (s : State) : Host.Outcome State Fault Refusal :=
  run (mmxOp 8 (pack 32 (satS 16)) d src) s
/-- PACKUSWB (47_mmx R552). -/
def execPackuswb (d : Idx8) (src : MmRm) (s : State) : Host.Outcome State Fault Refusal :=
  run (mmxOp 8 (pack 16 (satU 8)) d src) s
/-- PADDB (47_mmx R553). -/
def execPaddb (d : Idx8) (src : MmRm) (s : State) : Host.Outcome State Fault Refusal :=
  run (mmxOp 8 (lanewise 8 (fun x y => x + y)) d src) s
/-- PADDW (47_mmx R553). -/
def execPaddw (d : Idx8) (src : MmRm) (s : State) : Host.Outcome State Fault Refusal :=
  run (mmxOp 8 (lanewise 16 (fun x y => x + y)) d src) s
/-- PADDD (47_mmx R553). -/
def execPaddd (d : Idx8) (src : MmRm) (s : State) : Host.Outcome State Fault Refusal :=
  run (mmxOp 8 (lanewise 32 (fun x y => x + y)) d src) s
/-- PADDSB (47_mmx R554). -/
def execPaddsb (d : Idx8) (src : MmRm) (s : State) : Host.Outcome State Fault Refusal :=
  run (mmxOp 8 (lanewise 8 (fun x y => satS 8 (x.toInt + y.toInt))) d src) s
/-- PADDSW (47_mmx R554). -/
def execPaddsw (d : Idx8) (src : MmRm) (s : State) : Host.Outcome State Fault Refusal :=
  run (mmxOp 8 (lanewise 16 (fun x y => satS 16 (x.toInt + y.toInt))) d src) s
/-- PADDUSB (47_mmx R555). -/
def execPaddusb (d : Idx8) (src : MmRm) (s : State) : Host.Outcome State Fault Refusal :=
  run (mmxOp 8 (lanewise 8 (fun x y => satU 8 (x.toNat + y.toNat))) d src) s
/-- PADDUSW (47_mmx R555). -/
def execPaddusw (d : Idx8) (src : MmRm) (s : State) : Host.Outcome State Fault Refusal :=
  run (mmxOp 8 (lanewise 16 (fun x y => satU 16 (x.toNat + y.toNat))) d src) s
/-- PAND (47_mmx R556). -/
def execPand (d : Idx8) (src : MmRm) (s : State) : Host.Outcome State Fault Refusal :=
  run (mmxOp 8 (fun a b => a &&& b) d src) s
/-- PANDN (47_mmx R557). -/
def execPandn (d : Idx8) (src : MmRm) (s : State) : Host.Outcome State Fault Refusal :=
  run (mmxOp 8 (fun a b => ~~~a &&& b) d src) s
/-- PCMPEQB (47_mmx R558). -/
def execPcmpeqb (d : Idx8) (src : MmRm) (s : State) : Host.Outcome State Fault Refusal :=
  run (mmxOp 8 (lanewise 8 (fun x y => maskOf 8 (x == y))) d src) s
/-- PCMPEQW (47_mmx R558). -/
def execPcmpeqw (d : Idx8) (src : MmRm) (s : State) : Host.Outcome State Fault Refusal :=
  run (mmxOp 8 (lanewise 16 (fun x y => maskOf 16 (x == y))) d src) s
/-- PCMPEQD (47_mmx R558). -/
def execPcmpeqd (d : Idx8) (src : MmRm) (s : State) : Host.Outcome State Fault Refusal :=
  run (mmxOp 8 (lanewise 32 (fun x y => maskOf 32 (x == y))) d src) s
/-- PCMPGTB (47_mmx R559). -/
def execPcmpgtb (d : Idx8) (src : MmRm) (s : State) : Host.Outcome State Fault Refusal :=
  run (mmxOp 8 (lanewise 8 (fun x y => maskOf 8 (decide (y.toInt < x.toInt)))) d src) s
/-- PCMPGTW (47_mmx R559). -/
def execPcmpgtw (d : Idx8) (src : MmRm) (s : State) : Host.Outcome State Fault Refusal :=
  run (mmxOp 8 (lanewise 16 (fun x y => maskOf 16 (decide (y.toInt < x.toInt)))) d src) s
/-- PCMPGTD (47_mmx R559). -/
def execPcmpgtd (d : Idx8) (src : MmRm) (s : State) : Host.Outcome State Fault Refusal :=
  run (mmxOp 8 (lanewise 32 (fun x y => maskOf 32 (decide (y.toInt < x.toInt)))) d src) s
/-- PMADDWD (47_mmx R560). -/
def execPmaddwd (d : Idx8) (src : MmRm) (s : State) : Host.Outcome State Fault Refusal :=
  run (mmxOp 8 pmadd d src) s
/-- PMULHW (47_mmx R561). -/
def execPmulhw (d : Idx8) (src : MmRm) (s : State) : Host.Outcome State Fault Refusal :=
  run (mmxOp 8 (lanewise 16 mulHigh) d src) s
/-- PMULLW (47_mmx R562). -/
def execPmullw (d : Idx8) (src : MmRm) (s : State) : Host.Outcome State Fault Refusal :=
  run (mmxOp 8 (lanewise 16 (fun x y => x * y)) d src) s
/-- POR (47_mmx R563). -/
def execPor (d : Idx8) (src : MmRm) (s : State) : Host.Outcome State Fault Refusal :=
  run (mmxOp 8 (fun a b => a ||| b) d src) s
/-- PSLLW (47_mmx R564). -/
def execPsllw (f : MShift) (s : State) : Host.Outcome State Fault Refusal := run (mmxShift (shiftLeft 16) f) s
/-- PSLLD (47_mmx R564). -/
def execPslld (f : MShift) (s : State) : Host.Outcome State Fault Refusal := run (mmxShift (shiftLeft 32) f) s
/-- PSLLQ (47_mmx R564). -/
def execPsllq (f : MShift) (s : State) : Host.Outcome State Fault Refusal := run (mmxShift (shiftLeft 64) f) s
/-- PSRAW (47_mmx R565). -/
def execPsraw (f : MShift) (s : State) : Host.Outcome State Fault Refusal := run (mmxShift (shiftSign 16) f) s
/-- PSRAD (47_mmx R565). -/
def execPsrad (f : MShift) (s : State) : Host.Outcome State Fault Refusal := run (mmxShift (shiftSign 32) f) s
/-- PSRLW (47_mmx R566). -/
def execPsrlw (f : MShift) (s : State) : Host.Outcome State Fault Refusal := run (mmxShift (shiftRight 16) f) s
/-- PSRLD (47_mmx R566). -/
def execPsrld (f : MShift) (s : State) : Host.Outcome State Fault Refusal := run (mmxShift (shiftRight 32) f) s
/-- PSRLQ (47_mmx R566). -/
def execPsrlq (f : MShift) (s : State) : Host.Outcome State Fault Refusal := run (mmxShift (shiftRight 64) f) s
/-- PSUBB (47_mmx R567). -/
def execPsubb (d : Idx8) (src : MmRm) (s : State) : Host.Outcome State Fault Refusal :=
  run (mmxOp 8 (lanewise 8 (fun x y => x - y)) d src) s
/-- PSUBW (47_mmx R567). -/
def execPsubw (d : Idx8) (src : MmRm) (s : State) : Host.Outcome State Fault Refusal :=
  run (mmxOp 8 (lanewise 16 (fun x y => x - y)) d src) s
/-- PSUBD (47_mmx R567). -/
def execPsubd (d : Idx8) (src : MmRm) (s : State) : Host.Outcome State Fault Refusal :=
  run (mmxOp 8 (lanewise 32 (fun x y => x - y)) d src) s
/-- PSUBSB (47_mmx R568). -/
def execPsubsb (d : Idx8) (src : MmRm) (s : State) : Host.Outcome State Fault Refusal :=
  run (mmxOp 8 (lanewise 8 (fun x y => satS 8 (x.toInt - y.toInt))) d src) s
/-- PSUBSW (47_mmx R568). -/
def execPsubsw (d : Idx8) (src : MmRm) (s : State) : Host.Outcome State Fault Refusal :=
  run (mmxOp 8 (lanewise 16 (fun x y => satS 16 (x.toInt - y.toInt))) d src) s
/-- PSUBUSB (47_mmx R569). -/
def execPsubusb (d : Idx8) (src : MmRm) (s : State) : Host.Outcome State Fault Refusal :=
  run (mmxOp 8 (lanewise 8 (fun x y => satU 8 (Int.ofNat x.toNat - Int.ofNat y.toNat))) d src) s
/-- PSUBUSW (47_mmx R569). -/
def execPsubusw (d : Idx8) (src : MmRm) (s : State) : Host.Outcome State Fault Refusal :=
  run (mmxOp 8 (lanewise 16 (fun x y => satU 16 (Int.ofNat x.toNat - Int.ofNat y.toNat))) d src) s
/-- PUNPCKHBW (47_mmx R570). -/
def execPunpckhbw (d : Idx8) (src : MmRm) (s : State) : Host.Outcome State Fault Refusal :=
  run (mmxOp 8 (unpack 8 true) d src) s
/-- PUNPCKHWD (47_mmx R570). -/
def execPunpckhwd (d : Idx8) (src : MmRm) (s : State) : Host.Outcome State Fault Refusal :=
  run (mmxOp 8 (unpack 16 true) d src) s
/-- PUNPCKHDQ (47_mmx R570). -/
def execPunpckhdq (d : Idx8) (src : MmRm) (s : State) : Host.Outcome State Fault Refusal :=
  run (mmxOp 8 (unpack 32 true) d src) s
/-- PUNPCKLBW (47_mmx R571). -/
def execPunpcklbw (d : Idx8) (src : MmRm) (s : State) : Host.Outcome State Fault Refusal :=
  run (mmxOp 4 (unpack 8 false) d src) s
/-- PUNPCKLWD (47_mmx R571). -/
def execPunpcklwd (d : Idx8) (src : MmRm) (s : State) : Host.Outcome State Fault Refusal :=
  run (mmxOp 4 (unpack 16 false) d src) s
/-- PUNPCKLDQ (47_mmx R571). -/
def execPunpckldq (d : Idx8) (src : MmRm) (s : State) : Host.Outcome State Fault Refusal :=
  run (mmxOp 4 (unpack 32 false) d src) s
/-- PXOR (47_mmx R572). -/
def execPxor (d : Idx8) (src : MmRm) (s : State) : Host.Outcome State Fault Refusal :=
  run (mmxOp 8 (fun a b => a ^^^ b) d src) s

end Sys2Proof.Machine
end

