-- ==== Sys2Proof/Machine/Prefixes.lean ====
section
/-! DEFINITION. The instruction prefixes (spec 30_encoding R161 to R166): each latches its effect for the instruction
it belongs to. A second prefix of one group is refused (R166). And the encodings that are no instruction. -/

namespace Sys2Proof.Machine

/-- Latch a prefix whose group is still unused. -/
def latch (used : Bool) (p : Pfx) (s : State) : Host.Outcome State Fault Refusal :=
  if used then .refused .redundantPrefix else .next { s with pfx := p }

/-- Latch a segment override (R164). -/
def latchSeg (r : SReg) (s : State) : Host.Outcome State Fault Refusal :=
  latch s.pfx.seg.isSome { s.pfx with seg := some r } s

/-- Whether a prefix of group 1 has been read (R161). -/
def Pfx.group1 (p : Pfx) : Bool := p.lock || decide (p.rep ≠ .none)

/-- 2EH (30_encoding R164). -/
def execSegCs (s : State) : Host.Outcome State Fault Refusal := latchSeg .cs s
/-- 36H (30_encoding R164). -/
def execSegSs (s : State) : Host.Outcome State Fault Refusal := latchSeg .ss s
/-- 3EH (30_encoding R164). -/
def execSegDs (s : State) : Host.Outcome State Fault Refusal := latchSeg .ds s
/-- 26H (30_encoding R164). -/
def execSegEs (s : State) : Host.Outcome State Fault Refusal := latchSeg .es s
/-- 64H (30_encoding R164). -/
def execSegFs (s : State) : Host.Outcome State Fault Refusal := latchSeg .fs s
/-- 65H (30_encoding R164). -/
def execSegGs (s : State) : Host.Outcome State Fault Refusal := latchSeg .gs s
/-- 66H (30_encoding R165). -/
def execOpSize (s : State) : Host.Outcome State Fault Refusal := latch s.pfx.opsz { s.pfx with opsz := true } s
/-- 67H (30_encoding R165). -/
def execAdSize (s : State) : Host.Outcome State Fault Refusal := latch s.pfx.adsz { s.pfx with adsz := true } s
/-- LOCK (45_int R485). -/
def execLock (s : State) : Host.Outcome State Fault Refusal := latch s.pfx.group1 { s.pfx with lock := true } s
/-- REP, REPE (48_int R614). -/
def execRep (s : State) : Host.Outcome State Fault Refusal := latch s.pfx.group1 { s.pfx with rep := .rep } s
/-- REPNE (48_int R614). -/
def execRepne (s : State) : Host.Outcome State Fault Refusal := latch s.pfx.group1 { s.pfx with rep := .repne } s

/-- A blank cell of the opcode maps: #UD (30_encoding R215; Table 3-2 of 60_exceptions R700 "reserved opcode").
Log 11. -/
def execReserved (_cell : BlankCell) (s : State) : Host.Outcome State Fault Refusal := takeExc .ud s
/-- 0F B9: #UD (30_encoding R216). -/
def execInvalidOpcode (s : State) : Host.Outcome State Fault Refusal := takeExc .ud s
/-- UD2 (49_int R657). -/
def execUd2 (s : State) : Host.Outcome State Fault Refusal := takeExc .ud s
/-- RSM outside system management mode, which the model never enters (48_int R619, D27). -/
def execRsm (s : State) : Host.Outcome State Fault Refusal := takeExc .ud s
/-- NOP (46_int R520). -/
def execNop (s : State) : Host.Outcome State Fault Refusal := run (pure ()) s

end Sys2Proof.Machine
end

