-- ==== Sys2Proof/Machine/Strings.lean ====
section
/-! DEFINITION. String instructions and port input and output (spec 41_int R294, 44_int R443, R445, 45_int R486, 46_int
R515, R523, R524, 48_int R614, 49_int R643, R653; 20_memory R140, R141). -/

namespace Sys2Proof.Machine

/-! ## Repetition (48_int R614) -/

/-- The loop goes on after an iteration that left the count at `n` and the flag at `zf`. -/
def repContinues (pre : Rep) (isCmp : Bool) (n : Dword) (zf : Bool) : Bool :=
  n != 0#32 && match pre with
    | .none => false
    | .rep => !isCmp || zf
    | .repne => !isCmp || !zf

/-- One step of a string instruction: without a repeat prefix its one iteration; with one, an iteration unless the
count is 0, and EIP stays while the loop goes on. -/
def repeated (isCmp : Bool) (body : M Unit) : M Unit := do
  let s ← get
  if s.pfx.rep = .none then body
  else if s.regA .ecx = 0#32 then pure ()
  else
    body
    modify (fun s => s.setRegA .ecx (s.regA .ecx - 1))
    let t ← get
    if repContinues t.pfx.rep isCmp (t.regA .ecx) t.flags.zf then setNpc t.eip else pure ()

/-- Move a pointer register past an element of `n` bytes, by DF. -/
def advance (r : Reg) (n : Nat) : M Unit :=
  modify (fun s =>
    let d : Dword := BitVec.ofNat 32 n
    s.setRegA r (if s.flags.df then s.regA r - d else s.regA r + d))

/-- The element at DS:(E)SI, whose segment can be overridden. -/
def readSi (sz : Sz) : M (BitVec sz.bits) := do
  let s ← get
  return BitVec.ofNat sz.bits (← readSeg s.dsSeg (s.regA .esi) sz.bytes sz.bytes)

/-- The element at ES:(E)DI. -/
def readDi (sz : Sz) : M (BitVec sz.bits) := do
  let s ← get
  return BitVec.ofNat sz.bits (← readSeg .es (s.regA .edi) sz.bytes sz.bytes)

/-- Store the element at ES:(E)DI. -/
def writeDi (sz : Sz) (v : BitVec sz.bits) : M Unit := do
  let s ← get
  writeSeg .es (s.regA .edi) sz.bytes sz.bytes v.toNat

/-! ## The string instructions, one iteration -/

/-- MOVS (46_int R515). -/
def movs (sz : Sz) : M Unit := do
  writeDi sz (← readSi sz)
  advance .esi sz.bytes
  advance .edi sz.bytes

/-- CMPS: the first operand is at (E)SI (41_int R294). -/
def cmps (sz : Sz) : M Unit := do
  let a ← readSi sz
  let b ← readDi sz
  let _ ← subOp false sz a b
  advance .esi sz.bytes
  advance .edi sz.bytes

/-- SCAS (49_int R643). -/
def scas (sz : Sz) : M Unit := do
  let b ← readDi sz
  let a ← getReg sz .eax
  let _ ← subOp false sz a b
  advance .edi sz.bytes

/-- LODS (45_int R486). -/
def lods (sz : Sz) : M Unit := do
  setReg sz .eax (← readSi sz)
  advance .esi sz.bytes

/-- STOS (49_int R653). -/
def stos (sz : Sz) : M Unit := do
  writeDi sz (← getReg sz .eax)
  advance .edi sz.bytes

/-! ## Ports -/

/-- IoRead (20_memory R140): what a port returns is a free value. -/
def ioRead (port : Word) (sz : Sz) : M (BitVec sz.bits) := do
  let v : BitVec sz.bits := (Config.ioRead (← freshNat) port sz.bytes).setWidth sz.bits
  recordIo port sz.bytes
  modify (fun s => { s with ioLog := .read port sz.bytes (v.setWidth 32) :: s.ioLog })
  return v

/-- IoWrite (20_memory R140). -/
def ioWrite (port : Word) (sz : Sz) (v : BitVec sz.bits) : M Unit := do
  recordIo port sz.bytes
  modify (fun s => { s with ioLog := .write port sz.bytes (v.setWidth 32) :: s.ioLog })

/-- The port in DX. -/
def State.dx (s : State) : Word := s.gpr.getSz .w .edx

/-- The port of IN and OUT (44_int R443, 46_int R523). -/
def State.portOf (s : State) : Port → Word
  | .imm n => n.setWidth 16
  | .dx => s.dx

/-- IN (44_int R443). -/
def input (sz : Sz) (p : Port) : M Unit := do
  let port := (← get).portOf p
  checkIo port sz.bytes
  setReg sz .eax (← ioRead port sz)

/-- OUT (46_int R523). -/
def output (sz : Sz) (p : Port) : M Unit := do
  let port := (← get).portOf p
  checkIo port sz.bytes
  ioWrite port sz (← getReg sz .eax)

/-- INS: the destination is checked before the port is read (44_int R445, D17). -/
def ins (sz : Sz) : M Unit := do
  let s ← get
  checkIo s.dx sz.bytes
  let ps ← access .es (s.regA .edi) sz.bytes sz.bytes .w
  let v ← ioRead s.dx sz
  storeAt ps v.toNat
  advance .edi sz.bytes

/-- OUTS: the memory is read before the port is written (46_int R524). -/
def outs (sz : Sz) : M Unit := do
  let s ← get
  checkIo s.dx sz.bytes
  let v ← readSi sz
  ioWrite s.dx sz v
  advance .esi sz.bytes

/-! ## Meanings -/

/-- MOVS (46_int R515). -/
def execMovs (w : Wd) (s : State) : Host.Outcome State Fault Refusal :=
  runWith false .repOnly (repeated false (movs (s.wd w))) s
/-- CMPS (41_int R294). -/
def execCmps (w : Wd) (s : State) : Host.Outcome State Fault Refusal :=
  runWith false .both (repeated true (cmps (s.wd w))) s
/-- SCAS (49_int R643). -/
def execScas (w : Wd) (s : State) : Host.Outcome State Fault Refusal :=
  runWith false .both (repeated true (scas (s.wd w))) s
/-- LODS (45_int R486). -/
def execLods (w : Wd) (s : State) : Host.Outcome State Fault Refusal :=
  runWith false .repOnly (repeated false (lods (s.wd w))) s
/-- STOS (49_int R653). -/
def execStos (w : Wd) (s : State) : Host.Outcome State Fault Refusal :=
  runWith false .repOnly (repeated false (stos (s.wd w))) s
/-- INS (44_int R445). -/
def execIns (w : Wd) (s : State) : Host.Outcome State Fault Refusal :=
  runWith false .repOnly (repeated false (ins (s.wd w))) s
/-- OUTS (46_int R524). -/
def execOuts (w : Wd) (s : State) : Host.Outcome State Fault Refusal :=
  runWith false .repOnly (repeated false (outs (s.wd w))) s
/-- IN (44_int R443). -/
def execInp (w : Wd) (p : Port) (s : State) : Host.Outcome State Fault Refusal := run (input (s.wd w) p) s
/-- OUT (46_int R523). -/
def execOutp (w : Wd) (p : Port) (s : State) : Host.Outcome State Fault Refusal := run (output (s.wd w) p) s

end Sys2Proof.Machine
end

