-- ==== Sys2Proof/Machine/System.lean ====
section
/-! DEFINITION. System instructions: flags and halting, descriptor-table and task registers, control, debug and
model-specific registers, counters, CPUID, and the selector tests (spec 40_int R237, 41_int R289 to R304, 44_int R440
to R448, 45_int R478 to R489, 46_int R511, R512, 48_int R611 to R613, 49_int R645 to R661). -/

namespace Sys2Proof.Machine

/-- The privilege check of an instruction for level 0: real-address mode passes, virtual-8086 mode never (60_exceptions
R731, R732). -/
def privileged : M Unit := do raiseIf ((← get).curPl != 0) (.gp 0)

/-- #UD outside protected mode (60_exceptions R732). -/
def protOnly : M Unit := do raiseIf (!(← get).prot) .ud

/-! ## Interrupt flag, task-switched flag, halting, caches -/

/-- The IOPL check of CLI and STI (41_int R289, 49_int R652). -/
def ioplCheck : M Unit := do
  let s ← get
  raiseIf (s.pe && decide (s.flags.iopl.toNat < s.curPl)) (.gp 0)

/-- CLI (41_int R289). -/
def cli : M Unit := do
  ioplCheck
  modifyFlags (fun f => { f with if_ := false })

/-- STI: the shadow begins where IF was 0 (49_int R652). -/
def sti : M Unit := do
  ioplCheck
  modify (fun s => { s with
    flags := { s.flags with if_ := true }
    shadow := if s.flags.if_ then s.shadow else .sti })

/-- CLTS (41_int R290). -/
def clts : M Unit := do
  privileged
  modify (fun s => { s with cr0 := s.cr0 &&& 0xFFFFFFF7#32 })

/-- HLT (44_int R440). -/
def hlt : M Unit := do
  privileged
  modify (fun s => { s with activity := .halted })

/-- INVLPG; the operand's address only is used (44_int R448). A segment register that holds a null selector gives the base it
last held. DESIGN CHOICE, log 60. -/
def invlpg (m : Rm) : M Unit := do
  let a ← needMem m
  privileged
  let s ← get
  flushPage ((s.seg.get (s.eaSeg a)).base + s.gpr.eaOff a)

/-- CLI (41_int R289). -/
def execCli (s : State) : Host.Outcome State Fault Refusal := run cli s
/-- STI (49_int R652). -/
def execSti (s : State) : Host.Outcome State Fault Refusal := run sti s
/-- CLTS (41_int R290). -/
def execClts (s : State) : Host.Outcome State Fault Refusal := run clts s
/-- HLT (44_int R440). -/
def execHlt (s : State) : Host.Outcome State Fault Refusal := run hlt s
/-- INVD: no caches are modelled (44_int R447, D31). -/
def execInvd (s : State) : Host.Outcome State Fault Refusal := run privileged s
/-- WBINVD: no caches are modelled (49_int R660, D31). -/
def execWbinvd (s : State) : Host.Outcome State Fault Refusal := run privileged s
/-- INVLPG (44_int R448). -/
def execInvlpg (m : Rm) (s : State) : Host.Outcome State Fault Refusal := run (invlpg m) s

/-! ## Descriptor-table and task registers -/

/-- The operand of LGDT and LIDT, six bytes: with operand size 16 the base has 24 bits (45_int R482; alignment 20_memory
R113). -/
def readTable (m : Rm) : M TableReg := do
  let a ← needMem m
  privileged
  let v ← readEa a 6 4
  let b : Dword := BitVec.ofNat 32 (v / 2 ^ 16)
  return { limit := BitVec.ofNat 16 v, base := if (← get).os32 then b else b &&& 0x00FFFFFF#32 }

/-- LGDT (45_int R482). -/
def lgdt (m : Rm) : M Unit := do
  let t ← readTable m
  modify (fun s => { s with gdtr := t })

/-- LIDT (45_int R482). -/
def lidt (m : Rm) : M Unit := do
  let t ← readTable m
  modify (fun s => { s with idtr := t })

/-- SGDT and SIDT: an operand of six bytes (49_int R645; alignment 20_memory R113). -/
def storeTable (t : TableReg) (m : Rm) : M Unit := do
  let a ← needMem m
  let b := if (← get).os32 then t.base else t.base &&& 0x00FFFFFF#32
  writeEa a 6 4 (t.limit.toNat + 2 ^ 16 * b.toNat)

/-- LLDT (45_int R483). -/
def lldt (src : Rm) : M Unit := do
  protOnly
  privileged
  let sel ← readWord src
  if isNull sel then modify (fun s => { s with ldtr := s.ldtr.selOnly sel })
  else
    raiseIf (selTi sel) (.gp sel)
    let d ← needDescOf sel (fun d => !d.s && d.typ == 2) (.gp sel)
    raiseIf (!d.p) (.np sel)
    modify (fun s => { s with ldtr := d.seg sel })

/-- LTR: the TSS becomes busy; there is no task switch; a null selector is #GP(0) (45_int R489, 20_memory R137). -/
def ltr (src : Rm) : M Unit := do
  protOnly
  privileged
  let sel ← readWord src
  raiseIf (isNull sel || selTi sel) (.gp sel)
  let d ← needDescOf sel Desc.availTss (.gp sel)
  raiseIf (!d.p) (.np sel)
  markBusy sel true
  let g := d.seg sel
  modify (fun s => { s with tr := { g with typ := g.typ ||| 2#4 } })

/-- SLDT (49_int R648). -/
def sldt (dst : Rm) : M Unit := do
  protOnly
  storeSelector dst (← get).ldtr.sel

/-- STR (49_int R654). -/
def str (dst : Rm) : M Unit := do
  protOnly
  storeSelector dst (← get).tr.sel

/-- LGDT (45_int R482). -/
def execLgdt (m : Rm) (s : State) : Host.Outcome State Fault Refusal := run (lgdt m) s
/-- LIDT (45_int R482). -/
def execLidt (m : Rm) (s : State) : Host.Outcome State Fault Refusal := run (lidt m) s
/-- SGDT (49_int R645). -/
def execSgdt (m : Rm) (s : State) : Host.Outcome State Fault Refusal := run (storeTable s.gdtr m) s
/-- SIDT (49_int R645). -/
def execSidt (m : Rm) (s : State) : Host.Outcome State Fault Refusal := run (storeTable s.idtr m) s
/-- LLDT (45_int R483). -/
def execLldt (src : Rm) (s : State) : Host.Outcome State Fault Refusal := run (lldt src) s
/-- LTR (45_int R489). -/
def execLtr (src : Rm) (s : State) : Host.Outcome State Fault Refusal := run (ltr src) s
/-- SLDT (49_int R648). -/
def execSldt (dst : Rm) (s : State) : Host.Outcome State Fault Refusal := run (sldt dst) s
/-- STR (49_int R654). -/
def execStr (dst : Rm) (s : State) : Host.Outcome State Fault Refusal := run (str dst) s

/-! ## Control registers (46_int R511, 45_int R484, 49_int R649) -/

/-- The bits of CR0 that can be written; the reserved ones and ET keep their values (10_state R55). -/
def cr0Mask : Dword := 0xE005002F#32

/-- Write CR0 (46_int R511). -/
def setCr0 (v : Dword) : M Unit := do
  raiseIf ((v.getLsbD 31 && !v.getLsbD 0) || (v.getLsbD 29 && !v.getLsbD 30)) (.gp 0)
  let s ← get
  let new := (v &&& cr0Mask) ||| (s.cr0 &&& ~~~cr0Mask)
  if (new ^^^ s.cr0) &&& 0x80000001#32 = 0#32 then pure () else flushTlbAll
  modify (fun s => { s with cr0 := new })
  if s.cr4Pae && !s.cr0Pg && new.getLsbD 31 then loadPdptes else pure ()

/-- Write CR3 (46_int R511). -/
def setCr3 (v : Dword) : M Unit := do
  modify (fun s => { s with cr3 := v })
  flushTlb
  let s ← get
  if s.cr4Pae && s.cr0Pg then loadPdptes else pure ()

/-- Write CR4; VME and PVI must be 0 (46_int R511; 60_exceptions R735). -/
def setCr4 (v : Dword) : M Unit := do
  raiseIf (v.extractLsb' 9 23 != 0#23) (.gp 0)
  if v.extractLsb' 0 2 ≠ 0#2 then throw (.refuse .vmePvi)
  else
    let s ← get
    if (v ^^^ s.cr4) &&& 0x000000B0#32 = 0#32 then pure () else flushTlbAll
    modify (fun s => { s with cr4 := v })
    if s.cr0Pg && !s.cr4Pae && v.getLsbD 5 then loadPdptes else pure ()

/-- A control register; the others do not exist (10_state R59). -/
def State.controlReg (s : State) : Idx8 → Option Dword
  | .i0 => some s.cr0 | .i2 => some s.cr2 | .i3 => some s.cr3 | .i4 => some s.cr4
  | .i1 | .i5 | .i6 | .i7 => none

/-- Write a control register that exists. -/
def setControlReg (n : Idx8) (v : Dword) : M Unit :=
  match n with
  | .i0 => setCr0 v
  | .i2 => modify (fun s => { s with cr2 := v })
  | .i3 => setCr3 v
  | .i4 => setCr4 v
  | .i1 | .i5 | .i6 | .i7 => raise .ud

/-- MOV to and from control registers; the status flags are undefined; a mod other than 11 is refused (46_int R511). -/
def movCr (f : MovSysForm) : M Unit := do
  match f with
  | .fromSys dst n =>
    match (← get).controlReg n with
    | none => raise .ud
    | some v => do
      privileged
      setReg .d dst v
  | .toSys n src =>
    raiseIf ((← get).controlReg n).isNone .ud
    privileged
    setControlReg n ((← get).gpr.get src)
  | .badMod _ _ => throw (.refuse .movSysMod)
  divFlags

/-- LMSW: bits 3:0; PE is not cleared (45_int R484). -/
def lmsw (src : Rm) : M Unit := do
  privileged
  let v := (← readWord src).setWidth 32 &&& 0xF#32
  let s ← get
  if v.getLsbD 0 && !s.pe then flushTlbAll else pure ()
  modify (fun s => { s with cr0 := (s.cr0 &&& 0xFFFFFFF1#32) ||| v })

/-- SMSW: the upper half of a 32-bit register is undefined (49_int R649). -/
def smsw (dst : Rm) : M Unit := do
  let s ← get
  let v : Word := s.cr0.setWidth 16
  match dst with
  | .mem a => writeEa a 2 2 v.toNat
  | .reg r => if s.os32 then setReg .d r (putLow16 (← freeDword) v) else setReg .w r v

/-- MOV to and from control registers (46_int R511). -/
def execMovCr (f : MovSysForm) (s : State) : Host.Outcome State Fault Refusal := run (movCr f) s
/-- LMSW (45_int R484). -/
def execLmsw (src : Rm) (s : State) : Host.Outcome State Fault Refusal := run (lmsw src) s
/-- SMSW (49_int R649). -/
def execSmsw (dst : Rm) (s : State) : Host.Outcome State Fault Refusal := run (smsw dst) s

/-! ## Debug registers (46_int R512) -/

/-- A debug register; DR4 and DR5 are DR6 and DR7 (10_state R63). -/
def State.debugReg (s : State) : Idx8 → Dword
  | .i0 => s.dr0 | .i1 => s.dr1 | .i2 => s.dr2 | .i3 => s.dr3
  | .i4 => s.dr6 | .i5 => s.dr7 | .i6 => s.dr6 | .i7 => s.dr7

/-- DR6 as written: its reserved bits are constant (10_state R61). -/
def dr6Of (v : Dword) : Dword := (v &&& 0xFFFFEFFF#32) ||| 0xFFFF0FF0#32
/-- DR7 as written: its reserved bits are constant (10_state R62). -/
def dr7Of (v : Dword) : Dword := (v &&& 0xFFFF23FF#32) ||| 0x00000400#32

/-- Write a debug register. -/
def State.setDebugReg (s : State) (n : Idx8) (v : Dword) : State :=
  match n with
  | .i0 => { s with dr0 := v } | .i1 => { s with dr1 := v } | .i2 => { s with dr2 := v } | .i3 => { s with dr3 := v }
  | .i4 => { s with dr6 := dr6Of v } | .i5 => { s with dr7 := dr7Of v }
  | .i6 => { s with dr6 := dr6Of v } | .i7 => { s with dr7 := dr7Of v }

/-- The number names DR4 or DR5. -/
def isDr45 (n : Idx8) : Bool := decide (n = .i4) || decide (n = .i5)

/-- The checks of MOV DR, in their order (46_int R512, D19). -/
def debugCheck (n : Idx8) : M Unit := do
  let s ← get
  raiseIf (s.cr4De && isDr45 n) .ud
  privileged
  raiseIf (s.dr7.getLsbD 13) (.db false 0x2000#32)

/-- MOV to and from debug registers; the status flags are undefined; a mod other than 11 is refused (46_int R512). -/
def movDr (f : MovSysForm) : M Unit := do
  match f with
  | .fromSys dst n =>
    debugCheck n
    setReg .d dst ((← get).debugReg n)
  | .toSys n src =>
    debugCheck n
    modify (fun s => s.setDebugReg n (s.gpr.get src))
  | .badMod _ _ => throw (.refuse .movSysMod)
  divFlags

/-- MOV to and from debug registers (46_int R512). -/
def execMovDr (f : MovSysForm) (s : State) : Host.Outcome State Fault Refusal := run (movDr f) s

/-! ## Model-specific registers and counters (10_state R64 to R66) -/

/-- The register at an index in a sorted list, or its value after reset. -/
def msrLookup : List (Dword × Qword) → Dword → Qword
  | [], i => Config.msrReset i
  | (j, v) :: t, i => if j = i then v else msrLookup t i

/-- The list with the register at an index written. -/
def msrInsert : List (Dword × Qword) → Dword → Qword → List (Dword × Qword)
  | [], i, v => [(i, v)]
  | (j, w) :: t, i, v =>
    if j = i then (i, v) :: t else if i < j then (i, v) :: (j, w) :: t else (j, w) :: msrInsert t i v

/-- A model-specific register. -/
def State.msr (s : State) (i : Dword) : Qword := if i = Config.msrTsc then s.tsc else msrLookup s.msrs i

/-- Write a model-specific register; writing the time-stamp counter sets it (R64). -/
def State.setMsr (s : State) (i : Dword) (v : Qword) : State :=
  if i = Config.msrTsc then { s with tsc := v } else { s with msrs := msrInsert s.msrs i v }

/-- #GP(0) where the index names no register (R66). -/
def msrCheck (i : Dword) : M Unit := raiseIf (decide (i ≠ Config.msrTsc) && !Config.msrExists i) (.gp 0)

/-- The bits of a register that are undefined when read; the time-stamp counter has all 64 (48_int R611). -/
def msrUndefined (i : Dword) : Qword := if i = Config.msrTsc then 0#64 else Config.msrMissing i
/-- The bits of a register that a write may not change (49_int R661); one that is undefined when read never faults. DESIGN
CHOICE, log 4. -/
def msrFixed (i : Dword) : Qword :=
  if i = Config.msrTsc then 0#64 else Config.msrReserved i &&& ~~~Config.msrMissing i

/-- Put a quadword in EDX:EAX. -/
def setEdxEax (v : Qword) : M Unit := do
  setReg .d .eax (v.extractLsb' 0 32)
  setReg .d .edx (v.extractLsb' 32 32)

/-- RDMSR (48_int R611). -/
def rdmsr : M Unit := do
  privileged
  let i := (← get).gpr.ecx
  msrCheck i
  let hi ← freeDword
  let lo ← freeDword
  let u := msrUndefined i
  setEdxEax (((← get).msr i &&& ~~~u) ||| ((hi ++ lo) &&& u))

/-- WRMSR (49_int R661). -/
def wrmsr : M Unit := do
  privileged
  let s ← get
  let i := s.gpr.ecx
  msrCheck i
  let v : Qword := s.gpr.edx ++ s.gpr.eax
  raiseIf ((v ^^^ s.msr i) &&& msrFixed i != 0#64) (.gp 0)
  modify (fun s => s.setMsr i v)
  if i ≠ Config.msrTsc ∧ Config.msrIsMtrr i then flushTlbAll else pure ()

/-- RDPMC (48_int R612). -/
def rdpmc : M Unit := do
  let s ← get
  let i := s.gpr.ecx
  raiseIf (!((i == 0#32 || i == 1#32) && (s.cr4Pce || s.curPl == 0))) (.gp 0)
  setEdxEax ((if i = 0#32 then s.pmc0 else s.pmc1).setWidth 64)

/-- RDTSC (48_int R613). -/
def rdtsc : M Unit := do
  let s ← get
  raiseIf (s.cr4Tsd && s.curPl != 0) (.gp 0)
  setEdxEax s.tsc

/-- Write EAX, EBX, ECX and EDX. -/
def setAbcd (a b c d : Dword) : M Unit :=
  modify (fun s => { s with gpr := { s.gpr with eax := a, ebx := b, ecx := c, edx := d } })

/-- CPUID (41_int R300 to R304). -/
def cpuid : M Unit := do
  let i := (← get).gpr.eax
  if i = 0#32 then setAbcd 2#32 0x756E6547#32 0x6C65746E#32 0x49656E69#32
  else if i = 1#32 then
    setAbcd 0x00000611#32 (← freeDword) (← freeDword) (0x0080A1FF#32 ||| (Config.cpuidPlatform &&& 0x5200#32))
  else if i = 2#32 then setAbcd 0x03020101#32 0#32 0#32 0x06040A42#32
  else setAbcd (← freeDword) (← freeDword) (← freeDword) (← freeDword)

/-- RDMSR (48_int R611). -/
def execRdmsr (s : State) : Host.Outcome State Fault Refusal := run rdmsr s
/-- WRMSR (49_int R661). -/
def execWrmsr (s : State) : Host.Outcome State Fault Refusal := run wrmsr s
/-- RDPMC (48_int R612). -/
def execRdpmc (s : State) : Host.Outcome State Fault Refusal := run rdpmc s
/-- RDTSC (48_int R613). -/
def execRdtsc (s : State) : Host.Outcome State Fault Refusal := run rdtsc s
/-- CPUID (41_int R303). -/
def execCpuid (s : State) : Host.Outcome State Fault Refusal := run cpuid s

/-! ## Selector tests -/

/-- The descriptor a selector test may use: not null, in its table, of an accepted kind, and not more privileged
unless it is conforming code (45_int R478, R488; 49_int R658). -/
def testDesc (sel : Word) (ok : Desc → Bool) : M (Option Desc) := do
  if isNull sel then return none
  else
    match ← readDesc sel with
    | none => return none
    | some d =>
      let cpl := (← get).curPl
      if ok d && ((d.isCode && d.conf) || (decide (cpl ≤ d.dpl) && decide (rpl sel ≤ d.dpl))) then return some d
      else return none

/-- Set ZF. -/
def setZf (b : Bool) : M Unit := modifyFlags (fun f => { f with zf := b })

/-- The system descriptors LAR accepts, besides code and data (45_int R478). -/
def larOk (d : Desc) : Bool := d.s || [1, 2, 3, 4, 5, 9, 11, 12].contains d.typ
/-- The system descriptors LSL accepts, besides code and data (45_int R488). -/
def lslOk (d : Desc) : Bool := d.s || [1, 2, 3, 9, 11].contains d.typ

/-- LAR: bits 19:16 of a 32-bit result may have any value (45_int R478). -/
def lar (dst : Reg) (src : Rm) : M Unit := do
  protOnly
  let sel ← readWord src
  match ← testDesc sel larOk with
  | none => setZf false
  | some d =>
    let sz := (← get).osz
    let hi : Dword := d.raw.extractLsb' 32 32
    let v := (hi &&& 0x00F0FF00#32) ||| ((← freeDword) &&& 0x000F0000#32)
    setReg sz dst (v.setWidth sz.bits)
    setZf true

/-- LSL (45_int R488). -/
def lsl (dst : Reg) (src : Rm) : M Unit := do
  protOnly
  let sel ← readWord src
  match ← testDesc sel lslOk with
  | none => setZf false
  | some d =>
    let sz := (← get).osz
    setReg sz dst ((d.seg sel).limit.setWidth sz.bits)
    setZf true

/-- VERR and VERW, by what the segment must allow (49_int R658). -/
def verify (ok : Desc → Bool) (src : Rm) : M Unit := do
  protOnly
  let sel ← readWord src
  setZf (← testDesc sel (fun d => d.s && ok d)).isSome

/-- ARPL: the destination is checked for writing in both cases (40_int R237, D7); where it is not written the check still
sets the page's dirty bit and matches a write breakpoint. DESIGN CHOICE, log 55. -/
def arpl (dst : Rm) (src : Reg) : M Unit := do
  protOnly
  let l ← locate .w dst .rw
  let d : Word ← l.read .w
  let r : Word ← getReg .w src
  if rpl d < rpl r then
    setZf true
    l.write .w (withRpl d (rpl r))
  else setZf false

/-- LAR (45_int R478). -/
def execLar (dst : Reg) (src : Rm) (s : State) : Host.Outcome State Fault Refusal := run (lar dst src) s
/-- LSL (45_int R488). -/
def execLsl (dst : Reg) (src : Rm) (s : State) : Host.Outcome State Fault Refusal := run (lsl dst src) s
/-- VERR (49_int R658). -/
def execVerr (src : Rm) (s : State) : Host.Outcome State Fault Refusal := run (verify Desc.readable src) s
/-- VERW (49_int R658). -/
def execVerw (src : Rm) (s : State) : Host.Outcome State Fault Refusal := run (verify Desc.writable src) s
/-- ARPL (40_int R237). -/
def execArpl (dst : Rm) (src : Reg) (s : State) : Host.Outcome State Fault Refusal := run (arpl dst src) s

end Sys2Proof.Machine
end

