-- ==== Sys2Proof/Machine/Dispatch.lean ====
section
/-! DEFINITION. The instruction dispatch: one arm per constructor, each one direct call of its meaning. -/

namespace Sys2Proof.Machine

/-- Run one instruction. -/
def exec (i : Instr) (s : State) : Host.Outcome State Fault Refusal :=
  match i with
  | .reserved cell => Sys2Proof.Machine.execReserved cell s
  | .aad base => Sys2Proof.Machine.execAad base s
  | .aam base => Sys2Proof.Machine.execAam base s
  | .adc f => Sys2Proof.Machine.execAdc f s
  | .add f => Sys2Proof.Machine.execAdd f s
  | .and_ f => Sys2Proof.Machine.execAnd f s
  | .arpl dst src => Sys2Proof.Machine.execArpl dst src s
  | .bound r bnd => Sys2Proof.Machine.execBound r bnd s
  | .bsf dst src => Sys2Proof.Machine.execBsf dst src s
  | .bsr dst src => Sys2Proof.Machine.execBsr dst src s
  | .bswap r => Sys2Proof.Machine.execBswap r s
  | .bt f => Sys2Proof.Machine.execBt f s
  | .btc f => Sys2Proof.Machine.execBtc f s
  | .btr f => Sys2Proof.Machine.execBtr f s
  | .bts f => Sys2Proof.Machine.execBts f s
  | .call f => Sys2Proof.Machine.execCall f s
  | .cmovo dst src => Sys2Proof.Machine.execCmovo dst src s
  | .cmovno dst src => Sys2Proof.Machine.execCmovno dst src s
  | .cmovb dst src => Sys2Proof.Machine.execCmovb dst src s
  | .cmovae dst src => Sys2Proof.Machine.execCmovae dst src s
  | .cmove dst src => Sys2Proof.Machine.execCmove dst src s
  | .cmovne dst src => Sys2Proof.Machine.execCmovne dst src s
  | .cmovbe dst src => Sys2Proof.Machine.execCmovbe dst src s
  | .cmova dst src => Sys2Proof.Machine.execCmova dst src s
  | .cmovs dst src => Sys2Proof.Machine.execCmovs dst src s
  | .cmovns dst src => Sys2Proof.Machine.execCmovns dst src s
  | .cmovp dst src => Sys2Proof.Machine.execCmovp dst src s
  | .cmovnp dst src => Sys2Proof.Machine.execCmovnp dst src s
  | .cmovl dst src => Sys2Proof.Machine.execCmovl dst src s
  | .cmovge dst src => Sys2Proof.Machine.execCmovge dst src s
  | .cmovle dst src => Sys2Proof.Machine.execCmovle dst src s
  | .cmovg dst src => Sys2Proof.Machine.execCmovg dst src s
  | .cmp f => Sys2Proof.Machine.execCmp f s
  | .cmps w => Sys2Proof.Machine.execCmps w s
  | .cmpxchg w dst src => Sys2Proof.Machine.execCmpxchg w dst src s
  | .cmpxchg8b m => Sys2Proof.Machine.execCmpxchg8b m s
  | .dec f => Sys2Proof.Machine.execDec f s
  | .div w src => Sys2Proof.Machine.execDiv w src s
  | .enter size level => Sys2Proof.Machine.execEnter size level s
  | .fadd f => Sys2Proof.Machine.execFadd f s
  | .faddp k => Sys2Proof.Machine.execFaddp k s
  | .fiadd f => Sys2Proof.Machine.execFiadd f s
  | .fbld m => Sys2Proof.Machine.execFbld m s
  | .fbstp m => Sys2Proof.Machine.execFbstp m s
  | .fcmovb k => Sys2Proof.Machine.execFcmovb k s
  | .fcmove k => Sys2Proof.Machine.execFcmove k s
  | .fcmovbe k => Sys2Proof.Machine.execFcmovbe k s
  | .fcmovu k => Sys2Proof.Machine.execFcmovu k s
  | .fcmovnb k => Sys2Proof.Machine.execFcmovnb k s
  | .fcmovne k => Sys2Proof.Machine.execFcmovne k s
  | .fcmovnbe k => Sys2Proof.Machine.execFcmovnbe k s
  | .fcmovnu k => Sys2Proof.Machine.execFcmovnu k s
  | .fcom f => Sys2Proof.Machine.execFcom f s
  | .fcomp f => Sys2Proof.Machine.execFcomp f s
  | .fcomi k => Sys2Proof.Machine.execFcomi k s
  | .fcomip k => Sys2Proof.Machine.execFcomip k s
  | .fucomi k => Sys2Proof.Machine.execFucomi k s
  | .fucomip k => Sys2Proof.Machine.execFucomip k s
  | .fdiv f => Sys2Proof.Machine.execFdiv f s
  | .fdivp k => Sys2Proof.Machine.execFdivp k s
  | .fidiv f => Sys2Proof.Machine.execFidiv f s
  | .fdivr f => Sys2Proof.Machine.execFdivr f s
  | .fdivrp k => Sys2Proof.Machine.execFdivrp k s
  | .fidivr f => Sys2Proof.Machine.execFidivr f s
  | .ffree k => Sys2Proof.Machine.execFfree k s
  | .ficom f => Sys2Proof.Machine.execFicom f s
  | .ficomp f => Sys2Proof.Machine.execFicomp f s
  | .fild f => Sys2Proof.Machine.execFild f s
  | .fist f => Sys2Proof.Machine.execFist f s
  | .fistp f => Sys2Proof.Machine.execFistp f s
  | .fld f => Sys2Proof.Machine.execFld f s
  | .fldcw m => Sys2Proof.Machine.execFldcw m s
  | .fldenv m => Sys2Proof.Machine.execFldenv m s
  | .fmul f => Sys2Proof.Machine.execFmul f s
  | .fmulp k => Sys2Proof.Machine.execFmulp k s
  | .fimul f => Sys2Proof.Machine.execFimul f s
  | .frstor m => Sys2Proof.Machine.execFrstor m s
  | .fsave m => Sys2Proof.Machine.execFsave m s
  | .fnsave m => Sys2Proof.Machine.execFnsave m s
  | .fst f => Sys2Proof.Machine.execFst f s
  | .fstp f => Sys2Proof.Machine.execFstp f s
  | .fstcw m => Sys2Proof.Machine.execFstcw m s
  | .fnstcw m => Sys2Proof.Machine.execFnstcw m s
  | .fstenv m => Sys2Proof.Machine.execFstenv m s
  | .fnstenv m => Sys2Proof.Machine.execFnstenv m s
  | .fstsw f => Sys2Proof.Machine.execFstsw f s
  | .fnstsw f => Sys2Proof.Machine.execFnstsw f s
  | .fsub f => Sys2Proof.Machine.execFsub f s
  | .fsubp k => Sys2Proof.Machine.execFsubp k s
  | .fisub f => Sys2Proof.Machine.execFisub f s
  | .fsubr f => Sys2Proof.Machine.execFsubr f s
  | .fsubrp k => Sys2Proof.Machine.execFsubrp k s
  | .fisubr f => Sys2Proof.Machine.execFisubr f s
  | .fucom k => Sys2Proof.Machine.execFucom k s
  | .fucomp k => Sys2Proof.Machine.execFucomp k s
  | .fxch k => Sys2Proof.Machine.execFxch k s
  | .idiv w src => Sys2Proof.Machine.execIdiv w src s
  | .imul f => Sys2Proof.Machine.execImul f s
  | .inp w p => Sys2Proof.Machine.execInp w p s
  | .inc f => Sys2Proof.Machine.execInc f s
  | .ins w => Sys2Proof.Machine.execIns w s
  | .intN n => Sys2Proof.Machine.execIntN n s
  | .invlpg m => Sys2Proof.Machine.execInvlpg m s
  | .jo t => Sys2Proof.Machine.execJo t s
  | .jno t => Sys2Proof.Machine.execJno t s
  | .jb t => Sys2Proof.Machine.execJb t s
  | .jae t => Sys2Proof.Machine.execJae t s
  | .je t => Sys2Proof.Machine.execJe t s
  | .jne t => Sys2Proof.Machine.execJne t s
  | .jbe t => Sys2Proof.Machine.execJbe t s
  | .ja t => Sys2Proof.Machine.execJa t s
  | .js t => Sys2Proof.Machine.execJs t s
  | .jns t => Sys2Proof.Machine.execJns t s
  | .jp t => Sys2Proof.Machine.execJp t s
  | .jnp t => Sys2Proof.Machine.execJnp t s
  | .jl t => Sys2Proof.Machine.execJl t s
  | .jge t => Sys2Proof.Machine.execJge t s
  | .jle t => Sys2Proof.Machine.execJle t s
  | .jg t => Sys2Proof.Machine.execJg t s
  | .jcxz rel => Sys2Proof.Machine.execJcxz rel s
  | .jecxz rel => Sys2Proof.Machine.execJecxz rel s
  | .jmp f => Sys2Proof.Machine.execJmp f s
  | .lar dst src => Sys2Proof.Machine.execLar dst src s
  | .lds dst m => Sys2Proof.Machine.execLds dst m s
  | .les dst m => Sys2Proof.Machine.execLes dst m s
  | .lss dst m => Sys2Proof.Machine.execLss dst m s
  | .lfs dst m => Sys2Proof.Machine.execLfs dst m s
  | .lgs dst m => Sys2Proof.Machine.execLgs dst m s
  | .lea dst m => Sys2Proof.Machine.execLea dst m s
  | .lgdt m => Sys2Proof.Machine.execLgdt m s
  | .lidt m => Sys2Proof.Machine.execLidt m s
  | .lldt src => Sys2Proof.Machine.execLldt src s
  | .lmsw src => Sys2Proof.Machine.execLmsw src s
  | .lods w => Sys2Proof.Machine.execLods w s
  | .loop rel => Sys2Proof.Machine.execLoop rel s
  | .loope rel => Sys2Proof.Machine.execLoope rel s
  | .loopne rel => Sys2Proof.Machine.execLoopne rel s
  | .lsl dst src => Sys2Proof.Machine.execLsl dst src s
  | .ltr src => Sys2Proof.Machine.execLtr src s
  | .mov f => Sys2Proof.Machine.execMov f s
  | .movSreg f => Sys2Proof.Machine.execMovSreg f s
  | .movCr f => Sys2Proof.Machine.execMovCr f s
  | .movDr f => Sys2Proof.Machine.execMovDr f s
  | .movd f => Sys2Proof.Machine.execMovd f s
  | .movq f => Sys2Proof.Machine.execMovq f s
  | .movs w => Sys2Proof.Machine.execMovs w s
  | .movsx w dst src => Sys2Proof.Machine.execMovsx w dst src s
  | .movzx w dst src => Sys2Proof.Machine.execMovzx w dst src s
  | .mul w src => Sys2Proof.Machine.execMul w src s
  | .neg w dst => Sys2Proof.Machine.execNeg w dst s
  | .not_ w dst => Sys2Proof.Machine.execNot w dst s
  | .or_ f => Sys2Proof.Machine.execOr f s
  | .outp w p => Sys2Proof.Machine.execOutp w p s
  | .outs w => Sys2Proof.Machine.execOuts w s
  | .packsswb d src => Sys2Proof.Machine.execPacksswb d src s
  | .packssdw d src => Sys2Proof.Machine.execPackssdw d src s
  | .packuswb d src => Sys2Proof.Machine.execPackuswb d src s
  | .paddb d src => Sys2Proof.Machine.execPaddb d src s
  | .paddw d src => Sys2Proof.Machine.execPaddw d src s
  | .paddd d src => Sys2Proof.Machine.execPaddd d src s
  | .paddsb d src => Sys2Proof.Machine.execPaddsb d src s
  | .paddsw d src => Sys2Proof.Machine.execPaddsw d src s
  | .paddusb d src => Sys2Proof.Machine.execPaddusb d src s
  | .paddusw d src => Sys2Proof.Machine.execPaddusw d src s
  | .pand d src => Sys2Proof.Machine.execPand d src s
  | .pandn d src => Sys2Proof.Machine.execPandn d src s
  | .pcmpeqb d src => Sys2Proof.Machine.execPcmpeqb d src s
  | .pcmpeqw d src => Sys2Proof.Machine.execPcmpeqw d src s
  | .pcmpeqd d src => Sys2Proof.Machine.execPcmpeqd d src s
  | .pcmpgtb d src => Sys2Proof.Machine.execPcmpgtb d src s
  | .pcmpgtw d src => Sys2Proof.Machine.execPcmpgtw d src s
  | .pcmpgtd d src => Sys2Proof.Machine.execPcmpgtd d src s
  | .pmaddwd d src => Sys2Proof.Machine.execPmaddwd d src s
  | .pmulhw d src => Sys2Proof.Machine.execPmulhw d src s
  | .pmullw d src => Sys2Proof.Machine.execPmullw d src s
  | .por d src => Sys2Proof.Machine.execPor d src s
  | .psllw f => Sys2Proof.Machine.execPsllw f s
  | .pslld f => Sys2Proof.Machine.execPslld f s
  | .psllq f => Sys2Proof.Machine.execPsllq f s
  | .psraw f => Sys2Proof.Machine.execPsraw f s
  | .psrad f => Sys2Proof.Machine.execPsrad f s
  | .psrlw f => Sys2Proof.Machine.execPsrlw f s
  | .psrld f => Sys2Proof.Machine.execPsrld f s
  | .psrlq f => Sys2Proof.Machine.execPsrlq f s
  | .psubb d src => Sys2Proof.Machine.execPsubb d src s
  | .psubw d src => Sys2Proof.Machine.execPsubw d src s
  | .psubd d src => Sys2Proof.Machine.execPsubd d src s
  | .psubsb d src => Sys2Proof.Machine.execPsubsb d src s
  | .psubsw d src => Sys2Proof.Machine.execPsubsw d src s
  | .psubusb d src => Sys2Proof.Machine.execPsubusb d src s
  | .psubusw d src => Sys2Proof.Machine.execPsubusw d src s
  | .punpckhbw d src => Sys2Proof.Machine.execPunpckhbw d src s
  | .punpckhwd d src => Sys2Proof.Machine.execPunpckhwd d src s
  | .punpckhdq d src => Sys2Proof.Machine.execPunpckhdq d src s
  | .punpcklbw d src => Sys2Proof.Machine.execPunpcklbw d src s
  | .punpcklwd d src => Sys2Proof.Machine.execPunpcklwd d src s
  | .punpckldq d src => Sys2Proof.Machine.execPunpckldq d src s
  | .pxor d src => Sys2Proof.Machine.execPxor d src s
  | .pop f => Sys2Proof.Machine.execPop f s
  | .push f => Sys2Proof.Machine.execPush f s
  | .rol f => Sys2Proof.Machine.execRol f s
  | .ror f => Sys2Proof.Machine.execRor f s
  | .rcl f => Sys2Proof.Machine.execRcl f s
  | .rcr f => Sys2Proof.Machine.execRcr f s
  | .ret f => Sys2Proof.Machine.execRet f s
  | .salShl f => Sys2Proof.Machine.execSalShl f s
  | .shr f => Sys2Proof.Machine.execShr f s
  | .sar f => Sys2Proof.Machine.execSar f s
  | .sbb f => Sys2Proof.Machine.execSbb f s
  | .scas w => Sys2Proof.Machine.execScas w s
  | .seto dst => Sys2Proof.Machine.execSeto dst s
  | .setno dst => Sys2Proof.Machine.execSetno dst s
  | .setb dst => Sys2Proof.Machine.execSetb dst s
  | .setae dst => Sys2Proof.Machine.execSetae dst s
  | .sete dst => Sys2Proof.Machine.execSete dst s
  | .setne dst => Sys2Proof.Machine.execSetne dst s
  | .setbe dst => Sys2Proof.Machine.execSetbe dst s
  | .seta dst => Sys2Proof.Machine.execSeta dst s
  | .sets dst => Sys2Proof.Machine.execSets dst s
  | .setns dst => Sys2Proof.Machine.execSetns dst s
  | .setp dst => Sys2Proof.Machine.execSetp dst s
  | .setnp dst => Sys2Proof.Machine.execSetnp dst s
  | .setl dst => Sys2Proof.Machine.execSetl dst s
  | .setge dst => Sys2Proof.Machine.execSetge dst s
  | .setle dst => Sys2Proof.Machine.execSetle dst s
  | .setg dst => Sys2Proof.Machine.execSetg dst s
  | .sgdt m => Sys2Proof.Machine.execSgdt m s
  | .sidt m => Sys2Proof.Machine.execSidt m s
  | .shld f => Sys2Proof.Machine.execShld f s
  | .shrd f => Sys2Proof.Machine.execShrd f s
  | .sldt dst => Sys2Proof.Machine.execSldt dst s
  | .smsw dst => Sys2Proof.Machine.execSmsw dst s
  | .stos w => Sys2Proof.Machine.execStos w s
  | .str dst => Sys2Proof.Machine.execStr dst s
  | .sub f => Sys2Proof.Machine.execSub f s
  | .test f => Sys2Proof.Machine.execTest f s
  | .verr src => Sys2Proof.Machine.execVerr src s
  | .verw src => Sys2Proof.Machine.execVerw src s
  | .xadd w dst src => Sys2Proof.Machine.execXadd w dst src s
  | .xchg f => Sys2Proof.Machine.execXchg f s
  | .xor_ f => Sys2Proof.Machine.execXor f s
  | .segCs => Sys2Proof.Machine.execSegCs s
  | .segSs => Sys2Proof.Machine.execSegSs s
  | .segDs => Sys2Proof.Machine.execSegDs s
  | .segEs => Sys2Proof.Machine.execSegEs s
  | .segFs => Sys2Proof.Machine.execSegFs s
  | .segGs => Sys2Proof.Machine.execSegGs s
  | .opSize => Sys2Proof.Machine.execOpSize s
  | .adSize => Sys2Proof.Machine.execAdSize s
  | .lock => Sys2Proof.Machine.execLock s
  | .rep => Sys2Proof.Machine.execRep s
  | .repne => Sys2Proof.Machine.execRepne s
  | .invalidOpcode => Sys2Proof.Machine.execInvalidOpcode s
  | .aaa => Sys2Proof.Machine.execAaa s
  | .aas => Sys2Proof.Machine.execAas s
  | .cbw => Sys2Proof.Machine.execCbw s
  | .cwde => Sys2Proof.Machine.execCwde s
  | .clc => Sys2Proof.Machine.execClc s
  | .cld => Sys2Proof.Machine.execCld s
  | .cli => Sys2Proof.Machine.execCli s
  | .clts => Sys2Proof.Machine.execClts s
  | .cmc => Sys2Proof.Machine.execCmc s
  | .cpuid => Sys2Proof.Machine.execCpuid s
  | .cwd => Sys2Proof.Machine.execCwd s
  | .cdq => Sys2Proof.Machine.execCdq s
  | .daa => Sys2Proof.Machine.execDaa s
  | .das => Sys2Proof.Machine.execDas s
  | .emms => Sys2Proof.Machine.execEmms s
  | .f2xm1 => Sys2Proof.Machine.execF2xm1 s
  | .fabs => Sys2Proof.Machine.execFabs s
  | .fchs => Sys2Proof.Machine.execFchs s
  | .fclex => Sys2Proof.Machine.execFclex s
  | .fnclex => Sys2Proof.Machine.execFnclex s
  | .fcompp => Sys2Proof.Machine.execFcompp s
  | .fcos => Sys2Proof.Machine.execFcos s
  | .fdecstp => Sys2Proof.Machine.execFdecstp s
  | .fincstp => Sys2Proof.Machine.execFincstp s
  | .finit => Sys2Proof.Machine.execFinit s
  | .fninit => Sys2Proof.Machine.execFninit s
  | .fld1 => Sys2Proof.Machine.execFld1 s
  | .fldl2t => Sys2Proof.Machine.execFldl2t s
  | .fldl2e => Sys2Proof.Machine.execFldl2e s
  | .fldpi => Sys2Proof.Machine.execFldpi s
  | .fldlg2 => Sys2Proof.Machine.execFldlg2 s
  | .fldln2 => Sys2Proof.Machine.execFldln2 s
  | .fldz => Sys2Proof.Machine.execFldz s
  | .fnop => Sys2Proof.Machine.execFnop s
  | .fpatan => Sys2Proof.Machine.execFpatan s
  | .fprem => Sys2Proof.Machine.execFprem s
  | .fprem1 => Sys2Proof.Machine.execFprem1 s
  | .fptan => Sys2Proof.Machine.execFptan s
  | .frndint => Sys2Proof.Machine.execFrndint s
  | .fscale => Sys2Proof.Machine.execFscale s
  | .fsin => Sys2Proof.Machine.execFsin s
  | .fsincos => Sys2Proof.Machine.execFsincos s
  | .fsqrt => Sys2Proof.Machine.execFsqrt s
  | .ftst => Sys2Proof.Machine.execFtst s
  | .fucompp => Sys2Proof.Machine.execFucompp s
  | .fxam => Sys2Proof.Machine.execFxam s
  | .fxtract => Sys2Proof.Machine.execFxtract s
  | .fyl2x => Sys2Proof.Machine.execFyl2x s
  | .fyl2xp1 => Sys2Proof.Machine.execFyl2xp1 s
  | .hlt => Sys2Proof.Machine.execHlt s
  | .int3 => Sys2Proof.Machine.execInt3 s
  | .into => Sys2Proof.Machine.execInto s
  | .invd => Sys2Proof.Machine.execInvd s
  | .iret => Sys2Proof.Machine.execIret s
  | .iretd => Sys2Proof.Machine.execIretd s
  | .lahf => Sys2Proof.Machine.execLahf s
  | .leave => Sys2Proof.Machine.execLeave s
  | .nop => Sys2Proof.Machine.execNop s
  | .popa => Sys2Proof.Machine.execPopa s
  | .popad => Sys2Proof.Machine.execPopad s
  | .popf => Sys2Proof.Machine.execPopf s
  | .popfd => Sys2Proof.Machine.execPopfd s
  | .pusha => Sys2Proof.Machine.execPusha s
  | .pushad => Sys2Proof.Machine.execPushad s
  | .pushf => Sys2Proof.Machine.execPushf s
  | .pushfd => Sys2Proof.Machine.execPushfd s
  | .rdmsr => Sys2Proof.Machine.execRdmsr s
  | .rdpmc => Sys2Proof.Machine.execRdpmc s
  | .rdtsc => Sys2Proof.Machine.execRdtsc s
  | .rsm => Sys2Proof.Machine.execRsm s
  | .sahf => Sys2Proof.Machine.execSahf s
  | .stc => Sys2Proof.Machine.execStc s
  | .std => Sys2Proof.Machine.execStd s
  | .sti => Sys2Proof.Machine.execSti s
  | .ud2 => Sys2Proof.Machine.execUd2 s
  | .wait => Sys2Proof.Machine.execWait s
  | .wbinvd => Sys2Proof.Machine.execWbinvd s
  | .wrmsr => Sys2Proof.Machine.execWrmsr s
  | .xlat => Sys2Proof.Machine.execXlat s

end Sys2Proof.Machine
end

