-- ==== Sys2Proof/Safety.lean ====
section
/-! DEFINITION. The vocabulary of the statements: what an outcome satisfies, reading and writing a located operand as
plain functions, and the end of an instruction. -/

namespace Sys2Proof.Machine

/-- The outcome is a next state that satisfies `P`. -/
def nextSat (o : Host.Outcome State Fault Refusal) (P : State → Prop) : Prop := ∃ t, o = .next t ∧ P t

/-- Whenever the outcome is a next state, it satisfies `P`. -/
def everyNext (o : Host.Outcome State Fault Refusal) (P : State → Prop) : Prop := ∀ t, o = .next t → P t

/-- Indices strictly rise. -/
def msrsSorted : List (Dword × Qword) → Prop
  | [] => True
  | [_] => True
  | (i, _) :: (j, w) :: t => i.toNat < j.toNat ∧ msrsSorted ((j, w) :: t)

/-- The states a machine that has been reset stays in: memory in its canonical form (20_memory R100), one entry for each
model-specific register, paging only in protected mode and not-write-through only with the cache disabled (46_int R511),
CR0.ET 1, the reserved bits of CR4 and DR7 constant, and the FPU control word's bit 6 set (10_state R55, R58, R62, R72). -/
structure State.Legal (s : State) : Prop where
  memory : s.mem.wf = true
  msrs : msrsSorted s.msrs
  paging : s.cr0.getLsbD 31 = true → s.cr0.getLsbD 0 = true
  caching : s.cr0.getLsbD 29 = true → s.cr0.getLsbD 30 = true
  et : s.cr0.getLsbD 4 = true
  cr4 : s.cr4 &&& 0xFFFFFE03#32 = 0#32
  dr7 : s.dr7 &&& 0x0000DC00#32 = 0x00000400#32
  cw : s.fpu.cw.getLsbD 6 = true

/-- The registers that only level 0 may change are the same: GDTR, IDTR, CR0 but for TS, CR4, the breakpoint addresses,
and the model-specific registers. -/
structure State.SameSystem (s t : State) : Prop where
  gdtr : t.gdtr = s.gdtr
  idtr : t.idtr = s.idtr
  cr0 : t.cr0 ||| 0x00000008#32 = s.cr0 ||| 0x00000008#32
  cr4 : t.cr4 = s.cr4
  dr0 : t.dr0 = s.dr0
  dr1 : t.dr1 = s.dr1
  dr2 : t.dr2 = s.dr2
  dr3 : t.dr3 = s.dr3
  msrs : t.msrs = s.msrs

/-- The instructions that write the registers of level 0. -/
def writesSystem : Instr → Bool
  | .lgdt _ | .lidt _ | .movCr _ | .lmsw _ | .movDr _ | .wrmsr => true
  | _ => false

/-- What an access that succeeds may change besides what it is for: accessed and dirty bits of the paging structures and
the translations cached (20_memory R122, R127), and the MODEL's own latches, among them what reading devices leaves (R155,
R156). -/
structure Walked (s t : State) : Prop where
  rest : t = { s with mem := t.mem, tlb := t.tlb, fresh := t.fresh, adLog := t.adLog, dbgHits := t.dbgHits
                      ioLog := t.ioLog }
  wf : s.mem.wf = true → t.mem.wf = true
  bits : s.mem.wf = true → ∀ a, s.isRam a = true → t.mem.read a &&& 0x9F#8 = s.mem.read a &&& 0x9F#8
  flat : s.cr0Pg = false → t.tlb = s.tlb ∧ (s.mem.wf = true → ∀ a, s.isRam a = true → t.mem.read a = s.mem.read a)
  ram : s.map = [] → t.ioLog = s.ioLog ∧ (s.cr0Pg = false → t.mem = s.mem)

/-- The page fault of a translation, with P and RSVD of its error code (20_memory R123). -/
def pageFault (la : Dword) (write user p rsvd : Bool) (u : State) : EStateM.Result Stop State Nat :=
  .error (.exc (.pf la (bitAt 16 0 p ||| bitAt 16 1 write ||| bitAt 16 2 user ||| bitAt 16 3 rsvd))) u

/-- The translation of a page that a walk finds (20_memory R127), from the size and address of the page, its permissions,
and the D and G bits of the entry that maps it. -/
def State.translationOf (s : State) (la : Dword) (write : Bool) (shift frame : Nat) (us rw d g : Bool) : TlbEntry :=
  { page := la.toNat / 2 ^ shift, shift := shift, frame := frame, user := us, write := rw, dirty := d || write
    global := g && s.cr4Pge }

/-- A translation allows an access (20_memory R122). -/
def State.pageAllows (s : State) (e : TlbEntry) (write user : Bool) : Prop :=
  (user = true → e.user = true) ∧ (write = true → e.write = true ∨ user = false ∧ s.cr0Wp = false)

/-- How a walk from `s` ends that has found the translation `e` in the entries at `upper` and `leaf`, with the state `u` after
reading them (20_memory R122): a page fault where `e` forbids the access; else the physical address `pa`, the translation
cached, the entries marked accessed and, for a write, the leaf dirty, and no other byte of memory changed. -/
def WalkEnds (s u : State) (la : Dword) (write user : Bool) (e : TlbEntry) (upper : Option Nat) (leaf pa : Nat) : Prop :=
  (s.pageAllows e write user → ∃ t, walk la write user s = .ok pa t ∧ Walked s t ∧
    t.tlb = (if e ∈ s.tlb then s.tlb else e :: s.tlb) ∧
    (s.mem.wf = true → ∀ a,
      t.mem.read a = u.mem.read a ||| (if upper = some a then 0x20#8 else 0) |||
        (if a = leaf then (if write then 0x60#8 else 0x20#8) else 0) ∧
      (s.isRam a = true → u.mem.read a = s.mem.read a))) ∧
  (¬ s.pageAllows e write user → walk la write user s = pageFault la write user true false u)

/-- No LOCK and no repeat prefix has been read. -/
def State.plain (s : State) : Prop := s.pfx.lock = false ∧ s.pfx.rep = .none

/-- The end of an instruction: EIP becomes the address of the next instruction (10_state R35, R36). -/
def State.retire (s : State) : State := { s with eip := s.npc }

/-- What a located operand holds. -/
def Loc.value (sz : Sz) (l : Loc) (s : State) : BitVec sz.bits :=
  match l with
  | .reg r => s.reg sz r
  | .mem ps => BitVec.ofNat sz.bits (leNat (s.mem.readList ps))

/-- The state with a located operand written. -/
def Loc.put (sz : Sz) (l : Loc) (v : BitVec sz.bits) (s : State) : State :=
  match l with
  | .reg r => s.setReg sz r v
  | .mem ps => s.stored ps v.toNat

/-- The instruction completes, and its effect before EIP advances is `t`. -/
def completes (i : Instr) (s t : State) : Prop := exec i s = .next t.retire

/-- LOCK is absent, or the instruction writes a memory operand `d` (30_encoding R220). -/
def lockFits (s : State) (writes : Bool) (d : Rm) : Prop := s.pfx.lock = true → writes = true ∧ rmLockable d = true

/-- What an operation on two operands does: the state after its flags, and its result. -/
abbrev Effect2 := {w : Nat} → State → BitVec w → BitVec w → State × BitVec w

/-- What an operation on one operand does. -/
abbrev Effect1 := {w : Nat} → State → BitVec w → State × BitVec w

/-- Addition, with CF where `c` holds (10_state R43). -/
def addEffect (c : Bool) : Effect2 := fun s a b =>
  ({ s with flags := s.flags.addF a b (c && s.flags.cf) }, addC a b (c && s.flags.cf))

/-- Subtraction, with CF where `c` holds (10_state R44). -/
def subEffect (c : Bool) : Effect2 := fun s a b =>
  ({ s with flags := s.flags.subF a b (c && s.flags.cf) }, subC a b (c && s.flags.cf))

/-- A bitwise operation; AF is a free bit (10_state R45). -/
def logicEffect (g : {w : Nat} → BitVec w → BitVec w → BitVec w) : Effect2 := fun s a b =>
  ({ s with fresh := s.fresh + 1, flags := s.flags.logicF (g a b) (Config.freeBit s.fresh) }, g a b)

/-- Write a result where `writes` holds. -/
def Loc.putIf (writes : Bool) (sz : Sz) (l : Loc) (x : State × BitVec sz.bits) : State :=
  if writes then l.put sz x.2 x.1 else x.1

/-- The forms `r/m, r` of an instruction have the effect `e` on every operand that can be accessed. -/
def rmRegHas (mk : Wd → Rm → Reg → Instr) (writes : Bool) (e : Effect2) : Prop :=
  ∀ (s : State) w d r l s1, s.pfx.rep = .none → lockFits s writes d →
    locate (s.wd w) d (useOf writes) s = .ok l s1 →
    completes (mk w d r) s (l.putIf writes (s.wd w) (e s1 (l.value (s.wd w) s1) (s.reg (s.wd w) r)))

/-- The forms `r, r/m`. -/
def regRmHas (mk : Wd → Reg → Rm → Instr) (writes : Bool) (e : Effect2) : Prop :=
  ∀ (s : State) w r m l s1, s.plain → locate (s.wd w) m .r s = .ok l s1 →
    completes (mk w r m) s
      ((Loc.reg r).putIf writes (s.wd w) (e s1 (s.reg (s.wd w) r) (l.value (s.wd w) s1)))

/-- The forms `accumulator, immediate`. -/
def accImmHas (mk : Wd → Dword → Instr) (writes : Bool) (e : Effect2) : Prop :=
  ∀ (s : State) w i, s.plain →
    completes (mk w i) s ((Loc.reg .eax).putIf writes (s.wd w) (e s (s.reg (s.wd w) .eax) (immSz (s.wd w) i)))

/-- The forms `r/m, immediate`. -/
def rmImmHas (mk : Wd → Rm → Dword → Instr) (writes : Bool) (e : Effect2) : Prop :=
  ∀ (s : State) w d i l s1, s.pfx.rep = .none → lockFits s writes d →
    locate (s.wd w) d (useOf writes) s = .ok l s1 →
    completes (mk w d i) s (l.putIf writes (s.wd w) (e s1 (l.value (s.wd w) s1) (immSz (s.wd w) i)))

/-- The forms `r/m, sign-extended byte`. -/
def rmImm8Has (mk : Rm → Byte → Instr) (writes : Bool) (e : Effect2) : Prop :=
  ∀ (s : State) d i l s1, s.pfx.rep = .none → lockFits s writes d →
    locate s.osz d (useOf writes) s = .ok l s1 →
    completes (mk d i) s (l.putIf writes s.osz (e s1 (l.value s.osz s1) (sext8 s.osz i)))

/-- All the forms of ADD to CMP. -/
def aluHas (mk : AluForm → Instr) (writes : Bool) (e : Effect2) : Prop :=
  rmRegHas (fun w d r => mk (.rmR w d r)) writes e ∧ regRmHas (fun w r m => mk (.rRm w r m)) writes e ∧
  accImmHas (fun w i => mk (.accImm w i)) writes e ∧ rmImmHas (fun w d i => mk (.rmImm w d i)) writes e ∧
  rmImm8Has (fun d i => mk (.rmImm8 d i)) writes e

/-- The one-operand forms `r/m`. -/
def rmHas (mk : Wd → Rm → Instr) (e : Effect1) : Prop :=
  ∀ (s : State) w d l s1, s.pfx.rep = .none → lockFits s true d → locate (s.wd w) d .rw s = .ok l s1 →
    completes (mk w d) s (l.putIf true (s.wd w) (e s1 (l.value (s.wd w) s1)))

/-- The state after flags are rewritten with `k` free bits: the flags an instruction leaves undefined (10_state R47). -/
def State.undefFlags (k : Nat) (f : (Nat → Bool) → Flags → Flags) (s : State) : State :=
  { s with fresh := s.fresh + k, flags := f (fun i => Config.freeBit (s.fresh + i)) s.flags }

/-- The state with the double-width accumulator AX, DX:AX or EDX:EAX written. -/
def State.putWide (s : State) (sz : Sz) (v : Nat) : State :=
  match sz with
  | .b => s.setReg .w .eax (BitVec.ofNat 16 v)
  | .w => (s.setReg .w .eax (BitVec.ofNat 16 v)).setReg .w .edx (BitVec.ofNat 16 (v / 2 ^ 16))
  | .d => (s.setReg .d .eax (BitVec.ofNat 32 v)).setReg .d .edx (BitVec.ofNat 32 (v / 2 ^ 32))

/-- The flags of a multiplication: CF and OF as given, the other status flags undefined. -/
def mulUndef (c : Bool) (u : Nat → Bool) (f : Flags) : Flags :=
  { f with cf := c, of_ := c, sf := u 0, zf := u 1, af := u 2, pf := u 3 }

/-- All status flags undefined. -/
def allUndef (u : Nat → Bool) (f : Flags) : Flags :=
  { f with cf := u 0, of_ := u 1, sf := u 2, zf := u 3, af := u 4, pf := u 5 }

/-- CF as given, the other status flags undefined. -/
def btUndef (c : Bool) (u : Nat → Bool) (f : Flags) : Flags :=
  { f with cf := c, of_ := u 0, sf := u 1, zf := u 2, af := u 3, pf := u 4 }

/-- BSF and BSR: ZF as given, the other status flags undefined. -/
def scanUndef (z : Bool) (u : Nat → Bool) (f : Flags) : Flags :=
  { f with zf := z, cf := u 0, of_ := u 1, sf := u 2, af := u 3, pf := u 4 }

/-- One turn of the loop of a shift or rotate (48_int R610, 49_int R641): the operand and CF. -/
def ShiftKind.turn {w : Nat} (k : ShiftKind) (x : BitVec w × Bool) : BitVec w × Bool :=
  let (a, c) := x
  let bit (b : Bool) : BitVec w := BitVec.ofNat w (carryNat b)
  let top (b : Bool) : BitVec w := BitVec.ofNat w (carryNat b * 2 ^ (w - 1))
  let half : BitVec w := BitVec.ofNat w (a.toNat / 2)
  match k with
  | .rol => (a * 2 + bit a.msb, c)
  | .ror => (half + top (a.getLsbD 0), c)
  | .rcl => (a * 2 + bit c, a.msb)
  | .rcr => (half + top c, a.getLsbD 0)
  | .shl => (a * 2, a.msb)
  | .shr => (half, a.getLsbD 0)
  | .sar => (BitVec.ofInt w (a.toInt / 2), a.getLsbD 0)

/-- How often the loop of a shift or rotate by `n` turns (48_int R610, 49_int R641). -/
def ShiftKind.turns (k : ShiftKind) (w n : Nat) : Nat :=
  match k with
  | .rol => n % w
  | .ror => n % w
  | .rcl => n % (w + 1)
  | .rcr => n % (w + 1)
  | .shl => n
  | .shr => n
  | .sar => n

/-- The loop of a shift or rotate. -/
def ShiftKind.loop {w : Nat} (k : ShiftKind) : Nat → BitVec w × Bool → BitVec w × Bool
  | 0, x => x
  | n + 1, x => k.loop n (k.turn x)

/-- CF after the loop of a shift or rotate by `n` has ended with `x`; `free` where it is undefined. -/
def ShiftKind.finalCf {w : Nat} (k : ShiftKind) (n : Nat) (x : BitVec w × Bool) (free : Bool) : Bool :=
  match k with
  | .rol => x.1.getLsbD 0
  | .ror => x.1.msb
  | .rcl => x.2
  | .rcr => x.2
  | .shl => if w ≤ n then free else x.2
  | .shr => if w ≤ n then free else x.2
  | .sar => x.2

/-- SF, ZF and PF are those of a result: its sign, whether it is 0, and whether the ones in its low byte are even in number
(10_state R42). -/
def ofResult {w : Nat} (t : Flags) (r : BitVec w) : Prop :=
  t.sf = r.msb ∧ t.zf = decide (r = 0) ∧ t.pf = decide ((List.range 8).countP r.getLsbD % 2 = 0)

/-- The conditional moves with their conditions. -/
def cmovs : List ((Reg → Rm → Instr) × Cond) :=
  [(.cmovo, .o), (.cmovno, .no), (.cmovb, .b), (.cmovae, .ae), (.cmove, .e), (.cmovne, .ne), (.cmovbe, .be), (.cmova, .a),
   (.cmovs, .s), (.cmovns, .ns), (.cmovp, .p), (.cmovnp, .np), (.cmovl, .l), (.cmovge, .ge), (.cmovle, .le), (.cmovg, .g)]

/-- The conditional sets with their conditions. -/
def setccs : List ((Rm → Instr) × Cond) :=
  [(.seto, .o), (.setno, .no), (.setb, .b), (.setae, .ae), (.sete, .e), (.setne, .ne), (.setbe, .be), (.seta, .a),
   (.sets, .s), (.setns, .ns), (.setp, .p), (.setnp, .np), (.setl, .l), (.setge, .ge), (.setle, .le), (.setg, .g)]

/-- The shifts and rotates. -/
def shifts : List ((ShiftForm → Instr) × ShiftKind) :=
  [(.rol, .rol), (.ror, .ror), (.rcl, .rcl), (.rcr, .rcr), (.salShl, .shl), (.shr, .shr), (.sar, .sar)]

/-- The destination, the source register and the masked count of a double shift. -/
def shxdParts (s : State) : ShxdForm → Rm × Reg × Nat
  | .imm d r n => (d, r, n.toNat % 32)
  | .cl d r => (d, r, s.count .cl)

/-- LOCK is absent, or the bit base is in memory. -/
def btFits (s : State) (f : BtForm) : Prop := s.pfx.lock = true → btLockable f = true

/-! ## Stacks and segment registers -/

/-- The value `n` bytes at physical addresses hold. -/
def State.at (s : State) (ps : List Nat) : Nat := leNat (s.mem.readList ps)

/-- Pushing values of `n` bytes one after another leads from one state to another: each is stored below the stack pointer,
which then moves down (48_int R606). -/
def Pushes (n : Nat) : List Nat → State → State → Prop
  | [], s, t => t = s
  | v :: vs, s, t => ∃ ps u, access .ss (s.wrapSp (s.sp - BitVec.ofNat 32 n)) n n .w s = .ok ps u ∧
      Pushes n vs ((u.stored ps v).setSp (s.wrapSp (s.sp - BitVec.ofNat 32 n))) t

/-- Popping values of `n` bytes one after another (48_int R600). -/
def Pops (n : Nat) : List Nat → State → State → Prop
  | [], s, t => t = s
  | v :: vs, s, t => ∃ ps u, access .ss s.sp n n .r s = .ok ps u ∧ v = u.at ps ∧
      Pops n vs (u.setSp (u.sp + BitVec.ofNat 32 n)) t

/-- Popping registers one after another. -/
def PopRegs (sz : Sz) : List Reg → State → State → Prop
  | [], s, t => t = s
  | r :: rs, s, t => ∃ v u, Pops sz.bytes [v] s u ∧ PopRegs sz rs (u.setReg sz r (BitVec.ofNat sz.bits v)) t

/-- Copying `k` frame pointers of `m` bytes from below `fp` to the stack (41_int R312). -/
def Display (m : Nat) : Nat → Dword → State → State → Prop
  | 0, _, s, t => t = s
  | k + 1, fp, s, t => ∃ ps u w, access .ss (s.wrapSp (fp - BitVec.ofNat 32 m)) m m .r s = .ok ps u ∧
      Pushes m [u.at ps] u w ∧ Display m k (s.wrapSp (fp - BitVec.ofNat 32 m)) w t

/-- A descriptor may be loaded into DS, ES, FS or GS (20_memory R135). -/
def State.dataSegOk (s : State) (d : Desc) (sel : Word) : Prop :=
  d.readable = true ∧ ((d.isCode && d.conf) = true ∨ rpl sel ≤ d.dpl ∧ s.curPl ≤ d.dpl) ∧ d.p = true

/-- A descriptor may be loaded into SS (20_memory R136). -/
def State.stackSegOk (s : State) (d : Desc) (sel : Word) : Prop :=
  rpl sel = s.curPl ∧ d.writable = true ∧ d.dpl = s.curPl ∧ d.p = true

/-- Loading a segment register other than CS leads from one state to another: from a descriptor, whose accessed bit is
set, in protected mode; a null selector marks the register invalid there; the 8086 way in the other modes (20_memory
R106, R135, R136, R138). -/
def SegLoads (r : SReg) (sel : Word) (s t : State) : Prop :=
  if s.prot then
    if isNull sel then r ≠ .ss ∧ t = { s with seg := s.seg.set r { s.seg.get r with sel := sel, valid := false } }
    else ∃ d s1 s2, readDesc sel s = .ok (some d) s1 ∧ (if r = .ss then s.stackSegOk d sel else s.dataSegOk d sel) ∧
      setAccessed d s1 = .ok () s2 ∧ t = { s2 with seg := s2.seg.set r (d.loaded sel) }
  else t = { s with seg := s.seg.set r ((s.seg.get r).load86 s.v86 sel) }

/-- The flags POPF leaves from an image (48_int R602). -/
def State.poppedFlags (s : State) (v : Dword) : Flags :=
  let f := { s.flags with
    cf := v.getLsbD 0, pf := v.getLsbD 2, af := v.getLsbD 4, zf := v.getLsbD 6, sf := v.getLsbD 7, tf := v.getLsbD 8
    if_ := if s.curPl ≤ s.flags.iopl.toNat then v.getLsbD 9 else s.flags.if_
    df := v.getLsbD 10, of_ := v.getLsbD 11, nt := v.getLsbD 14
    iopl := if s.curPl = 0 then v.extractLsb' 12 2 else s.flags.iopl }
  if s.os32 then
    if s.v86 then { f with ac := v.getLsbD 18, id := v.getLsbD 21 }
    else { f with rf := v.getLsbD 16, ac := v.getLsbD 18, id := v.getLsbD 21, vif := false, vip := false }
  else f

/-! ## Transfers of control -/

/-- The conditional jumps with their conditions. -/
def jccs : List ((JForm → Instr) × Cond) :=
  [(.jo, .o), (.jno, .no), (.jb, .b), (.jae, .ae), (.je, .e), (.jne, .ne), (.jbe, .be), (.ja, .a), (.js, .s), (.jns, .ns),
   (.jp, .p), (.jnp, .np), (.jl, .l), (.jge, .ge), (.jle, .le), (.jg, .g)]

/-- The target of a relative jump: the next instruction's address plus the displacement, modulo the operand size (45_int
R470). -/
def jumpTarget (s : State) : JForm → Dword
  | .short d => s.nearTarget (s.rel8 d)
  | .near d => s.nearTarget (s.relV d)

/-- Where an instruction that jumps to `t` on the condition `c` ends: at `t`, at the next instruction, or with #GP(0) where
`t` is beyond the limit of CS; `u` is what it leaves besides. -/
def jumps (i : Instr) (s u : State) (c : Bool) (t : Dword) : Prop :=
  if c then
    if s.seg.cs.codeOk t then completes i s { u with npc := t } else exec i s = takeExc (.gp 0) (s.rollback s)
  else completes i s u

/-- A far transfer in real-address or virtual-8086 mode. -/
def State.jump86 (s : State) (sel : Word) (t : Dword) : State :=
  { s with seg := { s.seg with cs := s.seg.cs.load86 s.v86 sel }, npc := t }

/-- A far return in real-address or virtual-8086 mode: the limit of CS stays (log 27). -/
def State.return86 (s : State) (sel : Word) (t : Dword) : State :=
  { s with seg := { s.seg with cs := s.seg.cs.return86 s.v86 sel }, npc := t }

/-- The far JMP whose pointer is `f`. -/
def farJmp : FarSrc → Instr
  | .imm sel off => .jmp (.ptr sel off)
  | .mem a => .jmp (.mfar (.mem a))

/-- The far CALL whose pointer is `f`. -/
def farCall : FarSrc → Instr
  | .imm sel off => .call (.ptr sel off)
  | .mem a => .call (.mfar (.mem a))

/-- A far transfer in protected mode: CS with the descriptor and the level `pl`, and CPL `pl`. -/
def State.enterCs (s : State) (sel : Word) (d : Desc) (pl : Nat) (t : Dword) : State :=
  { s with seg := { s.seg with cs := d.loaded (withRpl sel pl) }, cpl := BitVec.ofNat 2 pl, npc := t }

/-- The code segment of a direct far transfer passes its checks (41_int R282). -/
def State.directOk (s : State) (sel : Word) (d : Desc) : Prop :=
  d.isCode = true ∧ d.p = true ∧
    (if d.conf then d.dpl ≤ s.curPl else rpl sel ≤ s.curPl ∧ d.dpl = s.curPl)

/-- A return code segment passes its checks (44_int R453, 48_int R617). -/
def State.returnOk (s : State) (sel : Word) (d : Desc) : Prop :=
  isNull sel = false ∧ d.isCode = true ∧ d.p = true ∧ s.curPl ≤ rpl sel ∧
    (if d.conf then d.dpl ≤ rpl sel else d.dpl = rpl sel)

/-- A return stack segment passes its checks (44_int R454, 48_int R618). -/
def returnStackOk (ss cs : Word) (d : Desc) : Prop :=
  isNull ss = false ∧ rpl ss = rpl cs ∧ d.writable = true ∧ d.dpl = rpl cs ∧ d.p = true

/-- ESP after a return to an outer level: `old` is ESP before the instruction, `any` a free value (44_int R454;
93_implementation_defined 2). -/
def outerEsp (os32 : Bool) (d : Desc) (old any esp : Dword) : Dword :=
  if d.raw.getLsbD 54 then (if os32 then esp else putLow16 any (esp.setWidth 16)) else putLow16 old (esp.setWidth 16)

/-- The data segment registers after a return to level `pl`: those it may not use are nullified (44_int R454). -/
def Segs.forLevel (g : Segs) (pl : Nat) : Segs :=
  { g with es := g.es.cleanFor pl, ds := g.ds.cleanFor pl, fs := g.fs.cleanFor pl, gs := g.gs.cleanFor pl }

/-- The flags IRET leaves from an image (44_int R449, R450, R453). -/
def State.iretFlags (s : State) (v : Dword) : Flags :=
  let f := { s.flags with
    cf := v.getLsbD 0, pf := v.getLsbD 2, af := v.getLsbD 4, zf := v.getLsbD 6, sf := v.getLsbD 7, tf := v.getLsbD 8
    if_ := if s.curPl ≤ s.flags.iopl.toNat then v.getLsbD 9 else s.flags.if_
    df := v.getLsbD 10, of_ := v.getLsbD 11, nt := v.getLsbD 14
    iopl := if s.curPl = 0 then v.extractLsb' 12 2 else s.flags.iopl }
  if s.os32 then
    let g := { f with rf := v.getLsbD 16, ac := v.getLsbD 18, id := v.getLsbD 21 }
    if s.prot && s.curPl == 0 then { g with vm := v.getLsbD 17, vif := v.getLsbD 19, vip := v.getLsbD 20 } else g
  else f

/-- The stack of level `pl` in the current TSS, with its checks (60_exceptions R713). -/
def InnerStack (pl : Nat) (s : State) (ss : Word) (esp : Dword) (d : Desc) (t : State) : Prop :=
  ∃ a b u v, (if s.tss32 then pl * 8 + 11 ≤ s.tr.limit.toNat ∧
      sysRead (s.tr.base + BitVec.ofNat 32 (pl * 8 + 4)) 4 s = .ok a u ∧
      sysRead (s.tr.base + BitVec.ofNat 32 (pl * 8 + 8)) 2 u = .ok b v
    else pl * 4 + 6 ≤ s.tr.limit.toNat ∧ sysRead (s.tr.base + BitVec.ofNat 32 (pl * 4 + 2)) 2 s = .ok a u ∧
      sysRead (s.tr.base + BitVec.ofNat 32 (pl * 4 + 4)) 2 u = .ok b v) ∧
    ss = BitVec.ofNat 16 b ∧ esp = BitVec.ofNat 32 a ∧ isNull ss = false ∧ readDesc ss v = .ok (some d) t ∧
    rpl ss = pl ∧ d.dpl = pl ∧ d.writable = true ∧ d.p = true

/-! ## Delivering an event -/

/-- What delivery begins with (60_exceptions R710, R720, R721). -/
def State.delivering (s : State) (ev : Event) : State :=
  { s with shadow := .none, activity := .running, interrupted := true
           nmiBlocked := s.nmiBlocked || (decide (ev.kind = .external) && decide (ev.vector = 2)) }

/-- Real-address-mode delivery (60_exceptions R711): FLAGS, CS and IP are pushed and the vector is loaded. -/
def RealDelivery (ev : Event) (s t : State) : Prop :=
  s.real = true ∧ ev.vector.toNat * 4 + 3 ≤ s.idtr.limit.toNat ∧ s.stackRoom 6 = true ∧
  ∃ u v w, Pushes 2 [s.flags.toDword.toNat, s.seg.cs.sel.toNat, (s.returnEip ev).toNat] (s.delivering ev) u ∧
    sysRead (s.idtr.base + BitVec.ofNat 32 (ev.vector.toNat * 4)) 4 u = .ok v w ∧
    t = { w.jump86 (BitVec.ofNat 16 (v / 65536)) (BitVec.ofNat 32 (v % 65536)) with
          flags := { s.flags with if_ := false, tf := false, ac := false, rf := false } }

/-- The gate of an event in the IDT: an interrupt or trap gate that is present, and that the level allows where the event
is a software interrupt (60_exceptions R712). -/
def GateFor (ev : Event) (s : State) (g : Gate) (t : State) : Prop :=
  ev.vector.toNat * 8 + 7 ≤ s.idtr.limit.toNat ∧
  (∃ v, sysRead (s.idtr.base + BitVec.ofNat 32 (ev.vector.toNat * 8)) 8 s = .ok v t ∧ g = Gate.ofDesc (BitVec.ofNat 64 v)) ∧
  g.s = false ∧ (g.typ = 6 ∨ g.typ = 7 ∨ g.typ = 14 ∨ g.typ = 15) ∧ g.p = true ∧
  (ev.kind = .software → s.curPl ≤ g.dpl) ∧ isNull g.sel = false

/-- The flags after delivery: IF is cleared by an interrupt gate (60_exceptions R713 to R715). -/
def deliveredFlags (f : Flags) (g : Gate) : Flags :=
  { f with tf := false, vm := false, rf := false, nt := false, if_ := f.if_ && (g.typ == 7 || g.typ == 15) }

/-- Protected-mode delivery without a change of level (60_exceptions R715): EFLAGS, CS, EIP and the error code are pushed
and the handler is entered. -/
def SameLevelDelivery (ev : Event) (s t : State) : Prop :=
  ∃ g u d v w x, s.prot = true ∧ GateFor ev (s.delivering ev) g u ∧ readDesc g.sel u = .ok (some d) v ∧
    d.isCode = true ∧ d.p = true ∧ d.dpl ≤ s.curPl ∧ (d.conf = true ∨ d.dpl = s.curPl) ∧
    (let m := if g.typ.getLsbD 3 then 4 else 2
     let frame := [(s.flagsImage ev).toNat, s.seg.cs.sel.toNat, (s.returnEip ev).toNat] ++ ev.errList
     s.stackRoom (frame.length * m) = true ∧ (d.seg g.sel).codeOk g.off = true ∧ Pushes m frame v w) ∧
    setAccessed d w = .ok () x ∧ t = { x.enterCs g.sel d s.curPl g.off with flags := deliveredFlags s.flags g }

/-- Delivery to an inner level (60_exceptions R713, R714): the stack of that level, on which the interrupted stack, EFLAGS,
CS, EIP and the error code are pushed; from virtual-8086 mode also the data segments, which are then nullified. -/
def InnerDelivery (ev : Event) (s t : State) : Prop :=
  ∃ g u d v ss esp sd w x y z, s.pe = true ∧ GateFor ev (s.delivering ev) g u ∧ readDesc g.sel u = .ok (some d) v ∧
    d.isCode = true ∧ d.p = true ∧ d.conf = false ∧ d.dpl < s.curPl ∧ (s.flags.vm = true → d.dpl = 0) ∧
    InnerStack d.dpl v ss esp sd w ∧
    (let m := if g.typ.getLsbD 3 then 4 else 2
     let data := if s.flags.vm then
       [s.seg.gs.sel.toNat, s.seg.fs.sel.toNat, s.seg.ds.sel.toNat, s.seg.es.sel.toNat] else []
     let frame := data ++ [s.seg.ss.sel.toNat, s.gpr.esp.toNat, (s.flagsImage ev).toNat, s.seg.cs.sel.toNat,
       (s.returnEip ev).toNat] ++ ev.errList
     (sd.seg ss).roomBelow esp (frame.length * m) = true ∧ (d.seg g.sel).codeOk g.off = true ∧
     setAccessed sd { w with flags := deliveredFlags s.flags g } = .ok () x ∧
     setAccessed d { x with seg := { x.seg with ss := sd.loaded ss }, gpr := { x.gpr with esp := esp } } = .ok () y ∧
     Pushes m frame { y with seg := { y.seg with cs := d.loaded (withRpl g.sel d.dpl) }, cpl := BitVec.ofNat 2 d.dpl } z) ∧
    t = { z with
      npc := g.off
      seg := if s.flags.vm then { z.seg with gs := z.seg.gs.nulled, fs := z.seg.fs.nulled, ds := z.seg.ds.nulled,
                                             es := z.seg.es.nulled } else z.seg }

/-- An event is delivered without a task switch. -/
def Delivers (ev : Event) (s t : State) : Prop := RealDelivery ev s t ∨ SameLevelDelivery ev s t ∨ InnerDelivery ev s t

/-! ## Task switches -/

/-- The TSS that the selector of a far pointer names, itself or through a task gate, may be switched to (41_int R284, 45_int
R475, R476). -/
def NamesTask (kind : SwitchKind) (sel : Word) (s : State) (tsel : Word) (x : Desc) (t : State) : Prop :=
  ∃ d u, isNull sel = false ∧ readDesc sel s = .ok (some d) u ∧ s.curPl ≤ d.dpl ∧ rpl sel ≤ d.dpl ∧ d.p = true ∧
    (d.availTss = true ∧ (kind = .jmp → selTi sel = false) ∧ tsel = sel ∧ x = d ∧ t = u ∨
     d.farKind = .taskGate ∧ tsel = d.gate.sel ∧ isNull tsel = false ∧ selTi tsel = false ∧
       readDesc tsel u = .ok (some x) t ∧ x.availTss = true ∧ x.p = true)

/-- How an instruction that ends in a task switch ends: the switch is undone by a fault before its commit point, and after
it faults are taken in the new task, the check of EIP and the debug trap of the TSS among them (60_exceptions R740). -/
def endsSwitch (i : Instr) (s : State) : EStateM.Result Stop State Bool → Prop
  | .ok trap u =>
    if u.seg.cs.codeOk u.npc then
      if trap then exec i s = takeExc (.db true 0x8000#32) { u with eip := u.npc, adLog := [] } else completes i s u
    else exec i s = takeExc (.gp 0) { u with eip := u.npc, adLog := [] }
  | .error (.exc e) u => exec i s = takeExc e (s.rollback u)
  | .error (.excKeep e) u => exec i s = takeExc e { u with eip := u.npc, adLog := [] }
  | .error e u => exec i s = finish s (.error e u)

/-- Delivery through a task gate (60_exceptions R717): the switch, and the error code on the new task's stack. -/
def TaskDelivery (ev : Event) (s t : State) : Prop :=
  ∃ v u g x w y, s.pe = true ∧ ev.vector.toNat * 8 + 7 ≤ s.idtr.limit.toNat ∧
    sysRead (s.idtr.base + BitVec.ofNat 32 (ev.vector.toNat * 8)) 8 (s.delivering ev) = .ok v u ∧
    g = Gate.ofDesc (BitVec.ofNat 64 v) ∧ g.s = false ∧ g.typ = 5 ∧ g.p = true ∧ (ev.kind = .software → s.curPl ≤ g.dpl) ∧
    isNull g.sel = false ∧ selTi g.sel = false ∧ readDesc g.sel u = .ok (some x) w ∧ x.availTss = true ∧ x.p = true ∧
    switchTasks g.sel x .int (s.returnEip ev) (s.flagsImage ev) w = .ok false y ∧
    (let m := if y.tss32 then 4 else 2
     (ev.errList ≠ [] → y.stackRoom m = true) ∧ Pushes m ev.errList y t) ∧
    t.seg.cs.codeOk t.npc = true

/-- The fields that a switch saves in a 32-bit TSS, with their offsets and sizes: the return address, the flags image, the
registers and the selectors (20_memory R133, 60_exceptions R740). -/
def savedFields (s : State) (ret img : Dword) : List (Nat × Nat × Nat) :=
  [(0x20, 4, ret.toNat), (0x24, 4, img.toNat), (0x28, 4, s.gpr.eax.toNat), (0x2C, 4, s.gpr.ecx.toNat),
   (0x30, 4, s.gpr.edx.toNat), (0x34, 4, s.gpr.ebx.toNat), (0x38, 4, s.gpr.esp.toNat), (0x3C, 4, s.gpr.ebp.toNat),
   (0x40, 4, s.gpr.esi.toNat), (0x44, 4, s.gpr.edi.toNat), (0x48, 2, s.seg.es.sel.toNat), (0x4C, 2, s.seg.cs.sel.toNat),
   (0x50, 2, s.seg.ss.sel.toNat), (0x54, 2, s.seg.ds.sel.toNat), (0x58, 2, s.seg.fs.sel.toNat),
   (0x5C, 2, s.seg.gs.sel.toNat)]

/-- Where the GDT holds the type of the descriptor that a selector names. -/
def State.typeByte (s : State) (sel : Word) : Nat := s.gdtr.base.toNat + sel.toNat / 8 * 8 + 5

/-! ## String instructions and ports -/

/-- A pointer register moved past an element of `n` bytes, by DF, at the address size. -/
def State.past (s : State) (r : Reg) (n : Nat) : State :=
  s.setRegA r (if s.flags.df then s.regA r - BitVec.ofNat 32 n else s.regA r + BitVec.ofNat 32 n)

/-- One iteration of a string instruction at operand size `sz` leads from one state to another. -/
abbrev Iteration := Sz → State → State → Prop

/-- The element at DS:(E)SI is `v`; reading it leads from one state to another. -/
def ReadsSi (sz : Sz) (s : State) (v : BitVec sz.bits) (t : State) : Prop :=
  ∃ ps, access s.dsSeg (s.regA .esi) sz.bytes sz.bytes .r s = .ok ps t ∧ v = BitVec.ofNat sz.bits (t.at ps)

/-- The element at ES:(E)DI is `v`; reading it leads from one state to another. -/
def ReadsDi (sz : Sz) (s : State) (v : BitVec sz.bits) (t : State) : Prop :=
  ∃ ps, access .es (s.regA .edi) sz.bytes sz.bytes .r s = .ok ps t ∧ v = BitVec.ofNat sz.bits (t.at ps)

/-- Storing `v` at ES:(E)DI leads from one state to another. -/
def WritesDi (sz : Sz) (s : State) (v : BitVec sz.bits) (t : State) : Prop :=
  ∃ ps u, access .es (s.regA .edi) sz.bytes sz.bytes .w s = .ok ps u ∧ t = u.stored ps v.toNat

/-- Reading a port gives `v` (20_memory R140). -/
def ReadsPort (sz : Sz) (port : Word) (s : State) (v : BitVec sz.bits) (t : State) : Prop :=
  v = (Config.ioRead s.fresh port sz.bytes).setWidth sz.bits ∧
  ∃ u, recordIo port sz.bytes { s with fresh := s.fresh + 1 } = .ok () u ∧
    t = { u with ioLog := .read port sz.bytes (v.setWidth 32) :: u.ioLog }

/-- Writing `v` to a port (20_memory R140). -/
def WritesPort (sz : Sz) (port : Word) (s : State) (v : BitVec sz.bits) (t : State) : Prop :=
  ∃ u, recordIo port sz.bytes s = .ok () u ∧ t = { u with ioLog := .write port sz.bytes (v.setWidth 32) :: u.ioLog }

/-- MOVS (46_int R515). -/
def MovsOnce : Iteration := fun sz s t => ∃ v u w, ReadsSi sz s v u ∧ WritesDi sz u v w ∧
  t = (w.past .esi sz.bytes).past .edi sz.bytes
/-- CMPS (41_int R294). -/
def CmpsOnce : Iteration := fun sz s t => ∃ a u b w, ReadsSi sz s a u ∧ ReadsDi sz u b w ∧
  t = ({ w with flags := w.flags.subF a b false }.past .esi sz.bytes).past .edi sz.bytes
/-- SCAS (49_int R643). -/
def ScasOnce : Iteration := fun sz s t => ∃ b u, ReadsDi sz s b u ∧
  t = { u with flags := u.flags.subF (s.reg sz .eax) b false }.past .edi sz.bytes
/-- LODS (45_int R486). -/
def LodsOnce : Iteration := fun sz s t => ∃ v u, ReadsSi sz s v u ∧ t = (u.setReg sz .eax v).past .esi sz.bytes
/-- STOS (49_int R653). -/
def StosOnce : Iteration := fun sz s t => ∃ u, WritesDi sz s (s.reg sz .eax) u ∧ t = u.past .edi sz.bytes
/-- INS (44_int R445). -/
def InsOnce : Iteration := fun sz s t => ∃ u ps v x w, checkIo s.dx sz.bytes s = .ok () u ∧
  access .es (s.regA .edi) sz.bytes sz.bytes .w u = .ok ps v ∧ ReadsPort sz s.dx v x w ∧
  t = (w.stored ps x.toNat).past .edi sz.bytes
/-- OUTS (46_int R524). -/
def OutsOnce : Iteration := fun sz s t => ∃ u x v w, checkIo s.dx sz.bytes s = .ok () u ∧ ReadsSi sz u x v ∧
  WritesPort sz s.dx v x w ∧ t = w.past .esi sz.bytes

/-- The string instructions, their iterations, and whether they compare. -/
def stringOps : List ((Wd → Instr) × Iteration × Bool) :=
  [(.movs, MovsOnce, false), (.cmps, CmpsOnce, true), (.scas, ScasOnce, true), (.lods, LodsOnce, false),
   (.stos, StosOnce, false), (.ins, InsOnce, false), (.outs, OutsOnce, false)]

/-- A repeated string instruction goes on after an iteration that ended in `t` (48_int R614). -/
def goesOn (t : State) (cmp : Bool) : Bool :=
  t.regA .ecx != 0 && (!cmp || (t.flags.zf == decide (t.pfx.rep = .rep)))

/-! ## System instructions -/

/-- The flags are left undefined. -/
def State.noFlags (s : State) : State := s.undefFlags 6 allUndef

/-- The four page-directory-pointer entries at CR3. -/
def State.pdpteAt (s : State) (i : Nat) : Nat := s.entry (s.cr3.toNat / 32 * 32 + 8 * i) 8

/-- The page-directory-pointer registers are reloaded where `c` holds; then no entry may have a reserved bit set
(20_memory R125). -/
def ReloadsPdptes (c : Bool) (s t : State) : Prop :=
  if c then
    let u := s.sampled (addrs 32 (s.cr3.toNat / 32 * 32))
    (∀ i < 4, u.pdpteAt i < 2 ^ 36) ∧
    t = { u with pdpte0 := BitVec.ofNat 64 (u.pdpteAt 0), pdpte1 := BitVec.ofNat 64 (u.pdpteAt 1)
                 pdpte2 := BitVec.ofNat 64 (u.pdpteAt 2), pdpte3 := BitVec.ofNat 64 (u.pdpteAt 3) }
  else t = s

/-- Every cached translation is dropped where `c` holds. -/
def State.flushed (s : State) (c : Bool) : State := if c then { s with tlb := [] } else s

/-- CR0 after MOV writes `v`: the reserved bits and ET stay (10_state R55). -/
def newCr0 (old v : Dword) : Dword := (v &&& 0xE005002F#32) ||| (old &&& 0x1FFAFFD0#32)

/-- The operand of LGDT and LIDT is read (45_int R482). -/
def ReadsTable (a : Ea) (s : State) (r : TableReg) (t : State) : Prop :=
  ∃ ps, accessEa a 6 4 .r s = .ok ps t ∧
    let b : Dword := BitVec.ofNat 32 (t.at ps / 2 ^ 16)
    r = { limit := BitVec.ofNat 16 (t.at ps), base := if s.os32 then b else b &&& 0x00FFFFFF#32 }

/-- The operand of SGDT and SIDT is stored (49_int R645). -/
def StoresTable (a : Ea) (s : State) (r : TableReg) (t : State) : Prop :=
  ∃ ps u, accessEa a 6 4 .w s = .ok ps u ∧
    t = u.stored ps (r.limit.toNat + 2 ^ 16 * (if s.os32 then r.base else r.base &&& 0x00FFFFFF#32).toNat)

/-- A register that holds a selector is stored: 16 bits of memory, or a register, zero-extended with operand size 32. -/
def storesSelector (mk : Rm → Instr) (s : State) (v : Word) : Prop :=
  (∀ r, completes (mk (.reg r)) s (if s.os32 then s.setReg .d r (v.setWidth 32) else s.setReg .w r v)) ∧
  (∀ a ps u, accessEa a 2 2 .w s = .ok ps u → completes (mk (.mem a)) s (u.stored ps v.toNat))

/-- A descriptor that a selector test finds usable: of an accepted kind, and conforming code or not more privileged than
CPL and RPL (45_int R478, R488; 49_int R658). -/
def State.testOk (s : State) (sel : Word) (ok : Desc → Bool) (d : Desc) : Prop :=
  ok d = true ∧ (d.isCode = true ∧ d.conf = true ∨ s.curPl ≤ d.dpl ∧ rpl sel ≤ d.dpl)

/-- A selector test fails: the selector is null, outside its table, or names an unusable descriptor. -/
def TestFails (sel : Word) (ok : Desc → Bool) (s t : State) : Prop :=
  isNull sel = true ∧ t = s ∨ isNull sel = false ∧ readDesc sel s = .ok none t ∨
  ∃ d, isNull sel = false ∧ readDesc sel s = .ok (some d) t ∧ ¬ s.testOk sel ok d

/-- A selector test succeeds with `d`. -/
def TestFinds (sel : Word) (ok : Desc → Bool) (s : State) (d : Desc) (t : State) : Prop :=
  isNull sel = false ∧ readDesc sel s = .ok (some d) t ∧ s.testOk sel ok d

/-- ZF set or cleared. -/
def State.withZf (s : State) (b : Bool) : State := { s with flags := { s.flags with zf := b } }

/-! ## Prefixes -/

/-- The segment overrides. -/
def segPrefixes : List (Instr × SReg) :=
  [(.segCs, .cs), (.segSs, .ss), (.segDs, .ds), (.segEs, .es), (.segFs, .fs), (.segGs, .gs)]

/-- An operand in memory. -/
def isMem : Rm → Bool
  | .mem _ => true
  | .reg _ => false

/-- The forms of ADD to XOR whose destination is in memory. -/
def aluToMem : AluForm → Bool
  | .rmR _ d _ => isMem d
  | .rmImm _ d _ => isMem d
  | .rmImm8 d _ => isMem d
  | .rRm _ _ _ => false
  | .accImm _ _ => false

/-- The forms of INC and DEC whose destination is in memory. -/
def incToMem : IncForm → Bool
  | .rm _ d => isMem d
  | .reg _ => false

/-- The forms of BTC, BTR and BTS whose destination is in memory. -/
def btToMem : BtForm → Bool
  | .rmR b _ => isMem b
  | .rmImm b _ => isMem b

/-- The forms of XCHG with an operand in memory. -/
def xchgToMem : XchgForm → Bool
  | .rmR _ a _ => isMem a
  | .acc _ => false

/-- The instructions that LOCK may precede, with their destination in memory (30_encoding R220). -/
def takesLock : Instr → Bool
  | .add f | .adc f | .and_ f | .or_ f | .sbb f | .sub f | .xor_ f => aluToMem f
  | .inc f | .dec f => incToMem f
  | .neg _ d | .not_ _ d | .xadd _ d _ | .cmpxchg _ d _ | .cmpxchg8b d => isMem d
  | .btc f | .btr f | .bts f => btToMem f
  | .xchg f => xchgToMem f
  | _ => false

/-- The repeat prefixes an instruction takes (30_encoding R221). -/
def takesRep (r : Rep) (i : Instr) : Bool :=
  match i with
  | .movs _ | .lods _ | .stos _ | .ins _ | .outs _ => decide (r ≠ .repne)
  | .cmps _ | .scas _ => true
  | _ => decide (r = .none)

/-- The encodings that are #UD wherever they stand. -/
def alwaysInvalid : Instr → Bool
  | .reserved _ | .invalidOpcode | .ud2 | .rsm => true
  | _ => false

/-! ## The FPU -/

/-- A waiting FPU instruction may run: no #NM and no pending exception (42_fpu R330). -/
def State.fpuReady (s : State) : Prop := s.cr0Em = false ∧ s.cr0Ts = false ∧ s.fpu.sw.es = false

/-- C0, C2 and C3 are left undefined and C1 is cleared. -/
def State.freeCs (s : State) : State :=
  { s with
    fresh := s.fresh + 3
    fpu := { s.fpu with sw := { s.fpu.sw with
      c0 := Config.freeBit s.fresh, c1 := false, c2 := Config.freeBit (s.fresh + 1), c3 := Config.freeBit (s.fresh + 2) } } }

/-- C0 to C3 are left undefined. -/
def State.freeAllCs (s : State) : State :=
  { s with
    fresh := s.fresh + 4
    fpu := { s.fpu with sw := { s.fpu.sw with
      c0 := Config.freeBit s.fresh, c1 := Config.freeBit (s.fresh + 3), c2 := Config.freeBit (s.fresh + 1)
      c3 := Config.freeBit (s.fresh + 2) } } }

/-- The state with the FPU `f`, whose instruction and data pointers and opcode are those of the instruction being executed
(10_state R74). -/
def State.pointed (s : State) (m : Option Ea) (f : Fpu) : State :=
  let g := { f with fipSel := s.seg.cs.sel, fip := s.eip, fop := s.fopNow }
  { s with fpu := match m with
      | none => g
      | some a => { g with fdpSel := (s.seg.get (s.eaSeg a)).sel, fdp := s.gpr.eaOff a } }

/-- The FPU with a value pushed on an empty register (42_fpu R330). -/
def Fpu.pushed (f : Fpu) (v : Ext) : Fpu := (f.setTop (f.sw.top - 1)).setSt 0 v

/-- The FPU popped where `p` holds. -/
def Fpu.popped (f : Fpu) (p : Bool) : Fpu := if p then f.pop else f

/-- The flag of an exception is set where `c` holds, and ES where it is not masked (42_fpu R331). -/
def Fpu.raised (f : Fpu) (x : FpExc) (c : Bool) : Fpu :=
  if c then { f with sw := { f.sw.flag x with es := f.sw.es || !f.cw.getLsbD x.bit } } else f

/-- C1 as given. -/
def Fpu.withC1 (f : Fpu) (b : Bool) : Fpu := { f with sw := { f.sw with c1 := b } }

/-- C3, C2 and C0 as given. -/
def Fpu.withC320 (f : Fpu) (c3 c2 c0 : Bool) : Fpu := { f with sw := { f.sw with c3 := c3, c2 := c2, c0 := c0 } }

/-- A stack fault: IE and SF, C1 telling overflow, and ES where #I is not masked (42_fpu R330). -/
def Fpu.stackFaulted (f : Fpu) (overflow : Bool) : Fpu :=
  ({ f with sw := { f.sw with sf := true, c1 := overflow } }).raised .ia true

/-- ST(i) holds a zero or a normal number. -/
def Fpu.holds (f : Fpu) (i : Nat) : Prop :=
  f.isEmpty i = false ∧ (fclass (f.st i) = .zero ∨ fclass (f.st i) = .normal)

/-- The precision control asks for `p` bits (10_state R73). -/
def Fpu.hasPrecision (f : Fpu) (p : Nat) : Prop :=
  f.cw.extractLsb' 8 2 = 0 ∧ p = 24 ∨ f.cw.extractLsb' 8 2 = 2 ∧ p = 53 ∨ f.cw.extractLsb' 8 2 = 3 ∧ p = 64

/-- A number rounded to `p` bits, and the FPU with the exceptions that raises; 0 takes its own sign. -/
def Fpu.rounded (f : Fpu) (n : FpNum) (p : Nat) : Ext × Fpu :=
  if n.mant = 0 then (extZero n.neg, f)
  else
    let r := n.toExt p f.rc (f.cw.getLsbD 3) (f.cw.getLsbD 4)
    (r.val, (((f.raised .o r.o).raised .u r.u).raised .p r.p).withC1 r.c1)

/-- The arithmetic instructions, with the operation and whether its operands are exchanged. -/
def fpuArith : List ((FArith → Instr) × (Idx8 → Instr) × (FInt2 → Instr) × FOp × Bool) :=
  [(.fadd, .faddp, .fiadd, .add, false), (.fsub, .fsubp, .fisub, .sub, false), (.fsubr, .fsubrp, .fisubr, .sub, true),
   (.fmul, .fmulp, .fimul, .mul, false), (.fdiv, .fdivp, .fidiv, .div, false), (.fdivr, .fdivrp, .fidivr, .div, true)]

/-- The constants of R356: the exponent, and the significand rounded to nearest, down and up. -/
def fpuConstants : List (Instr × Nat × Nat × Nat × Nat) :=
  [(.fld1, 0x3FFF, 0x8000000000000000, 0x8000000000000000, 0x8000000000000000),
   (.fldl2t, 0x4000, 0xD49A784BCD1B8AFE, 0xD49A784BCD1B8AFE, 0xD49A784BCD1B8AFF),
   (.fldl2e, 0x3FFF, 0xB8AA3B295C17F0BC, 0xB8AA3B295C17F0BB, 0xB8AA3B295C17F0BC),
   (.fldpi, 0x4000, 0xC90FDAA22168C235, 0xC90FDAA22168C234, 0xC90FDAA22168C235),
   (.fldlg2, 0x3FFD, 0x9A209A84FBCFF799, 0x9A209A84FBCFF798, 0x9A209A84FBCFF799),
   (.fldln2, 0x3FFE, 0xB17217F7D1CF79AC, 0xB17217F7D1CF79AB, 0xB17217F7D1CF79AC), (.fldz, 0, 0, 0, 0)]

/-- The significand of a constant under a rounding control. -/
def roundedConstant (rc : BitVec 2) (near down up : Nat) : Nat :=
  if rc = 0 then near else if rc = 2 then up else down

/-- The conditional moves with their conditions (42_fpu R342). -/
def fcmovs : List ((Idx8 → Instr) × (Flags → Bool)) :=
  [(.fcmovb, fun f => f.cf), (.fcmove, fun f => f.zf), (.fcmovbe, fun f => f.cf || f.zf), (.fcmovu, fun f => f.pf),
   (.fcmovnb, fun f => !f.cf), (.fcmovne, fun f => !f.zf), (.fcmovnbe, fun f => !(f.cf || f.zf)),
   (.fcmovnu, fun f => !f.pf)]

/-- The value of a finite extended real in units of the smallest denormal. -/
def extValue (v : Ext) : Int :=
  let m := Int.ofNat (extSig v * 2 ^ (max (extExp v) 1 - 1))
  if extNeg v then -m else m

/-- The comparisons of ST(0) with ST(i), whether a quiet NaN is no exception, and how often they pop (42_fpu R343, 43_fpu
R400). -/
def fpuCompares (i : Idx8) : List (Instr × Bool × Nat) :=
  [(.fcom (.st i), false, 0), (.fcomp (.st i), false, 1), (.fucom i, true, 0), (.fucomp i, true, 1)] ++
    if i = .i1 then [(.fcompp, false, 2), (.fucompp, true, 2)] else []

/-- The comparisons that set EFLAGS, likewise (42_fpu R344). -/
def fpuFlagCompares (i : Idx8) : List (Instr × Bool × Nat) :=
  [(.fcomi i, false, 0), (.fcomip i, false, 1), (.fucomi i, true, 0), (.fucomip i, true, 1)]

/-- The FPU popped `n` times. -/
def Fpu.poppedTimes (f : Fpu) : Nat → Fpu
  | 0 => f
  | n + 1 => f.pop.poppedTimes n

/-- C3, C2 and C0 after comparing finite numbers of values `x` and `y` (42_fpu R343). -/
def Fpu.compared (f : Fpu) (x y : Int) : Fpu := f.withC320 (decide (x = y)) false (decide (x < y))

/-- The FPU after a comparison of finite numbers of values `x` and `y`, one of them a denormal where `d` holds: #D first,
which stops the comparison where it is not masked (42_fpu R343). -/
def Fpu.comparedFinite (f : Fpu) (d : Bool) (x y : Int) (pops : Nat) : Fpu :=
  let g := f.raised .d d
  if d && !f.cw.getLsbD 1 then g else (g.compared x y).poppedTimes pops

/-- The FPU after a comparison with a NaN or an unsupported format: #IA first where `invalid` holds, which stops the
comparison where it is not masked; then the operands are unordered (42_fpu R343). -/
def Fpu.comparedNan (f : Fpu) (invalid : Bool) (pops : Nat) : Fpu :=
  let g := f.raised .ia invalid
  if invalid && !f.cw.getLsbD 0 then g else (g.withC320 true true true).poppedTimes pops

/-- A NaN or a format that is not supported. -/
def unorderedClass (c : FClass) : Bool := c.isNan || c.isBad

/-- ZF, PF and CF as given. -/
def State.withRel (s : State) (zf pf cf : Bool) : State := { s with flags := { s.flags with zf := zf, pf := pf, cf := cf } }

/-- The quotient of FPREM, and of FPREM1 where `nearest` holds, for the magnitudes `a` and `b` (43_fpu R383, R384). -/
def fpremQuotient (nearest : Bool) (a b : Nat) : Nat :=
  if nearest && (decide (b < 2 * (a % b)) || decide (b = 2 * (a % b)) && a / b % 2 == 1) then a / b + 1 else a / b

/-- The FPU instructions that wait, other than the forms with a WAIT of their own: every one checks for #NM and for a
pending exception (42_fpu R330). -/
def fpuWaits : Instr → Bool
  | .fadd _ | .faddp _ | .fiadd _ | .fsub _ | .fsubp _ | .fisub _ | .fsubr _ | .fsubrp _ | .fisubr _ | .fmul _ | .fmulp _
  | .fimul _ | .fdiv _ | .fdivp _ | .fidiv _ | .fdivr _ | .fdivrp _ | .fidivr _ | .fbld _ | .fbstp _ | .fcmovb _
  | .fcmove _ | .fcmovbe _ | .fcmovu _ | .fcmovnb _ | .fcmovne _ | .fcmovnbe _ | .fcmovnu _ | .fcom _ | .fcomp _
  | .fcompp | .fcomi _ | .fcomip _ | .fucomi _ | .fucomip _ | .fucom _ | .fucomp _ | .fucompp | .ffree _ | .ficom _
  | .ficomp _ | .fild _ | .fist _ | .fistp _ | .fld _ | .fldcw _ | .fldenv _ | .frstor _ | .fst _ | .fstp _ | .fxch _
  | .f2xm1 | .fabs | .fchs | .fcos | .fdecstp | .fincstp | .fld1 | .fldl2t | .fldl2e | .fldpi | .fldlg2 | .fldln2 | .fldz
  | .fnop | .fpatan | .fprem | .fprem1 | .fptan | .frndint | .fscale | .fsin | .fsincos | .fsqrt | .ftst | .fxam | .fxtract
  | .fyl2x | .fyl2xp1 => true
  | _ => false

/-- The FPU instructions that do not wait. -/
def fpuNoWait : Instr → Bool
  | .fninit | .fnclex | .fnstcw _ | .fnstsw _ | .fnstenv _ | .fnsave _ => true
  | _ => false

/-- The forms with a WAIT of their own (42_fpu R330). -/
def fpuWaitForms : Instr → Bool
  | .finit | .fclex | .fstcw _ | .fstsw _ | .fstenv _ | .fsave _ => true
  | _ => false

/-- The instructions whose result is rounded to the precision control (10_state R73). -/
def fpuRounds : Instr → Bool
  | .fadd _ | .faddp _ | .fiadd _ | .fsub _ | .fsubp _ | .fisub _ | .fsubr _ | .fsubrp _ | .fisubr _ | .fmul _ | .fmulp _
  | .fimul _ | .fdiv _ | .fdivp _ | .fidiv _ | .fdivr _ | .fdivrp _ | .fidivr _ | .fsqrt => true
  | _ => false

/-- The waiting instructions with no memory operand. -/
def fpuOnRegisters : Instr → Bool
  | .fadd (.m32 _) | .fadd (.m64 _) | .fsub (.m32 _) | .fsub (.m64 _) | .fsubr (.m32 _) | .fsubr (.m64 _)
  | .fmul (.m32 _) | .fmul (.m64 _) | .fdiv (.m32 _) | .fdiv (.m64 _) | .fdivr (.m32 _) | .fdivr (.m64 _)
  | .fiadd _ | .fisub _ | .fisubr _ | .fimul _ | .fidiv _ | .fidivr _ | .fbld _ | .fbstp _ | .fcom (.m32 _)
  | .fcom (.m64 _) | .fcomp (.m32 _) | .fcomp (.m64 _) | .ficom _ | .ficomp _ | .fild _ | .fist _ | .fistp _
  | .fld (.m32 _) | .fld (.m64 _) | .fld (.m80 _) | .fldcw _ | .fldenv _ | .frstor _ | .fst (.m32 _) | .fst (.m64 _)
  | .fstp (.m32 _) | .fstp (.m64 _) | .fstp (.m80 _) => false
  | i => fpuWaits i

/-- The comparisons that write ZF, PF and CF. -/
def fpuWritesFlags : Instr → Bool
  | .fcomi _ | .fcomip _ | .fucomi _ | .fucomip _ => true
  | _ => false

/-- The environment image in memory: the control, status and tag words, and in protected mode the pointers and, with
operand size 32, the opcode (43_fpu R410). -/
def EnvImage (s : State) (v : Nat) : Prop :=
  let w := if s.os32 then 32 else 16
  v < 2 ^ (8 * s.envSize) ∧ word16 v 0 = s.fpu.cw ∧ word16 v w = s.fpu.sw.toWord ∧ word16 v (2 * w) = s.fpu.tagImage ∧
  (s.prot = true →
    word16 v (4 * w) = s.fpu.fipSel ∧ word16 v (6 * w) = s.fpu.fdpSel ∧
    (if s.os32 then word32 v 96 = s.fpu.fip ∧ word32 v 160 = s.fpu.fdp ∧ word16 v 144 = s.fpu.fop.setWidth 16
     else word16 v 48 = s.fpu.fip.setWidth 16 ∧ word16 v 80 = s.fpu.fdp.setWidth 16)) ∧
  (s.prot = false →
    let ip := linearPtr s.fpu.fipSel s.fpu.fip
    let dp := linearPtr s.fpu.fdpSel s.fpu.fdp
    word16 v (3 * w) = ip.setWidth 16 ∧ word16 v (5 * w) = dp.setWidth 16 ∧
    (BitVec.ofNat 11 (v / 2 ^ (4 * w)) : BitVec 11) = s.fpu.fop ∧
    (if s.os32 then word16 v 140 = ip.extractLsb' 16 16 ∧ word16 v 204 = dp.extractLsb' 16 16
     else BitVec.ofNat 4 (v / 2 ^ 76) = ip.extractLsb' 16 4 ∧ BitVec.ofNat 4 (v / 2 ^ 108) = dp.extractLsb' 16 4))

/-! ## MMX -/

/-- An MMX instruction may run: no #UD, no #NM and no pending exception (47_mmx R550). -/
def State.mmxReady (s : State) : Prop := s.cr0Em = false ∧ s.cr0Ts = false ∧ s.fpu.sw.es = false

/-- The FPU after an MMX instruction: TOP 0 and every tag valid (47_mmx R550). -/
def Fpu.mmxLeft (f : Fpu) : Fpu := { f.setTop 0 with tags := 0 }

/-- The source of `n` bytes of an MMX instruction is `b`; reading it leads from one state to another. -/
def MmxSource (n : Nat) (src : MmRm) (s : State) (b : Qword) (t : State) : Prop :=
  match src with
  | .reg i => b = s.fpu.mm i ∧ t = s
  | .mem a => ∃ ps, accessEa a n n .r s = .ok ps t ∧ b = BitVec.ofNat 64 (t.at ps)

/-- MMd takes a value that `P` relates to it and to the source of `n` bytes. -/
def packedHas (mk : Idx8 → MmRm → Instr) (n : Nat) (P : Qword → Qword → Qword → Prop) : Prop :=
  ∀ (s : State) d src b t, s.plain → s.mmxReady → MmxSource n src s b t →
    ∃ r, P (s.fpu.mm d) b r ∧ completes (mk d src) s { t with fpu := (t.fpu.setMm d r).mmxLeft }

/-- Each element of `w` bits is an operation of the elements of the operands. -/
def elementwise (w : Nat) (g : BitVec w → BitVec w → BitVec w) (a b r : Qword) : Prop :=
  ∀ i < 64 / w, lane w r i = g (lane w a i) (lane w b i)

/-- A number kept in the range of signed numbers of `w` bits. -/
def clampS (w : Nat) (x : Int) : BitVec w := BitVec.ofInt w (max (-(2 : Int) ^ (w - 1)) (min ((2 : Int) ^ (w - 1) - 1) x))

/-- A number kept in the range of unsigned numbers of `w` bits. -/
def clampU (w : Nat) (x : Int) : BitVec w := BitVec.ofInt w (max 0 (min ((2 : Int) ^ w - 1) x))

/-- The elements of both operands, narrowed. -/
def narrows (w : Nat) (g : Int → BitVec (w / 2)) (a b r : Qword) : Prop :=
  ∀ i < 64 / w, lane (w / 2) r i = g (lane w a i).toInt ∧ lane (w / 2) r (64 / w + i) = g (lane w b i).toInt

/-- The low or the high elements, interleaved. -/
def interleaves (w : Nat) (high : Bool) (a b r : Qword) : Prop :=
  ∀ i < 32 / w, let j := if high then 32 / w + i else i
    lane w r (2 * i) = lane w a j ∧ lane w r (2 * i + 1) = lane w b j

/-- A shift by the count in the source or by an immediate, of the elements of `w` bits. -/
def packedShiftHas (mk : MShift → Instr) (w : Nat) (g : BitVec w → Nat → BitVec w) : Prop :=
  packedHas (fun d src => mk (.rm d src)) 8 (fun a b r => ∀ i < 64 / w, lane w r i = g (lane w a i) b.toNat) ∧
  ∀ (s : State) d n, s.plain → s.mmxReady →
    ∃ r, (∀ i < 64 / w, lane w r i = g (lane w (s.fpu.mm d) i) n.toNat) ∧
      completes (mk (.imm d n)) s { s with fpu := (s.fpu.setMm d r).mmxLeft }

/-- The MMX instructions: every one checks for #UD, #NM and a pending exception (47_mmx R550). -/
def isMmx : Instr → Bool
  | .emms | .movd _ | .movq _ | .packsswb _ _ | .packssdw _ _ | .packuswb _ _ | .paddb _ _ | .paddw _ _ | .paddd _ _
  | .paddsb _ _ | .paddsw _ _ | .paddusb _ _ | .paddusw _ _ | .pand _ _ | .pandn _ _ | .pcmpeqb _ _ | .pcmpeqw _ _
  | .pcmpeqd _ _ | .pcmpgtb _ _ | .pcmpgtw _ _ | .pcmpgtd _ _ | .pmaddwd _ _ | .pmulhw _ _ | .pmullw _ _ | .por _ _
  | .psllw _ | .pslld _ | .psllq _ | .psraw _ | .psrad _ | .psrlw _ | .psrld _ | .psrlq _ | .psubb _ _ | .psubw _ _
  | .psubd _ _ | .psubsb _ _ | .psubsw _ _ | .psubusb _ _ | .psubusw _ _ | .punpckhbw _ _ | .punpckhwd _ _
  | .punpckhdq _ _ | .punpcklbw _ _ | .punpcklwd _ _ | .punpckldq _ _ | .pxor _ _ => true
  | _ => false

end Sys2Proof.Machine
end

