-- ==== Sys2Proof/Certificates/Slice0/Obligations.lean ====
section
/-! DEFINITION. The statements for the provers. -/

open Sys2Proof Sys2Proof.Machine

/-! ## Integer instructions -/

/-- ADD, ADC, SUB, SBB, AND, OR, XOR and CMP in all their operand forms: the result, the flags of R43 to R45, and nothing
else changes. The model's choices: log 6, AF after AND, OR and XOR. -/
def Obligations.TwoOperandResults : Prop :=
  aluHas .add true (addEffect false) ∧ aluHas .adc true (addEffect true) ∧
  aluHas .sub true (subEffect false) ∧ aluHas .sbb true (subEffect true) ∧ aluHas .cmp false (subEffect false) ∧
  aluHas .and_ true (logicEffect (fun a b => a &&& b)) ∧ aluHas .or_ true (logicEffect (fun a b => a ||| b)) ∧
  aluHas .xor_ true (logicEffect (fun a b => a ^^^ b))

/-- TEST, INC, DEC, NEG and NOT in all their operand forms. The model's choices: log 6, AF after TEST. -/
def Obligations.TestAndUnaryResults : Prop :=
  (∀ (s : State) w d r l s1, s.plain → locate (s.wd w) d .r s = .ok l s1 →
    completes (.test (.rmR w d r)) s
      (l.putIf false (s.wd w) (logicEffect (fun a b => a &&& b) s1 (l.value (s.wd w) s1) (s.reg (s.wd w) r)))) ∧
  accImmHas (fun w i => .test (.accImm w i)) false (logicEffect (fun a b => a &&& b)) ∧
  (∀ (s : State) w d i l s1, s.plain → locate (s.wd w) d .r s = .ok l s1 →
    completes (.test (.rmImm w d i)) s
      (l.putIf false (s.wd w) (logicEffect (fun a b => a &&& b) s1 (l.value (s.wd w) s1) (immSz (s.wd w) i)))) ∧
  rmHas (fun w d => .inc (.rm w d)) (fun s a => ({ s with flags := { s.flags.addF a 1 false with cf := s.flags.cf } }, a + 1)) ∧
  rmHas (fun w d => .dec (.rm w d)) (fun s a => ({ s with flags := { s.flags.subF a 1 false with cf := s.flags.cf } }, a - 1)) ∧
  (∀ (s : State) r, s.plain → completes (.inc (.reg r)) s
    ({ s with flags := { s.flags.addF (s.reg s.osz r) 1 false with cf := s.flags.cf } }.setReg s.osz r (s.reg s.osz r + 1))) ∧
  (∀ (s : State) r, s.plain → completes (.dec (.reg r)) s
    ({ s with flags := { s.flags.subF (s.reg s.osz r) 1 false with cf := s.flags.cf } }.setReg s.osz r (s.reg s.osz r - 1))) ∧
  rmHas .neg (fun s a => ({ s with flags := s.flags.subF 0 a false }, 0 - a)) ∧
  rmHas .not_ (fun s a => (s, ~~~a))

/-- MUL and IMUL in all their forms: the product, and CF and OF telling whether it was cut off; SF, ZF, AF and PF are
undefined. The model's choices: log 6, SF, ZF, AF and PF. -/
def Obligations.MultiplyResults : Prop :=
  (∀ (s : State) w m l s1, s.plain → locate (s.wd w) m .r s = .ok l s1 →
    let p := (s.reg (s.wd w) .eax).toNat * (l.value (s.wd w) s1).toNat
    completes (.mul w m) s ((s1.putWide (s.wd w) p).undefFlags 4 (mulUndef (decide (2 ^ (s.wd w).bits ≤ p))))) ∧
  (∀ (s : State) w m l s1, s.plain → locate (s.wd w) m .r s = .ok l s1 →
    let p := (s.reg (s.wd w) .eax).toInt * (l.value (s.wd w) s1).toInt
    completes (.imul (.one w m)) s
      ((s1.putWide (s.wd w) (BitVec.ofInt (2 * (s.wd w).bits) p).toNat).undefFlags 4
        (mulUndef (decide ((BitVec.ofInt (s.wd w).bits p).toInt ≠ p))))) ∧
  (∀ (s : State) r m l s1, s.plain → locate s.osz m .r s = .ok l s1 →
    let p := (s.reg s.osz r).toInt * (l.value s.osz s1).toInt
    completes (.imul (.two r m)) s
      ((s1.setReg s.osz r (BitVec.ofInt s.osz.bits p)).undefFlags 4
        (mulUndef (decide ((BitVec.ofInt s.osz.bits p).toInt ≠ p))))) ∧
  (∀ (s : State) r m i l s1, s.plain → locate s.osz m .r s = .ok l s1 →
    let p := (l.value s.osz s1).toInt * (match i with | .v x => immSz s.osz x | .b x => sext8 s.osz x).toInt
    completes (.imul (.three r m i)) s
      ((s1.setReg s.osz r (BitVec.ofInt s.osz.bits p)).undefFlags 4
        (mulUndef (decide ((BitVec.ofInt s.osz.bits p).toInt ≠ p)))))

/-- DIV and IDIV: the quotient goes to the lower, the remainder to the upper half of the accumulator, and all status flags
are undefined. Division by 0 or with a quotient that does not fit, and AAM by 0, take the divide error with nothing changed
but what reading the operand changes; the flags that DIV and IDIV then save are undefined too. The model's choices: log 6,
all status flags. -/
def Obligations.DivideResults : Prop :=
  ((∀ (s : State) w m l s1, s.plain → locate (s.wd w) m .r s = .ok l s1 →
    let b := (l.value (s.wd w) s1).toNat
    let d := s.wideAcc (s.wd w)
    b ≠ 0 → d / b < 2 ^ (s.wd w).bits →
    completes (.div w m) s
      ((s1.putWide (s.wd w) (d % b * 2 ^ (s.wd w).bits + d / b)).undefFlags 6 allUndef)) ∧
  (∀ (s : State) w m l s1, s.plain → locate (s.wd w) m .r s = .ok l s1 →
    let b := (l.value (s.wd w) s1).toInt
    let d := (BitVec.ofNat (2 * (s.wd w).bits) (s.wideAcc (s.wd w))).toInt
    b ≠ 0 → -(2 : Int) ^ ((s.wd w).bits - 1) ≤ d.tdiv b → d.tdiv b < (2 : Int) ^ ((s.wd w).bits - 1) →
    completes (.idiv w m) s
      ((s1.putWide (s.wd w) ((BitVec.ofInt (s.wd w).bits (d.tmod b)).toNat * 2 ^ (s.wd w).bits +
        (BitVec.ofInt (s.wd w).bits (d.tdiv b)).toNat)).undefFlags 6 allUndef))) ∧
  ((∀ (s : State) w m l s1, s.plain → locate (s.wd w) m .r s = .ok l s1 →
    let b := (l.value (s.wd w) s1).toNat
    b = 0 ∨ 2 ^ (s.wd w).bits ≤ s.wideAcc (s.wd w) / b →
    let u := s1.undefFlags 6 allUndef
    exec (.div w m) s = takeExc { Exc.de with flags := some u.flags } (s.rollback u)) ∧
  (∀ (s : State) w m l s1, s.plain → locate (s.wd w) m .r s = .ok l s1 →
    let b := (l.value (s.wd w) s1).toInt
    let d := (BitVec.ofNat (2 * (s.wd w).bits) (s.wideAcc (s.wd w))).toInt
    b = 0 ∨ d.tdiv b < -(2 : Int) ^ ((s.wd w).bits - 1) ∨ (2 : Int) ^ ((s.wd w).bits - 1) ≤ d.tdiv b →
    let u := s1.undefFlags 6 allUndef
    exec (.idiv w m) s = takeExc { Exc.de with flags := some u.flags } (s.rollback u)) ∧
  (∀ s : State, s.plain → exec (.aam 0) s = takeExc .de (s.rollback s)))

/-- The decimal adjustments; CBW, CWDE, CWD, CDQ and NOP. The model's choices: log 6, the undefined flags. -/
def Obligations.DecimalAndConversionResults : Prop :=
  (∀ s : State, s.plain →
    let al := s.reg .b .eax
    let ah := s.reg .b .esp
    let adj := decide (9 < al.toNat % 16) || s.flags.af
    completes .aaa s
      (((s.setReg .b .eax ((if adj then al + 6 else al) &&& 0x0F#8)).setReg .b .esp (if adj then ah + 1 else ah)).undefFlags 4
        (fun u f => { f with af := adj, cf := adj, of_ := u 0, sf := u 1, zf := u 2, pf := u 3 })) ∧
    completes .aas s
      (((s.setReg .b .eax ((if adj then al - 6 else al) &&& 0x0F#8)).setReg .b .esp (if adj then ah - 1 else ah)).undefFlags 4
        (fun u f => { f with af := adj, cf := adj, of_ := u 0, sf := u 1, zf := u 2, pf := u 3 })) ∧
    (∀ b : Byte, completes (.aad b) s
      (((s.setReg .b .eax (al + ah * b)).setReg .b .esp 0).undefFlags 3
        (fun u f => { f.szp (al + ah * b) with of_ := u 0, af := u 1, cf := u 2 }))) ∧
    (∀ b : Byte, b ≠ 0 → completes (.aam b) s
      (((s.setReg .b .esp (al / b)).setReg .b .eax (al % b)).undefFlags 3
        (fun u f => { f.szp (al % b) with of_ := u 0, af := u 1, cf := u 2 }))) ∧
    (let a1 := if adj then al + 6 else al
     let c1 := s.flags.cf || (adj && decide (256 ≤ al.toNat + 6))
     let high := decide (0x90 < (a1 &&& 0xF0#8).toNat) || c1
     let a2 := if high then a1 + 0x60#8 else a1
     completes .daa s ((s.setReg .b .eax a2).undefFlags 1
       (fun u f => { f.szp a2 with af := adj, cf := high, of_ := u 0 }))) ∧
    (let a1 := if adj then al - 6 else al
     let c1 := s.flags.cf || (adj && decide (al.toNat < 6))
     let high := decide (0x9F < a1.toNat) || c1
     let a2 := if high then a1 - 0x60#8 else a1
     completes .das s ((s.setReg .b .eax a2).undefFlags 1
       (fun u f => { f.szp a2 with af := adj, cf := high, of_ := u 0 })))) ∧
  (∀ s : State, s.plain →
    (s.os32 = false → completes .cbw s (s.setReg .w .eax ((s.reg .b .eax).signExtend 16))) ∧
    (s.os32 = true → completes .cwde s (s.setReg .d .eax ((s.reg .w .eax).signExtend 32))) ∧
    (s.os32 = false → completes .cwd s (s.setReg .w .edx (if (s.reg .w .eax).msb then 0xFFFF#16 else 0#16))) ∧
    (s.os32 = true → completes .cdq s (s.setReg .d .edx (if (s.reg .d .eax).msb then 0xFFFFFFFF#32 else 0#32))) ∧
    completes .nop s s)

/-- CLC, STC, CMC, CLD and STD with their opcodes: they change their flag and nothing else. -/
def Obligations.FlagInstructions : Prop :=
  (∀ c rest, decode c (0xF8 :: rest) = some (.clc, rest) ∧ decode c (0xF9 :: rest) = some (.stc, rest) ∧
    decode c (0xF5 :: rest) = some (.cmc, rest) ∧ decode c (0xFC :: rest) = some (.cld, rest) ∧
    decode c (0xFD :: rest) = some (.std, rest)) ∧
  ∀ s : State, s.plain →
    completes .clc s { s with flags := { s.flags with cf := false } } ∧
    completes .stc s { s with flags := { s.flags with cf := true } } ∧
    completes .cmc s { s with flags := { s.flags with cf := !s.flags.cf } } ∧
    completes .cld s { s with flags := { s.flags with df := false } } ∧
    completes .std s { s with flags := { s.flags with df := true } }

/-- LAHF and SAHF with their opcodes: AH takes SF:ZF:0:AF:0:PF:1:CF and nothing else changes; SF, ZF, AF, PF and CF take
their bits of AH and nothing else changes. (Register number 4 at width 8 is AH.) -/
def Obligations.FlagsAndAh : Prop :=
  (∀ c rest, decode c (0x9F :: rest) = some (.lahf, rest) ∧ decode c (0x9E :: rest) = some (.sahf, rest)) ∧
  ∀ s : State, s.plain →
    completes .lahf s (s.setReg .b .esp
      (BitVec.ofBool s.flags.sf ++ BitVec.ofBool s.flags.zf ++ 0#1 ++ BitVec.ofBool s.flags.af ++ 0#1 ++
        BitVec.ofBool s.flags.pf ++ 1#1 ++ BitVec.ofBool s.flags.cf)) ∧
    (let ah := s.reg .b .esp
     completes .sahf s { s with flags := { s.flags with
       sf := ah.getLsbD 7, zf := ah.getLsbD 6, af := ah.getLsbD 4, pf := ah.getLsbD 2, cf := ah.getLsbD 0 } })

/-- What the carry, overflow and adjust flags of an addition and a subtraction mean: CF that the unsigned, OF that the
signed result does not fit, AF a carry or borrow out of bit 3, ZF and SF the result's being 0 and its sign. -/
def Obligations.FlagsOfSums : Prop :=
  ∀ (w : Nat) (f : Flags) (a b : BitVec w) (c : Bool), 4 ≤ w →
    ((f.addF a b c).cf = decide ((addC a b c).toNat ≠ a.toNat + b.toNat + carryNat c) ∧
     (f.addF a b c).of_ = decide ((addC a b c).toInt ≠ a.toInt + b.toInt + (carryNat c : Int)) ∧
     (f.addF a b c).af = decide ((addC a b c).toNat % 16 ≠ a.toNat % 16 + b.toNat % 16 + carryNat c) ∧
     (f.addF a b c).zf = decide ((addC a b c).toNat = 0) ∧ (f.addF a b c).sf = decide ((addC a b c).toInt < 0)) ∧
    ((f.subF a b c).cf = decide (((subC a b c).toNat : Int) ≠ a.toNat - b.toNat - carryNat c) ∧
     (f.subF a b c).of_ = decide ((subC a b c).toInt ≠ a.toInt - b.toInt - (carryNat c : Int)) ∧
     (f.subF a b c).af = decide (((subC a b c).toNat % 16 : Nat) ≠ ((a.toNat % 16 : Nat) : Int) - (b.toNat % 16 : Nat) - carryNat c) ∧
     (f.subF a b c).zf = decide ((subC a b c).toNat = 0) ∧ (f.subF a b c).sf = decide ((subC a b c).toInt < 0))

/-- The sixteen conditions, each odd one the negation of the one before it; the low four bits of a Jcc (short or near),
CMOVcc or SETcc opcode select them; and after a comparison they order the operands, b to a as unsigned, l to g as signed
numbers. -/
def Obligations.ConditionsOrderOperands : Prop :=
  (∀ f : Flags,
    f.cond .o = f.of_ ∧ f.cond .b = f.cf ∧ f.cond .e = f.zf ∧ (f.cond .be = true ↔ f.cf = true ∨ f.zf = true) ∧
    f.cond .s = f.sf ∧ f.cond .p = f.pf ∧ (f.cond .l = true ↔ f.sf ≠ f.of_) ∧
    (f.cond .le = true ↔ f.zf = true ∨ f.sf ≠ f.of_) ∧
    (∀ p ∈ [(Cond.o, Cond.no), (.b, .ae), (.e, .ne), (.be, .a), (.s, .ns), (.p, .np), (.l, .ge), (.le, .g)],
      f.cond p.2 = !f.cond p.1)) ∧
  (∀ (n : Nat) p q r, jccs[n]? = some p → cmovs[n]? = some q → setccs[n]? = some r →
    p.2 = q.2 ∧ q.2 = r.2 ∧ [Cond.o, .no, .b, .ae, .e, .ne, .be, .a, .s, .ns, .p, .np, .l, .ge, .le, .g][n]? = some p.2 ∧
    ∀ c d rest, decode c (BitVec.ofNat 8 (0x70 + n) :: d :: rest) = some (p.1 (.short d), rest) ∧
      decode c (0x0F :: BitVec.ofNat 8 (0x40 + n) :: 0xC1 :: rest) = some (q.1 .eax (.reg .ecx), rest) ∧
      decode c (0x0F :: BitVec.ofNat 8 (0x90 + n) :: 0xC1 :: rest) = some (r.1 (.reg .ecx), rest) ∧
      ∀ a b e, decode c (0x0F :: BitVec.ofNat 8 (0x80 + n) :: d :: a :: (if c.os32 then b :: e :: rest else rest)) =
        some (p.1 (.near (if c.os32 then e ++ b ++ a ++ d else (a ++ d).setWidth 32)), rest)) ∧
  ∀ (sz : Sz) (f : Flags) (a b : BitVec sz.bits),
    let g := f.subF a b false
    g.cond .b = decide (a.toNat < b.toNat) ∧ g.cond .ae = decide (b.toNat ≤ a.toNat) ∧ g.cond .e = decide (a = b) ∧
    g.cond .ne = decide (a ≠ b) ∧ g.cond .be = decide (a.toNat ≤ b.toNat) ∧ g.cond .a = decide (b.toNat < a.toNat) ∧
    g.cond .l = decide (a.toInt < b.toInt) ∧ g.cond .ge = decide (b.toInt ≤ a.toInt) ∧
    g.cond .le = decide (a.toInt ≤ b.toInt) ∧ g.cond .g = decide (b.toInt < a.toInt)

/-- The seven shifts and rotates: a masked count of 0 changes nothing; any other gives the result and the flags of the kind,
OF undefined unless the count is 1, AF undefined after a shift. SHLD and SHRD: a count above the operand size leaves the
destination and the flags undefined, and any other moves the bits as the spec's loops do. Each flag that these set, clear,
keep or leave undefined. The model's choices: log 6, the undefined flags and results; log 55, a count of 0 with a memory
operand. -/
def Obligations.ShiftResults : Prop :=
  (∀ p ∈ shifts, ∀ (s : State) f l s1, s.plain → locate (s.wd f.w) f.dst .rw s = .ok l s1 →
    let a := l.value (s.wd f.w) s1
    let n := s.count f.count
    completes (p.1 f) s
      (if n = 0 then s1 else l.put (s.wd f.w) (p.2.result a s.flags.cf n) (s1.undefFlags 3 (p.2.flags a n)))) ∧
  ((∀ (left : Bool) (s : State) (f : ShxdForm) l s1, s.plain → locate s.osz (shxdParts s f).1 .rw s = .ok l s1 →
    let a := l.value s.osz s1
    let b := s.reg s.osz (shxdParts s f).2.1
    let n := (shxdParts s f).2.2
    completes (if left then .shld f else .shrd f) s
      (if n = 0 then s1
       else if s.osz.bits < n then
         l.put s.osz ((Config.freeDword (s1.fresh + 6)).setWidth s.osz.bits)
           { s1.undefFlags 6 allUndef with fresh := s1.fresh + 7 }
       else l.put s.osz (shxdResult left a b n) (s1.undefFlags 2 (shxdFlags left a b n)))) ∧
  (∀ (w : Nat) (a b : BitVec w) (n i : Nat), n ≤ w → i < w →
    (shxdResult true a b n).getLsbD i = (if n ≤ i then a.getLsbD (i - n) else b.getLsbD (i + w - n)) ∧
    (shxdResult false a b n).getLsbD i = (if i + n < w then a.getLsbD (i + n) else b.getLsbD (i + n - w)))) ∧
  (∀ (sz : Sz) (a b : BitVec sz.bits) (n : Nat) (u : Nat → Bool) (f : Flags), 0 < n → n < 32 →
    (∀ k : ShiftKind,
      let r := k.result a f.cf n
      let t := k.flags a n u f
      let second := r.getLsbD (sz.bits - 2)
      t = { f with cf := t.cf, of_ := t.of_, sf := t.sf, zf := t.zf, pf := t.pf, af := t.af } ∧
      (if k = .shl ∨ k = .shr ∨ k = .sar then ofResult t r ∧ t.af = u 2
       else t.sf = f.sf ∧ t.zf = f.zf ∧ t.pf = f.pf ∧ t.af = f.af) ∧
      (n ≠ 1 → t.of_ = u 1) ∧
      (n = 1 → t.of_ = match k with
        | .rol | .rcl => r.msb ^^ t.cf
        | .ror | .rcr => r.msb ^^ second
        | .shl => decide (r.msb ≠ t.cf)
        | .shr => a.msb
        | .sar => false)) ∧
    (∀ left : Bool, n ≤ sz.bits →
      let r := shxdResult left a b n
      let t := shxdFlags left a b n u f
      t = { f with cf := t.cf, of_ := t.of_, sf := t.sf, zf := t.zf, pf := t.pf, af := t.af } ∧ ofResult t r ∧ t.af = u 0 ∧
      t.cf = a.getLsbD (if left then sz.bits - n else n - 1) ∧
      t.of_ = if n = 1 then decide (r.msb ≠ a.msb) else u 1))

/-- Shifting and rotating by a count is turning the spec's loop, for the result and for CF. The model's choices: log 6, CF
of SHL and SHR by the operand size or more. -/
def Obligations.ShiftsAreLoops : Prop :=
  ∀ (k : ShiftKind) (sz : Sz) (a : BitVec sz.bits) (c free : Bool) (n : Nat), 0 < n → n < 32 →
    let x := k.loop (k.turns sz.bits n) (a, c)
    k.result a c n = x.1 ∧ k.carry a c n free = k.finalCf n x free

/-- BT, BTC, BTR, BTS: the selected bit goes to CF, the other status flags are undefined, and the unit is rewritten with
that bit complemented, cleared or set. The bit is selected in a register by the offset modulo the operand size, and in
memory, with a register offset, in the byte that the signed offset names, `offset div 8` bytes from the operand. The model's
choices: log 6, OF, SF, ZF, AF and PF. -/
def Obligations.BitTestResults : Prop :=
  ((∀ (s : State) f l i s1, s.plain → bitUnit s.osz f .r s = .ok (l, i) s1 →
    completes (.bt f) s (s1.undefFlags 5 (btUndef ((l.value s.osz s1).getLsbD i)))) ∧
  (∀ (s : State) f l i s1, s.pfx.rep = .none → btFits s f → bitUnit s.osz f .rw s = .ok (l, i) s1 →
    let a := l.value s.osz s1
    let m := BitVec.ofNat s.osz.bits (2 ^ i)
    let t := s1.undefFlags 5 (btUndef (a.getLsbD i))
    completes (.btc f) s (l.put s.osz (a ^^^ m) t) ∧ completes (.btr f) s (l.put s.osz (a &&& ~~~m) t) ∧
    completes (.bts f) s (l.put s.osz (a ||| m) t))) ∧
  ((∀ (s : State) r o k, bitUnit s.osz (.rmR (.reg r) o) k s = .ok (.reg r, (s.reg s.osz o).toNat % s.osz.bits) s) ∧
  (∀ (s : State) m (o : Byte) k l s1, locate s.osz m k s = .ok l s1 →
    bitUnit s.osz (.rmImm m o) k s = .ok (l, o.toNat % s.osz.bits) s1) ∧
  (∀ (s : State) a o k l i s1, bitUnit s.osz (.rmR (.mem a) o) k s = .ok (l, i) s1 →
    ∃ (d : Int) (ps : List Nat), access (s.eaSeg a) (s.wrapA (s.gpr.eaOff a + BitVec.ofInt 32 d)) s.osz.bytes s.osz.bytes k s =
        .ok ps s1 ∧ l = .mem ps ∧ i < s.osz.bits ∧
      d + (i / 8 : Nat) = (s.reg s.osz o).toInt / 8 ∧ ((i % 8 : Nat) : Int) = (s.reg s.osz o).toInt % 8))

/-- BSF and BSR give the lowest and the highest set bit, an undefined destination for a source of 0; BSWAP reverses the
bytes of a doubleword and leaves a 16-bit operand undefined. The model's choices: log 6, the undefined flags and results. -/
def Obligations.ScanAndSwapResults : Prop :=
  (∀ (s : State) r m l s1 i, s.plain → locate s.osz m .r s = .ok l s1 → i < s.osz.bits →
    let a := l.value s.osz s1
    a.getLsbD i = true →
    ((∀ j < i, a.getLsbD j = false) → completes (.bsf r m) s
      ((s1.undefFlags 5 (scanUndef false)).setReg s.osz r (BitVec.ofNat s.osz.bits i))) ∧
    ((∀ j, i < j → a.getLsbD j = false) → completes (.bsr r m) s
      ((s1.undefFlags 5 (scanUndef false)).setReg s.osz r (BitVec.ofNat s.osz.bits i)))) ∧
  (∀ (s : State) r m l s1, s.plain → locate s.osz m .r s = .ok l s1 → l.value s.osz s1 = 0 →
    let t := { s1.undefFlags 5 (scanUndef true) with fresh := s1.fresh + 6 }.setReg s.osz r
      ((Config.freeDword (s1.fresh + 5)).setWidth s.osz.bits)
    completes (.bsf r m) s t ∧ completes (.bsr r m) s t) ∧
  (∀ (s : State) r, s.plain → s.os32 = true → completes (.bswap r) s
    (s.setReg .d r ((s.reg .d r).extractLsb' 0 8 ++ (s.reg .d r).extractLsb' 8 8 ++ (s.reg .d r).extractLsb' 16 8 ++
      (s.reg .d r).extractLsb' 24 8))) ∧
  (∀ (s : State) r, s.plain → s.os32 = false →
    completes (.bswap r) s ({ s with fresh := s.fresh + 1 }.setReg .d r (Config.freeDword s.fresh)))

/-- CMOVcc moves where its condition holds and reads its source in any case; SETcc writes 1 or 0. -/
def Obligations.ConditionalResults : Prop :=
  (∀ p ∈ cmovs, ∀ (s : State) r m l s1, s.plain → locate s.osz m .r s = .ok l s1 →
    completes (p.1 r m) s (if s.flags.cond p.2 then s1.setReg s.osz r (l.value s.osz s1) else s1)) ∧
  (∀ p ∈ setccs, ∀ (s : State) m l s1, s.plain → locate .b m .w s = .ok l s1 →
    completes (p.1 m) s (l.put .b (if s.flags.cond p.2 then 1 else 0) s1))

/-! ## Data movement and the stack -/

/-- MOV, MOVSX, MOVZX, LEA and XLAT. The model's choices: log 29, the forms r16, r/m16. -/
def Obligations.MoveResults : Prop :=
  ∀ s : State, s.plain →
    (∀ w d r l s1, locate (s.wd w) d .w s = .ok l s1 →
      completes (.mov (.rmR w d r)) s (l.put (s.wd w) (s.reg (s.wd w) r) s1)) ∧
    (∀ w r m l s1, locate (s.wd w) m .r s = .ok l s1 →
      completes (.mov (.rRm w r m)) s (s1.setReg (s.wd w) r (l.value (s.wd w) s1))) ∧
    (∀ w r i, completes (.mov (.rImm w r i)) s (s.setReg (s.wd w) r (immSz (s.wd w) i))) ∧
    (∀ w d i l s1, locate (s.wd w) d .w s = .ok l s1 →
      completes (.mov (.rmImm w d i)) s (l.put (s.wd w) (immSz (s.wd w) i) s1)) ∧
    (∀ w o ps s1, access s.dsSeg o (s.wd w).bytes (s.wd w).bytes .r s = .ok ps s1 →
      completes (.mov (.accMoffs w o)) s (s1.setReg (s.wd w) .eax (BitVec.ofNat (s.wd w).bits (s1.at ps)))) ∧
    (∀ w o ps s1, access s.dsSeg o (s.wd w).bytes (s.wd w).bytes .w s = .ok ps s1 →
      completes (.mov (.moffsAcc w o)) s (s1.stored ps (s.reg (s.wd w) .eax).toNat)) ∧
    (∀ w r m l s1, locate (extSrc w) m .r s = .ok l s1 →
      completes (.movsx w r m) s (s1.setReg s.osz r ((l.value (extSrc w) s1).signExtend s.osz.bits)) ∧
      completes (.movzx w r m) s (s1.setReg s.osz r ((l.value (extSrc w) s1).setWidth s.osz.bits))) ∧
    (∀ r a, completes (.lea r (.mem a)) s (s.setReg s.osz r ((s.gpr.eaOff a).setWidth s.osz.bits))) ∧
    (∀ ps s1, access s.dsSeg (s.wrapA (s.regA .ebx + (s.reg .b .eax).setWidth 32)) 1 1 .r s = .ok ps s1 →
      completes .xlat s (s1.setReg .b .eax (BitVec.ofNat 8 (s1.at ps))))

/-- XCHG, XADD, CMPXCHG and CMPXCHG8B. -/
def Obligations.ExchangeResults : Prop :=
  ∀ s : State, s.pfx.rep = .none →
    (∀ w d r l s1, lockFits s true d → locate (s.wd w) d .rw s = .ok l s1 →
      let a := l.value (s.wd w) s1
      let b := s.reg (s.wd w) r
      completes (.xchg (.rmR w d r)) s ((l.put (s.wd w) b s1).setReg (s.wd w) r a) ∧
      completes (.xadd w d r) s
        (l.put (s.wd w) (a + b) ({ s1 with flags := s1.flags.addF a b false }.setReg (s.wd w) r a)) ∧
      let c := s.reg (s.wd w) .eax
      let u := { s1 with flags := s1.flags.subF c a false }
      completes (.cmpxchg w d r) s (if c = a then l.put (s.wd w) b u else (l.put (s.wd w) a u).setReg (s.wd w) .eax a)) ∧
    (∀ r, s.pfx.lock = false →
      completes (.xchg (.acc r)) s ((s.setReg s.osz .eax (s.reg s.osz r)).setReg s.osz r (s.reg s.osz .eax))) ∧
    (∀ a ps s1, accessEa a 8 8 .rw s = .ok ps s1 →
      let g := s.gpr
      if g.edx.toNat * 2 ^ 32 + g.eax.toNat = s1.at ps then
        completes (.cmpxchg8b (.mem a)) s
          { s1.stored ps (g.ecx.toNat * 2 ^ 32 + g.ebx.toNat) with flags := { s.flags with zf := true } }
      else completes (.cmpxchg8b (.mem a)) s
          { s1.stored ps (s1.at ps) with
            flags := { s.flags with zf := false }
            gpr := { g with edx := BitVec.ofNat 32 (s1.at ps / 2 ^ 32), eax := BitVec.ofNat 32 (s1.at ps) } })

/-- Moving segment registers: a selector is stored in 16 bits of memory or zero-extended into a register; a load loads the
register and, for SS, begins the interrupt shadow; the far-pointer loads load an offset with it. Loading CS by MOV, or
naming segment register 6 or 7, is #UD; and in protected mode a load that the descriptor forbids faults with the selector as
its error code: #GP for a null SS, a descriptor outside its table, of the wrong type or level, #NP or #SS for one that is
not present. The model's choices: log 27, real-address mode keeps the limit. -/
def Obligations.SegmentRegisterMoves : Prop :=
  (∀ s : State, s.plain →
    (∀ n r d, sregOf n = some r → completes (.movSreg (.fromSreg (.reg d) n)) s
      (if s.os32 then s.setReg .d d ((s.seg.get r).sel.setWidth 32) else s.setReg .w d (s.seg.get r).sel)) ∧
    (∀ n r a ps s1, sregOf n = some r → accessEa a 2 2 .w s = .ok ps s1 →
      completes (.movSreg (.fromSreg (.mem a) n)) s (s1.stored ps (s.seg.get r).sel.toNat)) ∧
    (∀ n r m l s1 t, sregOf n = some r → r ≠ .cs → locate .w m .r s = .ok l s1 → SegLoads r (l.value .w s1) s1 t →
      completes (.movSreg (.toSreg n m)) s (if r = .ss then { t with shadow := .movSs } else t)) ∧
    (∀ d a sel off s1 t, readFar a s.osz.bytes s = .ok (sel, off) s1 →
      (SegLoads .ds sel s1 t → completes (.lds d (.mem a)) s (t.setReg s.osz d (off.setWidth s.osz.bits))) ∧
      (SegLoads .es sel s1 t → completes (.les d (.mem a)) s (t.setReg s.osz d (off.setWidth s.osz.bits))) ∧
      (SegLoads .ss sel s1 t → completes (.lss d (.mem a)) s (t.setReg s.osz d (off.setWidth s.osz.bits))) ∧
      (SegLoads .fs sel s1 t → completes (.lfs d (.mem a)) s (t.setReg s.osz d (off.setWidth s.osz.bits))) ∧
      (SegLoads .gs sel s1 t → completes (.lgs d (.mem a)) s (t.setReg s.osz d (off.setWidth s.osz.bits))))) ∧
  (∀ s : State, s.plain →
    (∀ n m, (n = .i1 ∨ n = .i6 ∨ n = .i7) → exec (.movSreg (.toSreg n m)) s = takeExc .ud (s.rollback s)) ∧
    (∀ n m, (n = .i6 ∨ n = .i7) → exec (.movSreg (.fromSreg m n)) s = takeExc .ud (s.rollback s)) ∧
    (∀ m l s1 n r, s.prot = true → locate .w m .r s = .ok l s1 → sregOf n = some r → r ≠ .cs →
      let sel := l.value .w s1
      (isNull sel = true → r = .ss → exec (.movSreg (.toSreg n m)) s = takeExc (.gp 0) (s.rollback s1)) ∧
      (isNull sel = false →
        (∀ s2, readDesc sel s1 = .ok none s2 → exec (.movSreg (.toSreg n m)) s = takeExc (.gp sel) (s.rollback s2)) ∧
        (∀ d s2, readDesc sel s1 = .ok (some d) s2 →
          (r = .ss → ¬ (rpl sel = s.curPl ∧ d.writable = true ∧ d.dpl = s.curPl) →
            exec (.movSreg (.toSreg n m)) s = takeExc (.gp sel) (s.rollback s2)) ∧
          (r = .ss → rpl sel = s.curPl → d.writable = true → d.dpl = s.curPl → d.p = false →
            exec (.movSreg (.toSreg n m)) s = takeExc (.ss sel) (s.rollback s2)) ∧
          (r ≠ .ss → ¬ (d.readable = true ∧ ((d.isCode && d.conf) = true ∨ rpl sel ≤ d.dpl ∧ s.curPl ≤ d.dpl)) →
            exec (.movSreg (.toSreg n m)) s = takeExc (.gp sel) (s.rollback s2)) ∧
          (r ≠ .ss → d.readable = true → ((d.isCode && d.conf) = true ∨ rpl sel ≤ d.dpl ∧ s.curPl ≤ d.dpl) → d.p = false →
            exec (.movSreg (.toSreg n m)) s = takeExc (.np sel) (s.rollback s2))))))

/-- BOUND reads both bounds and changes nothing where the index lies within them (the upper bound widened by the operand
size); else it takes #BR. The model's choices: log 33, the slack of the upper bound. -/
def Obligations.BoundResults : Prop :=
  ∀ (s : State) r a ps s1 qs s2, s.plain →
    access (s.eaSeg a) (s.gpr.eaOff a) s.osz.bytes s.osz.bytes .r s = .ok ps s1 →
    access (s.eaSeg a) (s.wrapA (s.gpr.eaOff a + BitVec.ofNat 32 s.osz.bytes)) s.osz.bytes s.osz.bytes .r s1 = .ok qs s2 →
    let lo := (BitVec.ofNat s.osz.bits (s1.at ps)).toInt
    let hi := (BitVec.ofNat s.osz.bits (s2.at qs)).toInt
    let i := (s.reg s.osz r).toInt
    if lo ≤ i ∧ i ≤ hi + s.osz.bytes then completes (.bound r (.mem a)) s s2
    else exec (.bound r (.mem a)) s = takeExc .br (s.rollback s2)

/-- PUSH in all its forms; in real-address mode with a stack pointer of 1 it shuts the processor down. POP in all its forms:
the stack pointer has moved when the destination is addressed and written. PUSHA and POPA with their 32-bit forms: the eight
registers in order, the saved stack pointer being skipped. The model's choices: log 27, the hidden parts of a loaded
segment. -/
def Obligations.PushPopResults : Prop :=
  (∀ s : State, s.plain →
    (¬ (s.real = true ∧ s.sp = 1) → ∀ t : State,
      (∀ m l s1, locate s.osz m .r s = .ok l s1 → Pushes s.osz.bytes [(l.value s.osz s1).toNat] s1 t →
        completes (.push (.rm m)) s t) ∧
      (∀ r, Pushes s.osz.bytes [(s.reg s.osz r).toNat] s t → completes (.push (.reg r)) s t) ∧
      (∀ i, Pushes s.osz.bytes [(immSz s.osz i).toNat] s t → completes (.push (.imm (.v i))) s t) ∧
      (∀ i, Pushes s.osz.bytes [(sext8 s.osz i).toNat] s t → completes (.push (.imm (.b i))) s t) ∧
      (∀ r, Pushes s.osz.bytes [(s.seg.get r).sel.toNat] s t → completes (.push (.sreg r)) s t)) ∧
    (s.real = true → s.sp = 1 →
      (∀ m l s1, locate s.osz m .r s = .ok l s1 → exec (.push (.rm m)) s = .next (s.rollback s1).shut) ∧
      (∀ r, exec (.push (.reg r)) s = .next (s.rollback s).shut) ∧
      (∀ i, exec (.push (.imm i)) s = .next (s.rollback s).shut) ∧
      (∀ r, exec (.push (.sreg r)) s = .next (s.rollback s).shut))) ∧
  (∀ (s : State) v s1, s.plain → Pops s.osz.bytes [v] s s1 →
    (∀ m l s2, locate s.osz m .w s1 = .ok l s2 → completes (.pop (.rm m)) s (l.put s.osz (BitVec.ofNat s.osz.bits v) s2)) ∧
    (∀ r, completes (.pop (.reg r)) s (s1.setReg s.osz r (BitVec.ofNat s.osz.bits v))) ∧
    (∀ r t, r ≠ .cs → SegLoads r (BitVec.ofNat 16 v) s1 t →
      completes (.pop (.sreg r)) s (if r = .ss then { t with shadow := .movSs } else t))) ∧
  (∀ s : State, s.plain →
    (∀ t, (s.sas32 = false → s.os32 = false → s.prot = false → s.sp.toNat ∉ [1, 3, 5, 7, 9, 11, 13, 15]) →
      Pushes s.osz.bytes ([Reg.eax, .ecx, .edx, .ebx, .esp, .ebp, .esi, .edi].map fun r => (s.reg s.osz r).toNat) s t →
      completes .pusha s t ∧ completes .pushad s t) ∧
    (∀ u t, s.stackHas (8 * s.osz.bytes) = true → PopRegs s.osz [.edi, .esi, .ebp] s u →
      PopRegs s.osz [.ebx, .edx, .ecx, .eax] (u.setSp (u.sp + BitVec.ofNat 32 s.osz.bytes)) t →
      completes .popa s t ∧ completes .popad s t))

/-- PUSHF pushes EFLAGS with VM and RF clear; POPF takes the bits its mode may change. ENTER pushes the frame pointer,
copies the display and its own frame pointer for a nested level, and makes room; LEAVE undoes it. The model's choices: log
26, RF after POPFD. -/
def Obligations.FlagStackAndFrameResults : Prop :=
  (∀ s : State, s.plain → (s.v86 = true → s.flags.iopl = 3) →
    (∀ t, ¬ (s.real = true ∧ s.sp = 1) →
      Pushes s.osz.bytes [((s.flags.toDword &&& 0x00FCFFFF#32).setWidth s.osz.bits).toNat] s t →
      completes .pushf s t ∧ completes .pushfd s t) ∧
    (∀ v s1, Pops s.osz.bytes [v] s s1 →
      let t := { s1 with
        flags := s.poppedFlags ((BitVec.ofNat s.osz.bits v).setWidth 32), rfKept := s.rfKept || s.os32 && !s.v86 }
      completes .popf s t ∧ completes .popfd s t)) ∧
  (∀ s : State, s.plain →
    (∀ size level s1 s2 s3, Pushes s.osz.bytes [s.gpr.ebp.toNat] s s1 →
      (level.toNat % 32 = 0 → s3 = s1) →
      (level.toNat % 32 ≠ 0 → Display s.osz.bytes (level.toNat % 32 - 1) s.fp s1 s2 ∧
        Pushes s.osz.bytes [s1.sp.toNat] s2 s3) →
      let t := (s3.setFp s1.sp).setSp (s3.sp - size.setWidth 32)
      t.stackHas 1 = true → completes (.enter size level) s t) ∧
    (∀ ps s1, access .ss s.fp s.osz.bytes s.osz.bytes .r s = .ok ps s1 →
      completes .leave s ((s1.setSp (s.fp + BitVec.ofNat 32 s.osz.bytes)).setReg s.osz .ebp
        (BitVec.ofNat s.osz.bits (s1.at ps)))))

/-! ## Transfers of control -/

/-- The conditional jumps, JCXZ and the LOOP instructions: taken to the target inside the limit of CS, with #GP(0) outside
it, and otherwise to the next instruction; LOOP counts down first. -/
def Obligations.ConditionalJumps : Prop :=
  ∀ s : State, s.plain →
    (∀ p ∈ jccs, ∀ j, jumps (p.1 j) s s (s.flags.cond p.2) (jumpTarget s j)) ∧
    (∀ d : Byte, jumps (.jcxz d) s s (decide (s.regA .ecx = 0)) (jumpTarget s (.short d)) ∧
      jumps (.jecxz d) s s (decide (s.regA .ecx = 0)) (jumpTarget s (.short d))) ∧
    (∀ d : Byte,
      let u := s.setRegA .ecx (s.regA .ecx - 1)
      let more := decide (s.regA .ecx ≠ 1)
      jumps (.loop d) s u more (jumpTarget s (.short d)) ∧
      jumps (.loope d) s u (more && s.flags.zf) (jumpTarget s (.short d)) ∧
      jumps (.loopne d) s u (more && !s.flags.zf) (jumpTarget s (.short d)))

/-- Near JMP, CALL and RET. -/
def Obligations.NearTransfers : Prop :=
  ∀ s : State, s.plain →
    (∀ d, jumps (.jmp (.short d)) s s true (jumpTarget s (.short d))) ∧
    (∀ d, jumps (.jmp (.rel d)) s s true (jumpTarget s (.near d))) ∧
    (∀ m l s1, locate s.osz m .r s = .ok l s1 →
      let t := (l.value s.osz s1).setWidth 32
      (s.seg.cs.codeOk t = true → completes (.jmp (.rm m)) s { s1 with npc := t }) ∧
      (∀ u, s.seg.cs.codeOk t = true → s.stackRoom s.osz.bytes = true → Pushes s.osz.bytes [s.npc.toNat] s1 u →
        completes (.call (.rm m)) s { u with npc := t })) ∧
    (∀ d u, s.seg.cs.codeOk (jumpTarget s (.near d)) = true → s.stackRoom s.osz.bytes = true →
      Pushes s.osz.bytes [s.npc.toNat] s u → completes (.call (.rel d)) s { u with npc := jumpTarget s (.near d) }) ∧
    (∀ (i : Option Word) v s1, Pops s.osz.bytes [v] s s1 → s.seg.cs.codeOk (BitVec.ofNat 32 v) = true →
      completes (.ret (.near i)) s
        ({ s1 with npc := BitVec.ofNat 32 v }.setSp (s1.sp + (i.getD 0).setWidth 32)))

/-- Far JMP, CALL and RET in real-address and virtual-8086 mode, the pointer in the instruction or in memory. The model's
choices: log 27, the hidden parts of a loaded segment. -/
def Obligations.FarTransfers86 : Prop :=
  ∀ s : State, s.plain → s.prot = false →
    (∀ (f : FarSrc) sel off s1, f.read s = .ok (sel, off) s1 → s.seg.cs.codeOk (s.nearTarget off) = true →
      completes (farJmp f) s (s1.jump86 sel (s.nearTarget off)) ∧
      (∀ u, s.stackRoom (2 * s.osz.bytes - (if s.os32 then 2 else 0)) = true →
        Pushes s.osz.bytes [s.seg.cs.sel.toNat, s.npc.toNat] s1 u →
        completes (farCall f) s (u.jump86 sel (s.nearTarget off)))) ∧
    (∀ (i : Option Word) ip cs s1, s.stackHas (2 * s.osz.bytes) = true → Pops s.osz.bytes [ip, cs] s s1 →
      s.seg.cs.codeOk (BitVec.ofNat 32 ip) = true →
      completes (.ret (.far i)) s
        ((s1.return86 (BitVec.ofNat 16 cs) (BitVec.ofNat 32 ip)).setSp (s1.sp + (i.getD 0).setWidth 32)))

/-- Far JMP and CALL to a code segment in protected mode, the pointer in the instruction or in memory: CS and EIP are loaded
at the same level. -/
def Obligations.FarTransfersDirect : Prop :=
  ∀ (s : State) (f : FarSrc) sel off s0 d s1, s.plain → s.prot = true → f.read s = .ok (sel, off) s0 →
    isNull sel = false → readDesc sel s0 = .ok (some d) s1 → s.directOk sel d →
    (d.seg sel).codeOk (s.nearTarget off) = true →
    (∀ s2, setAccessed d s1 = .ok () s2 →
      completes (farJmp f) s (s2.enterCs sel d s.curPl (s.nearTarget off))) ∧
    (∀ s2 s3, s.stackRoom (2 * s.osz.bytes) = true → Pushes s.osz.bytes [s.seg.cs.sel.toNat, s.npc.toNat] s1 s2 →
      setAccessed d s2 = .ok () s3 →
      completes (farCall f) s (s3.enterCs sel d s.curPl (s.nearTarget off)))

/-- Far JMP and CALL through a call gate, the pointer in the instruction or in memory: to the same level, and for CALL to an
inner level with its stack, on which the old stack pointer, the parameters and the return address are pushed. The model's
choices: log 48, stack parameters are read word by word; log 57, the level of the pushes. -/
def Obligations.CallGateTransfers : Prop :=
  ∀ (s : State) (f : FarSrc) sel off s0 gd s1 c s2, s.plain → s.prot = true → f.read s = .ok (sel, off) s0 →
    isNull sel = false → readDesc sel s0 = .ok (some gd) s1 →
    gd.farKind = .callGate → s.curPl ≤ gd.dpl → rpl sel ≤ gd.dpl → gd.p = true →
    let g := gd.gate
    let m := if g.is32 then 4 else 2
    isNull g.sel = false → readDesc g.sel s1 = .ok (some c) s2 → c.isCode = true → c.p = true →
    (c.seg g.sel).codeOk g.off = true →
    (∀ s3, (if c.conf then c.dpl ≤ s.curPl else c.dpl = s.curPl) → setAccessed c s2 = .ok () s3 →
      completes (farJmp f) s (s3.enterCs g.sel c s.curPl g.off) ∧
      (∀ s4, s.stackRoom (2 * m) = true →
        Pushes m [s.seg.cs.sel.toNat, s.npc.toNat] (s3.enterCs g.sel c s.curPl s.npc) s4 →
        completes (farCall f) s { s4 with npc := g.off })) ∧
    (∀ ss esp sd s3 ps s4 s5 s6 s7, c.conf = false → c.dpl < s.curPl → InnerStack c.dpl s2 ss esp sd s3 →
      (sd.seg ss).roomBelow esp (g.count * m + 4 * m) = true → readParams m g.count s.sp s3 = .ok ps s4 →
      setAccessed sd s4 = .ok () s5 →
      setAccessed c { s5 with seg := { s5.seg with ss := sd.loaded ss }, gpr := { s5.gpr with esp := esp } } = .ok () s6 →
      Pushes m ([s.seg.ss.sel.toNat, s.gpr.esp.toNat] ++ ps.reverse ++ [s.seg.cs.sel.toNat, s.npc.toNat])
        (s6.enterCs g.sel c c.dpl s.npc) s7 →
      completes (farCall f) s { s7 with npc := g.off })

/-- Far RET in protected mode: to the same level, and to an outer level with its stack, the data segments that level may not
use being nullified. The model's choices: log 35, ESP of a return to an outer level. -/
def Obligations.FarReturns : Prop :=
  ∀ (s : State) (i : Option Word) ip cs s1 d s2, s.plain → s.prot = true → s.stackHas (2 * s.osz.bytes) = true →
    Pops s.osz.bytes [ip, cs] s s1 →
    let sel := BitVec.ofNat 16 cs
    let t := BitVec.ofNat 32 ip
    let n : Dword := (i.getD 0).setWidth 32
    readDesc sel s1 = .ok (some d) s2 → s.returnOk sel d → (d.seg sel).codeOk t = true →
    (∀ s3, rpl sel = s.curPl → setAccessed d { s2 with npc := t } = .ok () s3 →
      completes (.ret (.far i)) s ((s3.enterCs sel d s.curPl t).setSp (s3.sp + n))) ∧
    (∀ esp ss s3 sd s4 s5 s6, s.curPl < rpl sel → s.stackHas (4 * s.osz.bytes + (i.getD 0).toNat) = true →
      Pops s.osz.bytes [esp, ss] (s2.setSp (s2.sp + n)) s3 → readDesc (BitVec.ofNat 16 ss) s3 = .ok (some sd) s4 →
      returnStackOk (BitVec.ofNat 16 ss) sel sd → setAccessed d { s4 with npc := t } = .ok () s5 →
      setAccessed sd { s5.enterCs sel d (rpl sel) t with fresh := s5.fresh + 1 } = .ok () s6 →
      let u := { s6 with
        seg := { s6.seg with ss := sd.loaded (BitVec.ofNat 16 ss) }.forLevel (rpl sel)
        gpr := { s6.gpr with esp := outerEsp s.os32 sd s.gpr.esp (Config.freeDword s5.fresh) (BitVec.ofNat 32 esp) } }
      completes (.ret (.far i)) s (u.setSp (u.sp + n)))

/-- IRET in real-address and virtual-8086 mode, and in protected mode to the same level, to an outer level and to
virtual-8086 mode. The model's choices: log 26, RF after IRETD; log 27, the hidden parts of a loaded segment; log 35, ESP of
a return to an outer level; log 49, NMI is unblocked. -/
def Obligations.InterruptReturns : Prop :=
  ∀ (s : State) ip cs fl s1, s.plain → s.stackHas (3 * s.osz.bytes) = true →
    (s.v86 = true → s.flags.iopl = 3) → (s.prot = true → s.flags.nt = false) →
    Pops s.osz.bytes [ip, cs, fl] { s with nmiBlocked := false } s1 →
    let sel := BitVec.ofNat 16 cs
    let t := BitVec.ofNat 32 ip
    let f := BitVec.ofNat 32 fl
    (s.prot = false → s.seg.cs.codeOk t = true →
      let u := { (if s.real then s1.return86 sel t else s1.jump86 sel t) with
        flags := s.iretFlags f, rfKept := s.rfKept || s.os32 }
      completes .iret s u ∧ completes .iretd s u) ∧
    (s.prot = true → (f.getLsbD 17 && s.curPl == 0) = false → ∀ d s2, readDesc sel s1 = .ok (some d) s2 →
      s.returnOk sel d → (d.seg sel).codeOk t = true →
      (∀ s3, rpl sel = s.curPl → setAccessed d { s2 with npc := t } = .ok () s3 →
        let u := { s3.enterCs sel d s.curPl t with flags := s.iretFlags f, rfKept := s.rfKept || s.os32 }
        completes .iret s u ∧ completes .iretd s u) ∧
      (∀ esp ss s3 sd s4 s5 s6, s.curPl < rpl sel → s2.stackHas (2 * s.osz.bytes) = true →
        Pops s.osz.bytes [esp, ss] s2 s3 → readDesc (BitVec.ofNat 16 ss) s3 = .ok (some sd) s4 →
        returnStackOk (BitVec.ofNat 16 ss) sel sd → setAccessed d { s4 with npc := t } = .ok () s5 →
        setAccessed sd { s5.enterCs sel d (rpl sel) t with
          flags := s.iretFlags f, rfKept := s.rfKept || s.os32, fresh := s5.fresh + 1 } = .ok () s6 →
        let u := { s6 with
          seg := { s6.seg with ss := sd.loaded (BitVec.ofNat 16 ss) }.forLevel (rpl sel)
          gpr := { s6.gpr with esp := outerEsp s.os32 sd s.gpr.esp (Config.freeDword s5.fresh) (BitVec.ofNat 32 esp) } }
        completes .iret s u ∧ completes .iretd s u)) ∧
    (s.prot = true → f.getLsbD 17 = true → s.curPl = 0 → s1.stackHas 24 = true → t.toNat ≤ 0xFFFF →
      ∀ esp ss es ds fs gs s2, Pops 4 [esp, ss, es, ds, fs, gs] s1 s2 →
      let load (g : SegReg) (x : Nat) := g.load86 true (BitVec.ofNat 16 x)
      let u := { s2 with
        flags := .ofDword f, rfKept := true, cpl := 3, npc := t, gpr := { s2.gpr with esp := BitVec.ofNat 32 esp }
        seg := { es := load s2.seg.es es, cs := load s2.seg.cs cs, ss := load s2.seg.ss ss, ds := load s2.seg.ds ds
                 fs := load s2.seg.fs fs, gs := load s2.seg.gs gs } }
      completes .iret s u ∧ completes .iretd s u)

/-- Delivering an event in real-address mode, at the same level and to an inner level, from virtual-8086 mode too: taking it
from outside and as a software interrupt. UD2, the reserved encodings and RSM outside system management mode take #UD
whatever the state; it is delivered at the instruction's own address. The model's choices: log 11, #UD of blank cells; log
22, what a failing INT saves; log 23, RF in real-address mode; log 27, the hidden parts of a loaded segment; log 38, no
system management mode; log 49, NMI blocking. -/
def Obligations.EventDelivery : Prop :=
  ((∀ n ev (s t : State), Delivers ev { s with adLog := [] } t →
    takeEvent (n + 1) ev s = .next { t with eip := t.npc, adLog := [] }) ∧
  (∀ (s t : State) v, s.plain → Delivers { vector := v, kind := .software, err := none } { s with adLog := [] } t →
    ((s.v86 = true → s.flags.iopl = 3) → exec (.intN v) s = .next { t with eip := t.npc, adLog := [] }) ∧
    (v = 3 → exec .int3 s = .next { t with eip := t.npc, adLog := [] }) ∧
    (v = 4 → s.flags.of_ = true → exec .into s = .next { t with eip := t.npc, adLog := [] })) ∧
  (∀ s : State, s.plain → s.flags.of_ = false → completes .into s s)) ∧
  (∀ s : State, exec .ud2 s = takeExc .ud s ∧ exec .rsm s = takeExc .ud s ∧ exec .invalidOpcode s = takeExc .ud s ∧
    (∀ c, exec (.reserved c) s = takeExc .ud s) ∧
    (∀ t : State, Delivers { vector := 6, kind := .exception true, err := none } { s with adLog := [] } t →
      takeExc .ud s = .next { t with eip := t.npc, adLog := [] }))

/-- Task switches: JMP and CALL to a TSS or a task gate, IRET with NT set and delivery through a task gate make one, and end
as its commit point says. Up to it the outgoing task is saved in its TSS and the busy bits change (that of the outgoing task
only where TR names one), and TR, CR0.TS and the local breakpoint enables; from it the incoming task's image is loaded, with
CR3 where paging is on, and its link. The model's choices: log 34, a fault after the commit point, and a null TR; log 56,
the TLB after a switch that is undone. -/
def Obligations.TaskSwitches : Prop :=
  (∀ (s : State) (f : FarSrc) sel off s1 tsel x s2, s.plain → s.prot = true → f.read s = .ok (sel, off) s1 →
    (NamesTask .jmp sel s1 tsel x s2 →
      endsSwitch (farJmp f) s (switchTasks tsel x .jmp s.npc s.flags.toDword s2)) ∧
    (NamesTask .call sel s1 tsel x s2 →
      endsSwitch (farCall f) s (switchTasks tsel x .call s.npc s.flags.toDword s2))) ∧
  (∀ (s : State) l s1 x s2, s.plain → s.prot = true → s.flags.nt = true →
    sysRead s.tr.base 2 { s with nmiBlocked := false } = .ok l s1 →
    let link := BitVec.ofNat 16 l
    isNull link = false → selTi link = false → readDesc link s1 = .ok (some x) s2 → x.busyTss = true → x.p = true →
    endsSwitch .iret s (switchTasks link x .iret s.npc s.flags.toDword s2) ∧
    endsSwitch .iretd s (switchTasks link x .iret s.npc s.flags.toDword s2)) ∧
  (∀ n ev (s t : State), TaskDelivery ev { s with adLog := [] } t →
    takeEvent (n + 1) ev s = .next { t with eip := t.npc, adLog := [] }) ∧
  (∀ (s : State) tsel x kind ret img,
    let xs := x.seg tsel
    let is32 := xs.typ.getLsbD 3
    (xs.limit.toNat < (if is32 then 0x67 else 0x2B) → switchTasks tsel x kind ret img s = .error (.exc (.ts tsel)) s) ∧
    (∀ t, leaveTask tsel xs kind ret img s = .ok () t →
      t = { s with
        tr := { xs with typ := xs.typ ||| 2 }, cr0 := s.cr0 ||| 0x00000008#32, dr7 := s.dr7 &&& 0xFFFFFEAA#32
        mem := t.mem, tlb := t.tlb, fresh := t.fresh, adLog := t.adLog, ioLog := t.ioLog, dbgHits := t.dbgHits } ∧
      (s.cr0Pg = false → s.map = [] → s.mem.wf = true → s.tss32 = true → s.tr.base.toNat + 0x60 ≤ 2 ^ 32 →
        s.typeByte s.tr.sel < 2 ^ 32 → s.typeByte tsel < 2 ^ 32 → s.tr.sel.toNat / 8 ≠ tsel.toNat / 8 →
        let old := s.typeByte s.tr.sel
        let new := s.typeByte tsel
        let fields := savedFields s ret (if kind = .iret then img &&& 0xFFFFBFFF#32 else img)
        let outside (a : Nat) : Prop := ∀ p ∈ fields, a < s.tr.base.toNat + p.1 ∨ s.tr.base.toNat + p.1 + p.2.1 ≤ a
        outside old → outside new →
        (∀ p ∈ fields, t.entry (s.tr.base.toNat + p.1) p.2.1 = p.2.2) ∧
        t.mem.read old =
          (if kind.nests = true ∨ isNull s.tr.sel = true then s.mem.read old else s.mem.read old &&& 0xFD#8) ∧
        t.mem.read new = (if kind = .iret then s.mem.read new else s.mem.read new ||| 0x02#8) ∧
        ∀ a, outside a → a ≠ old → a ≠ new → t.mem.read a = s.mem.read a)) ∧
    (∀ nested old trap t, enterTask xs nested old s = .ok trap t →
      ∃ i u v, (if is32 then readTask32 xs.base else readTask16 xs.base) s = .ok i u ∧
        (if nested then sysWrite xs.base 2 old.toNat u = .ok () v else v = u) ∧
        t.gpr = { eax := i.eax, ecx := i.ecx, edx := i.edx, ebx := i.ebx, esp := i.esp, ebp := i.ebp, esi := i.esi, edi := i.edi } ∧
        t.npc = i.eip ∧ t.flags = (let fl := Flags.ofDword i.flags; { fl with nt := fl.nt || nested }) ∧ t.rfKept = true ∧
        t.cr3 = (if is32 && s.cr0Pg then i.cr3 else s.cr3) ∧ t.ldtr.sel = i.ldt ∧
        (t.seg.cs.sel = i.cs ∧ t.seg.ss.sel = i.ss ∧ t.seg.ds.sel = i.ds ∧ t.seg.es.sel = i.es ∧ t.seg.fs.sel = i.fs ∧
          t.seg.gs.sel = i.gs) ∧
        t.curPl = (if s.pe then (if (Flags.ofDword i.flags).vm then 3 else rpl i.cs) else 0) ∧ t.tr = s.tr ∧ trap = i.trap))

/-! ## String instructions and ports -/

/-- A string instruction without a repeat prefix does one iteration. With one it does nothing where the count is 0, and else
one iteration that also counts down; EIP stays at the instruction while it goes on. The model's choices: log 9, what INS
reads. -/
def Obligations.StringInstructions : Prop :=
  ∀ p ∈ stringOps, ∀ (s : State) w t, s.pfx.lock = false →
    (s.pfx.rep = .none → p.2.1 (s.wd w) s t → completes (p.1 w) s t) ∧
    (s.pfx.rep ≠ .none → (s.pfx.rep = .repne → p.2.2 = true) →
      (s.regA .ecx = 0 → completes (p.1 w) s s) ∧
      (s.regA .ecx ≠ 0 → p.2.1 (s.wd w) s t →
        let u := t.setRegA .ecx (t.regA .ecx - 1)
        completes (p.1 w) s (if goesOn u p.2.2 then { u with npc := s.eip } else u)))

/-- IN and OUT on ports that may be used: what a port gives is a free value, and both are recorded. All ports may be used in
real-address mode and where CPL is not above IOPL outside virtual-8086 mode; else those whose bits in the 32-bit TSS's
permission map are 0. The model's choices: log 9, a port gives a free value; log 54, a TSS too short for the base of its
map. -/
def Obligations.PortResults : Prop :=
  (∀ (s : State) w p u, s.plain → checkIo (s.portOf p) (s.wd w).bytes s = .ok () u →
    (∀ v t, ReadsPort (s.wd w) (s.portOf p) u v t → completes (.inp w p) s (t.setReg (s.wd w) .eax v)) ∧
    (∀ t, WritesPort (s.wd w) (s.portOf p) u (s.reg (s.wd w) .eax) t → completes (.outp w p) s t)) ∧
  (∀ (s : State) port n,
    (s.pe = false ∨ s.flags.vm = false ∧ s.curPl ≤ s.flags.iopl.toNat → checkIo port n s = .ok () s) ∧
    (s.pe = true → s.flags.vm = true ∨ s.flags.iopl.toNat < s.curPl →
      (s.tss32 = false ∨ s.tr.limit.toNat < 0x67 → checkIo port n s = .error (.exc (.gp 0)) s) ∧
      (∀ b u, s.tss32 = true → 0x67 ≤ s.tr.limit.toNat → sysRead (s.tr.base + 0x66#32) 2 s = .ok b u →
        (s.tr.limit.toNat < b + port.toNat / 8 + 1 → checkIo port n s = .error (.exc (.gp 0)) u) ∧
        (∀ m v, b + port.toNat / 8 + 1 ≤ s.tr.limit.toNat →
          sysRead (s.tr.base + BitVec.ofNat 32 (b + port.toNat / 8)) 2 u = .ok m v →
          checkIo port n s = if ∃ i < n, m.testBit (port.toNat % 8 + i) = true then .error (.exc (.gp 0)) v else .ok () v))))

/-! ## System instructions -/

/-- CLI and STI where IOPL allows them, with #GP(0) where it does not, STI beginning the shadow where IF was 0; CLTS, HLT,
INVD, WBINVD and INVLPG at level 0. The model's choices: log 8, what INVLPG drops; log 37, no caches. -/
def Obligations.SupervisorResults : Prop :=
  (∀ s : State, s.plain →
    if s.pe = false ∨ s.curPl ≤ s.flags.iopl.toNat then
      completes .cli s { s with flags := { s.flags with if_ := false } } ∧
      completes .sti s { s with flags := { s.flags with if_ := true }
                                shadow := if s.flags.if_ then s.shadow else .sti }
    else exec .cli s = takeExc (.gp 0) (s.rollback s) ∧ exec .sti s = takeExc (.gp 0) (s.rollback s)) ∧
  (∀ s : State, s.plain → s.curPl = 0 →
    completes .clts s { s with cr0 := s.cr0 &&& 0xFFFFFFF7#32 } ∧ completes .hlt s { s with activity := .halted } ∧
    completes .invd s s ∧ completes .wbinvd s s ∧
    (∀ a, let la := (s.seg.get (s.eaSeg a)).base + s.gpr.eaOff a
      completes (.invlpg (.mem a)) s { s with tlb := s.tlb.filter (fun e => la.toNat >>> e.shift != e.page) }))

/-- At a level other than 0 the privileged instructions take #GP(0); and in virtual-8086 mode with IOPL below 3 so do CLI,
STI, PUSHF, POPF, INT n and IRET. -/
def Obligations.PrivilegedInstructions : Prop :=
  (∀ s : State, s.plain → s.v86 = true → s.flags.iopl ≠ 3 → ∀ i : Instr,
    (i = .cli ∨ i = .sti ∨ i = .pushf ∨ i = .pushfd ∨ i = .popf ∨ i = .popfd ∨ (∃ n, i = .intN n) ∨ i = .iret ∨ i = .iretd) →
    exec i s = takeExc (.gp 0) (s.rollback s)) ∧
  ∀ s : State, s.plain → s.curPl ≠ 0 → ∀ i : Instr,
    (i = .clts ∨ i = .hlt ∨ i = .invd ∨ i = .wbinvd ∨ (∃ a, i = .invlpg (.mem a)) ∨ (∃ a, i = .lgdt (.mem a)) ∨
      (∃ a, i = .lidt (.mem a)) ∨ (∃ m, s.prot = true ∧ (i = .lldt m ∨ i = .ltr m)) ∨ (∃ m, i = .lmsw m) ∨
      (∃ n r, (s.controlReg n).isSome = true ∧ (i = .movCr (.fromSys r n) ∨ i = .movCr (.toSys n r))) ∨
      (∃ n r, (s.cr4De && isDr45 n) = false ∧ (i = .movDr (.fromSys r n) ∨ i = .movDr (.toSys n r))) ∨
      i = .rdmsr ∨ i = .wrmsr ∨ (i = .rdtsc ∧ s.cr4Tsd = true) ∨ (i = .rdpmc ∧ s.cr4Pce = false)) →
    exec i s = takeExc (.gp 0) (s.rollback s)

/-- Instructions that take #UD: those of protected mode in the other modes, those whose operand must be in memory with a
register, and MOV of control registers that do not exist. -/
def Obligations.WrongModeOrForm : Prop :=
  ∀ s : State, s.plain →
    (s.prot = false → ∀ m r,
      ∀ i ∈ [Instr.lldt m, .ltr m, .sldt m, .str m, .lar r m, .lsl r m, .verr m, .verw m, .arpl m r],
        exec i s = takeExc .ud (s.rollback s)) ∧
    (∀ r d, ∀ i ∈ [Instr.lea d (.reg r), .lds d (.reg r), .les d (.reg r), .lss d (.reg r), .lfs d (.reg r),
        .lgs d (.reg r), .bound d (.reg r), .cmpxchg8b (.reg r), .lgdt (.reg r), .lidt (.reg r), .sgdt (.reg r),
        .sidt (.reg r), .invlpg (.reg r), .call (.mfar (.reg r)), .jmp (.mfar (.reg r))],
      exec i s = takeExc .ud (s.rollback s)) ∧
    (∀ n r, n = .i1 ∨ n = .i5 ∨ n = .i6 ∨ n = .i7 →
      exec (.movCr (.fromSys r n)) s = takeExc .ud (s.rollback s) ∧
      exec (.movCr (.toSys n r)) s = takeExc .ud (s.rollback s))

/-- The descriptor-table registers: LGDT, LIDT, SGDT and SIDT; and the task registers: SLDT, STR, LLDT with a null selector
and with an LDT of the GDT, and LTR, which marks its TSS busy. -/
def Obligations.TableRegisterResults : Prop :=
  (∀ (s : State) a, s.plain →
    (s.curPl = 0 → ∀ r t, ReadsTable a s r t →
      completes (.lgdt (.mem a)) s { t with gdtr := r } ∧ completes (.lidt (.mem a)) s { t with idtr := r }) ∧
    (∀ t, StoresTable a s s.gdtr t → completes (.sgdt (.mem a)) s t) ∧
    (∀ t, StoresTable a s s.idtr t → completes (.sidt (.mem a)) s t)) ∧
  (∀ s : State, s.plain → s.prot = true →
    storesSelector .sldt s s.ldtr.sel ∧ storesSelector .str s s.tr.sel ∧
    (s.curPl = 0 → ∀ m l s1, locate .w m .r s = .ok l s1 →
      let sel := l.value .w s1
      (isNull sel = true → completes (.lldt m) s { s1 with ldtr := { s1.ldtr with sel := sel, valid := false } }) ∧
      (selTi sel = false → ∀ d s2, readDesc sel s1 = .ok (some d) s2 → d.s = false → d.p = true →
        (isNull sel = false → d.typ = 2 → completes (.lldt m) s { s2 with ldtr := d.seg sel }) ∧
        (∀ s3, d.typ = 1 ∨ d.typ = 9 → markBusy sel true s2 = .ok () s3 →
          completes (.ltr m) s { s3 with tr := { d.seg sel with typ := (d.seg sel).typ ||| 2#4 } }))))

/-- MOV from and to the control registers at level 0, with their reserved bits, the flushing of translations and the
reloading of the page-directory-pointer registers; the status flags are left undefined. CR4.VME and CR4.PVI cannot be set:
that is refused. LMSW loads the low four bits of CR0 but cannot clear PE; SMSW stores the low half of CR0. MOV of debug
registers at level 0: DR4 and DR5 name DR6 and DR7 where CR4.DE is 0 and are #UD where it is 1; DR7.GD makes it take a debug
exception. A mod field other than 11 is refused. The model's choices: log 6, the undefined flags; log 18, CR4.VME and
CR4.PVI; log 28, what is refused; log 31, the reserved bits of CR0 and CR3; log 32, the reserved bits of a
page-directory-pointer entry. -/
def Obligations.ControlAndDebugRegisterMoves : Prop :=
  (∀ s : State, s.plain → s.curPl = 0 → ∀ r,
    (∀ n v, s.controlReg n = some v → completes (.movCr (.fromSys r n)) s (s.setReg .d r v).noFlags) ∧
    (let v := s.gpr.get r
     (∀ t, (v.getLsbD 31 = true → v.getLsbD 0 = true) → (v.getLsbD 29 = true → v.getLsbD 30 = true) →
       ReloadsPdptes (s.cr4Pae && !s.cr0Pg && v.getLsbD 31)
         { s.flushed (v.getLsbD 31 != s.cr0Pg || v.getLsbD 0 != s.pe) with cr0 := newCr0 s.cr0 v } t →
       completes (.movCr (.toSys .i0 r)) s t.noFlags) ∧
     completes (.movCr (.toSys .i2 r)) s { s with cr2 := v }.noFlags ∧
     (∀ t, ReloadsPdptes (s.cr4Pae && s.cr0Pg) { s with cr3 := v, tlb := s.tlb.filter (·.global) } t →
       completes (.movCr (.toSys .i3 r)) s t.noFlags) ∧
     (∀ t, v &&& 0xFFFFFE03#32 = 0 →
       ReloadsPdptes (s.cr0Pg && !s.cr4Pae && v.getLsbD 5)
         { s.flushed (v.getLsbD 4 != s.cr4Pse || v.getLsbD 5 != s.cr4Pae || v.getLsbD 7 != s.cr4Pge) with cr4 := v } t →
       completes (.movCr (.toSys .i4 r)) s t.noFlags) ∧
     (v.getLsbD 31 = true ∧ v.getLsbD 0 = false ∨ v.getLsbD 29 = true ∧ v.getLsbD 30 = false →
       exec (.movCr (.toSys .i0 r)) s = takeExc (.gp 0) (s.rollback s)) ∧
     (v &&& 0xFFFFFE00#32 ≠ 0 → exec (.movCr (.toSys .i4 r)) s = takeExc (.gp 0) (s.rollback s)) ∧
     (v &&& 0xFFFFFE00#32 = 0 → v &&& 3 ≠ 0 → exec (.movCr (.toSys .i4 r)) s = .refused .vmePvi))) ∧
  (∀ s : State, s.plain →
    (s.curPl = 0 → ∀ m l s1, locate .w m .r s = .ok l s1 →
      let v := l.value .w s1
      completes (.lmsw m) s { s1.flushed (v.getLsbD 0 && !s.pe) with
        cr0 := (s.cr0 &&& 0xFFFFFFF1#32) ||| (v.setWidth 32 &&& 0xF#32) }) ∧
    (∀ a ps u, accessEa a 2 2 .w s = .ok ps u →
      completes (.smsw (.mem a)) s (u.stored ps (s.cr0.setWidth 16).toNat)) ∧
    (∀ r, s.os32 = false → completes (.smsw (.reg r)) s (s.setReg .w r (s.cr0.setWidth 16))) ∧
    (∀ r, s.os32 = true → completes (.smsw (.reg r)) s
      ({ s with fresh := s.fresh + 1 }.setReg .d r (putLow16 (Config.freeDword s.fresh) (s.cr0.setWidth 16))))) ∧
  (∀ (s : State) n r, s.plain → s.curPl = 0 →
    ((s.cr4De && isDr45 n) = true →
      exec (.movDr (.fromSys r n)) s = takeExc .ud (s.rollback s) ∧
      exec (.movDr (.toSys n r)) s = takeExc .ud (s.rollback s)) ∧
    ((s.cr4De && isDr45 n) = false → s.dr7.getLsbD 13 = true →
      exec (.movDr (.fromSys r n)) s = takeExc (.db false 0x2000#32) (s.rollback s) ∧
      exec (.movDr (.toSys n r)) s = takeExc (.db false 0x2000#32) (s.rollback s)) ∧
    ((s.cr4De && isDr45 n) = false → s.dr7.getLsbD 13 = false →
      completes (.movDr (.fromSys r n)) s (s.setReg .d r (s.debugReg n)).noFlags ∧
      completes (.movDr (.toSys n r)) s (s.setDebugReg n (s.gpr.get r)).noFlags)) ∧
  (∀ (s : State) write b, s.plain →
    exec (.movCr (.badMod write b)) s = .refused .movSysMod ∧ exec (.movDr (.badMod write b)) s = .refused .movSysMod)

/-- RDMSR and WRMSR, with #GP(0) for a register that does not exist or a reserved bit; RDPMC, RDTSC and CPUID; what is
written to a model-specific register is read back, and the others keep their values. The model's choices: log 4, which
model-specific registers exist and their values; log 6, undefined values; log 12, CPUID's open fields. -/
def Obligations.ModelSpecificResults : Prop :=
  (∀ s : State, s.plain →
    (s.curPl = 0 →
      (let u := if s.gpr.ecx = Config.msrTsc then 0#64 else Config.msrMissing s.gpr.ecx
       let v := (s.msr s.gpr.ecx &&& ~~~u) ||| ((Config.freeDword s.fresh ++ Config.freeDword (s.fresh + 1)) &&& u)
       if s.gpr.ecx = Config.msrTsc ∨ Config.msrExists s.gpr.ecx = true then
         completes .rdmsr s { s with
           fresh := s.fresh + 2, gpr := { s.gpr with eax := v.extractLsb' 0 32, edx := v.extractLsb' 32 32 } }
       else exec .rdmsr s = takeExc (.gp 0) (s.rollback s)) ∧
      (let v : Qword := s.gpr.edx ++ s.gpr.eax
       if s.gpr.ecx = Config.msrTsc then completes .wrmsr s { s with tsc := v }
       else if Config.msrExists s.gpr.ecx = true ∧
           (v ^^^ s.msr s.gpr.ecx) &&& Config.msrReserved s.gpr.ecx &&& ~~~Config.msrMissing s.gpr.ecx = 0 then
         completes .wrmsr s
           ({ s with msrs := msrInsert s.msrs s.gpr.ecx v }.flushed (Config.msrIsMtrr s.gpr.ecx))
       else exec .wrmsr s = takeExc (.gp 0) (s.rollback s))) ∧
    (s.curPl = 0 ∨ s.cr4Pce = true →
      if s.gpr.ecx = 0 ∨ s.gpr.ecx = 1 then
        let v := if s.gpr.ecx = 0 then s.pmc0 else s.pmc1
        completes .rdpmc s { s with gpr := { s.gpr with eax := v.setWidth 32, edx := (v.extractLsb' 32 8).setWidth 32 } }
      else exec .rdpmc s = takeExc (.gp 0) (s.rollback s)) ∧
    (s.curPl = 0 ∨ s.cr4Tsd = false →
      completes .rdtsc s { s with gpr := { s.gpr with eax := s.tsc.setWidth 32, edx := s.tsc.extractLsb' 32 32 } }) ∧
    (let out (n : Nat) (a b c d : Dword) : State :=
       { s with fresh := s.fresh + n, gpr := { s.gpr with eax := a, ebx := b, ecx := c, edx := d } }
     let free (n : Nat) : Dword := Config.freeDword (s.fresh + n)
     completes .cpuid s
       (if s.gpr.eax = 0 then out 0 2 0x756E6547 0x6C65746E 0x49656E69
        else if s.gpr.eax = 1 then out 2 0x00000611 (free 0) (free 1) (0x0080A1FF ||| (Config.cpuidPlatform &&& 0x5200#32))
        else if s.gpr.eax = 2 then out 0 0x03020101 0 0 0x06040A42
        else out 4 (free 0) (free 1) (free 2) (free 3)))) ∧
  (∀ (s : State) i j v, msrsSorted s.msrs → (s.setMsr i v).msr j = if j = i then v else s.msr j)

/-- LAR, LSL, VERR and VERW: ZF tells whether the selector names a usable descriptor, and only then LAR and LSL load the
access rights and the limit. ARPL raises the RPL of its destination to that of its source, and ZF tells whether it did. The
model's choices: log 30, bits 19:16 of LAR; log 55, a memory operand that ARPL does not write. -/
def Obligations.SelectorTests : Prop :=
  (∀ (s : State) r m l s1, s.plain → s.prot = true → locate .w m .r s = .ok l s1 →
    let sel := l.value .w s1
    (∀ t, TestFails sel larOk s1 t → completes (.lar r m) s (t.withZf false)) ∧
    (∀ t, TestFails sel lslOk s1 t → completes (.lsl r m) s (t.withZf false)) ∧
    (∀ t, TestFails sel (fun d => d.s && d.readable) s1 t → completes (.verr m) s (t.withZf false)) ∧
    (∀ t, TestFails sel (fun d => d.s && d.writable) s1 t → completes (.verw m) s (t.withZf false)) ∧
    (∀ d t, TestFinds sel larOk s1 d t → completes (.lar r m) s
      (({ t with fresh := t.fresh + 1 }.setReg s.osz r
        (((d.raw.extractLsb' 32 32 &&& 0x00F0FF00#32) ||| (Config.freeDword t.fresh &&& 0x000F0000#32)).setWidth
          s.osz.bits)).withZf true)) ∧
    (∀ d t, TestFinds sel lslOk s1 d t → completes (.lsl r m) s
      ((t.setReg s.osz r ((d.seg sel).limit.setWidth s.osz.bits)).withZf true)) ∧
    (∀ d t, TestFinds sel (fun d => d.s && d.readable) s1 d t → completes (.verr m) s (t.withZf true)) ∧
    (∀ d t, TestFinds sel (fun d => d.s && d.writable) s1 d t → completes (.verw m) s (t.withZf true))) ∧
  (∀ (s : State) m r l s1, s.plain → s.prot = true → locate .w m .rw s = .ok l s1 →
    let d := l.value .w s1
    let n := s.reg .w r
    completes (.arpl m r) s
      (if rpl d < rpl n then l.put .w ((d &&& 0xFFFC#16) ||| (n &&& 3#16)) (s1.withZf true) else s1.withZf false))

/-! ## The FPU -/

/-- Every waiting FPU instruction with no memory operand, other than FINIT, FCLEX and FSTSW AX (FpuControlResults),
completes, one that rounds where the precision control is not the reserved 01; it changes the FPU and, for FCOMI to FUCOMIP,
the flags only; the control word and the data pointer stay, and the instruction pointer and opcode are its own. The model's
choices: log 6, undefined condition bits; log 10, transcendental results; log 39, rounding; log 41, the order of exceptions;
log 45, open transcendental cases; log 51, the opcode bytes; log 44, the reserved precision control. -/
def Obligations.FpuCompletes : Prop :=
  ∀ (s : State) i, s.plain → s.fpuReady → fpuOnRegisters i = true →
    (fpuRounds i = true → s.fpu.cw.extractLsb' 8 2 ≠ 1) →
    ∃ (f : Fpu) (k : Nat) (zf pf cf : Bool), (
      let fl := if fpuWritesFlags i then { s.flags with zf := zf, pf := pf, cf := cf } else s.flags
      exec i s = .next { s with fpu := f, fresh := k, flags := fl, eip := s.npc }) ∧
      f.cw = s.fpu.cw ∧ f.fdp = s.fpu.fdp ∧ f.fdpSel = s.fpu.fdpSel ∧ f.ferr = s.fpu.ferr ∧
      (i ≠ .fnop → f.fip = s.eip ∧ f.fipSel = s.seg.cs.sel ∧ f.fop = s.fopNow)

/-- The constants, FLD, FST and FSTP on registers, FXCH, FCMOVcc, FABS, FCHS, FINCSTP, FDECSTP, FFREE and FNOP, where no
stack fault occurs. The model's choices: log 6, undefined condition bits; log 51, the opcode bytes. -/
def Obligations.FpuStackMoves : Prop :=
  ∀ s : State, s.plain → s.fpuReady →
    let u := s.freeCs
    let f := u.fpu
    (f.isEmpty 7 = true →
      (∀ c ∈ fpuConstants, completes c.1 s
        (u.pointed none (f.pushed (mkExt false c.2.1 (roundedConstant f.rc c.2.2.1 c.2.2.2.1 c.2.2.2.2))))) ∧
      (∀ i, f.isEmpty (idxNat i) = false →
        completes (.fld (.st i)) s (u.pointed none (f.pushed (f.st (idxNat i)))))) ∧
    (∀ i, f.isEmpty 0 = false → f.isEmpty (idxNat i) = false →
      completes (.fxch i) s (u.pointed none ((f.setSt (idxNat i) (f.st 0)).setSt 0 (f.st (idxNat i)))) ∧
      ∀ m ∈ fcmovs, completes (m.1 i) s (u.pointed none (if m.2 s.flags then f.setSt 0 (f.st (idxNat i)) else f))) ∧
    (f.isEmpty 0 = false →
      (∀ i, completes (.fst (.st i)) s (u.pointed none (f.setSt (idxNat i) (f.st 0))) ∧
        completes (.fstp (.st i)) s (u.pointed none ((f.setSt (idxNat i) (f.st 0)).popped true))) ∧
      completes .fabs s (u.pointed none (f.setSt 0 (extWithSign false (f.st 0)))) ∧
      completes .fchs s (u.pointed none (f.setSt 0 (extWithSign (!extNeg (f.st 0)) (f.st 0))))) ∧
    completes .fincstp s (u.pointed none (f.setTop (f.sw.top + 1))) ∧
    completes .fdecstp s (u.pointed none (f.setTop (f.sw.top - 1))) ∧
    (let w := s.freeAllCs
     (∀ i, completes (.ffree i) s (w.pointed none (w.fpu.setTag (w.fpu.phys (idxNat i)) 3))) ∧ completes .fnop s w)

/-- FADD to FDIVR in all their operand forms on zeros and normal numbers: the exact result rounded to the precision and in
the direction the control word asks for, with the exceptions that rounding raises; the reserved precision control is
refused. The model's choices: log 6, undefined condition bits; log 39, rounding at the ends of the range; log 44, the
reserved precision control. -/
def Obligations.FpuArithmeticResults : Prop :=
  ∀ q ∈ fpuArith, ∀ (s : State), s.plain → s.fpuReady →
    let op := q.2.2.2.1
    let rev := q.2.2.2.2
    let fits (x y : Ext) : Prop := op = .div → fclass (if rev then x else y) ≠ .zero
    let result (f : Fpu) (i : Nat) (x y : Ext) (p : Nat) : Fpu :=
      let r := f.rounded (op.exact (numOf (if rev then y else x)) (numOf (if rev then x else y)) f.rc) p
      r.2.setSt i r.1
    let ends (i : Instr) (m : Option Ea) (u : State) (g : Nat → Fpu) : Prop :=
      (∀ p, s.fpu.hasPrecision p → completes i s (u.pointed m (g p))) ∧
      (s.fpu.cw.extractLsb' 8 2 = 1 → exec i s = .refused .reservedPrecision)
    (∀ i, let u := s.freeCs
      let f := u.fpu
      f.holds 0 → f.holds (idxNat i) →
      (fits (f.st 0) (f.st (idxNat i)) →
        ends (q.1 (.st0i i)) none u (result f 0 (f.st 0) (f.st (idxNat i)))) ∧
      (fits (f.st (idxNat i)) (f.st 0) →
        let g := result f (idxNat i) (f.st (idxNat i)) (f.st 0)
        ends (q.1 (.sti0 i)) none u g ∧ ends (q.2.1 i) none u (fun p => (g p).popped true))) ∧
    (∀ m ∈ [(RealFmt.single, FArith.m32), (RealFmt.double, FArith.m64)], ∀ a ps t,
      accessEa a m.1.bytes m.1.bytes .r s = .ok ps t →
      let u := t.freeCs
      let y := m.1.toExt (t.at ps)
      u.fpu.holds 0 → fclass y = .zero ∨ fclass y = .normal → m.1.isDenormal (t.at ps) = false → fits (u.fpu.st 0) y →
      ends (q.1 (m.2 a)) (some a) u (result u.fpu 0 (u.fpu.st 0) y)) ∧
    (∀ m ∈ [(2, FInt2.i16), (4, FInt2.i32)], ∀ a ps t, accessEa a m.1 m.1 .r s = .ok ps t →
      let u := t.freeCs
      let y := intExt (BitVec.ofNat (8 * m.1) (t.at ps)).toInt
      u.fpu.holds 0 → fits (u.fpu.st 0) y →
      ends (q.2.2.1 (m.2 a)) (some a) u (result u.fpu 0 (u.fpu.st 0) y))

/-- FSQRT, FRNDINT, FSCALE, FXTRACT, FPREM and FPREM1 on zeros and normal numbers, with the exceptions of their tables;
FSIN, FCOS, FSINCOS and FPTAN on a finite number of 2 to the 63rd or more, which they leave with C2 set. The model's
choices: log 6, undefined condition bits; log 10, partial results of the trigonometric instructions; log 39, rounding; log
58, SF after #IA; log 59, the condition bits of FPREM after #IA; log 44, the reserved precision control. -/
def Obligations.FpuFunctionResults : Prop :=
  ∀ s : State, s.plain → s.fpuReady →
    let u := s.freeCs
    let f := u.fpu
    let v := f.st 0
    let n := numOf v
    let im := f.cw.getLsbD 0
    ((f.holds 0 →
      (extNeg v = false → fclass v = .normal →
        (∀ p, f.hasPrecision p → let r := f.rounded n.sqrt p
          completes .fsqrt s (u.pointed none (r.2.setSt 0 r.1))) ∧
        (f.cw.extractLsb' 8 2 = 1 → exec .fsqrt s = .refused .reservedPrecision)) ∧
      (extNeg v = true → fclass v = .normal →
        let g := f.raised .ia true
        completes .fsqrt s (u.pointed none (if im then g.setSt 0 extIndef else g))) ∧
      (fclass v = .zero → completes .fsqrt s (u.pointed none (f.setSt 0 v))) ∧
      (n.exp < 0 → let r := n.roundAt f.rc 0
        completes .frndint s
          (u.pointed none (((f.raised .p r.inexact).withC1 r.up).setSt 0 (packExt n.neg r.mant 0)))) ∧
      (0 ≤ n.exp → completes .frndint s (u.pointed none (f.setSt 0 v))) ∧
      (f.isEmpty 7 = true →
        (fclass v = .normal → completes .fxtract s (u.pointed none
          ((f.setSt 0 (intExt (Int.ofNat (extExp v) - 16383))).pushed (mkExt (extNeg v) 0x3FFF (extSig v))))) ∧
        (fclass v = .zero → let g := f.raised .z true
          completes .fxtract s
            (u.pointed none (if f.cw.getLsbD 2 then (g.setSt 0 (extInf true)).pushed v else g))))) ∧
    (f.isEmpty 0 = false → fclass v = .normal → 16383 + 63 ≤ extExp v →
      let g := { f with sw := { f.sw with c1 := Config.freeBit (s.fresh + 3), c2 := true } }
      ∀ i ∈ [Instr.fsin, .fcos, .fsincos, .fptan], completes i s ({ u with fresh := s.fresh + 4 }.pointed none g))) ∧
    (f.holds 0 → f.holds 1 →
      let k := (extValue (f.st 1)).tdiv ((2 : Int) ^ 16445)
      let scale := if k.natAbs < 2 ^ 19 then k else if k < 0 then -(2 : Int) ^ 18 else (2 : Int) ^ 18
      let r := f.rounded { n with exp := n.exp + scale } 64
      completes .fscale s (u.pointed none (if fclass v = .zero then f.setSt 0 v else r.2.setSt 0 r.1))) ∧
    (∀ p ∈ [(Instr.fprem, false), (.fprem1, true)], f.holds 0 → f.isEmpty 1 = false →
      let y := f.st 1
      let x := (extValue v).natAbs
      let b := (extValue y).natAbs
      let g := f.raised .ia true
      (fclass y = .zero → completes p.1 s (u.pointed none (if im then g.setSt 0 extIndef else g))) ∧
      (fclass y = .inf ∨ fclass v = .zero ∧ fclass y = .normal →
        completes p.1 s (u.pointed none (((f.withC320 false false false).withC1 false).setSt 0 v))) ∧
      (fclass v = .normal → fclass y = .normal → f.cw.getLsbD 4 = true →
        (extExp v < extExp y + 64 → ∃ r : Ext,
          let q := fpremQuotient p.2 x b
          extValue r = (if extNeg v then -1 else 1) * ((x : Int) - q * b) ∧ (extValue r = 0 → extNeg r = extNeg v) ∧
          completes p.1 s (u.pointed none
            (((f.withC320 (q.testBit 1) false (q.testBit 2)).withC1 (q.testBit 0)).setSt 0 r))) ∧
        (extExp y + 64 ≤ extExp v → ∃ (r : Ext) (d : Nat) (c0 c1 c3 : Bool), 32 ≤ d ∧ d < 64 ∧
          (extValue r).natAbs = x % (b * 2 ^ (extExp v - extExp y - d)) ∧ extNeg r = extNeg v ∧
          completes p.1 s ({ u with fresh := s.fresh + 8 }.pointed none
            (((f.withC320 c3 true c0).withC1 c1).setSt 0 r)))))

/-- What rounding and the exact operations mean: rounding gives a neighbour of the exact number, the nearest or the one in
the direction asked for; results in range, too large and tiny, masked and unmasked; packing a number keeps its value; sums
and products are exact; quotients and roots are bracketed; and a number loaded from a memory format rounds back to itself.
The model's choices: log 39, tininess and unmasked underflow. -/
def Obligations.RoundingRules : Prop :=
  (∀ (n : FpNum) (rc : BitVec 2) (k : Nat),
    let r := n.roundAt rc (n.exp + k)
    let m := r.mant * 2 ^ k
    r.exp = n.exp + k ∧ (r.inexact = true ↔ m ≠ n.mant) ∧ (r.up = true ↔ n.mant < m) ∧ m < n.mant + 2 ^ k ∧
    n.mant < m + 2 ^ k ∧
    (rc = 0 → 2 * m ≤ 2 * n.mant + 2 ^ k ∧ 2 * n.mant ≤ 2 * m + 2 ^ k ∧
      (2 * m = 2 * n.mant + 2 ^ k ∨ 2 * n.mant = 2 * m + 2 ^ k → r.mant % 2 = 0)) ∧
    (rc = 1 ∧ n.neg = true ∨ rc = 2 ∧ n.neg = false → n.mant ≤ m) ∧
    (rc = 1 ∧ n.neg = false ∨ rc = 2 ∧ n.neg = true ∨ rc = 3 → m ≤ n.mant)) ∧
  (∀ (n : FpNum), ∀ p ∈ [24, 53, 64], ∀ (rc : BitVec 2) (om um : Bool), n.mant ≠ 0 →
    let r := n.roundAt rc (Int.ofNat n.mant.log2 + n.exp - (p - 1 : Nat))
    let d := n.roundAt rc (-16382 - (p - 1 : Nat))
    let top := Int.ofNat r.mant.log2 + r.exp
    let away : Bool := decide (rc = 0 ∨ rc = 1 ∧ n.neg = true ∨ rc = 2 ∧ n.neg = false)
    2 ^ (p - 1) ≤ r.mant ∧ r.mant ≤ 2 ^ p ∧
    (-16382 ≤ top → top ≤ 16383 → n.toExt p rc om um =
      { val := packExt n.neg r.mant r.exp, o := false, u := false, p := r.inexact, c1 := r.up }) ∧
    (16383 < top → n.toExt p rc true um =
      { val := if away then mkExt n.neg 0x7FFF (2 ^ 63) else mkExt n.neg 0x7FFE (2 ^ 64 - 2 ^ (64 - p))
        o := true, u := false, p := true, c1 := away }) ∧
    (16383 < top → top - 24576 ≤ 16383 → n.toExt p rc false um =
      { val := packExt n.neg r.mant (r.exp - 24576), o := true, u := false, p := r.inexact, c1 := r.up }) ∧
    (top < -16382 → d.mant < 2 ^ p ∧ n.toExt p rc om true =
      { val := packExt n.neg d.mant d.exp, o := false, u := d.inexact, p := d.inexact, c1 := d.up }) ∧
    (top < -16382 → -16382 ≤ top + 24576 → n.toExt p rc om false =
      { val := packExt n.neg r.mant (r.exp + 24576), o := false, u := true, p := r.inexact, c1 := r.up })) ∧
  (∀ (neg : Bool) (m : Nat) (e : Int), 0 < m → m ≤ 2 ^ 64 → -16445 ≤ e → Int.ofNat m.log2 + e ≤ 16383 →
    extNeg (packExt neg m e) = neg ∧ (fclass (packExt neg m e)).isFinite = true ∧
    extValue (packExt neg m e) = (if neg then -1 else 1) * Int.ofNat (m * 2 ^ (e + 16445).toNat)) ∧
  (∀ (a b : FpNum) z (d e : Int), d ≤ a.exp → e ≤ b.exp →
    (d = e → (a.add b z).scaled e = a.scaled e + b.scaled e) ∧ (a.mul b).scaled (d + e) = a.scaled d * b.scaled e) ∧
  (∀ a b : FpNum, b.mant ≠ 0 →
    let q := (a.div b).mant / 2
    q * b.mant ≤ a.mant * 2 ^ 130 ∧ a.mant * 2 ^ 130 < (q + 1) * b.mant ∧
    ((a.div b).mant % 2 = 0 ↔ q * b.mant = a.mant * 2 ^ 130) ∧ (a.div b).exp + 131 = a.exp - b.exp) ∧
  (∀ a : FpNum, a.mant ≠ 0 → a.mant < 2 ^ 64 →
    let q := a.sqrt.mant / 2
    ∃ k : Nat, 2 * (a.sqrt.exp + 1) = a.exp - k ∧ q * q ≤ a.mant * 2 ^ k ∧ a.mant * 2 ^ k < (q + 1) * (q + 1) ∧
      (a.sqrt.mant % 2 = 0 ↔ q * q = a.mant * 2 ^ k)) ∧
  (∀ m ∈ [RealFmt.single, RealFmt.double], ∀ (rc : BitVec 2) (um : Bool) v, v < 2 ^ (8 * m.bytes) →
    m.isDenormal v = false → fclass (m.toExt v) = .normal →
    m.round (numOf (m.toExt v)) rc um = { bits := v, o := false, u := false, p := false, c1 := false })

/-- What the FPU does on an exception: stack underflow and overflow, an invalid operation, a division by zero and an SNaN;
masked, the default result is stored; otherwise the registers stay and ES is set. The model's choices: log 6, undefined
condition bits; log 40, the choice between NaNs; log 41, the order of exceptions; log 58, SF after #IA. -/
def Obligations.FpuExceptionResults : Prop :=
  ∀ s : State, s.plain → s.fpuReady →
    let u := s.freeCs
    let f := u.fpu
    let im := f.cw.getLsbD 0
    (f.isEmpty 7 = false →
      let g := f.stackFaulted true
      (∀ c ∈ fpuConstants, completes c.1 s
        (u.pointed none (if im then (g.setTop (g.sw.top - 1)).setSt 0 extIndef else g)))) ∧
    (∀ q ∈ fpuArith, ∀ i, f.isEmpty 0 = true ∨ f.isEmpty (idxNat i) = true →
      let g := f.stackFaulted false
      completes (q.1 (.st0i i)) s (u.pointed none (if im then g.setSt 0 extIndef else g)) ∧
      completes (q.1 (.sti0 i)) s (u.pointed none (if im then g.setSt (idxNat i) extIndef else g)) ∧
      completes (q.2.1 i) s (u.pointed none (if im then (g.setSt (idxNat i) extIndef).popped true else g))) ∧
    (∀ q ∈ fpuArith, ∀ i, f.isEmpty 0 = false → f.isEmpty (idxNat i) = false →
      let x := f.st 0
      let y := f.st (idxNat i)
      let a := if q.2.2.2.2 then y else x
      let b := if q.2.2.2.2 then x else y
      let op := q.2.2.2.1
      let g := f.raised .ia true
      ((fclass a = .zero ∨ fclass a = .normal ∨ fclass a = .inf) → (fclass b = .zero ∨ fclass b = .normal ∨ fclass b = .inf) →
        ((fclass a = .inf ∧ fclass b = .inf ∧
            (op = .add ∧ extNeg a ≠ extNeg b ∨ op = .sub ∧ extNeg a = extNeg b ∨ op = .div)) ∨
          (op = .mul ∧ (fclass a = .inf ∧ fclass b = .zero ∨ fclass a = .zero ∧ fclass b = .inf)) ∨
          (op = .div ∧ fclass a = .zero ∧ fclass b = .zero)) →
        completes (q.1 (.st0i i)) s (u.pointed none (if im then g.setSt 0 extIndef else g))) ∧
      (op = .div → fclass a = .normal → fclass b = .zero →
        let h := f.raised .z true
        completes (q.1 (.st0i i)) s
          (u.pointed none (if f.cw.getLsbD 2 then h.setSt 0 (extInf (extNeg a != extNeg b)) else h))) ∧
      (fclass x = .snan → fclass y = .zero ∨ fclass y = .normal ∨ fclass y = .inf →
        completes (q.1 (.st0i i)) s
          ({ u with fresh := u.fresh + 1 }.pointed none (if im then g.setSt 0 (extQuiet x) else g))) ∧
      (fclass x = .qnan → fclass y = .zero ∨ fclass y = .normal ∨ fclass y = .inf →
        completes (q.1 (.st0i i)) s ({ u with fresh := u.fresh + 1 }.pointed none (f.setSt 0 x))))

/-- The comparisons of finite numbers, of NaNs and of formats that are not supported, to the condition bits and to EFLAGS,
from registers and memory, with #D, #IA, the pops and the stack fault; FTST and FXAM. The model's choices: log 6, undefined
condition bits; log 40, NaNs; log 41, the order of exceptions; log 58, SF after #IA. -/
def Obligations.FpuCompareResults : Prop :=
  ∀ s : State, s.plain → s.fpuReady →
    let f := s.fpu.withC1 false
    let x := f.st 0
    let fin (v : Ext) : Prop := (fclass v).isFinite = true
    let den (v : Ext) : Bool := decide (fclass v = .denormal)
    let nan (v : Ext) : Bool := unorderedClass (fclass v)
    (∀ i, f.isEmpty 0 = false → f.isEmpty (idxNat i) = false →
      let y := f.st (idxNat i)
      let bad := (fclass x).isBad || (fclass y).isBad
      (∀ q ∈ fpuCompares i,
        (fin x → fin y → completes q.1 s
          (s.pointed none (f.comparedFinite (den x || den y) (extValue x) (extValue y) q.2.2))) ∧
        ((nan x || nan y) = true → completes q.1 s (s.pointed none (f.comparedNan (bad || !q.2.1) q.2.2)))) ∧
      (∀ q ∈ fpuFlagCompares i,
        (fin x → fin y → completes q.1 s
          ((s.withRel (decide (extValue x = extValue y)) false (decide (extValue x < extValue y))).pointed none
            (f.poppedTimes q.2.2))) ∧
        ((nan x || nan y) = true →
          let invalid := bad || !q.2.1
          let g := f.raised .ia invalid
          completes q.1 s (if invalid && !f.cw.getLsbD 0 then s.pointed none g
            else (s.withRel true true true).pointed none (g.poppedTimes q.2.2))))) ∧
    (∀ i, s.fpu.isEmpty 0 = true ∨ s.fpu.isEmpty (idxNat i) = true →
      let g := s.fpu.stackFaulted false
      let im := s.fpu.cw.getLsbD 0
      (∀ q ∈ fpuCompares i, completes q.1 s
        (s.pointed none (if im then (g.withC320 true true true).poppedTimes q.2.2 else g))) ∧
      (∀ q ∈ fpuFlagCompares i, completes q.1 s ((if im then s.withRel true true true else s).pointed none g))) ∧
    (f.isEmpty 0 = false →
      (fin x → completes .ftst s (s.pointed none (f.comparedFinite (den x) (extValue x) 0 0))) ∧
      (nan x = true → completes .ftst s (s.pointed none (f.comparedNan true 0))) ∧
      (∀ m ∈ [(RealFmt.single, FComForm.m32), (RealFmt.double, FComForm.m64)], ∀ a ps t,
        accessEa a m.1.bytes m.1.bytes .r s = .ok ps t →
        let y := m.1.toExt (t.at ps)
        ∀ q ∈ [(Instr.fcom (m.2 a), 0), (.fcomp (m.2 a), 1)],
          (fin x → fin y → completes q.1 s
            (t.pointed (some a) (f.comparedFinite (den x || m.1.isDenormal (t.at ps)) (extValue x) (extValue y) q.2))) ∧
          ((nan x || nan y) = true → completes q.1 s (t.pointed (some a) (f.comparedNan true q.2)))) ∧
      (∀ m ∈ [(2, FInt2.i16), (4, FInt2.i32)], ∀ a ps t, accessEa a m.1 m.1 .r s = .ok ps t →
        let y := (BitVec.ofNat (8 * m.1) (t.at ps)).toInt * (2 : Int) ^ 16445
        ∀ q ∈ [(Instr.ficom (m.2 a), 0), (.ficomp (m.2 a), 1)],
          (fin x → completes q.1 s (t.pointed (some a) (f.comparedFinite (den x) (extValue x) y q.2))) ∧
          (nan x = true → completes q.1 s (t.pointed (some a) (f.comparedNan true q.2))))) ∧
    (let g := s.fpu.withC1 (extNeg (s.fpu.st 0))
     completes .fxam s (s.pointed none
       (if s.fpu.isEmpty 0 then g.withC320 true false true
        else match fclass (s.fpu.st 0) with
          | .unsupported => g.withC320 false false false
          | .snan => g.withC320 false false true
          | .qnan => g.withC320 false false true
          | .normal => g.withC320 false true false
          | .inf => g.withC320 false true true
          | .zero => g.withC320 true false false
          | .denormal => g.withC320 true true false)))

/-- FLD, FILD and FBLD from memory push the value, denormals and SNaNs with their exceptions; FST, FSTP, FIST, FISTP and
FBSTP store ST(0) exactly or rounded, zeros, infinities and quiet NaNs as what they are; a number that no integer of the
format is stores the integer indefinite. The model's choices: log 6, undefined condition bits; log 39, rounding; log 42,
unmasked #O and #U of a store; log 43, the alignment of 80-bit operands; log 58, SF after #IA. -/
def Obligations.FpuLoadsAndStores : Prop :=
  ∀ (s : State) a ps t, s.plain → s.fpuReady →
    let u := s.freeCs
    let f := u.fpu
    let v := f.st 0
    (f.isEmpty 7 = true →
      (∀ m ∈ [(RealFmt.single, FLdForm.m32), (RealFmt.double, FLdForm.m64)],
        accessEa a m.1.bytes m.1.bytes .r u = .ok ps t → fclass (m.1.toExt (t.at ps)) ≠ .snan →
        m.1.isDenormal (t.at ps) = false →
        completes (.fld (m.2 a)) s (t.pointed (some a) (f.pushed (m.1.toExt (t.at ps))))) ∧
      (∀ m ∈ [(RealFmt.single, FLdForm.m32), (RealFmt.double, FLdForm.m64)],
        accessEa a m.1.bytes m.1.bytes .r u = .ok ps t →
        let x := m.1.toExt (t.at ps)
        (fclass x = .snan → let g := f.raised .ia true
          completes (.fld (m.2 a)) s (t.pointed (some a) (if f.cw.getLsbD 0 then g.pushed (extQuiet x) else g))) ∧
        (m.1.isDenormal (t.at ps) = true → let g := f.raised .d true
          completes (.fld (m.2 a)) s (t.pointed (some a) (if f.cw.getLsbD 1 then g.pushed x else g)))) ∧
      (accessEa a 10 8 .r u = .ok ps t →
        completes (.fld (.m80 a)) s (t.pointed (some a) (f.pushed (BitVec.ofNat 80 (t.at ps)))) ∧
        ∀ n, bcdValue 18 (t.at ps) = some n →
          completes (.fbld a) s (t.pointed (some a) (f.pushed (packExt ((t.at ps).testBit 79) n 0)))) ∧
      (∀ m ∈ [(2, FInt3.i16), (4, FInt3.i32), (8, FInt3.i64)], accessEa a m.1 m.1 .r u = .ok ps t →
        completes (.fild (m.2 a)) s
          (t.pointed (some a) (f.pushed (intExt (BitVec.ofNat (8 * m.1) (t.at ps)).toInt))))) ∧
    (f.isEmpty 0 = false → accessEa a 10 8 .w u = .ok ps t →
      completes (.fstp (.m80 a)) s ((t.stored ps v.toNat).pointed (some a) (f.popped true))) ∧
    (f.holds 0 → fclass v = .normal →
      ∀ m ∈ [(RealFmt.single, FComForm.m32, FLdForm.m32), (RealFmt.double, FComForm.m64, FLdForm.m64)],
      let r := m.1.round (numOf v) f.rc (f.cw.getLsbD 4)
      let g := (f.raised .p r.p).withC1 r.c1
      r.o = false → r.u = false → accessEa a m.1.bytes m.1.bytes .w { u with fpu := g } = .ok ps t →
      completes (.fst (m.2.1 a)) s ((t.stored ps r.bits).pointed (some a) g) ∧
      completes (.fstp (m.2.2 a)) s ((t.stored ps r.bits).pointed (some a) (g.popped true))) ∧
    (f.isEmpty 0 = false →
      ∀ m ∈ [(RealFmt.single, FComForm.m32, FLdForm.m32), (RealFmt.double, FComForm.m64, FLdForm.m64)],
      let sign := if extNeg v then 2 ^ (8 * m.1.bytes - 1) else 0
      accessEa a m.1.bytes m.1.bytes .w u = .ok ps t →
      ∀ b, fclass v = .zero ∧ b = sign ∨ fclass v = .inf ∧ b = sign + (2 ^ m.1.ebits - 1) * 2 ^ m.1.fbits ∨
          fclass v = .qnan ∧ b = sign + (2 ^ m.1.ebits - 1) * 2 ^ m.1.fbits + extSig v % 2 ^ 63 / 2 ^ (63 - m.1.fbits) →
        completes (.fst (m.2.1 a)) s ((t.stored ps b).pointed (some a) f) ∧
        completes (.fstp (m.2.2 a)) s ((t.stored ps b).pointed (some a) (f.popped true))) ∧
    (f.holds 0 →
      let n := numOf v
      let r := n.roundAt f.rc 0
      let i : Int := if n.neg then -Int.ofNat r.mant else Int.ofNat r.mant
      let g := (f.raised .p r.inexact).withC1 r.up
      (∀ m ∈ [(2, Instr.fist (.i16 a), false), (4, .fist (.i32 a), false), (2, .fistp (.i16 a), true),
          (4, .fistp (.i32 a), true), (8, .fistp (.i64 a), true)],
        (-(2 : Int) ^ (8 * m.1 - 1) ≤ i → i < (2 : Int) ^ (8 * m.1 - 1) →
          accessEa a m.1 m.1 .w { u with fpu := g } = .ok ps t →
          completes m.2.1 s ((t.stored ps (BitVec.ofInt (8 * m.1) i).toNat).pointed (some a) (g.popped m.2.2))) ∧
        (i < -(2 : Int) ^ (8 * m.1 - 1) ∨ (2 : Int) ^ (8 * m.1 - 1) ≤ i → f.cw.getLsbD 0 = true →
          accessEa a m.1 m.1 .w { u with fpu := f.raised .ia true } = .ok ps t →
          completes m.2.1 s
            ((t.stored ps (2 ^ (8 * m.1 - 1))).pointed (some a) ((f.raised .ia true).popped m.2.2)))) ∧
      (r.mant < 10 ^ 18 → accessEa a 10 8 .w { u with fpu := g } = .ok ps t →
        ∃ b, bcdValue 18 b = some r.mant ∧ b / 2 ^ 72 = (if n.neg then 128 else 0) ∧
          completes (.fbstp a) s ((t.stored ps b).pointed (some a) (g.popped true))))

/-- The control instructions, with and without their WAIT: FINIT, FCLEX, FSTCW, FSTSW, FSTENV and FSAVE with their images,
FLDCW, FLDENV and FRSTOR; and WAIT. Where something is recognised after the WAIT of such a form the step ends there; and a
9B whose WAIT stops the processor is read by itself. The model's choices: log 5, FERR#; log 6, undefined condition bits; log
43, open parts of the images; log 46, 9B before a no-wait instruction. -/
def Obligations.FpuControlResults : Prop :=
  (∀ (s : State) (e : Bool), s.plain → s.cr0Em = false → s.cr0Ts = false → (e = true → s.fpu.sw.es = false) →
    (e = true → s.breaksAfterByte = false) →
    let u := { s with eip := if e then s.eip + 1 else s.eip }
    completes (if e then .finit else .fninit) s { s with fpu := s.fpu.init } ∧
    (let f := s.fpu.init
     f.cw = 0x037F ∧ f.sw.toWord = 0 ∧ f.tags = 0xFFFF ∧ f.fip = 0 ∧ f.fdp = 0 ∧ f.fop = 0 ∧ ∀ i, f.reg i = s.fpu.reg i) ∧
    (let c := s.freeAllCs
     completes (if e then .fclex else .fnclex) s { c with fpu := { c.fpu with
       ferr := false
       sw := { c.fpu.sw with ie := false, de := false, ze := false, oe := false, ue := false, pe := false, sf := false,
                             es := false } } }) ∧
    (∀ a ps t, accessEa a 2 2 .w u = .ok ps t →
      completes (if e then .fstcw a else .fnstcw a) s (t.stored ps s.fpu.cw.toNat).freeAllCs ∧
      completes (if e then .fstsw (.mem a) else .fnstsw (.mem a)) s (t.stored ps s.fpu.sw.toWord.toNat).freeAllCs) ∧
    completes (if e then .fstsw .ax else .fnstsw .ax) s (s.setReg .w .eax s.fpu.sw.toWord).freeAllCs ∧
    (∀ a ps t, accessEa a s.envSize s.envAlign .w { u with fresh := s.fresh + if s.os32 then 5 else 0 } = .ok ps t →
      ∃ v, EnvImage s v ∧ completes (if e then .fstenv a else .fnstenv a) s
        { t.stored ps v with fpu := { s.fpu with cw := s.fpu.cw ||| 0x003F#16 } }.freeAllCs) ∧
    (∀ a ps t, accessEa a (s.envSize + 80) s.envAlign .w { u with fresh := s.fresh + if s.os32 then 5 else 0 } = .ok ps t →
      ∃ v, EnvImage s (v % 2 ^ (8 * s.envSize)) ∧
        (∀ i < 8, BitVec.ofNat 80 (v / 2 ^ (8 * s.envSize + 80 * i)) = s.fpu.st i) ∧
        completes (if e then .fsave a else .fnsave a) s { t.stored ps v with fpu := s.fpu.init })) ∧
  (∀ (s : State) a ps t, s.plain → s.fpuReady →
    (accessEa a 2 2 .r s = .ok ps t → completes (.fldcw a) s
      { t with fpu := Fpu.fixEs { t.fpu with cw := BitVec.ofNat 16 (t.at ps) ||| 0x0040#16 } }.freeAllCs) ∧
    (accessEa a s.envSize s.envAlign .r s = .ok ps t →
      completes (.fldenv a) s { t with fpu := t.fpu.loadEnv s.os32 s.prot (t.at ps) }) ∧
    (accessEa a (s.envSize + 80) s.envAlign .r s = .ok ps t →
      ∃ f : Fpu, completes (.frstor a) s { t with fpu := f } ∧
        (∀ i < 8, f.st i = BitVec.ofNat 80 (t.at ps / 2 ^ (8 * s.envSize + 80 * i))) ∧
        (let g := t.fpu.loadEnv s.os32 s.prot (t.at ps)
         f = { g with r0 := f.r0, r1 := f.r1, r2 := f.r2, r3 := f.r3, r4 := f.r4, r5 := f.r5, r6 := f.r6, r7 := f.r7 }))) ∧
  (∀ (s t : State) v, s.prot = true → s.os32 = true → EnvImage s v →
    let f := t.fpu.loadEnv true true v
    f.cw = s.fpu.cw ||| 0x0040 ∧ f.tags = s.fpu.tagImage ∧ f.sw.top = s.fpu.sw.top ∧ f.fip = s.fpu.fip ∧
    f.fipSel = s.fpu.fipSel ∧ f.fop = s.fpu.fop ∧ f.fdp = s.fpu.fdp ∧ f.fdpSel = s.fpu.fdpSel) ∧
  (∀ s : State, s.plain → (s.cr0Mp && s.cr0Ts) = false → s.fpu.sw.es = false → completes .wait s s ∧
    (s.breaksAfterByte = true → ∀ i, fpuWaitForms i = true →
      exec i s = .next { s with eip := s.eip + 1, npc := s.eip + 1 })) ∧
  (∀ (s : State) bs, s.pfx = Pfx.clear →
    if (s.cr0Mp = true ∧ s.cr0Ts = true) ∨ s.fpu.sw.es = true ∨ s.breaksAfterByte = true then
      decode s.ctx (0x9B#8 :: bs) = some (.wait, bs)
    else decode s.ctx (0x9B#8 :: 0xDB#8 :: 0xE3#8 :: bs) = some (.finit, bs) ∧
      decode s.ctx (0x9B#8 :: 0xDB#8 :: 0xE2#8 :: bs) = some (.fclex, bs) ∧
      decode s.ctx (0x9B#8 :: 0xDF#8 :: 0xE0#8 :: bs) = some (.fstsw .ax, bs))

/-- Every FPU instruction takes #NM where CR0.EM or TS is set, every waiting one a pending #MF, which freezes the processor
where CR0.NE is 0; the forms with a WAIT of their own do what WAIT does first; every MMX instruction takes #UD for EM, then
#NM for TS; WAIT takes #NM for MP and TS together. The model's choices: log 19, CR0.NE = 0; log 5, FERR#; log 46, 9B before
a no-wait instruction. -/
def Obligations.FpuAndMmxEntry : Prop :=
  ∀ (s : State) i, s.plain →
    let r := s.rollback s
    let pending := if s.cr0Ne then takeExc .mf r else .next { r with fpu := { r.fpu with ferr := true }, interrupted := true }
    (fpuWaits i = true ∨ fpuNoWait i = true → s.cr0Em = true ∨ s.cr0Ts = true → exec i s = takeExc .nm r) ∧
    (fpuWaits i = true ∨ isMmx i = true → s.cr0Em = false → s.cr0Ts = false → s.fpu.sw.es = true → exec i s = pending) ∧
    (isMmx i = true → s.cr0Em = true → exec i s = takeExc .ud r) ∧
    (isMmx i = true → s.cr0Em = false → s.cr0Ts = true → exec i s = takeExc .nm r) ∧
    (i = .wait ∨ fpuWaitForms i = true →
      (s.cr0Mp = true → s.cr0Ts = true → exec i s = takeExc .nm r) ∧
      ((s.cr0Mp && s.cr0Ts) = false → s.fpu.sw.es = true → exec i s = pending)) ∧
    (fpuWaitForms i = true → (s.cr0Mp && s.cr0Ts) = false → s.fpu.sw.es = false → s.breaksAfterByte = false →
      s.cr0Em = true ∨ s.cr0Ts = true → exec i s = takeExc .nm { r with eip := s.eip + 1 })

/-! ## MMX -/

/-- The MMX instructions in all their operand forms, element by element: the destination, TOP 0 and every tag valid; the
moves; and EMMS, which empties the tags. -/
def Obligations.MmxResults : Prop :=
  (packedHas .packsswb 8 (narrows 16 (clampS 8)) ∧ packedHas .packssdw 8 (narrows 32 (clampS 16)) ∧
    packedHas .packuswb 8 (narrows 16 (clampU 8))) ∧
  (packedHas .paddb 8 (elementwise 8 (· + ·)) ∧ packedHas .paddw 8 (elementwise 16 (· + ·)) ∧
    packedHas .paddd 8 (elementwise 32 (· + ·)) ∧
    packedHas .paddsb 8 (elementwise 8 fun x y => clampS 8 (x.toInt + y.toInt)) ∧
    packedHas .paddsw 8 (elementwise 16 fun x y => clampS 16 (x.toInt + y.toInt)) ∧
    packedHas .paddusb 8 (elementwise 8 fun x y => clampU 8 (x.toNat + y.toNat)) ∧
    packedHas .paddusw 8 (elementwise 16 fun x y => clampU 16 (x.toNat + y.toNat))) ∧
  (packedHas .psubb 8 (elementwise 8 (· - ·)) ∧ packedHas .psubw 8 (elementwise 16 (· - ·)) ∧
    packedHas .psubd 8 (elementwise 32 (· - ·)) ∧
    packedHas .psubsb 8 (elementwise 8 fun x y => clampS 8 (x.toInt - y.toInt)) ∧
    packedHas .psubsw 8 (elementwise 16 fun x y => clampS 16 (x.toInt - y.toInt)) ∧
    packedHas .psubusb 8 (elementwise 8 fun x y => clampU 8 ((x.toNat : Int) - y.toNat)) ∧
    packedHas .psubusw 8 (elementwise 16 fun x y => clampU 16 ((x.toNat : Int) - y.toNat))) ∧
  (packedHas .pand 8 (fun a b r => r = a &&& b) ∧ packedHas .pandn 8 (fun a b r => r = ~~~a &&& b) ∧
    packedHas .por 8 (fun a b r => r = a ||| b) ∧ packedHas .pxor 8 (fun a b r => r = a ^^^ b)) ∧
  (packedHas .pcmpeqb 8 (elementwise 8 fun x y => if x = y then 0xFF else 0) ∧
    packedHas .pcmpeqw 8 (elementwise 16 fun x y => if x = y then 0xFFFF else 0) ∧
    packedHas .pcmpeqd 8 (elementwise 32 fun x y => if x = y then 0xFFFFFFFF else 0) ∧
    packedHas .pcmpgtb 8 (elementwise 8 fun x y => if y.toInt < x.toInt then 0xFF else 0) ∧
    packedHas .pcmpgtw 8 (elementwise 16 fun x y => if y.toInt < x.toInt then 0xFFFF else 0) ∧
    packedHas .pcmpgtd 8 (elementwise 32 fun x y => if y.toInt < x.toInt then 0xFFFFFFFF else 0)) ∧
  (packedHas .pmaddwd 8 (fun a b r => ∀ i < 2, lane 32 r i = BitVec.ofInt 32
      ((lane 16 a (2 * i)).toInt * (lane 16 b (2 * i)).toInt + (lane 16 a (2 * i + 1)).toInt * (lane 16 b (2 * i + 1)).toInt)) ∧
    packedHas .pmulhw 8 (elementwise 16 fun x y => ((x.signExtend 32 * y.signExtend 32 : BitVec 32)).extractLsb' 16 16) ∧
    packedHas .pmullw 8 (elementwise 16 fun x y => ((x.signExtend 32 * y.signExtend 32 : BitVec 32)).extractLsb' 0 16)) ∧
  (packedHas .punpckhbw 8 (interleaves 8 true) ∧ packedHas .punpckhwd 8 (interleaves 16 true) ∧
    packedHas .punpckhdq 8 (interleaves 32 true) ∧ packedHas .punpcklbw 4 (interleaves 8 false) ∧
    packedHas .punpcklwd 4 (interleaves 16 false) ∧ packedHas .punpckldq 4 (interleaves 32 false)) ∧
  (packedShiftHas .psllw 16 (fun x n => BitVec.ofNat 16 (x.toNat * 2 ^ min n 16)) ∧
    packedShiftHas .pslld 32 (fun x n => BitVec.ofNat 32 (x.toNat * 2 ^ min n 32)) ∧
    packedShiftHas .psllq 64 (fun x n => BitVec.ofNat 64 (x.toNat * 2 ^ min n 64)) ∧
    packedShiftHas .psraw 16 (fun x n => BitVec.ofInt 16 (x.toInt / 2 ^ min n 16)) ∧
    packedShiftHas .psrad 32 (fun x n => BitVec.ofInt 32 (x.toInt / 2 ^ min n 32)) ∧
    packedShiftHas .psrlw 16 (fun x n => BitVec.ofNat 16 (x.toNat / 2 ^ min n 16)) ∧
    packedShiftHas .psrld 32 (fun x n => BitVec.ofNat 32 (x.toNat / 2 ^ min n 32)) ∧
    packedShiftHas .psrlq 64 (fun x n => BitVec.ofNat 64 (x.toNat / 2 ^ min n 64))) ∧
  (∀ s : State, s.plain → s.mmxReady →
    completes .emms s { s with fpu := { s.fpu with tags := 0xFFFF } } ∧
    (∀ d m l s1, locate .d m .r s = .ok l s1 →
      completes (.movd (.toMm d m)) s { s1 with fpu := (s1.fpu.setMm d ((l.value .d s1).setWidth 64)).mmxLeft }) ∧
    (∀ m i l s1, locate .d m .w s = .ok l s1 →
      let t := l.put .d ((s.fpu.mm i).setWidth 32) s1
      completes (.movd (.fromMm m i)) s { t with fpu := t.fpu.mmxLeft }) ∧
    (∀ d src b t, MmxSource 8 src s b t → completes (.movq (.load d src)) s { t with fpu := (t.fpu.setMm d b).mmxLeft }) ∧
    (∀ d i, completes (.movq (.store (.reg d) i)) s { s with fpu := (s.fpu.setMm d (s.fpu.mm i)).mmxLeft }) ∧
    (∀ a i ps t, accessEa a 8 8 .w s = .ok ps t →
      let u := t.stored ps (s.fpu.mm i).toNat
      completes (.movq (.store (.mem a) i)) s { u with fpu := u.fpu.mmxLeft }))

/-! ## Memory and the machine -/

/-- The checks of a memory access, in their order: the segment's type, its limit, the alignment; and where paging is off the
bytes accessed are those at the segment's base plus the offset. The model's choices: log 48, the order of translation; log
52, reads of what is not RAM. -/
def Obligations.AccessChecks : Prop :=
  ∀ (s : State) r off n al k,
    (s.segTypeOk r k = false → access r off n al k s = .error (.exc (.gp 0)) s) ∧
    (s.segTypeOk r k = true → (s.seg.get r).inLimit off n = false →
      access r off n al k s = .error (.exc (if r = .ss then .ss 0 else .gp 0)) s) ∧
    (s.segTypeOk r k = true → (s.seg.get r).inLimit off n = true →
      let la := (s.seg.get r).base + off
      (s.alignOn = true → la.toNat % al ≠ 0 → access r off n al k s = .error (.exc .ac) s) ∧
      (s.alignOn = false ∨ la.toNat % al = 0 → s.cr0Pg = false → s.dr7.extractLsb' 0 8 = 0 →
        let ps := (List.range n).map fun i => (la + BitVec.ofNat 32 i).toNat
        access r off n al k s = .ok ps (if k.reads then s.sampled ps else s) ∧
        ((∀ a ∈ ps, s.isRam a = true) → s.sampled ps = s)))

/-- Translation with paging: the tables where nothing is cached, and else one of the cached translations or the tables, with
the permissions of what is used. The walk of two levels and the walk of PAE from the page-directory-pointer registers, with
4-KByte and large pages: absent entries and reserved bits, permissions, error codes, accessed and dirty bits, the
translation cached, and the rest of memory. The model's choices: log 8, the choice among cached translations; log 31, bit 7
of a page-table entry; log 52, what an entry that is not in RAM reads as. -/
def Obligations.PageTranslation : Prop :=
  (∀ (s : State) la write user, s.cr0Pg = true →
    (s.cached la = [] → translate la write user s = walk la write user s) ∧
    (s.cached la ≠ [] → let u := { s with fresh := s.fresh + 1 }
      match (s.cached la)[Config.tlbChoice s.fresh]? with
      | none => translate la write user s = walk la write user u
      | some e =>
        (s.pageAllows e write user → translate la write user s =
          if write && !e.dirty then walk la write user u else .ok (e.frame + la.toNat % 2 ^ e.shift) u) ∧
        (¬ s.pageAllows e write user → translate la write user s = pageFault la write user true false u))) ∧
  (∀ (s : State) la write user, s.cr0Pg = true → s.cr4Pae = false →
    let pdeAddr := (s.cr3 &&& 0xFFFFF000#32).toNat + 4 * (la.extractLsb' 22 10).toNat
    let s1 := s.sampled (addrs 4 pdeAddr)
    let pde : Dword := BitVec.ofNat 32 (s1.entry pdeAddr 4)
    let pteAddr := (pde &&& 0xFFFFF000#32).toNat + 4 * (la.extractLsb' 12 10).toNat
    let s2 := s1.sampled (addrs 4 pteAddr)
    let pte : Dword := BitVec.ofNat 32 (s2.entry pteAddr 4)
    if pde.getLsbD 0 = false then walk la write user s = pageFault la write user false false s1
    else if s.cr4Pse = true ∧ pde.getLsbD 7 = true then
      if pde.extractLsb' 13 9 ≠ 0 then walk la write user s = pageFault la write user true true s1
      else WalkEnds s s1 la write user
        (s.translationOf la write 22 (pde.extractLsb' 22 10 ++ 0#22).toNat (pde.getLsbD 2) (pde.getLsbD 1) (pde.getLsbD 6) (pde.getLsbD 8))
        none pdeAddr (pde.extractLsb' 22 10 ++ la.extractLsb' 0 22).toNat
    else if pte.getLsbD 0 = false then walk la write user s = pageFault la write user false false s2
    else WalkEnds s s2 la write user
      (s.translationOf la write 12 (pte.extractLsb' 12 20 ++ 0#12).toNat (pde.getLsbD 2 && pte.getLsbD 2) (pde.getLsbD 1 && pte.getLsbD 1)
        (pte.getLsbD 6) (pte.getLsbD 8))
      (some pdeAddr) pteAddr (pte.extractLsb' 12 20 ++ la.extractLsb' 0 12).toNat) ∧
  (∀ (s : State) la write user, s.cr0Pg = true → s.cr4Pae = true →
    let pdpte : Qword := match (la.extractLsb' 30 2).toNat with
      | 0 => s.pdpte0 | 1 => s.pdpte1 | 2 => s.pdpte2 | _ => s.pdpte3
    let pdeAddr := (pdpte.extractLsb' 12 24 ++ la.extractLsb' 21 9 ++ 0#3).toNat
    let s1 := s.sampled (addrs 8 pdeAddr)
    let pde : Qword := BitVec.ofNat 64 (s1.entry pdeAddr 8)
    let pteAddr := (pde.extractLsb' 12 24 ++ la.extractLsb' 12 9 ++ 0#3).toNat
    let s2 := s1.sampled (addrs 8 pteAddr)
    let pte : Qword := BitVec.ofNat 64 (s2.entry pteAddr 8)
    if pdpte.getLsbD 0 = false then walk la write user s = pageFault la write user false false s
    else if pde.getLsbD 0 = false then walk la write user s = pageFault la write user false false s1
    else if pde.extractLsb' 36 28 ≠ 0 then walk la write user s = pageFault la write user true true s1
    else if pde.getLsbD 7 = true then WalkEnds s s1 la write user
      (s.translationOf la write 21 (pde.extractLsb' 21 15 ++ 0#21).toNat (pde.getLsbD 2) (pde.getLsbD 1) (pde.getLsbD 6) (pde.getLsbD 8))
      none pdeAddr (pde.extractLsb' 21 15 ++ la.extractLsb' 0 21).toNat
    else if pte.getLsbD 0 = false then walk la write user s = pageFault la write user false false s2
    else if pte.extractLsb' 36 28 ≠ 0 then walk la write user s = pageFault la write user true true s2
    else WalkEnds s s2 la write user
      (s.translationOf la write 12 (pte.extractLsb' 12 24 ++ 0#12).toNat (pde.getLsbD 2 && pte.getLsbD 2) (pde.getLsbD 1 && pte.getLsbD 1)
        (pte.getLsbD 6) (pte.getLsbD 8))
      (some pdeAddr) pteAddr (pte.extractLsb' 12 24 ++ la.extractLsb' 0 12).toNat)

/-- The prefixes: each latches its effect once; a second one of its group is refused. LOCK before an instruction that may
not take it is #UD, and a repeat prefix before one that it is not defined for is refused. The model's choices: log 11,
encodings that are always #UD; log 16, a second prefix of a group; log 17, a repeat prefix that is undefined. -/
def Obligations.Prefixes : Prop :=
  (∀ (s : State), ∀ p ∈ segPrefixes,
    (s.pfx.seg = none → exec p.1 s = .next { s with pfx := { s.pfx with seg := some p.2 } }) ∧
    (s.pfx.seg ≠ none → exec p.1 s = .refused .redundantPrefix)) ∧
  (∀ s : State,
    (s.pfx.opsz = false → exec .opSize s = .next { s with pfx := { s.pfx with opsz := true } }) ∧
    (s.pfx.opsz = true → exec .opSize s = .refused .redundantPrefix) ∧
    (s.pfx.adsz = false → exec .adSize s = .next { s with pfx := { s.pfx with adsz := true } }) ∧
    (s.pfx.adsz = true → exec .adSize s = .refused .redundantPrefix) ∧
    (s.plain → exec .lock s = .next { s with pfx := { s.pfx with lock := true } } ∧
      exec .rep s = .next { s with pfx := { s.pfx with rep := .rep } } ∧
      exec .repne s = .next { s with pfx := { s.pfx with rep := .repne } }) ∧
    (¬ s.plain → ∀ i ∈ [Instr.lock, .rep, .repne], exec i s = .refused .redundantPrefix)) ∧
  (∀ (s : State) i, isPrefix i = false → takesLock i = false → s.pfx.lock = true → exec i s = takeExc .ud s) ∧
  (∀ (s : State) i, isPrefix i = false → alwaysInvalid i = false → takesRep s.pfx.rep i = false → s.pfx.lock = false →
    exec i s = .refused .repUndefined)

/-- A step with nothing pending runs the instruction that the bytes at EIP decode to, after its prefixes, with EIP, the
flags and the shadow as completion leaves them, and a debug trap where TF was set or a data breakpoint matched. The model's
choices: log 7, the counters; log 24, the single-step trap; log 25, breakpoints and the trap in the shadow of MOV SS; log
26, RF at the end of an instruction; log 47, fetching; log 51, the opcode bytes. -/
def Obligations.StepRunsDecoded : Prop :=
  (∀ (s : State) i rest,
    let b := s.begin
    let bs := b.codeAhead
    s.deferred = none → s.activity = .running → b.pendingEvent = none → b.codeHits = 0 →
    decode b.ctx bs = some (i, rest) →
    let n := bs.length - rest.length
    (isPrefix i = false → step s =
      endOutcome (completeOutcome b (exec i { fetchCommit n b with opBytes := opBytesOf bs }))) ∧
    (isPrefix i = true → ∀ t, exec i b = .next t → step s = endOutcome (runUnits exec b Config.maxLen n rest t))) ∧
  (∀ (s0 s : State) n used bs i rest, decode s.ctx bs = some (i, rest) →
    let len := used + (bs.length - rest.length)
    (isPrefix i = true → ∀ t, exec i s = .next t →
      runUnits exec s0 (n + 1) used bs s = runUnits exec s0 n len rest t) ∧
    (isPrefix i = false → runUnits exec s0 (n + 1) used bs s =
      completeOutcome s0 (exec i { fetchCommit len s with opBytes := opBytesOf bs }))) ∧
  (∀ s0 t : State, t.interrupted = false →
    let u := { t with
      shadow := if s0.shadow = .none then t.shadow else .none
      flags := { t.flags with
        rf := t.flags.rf && (t.rfKept || decide (t.pfx.rep ≠ .none) && decide (t.eip = s0.eip)) } }
    (u.shadow = .movSs ∨ s0.flags.tf = false ∧ t.dbgHits = 0 → completeOutcome s0 (.next t) = .next u) ∧
    (u.shadow ≠ .movSs → s0.flags.tf = true ∨ t.dbgHits ≠ 0 → completeOutcome s0 (.next t) =
      takeExc (.db true (bitAt 32 14 s0.flags.tf ||| t.dbgHits.setWidth 32)) { u with dbgHits := 0 }) ∧
    endOutcome (.next t) = .next t.tick)

/-- Between instructions: an event that a step has left is taken first, then an NMI, then a maskable interrupt where IF is
set and no shadow holds it off; a halted processor stays halted without one, and a processor that has shut down ignores
maskable interrupts. A fault while an event is delivered is delivered in its place, or as a double fault, or shuts the
processor down. The model's choices: log 7, the counters; log 15, requests from outside; log 20, the deliveries of one step;
log 21, a failed delivery; log 49, NMI blocking. -/
def Obligations.BoundaryEvents : Prop :=
  (∀ (s : State) ev, s.deferred = some ev → step s = endOutcome (takeEvent nestingBound ev s.begin)) ∧
  (∀ s : State, s.deferred = none →
    (s.nmiPending = true → s.nmiBlocked = false → s.shadow ≠ .movSs →
      step s = endOutcome (takeEvent nestingBound { vector := 2, kind := .external, err := none }
        { s.begin with nmiPending := false })) ∧
    (∀ v, s.takesNmi = false → s.intrPending = some v → s.flags.if_ = true → s.shadow = .none →
      s.activity ≠ .shutdown →
      step s = endOutcome (takeEvent nestingBound { vector := v, kind := .external, err := none }
        { s.begin with intrPending := none })) ∧
    (s.takesNmi = false →
      s.activity = .halted ∧ (s.intrPending = none ∨ s.flags.if_ = false ∨ s.shadow ≠ .none) ∨ s.activity = .shutdown →
      step s = .next s.begin.tick)) ∧
  (∀ n (s t : State) ev e, deliver ev { s with adLog := [] } = .error (.exc e) t →
    let u := { s.rollback t with eip := s.returnEip ev }.record e
    let first := ev.cls
    let second := e.event.cls
    (first = .benign ∨ first = .contributory ∧ second ≠ .contributory ∨ first = .pageFault ∧ second = .benign →
      second ≠ .doubleFault → takeEvent (n + 1) ev s = takeEvent n e.event u) ∧
    (first = .contributory ∧ second = .contributory ∨ first = .pageFault ∧ (second = .contributory ∨ second = .pageFault) →
      takeEvent (n + 1) ev s = takeEvent n { vector := 8, kind := .exception false, err := some 0 } u) ∧
    (first = .doubleFault ∧ (second = .contributory ∨ second = .pageFault) → takeEvent (n + 1) ev s = .next u.shut)) ∧
  (∀ (s : State) ev, takeEvent 0 ev s = .next { s with deferred := some ev, interrupted := true })

/-- The registers after a hardware reset. The model's choices: log 2, EDX; log 3, what R90 leaves open. -/
def Obligations.ResetValues : Prop :=
  let r := State.reset
  r.gpr.eax = 0 ∧ r.gpr.ebx = 0 ∧ r.gpr.ecx = 0 ∧ r.gpr.esi = 0 ∧ r.gpr.edi = 0 ∧ r.gpr.ebp = 0 ∧ r.gpr.esp = 0 ∧
  r.gpr.edx.extractLsb' 8 24 = 6 ∧ r.eip = 0x0000FFF0 ∧ r.flags.toDword = 0x00000002 ∧
  (r.seg.cs.sel = 0xF000 ∧ r.seg.cs.base = 0xFFFF0000 ∧ r.seg.cs.limit = 0xFFFF ∧ r.seg.cs.p = true) ∧
  (∀ g ∈ [r.seg.ss, r.seg.ds, r.seg.es, r.seg.fs, r.seg.gs],
    g.sel = 0 ∧ g.base = 0 ∧ g.limit = 0xFFFF ∧ g.p = true ∧ g.writable = true) ∧
  r.cr0 = 0x60000010 ∧ r.cr2 = 0 ∧ r.cr3 = 0 ∧ r.cr4 = 0 ∧
  (r.gdtr.base = 0 ∧ r.gdtr.limit = 0xFFFF ∧ r.idtr.base = 0 ∧ r.idtr.limit = 0xFFFF) ∧
  (r.ldtr.sel = 0 ∧ r.ldtr.base = 0 ∧ r.ldtr.limit = 0xFFFF ∧ r.tr.sel = 0 ∧ r.tr.base = 0 ∧ r.tr.limit = 0xFFFF) ∧
  (r.dr0 = 0 ∧ r.dr1 = 0 ∧ r.dr2 = 0 ∧ r.dr3 = 0 ∧ r.dr6 = 0xFFFF0FF0 ∧ r.dr7 = 0x00000400) ∧
  r.tsc = 0 ∧ r.pmc0 = 0 ∧ r.pmc1 = 0 ∧ r.fpu.cw = 0x0040 ∧ r.fpu.sw.toWord = 0 ∧ r.fpu.tags = 0x5555 ∧
  (∀ n, r.fpu.reg n = 0) ∧ r.fpu.fip = 0 ∧ r.fpu.fdp = 0 ∧ r.fpu.fop = 0 ∧ r.tlb = [] ∧ r.shadow = .none ∧
  r.activity = .running ∧ r.curPl = 0 ∧ r.real = true ∧ r.seg.cs.base + r.eip = 0xFFFFFFF0

/-- The reset state meets the invariant. The model's choices: log 1, empty memory; log 3, what R90 leaves open; log 18,
CR4.VME and CR4.PVI. -/
def Obligations.ResetMeetsLegal : Prop := State.reset.Legal

/-- Every step keeps the invariant. The model's choices: log 18, CR4.VME and CR4.PVI; log 31, the reserved bits of CR0. -/
def Obligations.StepKeepsLegal : Prop := ∀ s t : State, s.Legal → step s = .next t → t.Legal

/-- A step that begins at a level other than 0 leaves the registers that only level 0 may change. The model's choices: log
21, a failed delivery. -/
def Obligations.UserStepKeepsSystemRegisters : Prop :=
  ∀ s t : State, s.curPl ≠ 0 → step s = .next t → s.SameSystem t

/-- Decoding the encoding of a well-formed instruction gives it back, and the bytes after it; after WAIT none may follow,
which the decoder would read with it. The model's choices: log 46, 9B before a no-wait instruction. -/
def Obligations.DecodeOfEncode : Prop :=
  ∀ (i : Instr) (c : Ctx) (rest : List Byte), i.wf c = true → (i = .wait → rest = []) →
    decode c (encode c i ++ rest) = some (i, rest)

/-- A few words read as the spec's encodings say. -/
def Obligations.SampleWordsDecode : Prop :=
  let c32 : Ctx := { os32 := true, as32 := true, waitAlone := false }
  let c16 : Ctx := { os32 := false, as32 := false, waitAlone := false }
  decode c32 [0x83, 0xC0, 0x05] = some (.add (.rmImm8 (.reg .eax) 5), []) ∧
  decode c32 [0x8B, 0x44, 0x8B, 0xFC] = some (.mov (.rRm .v .eax (.mem (.a32 (some .ebx) (some (.ecx, .x4)) 0xFFFFFFFC))), []) ∧
  decode c16 [0x89, 0x46, 0x02] = some (.mov (.rmR .v (.mem (.a16 (some .bp) 2)) .eax), []) ∧
  decode c32 [0x0F, 0xAF, 0xD9] = some (.imul (.two .ebx (.reg .ecx)), []) ∧
  decode c32 [0xCD, 0x80] = some (.intN 0x80, []) ∧
  decode c32 [0xD8, 0xC3] = some (.fadd (.st0i .i3), []) ∧
  decode c32 [0x0F, 0xFC, 0xCA] = some (.paddb .i1 (.reg .i2), []) ∧
  decode c32 [0xF0] = some (.lock, [])
end

