-- ==== Sys2Proof/Laws/Arms.lean ====
section
/-! SUPPORT. The arm of every instruction: `exec` is the meaning. -/

namespace Sys2Proof.Machine

variable (s : State)

theorem exec_reserved (cell : BlankCell) : exec (.reserved cell) s = execReserved cell s := rfl
theorem exec_aad (base : Byte) : exec (.aad base) s = execAad base s := rfl
theorem exec_aam (base : Byte) : exec (.aam base) s = execAam base s := rfl
theorem exec_adc (f : AluForm) : exec (.adc f) s = execAdc f s := rfl
theorem exec_add (f : AluForm) : exec (.add f) s = execAdd f s := rfl
theorem exec_and_ (f : AluForm) : exec (.and_ f) s = execAnd f s := rfl
theorem exec_arpl (dst : Rm) (src : Reg) : exec (.arpl dst src) s = execArpl dst src s := rfl
theorem exec_bound (r : Reg) (bnd : Rm) : exec (.bound r bnd) s = execBound r bnd s := rfl
theorem exec_bsf (dst : Reg) (src : Rm) : exec (.bsf dst src) s = execBsf dst src s := rfl
theorem exec_bsr (dst : Reg) (src : Rm) : exec (.bsr dst src) s = execBsr dst src s := rfl
theorem exec_bswap (r : Reg) : exec (.bswap r) s = execBswap r s := rfl
theorem exec_bt (f : BtForm) : exec (.bt f) s = execBt f s := rfl
theorem exec_btc (f : BtForm) : exec (.btc f) s = execBtc f s := rfl
theorem exec_btr (f : BtForm) : exec (.btr f) s = execBtr f s := rfl
theorem exec_bts (f : BtForm) : exec (.bts f) s = execBts f s := rfl
theorem exec_call (f : CallForm) : exec (.call f) s = execCall f s := rfl
theorem exec_cmovo (dst : Reg) (src : Rm) : exec (.cmovo dst src) s = execCmovo dst src s := rfl
theorem exec_cmovno (dst : Reg) (src : Rm) : exec (.cmovno dst src) s = execCmovno dst src s := rfl
theorem exec_cmovb (dst : Reg) (src : Rm) : exec (.cmovb dst src) s = execCmovb dst src s := rfl
theorem exec_cmovae (dst : Reg) (src : Rm) : exec (.cmovae dst src) s = execCmovae dst src s := rfl
theorem exec_cmove (dst : Reg) (src : Rm) : exec (.cmove dst src) s = execCmove dst src s := rfl
theorem exec_cmovne (dst : Reg) (src : Rm) : exec (.cmovne dst src) s = execCmovne dst src s := rfl
theorem exec_cmovbe (dst : Reg) (src : Rm) : exec (.cmovbe dst src) s = execCmovbe dst src s := rfl
theorem exec_cmova (dst : Reg) (src : Rm) : exec (.cmova dst src) s = execCmova dst src s := rfl
theorem exec_cmovs (dst : Reg) (src : Rm) : exec (.cmovs dst src) s = execCmovs dst src s := rfl
theorem exec_cmovns (dst : Reg) (src : Rm) : exec (.cmovns dst src) s = execCmovns dst src s := rfl
theorem exec_cmovp (dst : Reg) (src : Rm) : exec (.cmovp dst src) s = execCmovp dst src s := rfl
theorem exec_cmovnp (dst : Reg) (src : Rm) : exec (.cmovnp dst src) s = execCmovnp dst src s := rfl
theorem exec_cmovl (dst : Reg) (src : Rm) : exec (.cmovl dst src) s = execCmovl dst src s := rfl
theorem exec_cmovge (dst : Reg) (src : Rm) : exec (.cmovge dst src) s = execCmovge dst src s := rfl
theorem exec_cmovle (dst : Reg) (src : Rm) : exec (.cmovle dst src) s = execCmovle dst src s := rfl
theorem exec_cmovg (dst : Reg) (src : Rm) : exec (.cmovg dst src) s = execCmovg dst src s := rfl
theorem exec_cmp (f : AluForm) : exec (.cmp f) s = execCmp f s := rfl
theorem exec_cmps (w : Wd) : exec (.cmps w) s = execCmps w s := rfl
theorem exec_cmpxchg (w : Wd) (dst : Rm) (src : Reg) : exec (.cmpxchg w dst src) s = execCmpxchg w dst src s := rfl
theorem exec_cmpxchg8b (m : Rm) : exec (.cmpxchg8b m) s = execCmpxchg8b m s := rfl
theorem exec_dec (f : IncForm) : exec (.dec f) s = execDec f s := rfl
theorem exec_div (w : Wd) (src : Rm) : exec (.div w src) s = execDiv w src s := rfl
theorem exec_enter (size : Word) (level : Byte) : exec (.enter size level) s = execEnter size level s := rfl
theorem exec_fadd (f : FArith) : exec (.fadd f) s = execFadd f s := rfl
theorem exec_faddp (i : Idx8) : exec (.faddp i) s = execFaddp i s := rfl
theorem exec_fiadd (f : FInt2) : exec (.fiadd f) s = execFiadd f s := rfl
theorem exec_fbld (m : Ea) : exec (.fbld m) s = execFbld m s := rfl
theorem exec_fbstp (m : Ea) : exec (.fbstp m) s = execFbstp m s := rfl
theorem exec_fcmovb (i : Idx8) : exec (.fcmovb i) s = execFcmovb i s := rfl
theorem exec_fcmove (i : Idx8) : exec (.fcmove i) s = execFcmove i s := rfl
theorem exec_fcmovbe (i : Idx8) : exec (.fcmovbe i) s = execFcmovbe i s := rfl
theorem exec_fcmovu (i : Idx8) : exec (.fcmovu i) s = execFcmovu i s := rfl
theorem exec_fcmovnb (i : Idx8) : exec (.fcmovnb i) s = execFcmovnb i s := rfl
theorem exec_fcmovne (i : Idx8) : exec (.fcmovne i) s = execFcmovne i s := rfl
theorem exec_fcmovnbe (i : Idx8) : exec (.fcmovnbe i) s = execFcmovnbe i s := rfl
theorem exec_fcmovnu (i : Idx8) : exec (.fcmovnu i) s = execFcmovnu i s := rfl
theorem exec_fcom (f : FComForm) : exec (.fcom f) s = execFcom f s := rfl
theorem exec_fcomp (f : FComForm) : exec (.fcomp f) s = execFcomp f s := rfl
theorem exec_fcomi (i : Idx8) : exec (.fcomi i) s = execFcomi i s := rfl
theorem exec_fcomip (i : Idx8) : exec (.fcomip i) s = execFcomip i s := rfl
theorem exec_fucomi (i : Idx8) : exec (.fucomi i) s = execFucomi i s := rfl
theorem exec_fucomip (i : Idx8) : exec (.fucomip i) s = execFucomip i s := rfl
theorem exec_fdiv (f : FArith) : exec (.fdiv f) s = execFdiv f s := rfl
theorem exec_fdivp (i : Idx8) : exec (.fdivp i) s = execFdivp i s := rfl
theorem exec_fidiv (f : FInt2) : exec (.fidiv f) s = execFidiv f s := rfl
theorem exec_fdivr (f : FArith) : exec (.fdivr f) s = execFdivr f s := rfl
theorem exec_fdivrp (i : Idx8) : exec (.fdivrp i) s = execFdivrp i s := rfl
theorem exec_fidivr (f : FInt2) : exec (.fidivr f) s = execFidivr f s := rfl
theorem exec_ffree (i : Idx8) : exec (.ffree i) s = execFfree i s := rfl
theorem exec_ficom (f : FInt2) : exec (.ficom f) s = execFicom f s := rfl
theorem exec_ficomp (f : FInt2) : exec (.ficomp f) s = execFicomp f s := rfl
theorem exec_fild (f : FInt3) : exec (.fild f) s = execFild f s := rfl
theorem exec_fist (f : FInt2) : exec (.fist f) s = execFist f s := rfl
theorem exec_fistp (f : FInt3) : exec (.fistp f) s = execFistp f s := rfl
theorem exec_fld (f : FLdForm) : exec (.fld f) s = execFld f s := rfl
theorem exec_fldcw (m : Ea) : exec (.fldcw m) s = execFldcw m s := rfl
theorem exec_fldenv (m : Ea) : exec (.fldenv m) s = execFldenv m s := rfl
theorem exec_fmul (f : FArith) : exec (.fmul f) s = execFmul f s := rfl
theorem exec_fmulp (i : Idx8) : exec (.fmulp i) s = execFmulp i s := rfl
theorem exec_fimul (f : FInt2) : exec (.fimul f) s = execFimul f s := rfl
theorem exec_frstor (m : Ea) : exec (.frstor m) s = execFrstor m s := rfl
theorem exec_fsave (m : Ea) : exec (.fsave m) s = execFsave m s := rfl
theorem exec_fnsave (m : Ea) : exec (.fnsave m) s = execFnsave m s := rfl
theorem exec_fst (f : FComForm) : exec (.fst f) s = execFst f s := rfl
theorem exec_fstp (f : FLdForm) : exec (.fstp f) s = execFstp f s := rfl
theorem exec_fstcw (m : Ea) : exec (.fstcw m) s = execFstcw m s := rfl
theorem exec_fnstcw (m : Ea) : exec (.fnstcw m) s = execFnstcw m s := rfl
theorem exec_fstenv (m : Ea) : exec (.fstenv m) s = execFstenv m s := rfl
theorem exec_fnstenv (m : Ea) : exec (.fnstenv m) s = execFnstenv m s := rfl
theorem exec_fstsw (f : FStsw) : exec (.fstsw f) s = execFstsw f s := rfl
theorem exec_fnstsw (f : FStsw) : exec (.fnstsw f) s = execFnstsw f s := rfl
theorem exec_fsub (f : FArith) : exec (.fsub f) s = execFsub f s := rfl
theorem exec_fsubp (i : Idx8) : exec (.fsubp i) s = execFsubp i s := rfl
theorem exec_fisub (f : FInt2) : exec (.fisub f) s = execFisub f s := rfl
theorem exec_fsubr (f : FArith) : exec (.fsubr f) s = execFsubr f s := rfl
theorem exec_fsubrp (i : Idx8) : exec (.fsubrp i) s = execFsubrp i s := rfl
theorem exec_fisubr (f : FInt2) : exec (.fisubr f) s = execFisubr f s := rfl
theorem exec_fucom (i : Idx8) : exec (.fucom i) s = execFucom i s := rfl
theorem exec_fucomp (i : Idx8) : exec (.fucomp i) s = execFucomp i s := rfl
theorem exec_fxch (i : Idx8) : exec (.fxch i) s = execFxch i s := rfl
theorem exec_idiv (w : Wd) (src : Rm) : exec (.idiv w src) s = execIdiv w src s := rfl
theorem exec_imul (f : ImulForm) : exec (.imul f) s = execImul f s := rfl
theorem exec_inp (w : Wd) (p : Port) : exec (.inp w p) s = execInp w p s := rfl
theorem exec_inc (f : IncForm) : exec (.inc f) s = execInc f s := rfl
theorem exec_ins (w : Wd) : exec (.ins w) s = execIns w s := rfl
theorem exec_intN (n : Byte) : exec (.intN n) s = execIntN n s := rfl
theorem exec_invlpg (m : Rm) : exec (.invlpg m) s = execInvlpg m s := rfl
theorem exec_jo (t : JForm) : exec (.jo t) s = execJo t s := rfl
theorem exec_jno (t : JForm) : exec (.jno t) s = execJno t s := rfl
theorem exec_jb (t : JForm) : exec (.jb t) s = execJb t s := rfl
theorem exec_jae (t : JForm) : exec (.jae t) s = execJae t s := rfl
theorem exec_je (t : JForm) : exec (.je t) s = execJe t s := rfl
theorem exec_jne (t : JForm) : exec (.jne t) s = execJne t s := rfl
theorem exec_jbe (t : JForm) : exec (.jbe t) s = execJbe t s := rfl
theorem exec_ja (t : JForm) : exec (.ja t) s = execJa t s := rfl
theorem exec_js (t : JForm) : exec (.js t) s = execJs t s := rfl
theorem exec_jns (t : JForm) : exec (.jns t) s = execJns t s := rfl
theorem exec_jp (t : JForm) : exec (.jp t) s = execJp t s := rfl
theorem exec_jnp (t : JForm) : exec (.jnp t) s = execJnp t s := rfl
theorem exec_jl (t : JForm) : exec (.jl t) s = execJl t s := rfl
theorem exec_jge (t : JForm) : exec (.jge t) s = execJge t s := rfl
theorem exec_jle (t : JForm) : exec (.jle t) s = execJle t s := rfl
theorem exec_jg (t : JForm) : exec (.jg t) s = execJg t s := rfl
theorem exec_jcxz (rel : Byte) : exec (.jcxz rel) s = execJcxz rel s := rfl
theorem exec_jecxz (rel : Byte) : exec (.jecxz rel) s = execJecxz rel s := rfl
theorem exec_jmp (f : JmpForm) : exec (.jmp f) s = execJmp f s := rfl
theorem exec_lar (dst : Reg) (src : Rm) : exec (.lar dst src) s = execLar dst src s := rfl
theorem exec_lds (dst : Reg) (m : Rm) : exec (.lds dst m) s = execLds dst m s := rfl
theorem exec_les (dst : Reg) (m : Rm) : exec (.les dst m) s = execLes dst m s := rfl
theorem exec_lss (dst : Reg) (m : Rm) : exec (.lss dst m) s = execLss dst m s := rfl
theorem exec_lfs (dst : Reg) (m : Rm) : exec (.lfs dst m) s = execLfs dst m s := rfl
theorem exec_lgs (dst : Reg) (m : Rm) : exec (.lgs dst m) s = execLgs dst m s := rfl
theorem exec_lea (dst : Reg) (m : Rm) : exec (.lea dst m) s = execLea dst m s := rfl
theorem exec_lgdt (m : Rm) : exec (.lgdt m) s = execLgdt m s := rfl
theorem exec_lidt (m : Rm) : exec (.lidt m) s = execLidt m s := rfl
theorem exec_lldt (src : Rm) : exec (.lldt src) s = execLldt src s := rfl
theorem exec_lmsw (src : Rm) : exec (.lmsw src) s = execLmsw src s := rfl
theorem exec_lods (w : Wd) : exec (.lods w) s = execLods w s := rfl
theorem exec_loop (rel : Byte) : exec (.loop rel) s = execLoop rel s := rfl
theorem exec_loope (rel : Byte) : exec (.loope rel) s = execLoope rel s := rfl
theorem exec_loopne (rel : Byte) : exec (.loopne rel) s = execLoopne rel s := rfl
theorem exec_lsl (dst : Reg) (src : Rm) : exec (.lsl dst src) s = execLsl dst src s := rfl
theorem exec_ltr (src : Rm) : exec (.ltr src) s = execLtr src s := rfl
theorem exec_mov (f : MovForm) : exec (.mov f) s = execMov f s := rfl
theorem exec_movSreg (f : MovSregForm) : exec (.movSreg f) s = execMovSreg f s := rfl
theorem exec_movCr (f : MovSysForm) : exec (.movCr f) s = execMovCr f s := rfl
theorem exec_movDr (f : MovSysForm) : exec (.movDr f) s = execMovDr f s := rfl
theorem exec_movd (f : MovdForm) : exec (.movd f) s = execMovd f s := rfl
theorem exec_movq (f : MovqForm) : exec (.movq f) s = execMovq f s := rfl
theorem exec_movs (w : Wd) : exec (.movs w) s = execMovs w s := rfl
theorem exec_movsx (w : Wd) (dst : Reg) (src : Rm) : exec (.movsx w dst src) s = execMovsx w dst src s := rfl
theorem exec_movzx (w : Wd) (dst : Reg) (src : Rm) : exec (.movzx w dst src) s = execMovzx w dst src s := rfl
theorem exec_mul (w : Wd) (src : Rm) : exec (.mul w src) s = execMul w src s := rfl
theorem exec_neg (w : Wd) (dst : Rm) : exec (.neg w dst) s = execNeg w dst s := rfl
theorem exec_not_ (w : Wd) (dst : Rm) : exec (.not_ w dst) s = execNot w dst s := rfl
theorem exec_or_ (f : AluForm) : exec (.or_ f) s = execOr f s := rfl
theorem exec_outp (w : Wd) (p : Port) : exec (.outp w p) s = execOutp w p s := rfl
theorem exec_outs (w : Wd) : exec (.outs w) s = execOuts w s := rfl
theorem exec_packsswb (d : Idx8) (src : MmRm) : exec (.packsswb d src) s = execPacksswb d src s := rfl
theorem exec_packssdw (d : Idx8) (src : MmRm) : exec (.packssdw d src) s = execPackssdw d src s := rfl
theorem exec_packuswb (d : Idx8) (src : MmRm) : exec (.packuswb d src) s = execPackuswb d src s := rfl
theorem exec_paddb (d : Idx8) (src : MmRm) : exec (.paddb d src) s = execPaddb d src s := rfl
theorem exec_paddw (d : Idx8) (src : MmRm) : exec (.paddw d src) s = execPaddw d src s := rfl
theorem exec_paddd (d : Idx8) (src : MmRm) : exec (.paddd d src) s = execPaddd d src s := rfl
theorem exec_paddsb (d : Idx8) (src : MmRm) : exec (.paddsb d src) s = execPaddsb d src s := rfl
theorem exec_paddsw (d : Idx8) (src : MmRm) : exec (.paddsw d src) s = execPaddsw d src s := rfl
theorem exec_paddusb (d : Idx8) (src : MmRm) : exec (.paddusb d src) s = execPaddusb d src s := rfl
theorem exec_paddusw (d : Idx8) (src : MmRm) : exec (.paddusw d src) s = execPaddusw d src s := rfl
theorem exec_pand (d : Idx8) (src : MmRm) : exec (.pand d src) s = execPand d src s := rfl
theorem exec_pandn (d : Idx8) (src : MmRm) : exec (.pandn d src) s = execPandn d src s := rfl
theorem exec_pcmpeqb (d : Idx8) (src : MmRm) : exec (.pcmpeqb d src) s = execPcmpeqb d src s := rfl
theorem exec_pcmpeqw (d : Idx8) (src : MmRm) : exec (.pcmpeqw d src) s = execPcmpeqw d src s := rfl
theorem exec_pcmpeqd (d : Idx8) (src : MmRm) : exec (.pcmpeqd d src) s = execPcmpeqd d src s := rfl
theorem exec_pcmpgtb (d : Idx8) (src : MmRm) : exec (.pcmpgtb d src) s = execPcmpgtb d src s := rfl
theorem exec_pcmpgtw (d : Idx8) (src : MmRm) : exec (.pcmpgtw d src) s = execPcmpgtw d src s := rfl
theorem exec_pcmpgtd (d : Idx8) (src : MmRm) : exec (.pcmpgtd d src) s = execPcmpgtd d src s := rfl
theorem exec_pmaddwd (d : Idx8) (src : MmRm) : exec (.pmaddwd d src) s = execPmaddwd d src s := rfl
theorem exec_pmulhw (d : Idx8) (src : MmRm) : exec (.pmulhw d src) s = execPmulhw d src s := rfl
theorem exec_pmullw (d : Idx8) (src : MmRm) : exec (.pmullw d src) s = execPmullw d src s := rfl
theorem exec_por (d : Idx8) (src : MmRm) : exec (.por d src) s = execPor d src s := rfl
theorem exec_psllw (f : MShift) : exec (.psllw f) s = execPsllw f s := rfl
theorem exec_pslld (f : MShift) : exec (.pslld f) s = execPslld f s := rfl
theorem exec_psllq (f : MShift) : exec (.psllq f) s = execPsllq f s := rfl
theorem exec_psraw (f : MShift) : exec (.psraw f) s = execPsraw f s := rfl
theorem exec_psrad (f : MShift) : exec (.psrad f) s = execPsrad f s := rfl
theorem exec_psrlw (f : MShift) : exec (.psrlw f) s = execPsrlw f s := rfl
theorem exec_psrld (f : MShift) : exec (.psrld f) s = execPsrld f s := rfl
theorem exec_psrlq (f : MShift) : exec (.psrlq f) s = execPsrlq f s := rfl
theorem exec_psubb (d : Idx8) (src : MmRm) : exec (.psubb d src) s = execPsubb d src s := rfl
theorem exec_psubw (d : Idx8) (src : MmRm) : exec (.psubw d src) s = execPsubw d src s := rfl
theorem exec_psubd (d : Idx8) (src : MmRm) : exec (.psubd d src) s = execPsubd d src s := rfl
theorem exec_psubsb (d : Idx8) (src : MmRm) : exec (.psubsb d src) s = execPsubsb d src s := rfl
theorem exec_psubsw (d : Idx8) (src : MmRm) : exec (.psubsw d src) s = execPsubsw d src s := rfl
theorem exec_psubusb (d : Idx8) (src : MmRm) : exec (.psubusb d src) s = execPsubusb d src s := rfl
theorem exec_psubusw (d : Idx8) (src : MmRm) : exec (.psubusw d src) s = execPsubusw d src s := rfl
theorem exec_punpckhbw (d : Idx8) (src : MmRm) : exec (.punpckhbw d src) s = execPunpckhbw d src s := rfl
theorem exec_punpckhwd (d : Idx8) (src : MmRm) : exec (.punpckhwd d src) s = execPunpckhwd d src s := rfl
theorem exec_punpckhdq (d : Idx8) (src : MmRm) : exec (.punpckhdq d src) s = execPunpckhdq d src s := rfl
theorem exec_punpcklbw (d : Idx8) (src : MmRm) : exec (.punpcklbw d src) s = execPunpcklbw d src s := rfl
theorem exec_punpcklwd (d : Idx8) (src : MmRm) : exec (.punpcklwd d src) s = execPunpcklwd d src s := rfl
theorem exec_punpckldq (d : Idx8) (src : MmRm) : exec (.punpckldq d src) s = execPunpckldq d src s := rfl
theorem exec_pxor (d : Idx8) (src : MmRm) : exec (.pxor d src) s = execPxor d src s := rfl
theorem exec_pop (f : PopForm) : exec (.pop f) s = execPop f s := rfl
theorem exec_push (f : PushForm) : exec (.push f) s = execPush f s := rfl
theorem exec_rol (f : ShiftForm) : exec (.rol f) s = execRol f s := rfl
theorem exec_ror (f : ShiftForm) : exec (.ror f) s = execRor f s := rfl
theorem exec_rcl (f : ShiftForm) : exec (.rcl f) s = execRcl f s := rfl
theorem exec_rcr (f : ShiftForm) : exec (.rcr f) s = execRcr f s := rfl
theorem exec_ret (f : RetForm) : exec (.ret f) s = execRet f s := rfl
theorem exec_salShl (f : ShiftForm) : exec (.salShl f) s = execSalShl f s := rfl
theorem exec_shr (f : ShiftForm) : exec (.shr f) s = execShr f s := rfl
theorem exec_sar (f : ShiftForm) : exec (.sar f) s = execSar f s := rfl
theorem exec_sbb (f : AluForm) : exec (.sbb f) s = execSbb f s := rfl
theorem exec_scas (w : Wd) : exec (.scas w) s = execScas w s := rfl
theorem exec_seto (dst : Rm) : exec (.seto dst) s = execSeto dst s := rfl
theorem exec_setno (dst : Rm) : exec (.setno dst) s = execSetno dst s := rfl
theorem exec_setb (dst : Rm) : exec (.setb dst) s = execSetb dst s := rfl
theorem exec_setae (dst : Rm) : exec (.setae dst) s = execSetae dst s := rfl
theorem exec_sete (dst : Rm) : exec (.sete dst) s = execSete dst s := rfl
theorem exec_setne (dst : Rm) : exec (.setne dst) s = execSetne dst s := rfl
theorem exec_setbe (dst : Rm) : exec (.setbe dst) s = execSetbe dst s := rfl
theorem exec_seta (dst : Rm) : exec (.seta dst) s = execSeta dst s := rfl
theorem exec_sets (dst : Rm) : exec (.sets dst) s = execSets dst s := rfl
theorem exec_setns (dst : Rm) : exec (.setns dst) s = execSetns dst s := rfl
theorem exec_setp (dst : Rm) : exec (.setp dst) s = execSetp dst s := rfl
theorem exec_setnp (dst : Rm) : exec (.setnp dst) s = execSetnp dst s := rfl
theorem exec_setl (dst : Rm) : exec (.setl dst) s = execSetl dst s := rfl
theorem exec_setge (dst : Rm) : exec (.setge dst) s = execSetge dst s := rfl
theorem exec_setle (dst : Rm) : exec (.setle dst) s = execSetle dst s := rfl
theorem exec_setg (dst : Rm) : exec (.setg dst) s = execSetg dst s := rfl
theorem exec_sgdt (m : Rm) : exec (.sgdt m) s = execSgdt m s := rfl
theorem exec_sidt (m : Rm) : exec (.sidt m) s = execSidt m s := rfl
theorem exec_shld (f : ShxdForm) : exec (.shld f) s = execShld f s := rfl
theorem exec_shrd (f : ShxdForm) : exec (.shrd f) s = execShrd f s := rfl
theorem exec_sldt (dst : Rm) : exec (.sldt dst) s = execSldt dst s := rfl
theorem exec_smsw (dst : Rm) : exec (.smsw dst) s = execSmsw dst s := rfl
theorem exec_stos (w : Wd) : exec (.stos w) s = execStos w s := rfl
theorem exec_str (dst : Rm) : exec (.str dst) s = execStr dst s := rfl
theorem exec_sub (f : AluForm) : exec (.sub f) s = execSub f s := rfl
theorem exec_test (f : TestForm) : exec (.test f) s = execTest f s := rfl
theorem exec_verr (src : Rm) : exec (.verr src) s = execVerr src s := rfl
theorem exec_verw (src : Rm) : exec (.verw src) s = execVerw src s := rfl
theorem exec_xadd (w : Wd) (dst : Rm) (src : Reg) : exec (.xadd w dst src) s = execXadd w dst src s := rfl
theorem exec_xchg (f : XchgForm) : exec (.xchg f) s = execXchg f s := rfl
theorem exec_xor_ (f : AluForm) : exec (.xor_ f) s = execXor f s := rfl
theorem exec_segCs : exec (.segCs) s = execSegCs s := rfl
theorem exec_segSs : exec (.segSs) s = execSegSs s := rfl
theorem exec_segDs : exec (.segDs) s = execSegDs s := rfl
theorem exec_segEs : exec (.segEs) s = execSegEs s := rfl
theorem exec_segFs : exec (.segFs) s = execSegFs s := rfl
theorem exec_segGs : exec (.segGs) s = execSegGs s := rfl
theorem exec_opSize : exec (.opSize) s = execOpSize s := rfl
theorem exec_adSize : exec (.adSize) s = execAdSize s := rfl
theorem exec_lock : exec (.lock) s = execLock s := rfl
theorem exec_rep : exec (.rep) s = execRep s := rfl
theorem exec_repne : exec (.repne) s = execRepne s := rfl
theorem exec_invalidOpcode : exec (.invalidOpcode) s = execInvalidOpcode s := rfl
theorem exec_aaa : exec (.aaa) s = execAaa s := rfl
theorem exec_aas : exec (.aas) s = execAas s := rfl
theorem exec_cbw : exec (.cbw) s = execCbw s := rfl
theorem exec_cwde : exec (.cwde) s = execCwde s := rfl
theorem exec_clc : exec (.clc) s = execClc s := rfl
theorem exec_cld : exec (.cld) s = execCld s := rfl
theorem exec_cli : exec (.cli) s = execCli s := rfl
theorem exec_clts : exec (.clts) s = execClts s := rfl
theorem exec_cmc : exec (.cmc) s = execCmc s := rfl
theorem exec_cpuid : exec (.cpuid) s = execCpuid s := rfl
theorem exec_cwd : exec (.cwd) s = execCwd s := rfl
theorem exec_cdq : exec (.cdq) s = execCdq s := rfl
theorem exec_daa : exec (.daa) s = execDaa s := rfl
theorem exec_das : exec (.das) s = execDas s := rfl
theorem exec_emms : exec (.emms) s = execEmms s := rfl
theorem exec_f2xm1 : exec (.f2xm1) s = execF2xm1 s := rfl
theorem exec_fabs : exec (.fabs) s = execFabs s := rfl
theorem exec_fchs : exec (.fchs) s = execFchs s := rfl
theorem exec_fclex : exec (.fclex) s = execFclex s := rfl
theorem exec_fnclex : exec (.fnclex) s = execFnclex s := rfl
theorem exec_fcompp : exec (.fcompp) s = execFcompp s := rfl
theorem exec_fcos : exec (.fcos) s = execFcos s := rfl
theorem exec_fdecstp : exec (.fdecstp) s = execFdecstp s := rfl
theorem exec_fincstp : exec (.fincstp) s = execFincstp s := rfl
theorem exec_finit : exec (.finit) s = execFinit s := rfl
theorem exec_fninit : exec (.fninit) s = execFninit s := rfl
theorem exec_fld1 : exec (.fld1) s = execFld1 s := rfl
theorem exec_fldl2t : exec (.fldl2t) s = execFldl2t s := rfl
theorem exec_fldl2e : exec (.fldl2e) s = execFldl2e s := rfl
theorem exec_fldpi : exec (.fldpi) s = execFldpi s := rfl
theorem exec_fldlg2 : exec (.fldlg2) s = execFldlg2 s := rfl
theorem exec_fldln2 : exec (.fldln2) s = execFldln2 s := rfl
theorem exec_fldz : exec (.fldz) s = execFldz s := rfl
theorem exec_fnop : exec (.fnop) s = execFnop s := rfl
theorem exec_fpatan : exec (.fpatan) s = execFpatan s := rfl
theorem exec_fprem : exec (.fprem) s = execFprem s := rfl
theorem exec_fprem1 : exec (.fprem1) s = execFprem1 s := rfl
theorem exec_fptan : exec (.fptan) s = execFptan s := rfl
theorem exec_frndint : exec (.frndint) s = execFrndint s := rfl
theorem exec_fscale : exec (.fscale) s = execFscale s := rfl
theorem exec_fsin : exec (.fsin) s = execFsin s := rfl
theorem exec_fsincos : exec (.fsincos) s = execFsincos s := rfl
theorem exec_fsqrt : exec (.fsqrt) s = execFsqrt s := rfl
theorem exec_ftst : exec (.ftst) s = execFtst s := rfl
theorem exec_fucompp : exec (.fucompp) s = execFucompp s := rfl
theorem exec_fxam : exec (.fxam) s = execFxam s := rfl
theorem exec_fxtract : exec (.fxtract) s = execFxtract s := rfl
theorem exec_fyl2x : exec (.fyl2x) s = execFyl2x s := rfl
theorem exec_fyl2xp1 : exec (.fyl2xp1) s = execFyl2xp1 s := rfl
theorem exec_hlt : exec (.hlt) s = execHlt s := rfl
theorem exec_int3 : exec (.int3) s = execInt3 s := rfl
theorem exec_into : exec (.into) s = execInto s := rfl
theorem exec_invd : exec (.invd) s = execInvd s := rfl
theorem exec_iret : exec (.iret) s = execIret s := rfl
theorem exec_iretd : exec (.iretd) s = execIretd s := rfl
theorem exec_lahf : exec (.lahf) s = execLahf s := rfl
theorem exec_leave : exec (.leave) s = execLeave s := rfl
theorem exec_nop : exec (.nop) s = execNop s := rfl
theorem exec_popa : exec (.popa) s = execPopa s := rfl
theorem exec_popad : exec (.popad) s = execPopad s := rfl
theorem exec_popf : exec (.popf) s = execPopf s := rfl
theorem exec_popfd : exec (.popfd) s = execPopfd s := rfl
theorem exec_pusha : exec (.pusha) s = execPusha s := rfl
theorem exec_pushad : exec (.pushad) s = execPushad s := rfl
theorem exec_pushf : exec (.pushf) s = execPushf s := rfl
theorem exec_pushfd : exec (.pushfd) s = execPushfd s := rfl
theorem exec_rdmsr : exec (.rdmsr) s = execRdmsr s := rfl
theorem exec_rdpmc : exec (.rdpmc) s = execRdpmc s := rfl
theorem exec_rdtsc : exec (.rdtsc) s = execRdtsc s := rfl
theorem exec_rsm : exec (.rsm) s = execRsm s := rfl
theorem exec_sahf : exec (.sahf) s = execSahf s := rfl
theorem exec_stc : exec (.stc) s = execStc s := rfl
theorem exec_std : exec (.std) s = execStd s := rfl
theorem exec_sti : exec (.sti) s = execSti s := rfl
theorem exec_ud2 : exec (.ud2) s = execUd2 s := rfl
theorem exec_wait : exec (.wait) s = execWait s := rfl
theorem exec_wbinvd : exec (.wbinvd) s = execWbinvd s := rfl
theorem exec_wrmsr : exec (.wrmsr) s = execWrmsr s := rfl
theorem exec_xlat : exec (.xlat) s = execXlat s := rfl

end Sys2Proof.Machine
end

