-- ==== Sys2Proof/Laws/Mem.lean ====
section
/-! SUPPORT. Memory: a write is read back, leaves every other address alone, and keeps the canonical form. -/

namespace Sys2Proof.Machine

theorem Memory.read_below {m : Memory} {l : Nat} (h : Memory.wfAbove (some l) m = true) {a : Nat} (ha : a ≤ l) :
    Memory.read m a = Config.unlistedByte := by
  cases m with
  | nil => rfl
  | cons e t =>
    obtain ⟨x, b⟩ := e
    simp only [Memory.wfAbove, Bool.and_eq_true, decide_eq_true_eq] at h
    simp only [Memory.read]
    rw [if_neg (by omega), if_pos (by omega)]

theorem Memory.wfAbove_mono {m : Memory} {l k : Nat} (h : Memory.wfAbove (some l) m = true) (hk : k ≤ l) :
    Memory.wfAbove (some k) m = true := by
  cases m with
  | nil => rfl
  | cons e t =>
    obtain ⟨x, b⟩ := e
    simp only [Memory.wfAbove, Bool.and_eq_true, decide_eq_true_eq] at h ⊢
    exact ⟨⟨by omega, h.1.2⟩, h.2⟩

theorem Memory.wfAbove_none {m : Memory} {l : Nat} (h : Memory.wfAbove (some l) m = true) :
    Memory.wfAbove none m = true := by
  cases m with
  | nil => rfl
  | cons e t =>
    obtain ⟨x, b⟩ := e
    simp only [Memory.wfAbove, Bool.and_eq_true, decide_eq_true_eq] at h ⊢
    exact ⟨⟨trivial, h.1.2⟩, h.2⟩

theorem Memory.cons_wfAbove {lo : Option Nat} {a : Nat} {b : Byte} {m : Memory}
    (hl : ∀ l, lo = some l → l < a) (h : Memory.wfAbove (some a) m = true) :
    Memory.wfAbove lo (Memory.cons a b m) = true := by
  unfold Memory.cons
  split
  · cases lo with
    | none => exact Memory.wfAbove_none h
    | some l => exact Memory.wfAbove_mono h (Nat.le_of_lt (hl l rfl))
  · rename_i hb
    simp only [Memory.wfAbove, Bool.and_eq_true, bne_iff_ne, ne_eq]
    refine ⟨⟨?_, hb⟩, h⟩
    cases lo with
    | none => rfl
    | some l => simpa using hl l rfl

theorem Memory.write_wfAbove : ∀ {m : Memory} {lo : Option Nat} {a : Nat} {b : Byte},
    Memory.wfAbove lo m = true → (∀ l, lo = some l → l < a) → Memory.wfAbove lo (Memory.write m a b) = true
  | [], _, _, _, _, hl => Memory.cons_wfAbove hl rfl
  | (x, c) :: t, lo, a, b, h, hl => by
    have h' := h
    simp only [Memory.wfAbove, Bool.and_eq_true, bne_iff_ne, ne_eq] at h'
    unfold Memory.write
    split
    · rename_i hx; subst hx
      exact Memory.cons_wfAbove hl h'.2
    · split
      · rename_i hx hlt
        apply Memory.cons_wfAbove hl
        simp only [Memory.wfAbove, Bool.and_eq_true, bne_iff_ne, ne_eq, decide_eq_true_eq]
        exact ⟨⟨hlt, h'.1.2⟩, h'.2⟩
      · rename_i hx hlt
        simp only [Memory.wfAbove, Bool.and_eq_true, bne_iff_ne, ne_eq]
        refine ⟨h'.1, Memory.write_wfAbove h'.2 ?_⟩
        intro l hl'
        cases hl'
        omega

/-- A write keeps the canonical form. -/
theorem Memory.write_wf {m : Memory} (h : m.wf = true) (a : Nat) (b : Byte) : (Memory.write m a b).wf = true :=
  Memory.write_wfAbove h (by intro l hl; cases hl)

theorem Memory.read_cons {a : Nat} {b : Byte} {m : Memory} (h : Memory.wfAbove (some a) m = true) (x : Nat) :
    Memory.read (Memory.cons a b m) x = if x = a then b else Memory.read m x := by
  unfold Memory.cons
  split
  · rename_i hb
    split
    · rename_i hx; rw [hb]; exact Memory.read_below h (by omega)
    · rfl
  · simp only [Memory.read]
    split
    · rename_i hx; simp [hx]
    · rename_i hx
      split
      · rename_i hlt
        rw [if_neg (by omega)]
        exact (Memory.read_below h (by omega)).symm
      · rw [if_neg (by omega)]

theorem Memory.read_write_above : ∀ {m : Memory} {lo : Option Nat}, Memory.wfAbove lo m = true →
    ∀ (a : Nat) (b : Byte) (x : Nat),
      Memory.read (Memory.write m a b) x = if x = a then b else Memory.read m x
  | [], _, _, a, b, x => Memory.read_cons rfl x
  | (y, c) :: t, lo, h, a, b, x => by
    have h' := h
    simp only [Memory.wfAbove, Bool.and_eq_true, bne_iff_ne, ne_eq] at h'
    unfold Memory.write
    split
    · rename_i hy; subst hy
      rw [Memory.read_cons h'.2]
      split
      · rfl
      · rename_i hx
        simp only [Memory.read]
        rw [if_neg (by omega)]
        split
        · rename_i hlt; exact Memory.read_below h'.2 (by omega)
        · rfl
    · split
      · rename_i hy hlt
        rw [Memory.read_cons (by
          simp only [Memory.wfAbove, Bool.and_eq_true, bne_iff_ne, ne_eq, decide_eq_true_eq]
          exact ⟨⟨hlt, h'.1.2⟩, h'.2⟩)]
      · rename_i hy hlt
        simp only [Memory.read]
        rw [Memory.read_write_above h'.2 a b x]
        split
        · rename_i hx; rw [if_neg (by omega)]
        · split
          · rw [if_neg (by omega)]
          · rfl

/-- Reading after a write: the byte written at its address, and every other address as before. -/
theorem Memory.read_write {m : Memory} (h : m.wf = true) (a : Nat) (b : Byte) (x : Nat) :
    Memory.read (Memory.write m a b) x = if x = a then b else Memory.read m x :=
  Memory.read_write_above h a b x

/-- Storing a number keeps the canonical form. -/
theorem Memory.writeList_wf : ∀ {m : Memory}, m.wf = true → ∀ (as : List Nat) (v : Nat), (m.writeList as v).wf = true
  | _, h, [], _ => h
  | _, h, a :: as, v => Memory.writeList_wf (Memory.write_wf h a (BitVec.ofNat 8 v)) as (v / 256)

/-- Storing bytes at listed addresses leaves every other address alone. -/
theorem Memory.read_writeList_other : ∀ {m : Memory}, m.wf = true → ∀ (as : List Nat) (v : Nat) (x : Nat), x ∉ as →
    (m.writeList as v).read x = m.read x
  | _, _, [], _, _, _ => rfl
  | m, h, a :: as, v, x, hx => by
    simp only [List.mem_cons, not_or] at hx
    unfold Memory.writeList
    rw [Memory.read_writeList_other (Memory.write_wf h a _) as _ x hx.2, Memory.read_write h, if_neg hx.1]

theorem Memory.readList_writeList_aux : ∀ (as : List Nat) {m : Memory}, m.wf = true → as.Nodup → ∀ (v : Nat),
    (m.writeList as v).readList as = leBytes as.length v
  | [], _, _, _, _ => rfl
  | a :: as, m, h, hn, v => by
    have hn' := List.nodup_cons.mp hn
    have hw := Memory.write_wf h a (BitVec.ofNat 8 v)
    unfold Memory.writeList
    simp only [Memory.readList, List.map_cons, List.length_cons, leBytes]
    rw [Memory.read_writeList_other hw as _ a hn'.1, Memory.read_write h, if_pos rfl]
    congr 1
    exact Memory.readList_writeList_aux as hw hn'.2 (v / 256)

/-- Reading the addresses that were stored to gives the bytes stored. -/
theorem Memory.readList_writeList {m : Memory} (h : m.wf = true) {as : List Nat} (hn : as.Nodup) (v : Nat) :
    (m.writeList as v).readList as = leBytes as.length v :=
  Memory.readList_writeList_aux as h hn v

/-- The number of `n` bytes is the number modulo `256 ^ n`. -/
theorem leNat_leBytes : ∀ (n v : Nat), leNat (leBytes n v) = v % 256 ^ n
  | 0, v => by simp [leBytes, leNat, Nat.mod_one]
  | n + 1, v => by
    have h : v % 256 ^ (n + 1) = v % 256 + 256 * (v / 256 % 256 ^ n) := by
      rw [Nat.pow_succ', Nat.mod_mul]
    rw [h, leBytes, leNat, leNat_leBytes n (v / 256), BitVec.toNat_ofNat]

/-- A number stored and read back. -/
theorem Memory.leNat_readList_writeList {m : Memory} (h : m.wf = true) {as : List Nat} (hn : as.Nodup) (v : Nat) :
    leNat ((m.writeList as v).readList as) = v % 256 ^ as.length := by
  rw [Memory.readList_writeList h hn, leNat_leBytes]

theorem mem_addrs : ∀ (n a x : Nat), x ∈ addrs n a ↔ a ≤ x ∧ x < a + n
  | 0, a, x => by simp [addrs]
  | n + 1, a, x => by
    simp only [addrs, List.mem_cons, mem_addrs n (a + 1) x]
    omega

theorem addrs_nodup : ∀ (n a : Nat), (addrs n a).Nodup
  | 0, _ => List.nodup_nil
  | n + 1, a => by
    refine List.nodup_cons.mpr ⟨?_, addrs_nodup n (a + 1)⟩
    rw [mem_addrs]
    omega

@[simp] theorem addrs_length : ∀ (n a : Nat), (addrs n a).length = n
  | 0, _ => rfl
  | n + 1, a => by simp [addrs, addrs_length n (a + 1)]

end Sys2Proof.Machine
end

