-- ==== Sys2Proof/Laws/Bus.lean ====
section
/-! SUPPORT. Reads and stores at physical addresses: what they do in RAM, and that they keep memory's form. -/

namespace Sys2Proof.Machine

/-- A read of RAM only changes nothing (20_memory R156). -/
theorem State.sampled_ram {s : State} {ps : List Nat} (h : ∀ a ∈ ps, s.isRam a = true) : s.sampled ps = s := by
  have e : ps.filter (fun a => !s.isRam a) = [] := by
    rw [List.filter_eq_nil_iff]
    intro a ha
    simp [h a ha]
  unfold State.sampled
  simp [e]

theorem State.isRam_of_map {s : State} (h : s.map = []) (a : Nat) : s.isRam a = true := by
  simp [State.isRam, State.region, h]

theorem State.isDevice_of_map {s : State} (h : s.map = []) (a : Nat) : s.isDevice a = false := by
  simp [State.isDevice, State.region, h]

/-- Where everything is RAM a read changes nothing. -/
theorem State.sampled_allRam {s : State} (h : s.map = []) (ps : List Nat) : s.sampled ps = s :=
  State.sampled_ram fun a _ => State.isRam_of_map h a

/-- Where everything is RAM a store changes memory only. -/
theorem State.stored_allRam {s : State} (h : s.map = []) (ps : List Nat) (v : Nat) :
    s.stored ps v = { s with mem := s.mem.writeList ps v } := by
  have e : ps.filter s.isDevice = [] := by
    rw [List.filter_eq_nil_iff]
    intro a _
    simp [State.isDevice_of_map h]
  simp [State.stored, e, logCells]

theorem Memory.foldl_write_wf (cells : List Host.Cell) : ∀ {m : Memory}, m.wf = true →
    (cells.foldl (fun m c => m.write c.1 c.2) m).wf = true := by
  induction cells with
  | nil => exact fun h => h
  | cons c cs ih => exact fun h => ih (Memory.write_wf h _ _)

theorem Memory.read_foldl_write (cells : List Host.Cell) (x : Nat) : ∀ {m : Memory}, m.wf = true →
    (∀ c ∈ cells, c.1 ≠ x) → (cells.foldl (fun m c => m.write c.1 c.2) m).read x = m.read x := by
  induction cells with
  | nil => exact fun _ _ => rfl
  | cons c cs ih =>
    intro m h hx
    simp only [List.foldl_cons]
    rw [ih (Memory.write_wf h _ _) (fun d hd => hx d (List.mem_cons_of_mem _ hd)), Memory.read_write h,
      if_neg (fun e => hx c (List.mem_cons_self ..) e.symm)]

theorem State.sampled_wf {s : State} (h : s.mem.wf = true) (ps : List Nat) : (s.sampled ps).mem.wf = true := by
  unfold State.sampled
  dsimp only
  split
  · exact h
  · exact Memory.foldl_write_wf _ h

/-- A read leaves RAM alone. -/
theorem State.sampled_read {s : State} (h : s.mem.wf = true) (ps : List Nat) {a : Nat} (ha : s.isRam a = true) :
    (s.sampled ps).mem.read a = s.mem.read a := by
  unfold State.sampled
  dsimp only
  split
  · rfl
  · refine Memory.read_foldl_write _ _ h fun c hc => ?_
    obtain ⟨b, hb, rfl⟩ := List.mem_map.mp hc
    rintro rfl
    have := (List.mem_filter.mp hb).2
    simp [ha] at this

theorem State.sampled_isRam (s : State) (ps : List Nat) (a : Nat) : (s.sampled ps).isRam a = s.isRam a := by
  have h : (s.sampled ps).map = s.map := by unfold State.sampled; dsimp only; split <;> rfl
  simp [State.isRam, State.region, h]

/-- A store keeps memory's form. -/
theorem State.stored_wf {s : State} (h : s.mem.wf = true) (ps : List Nat) (v : Nat) : (s.stored ps v).mem.wf = true :=
  Memory.writeList_wf h ps v

end Sys2Proof.Machine
end

