-- ==== Sys2Proof/Laws/Codec.lean ====
section
/-! SUPPORT. Reading back what the encoder writes: fields of a byte, immediates, effective addresses and operands. -/

namespace Sys2Proof

variable {α β : Type}

/-! ## The reader -/

@[simp] theorem Parser.bind_run (p : Parser α) (f : α → Parser β) (bs : List Byte) :
    (p >>= f) bs = (match p bs with | some (a, r) => f a r | none => none) := by
  change StateT.bind p f bs = _
  unfold StateT.bind
  change (p bs).bind _ = _
  cases h : p bs <;> rfl
@[simp] theorem Parser.pure_run (a : α) (bs : List Byte) : (pure a : Parser α) bs = some (a, bs) := rfl
@[simp] theorem Parser.map_run (f : α → β) (p : Parser α) (bs : List Byte) :
    (f <$> p) bs = (match p bs with | some (a, r) => some (f a, r) | none => none) := by
  change StateT.map f p bs = _
  unfold StateT.map
  change (p bs).bind _ = _
  cases h : p bs <;> rfl
@[simp] theorem Parser.ite_run (c : Prop) [Decidable c] (p q : Parser α) (bs : List Byte) :
    (if c then p else q) bs = if c then p bs else q bs := by split <;> rfl
@[simp] theorem pByte_cons (b : Byte) (bs : List Byte) : pByte (b :: bs) = some (b, bs) := rfl

/-! ## Numbers of names -/

@[simp] theorem Reg.ofNum_num (r : Reg) : Reg.ofNum r.num = r := by cases r <;> rfl
@[simp] theorem Idx8.ofNum_num (i : Idx8) : Idx8.ofNum i.num = i := by cases i <;> rfl
@[simp] theorem Base16.ofNum_num (b : Base16) : Base16.ofNum b.num = b := by cases b <;> rfl
@[simp] theorem Scale.ofNum_num (s : Scale) : Scale.ofNum s.num = s := by cases s <;> rfl
theorem Reg.num_lt (r : Reg) : r.num < 8 := by cases r <;> decide
theorem Idx8.num_lt (i : Idx8) : i.num < 8 := by cases i <;> decide
theorem Base16.num_lt (b : Base16) : b.num < 8 := by cases b <;> decide
theorem Scale.num_lt (s : Scale) : s.num < 4 := by cases s <;> decide

/-! ## Fields of a byte -/

theorem fields3_toNat {h m l : Nat} (hh : h < 4) (hm : m < 8) (hl : l < 8) :
    (fields3 h m l).toNat = h * 64 + m * 8 + l := by
  unfold fields3
  rw [BitVec.toNat_ofNat]
  omega
theorem modOf_fields3 {h m l : Nat} (hh : h < 4) (hm : m < 8) (hl : l < 8) : modOf (fields3 h m l) = h := by
  unfold modOf; rw [fields3_toNat hh hm hl]; omega
theorem regOf_fields3 {h m l : Nat} (hh : h < 4) (hm : m < 8) (hl : l < 8) : regOf (fields3 h m l) = m := by
  unfold regOf; rw [fields3_toNat hh hm hl]; omega
theorem rmOf_fields3 {h m l : Nat} (hh : h < 4) (hm : m < 8) (hl : l < 8) : rmOf (fields3 h m l) = l := by
  unfold rmOf; rw [fields3_toNat hh hm hl]; omega

/-! ## Numbers, low byte first -/

theorem word_of_bytes (v : Word) : (v.extractLsb' 8 8 ++ v.extractLsb' 0 8 : BitVec 16) = v := by
  apply BitVec.eq_of_getLsbD_eq
  intro i hi
  simp only [BitVec.getLsbD_append, BitVec.getLsbD_extractLsb']
  split
  · simp [*]
  · have : i - 8 < 8 := by omega
    simp only [this, decide_true, Bool.true_and]
    congr 1
    omega

theorem dword_of_bytes (v : Dword) :
    (v.extractLsb' 24 8 ++ v.extractLsb' 16 8 ++ v.extractLsb' 8 8 ++ v.extractLsb' 0 8 : BitVec 32) = v := by
  apply BitVec.eq_of_getLsbD_eq
  intro i hi
  simp only [BitVec.getLsbD_append, BitVec.getLsbD_extractLsb']
  split
  · simp [*]
  · split
    · have : i - 8 < 8 := by omega
      simp only [this, decide_true, Bool.true_and]
      congr 1
      omega
    · split
      · have : i - 8 - 8 < 8 := by omega
        simp only [this, decide_true, Bool.true_and]
        congr 1
        omega
      · have : i - 8 - 8 - 8 < 8 := by omega
        simp only [this, decide_true, Bool.true_and]
        congr 1
        omega

@[simp] theorem pWord_enc (v : Word) (rest : List Byte) : pWord (leWord v ++ rest) = some (v, rest) := by
  simp [pWord, leWord, word_of_bytes]
@[simp] theorem pDword_enc (v : Dword) (rest : List Byte) : pDword (leDword v ++ rest) = some (v, rest) := by
  simp [pDword, leDword, dword_of_bytes]

theorem setWidth_16_32 {v : Dword} (h : v.toNat < 0x10000) : (v.setWidth 16).setWidth 32 = v := by
  apply BitVec.eq_of_toNat_eq
  simp only [BitVec.toNat_setWidth]
  omega
theorem setWidth_8_32 {v : Dword} (h : v.toNat < 0x100) : (v.setWidth 8).setWidth 32 = v := by
  apply BitVec.eq_of_toNat_eq
  simp only [BitVec.toNat_setWidth]
  omega

theorem pOp_enc {c : Ctx} {v : Dword} (h : WellFormed.opImm c v = true) (rest : List Byte) :
    pOp c (encOp c v ++ rest) = some (v, rest) := by
  unfold pOp encOp
  cases ho : c.os32 with
  | true => simp
  | false =>
    have hv : v.toNat < 0x10000 := by simpa [WellFormed.opImm, ho] using h
    simp [setWidth_16_32 hv]

theorem pMoffs_enc {c : Ctx} {v : Dword} (h : WellFormed.moffs c v = true) (rest : List Byte) :
    pMoffs c (encMoffs c v ++ rest) = some (v, rest) := by
  unfold pMoffs encMoffs
  cases ho : c.as32 with
  | true => simp
  | false =>
    have hv : v.toNat < 0x10000 := by simpa [WellFormed.moffs, ho] using h
    simp [setWidth_16_32 hv]

theorem pImm_enc {c : Ctx} {w : Wd} {v : Dword} (h : WellFormed.imm c w v = true) (rest : List Byte) :
    pImm c w (encImm c w v ++ rest) = some (v, rest) := by
  cases w with
  | b =>
    have hv : v.toNat < 0x100 := by simpa [WellFormed.imm] using h
    simp [pImm, encImm, setWidth_8_32 hv]
  | v => exact pOp_enc h rest

/-! ## Operands -/

/-- A memory operand: its ModR/M byte, and reading what follows it. -/
theorem pEa_enc {c : Ctx} {a : Ea} (h : WellFormed.ea c a = true) {g : Nat} (hg : g < 8) :
    ∃ m tl, encEa g a = m :: tl ∧ modOf m ≠ 3 ∧ regOf m = g ∧
      ∀ rest, pEa c (modOf m) (rmOf m) (tl ++ rest) = some (a, rest) := by
  cases a with
  | a16 b d =>
    have ha : c.as32 = false := by simpa [WellFormed.ea] using h
    cases b with
    | none =>
      refine ⟨_, _, rfl, ?_, regOf_fields3 (by omega) hg (by omega), fun rest => ?_⟩
      · rw [modOf_fields3 (by omega) hg (by omega)]; decide
      · rw [modOf_fields3 (by omega) hg (by omega), rmOf_fields3 (by omega) hg (by omega)]
        simp [pEa, ha]
    | some b =>
      have hb := b.num_lt
      refine ⟨_, _, rfl, ?_, regOf_fields3 (by omega) hg hb, fun rest => ?_⟩
      · rw [modOf_fields3 (by omega) hg hb]; decide
      · rw [modOf_fields3 (by omega) hg hb, rmOf_fields3 (by omega) hg hb]
        simp [pEa, ha]
  | a32 b i d =>
    have ha : c.as32 = true := by
      cases i <;> simp [WellFormed.ea] at h
      · exact h
      · exact h.1
    have hsib : ∀ (md : Nat), md < 3 → ∀ (s x y : Nat), s < 4 → x < 8 → y < 8 → ∀ rest,
        pEa c (modOf (fields3 md g 4)) (rmOf (fields3 md g 4)) (fields3 s x y :: rest) =
          pSib md (fields3 s x y :: rest) := by
      intro md hmd s x y _ _ _ rest
      rw [modOf_fields3 (by omega) hg (by omega), rmOf_fields3 (by omega) hg (by omega)]
      simp [pEa, ha]
    have hm : ∀ md, md < 3 → modOf (fields3 md g 4) ≠ 3 := by
      intro md hmd; rw [modOf_fields3 (by omega) hg (by omega)]; omega
    have hr : ∀ md, md < 3 → regOf (fields3 md g 4) = g := by
      intro md hmd; rw [regOf_fields3 (by omega) hg (by omega)]
    have hsf : ∀ (s x y : Nat), s < 4 → x < 8 → y < 8 → (fields3 s x y).toNat / 8 % 8 = x ∧
        (fields3 s x y).toNat / 64 = s ∧ (fields3 s x y).toNat % 8 = y := by
      intro s x y hs hx hy
      rw [fields3_toNat hs hx hy]
      omega
    have hdir : ∀ (r : Reg), r ≠ .esp → ∃ m tl, fields3 2 g r.num :: leDword d = m :: tl ∧ modOf m ≠ 3 ∧ regOf m = g ∧
        ∀ rest, pEa c (modOf m) (rmOf m) (tl ++ rest) = some (.a32 (some r) none d, rest) := by
      intro r hne
      have hb := r.num_lt
      refine ⟨_, _, rfl, ?_, regOf_fields3 (by omega) hg hb, fun rest => ?_⟩
      · rw [modOf_fields3 (by omega) hg hb]; decide
      · rw [modOf_fields3 (by omega) hg hb, rmOf_fields3 (by omega) hg hb]
        have h4 : r.num ≠ 4 := by intro hh; apply hne; cases r <;> first | rfl | cases hh
        simp [pEa, ha, h4]
    cases i with
    | none =>
      cases b with
      | none =>
        refine ⟨_, _, rfl, ?_, regOf_fields3 (by omega) hg (by omega), fun rest => ?_⟩
        · rw [modOf_fields3 (by omega) hg (by omega)]; decide
        · rw [modOf_fields3 (by omega) hg (by omega), rmOf_fields3 (by omega) hg (by omega)]
          simp [pEa, ha]
      | some r =>
        by_cases hr4 : r = .esp
        · subst hr4
          refine ⟨_, _, rfl, hm 2 (by omega), hr 2 (by omega), fun rest => ?_⟩
          rw [List.cons_append, hsib 2 (by omega) 0 4 4 (by omega) (by omega) (by omega)]
          obtain ⟨e1, e2, e3⟩ := hsf 0 4 4 (by omega) (by omega) (by omega)
          simp [pSib, e1, e3, Reg.ofNum]
        · have := hdir r hr4
          cases r <;> first | exact this | exact absurd rfl hr4
    | some x =>
      obtain ⟨i, s⟩ := x
      have hi4 : i.num ≠ 4 := by
        simp [WellFormed.ea] at h
        intro hh; apply h.2; cases i <;> first | rfl | cases hh
      have hil := i.num_lt
      have hsl := s.num_lt
      cases b with
      | none =>
        refine ⟨_, _, rfl, hm 0 (by omega), hr 0 (by omega), fun rest => ?_⟩
        rw [List.cons_append, hsib 0 (by omega) _ _ _ hsl hil (by omega)]
        obtain ⟨e1, e2, e3⟩ := hsf s.num i.num 5 hsl hil (by omega)
        simp [pSib, e1, e2, e3, hi4]
      | some r =>
        have hrl := r.num_lt
        have he : encEa g (.a32 (some r) (some (i, s)) d) = fields3 2 g 4 :: fields3 s.num i.num r.num :: leDword d := by
          cases r <;> rfl
        refine ⟨_, _, he, hm 2 (by omega), hr 2 (by omega), fun rest => ?_⟩
        rw [List.cons_append, hsib 2 (by omega) _ _ _ hsl hil hrl]
        obtain ⟨e1, e2, e3⟩ := hsf s.num i.num r.num hsl hil hrl
        simp [pSib, e1, e2, e3, hi4]

/-- An `r/m` operand. -/
theorem pRmOf_enc {c : Ctx} {d : Rm} (h : WellFormed.rm c d = true) {g : Nat} (hg : g < 8) :
    ∃ m tl, encRm g d = m :: tl ∧ regOf m = g ∧ ∀ rest, pRmOf c m (tl ++ rest) = some (d, rest) := by
  cases d with
  | reg r =>
    have hr := r.num_lt
    refine ⟨_, _, rfl, regOf_fields3 (by omega) hg hr, fun rest => ?_⟩
    simp [pRmOf, modOf_fields3 (show 3 < 4 by omega) hg hr, rmOf_fields3 (show 3 < 4 by omega) hg hr]
  | mem a =>
    obtain ⟨m, tl, he, h3, hgm, hp⟩ := pEa_enc (a := a) h hg
    refine ⟨m, tl, he, hgm, fun rest => ?_⟩
    simp [pRmOf, h3, hp rest]

/-- An `mm/m64` operand. -/
theorem pMmRmOf_enc {c : Ctx} {d : MmRm} (h : WellFormed.mmRm c d = true) {g : Nat} (hg : g < 8) :
    ∃ m tl, encMmRm g d = m :: tl ∧ regOf m = g ∧ ∀ rest, pMmRmOf c m (tl ++ rest) = some (d, rest) := by
  cases d with
  | reg r =>
    have hr := r.num_lt
    refine ⟨_, _, rfl, regOf_fields3 (by omega) hg hr, fun rest => ?_⟩
    simp [pMmRmOf, modOf_fields3 (show 3 < 4 by omega) hg hr, rmOf_fields3 (show 3 < 4 by omega) hg hr]
  | mem a =>
    obtain ⟨m, tl, he, h3, hgm, hp⟩ := pEa_enc (a := a) h hg
    refine ⟨m, tl, he, hgm, fun rest => ?_⟩
    simp [pMmRmOf, h3, hp rest]

theorem pRegRm_enc {c : Ctx} {d : Rm} (h : WellFormed.rm c d = true) (r : Reg) (rest : List Byte) :
    pRegRm c (encRm r.num d ++ rest) = some ((r, d), rest) := by
  obtain ⟨m, tl, he, hgm, hp⟩ := pRmOf_enc h r.num_lt
  simp [pRegRm, he, hgm, hp]

theorem pIdxRm_enc {c : Ctx} {d : Rm} (h : WellFormed.rm c d = true) (i : Idx8) (rest : List Byte) :
    pIdxRm c (encRm i.num d ++ rest) = some ((i, d), rest) := by
  obtain ⟨m, tl, he, hgm, hp⟩ := pRmOf_enc h i.num_lt
  simp [pIdxRm, he, hgm, hp]

theorem pMm_enc {c : Ctx} {d : MmRm} (h : WellFormed.mmRm c d = true) (i : Idx8) (rest : List Byte) :
    pMm c (encMmRm i.num d ++ rest) = some ((i, d), rest) := by
  obtain ⟨m, tl, he, hgm, hp⟩ := pMmRmOf_enc h i.num_lt
  simp [pMm, he, hgm, hp]

end Sys2Proof
end

