-- ==== Sys2Proof/Laws/Monad.lean ====
section
/-! SUPPORT. The computations of the machine, run on a state: one lemma per operation of the monad. -/

namespace Sys2Proof.Machine

variable {α β : Type}

@[simp] theorem M.bind_run (m : M α) (f : α → M β) (s : State) :
    (m >>= f) s = (match m s with | .ok a t => f a t | .error e t => .error e t) := by
  change EStateM.bind m f s = _
  unfold EStateM.bind; cases m s <;> rfl

@[simp] theorem M.pure_run (a : α) (s : State) : (pure a : M α) s = .ok a s := rfl

@[simp] theorem M.map_run (f : α → β) (m : M α) (s : State) :
    (f <$> m) s = (match m s with | .ok a t => .ok (f a) t | .error e t => .error e t) := by
  change EStateM.map f m s = _
  unfold EStateM.map; cases m s <;> rfl

@[simp] theorem M.get_run (s : State) : (get : M State) s = .ok s s := rfl

@[simp] theorem M.set_run (t s : State) : (set t : M PUnit) s = .ok ⟨⟩ t := rfl

@[simp] theorem M.modify_run (f : State → State) (s : State) : (modify f : M PUnit) s = .ok ⟨⟩ (f s) := rfl

@[simp] theorem M.throw_run (e : Stop) (s : State) : (throw e : M α) s = .error e s := rfl

@[simp] theorem raise_run (e : Exc) (s : State) : (raise e : M α) s = .error (.exc e) s := rfl

@[simp] theorem raiseIf_run (c : Bool) (e : Exc) (s : State) :
    raiseIf c e s = if c then .error (.exc e) s else .ok () s := by
  unfold raiseIf; cases c <;> rfl

@[simp] theorem M.ite_run (c : Prop) [Decidable c] (a b : M α) (s : State) :
    (if c then a else b) s = if c then a s else b s := by split <;> rfl

@[simp] theorem modifyFlags_run (f : Flags → Flags) (s : State) :
    modifyFlags f s = .ok () { s with flags := f s.flags } := rfl

@[simp] theorem setReg_run (sz : Sz) (r : Reg) (v : BitVec sz.bits) (s : State) :
    setReg sz r v s = .ok () (s.setReg sz r v) := rfl

@[simp] theorem getReg_run (sz : Sz) (r : Reg) (s : State) : getReg sz r s = .ok (s.reg sz r) s := rfl

@[simp] theorem setNpc_run (v : Dword) (s : State) : setNpc v s = .ok () { s with npc := v } := rfl

@[simp] theorem setSeg_run (r : SReg) (v : SegReg) (s : State) :
    setSeg r v s = .ok () { s with seg := s.seg.set r v } := rfl

@[simp] theorem freshNat_run (s : State) : freshNat s = .ok s.fresh { s with fresh := s.fresh + 1 } := rfl

@[simp] theorem freeBit_run (s : State) :
    freeBit s = .ok (Config.freeBit s.fresh) { s with fresh := s.fresh + 1 } := rfl

@[simp] theorem freeDword_run (s : State) :
    freeDword s = .ok (Config.freeDword s.fresh) { s with fresh := s.fresh + 1 } := rfl

@[simp] theorem modifyFlagsFree_run (k : Nat) (f : (Nat → Bool) → Flags → Flags) (s : State) :
    modifyFlagsFree k f s =
      .ok () { s with fresh := s.fresh + k, flags := f (fun i => Config.freeBit (s.fresh + i)) s.flags } := rfl

@[simp] theorem loadAt_run (ps : List Nat) (s : State) : loadAt ps s = .ok (leNat (s.mem.readList ps)) s := rfl

@[simp] theorem storeAt_run (ps : List Nat) (v : Nat) (s : State) :
    storeAt ps v s = .ok () (s.stored ps v) := rfl

@[simp] theorem sample_run (ps : List Nat) (s : State) : sample ps s = .ok () (s.sampled ps) := rfl

@[simp] theorem setSp_run (v : Dword) (s : State) : setSp v s = .ok () (s.setSp v) := rfl

end Sys2Proof.Machine
end

