-- ==== Sys2Proof/Laws/State.lean ====
section
/-! SUPPORT. What each update of the state leaves: one equation for each field, so that no proof unfolds an update. -/

namespace Sys2Proof.Machine

/-! ## The state -/

@[simp] theorem State.setReg_eip (s : State) (sz : Sz) (r : Reg) (v : BitVec sz.bits) : (s.setReg sz r v).eip = s.eip := rfl
@[simp] theorem State.setReg_npc (s : State) (sz : Sz) (r : Reg) (v : BitVec sz.bits) : (s.setReg sz r v).npc = s.npc := rfl
@[simp] theorem State.setReg_flags (s : State) (sz : Sz) (r : Reg) (v : BitVec sz.bits) : (s.setReg sz r v).flags = s.flags := rfl
@[simp] theorem State.setReg_seg (s : State) (sz : Sz) (r : Reg) (v : BitVec sz.bits) : (s.setReg sz r v).seg = s.seg := rfl
@[simp] theorem State.setReg_gdtr (s : State) (sz : Sz) (r : Reg) (v : BitVec sz.bits) : (s.setReg sz r v).gdtr = s.gdtr := rfl
@[simp] theorem State.setReg_idtr (s : State) (sz : Sz) (r : Reg) (v : BitVec sz.bits) : (s.setReg sz r v).idtr = s.idtr := rfl
@[simp] theorem State.setReg_ldtr (s : State) (sz : Sz) (r : Reg) (v : BitVec sz.bits) : (s.setReg sz r v).ldtr = s.ldtr := rfl
@[simp] theorem State.setReg_tr (s : State) (sz : Sz) (r : Reg) (v : BitVec sz.bits) : (s.setReg sz r v).tr = s.tr := rfl
@[simp] theorem State.setReg_cr0 (s : State) (sz : Sz) (r : Reg) (v : BitVec sz.bits) : (s.setReg sz r v).cr0 = s.cr0 := rfl
@[simp] theorem State.setReg_cr2 (s : State) (sz : Sz) (r : Reg) (v : BitVec sz.bits) : (s.setReg sz r v).cr2 = s.cr2 := rfl
@[simp] theorem State.setReg_cr3 (s : State) (sz : Sz) (r : Reg) (v : BitVec sz.bits) : (s.setReg sz r v).cr3 = s.cr3 := rfl
@[simp] theorem State.setReg_cr4 (s : State) (sz : Sz) (r : Reg) (v : BitVec sz.bits) : (s.setReg sz r v).cr4 = s.cr4 := rfl
@[simp] theorem State.setReg_pdpte0 (s : State) (sz : Sz) (r : Reg) (v : BitVec sz.bits) : (s.setReg sz r v).pdpte0 = s.pdpte0 := rfl
@[simp] theorem State.setReg_pdpte1 (s : State) (sz : Sz) (r : Reg) (v : BitVec sz.bits) : (s.setReg sz r v).pdpte1 = s.pdpte1 := rfl
@[simp] theorem State.setReg_pdpte2 (s : State) (sz : Sz) (r : Reg) (v : BitVec sz.bits) : (s.setReg sz r v).pdpte2 = s.pdpte2 := rfl
@[simp] theorem State.setReg_pdpte3 (s : State) (sz : Sz) (r : Reg) (v : BitVec sz.bits) : (s.setReg sz r v).pdpte3 = s.pdpte3 := rfl
@[simp] theorem State.setReg_dr0 (s : State) (sz : Sz) (r : Reg) (v : BitVec sz.bits) : (s.setReg sz r v).dr0 = s.dr0 := rfl
@[simp] theorem State.setReg_dr1 (s : State) (sz : Sz) (r : Reg) (v : BitVec sz.bits) : (s.setReg sz r v).dr1 = s.dr1 := rfl
@[simp] theorem State.setReg_dr2 (s : State) (sz : Sz) (r : Reg) (v : BitVec sz.bits) : (s.setReg sz r v).dr2 = s.dr2 := rfl
@[simp] theorem State.setReg_dr3 (s : State) (sz : Sz) (r : Reg) (v : BitVec sz.bits) : (s.setReg sz r v).dr3 = s.dr3 := rfl
@[simp] theorem State.setReg_dr6 (s : State) (sz : Sz) (r : Reg) (v : BitVec sz.bits) : (s.setReg sz r v).dr6 = s.dr6 := rfl
@[simp] theorem State.setReg_dr7 (s : State) (sz : Sz) (r : Reg) (v : BitVec sz.bits) : (s.setReg sz r v).dr7 = s.dr7 := rfl
@[simp] theorem State.setReg_cpl (s : State) (sz : Sz) (r : Reg) (v : BitVec sz.bits) : (s.setReg sz r v).cpl = s.cpl := rfl
@[simp] theorem State.setReg_tsc (s : State) (sz : Sz) (r : Reg) (v : BitVec sz.bits) : (s.setReg sz r v).tsc = s.tsc := rfl
@[simp] theorem State.setReg_pmc0 (s : State) (sz : Sz) (r : Reg) (v : BitVec sz.bits) : (s.setReg sz r v).pmc0 = s.pmc0 := rfl
@[simp] theorem State.setReg_pmc1 (s : State) (sz : Sz) (r : Reg) (v : BitVec sz.bits) : (s.setReg sz r v).pmc1 = s.pmc1 := rfl
@[simp] theorem State.setReg_msrs (s : State) (sz : Sz) (r : Reg) (v : BitVec sz.bits) : (s.setReg sz r v).msrs = s.msrs := rfl
@[simp] theorem State.setReg_fpu (s : State) (sz : Sz) (r : Reg) (v : BitVec sz.bits) : (s.setReg sz r v).fpu = s.fpu := rfl
@[simp] theorem State.setReg_shadow (s : State) (sz : Sz) (r : Reg) (v : BitVec sz.bits) : (s.setReg sz r v).shadow = s.shadow := rfl
@[simp] theorem State.setReg_activity (s : State) (sz : Sz) (r : Reg) (v : BitVec sz.bits) : (s.setReg sz r v).activity = s.activity := rfl
@[simp] theorem State.setReg_nmiBlocked (s : State) (sz : Sz) (r : Reg) (v : BitVec sz.bits) : (s.setReg sz r v).nmiBlocked = s.nmiBlocked := rfl
@[simp] theorem State.setReg_tlb (s : State) (sz : Sz) (r : Reg) (v : BitVec sz.bits) : (s.setReg sz r v).tlb = s.tlb := rfl
@[simp] theorem State.setReg_nmiPending (s : State) (sz : Sz) (r : Reg) (v : BitVec sz.bits) : (s.setReg sz r v).nmiPending = s.nmiPending := rfl
@[simp] theorem State.setReg_intrPending (s : State) (sz : Sz) (r : Reg) (v : BitVec sz.bits) : (s.setReg sz r v).intrPending = s.intrPending := rfl
@[simp] theorem State.setReg_map (s : State) (sz : Sz) (r : Reg) (v : BitVec sz.bits) : (s.setReg sz r v).map = s.map := rfl
@[simp] theorem State.setReg_ioLog (s : State) (sz : Sz) (r : Reg) (v : BitVec sz.bits) : (s.setReg sz r v).ioLog = s.ioLog := rfl
@[simp] theorem State.setReg_adLog (s : State) (sz : Sz) (r : Reg) (v : BitVec sz.bits) : (s.setReg sz r v).adLog = s.adLog := rfl
@[simp] theorem State.setReg_dbgHits (s : State) (sz : Sz) (r : Reg) (v : BitVec sz.bits) : (s.setReg sz r v).dbgHits = s.dbgHits := rfl
@[simp] theorem State.setReg_pfx (s : State) (sz : Sz) (r : Reg) (v : BitVec sz.bits) : (s.setReg sz r v).pfx = s.pfx := rfl
@[simp] theorem State.setReg_opBytes (s : State) (sz : Sz) (r : Reg) (v : BitVec sz.bits) : (s.setReg sz r v).opBytes = s.opBytes := rfl
@[simp] theorem State.setReg_interrupted (s : State) (sz : Sz) (r : Reg) (v : BitVec sz.bits) : (s.setReg sz r v).interrupted = s.interrupted := rfl
@[simp] theorem State.setReg_rfKept (s : State) (sz : Sz) (r : Reg) (v : BitVec sz.bits) : (s.setReg sz r v).rfKept = s.rfKept := rfl
@[simp] theorem State.setReg_deferred (s : State) (sz : Sz) (r : Reg) (v : BitVec sz.bits) : (s.setReg sz r v).deferred = s.deferred := rfl
@[simp] theorem State.setReg_fresh (s : State) (sz : Sz) (r : Reg) (v : BitVec sz.bits) : (s.setReg sz r v).fresh = s.fresh := rfl
@[simp] theorem State.setReg_mem (s : State) (sz : Sz) (r : Reg) (v : BitVec sz.bits) : (s.setReg sz r v).mem = s.mem := rfl
@[simp] theorem State.setReg_gpr (s : State) (sz : Sz) (r : Reg) (v : BitVec sz.bits) : (s.setReg sz r v).gpr = s.gpr.setSz sz r v := rfl

@[simp] theorem State.setSp_eip (s : State) (v : Dword) : (s.setSp v).eip = s.eip := rfl
@[simp] theorem State.setSp_npc (s : State) (v : Dword) : (s.setSp v).npc = s.npc := rfl
@[simp] theorem State.setSp_flags (s : State) (v : Dword) : (s.setSp v).flags = s.flags := rfl
@[simp] theorem State.setSp_seg (s : State) (v : Dword) : (s.setSp v).seg = s.seg := rfl
@[simp] theorem State.setSp_gdtr (s : State) (v : Dword) : (s.setSp v).gdtr = s.gdtr := rfl
@[simp] theorem State.setSp_idtr (s : State) (v : Dword) : (s.setSp v).idtr = s.idtr := rfl
@[simp] theorem State.setSp_ldtr (s : State) (v : Dword) : (s.setSp v).ldtr = s.ldtr := rfl
@[simp] theorem State.setSp_tr (s : State) (v : Dword) : (s.setSp v).tr = s.tr := rfl
@[simp] theorem State.setSp_cr0 (s : State) (v : Dword) : (s.setSp v).cr0 = s.cr0 := rfl
@[simp] theorem State.setSp_cr2 (s : State) (v : Dword) : (s.setSp v).cr2 = s.cr2 := rfl
@[simp] theorem State.setSp_cr3 (s : State) (v : Dword) : (s.setSp v).cr3 = s.cr3 := rfl
@[simp] theorem State.setSp_cr4 (s : State) (v : Dword) : (s.setSp v).cr4 = s.cr4 := rfl
@[simp] theorem State.setSp_pdpte0 (s : State) (v : Dword) : (s.setSp v).pdpte0 = s.pdpte0 := rfl
@[simp] theorem State.setSp_pdpte1 (s : State) (v : Dword) : (s.setSp v).pdpte1 = s.pdpte1 := rfl
@[simp] theorem State.setSp_pdpte2 (s : State) (v : Dword) : (s.setSp v).pdpte2 = s.pdpte2 := rfl
@[simp] theorem State.setSp_pdpte3 (s : State) (v : Dword) : (s.setSp v).pdpte3 = s.pdpte3 := rfl
@[simp] theorem State.setSp_dr0 (s : State) (v : Dword) : (s.setSp v).dr0 = s.dr0 := rfl
@[simp] theorem State.setSp_dr1 (s : State) (v : Dword) : (s.setSp v).dr1 = s.dr1 := rfl
@[simp] theorem State.setSp_dr2 (s : State) (v : Dword) : (s.setSp v).dr2 = s.dr2 := rfl
@[simp] theorem State.setSp_dr3 (s : State) (v : Dword) : (s.setSp v).dr3 = s.dr3 := rfl
@[simp] theorem State.setSp_dr6 (s : State) (v : Dword) : (s.setSp v).dr6 = s.dr6 := rfl
@[simp] theorem State.setSp_dr7 (s : State) (v : Dword) : (s.setSp v).dr7 = s.dr7 := rfl
@[simp] theorem State.setSp_cpl (s : State) (v : Dword) : (s.setSp v).cpl = s.cpl := rfl
@[simp] theorem State.setSp_tsc (s : State) (v : Dword) : (s.setSp v).tsc = s.tsc := rfl
@[simp] theorem State.setSp_pmc0 (s : State) (v : Dword) : (s.setSp v).pmc0 = s.pmc0 := rfl
@[simp] theorem State.setSp_pmc1 (s : State) (v : Dword) : (s.setSp v).pmc1 = s.pmc1 := rfl
@[simp] theorem State.setSp_msrs (s : State) (v : Dword) : (s.setSp v).msrs = s.msrs := rfl
@[simp] theorem State.setSp_fpu (s : State) (v : Dword) : (s.setSp v).fpu = s.fpu := rfl
@[simp] theorem State.setSp_shadow (s : State) (v : Dword) : (s.setSp v).shadow = s.shadow := rfl
@[simp] theorem State.setSp_activity (s : State) (v : Dword) : (s.setSp v).activity = s.activity := rfl
@[simp] theorem State.setSp_nmiBlocked (s : State) (v : Dword) : (s.setSp v).nmiBlocked = s.nmiBlocked := rfl
@[simp] theorem State.setSp_tlb (s : State) (v : Dword) : (s.setSp v).tlb = s.tlb := rfl
@[simp] theorem State.setSp_nmiPending (s : State) (v : Dword) : (s.setSp v).nmiPending = s.nmiPending := rfl
@[simp] theorem State.setSp_intrPending (s : State) (v : Dword) : (s.setSp v).intrPending = s.intrPending := rfl
@[simp] theorem State.setSp_map (s : State) (v : Dword) : (s.setSp v).map = s.map := rfl
@[simp] theorem State.setSp_ioLog (s : State) (v : Dword) : (s.setSp v).ioLog = s.ioLog := rfl
@[simp] theorem State.setSp_adLog (s : State) (v : Dword) : (s.setSp v).adLog = s.adLog := rfl
@[simp] theorem State.setSp_dbgHits (s : State) (v : Dword) : (s.setSp v).dbgHits = s.dbgHits := rfl
@[simp] theorem State.setSp_pfx (s : State) (v : Dword) : (s.setSp v).pfx = s.pfx := rfl
@[simp] theorem State.setSp_opBytes (s : State) (v : Dword) : (s.setSp v).opBytes = s.opBytes := rfl
@[simp] theorem State.setSp_interrupted (s : State) (v : Dword) : (s.setSp v).interrupted = s.interrupted := rfl
@[simp] theorem State.setSp_rfKept (s : State) (v : Dword) : (s.setSp v).rfKept = s.rfKept := rfl
@[simp] theorem State.setSp_deferred (s : State) (v : Dword) : (s.setSp v).deferred = s.deferred := rfl
@[simp] theorem State.setSp_fresh (s : State) (v : Dword) : (s.setSp v).fresh = s.fresh := rfl
@[simp] theorem State.setSp_mem (s : State) (v : Dword) : (s.setSp v).mem = s.mem := rfl

@[simp] theorem State.stored_gpr (s : State) (ps : List Nat) (v : Nat) : (s.stored ps v).gpr = s.gpr := rfl
@[simp] theorem State.stored_eip (s : State) (ps : List Nat) (v : Nat) : (s.stored ps v).eip = s.eip := rfl
@[simp] theorem State.stored_npc (s : State) (ps : List Nat) (v : Nat) : (s.stored ps v).npc = s.npc := rfl
@[simp] theorem State.stored_flags (s : State) (ps : List Nat) (v : Nat) : (s.stored ps v).flags = s.flags := rfl
@[simp] theorem State.stored_seg (s : State) (ps : List Nat) (v : Nat) : (s.stored ps v).seg = s.seg := rfl
@[simp] theorem State.stored_gdtr (s : State) (ps : List Nat) (v : Nat) : (s.stored ps v).gdtr = s.gdtr := rfl
@[simp] theorem State.stored_idtr (s : State) (ps : List Nat) (v : Nat) : (s.stored ps v).idtr = s.idtr := rfl
@[simp] theorem State.stored_ldtr (s : State) (ps : List Nat) (v : Nat) : (s.stored ps v).ldtr = s.ldtr := rfl
@[simp] theorem State.stored_tr (s : State) (ps : List Nat) (v : Nat) : (s.stored ps v).tr = s.tr := rfl
@[simp] theorem State.stored_cr0 (s : State) (ps : List Nat) (v : Nat) : (s.stored ps v).cr0 = s.cr0 := rfl
@[simp] theorem State.stored_cr2 (s : State) (ps : List Nat) (v : Nat) : (s.stored ps v).cr2 = s.cr2 := rfl
@[simp] theorem State.stored_cr3 (s : State) (ps : List Nat) (v : Nat) : (s.stored ps v).cr3 = s.cr3 := rfl
@[simp] theorem State.stored_cr4 (s : State) (ps : List Nat) (v : Nat) : (s.stored ps v).cr4 = s.cr4 := rfl
@[simp] theorem State.stored_pdpte0 (s : State) (ps : List Nat) (v : Nat) : (s.stored ps v).pdpte0 = s.pdpte0 := rfl
@[simp] theorem State.stored_pdpte1 (s : State) (ps : List Nat) (v : Nat) : (s.stored ps v).pdpte1 = s.pdpte1 := rfl
@[simp] theorem State.stored_pdpte2 (s : State) (ps : List Nat) (v : Nat) : (s.stored ps v).pdpte2 = s.pdpte2 := rfl
@[simp] theorem State.stored_pdpte3 (s : State) (ps : List Nat) (v : Nat) : (s.stored ps v).pdpte3 = s.pdpte3 := rfl
@[simp] theorem State.stored_dr0 (s : State) (ps : List Nat) (v : Nat) : (s.stored ps v).dr0 = s.dr0 := rfl
@[simp] theorem State.stored_dr1 (s : State) (ps : List Nat) (v : Nat) : (s.stored ps v).dr1 = s.dr1 := rfl
@[simp] theorem State.stored_dr2 (s : State) (ps : List Nat) (v : Nat) : (s.stored ps v).dr2 = s.dr2 := rfl
@[simp] theorem State.stored_dr3 (s : State) (ps : List Nat) (v : Nat) : (s.stored ps v).dr3 = s.dr3 := rfl
@[simp] theorem State.stored_dr6 (s : State) (ps : List Nat) (v : Nat) : (s.stored ps v).dr6 = s.dr6 := rfl
@[simp] theorem State.stored_dr7 (s : State) (ps : List Nat) (v : Nat) : (s.stored ps v).dr7 = s.dr7 := rfl
@[simp] theorem State.stored_cpl (s : State) (ps : List Nat) (v : Nat) : (s.stored ps v).cpl = s.cpl := rfl
@[simp] theorem State.stored_tsc (s : State) (ps : List Nat) (v : Nat) : (s.stored ps v).tsc = s.tsc := rfl
@[simp] theorem State.stored_pmc0 (s : State) (ps : List Nat) (v : Nat) : (s.stored ps v).pmc0 = s.pmc0 := rfl
@[simp] theorem State.stored_pmc1 (s : State) (ps : List Nat) (v : Nat) : (s.stored ps v).pmc1 = s.pmc1 := rfl
@[simp] theorem State.stored_msrs (s : State) (ps : List Nat) (v : Nat) : (s.stored ps v).msrs = s.msrs := rfl
@[simp] theorem State.stored_fpu (s : State) (ps : List Nat) (v : Nat) : (s.stored ps v).fpu = s.fpu := rfl
@[simp] theorem State.stored_shadow (s : State) (ps : List Nat) (v : Nat) : (s.stored ps v).shadow = s.shadow := rfl
@[simp] theorem State.stored_activity (s : State) (ps : List Nat) (v : Nat) : (s.stored ps v).activity = s.activity := rfl
@[simp] theorem State.stored_nmiBlocked (s : State) (ps : List Nat) (v : Nat) : (s.stored ps v).nmiBlocked = s.nmiBlocked := rfl
@[simp] theorem State.stored_tlb (s : State) (ps : List Nat) (v : Nat) : (s.stored ps v).tlb = s.tlb := rfl
@[simp] theorem State.stored_nmiPending (s : State) (ps : List Nat) (v : Nat) : (s.stored ps v).nmiPending = s.nmiPending := rfl
@[simp] theorem State.stored_intrPending (s : State) (ps : List Nat) (v : Nat) : (s.stored ps v).intrPending = s.intrPending := rfl
@[simp] theorem State.stored_map (s : State) (ps : List Nat) (v : Nat) : (s.stored ps v).map = s.map := rfl
@[simp] theorem State.stored_adLog (s : State) (ps : List Nat) (v : Nat) : (s.stored ps v).adLog = s.adLog := rfl
@[simp] theorem State.stored_dbgHits (s : State) (ps : List Nat) (v : Nat) : (s.stored ps v).dbgHits = s.dbgHits := rfl
@[simp] theorem State.stored_pfx (s : State) (ps : List Nat) (v : Nat) : (s.stored ps v).pfx = s.pfx := rfl
@[simp] theorem State.stored_opBytes (s : State) (ps : List Nat) (v : Nat) : (s.stored ps v).opBytes = s.opBytes := rfl
@[simp] theorem State.stored_interrupted (s : State) (ps : List Nat) (v : Nat) : (s.stored ps v).interrupted = s.interrupted := rfl
@[simp] theorem State.stored_rfKept (s : State) (ps : List Nat) (v : Nat) : (s.stored ps v).rfKept = s.rfKept := rfl
@[simp] theorem State.stored_deferred (s : State) (ps : List Nat) (v : Nat) : (s.stored ps v).deferred = s.deferred := rfl
@[simp] theorem State.stored_fresh (s : State) (ps : List Nat) (v : Nat) : (s.stored ps v).fresh = s.fresh := rfl
@[simp] theorem State.stored_mem (s : State) (ps : List Nat) (v : Nat) : (s.stored ps v).mem = s.mem.writeList ps v := rfl

@[simp] theorem State.sampled_gpr (s : State) (ps : List Nat) : (s.sampled ps).gpr = s.gpr := by unfold State.sampled; dsimp only; split <;> rfl
@[simp] theorem State.sampled_eip (s : State) (ps : List Nat) : (s.sampled ps).eip = s.eip := by unfold State.sampled; dsimp only; split <;> rfl
@[simp] theorem State.sampled_npc (s : State) (ps : List Nat) : (s.sampled ps).npc = s.npc := by unfold State.sampled; dsimp only; split <;> rfl
@[simp] theorem State.sampled_flags (s : State) (ps : List Nat) : (s.sampled ps).flags = s.flags := by unfold State.sampled; dsimp only; split <;> rfl
@[simp] theorem State.sampled_seg (s : State) (ps : List Nat) : (s.sampled ps).seg = s.seg := by unfold State.sampled; dsimp only; split <;> rfl
@[simp] theorem State.sampled_gdtr (s : State) (ps : List Nat) : (s.sampled ps).gdtr = s.gdtr := by unfold State.sampled; dsimp only; split <;> rfl
@[simp] theorem State.sampled_idtr (s : State) (ps : List Nat) : (s.sampled ps).idtr = s.idtr := by unfold State.sampled; dsimp only; split <;> rfl
@[simp] theorem State.sampled_ldtr (s : State) (ps : List Nat) : (s.sampled ps).ldtr = s.ldtr := by unfold State.sampled; dsimp only; split <;> rfl
@[simp] theorem State.sampled_tr (s : State) (ps : List Nat) : (s.sampled ps).tr = s.tr := by unfold State.sampled; dsimp only; split <;> rfl
@[simp] theorem State.sampled_cr0 (s : State) (ps : List Nat) : (s.sampled ps).cr0 = s.cr0 := by unfold State.sampled; dsimp only; split <;> rfl
@[simp] theorem State.sampled_cr2 (s : State) (ps : List Nat) : (s.sampled ps).cr2 = s.cr2 := by unfold State.sampled; dsimp only; split <;> rfl
@[simp] theorem State.sampled_cr3 (s : State) (ps : List Nat) : (s.sampled ps).cr3 = s.cr3 := by unfold State.sampled; dsimp only; split <;> rfl
@[simp] theorem State.sampled_cr4 (s : State) (ps : List Nat) : (s.sampled ps).cr4 = s.cr4 := by unfold State.sampled; dsimp only; split <;> rfl
@[simp] theorem State.sampled_pdpte0 (s : State) (ps : List Nat) : (s.sampled ps).pdpte0 = s.pdpte0 := by unfold State.sampled; dsimp only; split <;> rfl
@[simp] theorem State.sampled_pdpte1 (s : State) (ps : List Nat) : (s.sampled ps).pdpte1 = s.pdpte1 := by unfold State.sampled; dsimp only; split <;> rfl
@[simp] theorem State.sampled_pdpte2 (s : State) (ps : List Nat) : (s.sampled ps).pdpte2 = s.pdpte2 := by unfold State.sampled; dsimp only; split <;> rfl
@[simp] theorem State.sampled_pdpte3 (s : State) (ps : List Nat) : (s.sampled ps).pdpte3 = s.pdpte3 := by unfold State.sampled; dsimp only; split <;> rfl
@[simp] theorem State.sampled_dr0 (s : State) (ps : List Nat) : (s.sampled ps).dr0 = s.dr0 := by unfold State.sampled; dsimp only; split <;> rfl
@[simp] theorem State.sampled_dr1 (s : State) (ps : List Nat) : (s.sampled ps).dr1 = s.dr1 := by unfold State.sampled; dsimp only; split <;> rfl
@[simp] theorem State.sampled_dr2 (s : State) (ps : List Nat) : (s.sampled ps).dr2 = s.dr2 := by unfold State.sampled; dsimp only; split <;> rfl
@[simp] theorem State.sampled_dr3 (s : State) (ps : List Nat) : (s.sampled ps).dr3 = s.dr3 := by unfold State.sampled; dsimp only; split <;> rfl
@[simp] theorem State.sampled_dr6 (s : State) (ps : List Nat) : (s.sampled ps).dr6 = s.dr6 := by unfold State.sampled; dsimp only; split <;> rfl
@[simp] theorem State.sampled_dr7 (s : State) (ps : List Nat) : (s.sampled ps).dr7 = s.dr7 := by unfold State.sampled; dsimp only; split <;> rfl
@[simp] theorem State.sampled_cpl (s : State) (ps : List Nat) : (s.sampled ps).cpl = s.cpl := by unfold State.sampled; dsimp only; split <;> rfl
@[simp] theorem State.sampled_tsc (s : State) (ps : List Nat) : (s.sampled ps).tsc = s.tsc := by unfold State.sampled; dsimp only; split <;> rfl
@[simp] theorem State.sampled_pmc0 (s : State) (ps : List Nat) : (s.sampled ps).pmc0 = s.pmc0 := by unfold State.sampled; dsimp only; split <;> rfl
@[simp] theorem State.sampled_pmc1 (s : State) (ps : List Nat) : (s.sampled ps).pmc1 = s.pmc1 := by unfold State.sampled; dsimp only; split <;> rfl
@[simp] theorem State.sampled_msrs (s : State) (ps : List Nat) : (s.sampled ps).msrs = s.msrs := by unfold State.sampled; dsimp only; split <;> rfl
@[simp] theorem State.sampled_fpu (s : State) (ps : List Nat) : (s.sampled ps).fpu = s.fpu := by unfold State.sampled; dsimp only; split <;> rfl
@[simp] theorem State.sampled_shadow (s : State) (ps : List Nat) : (s.sampled ps).shadow = s.shadow := by unfold State.sampled; dsimp only; split <;> rfl
@[simp] theorem State.sampled_activity (s : State) (ps : List Nat) : (s.sampled ps).activity = s.activity := by unfold State.sampled; dsimp only; split <;> rfl
@[simp] theorem State.sampled_nmiBlocked (s : State) (ps : List Nat) : (s.sampled ps).nmiBlocked = s.nmiBlocked := by unfold State.sampled; dsimp only; split <;> rfl
@[simp] theorem State.sampled_tlb (s : State) (ps : List Nat) : (s.sampled ps).tlb = s.tlb := by unfold State.sampled; dsimp only; split <;> rfl
@[simp] theorem State.sampled_nmiPending (s : State) (ps : List Nat) : (s.sampled ps).nmiPending = s.nmiPending := by unfold State.sampled; dsimp only; split <;> rfl
@[simp] theorem State.sampled_intrPending (s : State) (ps : List Nat) : (s.sampled ps).intrPending = s.intrPending := by unfold State.sampled; dsimp only; split <;> rfl
@[simp] theorem State.sampled_map (s : State) (ps : List Nat) : (s.sampled ps).map = s.map := by unfold State.sampled; dsimp only; split <;> rfl
@[simp] theorem State.sampled_adLog (s : State) (ps : List Nat) : (s.sampled ps).adLog = s.adLog := by unfold State.sampled; dsimp only; split <;> rfl
@[simp] theorem State.sampled_dbgHits (s : State) (ps : List Nat) : (s.sampled ps).dbgHits = s.dbgHits := by unfold State.sampled; dsimp only; split <;> rfl
@[simp] theorem State.sampled_pfx (s : State) (ps : List Nat) : (s.sampled ps).pfx = s.pfx := by unfold State.sampled; dsimp only; split <;> rfl
@[simp] theorem State.sampled_opBytes (s : State) (ps : List Nat) : (s.sampled ps).opBytes = s.opBytes := by unfold State.sampled; dsimp only; split <;> rfl
@[simp] theorem State.sampled_interrupted (s : State) (ps : List Nat) : (s.sampled ps).interrupted = s.interrupted := by unfold State.sampled; dsimp only; split <;> rfl
@[simp] theorem State.sampled_rfKept (s : State) (ps : List Nat) : (s.sampled ps).rfKept = s.rfKept := by unfold State.sampled; dsimp only; split <;> rfl
@[simp] theorem State.sampled_deferred (s : State) (ps : List Nat) : (s.sampled ps).deferred = s.deferred := by unfold State.sampled; dsimp only; split <;> rfl

@[simp] theorem State.shut_gpr (s : State) : (s.shut).gpr = s.gpr := rfl
@[simp] theorem State.shut_eip (s : State) : (s.shut).eip = s.eip := rfl
@[simp] theorem State.shut_npc (s : State) : (s.shut).npc = s.npc := rfl
@[simp] theorem State.shut_flags (s : State) : (s.shut).flags = s.flags := rfl
@[simp] theorem State.shut_seg (s : State) : (s.shut).seg = s.seg := rfl
@[simp] theorem State.shut_gdtr (s : State) : (s.shut).gdtr = s.gdtr := rfl
@[simp] theorem State.shut_idtr (s : State) : (s.shut).idtr = s.idtr := rfl
@[simp] theorem State.shut_ldtr (s : State) : (s.shut).ldtr = s.ldtr := rfl
@[simp] theorem State.shut_tr (s : State) : (s.shut).tr = s.tr := rfl
@[simp] theorem State.shut_cr0 (s : State) : (s.shut).cr0 = s.cr0 := rfl
@[simp] theorem State.shut_cr2 (s : State) : (s.shut).cr2 = s.cr2 := rfl
@[simp] theorem State.shut_cr3 (s : State) : (s.shut).cr3 = s.cr3 := rfl
@[simp] theorem State.shut_cr4 (s : State) : (s.shut).cr4 = s.cr4 := rfl
@[simp] theorem State.shut_pdpte0 (s : State) : (s.shut).pdpte0 = s.pdpte0 := rfl
@[simp] theorem State.shut_pdpte1 (s : State) : (s.shut).pdpte1 = s.pdpte1 := rfl
@[simp] theorem State.shut_pdpte2 (s : State) : (s.shut).pdpte2 = s.pdpte2 := rfl
@[simp] theorem State.shut_pdpte3 (s : State) : (s.shut).pdpte3 = s.pdpte3 := rfl
@[simp] theorem State.shut_dr0 (s : State) : (s.shut).dr0 = s.dr0 := rfl
@[simp] theorem State.shut_dr1 (s : State) : (s.shut).dr1 = s.dr1 := rfl
@[simp] theorem State.shut_dr2 (s : State) : (s.shut).dr2 = s.dr2 := rfl
@[simp] theorem State.shut_dr3 (s : State) : (s.shut).dr3 = s.dr3 := rfl
@[simp] theorem State.shut_dr6 (s : State) : (s.shut).dr6 = s.dr6 := rfl
@[simp] theorem State.shut_dr7 (s : State) : (s.shut).dr7 = s.dr7 := rfl
@[simp] theorem State.shut_cpl (s : State) : (s.shut).cpl = s.cpl := rfl
@[simp] theorem State.shut_tsc (s : State) : (s.shut).tsc = s.tsc := rfl
@[simp] theorem State.shut_pmc0 (s : State) : (s.shut).pmc0 = s.pmc0 := rfl
@[simp] theorem State.shut_pmc1 (s : State) : (s.shut).pmc1 = s.pmc1 := rfl
@[simp] theorem State.shut_msrs (s : State) : (s.shut).msrs = s.msrs := rfl
@[simp] theorem State.shut_fpu (s : State) : (s.shut).fpu = s.fpu := rfl
@[simp] theorem State.shut_nmiBlocked (s : State) : (s.shut).nmiBlocked = s.nmiBlocked := rfl
@[simp] theorem State.shut_tlb (s : State) : (s.shut).tlb = s.tlb := rfl
@[simp] theorem State.shut_nmiPending (s : State) : (s.shut).nmiPending = s.nmiPending := rfl
@[simp] theorem State.shut_intrPending (s : State) : (s.shut).intrPending = s.intrPending := rfl
@[simp] theorem State.shut_map (s : State) : (s.shut).map = s.map := rfl
@[simp] theorem State.shut_ioLog (s : State) : (s.shut).ioLog = s.ioLog := rfl
@[simp] theorem State.shut_adLog (s : State) : (s.shut).adLog = s.adLog := rfl
@[simp] theorem State.shut_dbgHits (s : State) : (s.shut).dbgHits = s.dbgHits := rfl
@[simp] theorem State.shut_pfx (s : State) : (s.shut).pfx = s.pfx := rfl
@[simp] theorem State.shut_opBytes (s : State) : (s.shut).opBytes = s.opBytes := rfl
@[simp] theorem State.shut_rfKept (s : State) : (s.shut).rfKept = s.rfKept := rfl
@[simp] theorem State.shut_deferred (s : State) : (s.shut).deferred = s.deferred := rfl
@[simp] theorem State.shut_fresh (s : State) : (s.shut).fresh = s.fresh := rfl
@[simp] theorem State.shut_mem (s : State) : (s.shut).mem = s.mem := rfl
@[simp] theorem State.shut_activity (s : State) : (s.shut).activity = .shutdown := rfl
@[simp] theorem State.shut_shadow (s : State) : (s.shut).shadow = .none := rfl
@[simp] theorem State.shut_interrupted (s : State) : (s.shut).interrupted = true := rfl

@[simp] theorem State.settle_gpr (s : State) : (s.settle).gpr = s.gpr := by unfold State.settle; split <;> rfl
@[simp] theorem State.settle_eip (s : State) : (s.settle).eip = s.eip := by unfold State.settle; split <;> rfl
@[simp] theorem State.settle_npc (s : State) : (s.settle).npc = s.npc := by unfold State.settle; split <;> rfl
@[simp] theorem State.settle_seg (s : State) : (s.settle).seg = s.seg := by unfold State.settle; split <;> rfl
@[simp] theorem State.settle_gdtr (s : State) : (s.settle).gdtr = s.gdtr := by unfold State.settle; split <;> rfl
@[simp] theorem State.settle_idtr (s : State) : (s.settle).idtr = s.idtr := by unfold State.settle; split <;> rfl
@[simp] theorem State.settle_ldtr (s : State) : (s.settle).ldtr = s.ldtr := by unfold State.settle; split <;> rfl
@[simp] theorem State.settle_tr (s : State) : (s.settle).tr = s.tr := by unfold State.settle; split <;> rfl
@[simp] theorem State.settle_cr0 (s : State) : (s.settle).cr0 = s.cr0 := by unfold State.settle; split <;> rfl
@[simp] theorem State.settle_cr3 (s : State) : (s.settle).cr3 = s.cr3 := by unfold State.settle; split <;> rfl
@[simp] theorem State.settle_cr4 (s : State) : (s.settle).cr4 = s.cr4 := by unfold State.settle; split <;> rfl
@[simp] theorem State.settle_pdpte0 (s : State) : (s.settle).pdpte0 = s.pdpte0 := by unfold State.settle; split <;> rfl
@[simp] theorem State.settle_pdpte1 (s : State) : (s.settle).pdpte1 = s.pdpte1 := by unfold State.settle; split <;> rfl
@[simp] theorem State.settle_pdpte2 (s : State) : (s.settle).pdpte2 = s.pdpte2 := by unfold State.settle; split <;> rfl
@[simp] theorem State.settle_pdpte3 (s : State) : (s.settle).pdpte3 = s.pdpte3 := by unfold State.settle; split <;> rfl
@[simp] theorem State.settle_dr0 (s : State) : (s.settle).dr0 = s.dr0 := by unfold State.settle; split <;> rfl
@[simp] theorem State.settle_dr1 (s : State) : (s.settle).dr1 = s.dr1 := by unfold State.settle; split <;> rfl
@[simp] theorem State.settle_dr2 (s : State) : (s.settle).dr2 = s.dr2 := by unfold State.settle; split <;> rfl
@[simp] theorem State.settle_dr3 (s : State) : (s.settle).dr3 = s.dr3 := by unfold State.settle; split <;> rfl
@[simp] theorem State.settle_cpl (s : State) : (s.settle).cpl = s.cpl := by unfold State.settle; split <;> rfl
@[simp] theorem State.settle_tsc (s : State) : (s.settle).tsc = s.tsc := by unfold State.settle; split <;> rfl
@[simp] theorem State.settle_pmc0 (s : State) : (s.settle).pmc0 = s.pmc0 := by unfold State.settle; split <;> rfl
@[simp] theorem State.settle_pmc1 (s : State) : (s.settle).pmc1 = s.pmc1 := by unfold State.settle; split <;> rfl
@[simp] theorem State.settle_msrs (s : State) : (s.settle).msrs = s.msrs := by unfold State.settle; split <;> rfl
@[simp] theorem State.settle_fpu (s : State) : (s.settle).fpu = s.fpu := by unfold State.settle; split <;> rfl
@[simp] theorem State.settle_shadow (s : State) : (s.settle).shadow = s.shadow := by unfold State.settle; split <;> rfl
@[simp] theorem State.settle_activity (s : State) : (s.settle).activity = s.activity := by unfold State.settle; split <;> rfl
@[simp] theorem State.settle_nmiBlocked (s : State) : (s.settle).nmiBlocked = s.nmiBlocked := by unfold State.settle; split <;> rfl
@[simp] theorem State.settle_tlb (s : State) : (s.settle).tlb = s.tlb := by unfold State.settle; split <;> rfl
@[simp] theorem State.settle_nmiPending (s : State) : (s.settle).nmiPending = s.nmiPending := by unfold State.settle; split <;> rfl
@[simp] theorem State.settle_intrPending (s : State) : (s.settle).intrPending = s.intrPending := by unfold State.settle; split <;> rfl
@[simp] theorem State.settle_map (s : State) : (s.settle).map = s.map := by unfold State.settle; split <;> rfl
@[simp] theorem State.settle_ioLog (s : State) : (s.settle).ioLog = s.ioLog := by unfold State.settle; split <;> rfl
@[simp] theorem State.settle_adLog (s : State) : (s.settle).adLog = s.adLog := by unfold State.settle; split <;> rfl
@[simp] theorem State.settle_pfx (s : State) : (s.settle).pfx = s.pfx := by unfold State.settle; split <;> rfl
@[simp] theorem State.settle_opBytes (s : State) : (s.settle).opBytes = s.opBytes := by unfold State.settle; split <;> rfl
@[simp] theorem State.settle_interrupted (s : State) : (s.settle).interrupted = s.interrupted := by unfold State.settle; split <;> rfl
@[simp] theorem State.settle_rfKept (s : State) : (s.settle).rfKept = s.rfKept := by unfold State.settle; split <;> rfl
@[simp] theorem State.settle_fresh (s : State) : (s.settle).fresh = s.fresh := by unfold State.settle; split <;> rfl
@[simp] theorem State.settle_mem (s : State) : (s.settle).mem = s.mem := by unfold State.settle; split <;> rfl

@[simp] theorem State.retire_gpr (s : State) : (s.retire).gpr = s.gpr := rfl
@[simp] theorem State.retire_npc (s : State) : (s.retire).npc = s.npc := rfl
@[simp] theorem State.retire_flags (s : State) : (s.retire).flags = s.flags := rfl
@[simp] theorem State.retire_seg (s : State) : (s.retire).seg = s.seg := rfl
@[simp] theorem State.retire_gdtr (s : State) : (s.retire).gdtr = s.gdtr := rfl
@[simp] theorem State.retire_idtr (s : State) : (s.retire).idtr = s.idtr := rfl
@[simp] theorem State.retire_ldtr (s : State) : (s.retire).ldtr = s.ldtr := rfl
@[simp] theorem State.retire_tr (s : State) : (s.retire).tr = s.tr := rfl
@[simp] theorem State.retire_cr0 (s : State) : (s.retire).cr0 = s.cr0 := rfl
@[simp] theorem State.retire_cr2 (s : State) : (s.retire).cr2 = s.cr2 := rfl
@[simp] theorem State.retire_cr3 (s : State) : (s.retire).cr3 = s.cr3 := rfl
@[simp] theorem State.retire_cr4 (s : State) : (s.retire).cr4 = s.cr4 := rfl
@[simp] theorem State.retire_pdpte0 (s : State) : (s.retire).pdpte0 = s.pdpte0 := rfl
@[simp] theorem State.retire_pdpte1 (s : State) : (s.retire).pdpte1 = s.pdpte1 := rfl
@[simp] theorem State.retire_pdpte2 (s : State) : (s.retire).pdpte2 = s.pdpte2 := rfl
@[simp] theorem State.retire_pdpte3 (s : State) : (s.retire).pdpte3 = s.pdpte3 := rfl
@[simp] theorem State.retire_dr0 (s : State) : (s.retire).dr0 = s.dr0 := rfl
@[simp] theorem State.retire_dr1 (s : State) : (s.retire).dr1 = s.dr1 := rfl
@[simp] theorem State.retire_dr2 (s : State) : (s.retire).dr2 = s.dr2 := rfl
@[simp] theorem State.retire_dr3 (s : State) : (s.retire).dr3 = s.dr3 := rfl
@[simp] theorem State.retire_dr6 (s : State) : (s.retire).dr6 = s.dr6 := rfl
@[simp] theorem State.retire_dr7 (s : State) : (s.retire).dr7 = s.dr7 := rfl
@[simp] theorem State.retire_cpl (s : State) : (s.retire).cpl = s.cpl := rfl
@[simp] theorem State.retire_tsc (s : State) : (s.retire).tsc = s.tsc := rfl
@[simp] theorem State.retire_pmc0 (s : State) : (s.retire).pmc0 = s.pmc0 := rfl
@[simp] theorem State.retire_pmc1 (s : State) : (s.retire).pmc1 = s.pmc1 := rfl
@[simp] theorem State.retire_msrs (s : State) : (s.retire).msrs = s.msrs := rfl
@[simp] theorem State.retire_fpu (s : State) : (s.retire).fpu = s.fpu := rfl
@[simp] theorem State.retire_shadow (s : State) : (s.retire).shadow = s.shadow := rfl
@[simp] theorem State.retire_activity (s : State) : (s.retire).activity = s.activity := rfl
@[simp] theorem State.retire_nmiBlocked (s : State) : (s.retire).nmiBlocked = s.nmiBlocked := rfl
@[simp] theorem State.retire_tlb (s : State) : (s.retire).tlb = s.tlb := rfl
@[simp] theorem State.retire_nmiPending (s : State) : (s.retire).nmiPending = s.nmiPending := rfl
@[simp] theorem State.retire_intrPending (s : State) : (s.retire).intrPending = s.intrPending := rfl
@[simp] theorem State.retire_map (s : State) : (s.retire).map = s.map := rfl
@[simp] theorem State.retire_ioLog (s : State) : (s.retire).ioLog = s.ioLog := rfl
@[simp] theorem State.retire_adLog (s : State) : (s.retire).adLog = s.adLog := rfl
@[simp] theorem State.retire_dbgHits (s : State) : (s.retire).dbgHits = s.dbgHits := rfl
@[simp] theorem State.retire_pfx (s : State) : (s.retire).pfx = s.pfx := rfl
@[simp] theorem State.retire_opBytes (s : State) : (s.retire).opBytes = s.opBytes := rfl
@[simp] theorem State.retire_interrupted (s : State) : (s.retire).interrupted = s.interrupted := rfl
@[simp] theorem State.retire_rfKept (s : State) : (s.retire).rfKept = s.rfKept := rfl
@[simp] theorem State.retire_deferred (s : State) : (s.retire).deferred = s.deferred := rfl
@[simp] theorem State.retire_fresh (s : State) : (s.retire).fresh = s.fresh := rfl
@[simp] theorem State.retire_mem (s : State) : (s.retire).mem = s.mem := rfl
@[simp] theorem State.retire_eip (s : State) : (s.retire).eip = s.npc := rfl

@[simp] theorem State.withZf_gpr (s : State) (b : Bool) : (s.withZf b).gpr = s.gpr := rfl
@[simp] theorem State.withZf_eip (s : State) (b : Bool) : (s.withZf b).eip = s.eip := rfl
@[simp] theorem State.withZf_npc (s : State) (b : Bool) : (s.withZf b).npc = s.npc := rfl
@[simp] theorem State.withZf_seg (s : State) (b : Bool) : (s.withZf b).seg = s.seg := rfl
@[simp] theorem State.withZf_gdtr (s : State) (b : Bool) : (s.withZf b).gdtr = s.gdtr := rfl
@[simp] theorem State.withZf_idtr (s : State) (b : Bool) : (s.withZf b).idtr = s.idtr := rfl
@[simp] theorem State.withZf_ldtr (s : State) (b : Bool) : (s.withZf b).ldtr = s.ldtr := rfl
@[simp] theorem State.withZf_tr (s : State) (b : Bool) : (s.withZf b).tr = s.tr := rfl
@[simp] theorem State.withZf_cr0 (s : State) (b : Bool) : (s.withZf b).cr0 = s.cr0 := rfl
@[simp] theorem State.withZf_cr2 (s : State) (b : Bool) : (s.withZf b).cr2 = s.cr2 := rfl
@[simp] theorem State.withZf_cr3 (s : State) (b : Bool) : (s.withZf b).cr3 = s.cr3 := rfl
@[simp] theorem State.withZf_cr4 (s : State) (b : Bool) : (s.withZf b).cr4 = s.cr4 := rfl
@[simp] theorem State.withZf_pdpte0 (s : State) (b : Bool) : (s.withZf b).pdpte0 = s.pdpte0 := rfl
@[simp] theorem State.withZf_pdpte1 (s : State) (b : Bool) : (s.withZf b).pdpte1 = s.pdpte1 := rfl
@[simp] theorem State.withZf_pdpte2 (s : State) (b : Bool) : (s.withZf b).pdpte2 = s.pdpte2 := rfl
@[simp] theorem State.withZf_pdpte3 (s : State) (b : Bool) : (s.withZf b).pdpte3 = s.pdpte3 := rfl
@[simp] theorem State.withZf_dr0 (s : State) (b : Bool) : (s.withZf b).dr0 = s.dr0 := rfl
@[simp] theorem State.withZf_dr1 (s : State) (b : Bool) : (s.withZf b).dr1 = s.dr1 := rfl
@[simp] theorem State.withZf_dr2 (s : State) (b : Bool) : (s.withZf b).dr2 = s.dr2 := rfl
@[simp] theorem State.withZf_dr3 (s : State) (b : Bool) : (s.withZf b).dr3 = s.dr3 := rfl
@[simp] theorem State.withZf_dr6 (s : State) (b : Bool) : (s.withZf b).dr6 = s.dr6 := rfl
@[simp] theorem State.withZf_dr7 (s : State) (b : Bool) : (s.withZf b).dr7 = s.dr7 := rfl
@[simp] theorem State.withZf_cpl (s : State) (b : Bool) : (s.withZf b).cpl = s.cpl := rfl
@[simp] theorem State.withZf_tsc (s : State) (b : Bool) : (s.withZf b).tsc = s.tsc := rfl
@[simp] theorem State.withZf_pmc0 (s : State) (b : Bool) : (s.withZf b).pmc0 = s.pmc0 := rfl
@[simp] theorem State.withZf_pmc1 (s : State) (b : Bool) : (s.withZf b).pmc1 = s.pmc1 := rfl
@[simp] theorem State.withZf_msrs (s : State) (b : Bool) : (s.withZf b).msrs = s.msrs := rfl
@[simp] theorem State.withZf_fpu (s : State) (b : Bool) : (s.withZf b).fpu = s.fpu := rfl
@[simp] theorem State.withZf_shadow (s : State) (b : Bool) : (s.withZf b).shadow = s.shadow := rfl
@[simp] theorem State.withZf_activity (s : State) (b : Bool) : (s.withZf b).activity = s.activity := rfl
@[simp] theorem State.withZf_nmiBlocked (s : State) (b : Bool) : (s.withZf b).nmiBlocked = s.nmiBlocked := rfl
@[simp] theorem State.withZf_tlb (s : State) (b : Bool) : (s.withZf b).tlb = s.tlb := rfl
@[simp] theorem State.withZf_nmiPending (s : State) (b : Bool) : (s.withZf b).nmiPending = s.nmiPending := rfl
@[simp] theorem State.withZf_intrPending (s : State) (b : Bool) : (s.withZf b).intrPending = s.intrPending := rfl
@[simp] theorem State.withZf_map (s : State) (b : Bool) : (s.withZf b).map = s.map := rfl
@[simp] theorem State.withZf_ioLog (s : State) (b : Bool) : (s.withZf b).ioLog = s.ioLog := rfl
@[simp] theorem State.withZf_adLog (s : State) (b : Bool) : (s.withZf b).adLog = s.adLog := rfl
@[simp] theorem State.withZf_dbgHits (s : State) (b : Bool) : (s.withZf b).dbgHits = s.dbgHits := rfl
@[simp] theorem State.withZf_pfx (s : State) (b : Bool) : (s.withZf b).pfx = s.pfx := rfl
@[simp] theorem State.withZf_opBytes (s : State) (b : Bool) : (s.withZf b).opBytes = s.opBytes := rfl
@[simp] theorem State.withZf_interrupted (s : State) (b : Bool) : (s.withZf b).interrupted = s.interrupted := rfl
@[simp] theorem State.withZf_rfKept (s : State) (b : Bool) : (s.withZf b).rfKept = s.rfKept := rfl
@[simp] theorem State.withZf_deferred (s : State) (b : Bool) : (s.withZf b).deferred = s.deferred := rfl
@[simp] theorem State.withZf_fresh (s : State) (b : Bool) : (s.withZf b).fresh = s.fresh := rfl
@[simp] theorem State.withZf_mem (s : State) (b : Bool) : (s.withZf b).mem = s.mem := rfl

@[simp] theorem State.undefFlags_gpr (s : State) (k : Nat) (f : (Nat → Bool) → Flags → Flags) : (s.undefFlags k f).gpr = s.gpr := rfl
@[simp] theorem State.undefFlags_eip (s : State) (k : Nat) (f : (Nat → Bool) → Flags → Flags) : (s.undefFlags k f).eip = s.eip := rfl
@[simp] theorem State.undefFlags_npc (s : State) (k : Nat) (f : (Nat → Bool) → Flags → Flags) : (s.undefFlags k f).npc = s.npc := rfl
@[simp] theorem State.undefFlags_seg (s : State) (k : Nat) (f : (Nat → Bool) → Flags → Flags) : (s.undefFlags k f).seg = s.seg := rfl
@[simp] theorem State.undefFlags_gdtr (s : State) (k : Nat) (f : (Nat → Bool) → Flags → Flags) : (s.undefFlags k f).gdtr = s.gdtr := rfl
@[simp] theorem State.undefFlags_idtr (s : State) (k : Nat) (f : (Nat → Bool) → Flags → Flags) : (s.undefFlags k f).idtr = s.idtr := rfl
@[simp] theorem State.undefFlags_ldtr (s : State) (k : Nat) (f : (Nat → Bool) → Flags → Flags) : (s.undefFlags k f).ldtr = s.ldtr := rfl
@[simp] theorem State.undefFlags_tr (s : State) (k : Nat) (f : (Nat → Bool) → Flags → Flags) : (s.undefFlags k f).tr = s.tr := rfl
@[simp] theorem State.undefFlags_cr0 (s : State) (k : Nat) (f : (Nat → Bool) → Flags → Flags) : (s.undefFlags k f).cr0 = s.cr0 := rfl
@[simp] theorem State.undefFlags_cr2 (s : State) (k : Nat) (f : (Nat → Bool) → Flags → Flags) : (s.undefFlags k f).cr2 = s.cr2 := rfl
@[simp] theorem State.undefFlags_cr3 (s : State) (k : Nat) (f : (Nat → Bool) → Flags → Flags) : (s.undefFlags k f).cr3 = s.cr3 := rfl
@[simp] theorem State.undefFlags_cr4 (s : State) (k : Nat) (f : (Nat → Bool) → Flags → Flags) : (s.undefFlags k f).cr4 = s.cr4 := rfl
@[simp] theorem State.undefFlags_pdpte0 (s : State) (k : Nat) (f : (Nat → Bool) → Flags → Flags) : (s.undefFlags k f).pdpte0 = s.pdpte0 := rfl
@[simp] theorem State.undefFlags_pdpte1 (s : State) (k : Nat) (f : (Nat → Bool) → Flags → Flags) : (s.undefFlags k f).pdpte1 = s.pdpte1 := rfl
@[simp] theorem State.undefFlags_pdpte2 (s : State) (k : Nat) (f : (Nat → Bool) → Flags → Flags) : (s.undefFlags k f).pdpte2 = s.pdpte2 := rfl
@[simp] theorem State.undefFlags_pdpte3 (s : State) (k : Nat) (f : (Nat → Bool) → Flags → Flags) : (s.undefFlags k f).pdpte3 = s.pdpte3 := rfl
@[simp] theorem State.undefFlags_dr0 (s : State) (k : Nat) (f : (Nat → Bool) → Flags → Flags) : (s.undefFlags k f).dr0 = s.dr0 := rfl
@[simp] theorem State.undefFlags_dr1 (s : State) (k : Nat) (f : (Nat → Bool) → Flags → Flags) : (s.undefFlags k f).dr1 = s.dr1 := rfl
@[simp] theorem State.undefFlags_dr2 (s : State) (k : Nat) (f : (Nat → Bool) → Flags → Flags) : (s.undefFlags k f).dr2 = s.dr2 := rfl
@[simp] theorem State.undefFlags_dr3 (s : State) (k : Nat) (f : (Nat → Bool) → Flags → Flags) : (s.undefFlags k f).dr3 = s.dr3 := rfl
@[simp] theorem State.undefFlags_dr6 (s : State) (k : Nat) (f : (Nat → Bool) → Flags → Flags) : (s.undefFlags k f).dr6 = s.dr6 := rfl
@[simp] theorem State.undefFlags_dr7 (s : State) (k : Nat) (f : (Nat → Bool) → Flags → Flags) : (s.undefFlags k f).dr7 = s.dr7 := rfl
@[simp] theorem State.undefFlags_cpl (s : State) (k : Nat) (f : (Nat → Bool) → Flags → Flags) : (s.undefFlags k f).cpl = s.cpl := rfl
@[simp] theorem State.undefFlags_tsc (s : State) (k : Nat) (f : (Nat → Bool) → Flags → Flags) : (s.undefFlags k f).tsc = s.tsc := rfl
@[simp] theorem State.undefFlags_pmc0 (s : State) (k : Nat) (f : (Nat → Bool) → Flags → Flags) : (s.undefFlags k f).pmc0 = s.pmc0 := rfl
@[simp] theorem State.undefFlags_pmc1 (s : State) (k : Nat) (f : (Nat → Bool) → Flags → Flags) : (s.undefFlags k f).pmc1 = s.pmc1 := rfl
@[simp] theorem State.undefFlags_msrs (s : State) (k : Nat) (f : (Nat → Bool) → Flags → Flags) : (s.undefFlags k f).msrs = s.msrs := rfl
@[simp] theorem State.undefFlags_fpu (s : State) (k : Nat) (f : (Nat → Bool) → Flags → Flags) : (s.undefFlags k f).fpu = s.fpu := rfl
@[simp] theorem State.undefFlags_shadow (s : State) (k : Nat) (f : (Nat → Bool) → Flags → Flags) : (s.undefFlags k f).shadow = s.shadow := rfl
@[simp] theorem State.undefFlags_activity (s : State) (k : Nat) (f : (Nat → Bool) → Flags → Flags) : (s.undefFlags k f).activity = s.activity := rfl
@[simp] theorem State.undefFlags_nmiBlocked (s : State) (k : Nat) (f : (Nat → Bool) → Flags → Flags) : (s.undefFlags k f).nmiBlocked = s.nmiBlocked := rfl
@[simp] theorem State.undefFlags_tlb (s : State) (k : Nat) (f : (Nat → Bool) → Flags → Flags) : (s.undefFlags k f).tlb = s.tlb := rfl
@[simp] theorem State.undefFlags_nmiPending (s : State) (k : Nat) (f : (Nat → Bool) → Flags → Flags) : (s.undefFlags k f).nmiPending = s.nmiPending := rfl
@[simp] theorem State.undefFlags_intrPending (s : State) (k : Nat) (f : (Nat → Bool) → Flags → Flags) : (s.undefFlags k f).intrPending = s.intrPending := rfl
@[simp] theorem State.undefFlags_map (s : State) (k : Nat) (f : (Nat → Bool) → Flags → Flags) : (s.undefFlags k f).map = s.map := rfl
@[simp] theorem State.undefFlags_ioLog (s : State) (k : Nat) (f : (Nat → Bool) → Flags → Flags) : (s.undefFlags k f).ioLog = s.ioLog := rfl
@[simp] theorem State.undefFlags_adLog (s : State) (k : Nat) (f : (Nat → Bool) → Flags → Flags) : (s.undefFlags k f).adLog = s.adLog := rfl
@[simp] theorem State.undefFlags_dbgHits (s : State) (k : Nat) (f : (Nat → Bool) → Flags → Flags) : (s.undefFlags k f).dbgHits = s.dbgHits := rfl
@[simp] theorem State.undefFlags_pfx (s : State) (k : Nat) (f : (Nat → Bool) → Flags → Flags) : (s.undefFlags k f).pfx = s.pfx := rfl
@[simp] theorem State.undefFlags_opBytes (s : State) (k : Nat) (f : (Nat → Bool) → Flags → Flags) : (s.undefFlags k f).opBytes = s.opBytes := rfl
@[simp] theorem State.undefFlags_interrupted (s : State) (k : Nat) (f : (Nat → Bool) → Flags → Flags) : (s.undefFlags k f).interrupted = s.interrupted := rfl
@[simp] theorem State.undefFlags_rfKept (s : State) (k : Nat) (f : (Nat → Bool) → Flags → Flags) : (s.undefFlags k f).rfKept = s.rfKept := rfl
@[simp] theorem State.undefFlags_deferred (s : State) (k : Nat) (f : (Nat → Bool) → Flags → Flags) : (s.undefFlags k f).deferred = s.deferred := rfl
@[simp] theorem State.undefFlags_mem (s : State) (k : Nat) (f : (Nat → Bool) → Flags → Flags) : (s.undefFlags k f).mem = s.mem := rfl
@[simp] theorem State.undefFlags_fresh (s : State) (k : Nat) (f : (Nat → Bool) → Flags → Flags) : (s.undefFlags k f).fresh = s.fresh + k := rfl

@[simp] theorem State.noFlags_gpr (s : State) : (s.noFlags).gpr = s.gpr := rfl
@[simp] theorem State.noFlags_eip (s : State) : (s.noFlags).eip = s.eip := rfl
@[simp] theorem State.noFlags_npc (s : State) : (s.noFlags).npc = s.npc := rfl
@[simp] theorem State.noFlags_seg (s : State) : (s.noFlags).seg = s.seg := rfl
@[simp] theorem State.noFlags_gdtr (s : State) : (s.noFlags).gdtr = s.gdtr := rfl
@[simp] theorem State.noFlags_idtr (s : State) : (s.noFlags).idtr = s.idtr := rfl
@[simp] theorem State.noFlags_ldtr (s : State) : (s.noFlags).ldtr = s.ldtr := rfl
@[simp] theorem State.noFlags_tr (s : State) : (s.noFlags).tr = s.tr := rfl
@[simp] theorem State.noFlags_cr0 (s : State) : (s.noFlags).cr0 = s.cr0 := rfl
@[simp] theorem State.noFlags_cr2 (s : State) : (s.noFlags).cr2 = s.cr2 := rfl
@[simp] theorem State.noFlags_cr3 (s : State) : (s.noFlags).cr3 = s.cr3 := rfl
@[simp] theorem State.noFlags_cr4 (s : State) : (s.noFlags).cr4 = s.cr4 := rfl
@[simp] theorem State.noFlags_pdpte0 (s : State) : (s.noFlags).pdpte0 = s.pdpte0 := rfl
@[simp] theorem State.noFlags_pdpte1 (s : State) : (s.noFlags).pdpte1 = s.pdpte1 := rfl
@[simp] theorem State.noFlags_pdpte2 (s : State) : (s.noFlags).pdpte2 = s.pdpte2 := rfl
@[simp] theorem State.noFlags_pdpte3 (s : State) : (s.noFlags).pdpte3 = s.pdpte3 := rfl
@[simp] theorem State.noFlags_dr0 (s : State) : (s.noFlags).dr0 = s.dr0 := rfl
@[simp] theorem State.noFlags_dr1 (s : State) : (s.noFlags).dr1 = s.dr1 := rfl
@[simp] theorem State.noFlags_dr2 (s : State) : (s.noFlags).dr2 = s.dr2 := rfl
@[simp] theorem State.noFlags_dr3 (s : State) : (s.noFlags).dr3 = s.dr3 := rfl
@[simp] theorem State.noFlags_dr6 (s : State) : (s.noFlags).dr6 = s.dr6 := rfl
@[simp] theorem State.noFlags_dr7 (s : State) : (s.noFlags).dr7 = s.dr7 := rfl
@[simp] theorem State.noFlags_cpl (s : State) : (s.noFlags).cpl = s.cpl := rfl
@[simp] theorem State.noFlags_tsc (s : State) : (s.noFlags).tsc = s.tsc := rfl
@[simp] theorem State.noFlags_pmc0 (s : State) : (s.noFlags).pmc0 = s.pmc0 := rfl
@[simp] theorem State.noFlags_pmc1 (s : State) : (s.noFlags).pmc1 = s.pmc1 := rfl
@[simp] theorem State.noFlags_msrs (s : State) : (s.noFlags).msrs = s.msrs := rfl
@[simp] theorem State.noFlags_fpu (s : State) : (s.noFlags).fpu = s.fpu := rfl
@[simp] theorem State.noFlags_shadow (s : State) : (s.noFlags).shadow = s.shadow := rfl
@[simp] theorem State.noFlags_activity (s : State) : (s.noFlags).activity = s.activity := rfl
@[simp] theorem State.noFlags_nmiBlocked (s : State) : (s.noFlags).nmiBlocked = s.nmiBlocked := rfl
@[simp] theorem State.noFlags_tlb (s : State) : (s.noFlags).tlb = s.tlb := rfl
@[simp] theorem State.noFlags_nmiPending (s : State) : (s.noFlags).nmiPending = s.nmiPending := rfl
@[simp] theorem State.noFlags_intrPending (s : State) : (s.noFlags).intrPending = s.intrPending := rfl
@[simp] theorem State.noFlags_map (s : State) : (s.noFlags).map = s.map := rfl
@[simp] theorem State.noFlags_ioLog (s : State) : (s.noFlags).ioLog = s.ioLog := rfl
@[simp] theorem State.noFlags_adLog (s : State) : (s.noFlags).adLog = s.adLog := rfl
@[simp] theorem State.noFlags_dbgHits (s : State) : (s.noFlags).dbgHits = s.dbgHits := rfl
@[simp] theorem State.noFlags_pfx (s : State) : (s.noFlags).pfx = s.pfx := rfl
@[simp] theorem State.noFlags_opBytes (s : State) : (s.noFlags).opBytes = s.opBytes := rfl
@[simp] theorem State.noFlags_interrupted (s : State) : (s.noFlags).interrupted = s.interrupted := rfl
@[simp] theorem State.noFlags_rfKept (s : State) : (s.noFlags).rfKept = s.rfKept := rfl
@[simp] theorem State.noFlags_deferred (s : State) : (s.noFlags).deferred = s.deferred := rfl
@[simp] theorem State.noFlags_mem (s : State) : (s.noFlags).mem = s.mem := rfl
@[simp] theorem State.noFlags_fresh (s : State) : (s.noFlags).fresh = s.fresh + 6 := rfl

@[simp] theorem State.freeCs_gpr (s : State) : (s.freeCs).gpr = s.gpr := rfl
@[simp] theorem State.freeCs_eip (s : State) : (s.freeCs).eip = s.eip := rfl
@[simp] theorem State.freeCs_npc (s : State) : (s.freeCs).npc = s.npc := rfl
@[simp] theorem State.freeCs_flags (s : State) : (s.freeCs).flags = s.flags := rfl
@[simp] theorem State.freeCs_seg (s : State) : (s.freeCs).seg = s.seg := rfl
@[simp] theorem State.freeCs_gdtr (s : State) : (s.freeCs).gdtr = s.gdtr := rfl
@[simp] theorem State.freeCs_idtr (s : State) : (s.freeCs).idtr = s.idtr := rfl
@[simp] theorem State.freeCs_ldtr (s : State) : (s.freeCs).ldtr = s.ldtr := rfl
@[simp] theorem State.freeCs_tr (s : State) : (s.freeCs).tr = s.tr := rfl
@[simp] theorem State.freeCs_cr0 (s : State) : (s.freeCs).cr0 = s.cr0 := rfl
@[simp] theorem State.freeCs_cr2 (s : State) : (s.freeCs).cr2 = s.cr2 := rfl
@[simp] theorem State.freeCs_cr3 (s : State) : (s.freeCs).cr3 = s.cr3 := rfl
@[simp] theorem State.freeCs_cr4 (s : State) : (s.freeCs).cr4 = s.cr4 := rfl
@[simp] theorem State.freeCs_pdpte0 (s : State) : (s.freeCs).pdpte0 = s.pdpte0 := rfl
@[simp] theorem State.freeCs_pdpte1 (s : State) : (s.freeCs).pdpte1 = s.pdpte1 := rfl
@[simp] theorem State.freeCs_pdpte2 (s : State) : (s.freeCs).pdpte2 = s.pdpte2 := rfl
@[simp] theorem State.freeCs_pdpte3 (s : State) : (s.freeCs).pdpte3 = s.pdpte3 := rfl
@[simp] theorem State.freeCs_dr0 (s : State) : (s.freeCs).dr0 = s.dr0 := rfl
@[simp] theorem State.freeCs_dr1 (s : State) : (s.freeCs).dr1 = s.dr1 := rfl
@[simp] theorem State.freeCs_dr2 (s : State) : (s.freeCs).dr2 = s.dr2 := rfl
@[simp] theorem State.freeCs_dr3 (s : State) : (s.freeCs).dr3 = s.dr3 := rfl
@[simp] theorem State.freeCs_dr6 (s : State) : (s.freeCs).dr6 = s.dr6 := rfl
@[simp] theorem State.freeCs_dr7 (s : State) : (s.freeCs).dr7 = s.dr7 := rfl
@[simp] theorem State.freeCs_cpl (s : State) : (s.freeCs).cpl = s.cpl := rfl
@[simp] theorem State.freeCs_tsc (s : State) : (s.freeCs).tsc = s.tsc := rfl
@[simp] theorem State.freeCs_pmc0 (s : State) : (s.freeCs).pmc0 = s.pmc0 := rfl
@[simp] theorem State.freeCs_pmc1 (s : State) : (s.freeCs).pmc1 = s.pmc1 := rfl
@[simp] theorem State.freeCs_msrs (s : State) : (s.freeCs).msrs = s.msrs := rfl
@[simp] theorem State.freeCs_shadow (s : State) : (s.freeCs).shadow = s.shadow := rfl
@[simp] theorem State.freeCs_activity (s : State) : (s.freeCs).activity = s.activity := rfl
@[simp] theorem State.freeCs_nmiBlocked (s : State) : (s.freeCs).nmiBlocked = s.nmiBlocked := rfl
@[simp] theorem State.freeCs_tlb (s : State) : (s.freeCs).tlb = s.tlb := rfl
@[simp] theorem State.freeCs_nmiPending (s : State) : (s.freeCs).nmiPending = s.nmiPending := rfl
@[simp] theorem State.freeCs_intrPending (s : State) : (s.freeCs).intrPending = s.intrPending := rfl
@[simp] theorem State.freeCs_map (s : State) : (s.freeCs).map = s.map := rfl
@[simp] theorem State.freeCs_ioLog (s : State) : (s.freeCs).ioLog = s.ioLog := rfl
@[simp] theorem State.freeCs_adLog (s : State) : (s.freeCs).adLog = s.adLog := rfl
@[simp] theorem State.freeCs_dbgHits (s : State) : (s.freeCs).dbgHits = s.dbgHits := rfl
@[simp] theorem State.freeCs_pfx (s : State) : (s.freeCs).pfx = s.pfx := rfl
@[simp] theorem State.freeCs_opBytes (s : State) : (s.freeCs).opBytes = s.opBytes := rfl
@[simp] theorem State.freeCs_interrupted (s : State) : (s.freeCs).interrupted = s.interrupted := rfl
@[simp] theorem State.freeCs_rfKept (s : State) : (s.freeCs).rfKept = s.rfKept := rfl
@[simp] theorem State.freeCs_deferred (s : State) : (s.freeCs).deferred = s.deferred := rfl
@[simp] theorem State.freeCs_mem (s : State) : (s.freeCs).mem = s.mem := rfl
@[simp] theorem State.freeCs_fresh (s : State) : (s.freeCs).fresh = s.fresh + 3 := rfl

@[simp] theorem State.freeAllCs_gpr (s : State) : (s.freeAllCs).gpr = s.gpr := rfl
@[simp] theorem State.freeAllCs_eip (s : State) : (s.freeAllCs).eip = s.eip := rfl
@[simp] theorem State.freeAllCs_npc (s : State) : (s.freeAllCs).npc = s.npc := rfl
@[simp] theorem State.freeAllCs_flags (s : State) : (s.freeAllCs).flags = s.flags := rfl
@[simp] theorem State.freeAllCs_seg (s : State) : (s.freeAllCs).seg = s.seg := rfl
@[simp] theorem State.freeAllCs_gdtr (s : State) : (s.freeAllCs).gdtr = s.gdtr := rfl
@[simp] theorem State.freeAllCs_idtr (s : State) : (s.freeAllCs).idtr = s.idtr := rfl
@[simp] theorem State.freeAllCs_ldtr (s : State) : (s.freeAllCs).ldtr = s.ldtr := rfl
@[simp] theorem State.freeAllCs_tr (s : State) : (s.freeAllCs).tr = s.tr := rfl
@[simp] theorem State.freeAllCs_cr0 (s : State) : (s.freeAllCs).cr0 = s.cr0 := rfl
@[simp] theorem State.freeAllCs_cr2 (s : State) : (s.freeAllCs).cr2 = s.cr2 := rfl
@[simp] theorem State.freeAllCs_cr3 (s : State) : (s.freeAllCs).cr3 = s.cr3 := rfl
@[simp] theorem State.freeAllCs_cr4 (s : State) : (s.freeAllCs).cr4 = s.cr4 := rfl
@[simp] theorem State.freeAllCs_pdpte0 (s : State) : (s.freeAllCs).pdpte0 = s.pdpte0 := rfl
@[simp] theorem State.freeAllCs_pdpte1 (s : State) : (s.freeAllCs).pdpte1 = s.pdpte1 := rfl
@[simp] theorem State.freeAllCs_pdpte2 (s : State) : (s.freeAllCs).pdpte2 = s.pdpte2 := rfl
@[simp] theorem State.freeAllCs_pdpte3 (s : State) : (s.freeAllCs).pdpte3 = s.pdpte3 := rfl
@[simp] theorem State.freeAllCs_dr0 (s : State) : (s.freeAllCs).dr0 = s.dr0 := rfl
@[simp] theorem State.freeAllCs_dr1 (s : State) : (s.freeAllCs).dr1 = s.dr1 := rfl
@[simp] theorem State.freeAllCs_dr2 (s : State) : (s.freeAllCs).dr2 = s.dr2 := rfl
@[simp] theorem State.freeAllCs_dr3 (s : State) : (s.freeAllCs).dr3 = s.dr3 := rfl
@[simp] theorem State.freeAllCs_dr6 (s : State) : (s.freeAllCs).dr6 = s.dr6 := rfl
@[simp] theorem State.freeAllCs_dr7 (s : State) : (s.freeAllCs).dr7 = s.dr7 := rfl
@[simp] theorem State.freeAllCs_cpl (s : State) : (s.freeAllCs).cpl = s.cpl := rfl
@[simp] theorem State.freeAllCs_tsc (s : State) : (s.freeAllCs).tsc = s.tsc := rfl
@[simp] theorem State.freeAllCs_pmc0 (s : State) : (s.freeAllCs).pmc0 = s.pmc0 := rfl
@[simp] theorem State.freeAllCs_pmc1 (s : State) : (s.freeAllCs).pmc1 = s.pmc1 := rfl
@[simp] theorem State.freeAllCs_msrs (s : State) : (s.freeAllCs).msrs = s.msrs := rfl
@[simp] theorem State.freeAllCs_shadow (s : State) : (s.freeAllCs).shadow = s.shadow := rfl
@[simp] theorem State.freeAllCs_activity (s : State) : (s.freeAllCs).activity = s.activity := rfl
@[simp] theorem State.freeAllCs_nmiBlocked (s : State) : (s.freeAllCs).nmiBlocked = s.nmiBlocked := rfl
@[simp] theorem State.freeAllCs_tlb (s : State) : (s.freeAllCs).tlb = s.tlb := rfl
@[simp] theorem State.freeAllCs_nmiPending (s : State) : (s.freeAllCs).nmiPending = s.nmiPending := rfl
@[simp] theorem State.freeAllCs_intrPending (s : State) : (s.freeAllCs).intrPending = s.intrPending := rfl
@[simp] theorem State.freeAllCs_map (s : State) : (s.freeAllCs).map = s.map := rfl
@[simp] theorem State.freeAllCs_ioLog (s : State) : (s.freeAllCs).ioLog = s.ioLog := rfl
@[simp] theorem State.freeAllCs_adLog (s : State) : (s.freeAllCs).adLog = s.adLog := rfl
@[simp] theorem State.freeAllCs_dbgHits (s : State) : (s.freeAllCs).dbgHits = s.dbgHits := rfl
@[simp] theorem State.freeAllCs_pfx (s : State) : (s.freeAllCs).pfx = s.pfx := rfl
@[simp] theorem State.freeAllCs_opBytes (s : State) : (s.freeAllCs).opBytes = s.opBytes := rfl
@[simp] theorem State.freeAllCs_interrupted (s : State) : (s.freeAllCs).interrupted = s.interrupted := rfl
@[simp] theorem State.freeAllCs_rfKept (s : State) : (s.freeAllCs).rfKept = s.rfKept := rfl
@[simp] theorem State.freeAllCs_deferred (s : State) : (s.freeAllCs).deferred = s.deferred := rfl
@[simp] theorem State.freeAllCs_mem (s : State) : (s.freeAllCs).mem = s.mem := rfl
@[simp] theorem State.freeAllCs_fresh (s : State) : (s.freeAllCs).fresh = s.fresh + 4 := rfl

@[simp] theorem State.pointed_gpr (s : State) (m : Option Ea) (f : Fpu) : (s.pointed m f).gpr = s.gpr := rfl
@[simp] theorem State.pointed_eip (s : State) (m : Option Ea) (f : Fpu) : (s.pointed m f).eip = s.eip := rfl
@[simp] theorem State.pointed_npc (s : State) (m : Option Ea) (f : Fpu) : (s.pointed m f).npc = s.npc := rfl
@[simp] theorem State.pointed_flags (s : State) (m : Option Ea) (f : Fpu) : (s.pointed m f).flags = s.flags := rfl
@[simp] theorem State.pointed_seg (s : State) (m : Option Ea) (f : Fpu) : (s.pointed m f).seg = s.seg := rfl
@[simp] theorem State.pointed_gdtr (s : State) (m : Option Ea) (f : Fpu) : (s.pointed m f).gdtr = s.gdtr := rfl
@[simp] theorem State.pointed_idtr (s : State) (m : Option Ea) (f : Fpu) : (s.pointed m f).idtr = s.idtr := rfl
@[simp] theorem State.pointed_ldtr (s : State) (m : Option Ea) (f : Fpu) : (s.pointed m f).ldtr = s.ldtr := rfl
@[simp] theorem State.pointed_tr (s : State) (m : Option Ea) (f : Fpu) : (s.pointed m f).tr = s.tr := rfl
@[simp] theorem State.pointed_cr0 (s : State) (m : Option Ea) (f : Fpu) : (s.pointed m f).cr0 = s.cr0 := rfl
@[simp] theorem State.pointed_cr2 (s : State) (m : Option Ea) (f : Fpu) : (s.pointed m f).cr2 = s.cr2 := rfl
@[simp] theorem State.pointed_cr3 (s : State) (m : Option Ea) (f : Fpu) : (s.pointed m f).cr3 = s.cr3 := rfl
@[simp] theorem State.pointed_cr4 (s : State) (m : Option Ea) (f : Fpu) : (s.pointed m f).cr4 = s.cr4 := rfl
@[simp] theorem State.pointed_pdpte0 (s : State) (m : Option Ea) (f : Fpu) : (s.pointed m f).pdpte0 = s.pdpte0 := rfl
@[simp] theorem State.pointed_pdpte1 (s : State) (m : Option Ea) (f : Fpu) : (s.pointed m f).pdpte1 = s.pdpte1 := rfl
@[simp] theorem State.pointed_pdpte2 (s : State) (m : Option Ea) (f : Fpu) : (s.pointed m f).pdpte2 = s.pdpte2 := rfl
@[simp] theorem State.pointed_pdpte3 (s : State) (m : Option Ea) (f : Fpu) : (s.pointed m f).pdpte3 = s.pdpte3 := rfl
@[simp] theorem State.pointed_dr0 (s : State) (m : Option Ea) (f : Fpu) : (s.pointed m f).dr0 = s.dr0 := rfl
@[simp] theorem State.pointed_dr1 (s : State) (m : Option Ea) (f : Fpu) : (s.pointed m f).dr1 = s.dr1 := rfl
@[simp] theorem State.pointed_dr2 (s : State) (m : Option Ea) (f : Fpu) : (s.pointed m f).dr2 = s.dr2 := rfl
@[simp] theorem State.pointed_dr3 (s : State) (m : Option Ea) (f : Fpu) : (s.pointed m f).dr3 = s.dr3 := rfl
@[simp] theorem State.pointed_dr6 (s : State) (m : Option Ea) (f : Fpu) : (s.pointed m f).dr6 = s.dr6 := rfl
@[simp] theorem State.pointed_dr7 (s : State) (m : Option Ea) (f : Fpu) : (s.pointed m f).dr7 = s.dr7 := rfl
@[simp] theorem State.pointed_cpl (s : State) (m : Option Ea) (f : Fpu) : (s.pointed m f).cpl = s.cpl := rfl
@[simp] theorem State.pointed_tsc (s : State) (m : Option Ea) (f : Fpu) : (s.pointed m f).tsc = s.tsc := rfl
@[simp] theorem State.pointed_pmc0 (s : State) (m : Option Ea) (f : Fpu) : (s.pointed m f).pmc0 = s.pmc0 := rfl
@[simp] theorem State.pointed_pmc1 (s : State) (m : Option Ea) (f : Fpu) : (s.pointed m f).pmc1 = s.pmc1 := rfl
@[simp] theorem State.pointed_msrs (s : State) (m : Option Ea) (f : Fpu) : (s.pointed m f).msrs = s.msrs := rfl
@[simp] theorem State.pointed_shadow (s : State) (m : Option Ea) (f : Fpu) : (s.pointed m f).shadow = s.shadow := rfl
@[simp] theorem State.pointed_activity (s : State) (m : Option Ea) (f : Fpu) : (s.pointed m f).activity = s.activity := rfl
@[simp] theorem State.pointed_nmiBlocked (s : State) (m : Option Ea) (f : Fpu) : (s.pointed m f).nmiBlocked = s.nmiBlocked := rfl
@[simp] theorem State.pointed_tlb (s : State) (m : Option Ea) (f : Fpu) : (s.pointed m f).tlb = s.tlb := rfl
@[simp] theorem State.pointed_nmiPending (s : State) (m : Option Ea) (f : Fpu) : (s.pointed m f).nmiPending = s.nmiPending := rfl
@[simp] theorem State.pointed_intrPending (s : State) (m : Option Ea) (f : Fpu) : (s.pointed m f).intrPending = s.intrPending := rfl
@[simp] theorem State.pointed_map (s : State) (m : Option Ea) (f : Fpu) : (s.pointed m f).map = s.map := rfl
@[simp] theorem State.pointed_ioLog (s : State) (m : Option Ea) (f : Fpu) : (s.pointed m f).ioLog = s.ioLog := rfl
@[simp] theorem State.pointed_adLog (s : State) (m : Option Ea) (f : Fpu) : (s.pointed m f).adLog = s.adLog := rfl
@[simp] theorem State.pointed_dbgHits (s : State) (m : Option Ea) (f : Fpu) : (s.pointed m f).dbgHits = s.dbgHits := rfl
@[simp] theorem State.pointed_pfx (s : State) (m : Option Ea) (f : Fpu) : (s.pointed m f).pfx = s.pfx := rfl
@[simp] theorem State.pointed_opBytes (s : State) (m : Option Ea) (f : Fpu) : (s.pointed m f).opBytes = s.opBytes := rfl
@[simp] theorem State.pointed_interrupted (s : State) (m : Option Ea) (f : Fpu) : (s.pointed m f).interrupted = s.interrupted := rfl
@[simp] theorem State.pointed_rfKept (s : State) (m : Option Ea) (f : Fpu) : (s.pointed m f).rfKept = s.rfKept := rfl
@[simp] theorem State.pointed_deferred (s : State) (m : Option Ea) (f : Fpu) : (s.pointed m f).deferred = s.deferred := rfl
@[simp] theorem State.pointed_fresh (s : State) (m : Option Ea) (f : Fpu) : (s.pointed m f).fresh = s.fresh := rfl
@[simp] theorem State.pointed_mem (s : State) (m : Option Ea) (f : Fpu) : (s.pointed m f).mem = s.mem := rfl

@[simp] theorem State.enterCs_gpr (s : State) (sel : Word) (d : Desc) (pl : Nat) (t : Dword) : (s.enterCs sel d pl t).gpr = s.gpr := rfl
@[simp] theorem State.enterCs_eip (s : State) (sel : Word) (d : Desc) (pl : Nat) (t : Dword) : (s.enterCs sel d pl t).eip = s.eip := rfl
@[simp] theorem State.enterCs_flags (s : State) (sel : Word) (d : Desc) (pl : Nat) (t : Dword) : (s.enterCs sel d pl t).flags = s.flags := rfl
@[simp] theorem State.enterCs_gdtr (s : State) (sel : Word) (d : Desc) (pl : Nat) (t : Dword) : (s.enterCs sel d pl t).gdtr = s.gdtr := rfl
@[simp] theorem State.enterCs_idtr (s : State) (sel : Word) (d : Desc) (pl : Nat) (t : Dword) : (s.enterCs sel d pl t).idtr = s.idtr := rfl
@[simp] theorem State.enterCs_ldtr (s : State) (sel : Word) (d : Desc) (pl : Nat) (t : Dword) : (s.enterCs sel d pl t).ldtr = s.ldtr := rfl
@[simp] theorem State.enterCs_tr (s : State) (sel : Word) (d : Desc) (pl : Nat) (t : Dword) : (s.enterCs sel d pl t).tr = s.tr := rfl
@[simp] theorem State.enterCs_cr0 (s : State) (sel : Word) (d : Desc) (pl : Nat) (t : Dword) : (s.enterCs sel d pl t).cr0 = s.cr0 := rfl
@[simp] theorem State.enterCs_cr2 (s : State) (sel : Word) (d : Desc) (pl : Nat) (t : Dword) : (s.enterCs sel d pl t).cr2 = s.cr2 := rfl
@[simp] theorem State.enterCs_cr3 (s : State) (sel : Word) (d : Desc) (pl : Nat) (t : Dword) : (s.enterCs sel d pl t).cr3 = s.cr3 := rfl
@[simp] theorem State.enterCs_cr4 (s : State) (sel : Word) (d : Desc) (pl : Nat) (t : Dword) : (s.enterCs sel d pl t).cr4 = s.cr4 := rfl
@[simp] theorem State.enterCs_pdpte0 (s : State) (sel : Word) (d : Desc) (pl : Nat) (t : Dword) : (s.enterCs sel d pl t).pdpte0 = s.pdpte0 := rfl
@[simp] theorem State.enterCs_pdpte1 (s : State) (sel : Word) (d : Desc) (pl : Nat) (t : Dword) : (s.enterCs sel d pl t).pdpte1 = s.pdpte1 := rfl
@[simp] theorem State.enterCs_pdpte2 (s : State) (sel : Word) (d : Desc) (pl : Nat) (t : Dword) : (s.enterCs sel d pl t).pdpte2 = s.pdpte2 := rfl
@[simp] theorem State.enterCs_pdpte3 (s : State) (sel : Word) (d : Desc) (pl : Nat) (t : Dword) : (s.enterCs sel d pl t).pdpte3 = s.pdpte3 := rfl
@[simp] theorem State.enterCs_dr0 (s : State) (sel : Word) (d : Desc) (pl : Nat) (t : Dword) : (s.enterCs sel d pl t).dr0 = s.dr0 := rfl
@[simp] theorem State.enterCs_dr1 (s : State) (sel : Word) (d : Desc) (pl : Nat) (t : Dword) : (s.enterCs sel d pl t).dr1 = s.dr1 := rfl
@[simp] theorem State.enterCs_dr2 (s : State) (sel : Word) (d : Desc) (pl : Nat) (t : Dword) : (s.enterCs sel d pl t).dr2 = s.dr2 := rfl
@[simp] theorem State.enterCs_dr3 (s : State) (sel : Word) (d : Desc) (pl : Nat) (t : Dword) : (s.enterCs sel d pl t).dr3 = s.dr3 := rfl
@[simp] theorem State.enterCs_dr6 (s : State) (sel : Word) (d : Desc) (pl : Nat) (t : Dword) : (s.enterCs sel d pl t).dr6 = s.dr6 := rfl
@[simp] theorem State.enterCs_dr7 (s : State) (sel : Word) (d : Desc) (pl : Nat) (t : Dword) : (s.enterCs sel d pl t).dr7 = s.dr7 := rfl
@[simp] theorem State.enterCs_tsc (s : State) (sel : Word) (d : Desc) (pl : Nat) (t : Dword) : (s.enterCs sel d pl t).tsc = s.tsc := rfl
@[simp] theorem State.enterCs_pmc0 (s : State) (sel : Word) (d : Desc) (pl : Nat) (t : Dword) : (s.enterCs sel d pl t).pmc0 = s.pmc0 := rfl
@[simp] theorem State.enterCs_pmc1 (s : State) (sel : Word) (d : Desc) (pl : Nat) (t : Dword) : (s.enterCs sel d pl t).pmc1 = s.pmc1 := rfl
@[simp] theorem State.enterCs_msrs (s : State) (sel : Word) (d : Desc) (pl : Nat) (t : Dword) : (s.enterCs sel d pl t).msrs = s.msrs := rfl
@[simp] theorem State.enterCs_fpu (s : State) (sel : Word) (d : Desc) (pl : Nat) (t : Dword) : (s.enterCs sel d pl t).fpu = s.fpu := rfl
@[simp] theorem State.enterCs_shadow (s : State) (sel : Word) (d : Desc) (pl : Nat) (t : Dword) : (s.enterCs sel d pl t).shadow = s.shadow := rfl
@[simp] theorem State.enterCs_activity (s : State) (sel : Word) (d : Desc) (pl : Nat) (t : Dword) : (s.enterCs sel d pl t).activity = s.activity := rfl
@[simp] theorem State.enterCs_nmiBlocked (s : State) (sel : Word) (d : Desc) (pl : Nat) (t : Dword) : (s.enterCs sel d pl t).nmiBlocked = s.nmiBlocked := rfl
@[simp] theorem State.enterCs_tlb (s : State) (sel : Word) (d : Desc) (pl : Nat) (t : Dword) : (s.enterCs sel d pl t).tlb = s.tlb := rfl
@[simp] theorem State.enterCs_nmiPending (s : State) (sel : Word) (d : Desc) (pl : Nat) (t : Dword) : (s.enterCs sel d pl t).nmiPending = s.nmiPending := rfl
@[simp] theorem State.enterCs_intrPending (s : State) (sel : Word) (d : Desc) (pl : Nat) (t : Dword) : (s.enterCs sel d pl t).intrPending = s.intrPending := rfl
@[simp] theorem State.enterCs_map (s : State) (sel : Word) (d : Desc) (pl : Nat) (t : Dword) : (s.enterCs sel d pl t).map = s.map := rfl
@[simp] theorem State.enterCs_ioLog (s : State) (sel : Word) (d : Desc) (pl : Nat) (t : Dword) : (s.enterCs sel d pl t).ioLog = s.ioLog := rfl
@[simp] theorem State.enterCs_adLog (s : State) (sel : Word) (d : Desc) (pl : Nat) (t : Dword) : (s.enterCs sel d pl t).adLog = s.adLog := rfl
@[simp] theorem State.enterCs_dbgHits (s : State) (sel : Word) (d : Desc) (pl : Nat) (t : Dword) : (s.enterCs sel d pl t).dbgHits = s.dbgHits := rfl
@[simp] theorem State.enterCs_pfx (s : State) (sel : Word) (d : Desc) (pl : Nat) (t : Dword) : (s.enterCs sel d pl t).pfx = s.pfx := rfl
@[simp] theorem State.enterCs_opBytes (s : State) (sel : Word) (d : Desc) (pl : Nat) (t : Dword) : (s.enterCs sel d pl t).opBytes = s.opBytes := rfl
@[simp] theorem State.enterCs_interrupted (s : State) (sel : Word) (d : Desc) (pl : Nat) (t : Dword) : (s.enterCs sel d pl t).interrupted = s.interrupted := rfl
@[simp] theorem State.enterCs_rfKept (s : State) (sel : Word) (d : Desc) (pl : Nat) (t : Dword) : (s.enterCs sel d pl t).rfKept = s.rfKept := rfl
@[simp] theorem State.enterCs_deferred (s : State) (sel : Word) (d : Desc) (pl : Nat) (t : Dword) : (s.enterCs sel d pl t).deferred = s.deferred := rfl
@[simp] theorem State.enterCs_fresh (s : State) (sel : Word) (d : Desc) (pl : Nat) (t : Dword) : (s.enterCs sel d pl t).fresh = s.fresh := rfl
@[simp] theorem State.enterCs_mem (s : State) (sel : Word) (d : Desc) (pl : Nat) (t : Dword) : (s.enterCs sel d pl t).mem = s.mem := rfl
@[simp] theorem State.enterCs_cpl (s : State) (sel : Word) (d : Desc) (pl : Nat) (t : Dword) : (s.enterCs sel d pl t).cpl = BitVec.ofNat 2 pl := rfl
@[simp] theorem State.enterCs_npc (s : State) (sel : Word) (d : Desc) (pl : Nat) (t : Dword) : (s.enterCs sel d pl t).npc = t := rfl

@[simp] theorem State.jump86_gpr (s : State) (sel : Word) (t : Dword) : (s.jump86 sel t).gpr = s.gpr := rfl
@[simp] theorem State.jump86_eip (s : State) (sel : Word) (t : Dword) : (s.jump86 sel t).eip = s.eip := rfl
@[simp] theorem State.jump86_flags (s : State) (sel : Word) (t : Dword) : (s.jump86 sel t).flags = s.flags := rfl
@[simp] theorem State.jump86_gdtr (s : State) (sel : Word) (t : Dword) : (s.jump86 sel t).gdtr = s.gdtr := rfl
@[simp] theorem State.jump86_idtr (s : State) (sel : Word) (t : Dword) : (s.jump86 sel t).idtr = s.idtr := rfl
@[simp] theorem State.jump86_ldtr (s : State) (sel : Word) (t : Dword) : (s.jump86 sel t).ldtr = s.ldtr := rfl
@[simp] theorem State.jump86_tr (s : State) (sel : Word) (t : Dword) : (s.jump86 sel t).tr = s.tr := rfl
@[simp] theorem State.jump86_cr0 (s : State) (sel : Word) (t : Dword) : (s.jump86 sel t).cr0 = s.cr0 := rfl
@[simp] theorem State.jump86_cr2 (s : State) (sel : Word) (t : Dword) : (s.jump86 sel t).cr2 = s.cr2 := rfl
@[simp] theorem State.jump86_cr3 (s : State) (sel : Word) (t : Dword) : (s.jump86 sel t).cr3 = s.cr3 := rfl
@[simp] theorem State.jump86_cr4 (s : State) (sel : Word) (t : Dword) : (s.jump86 sel t).cr4 = s.cr4 := rfl
@[simp] theorem State.jump86_pdpte0 (s : State) (sel : Word) (t : Dword) : (s.jump86 sel t).pdpte0 = s.pdpte0 := rfl
@[simp] theorem State.jump86_pdpte1 (s : State) (sel : Word) (t : Dword) : (s.jump86 sel t).pdpte1 = s.pdpte1 := rfl
@[simp] theorem State.jump86_pdpte2 (s : State) (sel : Word) (t : Dword) : (s.jump86 sel t).pdpte2 = s.pdpte2 := rfl
@[simp] theorem State.jump86_pdpte3 (s : State) (sel : Word) (t : Dword) : (s.jump86 sel t).pdpte3 = s.pdpte3 := rfl
@[simp] theorem State.jump86_dr0 (s : State) (sel : Word) (t : Dword) : (s.jump86 sel t).dr0 = s.dr0 := rfl
@[simp] theorem State.jump86_dr1 (s : State) (sel : Word) (t : Dword) : (s.jump86 sel t).dr1 = s.dr1 := rfl
@[simp] theorem State.jump86_dr2 (s : State) (sel : Word) (t : Dword) : (s.jump86 sel t).dr2 = s.dr2 := rfl
@[simp] theorem State.jump86_dr3 (s : State) (sel : Word) (t : Dword) : (s.jump86 sel t).dr3 = s.dr3 := rfl
@[simp] theorem State.jump86_dr6 (s : State) (sel : Word) (t : Dword) : (s.jump86 sel t).dr6 = s.dr6 := rfl
@[simp] theorem State.jump86_dr7 (s : State) (sel : Word) (t : Dword) : (s.jump86 sel t).dr7 = s.dr7 := rfl
@[simp] theorem State.jump86_cpl (s : State) (sel : Word) (t : Dword) : (s.jump86 sel t).cpl = s.cpl := rfl
@[simp] theorem State.jump86_tsc (s : State) (sel : Word) (t : Dword) : (s.jump86 sel t).tsc = s.tsc := rfl
@[simp] theorem State.jump86_pmc0 (s : State) (sel : Word) (t : Dword) : (s.jump86 sel t).pmc0 = s.pmc0 := rfl
@[simp] theorem State.jump86_pmc1 (s : State) (sel : Word) (t : Dword) : (s.jump86 sel t).pmc1 = s.pmc1 := rfl
@[simp] theorem State.jump86_msrs (s : State) (sel : Word) (t : Dword) : (s.jump86 sel t).msrs = s.msrs := rfl
@[simp] theorem State.jump86_fpu (s : State) (sel : Word) (t : Dword) : (s.jump86 sel t).fpu = s.fpu := rfl
@[simp] theorem State.jump86_shadow (s : State) (sel : Word) (t : Dword) : (s.jump86 sel t).shadow = s.shadow := rfl
@[simp] theorem State.jump86_activity (s : State) (sel : Word) (t : Dword) : (s.jump86 sel t).activity = s.activity := rfl
@[simp] theorem State.jump86_nmiBlocked (s : State) (sel : Word) (t : Dword) : (s.jump86 sel t).nmiBlocked = s.nmiBlocked := rfl
@[simp] theorem State.jump86_tlb (s : State) (sel : Word) (t : Dword) : (s.jump86 sel t).tlb = s.tlb := rfl
@[simp] theorem State.jump86_nmiPending (s : State) (sel : Word) (t : Dword) : (s.jump86 sel t).nmiPending = s.nmiPending := rfl
@[simp] theorem State.jump86_intrPending (s : State) (sel : Word) (t : Dword) : (s.jump86 sel t).intrPending = s.intrPending := rfl
@[simp] theorem State.jump86_map (s : State) (sel : Word) (t : Dword) : (s.jump86 sel t).map = s.map := rfl
@[simp] theorem State.jump86_ioLog (s : State) (sel : Word) (t : Dword) : (s.jump86 sel t).ioLog = s.ioLog := rfl
@[simp] theorem State.jump86_adLog (s : State) (sel : Word) (t : Dword) : (s.jump86 sel t).adLog = s.adLog := rfl
@[simp] theorem State.jump86_dbgHits (s : State) (sel : Word) (t : Dword) : (s.jump86 sel t).dbgHits = s.dbgHits := rfl
@[simp] theorem State.jump86_pfx (s : State) (sel : Word) (t : Dword) : (s.jump86 sel t).pfx = s.pfx := rfl
@[simp] theorem State.jump86_opBytes (s : State) (sel : Word) (t : Dword) : (s.jump86 sel t).opBytes = s.opBytes := rfl
@[simp] theorem State.jump86_interrupted (s : State) (sel : Word) (t : Dword) : (s.jump86 sel t).interrupted = s.interrupted := rfl
@[simp] theorem State.jump86_rfKept (s : State) (sel : Word) (t : Dword) : (s.jump86 sel t).rfKept = s.rfKept := rfl
@[simp] theorem State.jump86_deferred (s : State) (sel : Word) (t : Dword) : (s.jump86 sel t).deferred = s.deferred := rfl
@[simp] theorem State.jump86_fresh (s : State) (sel : Word) (t : Dword) : (s.jump86 sel t).fresh = s.fresh := rfl
@[simp] theorem State.jump86_mem (s : State) (sel : Word) (t : Dword) : (s.jump86 sel t).mem = s.mem := rfl
@[simp] theorem State.jump86_npc (s : State) (sel : Word) (t : Dword) : (s.jump86 sel t).npc = t := rfl

@[simp] theorem State.delivering_gpr (s : State) (ev : Event) : (s.delivering ev).gpr = s.gpr := rfl
@[simp] theorem State.delivering_eip (s : State) (ev : Event) : (s.delivering ev).eip = s.eip := rfl
@[simp] theorem State.delivering_npc (s : State) (ev : Event) : (s.delivering ev).npc = s.npc := rfl
@[simp] theorem State.delivering_flags (s : State) (ev : Event) : (s.delivering ev).flags = s.flags := rfl
@[simp] theorem State.delivering_seg (s : State) (ev : Event) : (s.delivering ev).seg = s.seg := rfl
@[simp] theorem State.delivering_gdtr (s : State) (ev : Event) : (s.delivering ev).gdtr = s.gdtr := rfl
@[simp] theorem State.delivering_idtr (s : State) (ev : Event) : (s.delivering ev).idtr = s.idtr := rfl
@[simp] theorem State.delivering_ldtr (s : State) (ev : Event) : (s.delivering ev).ldtr = s.ldtr := rfl
@[simp] theorem State.delivering_tr (s : State) (ev : Event) : (s.delivering ev).tr = s.tr := rfl
@[simp] theorem State.delivering_cr0 (s : State) (ev : Event) : (s.delivering ev).cr0 = s.cr0 := rfl
@[simp] theorem State.delivering_cr2 (s : State) (ev : Event) : (s.delivering ev).cr2 = s.cr2 := rfl
@[simp] theorem State.delivering_cr3 (s : State) (ev : Event) : (s.delivering ev).cr3 = s.cr3 := rfl
@[simp] theorem State.delivering_cr4 (s : State) (ev : Event) : (s.delivering ev).cr4 = s.cr4 := rfl
@[simp] theorem State.delivering_pdpte0 (s : State) (ev : Event) : (s.delivering ev).pdpte0 = s.pdpte0 := rfl
@[simp] theorem State.delivering_pdpte1 (s : State) (ev : Event) : (s.delivering ev).pdpte1 = s.pdpte1 := rfl
@[simp] theorem State.delivering_pdpte2 (s : State) (ev : Event) : (s.delivering ev).pdpte2 = s.pdpte2 := rfl
@[simp] theorem State.delivering_pdpte3 (s : State) (ev : Event) : (s.delivering ev).pdpte3 = s.pdpte3 := rfl
@[simp] theorem State.delivering_dr0 (s : State) (ev : Event) : (s.delivering ev).dr0 = s.dr0 := rfl
@[simp] theorem State.delivering_dr1 (s : State) (ev : Event) : (s.delivering ev).dr1 = s.dr1 := rfl
@[simp] theorem State.delivering_dr2 (s : State) (ev : Event) : (s.delivering ev).dr2 = s.dr2 := rfl
@[simp] theorem State.delivering_dr3 (s : State) (ev : Event) : (s.delivering ev).dr3 = s.dr3 := rfl
@[simp] theorem State.delivering_dr6 (s : State) (ev : Event) : (s.delivering ev).dr6 = s.dr6 := rfl
@[simp] theorem State.delivering_dr7 (s : State) (ev : Event) : (s.delivering ev).dr7 = s.dr7 := rfl
@[simp] theorem State.delivering_cpl (s : State) (ev : Event) : (s.delivering ev).cpl = s.cpl := rfl
@[simp] theorem State.delivering_tsc (s : State) (ev : Event) : (s.delivering ev).tsc = s.tsc := rfl
@[simp] theorem State.delivering_pmc0 (s : State) (ev : Event) : (s.delivering ev).pmc0 = s.pmc0 := rfl
@[simp] theorem State.delivering_pmc1 (s : State) (ev : Event) : (s.delivering ev).pmc1 = s.pmc1 := rfl
@[simp] theorem State.delivering_msrs (s : State) (ev : Event) : (s.delivering ev).msrs = s.msrs := rfl
@[simp] theorem State.delivering_fpu (s : State) (ev : Event) : (s.delivering ev).fpu = s.fpu := rfl
@[simp] theorem State.delivering_tlb (s : State) (ev : Event) : (s.delivering ev).tlb = s.tlb := rfl
@[simp] theorem State.delivering_nmiPending (s : State) (ev : Event) : (s.delivering ev).nmiPending = s.nmiPending := rfl
@[simp] theorem State.delivering_intrPending (s : State) (ev : Event) : (s.delivering ev).intrPending = s.intrPending := rfl
@[simp] theorem State.delivering_map (s : State) (ev : Event) : (s.delivering ev).map = s.map := rfl
@[simp] theorem State.delivering_ioLog (s : State) (ev : Event) : (s.delivering ev).ioLog = s.ioLog := rfl
@[simp] theorem State.delivering_adLog (s : State) (ev : Event) : (s.delivering ev).adLog = s.adLog := rfl
@[simp] theorem State.delivering_dbgHits (s : State) (ev : Event) : (s.delivering ev).dbgHits = s.dbgHits := rfl
@[simp] theorem State.delivering_pfx (s : State) (ev : Event) : (s.delivering ev).pfx = s.pfx := rfl
@[simp] theorem State.delivering_opBytes (s : State) (ev : Event) : (s.delivering ev).opBytes = s.opBytes := rfl
@[simp] theorem State.delivering_rfKept (s : State) (ev : Event) : (s.delivering ev).rfKept = s.rfKept := rfl
@[simp] theorem State.delivering_deferred (s : State) (ev : Event) : (s.delivering ev).deferred = s.deferred := rfl
@[simp] theorem State.delivering_fresh (s : State) (ev : Event) : (s.delivering ev).fresh = s.fresh := rfl
@[simp] theorem State.delivering_mem (s : State) (ev : Event) : (s.delivering ev).mem = s.mem := rfl
@[simp] theorem State.delivering_shadow (s : State) (ev : Event) : (s.delivering ev).shadow = .none := rfl
@[simp] theorem State.delivering_activity (s : State) (ev : Event) : (s.delivering ev).activity = .running := rfl
@[simp] theorem State.delivering_interrupted (s : State) (ev : Event) : (s.delivering ev).interrupted = true := rfl

@[simp] theorem State.record_gpr (s : State) (e : Exc) : (s.record e).gpr = s.gpr := rfl
@[simp] theorem State.record_eip (s : State) (e : Exc) : (s.record e).eip = s.eip := rfl
@[simp] theorem State.record_npc (s : State) (e : Exc) : (s.record e).npc = s.npc := rfl
@[simp] theorem State.record_seg (s : State) (e : Exc) : (s.record e).seg = s.seg := rfl
@[simp] theorem State.record_gdtr (s : State) (e : Exc) : (s.record e).gdtr = s.gdtr := rfl
@[simp] theorem State.record_idtr (s : State) (e : Exc) : (s.record e).idtr = s.idtr := rfl
@[simp] theorem State.record_ldtr (s : State) (e : Exc) : (s.record e).ldtr = s.ldtr := rfl
@[simp] theorem State.record_tr (s : State) (e : Exc) : (s.record e).tr = s.tr := rfl
@[simp] theorem State.record_cr0 (s : State) (e : Exc) : (s.record e).cr0 = s.cr0 := rfl
@[simp] theorem State.record_cr3 (s : State) (e : Exc) : (s.record e).cr3 = s.cr3 := rfl
@[simp] theorem State.record_cr4 (s : State) (e : Exc) : (s.record e).cr4 = s.cr4 := rfl
@[simp] theorem State.record_pdpte0 (s : State) (e : Exc) : (s.record e).pdpte0 = s.pdpte0 := rfl
@[simp] theorem State.record_pdpte1 (s : State) (e : Exc) : (s.record e).pdpte1 = s.pdpte1 := rfl
@[simp] theorem State.record_pdpte2 (s : State) (e : Exc) : (s.record e).pdpte2 = s.pdpte2 := rfl
@[simp] theorem State.record_pdpte3 (s : State) (e : Exc) : (s.record e).pdpte3 = s.pdpte3 := rfl
@[simp] theorem State.record_dr0 (s : State) (e : Exc) : (s.record e).dr0 = s.dr0 := rfl
@[simp] theorem State.record_dr1 (s : State) (e : Exc) : (s.record e).dr1 = s.dr1 := rfl
@[simp] theorem State.record_dr2 (s : State) (e : Exc) : (s.record e).dr2 = s.dr2 := rfl
@[simp] theorem State.record_dr3 (s : State) (e : Exc) : (s.record e).dr3 = s.dr3 := rfl
@[simp] theorem State.record_cpl (s : State) (e : Exc) : (s.record e).cpl = s.cpl := rfl
@[simp] theorem State.record_tsc (s : State) (e : Exc) : (s.record e).tsc = s.tsc := rfl
@[simp] theorem State.record_pmc0 (s : State) (e : Exc) : (s.record e).pmc0 = s.pmc0 := rfl
@[simp] theorem State.record_pmc1 (s : State) (e : Exc) : (s.record e).pmc1 = s.pmc1 := rfl
@[simp] theorem State.record_msrs (s : State) (e : Exc) : (s.record e).msrs = s.msrs := rfl
@[simp] theorem State.record_fpu (s : State) (e : Exc) : (s.record e).fpu = s.fpu := rfl
@[simp] theorem State.record_shadow (s : State) (e : Exc) : (s.record e).shadow = s.shadow := rfl
@[simp] theorem State.record_activity (s : State) (e : Exc) : (s.record e).activity = s.activity := rfl
@[simp] theorem State.record_nmiBlocked (s : State) (e : Exc) : (s.record e).nmiBlocked = s.nmiBlocked := rfl
@[simp] theorem State.record_tlb (s : State) (e : Exc) : (s.record e).tlb = s.tlb := rfl
@[simp] theorem State.record_nmiPending (s : State) (e : Exc) : (s.record e).nmiPending = s.nmiPending := rfl
@[simp] theorem State.record_intrPending (s : State) (e : Exc) : (s.record e).intrPending = s.intrPending := rfl
@[simp] theorem State.record_map (s : State) (e : Exc) : (s.record e).map = s.map := rfl
@[simp] theorem State.record_ioLog (s : State) (e : Exc) : (s.record e).ioLog = s.ioLog := rfl
@[simp] theorem State.record_adLog (s : State) (e : Exc) : (s.record e).adLog = s.adLog := rfl
@[simp] theorem State.record_dbgHits (s : State) (e : Exc) : (s.record e).dbgHits = s.dbgHits := rfl
@[simp] theorem State.record_pfx (s : State) (e : Exc) : (s.record e).pfx = s.pfx := rfl
@[simp] theorem State.record_opBytes (s : State) (e : Exc) : (s.record e).opBytes = s.opBytes := rfl
@[simp] theorem State.record_interrupted (s : State) (e : Exc) : (s.record e).interrupted = s.interrupted := rfl
@[simp] theorem State.record_rfKept (s : State) (e : Exc) : (s.record e).rfKept = s.rfKept := rfl
@[simp] theorem State.record_deferred (s : State) (e : Exc) : (s.record e).deferred = s.deferred := rfl
@[simp] theorem State.record_fresh (s : State) (e : Exc) : (s.record e).fresh = s.fresh := rfl
@[simp] theorem State.record_mem (s : State) (e : Exc) : (s.record e).mem = s.mem := rfl
@[simp] theorem State.record_flags (s : State) (e : Exc) : (s.record e).flags = e.flags.getD s.flags := rfl
@[simp] theorem State.record_cr2 (s : State) (e : Exc) : (s.record e).cr2 = e.cr2.getD s.cr2 := rfl
@[simp] theorem State.record_dr6 (s : State) (e : Exc) : (s.record e).dr6 = (s.dr6 ||| e.dr6) := rfl

@[simp] theorem State.begin_gpr (s : State) : (s.begin).gpr = s.gpr := rfl
@[simp] theorem State.begin_eip (s : State) : (s.begin).eip = s.eip := rfl
@[simp] theorem State.begin_npc (s : State) : (s.begin).npc = s.npc := rfl
@[simp] theorem State.begin_flags (s : State) : (s.begin).flags = s.flags := rfl
@[simp] theorem State.begin_seg (s : State) : (s.begin).seg = s.seg := rfl
@[simp] theorem State.begin_gdtr (s : State) : (s.begin).gdtr = s.gdtr := rfl
@[simp] theorem State.begin_idtr (s : State) : (s.begin).idtr = s.idtr := rfl
@[simp] theorem State.begin_ldtr (s : State) : (s.begin).ldtr = s.ldtr := rfl
@[simp] theorem State.begin_tr (s : State) : (s.begin).tr = s.tr := rfl
@[simp] theorem State.begin_cr0 (s : State) : (s.begin).cr0 = s.cr0 := rfl
@[simp] theorem State.begin_cr2 (s : State) : (s.begin).cr2 = s.cr2 := rfl
@[simp] theorem State.begin_cr3 (s : State) : (s.begin).cr3 = s.cr3 := rfl
@[simp] theorem State.begin_cr4 (s : State) : (s.begin).cr4 = s.cr4 := rfl
@[simp] theorem State.begin_pdpte0 (s : State) : (s.begin).pdpte0 = s.pdpte0 := rfl
@[simp] theorem State.begin_pdpte1 (s : State) : (s.begin).pdpte1 = s.pdpte1 := rfl
@[simp] theorem State.begin_pdpte2 (s : State) : (s.begin).pdpte2 = s.pdpte2 := rfl
@[simp] theorem State.begin_pdpte3 (s : State) : (s.begin).pdpte3 = s.pdpte3 := rfl
@[simp] theorem State.begin_dr0 (s : State) : (s.begin).dr0 = s.dr0 := rfl
@[simp] theorem State.begin_dr1 (s : State) : (s.begin).dr1 = s.dr1 := rfl
@[simp] theorem State.begin_dr2 (s : State) : (s.begin).dr2 = s.dr2 := rfl
@[simp] theorem State.begin_dr3 (s : State) : (s.begin).dr3 = s.dr3 := rfl
@[simp] theorem State.begin_dr6 (s : State) : (s.begin).dr6 = s.dr6 := rfl
@[simp] theorem State.begin_dr7 (s : State) : (s.begin).dr7 = s.dr7 := rfl
@[simp] theorem State.begin_cpl (s : State) : (s.begin).cpl = s.cpl := rfl
@[simp] theorem State.begin_tsc (s : State) : (s.begin).tsc = s.tsc := rfl
@[simp] theorem State.begin_pmc0 (s : State) : (s.begin).pmc0 = s.pmc0 := rfl
@[simp] theorem State.begin_pmc1 (s : State) : (s.begin).pmc1 = s.pmc1 := rfl
@[simp] theorem State.begin_msrs (s : State) : (s.begin).msrs = s.msrs := rfl
@[simp] theorem State.begin_fpu (s : State) : (s.begin).fpu = s.fpu := rfl
@[simp] theorem State.begin_shadow (s : State) : (s.begin).shadow = s.shadow := rfl
@[simp] theorem State.begin_activity (s : State) : (s.begin).activity = s.activity := rfl
@[simp] theorem State.begin_nmiBlocked (s : State) : (s.begin).nmiBlocked = s.nmiBlocked := rfl
@[simp] theorem State.begin_tlb (s : State) : (s.begin).tlb = s.tlb := rfl
@[simp] theorem State.begin_nmiPending (s : State) : (s.begin).nmiPending = s.nmiPending := rfl
@[simp] theorem State.begin_intrPending (s : State) : (s.begin).intrPending = s.intrPending := rfl
@[simp] theorem State.begin_map (s : State) : (s.begin).map = s.map := rfl
@[simp] theorem State.begin_ioLog (s : State) : (s.begin).ioLog = s.ioLog := rfl
@[simp] theorem State.begin_opBytes (s : State) : (s.begin).opBytes = s.opBytes := rfl
@[simp] theorem State.begin_fresh (s : State) : (s.begin).fresh = s.fresh := rfl
@[simp] theorem State.begin_mem (s : State) : (s.begin).mem = s.mem := rfl
@[simp] theorem State.begin_pfx (s : State) : (s.begin).pfx = Pfx.clear := rfl
@[simp] theorem State.begin_adLog (s : State) : (s.begin).adLog = [] := rfl
@[simp] theorem State.begin_interrupted (s : State) : (s.begin).interrupted = false := rfl
@[simp] theorem State.begin_rfKept (s : State) : (s.begin).rfKept = false := rfl
@[simp] theorem State.begin_deferred (s : State) : (s.begin).deferred = none := rfl

@[simp] theorem State.tick_gpr (s : State) : (s.tick).gpr = s.gpr := rfl
@[simp] theorem State.tick_eip (s : State) : (s.tick).eip = s.eip := rfl
@[simp] theorem State.tick_npc (s : State) : (s.tick).npc = s.npc := rfl
@[simp] theorem State.tick_flags (s : State) : (s.tick).flags = s.flags := rfl
@[simp] theorem State.tick_seg (s : State) : (s.tick).seg = s.seg := rfl
@[simp] theorem State.tick_gdtr (s : State) : (s.tick).gdtr = s.gdtr := rfl
@[simp] theorem State.tick_idtr (s : State) : (s.tick).idtr = s.idtr := rfl
@[simp] theorem State.tick_ldtr (s : State) : (s.tick).ldtr = s.ldtr := rfl
@[simp] theorem State.tick_tr (s : State) : (s.tick).tr = s.tr := rfl
@[simp] theorem State.tick_cr0 (s : State) : (s.tick).cr0 = s.cr0 := rfl
@[simp] theorem State.tick_cr2 (s : State) : (s.tick).cr2 = s.cr2 := rfl
@[simp] theorem State.tick_cr3 (s : State) : (s.tick).cr3 = s.cr3 := rfl
@[simp] theorem State.tick_cr4 (s : State) : (s.tick).cr4 = s.cr4 := rfl
@[simp] theorem State.tick_pdpte0 (s : State) : (s.tick).pdpte0 = s.pdpte0 := rfl
@[simp] theorem State.tick_pdpte1 (s : State) : (s.tick).pdpte1 = s.pdpte1 := rfl
@[simp] theorem State.tick_pdpte2 (s : State) : (s.tick).pdpte2 = s.pdpte2 := rfl
@[simp] theorem State.tick_pdpte3 (s : State) : (s.tick).pdpte3 = s.pdpte3 := rfl
@[simp] theorem State.tick_dr0 (s : State) : (s.tick).dr0 = s.dr0 := rfl
@[simp] theorem State.tick_dr1 (s : State) : (s.tick).dr1 = s.dr1 := rfl
@[simp] theorem State.tick_dr2 (s : State) : (s.tick).dr2 = s.dr2 := rfl
@[simp] theorem State.tick_dr3 (s : State) : (s.tick).dr3 = s.dr3 := rfl
@[simp] theorem State.tick_dr6 (s : State) : (s.tick).dr6 = s.dr6 := rfl
@[simp] theorem State.tick_dr7 (s : State) : (s.tick).dr7 = s.dr7 := rfl
@[simp] theorem State.tick_cpl (s : State) : (s.tick).cpl = s.cpl := rfl
@[simp] theorem State.tick_msrs (s : State) : (s.tick).msrs = s.msrs := rfl
@[simp] theorem State.tick_fpu (s : State) : (s.tick).fpu = s.fpu := rfl
@[simp] theorem State.tick_shadow (s : State) : (s.tick).shadow = s.shadow := rfl
@[simp] theorem State.tick_activity (s : State) : (s.tick).activity = s.activity := rfl
@[simp] theorem State.tick_nmiBlocked (s : State) : (s.tick).nmiBlocked = s.nmiBlocked := rfl
@[simp] theorem State.tick_tlb (s : State) : (s.tick).tlb = s.tlb := rfl
@[simp] theorem State.tick_nmiPending (s : State) : (s.tick).nmiPending = s.nmiPending := rfl
@[simp] theorem State.tick_intrPending (s : State) : (s.tick).intrPending = s.intrPending := rfl
@[simp] theorem State.tick_map (s : State) : (s.tick).map = s.map := rfl
@[simp] theorem State.tick_ioLog (s : State) : (s.tick).ioLog = s.ioLog := rfl
@[simp] theorem State.tick_adLog (s : State) : (s.tick).adLog = s.adLog := rfl
@[simp] theorem State.tick_dbgHits (s : State) : (s.tick).dbgHits = s.dbgHits := rfl
@[simp] theorem State.tick_pfx (s : State) : (s.tick).pfx = s.pfx := rfl
@[simp] theorem State.tick_opBytes (s : State) : (s.tick).opBytes = s.opBytes := rfl
@[simp] theorem State.tick_interrupted (s : State) : (s.tick).interrupted = s.interrupted := rfl
@[simp] theorem State.tick_rfKept (s : State) : (s.tick).rfKept = s.rfKept := rfl
@[simp] theorem State.tick_deferred (s : State) : (s.tick).deferred = s.deferred := rfl
@[simp] theorem State.tick_mem (s : State) : (s.tick).mem = s.mem := rfl
@[simp] theorem State.tick_fresh (s : State) : (s.tick).fresh = s.fresh + 1 := rfl

@[simp] theorem State.rollback_gpr (s : State) (t : State) : (s.rollback t).gpr = s.gpr := rfl
@[simp] theorem State.rollback_eip (s : State) (t : State) : (s.rollback t).eip = s.eip := rfl
@[simp] theorem State.rollback_npc (s : State) (t : State) : (s.rollback t).npc = s.npc := rfl
@[simp] theorem State.rollback_flags (s : State) (t : State) : (s.rollback t).flags = s.flags := rfl
@[simp] theorem State.rollback_seg (s : State) (t : State) : (s.rollback t).seg = s.seg := rfl
@[simp] theorem State.rollback_gdtr (s : State) (t : State) : (s.rollback t).gdtr = s.gdtr := rfl
@[simp] theorem State.rollback_idtr (s : State) (t : State) : (s.rollback t).idtr = s.idtr := rfl
@[simp] theorem State.rollback_ldtr (s : State) (t : State) : (s.rollback t).ldtr = s.ldtr := rfl
@[simp] theorem State.rollback_tr (s : State) (t : State) : (s.rollback t).tr = s.tr := rfl
@[simp] theorem State.rollback_cr0 (s : State) (t : State) : (s.rollback t).cr0 = s.cr0 := rfl
@[simp] theorem State.rollback_cr2 (s : State) (t : State) : (s.rollback t).cr2 = s.cr2 := rfl
@[simp] theorem State.rollback_cr3 (s : State) (t : State) : (s.rollback t).cr3 = s.cr3 := rfl
@[simp] theorem State.rollback_cr4 (s : State) (t : State) : (s.rollback t).cr4 = s.cr4 := rfl
@[simp] theorem State.rollback_pdpte0 (s : State) (t : State) : (s.rollback t).pdpte0 = s.pdpte0 := rfl
@[simp] theorem State.rollback_pdpte1 (s : State) (t : State) : (s.rollback t).pdpte1 = s.pdpte1 := rfl
@[simp] theorem State.rollback_pdpte2 (s : State) (t : State) : (s.rollback t).pdpte2 = s.pdpte2 := rfl
@[simp] theorem State.rollback_pdpte3 (s : State) (t : State) : (s.rollback t).pdpte3 = s.pdpte3 := rfl
@[simp] theorem State.rollback_dr0 (s : State) (t : State) : (s.rollback t).dr0 = s.dr0 := rfl
@[simp] theorem State.rollback_dr1 (s : State) (t : State) : (s.rollback t).dr1 = s.dr1 := rfl
@[simp] theorem State.rollback_dr2 (s : State) (t : State) : (s.rollback t).dr2 = s.dr2 := rfl
@[simp] theorem State.rollback_dr3 (s : State) (t : State) : (s.rollback t).dr3 = s.dr3 := rfl
@[simp] theorem State.rollback_dr6 (s : State) (t : State) : (s.rollback t).dr6 = s.dr6 := rfl
@[simp] theorem State.rollback_dr7 (s : State) (t : State) : (s.rollback t).dr7 = s.dr7 := rfl
@[simp] theorem State.rollback_cpl (s : State) (t : State) : (s.rollback t).cpl = s.cpl := rfl
@[simp] theorem State.rollback_tsc (s : State) (t : State) : (s.rollback t).tsc = s.tsc := rfl
@[simp] theorem State.rollback_pmc0 (s : State) (t : State) : (s.rollback t).pmc0 = s.pmc0 := rfl
@[simp] theorem State.rollback_pmc1 (s : State) (t : State) : (s.rollback t).pmc1 = s.pmc1 := rfl
@[simp] theorem State.rollback_msrs (s : State) (t : State) : (s.rollback t).msrs = s.msrs := rfl
@[simp] theorem State.rollback_fpu (s : State) (t : State) : (s.rollback t).fpu = s.fpu := rfl
@[simp] theorem State.rollback_shadow (s : State) (t : State) : (s.rollback t).shadow = s.shadow := rfl
@[simp] theorem State.rollback_activity (s : State) (t : State) : (s.rollback t).activity = s.activity := rfl
@[simp] theorem State.rollback_nmiBlocked (s : State) (t : State) : (s.rollback t).nmiBlocked = s.nmiBlocked := rfl
@[simp] theorem State.rollback_nmiPending (s : State) (t : State) : (s.rollback t).nmiPending = s.nmiPending := rfl
@[simp] theorem State.rollback_intrPending (s : State) (t : State) : (s.rollback t).intrPending = s.intrPending := rfl
@[simp] theorem State.rollback_map (s : State) (t : State) : (s.rollback t).map = s.map := rfl
@[simp] theorem State.rollback_dbgHits (s : State) (t : State) : (s.rollback t).dbgHits = s.dbgHits := rfl
@[simp] theorem State.rollback_pfx (s : State) (t : State) : (s.rollback t).pfx = s.pfx := rfl
@[simp] theorem State.rollback_opBytes (s : State) (t : State) : (s.rollback t).opBytes = s.opBytes := rfl
@[simp] theorem State.rollback_interrupted (s : State) (t : State) : (s.rollback t).interrupted = s.interrupted := rfl
@[simp] theorem State.rollback_rfKept (s : State) (t : State) : (s.rollback t).rfKept = s.rfKept := rfl
@[simp] theorem State.rollback_deferred (s : State) (t : State) : (s.rollback t).deferred = s.deferred := rfl
@[simp] theorem State.rollback_tlb (s : State) (t : State) : (s.rollback t).tlb = t.tlb := rfl
@[simp] theorem State.rollback_fresh (s : State) (t : State) : (s.rollback t).fresh = t.fresh := rfl
@[simp] theorem State.rollback_adLog (s : State) (t : State) : (s.rollback t).adLog = [] := rfl

/-! ## The FPU -/

@[simp] theorem Fpu.setTop_r0 (f : Fpu) (t : BitVec 3) : (f.setTop t).r0 = f.r0 := rfl
@[simp] theorem Fpu.setTop_r1 (f : Fpu) (t : BitVec 3) : (f.setTop t).r1 = f.r1 := rfl
@[simp] theorem Fpu.setTop_r2 (f : Fpu) (t : BitVec 3) : (f.setTop t).r2 = f.r2 := rfl
@[simp] theorem Fpu.setTop_r3 (f : Fpu) (t : BitVec 3) : (f.setTop t).r3 = f.r3 := rfl
@[simp] theorem Fpu.setTop_r4 (f : Fpu) (t : BitVec 3) : (f.setTop t).r4 = f.r4 := rfl
@[simp] theorem Fpu.setTop_r5 (f : Fpu) (t : BitVec 3) : (f.setTop t).r5 = f.r5 := rfl
@[simp] theorem Fpu.setTop_r6 (f : Fpu) (t : BitVec 3) : (f.setTop t).r6 = f.r6 := rfl
@[simp] theorem Fpu.setTop_r7 (f : Fpu) (t : BitVec 3) : (f.setTop t).r7 = f.r7 := rfl
@[simp] theorem Fpu.setTop_tags (f : Fpu) (t : BitVec 3) : (f.setTop t).tags = f.tags := rfl
@[simp] theorem Fpu.setTop_fipSel (f : Fpu) (t : BitVec 3) : (f.setTop t).fipSel = f.fipSel := rfl
@[simp] theorem Fpu.setTop_fip (f : Fpu) (t : BitVec 3) : (f.setTop t).fip = f.fip := rfl
@[simp] theorem Fpu.setTop_fdpSel (f : Fpu) (t : BitVec 3) : (f.setTop t).fdpSel = f.fdpSel := rfl
@[simp] theorem Fpu.setTop_fdp (f : Fpu) (t : BitVec 3) : (f.setTop t).fdp = f.fdp := rfl
@[simp] theorem Fpu.setTop_fop (f : Fpu) (t : BitVec 3) : (f.setTop t).fop = f.fop := rfl
@[simp] theorem Fpu.setTop_ferr (f : Fpu) (t : BitVec 3) : (f.setTop t).ferr = f.ferr := rfl

@[simp] theorem Fpu.withC1_r0 (f : Fpu) (b : Bool) : (f.withC1 b).r0 = f.r0 := rfl
@[simp] theorem Fpu.withC1_r1 (f : Fpu) (b : Bool) : (f.withC1 b).r1 = f.r1 := rfl
@[simp] theorem Fpu.withC1_r2 (f : Fpu) (b : Bool) : (f.withC1 b).r2 = f.r2 := rfl
@[simp] theorem Fpu.withC1_r3 (f : Fpu) (b : Bool) : (f.withC1 b).r3 = f.r3 := rfl
@[simp] theorem Fpu.withC1_r4 (f : Fpu) (b : Bool) : (f.withC1 b).r4 = f.r4 := rfl
@[simp] theorem Fpu.withC1_r5 (f : Fpu) (b : Bool) : (f.withC1 b).r5 = f.r5 := rfl
@[simp] theorem Fpu.withC1_r6 (f : Fpu) (b : Bool) : (f.withC1 b).r6 = f.r6 := rfl
@[simp] theorem Fpu.withC1_r7 (f : Fpu) (b : Bool) : (f.withC1 b).r7 = f.r7 := rfl
@[simp] theorem Fpu.withC1_cw (f : Fpu) (b : Bool) : (f.withC1 b).cw = f.cw := rfl
@[simp] theorem Fpu.withC1_tags (f : Fpu) (b : Bool) : (f.withC1 b).tags = f.tags := rfl
@[simp] theorem Fpu.withC1_fipSel (f : Fpu) (b : Bool) : (f.withC1 b).fipSel = f.fipSel := rfl
@[simp] theorem Fpu.withC1_fip (f : Fpu) (b : Bool) : (f.withC1 b).fip = f.fip := rfl
@[simp] theorem Fpu.withC1_fdpSel (f : Fpu) (b : Bool) : (f.withC1 b).fdpSel = f.fdpSel := rfl
@[simp] theorem Fpu.withC1_fdp (f : Fpu) (b : Bool) : (f.withC1 b).fdp = f.fdp := rfl
@[simp] theorem Fpu.withC1_fop (f : Fpu) (b : Bool) : (f.withC1 b).fop = f.fop := rfl
@[simp] theorem Fpu.withC1_ferr (f : Fpu) (b : Bool) : (f.withC1 b).ferr = f.ferr := rfl

@[simp] theorem Fpu.withC320_r0 (f : Fpu) (c3 c2 c0 : Bool) : (f.withC320 c3 c2 c0).r0 = f.r0 := rfl
@[simp] theorem Fpu.withC320_r1 (f : Fpu) (c3 c2 c0 : Bool) : (f.withC320 c3 c2 c0).r1 = f.r1 := rfl
@[simp] theorem Fpu.withC320_r2 (f : Fpu) (c3 c2 c0 : Bool) : (f.withC320 c3 c2 c0).r2 = f.r2 := rfl
@[simp] theorem Fpu.withC320_r3 (f : Fpu) (c3 c2 c0 : Bool) : (f.withC320 c3 c2 c0).r3 = f.r3 := rfl
@[simp] theorem Fpu.withC320_r4 (f : Fpu) (c3 c2 c0 : Bool) : (f.withC320 c3 c2 c0).r4 = f.r4 := rfl
@[simp] theorem Fpu.withC320_r5 (f : Fpu) (c3 c2 c0 : Bool) : (f.withC320 c3 c2 c0).r5 = f.r5 := rfl
@[simp] theorem Fpu.withC320_r6 (f : Fpu) (c3 c2 c0 : Bool) : (f.withC320 c3 c2 c0).r6 = f.r6 := rfl
@[simp] theorem Fpu.withC320_r7 (f : Fpu) (c3 c2 c0 : Bool) : (f.withC320 c3 c2 c0).r7 = f.r7 := rfl
@[simp] theorem Fpu.withC320_cw (f : Fpu) (c3 c2 c0 : Bool) : (f.withC320 c3 c2 c0).cw = f.cw := rfl
@[simp] theorem Fpu.withC320_tags (f : Fpu) (c3 c2 c0 : Bool) : (f.withC320 c3 c2 c0).tags = f.tags := rfl
@[simp] theorem Fpu.withC320_fipSel (f : Fpu) (c3 c2 c0 : Bool) : (f.withC320 c3 c2 c0).fipSel = f.fipSel := rfl
@[simp] theorem Fpu.withC320_fip (f : Fpu) (c3 c2 c0 : Bool) : (f.withC320 c3 c2 c0).fip = f.fip := rfl
@[simp] theorem Fpu.withC320_fdpSel (f : Fpu) (c3 c2 c0 : Bool) : (f.withC320 c3 c2 c0).fdpSel = f.fdpSel := rfl
@[simp] theorem Fpu.withC320_fdp (f : Fpu) (c3 c2 c0 : Bool) : (f.withC320 c3 c2 c0).fdp = f.fdp := rfl
@[simp] theorem Fpu.withC320_fop (f : Fpu) (c3 c2 c0 : Bool) : (f.withC320 c3 c2 c0).fop = f.fop := rfl
@[simp] theorem Fpu.withC320_ferr (f : Fpu) (c3 c2 c0 : Bool) : (f.withC320 c3 c2 c0).ferr = f.ferr := rfl

end Sys2Proof.Machine
end

