-- ==== Sys2Proof/Laws/Walk.lean ====
section
/-! SUPPORT. What translation and checked accesses change: `Walked`. One lemma per operation. -/

namespace Sys2Proof.Machine

variable {α β : Type}

theorem Walked.refl (s : State) : Walked s s :=
  ⟨rfl, id, fun _ _ _ => rfl, fun _ => ⟨rfl, fun _ _ _ => rfl⟩, fun _ => ⟨rfl, fun _ => rfl⟩⟩

theorem Walked.pg {s t : State} (h : Walked s t) : t.cr0Pg = s.cr0Pg := by rw [h.rest]; rfl

theorem Walked.map_eq {s t : State} (h : Walked s t) : t.map = s.map := by rw [h.rest]

theorem Walked.isRam {s t : State} (h : Walked s t) (a : Nat) : t.isRam a = s.isRam a := by rw [h.rest]; rfl

theorem Walked.trans {a b c : State} (h : Walked a b) (k : Walked b c) : Walked a c := by
  refine ⟨?_, fun x => k.wf (h.wf x), fun x y z => (k.bits (h.wf x) y (by rw [h.isRam]; exact z)).trans (h.bits x y z),
    fun x => ?_, fun x => ?_⟩
  · have hr := k.rest
    rw [h.rest] at hr
    exact hr
  · have h1 := h.flat x
    have h2 := k.flat (by rw [h.pg]; exact x)
    exact ⟨h2.1.trans h1.1, fun w y z => (h2.2 (h.wf w) y (by rw [h.isRam]; exact z)).trans (h1.2 w y z)⟩
  · have h1 := h.ram x
    have h2 := k.ram (by rw [h.map_eq]; exact x)
    exact ⟨h2.1.trans h1.1, fun y => (h2.2 (by rw [h.pg]; exact y)).trans (h1.2 y)⟩

/-- The result of a computation, where it gives one. -/
def M.Walks (m : M α) : Prop := ∀ s a t, m s = .ok a t → Walked s t

theorem walks_pure (a : α) : M.Walks (pure a) := by intro s b t h; cases h; exact .refl s
theorem walks_get : M.Walks (get : M State) := by intro s b t h; cases h; exact .refl s
theorem walks_raise (e : Exc) : M.Walks (raise e : M α) := by intro s b t h; cases h
theorem walks_raiseIf (c : Bool) (e : Exc) : M.Walks (raiseIf c e) := by
  cases c
  · exact walks_pure ()
  · exact walks_raise e

theorem walks_bind {m : M α} {f : α → M β} (hm : M.Walks m) (hf : ∀ a, M.Walks (f a)) : M.Walks (m >>= f) := by
  intro s b t h
  rw [M.bind_run] at h
  cases hx : m s with
  | ok a u => rw [hx] at h; exact (hm s a u hx).trans (hf a u b t h)
  | error e u => rw [hx] at h; cases h

theorem walks_map {m : M α} {f : α → β} (hm : M.Walks m) : M.Walks (f <$> m) := by
  intro s b t h
  rw [M.map_run] at h
  cases hx : m s with
  | ok a u => rw [hx] at h; cases h; exact hm s a _ hx
  | error e u => rw [hx] at h; cases h

theorem walks_ite {c : Prop} [Decidable c] {a b : M α} (ha : M.Walks a) (hb : M.Walks b) :
    M.Walks (if c then a else b) := by split <;> assumption

/-- A change of the counter of free values and of the breakpoints matched. -/
theorem Walked.of_latches (s : State) (f : Nat) (d : BitVec 4) : Walked s { s with fresh := f, dbgHits := d } :=
  ⟨rfl, id, fun _ _ _ => rfl, fun _ => ⟨rfl, fun _ _ _ => rfl⟩, fun _ => ⟨rfl, fun _ => rfl⟩⟩

/-- A read of bytes, in RAM or not. -/
theorem Walked.of_sampled (s : State) (ps : List Nat) : Walked s (s.sampled ps) := by
  refine ⟨?_, (State.sampled_wf · ps), fun h a ha => by rw [State.sampled_read h ps ha],
    fun _ => ⟨by simp, fun h a ha => State.sampled_read h ps ha⟩, fun h => by rw [State.sampled_allRam h]; exact ⟨rfl, fun _ => rfl⟩⟩
  unfold State.sampled
  dsimp only
  split <;> rfl

theorem walks_sample (ps : List Nat) : M.Walks (sample ps) := by
  intro s a t h; rw [sample_run] at h; cases h; exact .of_sampled s ps

theorem walks_freshNat : M.Walks freshNat := by
  intro s a t h; cases h; exact .of_latches s _ s.dbgHits
theorem walks_freeBit : M.Walks freeBit := walks_bind walks_freshNat fun _ => walks_pure _

/-! ## Translation -/

/-- A computation that walks, where paging is on. -/
def M.WalksPaged (m : M α) : Prop := ∀ s a t, s.cr0Pg = true → m s = .ok a t → Walked s t

theorem M.Walks.paged {m : M α} (h : M.Walks m) : M.WalksPaged m := fun s a t _ k => h s a t k

theorem paged_bind {m : M α} {f : α → M β} (hm : M.WalksPaged m) (hf : ∀ a, M.WalksPaged (f a)) :
    M.WalksPaged (m >>= f) := by
  intro s b t hp h
  rw [M.bind_run] at h
  cases hx : m s with
  | ok a u =>
    rw [hx] at h
    have hu := hm s a u hp hx
    exact hu.trans (hf a u b t (by rw [hu.pg]; exact hp) h)
  | error e u => rw [hx] at h; cases h

theorem paged_ite {c : Prop} [Decidable c] {a b : M α} (ha : M.WalksPaged a) (hb : M.WalksPaged b) :
    M.WalksPaged (if c then a else b) := by split <;> assumption

theorem orMem_paged (pa : Nat) (mask : Byte) (hk : mask &&& 0x9F#8 = 0) : M.WalksPaged (orMem pa mask) := by
  intro s a t hp h
  unfold orMem at h
  simp only [M.bind_run, M.get_run, M.ite_run, M.pure_run, M.set_run] at h
  split at h
  · cases h; exact .refl _
  · cases h
    refine ⟨rfl, fun x => State.stored_wf x _ _, fun x y _ => ?_, fun x => absurd (hp.symm.trans x) (by decide),
      fun x => ⟨by simp [State.stored_allRam x], fun y => absurd (hp.symm.trans y) (by decide)⟩⟩
    change (s.mem.write pa (BitVec.ofNat 8 (s.mem.read pa ||| mask).toNat)).read y &&& _ = _
    rw [BitVec.ofNat_toNat, BitVec.setWidth_eq, Memory.read_write x]
    split
    · rename_i hy
      subst hy
      have e : ∀ b m : Byte, (b ||| m) &&& 0x9F#8 = (b &&& 0x9F#8) ||| (m &&& 0x9F#8) := by
        intro b m; ext i hi; simp only [BitVec.getElem_and, BitVec.getElem_or]; cases b[i] <;> cases m[i] <;> cases (0x9F#8)[i] <;> rfl
      rw [e, hk]
      simp
    · rfl

theorem cacheTlb_paged (e : TlbEntry) : M.WalksPaged (cacheTlb e) := by
  intro s a t hp h
  unfold cacheTlb at h
  rw [M.modify_run] at h
  cases h
  split
  · exact .refl _
  · exact ⟨rfl, id, fun _ _ _ => rfl, fun x => absurd (hp.symm.trans x) (by decide), fun _ => ⟨rfl, fun y => absurd (hp.symm.trans y) (by decide)⟩⟩

theorem readEntry_walks (pa n : Nat) : M.Walks (readEntry pa n) :=
  walks_bind (walks_sample _) fun _ => walks_bind walks_get fun _ => walks_pure _

theorem lookup_walks (la : Nat) : M.Walks (lookup la) := by
  unfold lookup
  repeat' first
    | with_reducible intro _
    | (with_reducible first | refine walks_bind ?_ ?_ | refine walks_ite ?_ ?_)
    | with_reducible exact walks_pure _
    | with_reducible exact walks_get
    | with_reducible exact readEntry_walks _ _
    | dsimp only

theorem walk_paged (la : Dword) (write user : Bool) : M.WalksPaged (walk la write user) := by
  have hm : ∀ l, M.WalksPaged (orMem l (if write then 0x60#8 else 0x20#8)) := fun l =>
    orMem_paged l _ (by cases write <;> decide)
  unfold walk
  refine paged_bind walks_get.paged fun s => paged_bind (lookup_walks _).paged fun r => ?_
  cases r with
  | error e => exact (walks_raise _).paged
  | ok m =>
    refine paged_ite (walks_raise _).paged ?_
    have hk : M.WalksPaged (do
        orMem m.leaf (if write then 0x60#8 else 0x20#8)
        cacheTlb { page := la.toNat >>> m.shift, shift := m.shift, frame := m.frame, user := m.user, write := m.write
                   dirty := m.dirty || write, global := m.global && s.cr4Pge }
        pure (m.frame + pageOffset la.toNat m.shift) : M Nat) :=
      paged_bind (hm _) fun _ => paged_bind (cacheTlb_paged _) fun _ => (walks_pure _).paged
    cases m.upper with
    | none => exact hk
    | some u => exact paged_bind (orMem_paged u _ (by decide)) fun _ => hk

/-- Without paging a linear address is the physical address (20_memory R120). -/
theorem translate_flat {s : State} (hp : s.cr0Pg = false) (la : Dword) (write user : Bool) :
    translate la write user s = .ok la.toNat s := by
  unfold translate
  simp [hp]

theorem translate_walks (la : Dword) (write user : Bool) : M.Walks (translate la write user) := by
  intro s a t h
  cases hp : s.cr0Pg with
  | false => rw [translate_flat hp] at h; cases h; exact .refl _
  | true =>
    unfold translate at h
    rw [M.bind_run, M.get_run] at h
    simp only [hp, Bool.not_true, Bool.false_eq_true, if_false] at h
    cases hc : s.cached la with
    | nil => rw [hc] at h; exact walk_paged _ _ _ _ _ _ hp h
    | cons c cs =>
      rw [hc] at h
      dsimp only at h
      rw [M.bind_run, freshNat_run] at h
      dsimp only at h
      have hl : Walked s { s with fresh := s.fresh + 1 } := .of_latches s _ s.dbgHits
      cases hk : (c :: cs)[Config.tlbChoice s.fresh]? with
      | none => rw [hk] at h; exact hl.trans (walk_paged _ _ _ _ _ _ hp h)
      | some e =>
        rw [hk] at h
        dsimp only at h
        rw [M.ite_run, M.ite_run] at h
        split at h
        · cases h
        · split at h
          · exact hl.trans (walk_paged _ _ _ _ _ _ hp h)
          · cases h; exact hl

theorem physFrom_walks (write user : Bool) : ∀ (n : Nat) (la : Dword) (prev : Option Nat),
    M.Walks (physFrom write user n la prev)
  | 0, _, _ => walks_pure _
  | n + 1, la, prev => by
    have ih := physFrom_walks write user n
    have hk : ∀ pa, M.Walks (do let rest ← physFrom write user n (la + 1) (some pa); pure (pa :: rest)) := fun pa =>
      walks_bind (ih _ _) fun _ => walks_pure _
    unfold physFrom
    cases prev with
    | none => exact walks_bind (translate_walks _ _ _) hk
    | some p => exact walks_ite (walks_bind (translate_walks _ _ _) hk) (walks_bind (walks_pure _) hk)

theorem phys_walks (la : Dword) (n : Nat) (write user : Bool) : M.Walks (phys la n write user) :=
  physFrom_walks write user n la none

theorem loadAt_walks (ps : List Nat) : M.Walks (loadAt ps) := by
  intro s a t h; rw [loadAt_run] at h; cases h; exact .refl s

theorem sysRead_walks (la : Dword) (n : Nat) : M.Walks (sysRead la n) :=
  walks_bind (phys_walks _ _ _ _) fun _ => walks_bind (walks_sample _) fun _ => loadAt_walks _

/-! ## Accesses -/

theorem recordHits_walks (kinds : BitVec 2 → Bool) (x n : Nat) : ∀ k, M.Walks (recordHits kinds x n k)
  | 0 => walks_pure _
  | i + 1 => by
    have ih := recordHits_walks kinds x n i
    have hm : M.Walks (modify fun s : State => { s with dbgHits := s.dbgHits ||| BitVec.ofNat 4 (2 ^ i) }) := by
      intro s a t h; rw [M.modify_run] at h; cases h; exact .of_latches s s.fresh _
    unfold recordHits
    refine walks_bind ih fun _ => walks_bind walks_get fun s => walks_ite ?_ (walks_pure _)
    split
    · exact walks_bind (walks_pure _) fun _ => walks_ite hm (walks_pure _)
    · exact walks_bind walks_freeBit fun _ => walks_ite hm (walks_pure _)

theorem recordData_walks (la : Dword) (n : Nat) (write : Bool) : M.Walks (recordData la n write) :=
  walks_bind walks_get fun _ => walks_ite (walks_pure _) (recordHits_walks _ _ _ _)

/-- An access that passes its checks. -/
theorem access_walks (r : SReg) (off : Dword) (n al : Nat) (k : Acc) : M.Walks (access r off n al k) :=
  walks_bind walks_get fun _ => walks_bind (walks_raiseIf _ _) fun _ => walks_bind (walks_raiseIf _ _) fun _ =>
    walks_bind (walks_raiseIf _ _) fun _ => walks_bind (phys_walks _ _ _ _) fun _ =>
      walks_bind (recordData_walks _ _ _) fun _ =>
        walks_ite (walks_bind (walks_sample _) fun _ => walks_pure _) (walks_bind (walks_pure _) fun _ => walks_pure _)

theorem readSeg_walks (r : SReg) (off : Dword) (n al : Nat) : M.Walks (readSeg r off n al) :=
  walks_bind (access_walks _ _ _ _ _) fun _ => loadAt_walks _

theorem accessEa_walks (a : Ea) (n al : Nat) (k : Acc) : M.Walks (accessEa a n al k) :=
  walks_bind walks_get fun _ => access_walks _ _ _ _ _

theorem readEa_walks (a : Ea) (n al : Nat) : M.Walks (readEa a n al) :=
  walks_bind (accessEa_walks _ _ _ _) fun _ => loadAt_walks _

theorem locate_walks (sz : Sz) (m : Rm) (k : Acc) : M.Walks (locate sz m k) := by
  cases m with
  | reg r => exact walks_pure _
  | mem a => exact walks_bind (accessEa_walks _ _ _ _) fun _ => walks_pure _

theorem readDesc_walks (sel : Word) : M.Walks (readDesc sel) := by
  unfold readDesc
  refine walks_bind walks_get fun s => ?_
  split
  · exact walks_pure _
  · exact walks_bind (sysRead_walks _ _) fun _ => walks_pure _

/-! ## Fetching -/

theorem fetchByte_walks (off : Dword) (prev : Option Nat) : M.Walks (fetchByte off prev) := by
  have hk : ∀ pa : Nat, M.Walks (do sample [pa]; let s ← get; pure (s.mem.read pa, pa) : M (Byte × Nat)) := fun pa =>
    walks_bind (walks_sample _) fun _ => walks_bind walks_get fun _ => walks_pure _
  unfold fetchByte
  refine walks_bind walks_get fun s => walks_bind (walks_raiseIf _ _) fun _ => ?_
  cases prev with
  | none => exact walks_bind (translate_walks _ _ _) hk
  | some p => exact walks_ite (walks_bind (translate_walks _ _ _) hk) (walks_bind (walks_pure _) hk)

theorem fetchN_walks : ∀ (n : Nat) (off : Dword) (prev : Option Nat), M.Walks (fetchN n off prev)
  | 0, _, _ => walks_pure _
  | n + 1, _, _ => walks_bind (fetchByte_walks _ _) fun _ => fetchN_walks n _ _

/-- Committing a fetch changes what a walk changes, and the address of the next instruction. -/
theorem fetchCommit_walked (n : Nat) (s : State) : ∃ t, Walked s t ∧
    fetchCommit n s = { t with npc := s.eip + BitVec.ofNat 32 n, adLog := (fetchCommit n s).adLog } := by
  unfold fetchCommit
  cases h : fetchN n s.eip none s with
  | ok a t => exact ⟨t, fetchN_walks _ _ _ _ _ _ h, rfl⟩
  | error e t => exact ⟨s, .refl s, rfl⟩

end Sys2Proof.Machine
end

