-- ==== Sys2Proof/Laws/Effects.lean ====
section
/-! SUPPORT. What the shared operations of the integer instructions do when they succeed, one equation each, and how a
meaning that succeeds ends its instruction. -/

namespace Sys2Proof.Machine

theorem runWith_ok {lockable : Bool} {rep : RepUse} {m : M Unit} {s t : State}
    (hl : s.pfx.lock = true → lockable = true) (hr : rep.allows s.pfx.rep = true) (h : m s = .ok () t) :
    runWith lockable rep m s = .next t.retire := by
  have hc : (s.pfx.lock && !lockable) = false := by
    cases hx : s.pfx.lock
    · rfl
    · rw [hl hx]; rfl
  unfold runWith
  rw [hc, hr, h]
  rfl

theorem run_ok {m : M Unit} {s t : State} (hp : s.plain) (h : m s = .ok () t) : run m s = .next t.retire :=
  runWith_ok (fun hl => by rw [hp.1] at hl; cases hl) (by rw [hp.2]; rfl) h

theorem runLock_ok {d : Rm} {m : M Unit} {s t : State} (hr : s.pfx.rep = .none) (hl : lockFits s true d)
    (h : m s = .ok () t) : runLock d m s = .next t.retire :=
  runWith_ok (fun hx => (hl hx).2) (by rw [hr]; rfl) h

@[simp] theorem Loc.read_run (sz : Sz) (l : Loc) (s : State) : l.read sz s = .ok (l.value sz s) s := by
  cases l <;> simp [Loc.read, Loc.value]

@[simp] theorem Loc.write_run (sz : Sz) (l : Loc) (v : BitVec sz.bits) (s : State) :
    l.write sz v s = .ok () (l.put sz v s) := by
  cases l <;> simp [Loc.write, Loc.put]

theorem readRm_run {sz : Sz} {m : Rm} {l : Loc} {s s1 : State} (h : locate sz m .r s = .ok l s1) :
    readRm sz m s = .ok (l.value sz s1) s1 := by
  simp [readRm, h]

theorem writeRm_run {sz : Sz} {m : Rm} {l : Loc} {s s1 : State} (v : BitVec sz.bits)
    (h : locate sz m .w s = .ok l s1) : writeRm sz m v s = .ok () (l.put sz v s1) := by
  simp [writeRm, h]

/-- An operation on two operands that always succeeds, with the effect `e`. -/
def BinOp.does (op : BinOp) (e : Effect2) : Prop :=
  ∀ (sz : Sz) (a b : BitVec sz.bits) (s : State), op sz a b s = .ok (e s a b).2 (e s a b).1

theorem addOp_does (c : Bool) : BinOp.does (addOp c) (addEffect c) := fun _ _ _ _ => by
  simp [addOp, addEffect]
theorem subOp_does (c : Bool) : BinOp.does (subOp c) (subEffect c) := fun _ _ _ _ => by
  simp [subOp, subEffect]
theorem logicOp_does (g : {w : Nat} → BitVec w → BitVec w → BitVec w) : BinOp.does (logicOp g) (logicEffect g) :=
  fun _ _ _ _ => by simp [logicOp, logicEffect]

theorem binRm_run {w : Bool} {op : BinOp} {e : Effect2} (ho : BinOp.does op e) {sz : Sz} {d : Rm} {b : BitVec sz.bits}
    {l : Loc} {s s1 : State} (h : locate sz d (useOf w) s = .ok l s1) :
    binRm w op sz d b s = .ok () (l.putIf w sz (e s1 (l.value sz s1) b)) := by
  cases w <;> simp [binRm, h, ho sz _ _ _, Loc.putIf]

theorem binReg_run {w : Bool} {op : BinOp} {e : Effect2} (ho : BinOp.does op e) {sz : Sz} {r : Reg} {b : BitVec sz.bits}
    {s : State} : binReg w op sz r b s = .ok () ((Loc.reg r).putIf w sz (e s (s.reg sz r) b)) := by
  cases w <;> simp [binReg, ho sz _ _ _, Loc.putIf, Loc.put]

/-! ## Finding an operand leaves the registers -/

theorem locate_gpr {sz : Sz} {m : Rm} {k : Acc} {l : Loc} {s s1 : State} (h : locate sz m k s = .ok l s1) :
    s1.gpr = s.gpr := by
  rw [(locate_walks sz m k s l s1 h).rest]

theorem locate_flags {sz : Sz} {m : Rm} {k : Acc} {l : Loc} {s s1 : State} (h : locate sz m k s = .ok l s1) :
    s1.flags = s.flags := by
  rw [(locate_walks sz m k s l s1 h).rest]

theorem locate_reg {sz : Sz} {m : Rm} {k : Acc} {l : Loc} {s s1 : State} (h : locate sz m k s = .ok l s1) (z : Sz)
    (r : Reg) : s1.reg z r = s.reg z r := by
  unfold State.reg; rw [locate_gpr h]

theorem locate_wideAcc {sz : Sz} {m : Rm} {k : Acc} {l : Loc} {s s1 : State} (h : locate sz m k s = .ok l s1) (z : Sz) :
    s1.wideAcc z = s.wideAcc z := by
  unfold State.wideAcc State.reg; rw [locate_gpr h]

/-! ## One operand, and the wide accumulator -/

theorem unRm_run {op : UnOp} {e : Effect1}
    (ho : ∀ (sz : Sz) (a : BitVec sz.bits) s, op sz a s = .ok (e s a).2 (e s a).1) {sz : Sz} {d : Rm} {l : Loc}
    {s s1 : State} (h : locate sz d .rw s = .ok l s1) :
    unRm op sz d s = .ok () (l.putIf true sz (e s1 (l.value sz s1))) := by
  simp [unRm, h, ho sz _ _, Loc.putIf]

theorem setWideAcc_run (sz : Sz) (hi lo : Nat) (hl : lo < 2 ^ sz.bits) (s : State) :
    setWideAcc sz hi lo s = .ok () (s.putWide sz (hi * 2 ^ sz.bits + lo)) := by
  cases sz
  · rfl
  · have e1 : BitVec.ofNat 16 (hi * 2 ^ 16 + lo) = BitVec.ofNat 16 lo := by
      apply BitVec.eq_of_toNat_eq; simp only [BitVec.toNat_ofNat]; omega
    have e2 : (hi * 2 ^ 16 + lo) / 2 ^ 16 = hi := by have : lo < 2 ^ 16 := hl; omega
    simp only [setWideAcc, State.putWide, M.bind_run, setReg_run, Sz.bits, e1, e2]
  · have e1 : BitVec.ofNat 32 (hi * 2 ^ 32 + lo) = BitVec.ofNat 32 lo := by
      apply BitVec.eq_of_toNat_eq; simp only [BitVec.toNat_ofNat]; omega
    have e2 : (hi * 2 ^ 32 + lo) / 2 ^ 32 = hi := by have : lo < 2 ^ 32 := hl; omega
    simp only [setWideAcc, State.putWide, M.bind_run, setReg_run, Sz.bits, e1, e2]

end Sys2Proof.Machine
end

