-- ==== Sys2Proof/Laws/FlagBits.lean ====
section
/-! SUPPORT. The bits of EFLAGS as a doubleword, and merging an image into the flags (10_state R40). -/

namespace Sys2Proof.Machine

theorem bitAt_getLsbD (w i j : Nat) (b : Bool) : (bitAt w i b).getLsbD j = (b && decide (j < w) && decide (i = j)) := by
  unfold bitAt
  cases b
  · simp
  · simp only [if_true, BitVec.getLsbD_ofNat, Nat.testBit_two_pow, Bool.true_and]


/-- The bits of EFLAGS as a doubleword. -/
theorem Flags.toDword_bit (f : Flags) (j : Nat) : f.toDword.getLsbD j =
    ((f.cf && j == 0) || j == 1 || (f.pf && j == 2) || (f.af && j == 4) || (f.zf && j == 6) || (f.sf && j == 7) ||
     (f.tf && j == 8) || (f.if_ && j == 9) || (f.df && j == 10) || (f.of_ && j == 11) ||
     (f.iopl.getLsbD 0 && j == 12) || (f.iopl.getLsbD 1 && j == 13) || (f.nt && j == 14) || (f.rf && j == 16) ||
     (f.vm && j == 17) || (f.ac && j == 18) || (f.vif && j == 19) || (f.vip && j == 20) || (f.id && j == 21)) := by
  by_cases hj : j < 32
  · have h : ∀ j < 32, ∀ k : BitVec 2, (k.setWidth 32 <<< 12 : BitVec 32).getLsbD j = ((k.getLsbD 0 && j == 12) || (k.getLsbD 1 && j == 13)) := by decide
    simp only [Flags.toDword, BitVec.getLsbD_or, bitAt_getLsbD, h j hj]
    have : (j = 0 ∨ j = 1 ∨ j = 2 ∨ j = 3 ∨ j = 4 ∨ j = 5 ∨ j = 6 ∨ j = 7 ∨ j = 8 ∨ j = 9 ∨ j = 10) ∨ (j = 11 ∨ j = 12 ∨ j = 13 ∨ j = 14 ∨ j = 15 ∨ j = 16 ∨ j = 17 ∨ j = 18 ∨ j = 19 ∨ j = 20 ∨ j = 21 ∨ 21 < j) := by omega
    rcases this with (h | h | h | h | h | h | h | h | h | h | h) | (h | h | h | h | h | h | h | h | h | h | h | h) <;> (try subst h) <;> simp
    have e : ∀ i, i ≤ 21 → (i = j) = False := by intro i hi; simp; omega
    have e' : ∀ i, i ≤ 21 → (j == i) = false := by intro i hi; simp; omega
    simp [e, e']
  · have : ∀ i, i ≤ 21 → (j == i) = false := by intro i hi; simp; omega
    simp [this, BitVec.getLsbD_of_ge _ _ (Nat.not_lt.1 hj)]

theorem Flags.ofDword_toDword (f : Flags) : Flags.ofDword f.toDword = f := by
  have h2 : ∀ (x : BitVec 2), f.toDword.extractLsb' 12 2 = f.iopl := by
    intro _; apply BitVec.eq_of_getLsbD_eq; intro i hi
    rw [BitVec.getLsbD_extractLsb', Flags.toDword_bit]
    have : i = 0 ∨ i = 1 := by omega
    rcases this with h | h <;> subst h <;> simp
  unfold Flags.ofDword
  simp only [Flags.toDword_bit, h2 0]
  simp

/-- The flags of the merge, one by one. -/
theorem Flags.merge_eq (f : Flags) (img mask : Dword) : f.merge img mask =
    { cf := if mask.getLsbD 0 then img.getLsbD 0 else f.cf, pf := if mask.getLsbD 2 then img.getLsbD 2 else f.pf,
      af := if mask.getLsbD 4 then img.getLsbD 4 else f.af, zf := if mask.getLsbD 6 then img.getLsbD 6 else f.zf,
      sf := if mask.getLsbD 7 then img.getLsbD 7 else f.sf, tf := if mask.getLsbD 8 then img.getLsbD 8 else f.tf,
      if_ := if mask.getLsbD 9 then img.getLsbD 9 else f.if_, df := if mask.getLsbD 10 then img.getLsbD 10 else f.df,
      of_ := if mask.getLsbD 11 then img.getLsbD 11 else f.of_,
      iopl := (img.extractLsb' 12 2 &&& mask.extractLsb' 12 2) ||| (f.iopl &&& ~~~ mask.extractLsb' 12 2),
      nt := if mask.getLsbD 14 then img.getLsbD 14 else f.nt, rf := if mask.getLsbD 16 then img.getLsbD 16 else f.rf,
      vm := if mask.getLsbD 17 then img.getLsbD 17 else f.vm, ac := if mask.getLsbD 18 then img.getLsbD 18 else f.ac,
      vif := if mask.getLsbD 19 then img.getLsbD 19 else f.vif, vip := if mask.getLsbD 20 then img.getLsbD 20 else f.vip,
      id := if mask.getLsbD 21 then img.getLsbD 21 else f.id } := by
  have h2 : ((f.toDword &&& ~~~mask) ||| (img &&& mask)).extractLsb' 12 2 = (img.extractLsb' 12 2 &&& mask.extractLsb' 12 2) ||| (f.iopl &&& ~~~ mask.extractLsb' 12 2) := by
    apply BitVec.eq_of_getLsbD_eq; intro i hi
    have : i = 0 ∨ i = 1 := by omega
    rcases this with h | h <;> subst h <;> simp only [BitVec.getLsbD_extractLsb', BitVec.getLsbD_or, BitVec.getLsbD_and, BitVec.getLsbD_not, Flags.toDword_bit] <;> simp [Bool.or_comm]
  have hb : ∀ (b m i : Bool), ((b && !m) || (i && m)) = if m then i else b := by decide
  unfold Flags.merge Flags.ofDword
  rw [h2]
  simp only [BitVec.getLsbD_or, BitVec.getLsbD_and, BitVec.getLsbD_not, Flags.toDword_bit]
  simp [hb]
end Sys2Proof.Machine
end

