-- ==== Sys2Proof/Laws/IntegerRuns.lean ====
section
/-! SUPPORT. The forms of the two-operand instructions from their operation, undefined flags, and exceptions of a meaning. -/

namespace Sys2Proof.Machine

theorem aluHas_of {mk : AluForm → Instr} {w : Bool} {op : BinOp} {e : Effect2} (ho : BinOp.does op e)
    (hx : ∀ f s, exec (mk f) s = runWith (w && aluLockable f) .never (alu w op f) s) : aluHas mk w e := by
  refine ⟨?_, ?_, ?_, ?_, ?_⟩
  · intro s wd d r l s1 hr hl h
    unfold completes; rw [hx]
    refine runWith_ok (fun hk => ?_) (by rw [hr]; rfl) ?_
    · obtain ⟨h1, h2⟩ := hl hk; rw [h1]; exact h2
    · simp only [alu, M.bind_run, M.get_run]; exact binRm_run ho h
  · intro s wd r m l s1 hp h
    unfold completes; rw [hx]
    refine runWith_ok (fun hk => by rw [hp.1] at hk; cases hk) (by rw [hp.2]; rfl) ?_
    simp only [alu, M.bind_run, M.get_run, readRm_run h]
    have : s1.reg (s.wd wd) r = s.reg (s.wd wd) r := by unfold State.reg; rw [locate_gpr h]
    rw [binReg_run ho, this]
  · intro s wd i hp
    unfold completes; rw [hx]
    refine runWith_ok (fun hk => by rw [hp.1] at hk; cases hk) (by rw [hp.2]; rfl) ?_
    simp only [alu, M.bind_run, M.get_run]; exact binReg_run ho
  · intro s wd d i l s1 hr hl h
    unfold completes; rw [hx]
    refine runWith_ok (fun hk => ?_) (by rw [hr]; rfl) ?_
    · obtain ⟨h1, h2⟩ := hl hk; rw [h1]; exact h2
    · simp only [alu, M.bind_run, M.get_run]; exact binRm_run ho h
  · intro s d i l s1 hr hl h
    unfold completes; rw [hx]
    refine runWith_ok (fun hk => ?_) (by rw [hr]; rfl) ?_
    · obtain ⟨h1, h2⟩ := hl hk; rw [h1]; exact h2
    · simp only [alu, M.bind_run, M.get_run]; exact binRm_run ho h

theorem modifyFlagsFree_undef (k) (f) (s : State) : modifyFlagsFree k f s = .ok () (s.undefFlags k f) := rfl

theorem ofInt_split (sz : Sz) (p : Int) : (BitVec.ofInt sz.bits (p / (2 ^ sz.bits : Int))).toNat * 2 ^ sz.bits + (BitVec.ofInt sz.bits p).toNat = (BitVec.ofInt (2 * sz.bits) p).toNat := by
  cases sz <;> simp only [Sz.bits, BitVec.toNat_ofInt] <;> omega

theorem div_ne_zero_iff (b p : Nat) : ((p / 2^b != 0) = decide (2^b ≤ p)) := by
  have hb : 0 < 2^b := Nat.two_pow_pos b
  by_cases h : 2^b ≤ p
  · have : p / 2^b ≠ 0 := by have := (Nat.le_div_iff_mul_le hb (x := 1) (y := p)).2 (by omega); omega
    simp [h, this]
  · have : p / 2^b = 0 := Nat.div_eq_of_lt (by omega)
    simp [h, this]

theorem neInt (a b : Int) : (a != b) = decide (a ≠ b) := by
  by_cases h : a = b <;> simp [h]

theorem run_exc {m : M Unit} {s t : State} {e : Exc} (hp : s.plain) (h : m s = .error (.exc e) t) : run m s = takeExc e (s.rollback t) := by
  unfold run runWith
  rw [hp.1, hp.2, h]; rfl

theorem spread_run (s : State) (z : Sz) (h : s.osz = z) : spreadSign s = .ok () (s.setReg z .edx (if (s.reg z .eax).msb then BitVec.allOnes z.bits else 0)) := by
  subst h; rfl

theorem runWith_plain {b : Bool} {m : M Unit} {s t : State} (hp : s.plain) (h : m s = .ok () t) : runWith b .never m s = .next t.retire :=
  runWith_ok (fun hk => by rw [hp.1] at hk; cases hk) (by rw [hp.2]; rfl) h

end Sys2Proof.Machine
end

