-- ==== Sys2Proof/Laws/MmxRuns.lean ====
section
/-! SUPPORT. MMX: the entry, the operands, and the element-wise operations. -/

namespace Sys2Proof.Machine

theorem accessEa_fpu {a n al k} {s t : State} {ps} (h : accessEa a n al k s = .ok ps t) : t.fpu = s.fpu := by
  have hw : access (s.eaSeg a) (s.gpr.eaOff a) n al k s = .ok ps t := by
    simpa only [accessEa, M.bind_run, M.get_run] using h
  exact (congrArg State.fpu (access_walks _ _ _ _ _ s ps t hw).rest).trans rfl

theorem mmxEntry_run {s : State} (h : s.mmxReady) : mmxEntry s = .ok () s := by
  obtain ⟨h1, h2, h3⟩ := h
  simp only [mmxEntry, M.bind_run, M.get_run, raiseIf_run, h1, h2, Bool.false_eq_true, if_false, pendingCheck, M.ite_run, h3, M.pure_run]

theorem readMm_run {n src} {s t : State} {b} (h : MmxSource n src s b t) : readMm n src s = .ok b t := by
  cases src with
  | reg i => obtain ⟨rfl, rfl⟩ := h; rfl
  | mem a =>
    obtain ⟨ps, h, rfl⟩ := h
    simp only [readMm, readEa, M.bind_run, h, loadAt_run, M.pure_run]; rfl

theorem mmxSource_fpu {n src} {s t : State} {b} (h : MmxSource n src s b t) : t.fpu = s.fpu := by
  cases src with
  | reg i => obtain ⟨rfl, rfl⟩ := h; rfl
  | mem a => obtain ⟨ps, h, rfl⟩ := h; exact accessEa_fpu h

theorem modifyFpu_run (g : Fpu → Fpu) (s : State) : modifyFpu g s = .ok () { s with fpu := g s.fpu } := rfl

theorem mmxOp_run {n g d src} {s t : State} {b} (hr : s.mmxReady) (h : MmxSource n src s b t) :
    mmxOp n g d src s = .ok () { t with fpu := (t.fpu.setMm d (g (s.fpu.mm d) b)).mmxLeft } := by
  simp only [mmxOp, M.bind_run, mmxEntry_run hr, readMm_run h, modifyFpu_run, mmxExit]
  rw [← mmxSource_fpu h]; rfl

theorem packedHas_of {mk n g} {P : Qword → Qword → Qword → Prop} (hm : ∀ d src s, exec (mk d src) s = run (mmxOp n g d src) s) (hP : ∀ a b, P a b (g a b)) :
    packedHas mk n P := by
  intro s d src b t hp hr hs
  refine ⟨g (s.fpu.mm d) b, hP _ _, ?_⟩
  unfold completes
  rw [hm]
  exact run_ok hp (mmxOp_run hr hs)

theorem lane_ofLanes {w : Nat} (hw : 0 < w) : ∀ (l : List (BitVec w)) (i : Nat), l.length * w ≤ 64 → i < l.length → lane w (ofLanes l) i = l.getD i 0
  | [], i, _, h => absurd h (by simp)
  | x :: t, 0, hl, _ => by
    apply BitVec.eq_of_getLsbD_eq; intro j hj
    have h64 : w ≤ 64 := by simp only [List.length_cons, Nat.succ_mul] at hl; omega
    simp only [lane, ofLanes, BitVec.getLsbD_extractLsb', Nat.mul_zero, Nat.zero_add, hj, decide_true, Bool.true_and, BitVec.getLsbD_or, BitVec.getLsbD_shiftLeft, BitVec.getLsbD_setWidth, show j < 64 by omega, Bool.not_true, Bool.false_and, Bool.and_false, Bool.false_or, List.getD_cons_zero]
  | x :: t, i + 1, hl, hi => by
    have ih := lane_ofLanes hw t i (by simp only [List.length_cons, Nat.succ_mul] at hl; omega) (by simpa using hi)
    rw [List.getD_cons_succ, ← ih]
    apply BitVec.eq_of_getLsbD_eq; intro j hj
    have hi2 : i + 1 ≤ t.length := by simp only [List.length_cons] at hi; omega
    have h1 : (i + 1) * w ≤ t.length * w := Nat.mul_le_mul_right w hi2
    have hb : w * (i + 1) + j < 64 := by
      simp only [List.length_cons, Nat.succ_mul] at hl h1
      rw [Nat.mul_succ, Nat.mul_comm w i]; omega
    have hb2 : w * i + j < 64 := by rw [Nat.mul_succ] at hb; omega
    have e : w * (i + 1) + j - w = w * i + j := by rw [Nat.mul_succ]; omega
    have nw : ¬ (w * (i + 1) + j < w) := by rw [Nat.mul_succ]; omega
    simp only [lane, ofLanes, BitVec.getLsbD_extractLsb', hj, decide_true, Bool.true_and, BitVec.getLsbD_or, BitVec.getLsbD_shiftLeft, BitVec.getLsbD_setWidth, hb, nw, decide_false, Bool.not_false, e, BitVec.getLsbD_of_ge x (w * (i + 1) + j) (by rw [Nat.mul_succ]; omega), Bool.or_false]

theorem lanes_getD (w : Nat) (v : Qword) (i : Nat) (hi : i < 64 / w) : (lanes w v).getD i 0 = lane w v i := by
  simp [lanes, List.getD, hi]

theorem zipWith_getD {w : Nat} (g : BitVec w → BitVec w → BitVec w) : ∀ (a b : List (BitVec w)) i, i < a.length → i < b.length →
    (List.zipWith g a b).getD i 0 = g (a.getD i 0) (b.getD i 0)
  | x :: a, y :: b, 0, _, _ => by simp
  | x :: a, y :: b, i + 1, h1, h2 => by
    simpa using zipWith_getD g a b i (by simpa using h1) (by simpa using h2)

theorem lanewise_elem {w : Nat} (hw : 0 < w) (h : (64 / w) * w ≤ 64) (g : BitVec w → BitVec w → BitVec w) (a b : Qword) :
    elementwise w g a b (lanewise w g a b) := by
  intro i hi
  have l (v : Qword) : (lanes w v).length = 64 / w := by simp [lanes]
  unfold lanewise
  rw [lane_ofLanes hw _ _ (by simp only [List.length_zipWith, l, Nat.min_self]; exact h) (by simp only [List.length_zipWith, l, Nat.min_self]; exact hi),
    zipWith_getD _ _ _ _ (by rw [l]; exact hi) (by rw [l]; exact hi), lanes_getD _ _ _ hi, lanes_getD _ _ _ hi]

theorem satS_clampS (w : Nat) (hw : w = 8 ∨ w = 16) (x : Int) : satS w x = clampS w x := by
  unfold satS clampS
  rcases hw with rfl | rfl <;>
  · split
    · rename_i h
      rw [show min _ x = _ from Int.min_eq_left (by omega)]
      rfl
    · split
      · rename_i h1 h
        rw [Int.min_eq_right (by omega), Int.max_eq_left (by omega)]
        rfl
      · rw [Int.min_eq_right (by omega), Int.max_eq_right (by omega)]

theorem satU_clampU (w : Nat) (hw : w = 8 ∨ w = 16) (x : Int) : satU w x = clampU w x := by
  unfold satU clampU
  rcases hw with rfl | rfl <;>
  · split
    · rename_i h
      rw [show min _ x = _ from Int.min_eq_left (by omega)]
      rfl
    · split
      · rename_i h1 h
        rw [Int.min_eq_right (by omega), Int.max_eq_left (by omega)]
        rfl
      · rw [Int.min_eq_right (by omega), Int.max_eq_right (by omega)]

theorem packedHas_lanewise {w : Nat} {mk} {g g' : BitVec w → BitVec w → BitVec w} (hw : 0 < w) (h : (64 / w) * w ≤ 64) (hm : ∀ d src s, exec (mk d src) s = run (mmxOp 8 (lanewise w g) d src) s) (hg : ∀ x y, g x y = g' x y) :
    packedHas mk 8 (elementwise w g') := by
  have : g = g' := funext fun x => funext fun y => hg x y
  subst this
  exact packedHas_of hm (lanewise_elem hw h g)

theorem map_getD {α β : Type} (f : α → β) (d : β) (e : α) : ∀ (l : List α) i, i < l.length → (l.map f).getD i d = f (l.getD i e)
  | x :: l, 0, _ => by simp
  | x :: l, i + 1, h => by simpa using map_getD f d e l i (by simpa using h)

theorem append_getD {α : Type} (d : α) : ∀ (a b : List α) i, (a ++ b).getD i d = if i < a.length then a.getD i d else b.getD (i - a.length) d
  | [], b, i => by simp
  | x :: a, b, 0 => by simp
  | x :: a, b, i + 1 => by
    have := append_getD d a b i
    simp only [List.cons_append, List.getD_cons_succ, this, List.length_cons, Nat.add_lt_add_iff_right, Nat.add_sub_add_right]

theorem pack_narrows {w : Nat} (hw : w = 16 ∨ w = 32) (g : Int → BitVec (w / 2)) (a b : Qword) : narrows w g a b (pack w g a b) := by
  have l (v : Qword) : (lanes w v).length = 64 / w := by simp [lanes]
  have h64 : (64 / w + 64 / w) * (w / 2) ≤ 64 := by rcases hw with rfl | rfl <;> decide
  have h0 : 0 < w / 2 := by rcases hw with rfl | rfl <;> decide
  intro i hi
  unfold pack
  refine ⟨?_, ?_⟩
  · rw [lane_ofLanes h0 _ _ (by simp only [List.length_map, List.length_append, l]; exact h64) (by simp only [List.length_map, List.length_append, l]; omega),
      map_getD _ _ 0 _ _ (by simp only [List.length_append, l]; omega), append_getD, if_pos (by rw [l]; exact hi), lanes_getD _ _ _ hi]
  · rw [lane_ofLanes h0 _ _ (by simp only [List.length_map, List.length_append, l]; exact h64) (by simp only [List.length_map, List.length_append, l]; omega),
      map_getD _ _ 0 _ _ (by simp only [List.length_append, l]; omega), append_getD, if_neg (by rw [l]; omega), l, Nat.add_sub_cancel_left, lanes_getD _ _ _ hi]

theorem interleave_length {w : Nat} : ∀ (a b : List (BitVec w)), a.length = b.length → (interleave a b).length = 2 * a.length
  | [], [], _ => rfl
  | x :: a, y :: b, h => by
    have := interleave_length a b (by simpa using h)
    simp only [interleave, List.length_cons, this]; omega

theorem interleave_getD {w : Nat} : ∀ (a b : List (BitVec w)) i, i < a.length → i < b.length →
    (interleave a b).getD (2 * i) 0 = a.getD i 0 ∧ (interleave a b).getD (2 * i + 1) 0 = b.getD i 0
  | x :: a, y :: b, 0, _, _ => by simp [interleave]
  | x :: a, y :: b, i + 1, h1, h2 => by
    have := interleave_getD a b i (by simpa using h1) (by simpa using h2)
    simpa only [interleave, show 2 * (i + 1) = 2 * i + 1 + 1 by omega, List.getD_cons_succ] using this

theorem take_getD {α : Type} (d : α) (l : List α) (k i : Nat) (h : i < k) : (l.take k).getD i d = l.getD i d := by
  simp only [List.getD_eq_getElem?_getD, List.getElem?_take, h, if_true]

theorem drop_getD {α : Type} (d : α) (l : List α) (k i : Nat) : (l.drop k).getD i d = l.getD (k + i) d := by
  simp only [List.getD_eq_getElem?_getD, List.getElem?_drop]

theorem unpack_interleaves {w : Nat} (hw : w = 8 ∨ w = 16 ∨ w = 32) (high : Bool) (a b : Qword) : interleaves w high a b (unpack w high a b) := by
  have l (v : Qword) : (lanes w v).length = 64 / w := by simp [lanes]
  have h0 : 0 < w := by rcases hw with rfl | rfl | rfl <;> decide
  have h2 : 64 / w / 2 = 32 / w ∧ 64 / w = 2 * (32 / w) ∧ 2 * (32 / w) * w ≤ 64 := by rcases hw with rfl | rfl | rfl <;> decide
  intro i hi
  have hl (v : Qword) : ((if high = true then (lanes w v).drop (64 / w / 2) else (lanes w v).take (64 / w / 2))).length = 32 / w := by
    cases high <;> simp [l] <;> omega
  have hg (v : Qword) : ((if high = true then (lanes w v).drop (64 / w / 2) else (lanes w v).take (64 / w / 2))).getD i 0 = lane w v (if high = true then 32 / w + i else i) := by
    cases high
    · simp only [Bool.false_eq_true, if_false]; rw [take_getD _ _ _ _ (by omega), lanes_getD _ _ _ (by omega)]
    · simp only [if_true]; rw [drop_getD, lanes_getD _ _ _ (by omega), h2.1]
  have hi2 := interleave_getD _ _ i (by rw [hl a]; exact hi) (by rw [hl b]; exact hi)
  have hlen := interleave_length _ _ ((hl a).trans (hl b).symm)
  rw [hl a] at hlen
  refine ⟨?_, ?_⟩
  · have := lane_ofLanes h0 _ (2 * i) (by rw [hlen]; exact h2.2.2) (by rw [hlen]; omega)
    exact this.trans (hi2.1.trans (hg a))
  · have := lane_ofLanes h0 _ (2 * i + 1) (by rw [hlen]; exact h2.2.2) (by rw [hlen]; omega)
    exact this.trans (hi2.2.trans (hg b))

theorem shift_elem {w : Nat} (hw : 0 < w) (h : (64 / w) * w ≤ 64) (f : BitVec w → BitVec w) (a : Qword) (i : Nat) (hi : i < 64 / w) :
    lane w (ofLanes ((lanes w a).map f)) i = f (lane w a i) := by
  have l (v : Qword) : (lanes w v).length = 64 / w := by simp [lanes]
  rw [lane_ofLanes hw _ _ (by simp only [List.length_map, l]; exact h) (by simp only [List.length_map, l]; exact hi),
    map_getD _ _ 0 _ _ (by rw [l]; exact hi), lanes_getD _ _ _ hi]

theorem shiftLeft_min {w : Nat} (x : BitVec w) (n : Nat) : (if w ≤ n then 0 else x <<< n) = BitVec.ofNat w (x.toNat * 2 ^ min n w) := by
  apply BitVec.eq_of_toNat_eq
  split
  · rename_i h
    rw [Nat.min_eq_right h, BitVec.toNat_ofNat, Nat.mul_mod_left]; rfl
  · rename_i h
    rw [Nat.min_eq_left (by omega), BitVec.toNat_ofNat, BitVec.toNat_shiftLeft, Nat.shiftLeft_eq]

theorem shiftRight_min {w : Nat} (x : BitVec w) (n : Nat) : (if w ≤ n then 0 else x >>> n) = BitVec.ofNat w (x.toNat / 2 ^ min n w) := by
  apply BitVec.eq_of_toNat_eq
  have hx := x.isLt
  split
  · rename_i h
    rw [Nat.min_eq_right h, BitVec.toNat_ofNat, Nat.div_eq_of_lt hx]; rfl
  · rename_i h
    rw [Nat.min_eq_left (by omega), BitVec.toNat_ofNat, BitVec.toNat_ushiftRight, Nat.shiftRight_eq_div_pow, Nat.mod_eq_of_lt (Nat.lt_of_le_of_lt (Nat.div_le_self _ _) hx)]

end Sys2Proof.Machine
end

