-- ==== Sys2Proof/Laws/FpuRuns.lean ====
section
/-! SUPPORT. The FPU: entry, stack, exceptions, rounding and the shapes of its meanings, where they succeed and where they fault. -/

namespace Sys2Proof.Machine

theorem run_fpuEntry_nm {w : Bool} {r : Unit → M Unit} {s : State} (hp : s.plain) (h : s.cr0Em = true ∨ s.cr0Ts = true) : run (fpuEntry w >>= r) s = takeExc .nm (s.rollback s) := by
  refine run_exc hp ?_
  have : (s.cr0Em || s.cr0Ts) = true := by rcases h with h | h <;> simp [h]
  simp only [fpuEntry, M.bind_run, M.get_run, raiseIf_run, this, if_true]

def pendingOutcome (s : State) : Host.Outcome State Fault Refusal :=
    if s.cr0Ne then takeExc .mf (s.rollback s) else .next { s.rollback s with fpu := { (s.rollback s).fpu with ferr := true }, interrupted := true }

theorem run_pendingOutcome {m : M Unit} {s : State} (hp : s.plain) (h : m s = if s.cr0Ne then .error (.exc .mf) s else .error .freeze s) : run m s = pendingOutcome s := by
  unfold pendingOutcome
  cases hn : s.cr0Ne
  · simp [run, runWith, hp.1, hp.2, RepUse.allows, h, hn, finish]
  · rw [hn] at h; exact run_exc hp h

theorem pendingCheck_run {s : State} (h : s.fpu.sw.es = true) : pendingCheck s = if s.cr0Ne then .error (.exc .mf) s else .error .freeze s := by
  simp only [pendingCheck, M.bind_run, M.get_run, M.ite_run, h, if_true]; split <;> rfl

theorem run_fpuEntry_mf {r : Unit → M Unit} {s : State} (hp : s.plain) (h1 : s.cr0Em = false) (h2 : s.cr0Ts = false) (h3 : s.fpu.sw.es = true) : run (fpuEntry true >>= r) s = pendingOutcome s := by
  refine run_pendingOutcome hp ?_
  simp only [fpuEntry, M.bind_run, M.get_run, raiseIf_run, h1, h2, Bool.or_self, Bool.false_eq_true, if_false, if_true, pendingCheck_run h3]
  cases s.cr0Ne <;> rfl

theorem run_mmxEntry_mf {r : Unit → M Unit} {s : State} (hp : s.plain) (h1 : s.cr0Em = false) (h2 : s.cr0Ts = false) (h3 : s.fpu.sw.es = true) : run (mmxEntry >>= r) s = pendingOutcome s := by
  refine run_pendingOutcome hp ?_
  simp only [mmxEntry, M.bind_run, M.get_run, raiseIf_run, h1, h2, Bool.or_self, Bool.false_eq_true, if_false, if_true, pendingCheck_run h3]
  cases s.cr0Ne <;> rfl

theorem run_mmxEntry_ud {r : Unit → M Unit} {s : State} (hp : s.plain) (h1 : s.cr0Em = true) : run (mmxEntry >>= r) s = takeExc .ud (s.rollback s) := by
  refine run_exc hp ?_
  simp only [mmxEntry, M.bind_run, M.get_run, raiseIf_run, h1, if_true]

theorem run_mmxEntry_nm {r : Unit → M Unit} {s : State} (hp : s.plain) (h1 : s.cr0Em = false) (h2 : s.cr0Ts = true) : run (mmxEntry >>= r) s = takeExc .nm (s.rollback s) := by
  refine run_exc hp ?_
  simp only [mmxEntry, M.bind_run, M.get_run, raiseIf_run, h1, h2, Bool.false_eq_true, if_false, if_true]

theorem fpuEntry_run {s : State} (h : s.fpuReady) : fpuEntry true s = .ok () s := by
  obtain ⟨h1, h2, h3⟩ := h
  simp only [fpuEntry, M.bind_run, M.get_run, raiseIf_run, h1, h2, Bool.or_self, Bool.false_eq_true, if_false, if_true, pendingCheck, M.ite_run, h3, M.pure_run]

/-- C0, C2, C3 free, C1 as it was. -/
def State.free3 (s : State) : State :=
  { s with
    fresh := s.fresh + 3
    fpu := { s.fpu with sw := { s.fpu.sw with
      c0 := Config.freeBit s.fresh, c2 := Config.freeBit (s.fresh + 1), c3 := Config.freeBit (s.fresh + 2) } } }

theorem freeC023_run (s : State) : freeC023 s = .ok () s.free3 := rfl

theorem setC1_free3_run (s : State) : setC1 false s.free3 = .ok () s.freeCs := rfl

theorem freeC0123_run (s : State) : freeC0123 s = .ok () s.freeAllCs := rfl

theorem empty3 (s : State) (i : Nat) : s.free3.fpu.isEmpty i = s.freeCs.fpu.isEmpty i := rfl

theorem getSt_run (i : Nat) (s : State) : getSt i s = .ok (s.fpu.st i) s := rfl

theorem setSt_run (i v) (s : State) : setSt i v s = .ok () { s with fpu := s.fpu.setSt i v } := rfl

theorem anyEmpty_run (is : List Nat) (s : State) : anyEmpty is s = .ok (is.any s.fpu.isEmpty) s := rfl

theorem popIf_run (p) (s : State) : popIf p s = .ok () { s with fpu := s.fpu.popped p } := by
  cases p <;> rfl

theorem fpuPointers_run (s u : State) (f : Fpu) (h : u = { s with fpu := f, fresh := u.fresh }) (m) : fpuPointers m u = .ok () (u.pointed m f) := by
  rw [h]; cases m <;> rfl

theorem instr_run {s t : State} {m} {b : M Unit} (hr : s.fpuReady) (hb : b s = .ok () t) : fpuInstr m b s = .ok () (t.pointed m t.fpu) := by
  simp only [fpuInstr, M.bind_run, fpuEntry_run hr, hb]
  cases m <;> rfl

theorem fpuInstr_completes {i : Instr} {s t : State} {m} {b : M Unit} (hp : s.plain) (hr : s.fpuReady) (he : exec i s = run (fpuInstr m b) s) (hb : b s = .ok () t) : completes i s (t.pointed m t.fpu) := by
  unfold completes; rw [he]; exact run_ok hp (instr_run hr hb)

theorem pointed_fpu (s : State) (f : Fpu) (m) : ({ s with fpu := f }.pointed m f) = s.pointed m f := by cases m <;> rfl

def Fpu.stored (f : Fpu) (dst : Nat) (p : Bool) : Option Ext → Fpu
  | none => f
  | some v => (f.setSt dst v).popped p

theorem stBody_run {needs : List Nat} {dst p b} {s t u : State} {o : Option Ext} (he : ∀ i ∈ needs, s.fpu.isEmpty i = false)
    (hc : setC1 false s = .ok () u) (hb : b u = .ok o t) : stBody needs dst p b s = .ok () { t with fpu := t.fpu.stored dst p o } := by
  have : needs.any s.fpu.isEmpty = false := by
    rw [List.any_eq_false]; intro i hi; rw [he i hi]; simp
  simp only [stBody, M.bind_run, anyEmpty_run, M.ite_run, this, Bool.false_eq_true, if_false, hc, hb]
  cases o with
  | none => rfl
  | some v => simp only [storeSt, M.bind_run, setSt_run, popIf_run]; rfl

theorem stOp_run {needs : List Nat} {dst p b} {s t : State} {o : Option Ext} (he : ∀ i ∈ needs, s.freeCs.fpu.isEmpty i = false)
    (hb : b s.freeCs = .ok o t) : stOp needs dst p b s = .ok () { t with fpu := t.fpu.stored dst p o } := by
  simp only [stOp, M.bind_run, freeC023_run]
  exact stBody_run (fun i hi => he i hi) (setC1_free3_run s) hb

theorem stOp_completes {i : Instr} {s t : State} {needs : List Nat} {dst p b m} {o : Option Ext} (hp : s.plain) (hr : s.fpuReady)
    (he : exec i s = run (fpuInstr m (stOp needs dst p b)) s) (hn : ∀ i ∈ needs, s.freeCs.fpu.isEmpty i = false)
    (hb : b s.freeCs = .ok o t) :
    completes i s (t.pointed m (t.fpu.stored dst p o)) := by
  have := fpuInstr_completes hp hr he (stOp_run (dst := dst) (p := p) hn hb)
  rw [pointed_fpu] at this
  exact this

theorem push_run {s : State} (h : s.fpu.isEmpty 7 = true) (hc : s.fpu.sw.c1 = false) (v) : fpuPush v s = .ok () { s with fpu := s.fpu.pushed v } := by
  simp only [fpuPush, M.bind_run, M.get_run, M.ite_run, h, if_true, modifyFpu_run, setC1]
  have : (s.fpu.pushed v).sw.c1 = false := by
    have e : (s.fpu.pushed v).sw = (s.fpu.setTop (s.fpu.sw.top - 1)).sw := by
      unfold Fpu.pushed Fpu.setSt Fpu.setTag Fpu.setReg; dsimp only; split <;> rfl
    rw [e]; exact hc
  have e2 : ∀ g : Fpu, g.sw.c1 = false → { g with sw := { g.sw with c1 := false } } = g := by
    intro g hg; cases g; rename_i sw _ _ _ _ _ _ _; cases sw; simp_all
  rw [show (Fpu.setSt (s.fpu.setTop (s.fpu.sw.top - 1)) 0 v) = s.fpu.pushed v from rfl, e2 _ this]

theorem fpException_run (x) (s : State) : fpException x s = .ok (s.fpu.cw.getLsbD x.bit) { s with fpu := s.fpu.raised x true } := by
  cases x <;> rfl

theorem fpExceptionIf_run (c x) (s : State) : fpExceptionIf c x s = .ok () { s with fpu := s.fpu.raised x c } := by
  cases c
  · rfl
  · simp only [fpExceptionIf, if_true, M.bind_run, fpException_run, M.pure_run]

theorem setC1_run (b) (s : State) : setC1 b s = .ok () { s with fpu := s.fpu.withC1 b } := rfl

theorem commitRes_run (r) (s : State) : commitRes r s = .ok r.val { s with fpu := (((s.fpu.raised .o r.o).raised .u r.u).raised .p r.p).withC1 r.c1 } := by
  simp only [commitRes, M.bind_run, fpExceptionIf_run, setC1_run, M.pure_run]

theorem roundExt_run (n p) (s : State) : roundExt n p s = .ok (s.fpu.rounded n p).1 { s with fpu := (s.fpu.rounded n p).2 } := by
  simp only [roundExt, M.bind_run, M.get_run, M.ite_run]
  unfold Fpu.rounded
  by_cases h : n.mant = 0
  · simp only [h, if_true]; rfl
  · simp only [h, if_false, commitRes_run]

theorem precision_run {s : State} {p} (h : s.fpu.hasPrecision p) : precision s = .ok p s := by
  unfold precision
  simp only [M.bind_run, M.get_run]
  rcases h with ⟨h, rfl⟩ | ⟨h, rfl⟩ | ⟨h, rfl⟩ <;> simp only [h] <;> rfl

def zeroOrNormal (x : Ext) : Prop := fclass x = .zero ∨ fclass x = .normal

theorem nanCheck_zn {x y : Ext} (hx : (fclass x).isNan = false ∧ (fclass x).isBad = false) (hy : (fclass y).isNan = false ∧ (fclass y).isBad = false) (s : State) : nanCheck x y s = .ok .go s := by
  simp only [nanCheck, M.ite_run, hx, hy, Bool.or_self, Bool.false_eq_true, if_false, M.pure_run]

theorem zeroOrNormal_notNan {x : Ext} (h : zeroOrNormal x) : (fclass x).isNan = false ∧ (fclass x).isBad = false := by
  rcases h with h | h <;> rw [h] <;> exact ⟨rfl, rfl⟩

theorem denormalCheck_run (s : State) : denormalCheck false s = .ok true s := rfl

theorem arith2_run {op} {x y : Src} {s : State} {p} (hx : zeroOrNormal x.val) (hy : zeroOrNormal y.val) (dx : x.denorm = false) (dy : y.denorm = false) (hp : s.fpu.hasPrecision p)
    (hf : op = .div → fclass y.val ≠ .zero) :
    arith2 op x y s = .ok (some (s.fpu.rounded (op.exact (numOf x.val) (numOf y.val) s.fpu.rc) p).1) { s with fpu := (s.fpu.rounded (op.exact (numOf x.val) (numOf y.val) s.fpu.rc) p).2 } := by
  have i1 : fclass x.val ≠ .inf := by rcases hx with h | h <;> rw [h] <;> decide
  have i2 : fclass y.val ≠ .inf := by rcases hy with h | h <;> rw [h] <;> decide
  have hinv : op.invalid x.val y.val = false := by
    unfold FOp.invalid
    cases op
    · simp [i1, i2]
    · simp [i1, i2]
    · simp [i1, i2]
    · simp [i1, i2, hf rfl]
  have hz : ¬ (op = .div ∧ fclass y.val = .zero ∧ (fclass x.val).isFinite = true) := fun h => hf h.1 h.2.1
  have hsp : op.special x.val y.val = none := by
    unfold FOp.special
    cases op <;> simp [i1, i2]
  simp only [arith2, M.bind_run, nanCheck_zn (zeroOrNormal_notNan hx) (zeroOrNormal_notNan hy), M.ite_run, hinv, Bool.false_eq_true, if_false, hz, dx, dy, Bool.or_self, denormalCheck_run, if_true, hsp, precision_run hp, M.get_run, roundExt_run, M.pure_run]

theorem ofReg_den {x : Ext} (h : zeroOrNormal x) : (Src.ofReg x).denorm = false := by
  rcases h with h | h <;> simp [Src.ofReg, h]

theorem arithTo_run {op} {rev : Bool} {d : Nat} {y : Src} {s : State} {p} (hx : zeroOrNormal (s.fpu.st d)) (hy : zeroOrNormal y.val) (dy : y.denorm = false) (hp : s.fpu.hasPrecision p)
    (hf : op = .div → fclass (if rev then s.fpu.st d else y.val) ≠ .zero) :
    let r := s.fpu.rounded (op.exact (numOf (if rev then y.val else s.fpu.st d)) (numOf (if rev then s.fpu.st d else y.val)) s.fpu.rc) p
    arithTo op rev d y s = .ok (some r.1) { s with fpu := r.2 } := by
  simp only [arithTo, M.bind_run, getSt_run, M.ite_run]
  cases rev
  · simp only [Bool.false_eq_true, if_false] at hf ⊢
    exact arith2_run (x := Src.ofReg _) hx hy (ofReg_den hx) dy hp hf
  · simp only [if_true] at hf ⊢
    exact arith2_run (y := Src.ofReg _) hy hx dy (ofReg_den hx) hp hf

theorem stOp_step {i : Instr} {s : State} {op rev pop d e} {p} (hp : s.plain) (hr : s.fpuReady) (he : exec i s = run (fArithReg op rev pop d e) s)
    (h0 : s.freeCs.fpu.holds d) (h1 : s.freeCs.fpu.holds e) (hq : s.fpu.hasPrecision p) (hf : op = .div → fclass (if rev then s.freeCs.fpu.st d else s.freeCs.fpu.st e) ≠ .zero) :
    let f := s.freeCs.fpu
    let r := f.rounded (op.exact (numOf (if rev then f.st e else f.st d)) (numOf (if rev then f.st d else f.st e)) f.rc) p
    completes i s (s.freeCs.pointed none ((r.2.setSt d r.1).popped pop)) := by
  have := stOp_completes hp hr he (t := { s.freeCs with fpu := _ }) (by simpa using ⟨h0.1, h1.1⟩) (by
    simp only [M.bind_run, getSt_run]
    exact arithTo_run (y := Src.ofReg _) h0.2 h1.2 (ofReg_den h1.2) hq hf)
  exact this

theorem mem_step {i : Instr} {s t : State} {op rev a} {src : M Src} {y : Src} {p} (hp : s.plain) (hr : s.fpuReady) (he : exec i s = run (fArithMem op rev a src) s)
    (hs : src s = .ok y t) (h0 : t.freeCs.fpu.holds 0) (hy : zeroOrNormal y.val) (dy : y.denorm = false) (hq : t.fpu.hasPrecision p) (hf : op = .div → fclass (if rev then t.freeCs.fpu.st 0 else y.val) ≠ .zero) :
    let f := t.freeCs.fpu
    let r := f.rounded (op.exact (numOf (if rev then y.val else f.st 0)) (numOf (if rev then f.st 0 else y.val)) f.rc) p
    completes i s (t.freeCs.pointed (some a) (r.2.setSt 0 r.1)) := by
  have h := stOp_run (s := t) (needs := [0]) (dst := 0) (p := false) (b := arithTo op rev 0 y) (t := { t.freeCs with fpu := _ }) (by simpa using h0.1) (arithTo_run h0.2 hy dy hq hf)
  have := fpuInstr_completes hp hr he (by
    simp only [M.bind_run, hs]
    exact h)
  exact this

theorem real_run {fmt : RealFmt} {a ps} {s t : State} (h : accessEa a fmt.bytes fmt.bytes .r s = .ok ps t) : readReal fmt a s = .ok { val := fmt.toExt (t.at ps), denorm := fmt.isDenormal (t.at ps) } t := by
  simp only [readReal, M.bind_run, readEa, h, loadAt_run, M.pure_run]; rfl

theorem int_run {n} {a ps} {s t : State} (h : accessEa a n n .r s = .ok ps t) : readInt a n s = .ok { val := intExt (BitVec.ofNat (8 * n) (t.at ps)).toInt, denorm := false } t := by
  simp only [readInt, M.bind_run, readEa, h, loadAt_run, M.pure_run]; rfl

theorem fpuArith_arms : ∀ q ∈ fpuArith, ∀ s, 
    (∀ i, exec (q.1 (.st0i i)) s = run (fArithReg q.2.2.2.1 q.2.2.2.2 false 0 (idxNat i)) s) ∧
    (∀ i, exec (q.1 (.sti0 i)) s = run (fArithReg q.2.2.2.1 q.2.2.2.2 false (idxNat i) 0) s) ∧
    (∀ i, exec (q.2.1 i) s = run (fArithReg q.2.2.2.1 q.2.2.2.2 true (idxNat i) 0) s) ∧
    (∀ a, exec (q.1 (.m32 a)) s = run (fArithMem q.2.2.2.1 q.2.2.2.2 a (readReal .single a)) s) ∧
    (∀ a, exec (q.1 (.m64 a)) s = run (fArithMem q.2.2.2.1 q.2.2.2.2 a (readReal .double a)) s) ∧
    (∀ a, exec (q.2.2.1 (.i16 a)) s = run (fArithMem q.2.2.2.1 q.2.2.2.2 a (readInt a 2)) s) ∧
    (∀ a, exec (q.2.2.1 (.i32 a)) s = run (fArithMem q.2.2.2.1 q.2.2.2.2 a (readInt a 4)) s) := by
  intro q hq s
  simp only [fpuArith, List.mem_cons, List.not_mem_nil, or_false] at hq
  rcases hq with rfl | rfl | rfl | rfl | rfl | rfl <;> refine ⟨?_, ?_, ?_, ?_, ?_, ?_, ?_⟩ <;> exact fun _ => rfl

theorem stackFault_run (b) (s : State) : stackFault b s = .ok (s.fpu.cw.getLsbD 0) { s with fpu := s.fpu.stackFaulted b } := rfl

theorem fault_free (s : State) (b) : ({ s.free3 with fpu := s.free3.fpu.stackFaulted b } : State) = { s.freeCs with fpu := s.freeCs.fpu.stackFaulted b } := by
  cases b <;> rfl

theorem stBody_fault {needs : List Nat} {dst p b} {s : State} (he : needs.any s.fpu.isEmpty = true) :
    stBody needs dst p b s = .ok () { s with fpu := (s.fpu.stackFaulted false).stored dst p (if s.fpu.cw.getLsbD 0 then some extIndef else none) } := by
  simp only [stBody, M.bind_run, anyEmpty_run, M.ite_run, he, if_true, stackFault_run]
  cases s.fpu.cw.getLsbD 0
  · rfl
  · simp only [if_true, storeSt, M.bind_run, setSt_run, popIf_run]; rfl

theorem stOp_fault {needs : List Nat} {dst p b} {s : State} (he : needs.any s.freeCs.fpu.isEmpty = true) :
    stOp needs dst p b s = .ok () { s.freeCs with fpu := (s.freeCs.fpu.stackFaulted false).stored dst p (if s.freeCs.fpu.cw.getLsbD 0 then some extIndef else none) } := by
  have h : needs.any s.free3.fpu.isEmpty = true := he
  simp only [stOp, M.bind_run, freeC023_run, stBody_fault h]
  rfl

theorem stOp_faults {i : Instr} {s : State} {needs : List Nat} {dst p b m} (hp : s.plain) (hr : s.fpuReady)
    (he : exec i s = run (fpuInstr m (stOp needs dst p b)) s) (hn : needs.any s.freeCs.fpu.isEmpty = true) :
    completes i s (s.freeCs.pointed m ((s.freeCs.fpu.stackFaulted false).stored dst p (if s.freeCs.fpu.cw.getLsbD 0 then some extIndef else none))) := by
  have := fpuInstr_completes hp hr he (stOp_fault (dst := dst) (p := p) hn)
  rw [pointed_fpu] at this
  exact this

theorem pushFault_run {s : State} (h : s.fpu.isEmpty 7 = false) (v) : fpuPush v s = .ok () { s with fpu := if s.fpu.cw.getLsbD 0 then ((s.fpu.stackFaulted true).setTop ((s.fpu.stackFaulted true).sw.top - 1)).setSt 0 extIndef else s.fpu.stackFaulted true } := by
  simp only [fpuPush, M.bind_run, M.get_run, M.ite_run, h, Bool.false_eq_true, if_false, stackFault_run, modifyFpu_run, M.pure_run]
  split <;> rfl

end Sys2Proof.Machine
end

