-- ==== Sys2Proof/Laws/Kept.lean ====
section
/-! SUPPORT. What the shared operations never change: a legal state stays legal, and the registers of level 0 stay. One
lemma per operation, each saying that every way it can end keeps both. -/

namespace Sys2Proof.Machine

variable {α β : Type}

/-- `t` is legal if `s` is, and has the same registers of level 0. -/
structure Kept (s t : State) : Prop where
  legal : s.Legal → t.Legal
  same : s.SameSystem t

theorem Kept.refl (s : State) : Kept s s := ⟨id, ⟨rfl, rfl, rfl, rfl, rfl, rfl, rfl, rfl, rfl⟩⟩

theorem Kept.trans {a b c : State} (h : Kept a b) (k : Kept b c) : Kept a c :=
  ⟨fun x => k.legal (h.legal x),
   ⟨k.same.gdtr.trans h.same.gdtr, k.same.idtr.trans h.same.idtr, k.same.cr0.trans h.same.cr0,
    k.same.cr4.trans h.same.cr4, k.same.dr0.trans h.same.dr0, k.same.dr1.trans h.same.dr1,
    k.same.dr2.trans h.same.dr2, k.same.dr3.trans h.same.dr3, k.same.msrs.trans h.same.msrs⟩⟩

/-- The state a result holds. -/
def resultState : EStateM.Result Stop State α → State
  | .ok _ t => t
  | .error _ t => t

/-- However the computation ends, the state it reaches is kept. -/
def M.Keeps (m : M α) : Prop := ∀ s, Kept s (resultState (m s))

/-- The changes that matter to `Kept` are none. -/
theorem Kept.of_fields {s t : State} (hm : s.mem.wf = true → t.mem.wf = true) (h1 : t.gdtr = s.gdtr)
    (h2 : t.idtr = s.idtr) (h3 : t.cr0 = s.cr0) (h4 : t.cr4 = s.cr4) (h5 : t.dr0 = s.dr0) (h6 : t.dr1 = s.dr1)
    (h7 : t.dr2 = s.dr2) (h8 : t.dr3 = s.dr3) (h9 : t.msrs = s.msrs) (h10 : t.dr7 = s.dr7)
    (h11 : s.fpu.cw.getLsbD 6 = true → t.fpu.cw.getLsbD 6 = true) : Kept s t :=
  ⟨fun l => ⟨hm l.memory, h9 ▸ l.msrs, h3 ▸ l.paging, h3 ▸ l.caching, h3 ▸ l.et, h4 ▸ l.cr4, h10 ▸ l.dr7, h11 l.cw⟩,
   ⟨h1, h2, by rw [h3], h4, h5, h6, h7, h8, h9⟩⟩

@[simp] theorem keeps_pure (a : α) : M.Keeps (pure a) := fun s => Kept.refl s

@[simp] theorem keeps_get : M.Keeps (get : M State) := fun s => Kept.refl s

@[simp] theorem keeps_throw (e : Stop) : M.Keeps (throw e : M α) := fun s => Kept.refl s

@[simp] theorem keeps_raise (e : Exc) : M.Keeps (raise e : M α) := fun s => Kept.refl s

@[simp] theorem keeps_bind {m : M α} {f : α → M β} (hm : M.Keeps m) (hf : ∀ a, M.Keeps (f a)) :
    M.Keeps (m >>= f) := by
  intro s
  have h := hm s
  rw [M.bind_run]
  cases hx : m s with
  | ok a t => rw [hx] at h; exact h.trans (hf a t)
  | error e t => rw [hx] at h; exact h

/-- A computation that begins with a read of the state, whose continuation is followed from that state only. -/
theorem keeps_getBind {f : State → M β} (hf : ∀ s, Kept s (resultState (f s s))) :
    M.Keeps (get >>= f) := by
  intro s
  rw [M.bind_run, M.get_run]
  exact hf s

@[simp] theorem keeps_map {f : α → β} {m : M α} (hm : M.Keeps m) : M.Keeps (f <$> m) := by
  intro s
  have h := hm s
  rw [M.map_run]
  cases hx : m s <;> (rw [hx] at h; exact h)

@[simp] theorem keeps_ite {c : Prop} [Decidable c] {a b : M α} (ha : M.Keeps a) (hb : M.Keeps b) :
    M.Keeps (if c then a else b) := by split <;> assumption

@[simp] theorem keeps_raiseIf (c : Bool) (e : Exc) : M.Keeps (raiseIf c e) := by
  unfold raiseIf; simp

theorem keeps_modify {f : State → State} (h : ∀ s, Kept s (f s)) : M.Keeps (modify f) := fun s => h s

theorem keeps_set {t : State} (h : ∀ s, Kept s t) : M.Keeps (set t) := fun s => h s

end Sys2Proof.Machine
end

