-- ==== Sys2Proof/Laws/KeptOps.lean ====
section
/-! SUPPORT. The shared operations keep a legal state legal and the registers of level 0 as they are. -/

namespace Sys2Proof.Machine

variable {α : Type}

theorem Kept.of_mem {s : State} {m : Memory} (h : s.mem.wf = true → m.wf = true) : Kept s { s with mem := m } :=
  .of_fields h rfl rfl rfl rfl rfl rfl rfl rfl rfl rfl id

/-- A change that touches neither memory nor any of the protected registers. -/
theorem Kept.of_eq {s t : State} (hm : t.mem = s.mem) (h1 : t.gdtr = s.gdtr) (h2 : t.idtr = s.idtr)
    (h3 : t.cr0 = s.cr0) (h4 : t.cr4 = s.cr4) (h5 : t.dr0 = s.dr0) (h6 : t.dr1 = s.dr1) (h7 : t.dr2 = s.dr2)
    (h8 : t.dr3 = s.dr3) (h9 : t.msrs = s.msrs) (h10 : t.dr7 = s.dr7) (h11 : t.fpu.cw = s.fpu.cw) : Kept s t :=
  .of_fields (by rw [hm]; exact id) h1 h2 h3 h4 h5 h6 h7 h8 h9 h10 (by rw [h11]; exact id)

/-! ## Registers -/

@[simp] theorem keeps_setReg (sz : Sz) (r : Reg) (v : BitVec sz.bits) : M.Keeps (setReg sz r v) :=
  keeps_modify fun _ => .of_eq rfl rfl rfl rfl rfl rfl rfl rfl rfl rfl rfl rfl
@[simp] theorem keeps_getReg (sz : Sz) (r : Reg) : M.Keeps (getReg sz r) := fun s => Kept.refl s
@[simp] theorem keeps_modifyFlags (f : Flags → Flags) : M.Keeps (modifyFlags f) :=
  keeps_modify fun _ => .of_eq rfl rfl rfl rfl rfl rfl rfl rfl rfl rfl rfl rfl
@[simp] theorem keeps_modifyFlagsFree (k : Nat) (f : (Nat → Bool) → Flags → Flags) : M.Keeps (modifyFlagsFree k f) :=
  keeps_modify fun _ => .of_eq rfl rfl rfl rfl rfl rfl rfl rfl rfl rfl rfl rfl
@[simp] theorem keeps_setSeg (r : SReg) (v : SegReg) : M.Keeps (setSeg r v) :=
  keeps_modify fun _ => .of_eq rfl rfl rfl rfl rfl rfl rfl rfl rfl rfl rfl rfl
@[simp] theorem keeps_freshNat : M.Keeps freshNat :=
  fun _ => .of_eq rfl rfl rfl rfl rfl rfl rfl rfl rfl rfl rfl rfl
@[simp] theorem keeps_freeBit : M.Keeps freeBit := by
  unfold freeBit
  repeat' first
    | with_reducible intro _
    | (with_reducible first | refine keeps_bind ?_ ?_ | refine keeps_ite ?_ ?_ | refine keeps_map ?_)
    | assumption
    | (simp [*]; done)
    | split
    | dsimp only
@[simp] theorem keeps_freeDword : M.Keeps freeDword := by
  unfold freeDword
  repeat' first
    | with_reducible intro _
    | (with_reducible first | refine keeps_bind ?_ ?_ | refine keeps_ite ?_ ?_ | refine keeps_map ?_)
    | assumption
    | (simp [*]; done)
    | split
    | dsimp only
@[simp] theorem keeps_setNpc (v : Dword) : M.Keeps (setNpc v) :=
  keeps_modify fun _ => .of_eq rfl rfl rfl rfl rfl rfl rfl rfl rfl rfl rfl rfl
@[simp] theorem keeps_setSp (v : Dword) : M.Keeps (setSp v) :=
  keeps_modify fun _ => .of_eq rfl rfl rfl rfl rfl rfl rfl rfl rfl rfl rfl rfl

/-! ## Memory and translation -/

@[simp] theorem keeps_loadAt (ps : List Nat) : M.Keeps (loadAt ps) := fun s => Kept.refl s
@[simp] theorem keeps_storeAt (ps : List Nat) (v : Nat) : M.Keeps (storeAt ps v) :=
  keeps_modify fun _ => .of_fields (State.stored_wf · ps v) rfl rfl rfl rfl rfl rfl rfl rfl rfl rfl id
@[simp] theorem keeps_sample (ps : List Nat) : M.Keeps (sample ps) :=
  keeps_modify fun _ => by refine .of_fields (State.sampled_wf · ps) ?_ ?_ ?_ ?_ ?_ ?_ ?_ ?_ ?_ ?_ ?_ <;> simp
@[simp] theorem keeps_readEntry (pa n : Nat) : M.Keeps (readEntry pa n) := by
  unfold readEntry
  repeat' first
    | with_reducible intro _
    | (with_reducible first | refine keeps_bind ?_ ?_ | refine keeps_ite ?_ ?_ | refine keeps_map ?_)
    | assumption
    | (simp [*]; done)
    | split
    | dsimp only
@[simp] theorem keeps_lookup (la : Nat) : M.Keeps (lookup la) := by
  unfold lookup
  repeat' first
    | with_reducible intro _
    | (with_reducible first | refine keeps_bind ?_ ?_ | refine keeps_ite ?_ ?_ | refine keeps_map ?_)
    | assumption
    | (simp [*]; done)
    | split
    | dsimp only
@[simp] theorem keeps_orMem (pa : Nat) (mask : Byte) : M.Keeps (orMem pa mask) := by
  unfold orMem
  apply keeps_getBind
  intro s
  rw [M.ite_run]
  split
  · exact Kept.refl s
  · exact .of_fields (State.stored_wf · _ _) rfl rfl rfl rfl rfl rfl rfl rfl rfl rfl id
@[simp] theorem keeps_cacheTlb (e : TlbEntry) : M.Keeps (cacheTlb e) := by
  apply keeps_modify
  intro s
  split
  · exact Kept.refl s
  · exact .of_eq rfl rfl rfl rfl rfl rfl rfl rfl rfl rfl rfl rfl
@[simp] theorem keeps_flushTlbAll : M.Keeps flushTlbAll :=
  keeps_modify fun _ => .of_eq rfl rfl rfl rfl rfl rfl rfl rfl rfl rfl rfl rfl
@[simp] theorem keeps_flushTlb : M.Keeps flushTlb :=
  keeps_modify fun _ => .of_eq rfl rfl rfl rfl rfl rfl rfl rfl rfl rfl rfl rfl
@[simp] theorem keeps_flushPage (la : Dword) : M.Keeps (flushPage la) :=
  keeps_modify fun _ => .of_eq rfl rfl rfl rfl rfl rfl rfl rfl rfl rfl rfl rfl
@[simp] theorem keeps_walk (la : Dword) (write user : Bool) : M.Keeps (walk la write user) := by
  unfold walk
  repeat' first
    | with_reducible intro _
    | (with_reducible first | refine keeps_bind ?_ ?_ | refine keeps_ite ?_ ?_ | refine keeps_map ?_)
    | assumption
    | (simp [*]; done)
    | split
    | dsimp only
@[simp] theorem keeps_translate (la : Dword) (write user : Bool) : M.Keeps (translate la write user) := by
  unfold translate
  refine keeps_bind keeps_get fun s => keeps_ite (by simp (maxDischargeDepth := 60)) ?_
  split
  · simp
  · refine keeps_bind (by simp (maxDischargeDepth := 60)) fun k => ?_
    dsimp only
    split <;> simp (maxDischargeDepth := 60)
@[simp] theorem keeps_physFrom (write user : Bool) : ∀ (n : Nat) (la : Dword) (prev : Option Nat),
    M.Keeps (physFrom write user n la prev)
  | 0, _, _ => by simp [physFrom]
  | n + 1, la, prev => by
    have ih := keeps_physFrom write user n
    unfold physFrom
    cases prev <;> simp (maxDischargeDepth := 60) [ih]
@[simp] theorem keeps_phys (la : Dword) (n : Nat) (write user : Bool) : M.Keeps (phys la n write user) :=
  keeps_physFrom write user n la none
@[simp] theorem keeps_sysRead (la : Dword) (n : Nat) : M.Keeps (sysRead la n) := by
  unfold sysRead
  repeat' first
    | with_reducible intro _
    | (with_reducible first | refine keeps_bind ?_ ?_ | refine keeps_ite ?_ ?_ | refine keeps_map ?_)
    | assumption
    | (simp [*]; done)
    | split
    | dsimp only
@[simp] theorem keeps_sysWrite (la : Dword) (n v : Nat) : M.Keeps (sysWrite la n v) := by
  unfold sysWrite
  repeat' first
    | with_reducible intro _
    | (with_reducible first | refine keeps_bind ?_ ?_ | refine keeps_ite ?_ ?_ | refine keeps_map ?_)
    | assumption
    | (simp [*]; done)
    | split
    | dsimp only
@[simp] theorem keeps_sysOr (la : Dword) (mask : Byte) : M.Keeps (sysOr la mask) := by
  unfold sysOr
  refine keeps_bind (by simp (maxDischargeDepth := 60)) fun ps => ?_
  split <;> simp (maxDischargeDepth := 60)

/-! ## Accesses -/

@[simp] theorem keeps_recordHits (kinds : BitVec 2 → Bool) (x n : Nat) : ∀ k, M.Keeps (recordHits kinds x n k)
  | 0 => by simp [recordHits]
  | i + 1 => by
    have ih := keeps_recordHits kinds x n i
    have hm : M.Keeps (modify fun s : State => { s with dbgHits := s.dbgHits ||| BitVec.ofNat 4 (2 ^ i) }) :=
      keeps_modify fun _ => .of_eq rfl rfl rfl rfl rfl rfl rfl rfl rfl rfl rfl rfl
    unfold recordHits
    refine keeps_bind ih fun _ => keeps_bind keeps_get fun s => keeps_ite ?_ (by simp)
    split
    · exact keeps_ite hm (by simp)
    · exact keeps_bind (by simp) fun _ => keeps_ite hm (by simp)
@[simp] theorem keeps_recordData (la : Dword) (n : Nat) (write : Bool) : M.Keeps (recordData la n write) := by
  unfold recordData
  repeat' first
    | with_reducible intro _
    | (with_reducible first | refine keeps_bind ?_ ?_ | refine keeps_ite ?_ ?_ | refine keeps_map ?_)
    | assumption
    | (simp [*]; done)
    | split
    | dsimp only
@[simp] theorem keeps_recordIo (port : Word) (n : Nat) : M.Keeps (recordIo port n) := by
  unfold recordIo
  repeat' first
    | with_reducible intro _
    | (with_reducible first | refine keeps_bind ?_ ?_ | refine keeps_ite ?_ ?_ | refine keeps_map ?_)
    | assumption
    | (simp [*]; done)
    | split
    | dsimp only
@[simp] theorem keeps_access (r : SReg) (off : Dword) (n al : Nat) (k : Acc) : M.Keeps (access r off n al k) := by
  unfold access
  repeat' first
    | with_reducible intro _
    | (with_reducible first | refine keeps_bind ?_ ?_ | refine keeps_ite ?_ ?_ | refine keeps_map ?_)
    | assumption
    | (simp [*]; done)
    | split
    | dsimp only
@[simp] theorem keeps_readSeg (r : SReg) (off : Dword) (n al : Nat) : M.Keeps (readSeg r off n al) := by
  unfold readSeg
  repeat' first
    | with_reducible intro _
    | (with_reducible first | refine keeps_bind ?_ ?_ | refine keeps_ite ?_ ?_ | refine keeps_map ?_)
    | assumption
    | (simp [*]; done)
    | split
    | dsimp only
@[simp] theorem keeps_writeSeg (r : SReg) (off : Dword) (n al v : Nat) : M.Keeps (writeSeg r off n al v) := by
  unfold writeSeg
  repeat' first
    | with_reducible intro _
    | (with_reducible first | refine keeps_bind ?_ ?_ | refine keeps_ite ?_ ?_ | refine keeps_map ?_)
    | assumption
    | (simp [*]; done)
    | split
    | dsimp only
@[simp] theorem keeps_accessEa (a : Ea) (n al : Nat) (k : Acc) : M.Keeps (accessEa a n al k) := by
  unfold accessEa
  repeat' first
    | with_reducible intro _
    | (with_reducible first | refine keeps_bind ?_ ?_ | refine keeps_ite ?_ ?_ | refine keeps_map ?_)
    | assumption
    | (simp [*]; done)
    | split
    | dsimp only
@[simp] theorem keeps_readEa (a : Ea) (n al : Nat) : M.Keeps (readEa a n al) := by
  unfold readEa
  repeat' first
    | with_reducible intro _
    | (with_reducible first | refine keeps_bind ?_ ?_ | refine keeps_ite ?_ ?_ | refine keeps_map ?_)
    | assumption
    | (simp [*]; done)
    | split
    | dsimp only
@[simp] theorem keeps_writeEa (a : Ea) (n al v : Nat) : M.Keeps (writeEa a n al v) := by
  unfold writeEa
  repeat' first
    | with_reducible intro _
    | (with_reducible first | refine keeps_bind ?_ ?_ | refine keeps_ite ?_ ?_ | refine keeps_map ?_)
    | assumption
    | (simp [*]; done)
    | split
    | dsimp only
@[simp] theorem keeps_needMem (m : Rm) : M.Keeps (needMem m) := by cases m <;> simp (maxDischargeDepth := 60) [needMem]
@[simp] theorem keeps_locate (sz : Sz) (m : Rm) (k : Acc) : M.Keeps (locate sz m k) := by
  cases m <;> simp (maxDischargeDepth := 60) [locate]
@[simp] theorem keeps_locRead (sz : Sz) (l : Loc) : M.Keeps (l.read sz) := by cases l <;> simp (maxDischargeDepth := 60) [Loc.read]
@[simp] theorem keeps_locWrite (sz : Sz) (l : Loc) (v : BitVec sz.bits) : M.Keeps (l.write sz v) := by
  cases l <;> simp (maxDischargeDepth := 60) [Loc.write]
@[simp] theorem keeps_readRm (sz : Sz) (m : Rm) : M.Keeps (readRm sz m) := by
  unfold readRm
  repeat' first
    | with_reducible intro _
    | (with_reducible first | refine keeps_bind ?_ ?_ | refine keeps_ite ?_ ?_ | refine keeps_map ?_)
    | assumption
    | (simp [*]; done)
    | split
    | dsimp only
@[simp] theorem keeps_writeRm (sz : Sz) (m : Rm) (v : BitVec sz.bits) : M.Keeps (writeRm sz m v) := by
  unfold writeRm
  repeat' first
    | with_reducible intro _
    | (with_reducible first | refine keeps_bind ?_ ?_ | refine keeps_ite ?_ ?_ | refine keeps_map ?_)
    | assumption
    | (simp [*]; done)
    | split
    | dsimp only
@[simp] theorem keeps_pushN (n v : Nat) : M.Keeps (pushN n v) := by
  unfold pushN
  repeat' first
    | with_reducible intro _
    | (with_reducible first | refine keeps_bind ?_ ?_ | refine keeps_ite ?_ ?_ | refine keeps_map ?_)
    | assumption
    | (simp [*]; done)
    | split
    | dsimp only
@[simp] theorem keeps_popN (n : Nat) : M.Keeps (popN n) := by
  have hm : ∀ a : Dword, M.Keeps (modify fun s : State => s.setSp (s.sp + a)) := fun _ =>
    keeps_modify fun _ => .of_eq rfl rfl rfl rfl rfl rfl rfl rfl rfl rfl rfl rfl
  unfold popN
  repeat' first
    | with_reducible intro _
    | (with_reducible first | refine keeps_bind ?_ ?_ | refine keeps_ite ?_ ?_ | refine keeps_map ?_)
    | assumption
    | (simp [*]; done)
    | split
    | dsimp only
@[simp] theorem keeps_pushSz (sz : Sz) (v : BitVec sz.bits) : M.Keeps (pushSz sz v) := keeps_pushN _ _
@[simp] theorem keeps_popSz (sz : Sz) : M.Keeps (popSz sz) := by
  unfold popSz
  repeat' first
    | with_reducible intro _
    | (with_reducible first | refine keeps_bind ?_ ?_ | refine keeps_ite ?_ ?_ | refine keeps_map ?_)
    | assumption
    | (simp [*]; done)
    | split
    | dsimp only

/-! ## Descriptors and segment registers -/

@[simp] theorem keeps_readDesc (sel : Word) : M.Keeps (readDesc sel) := by
  unfold readDesc
  refine keeps_bind (by simp (maxDischargeDepth := 60)) fun s => ?_
  split <;> simp (maxDischargeDepth := 60)
@[simp] theorem keeps_needDesc (sel : Word) (e : Exc) : M.Keeps (needDesc sel e) := by
  unfold needDesc
  refine keeps_bind (by simp (maxDischargeDepth := 60)) fun s => ?_
  split <;> simp (maxDischargeDepth := 60)
@[simp] theorem keeps_needDescOf (sel : Word) (ok : Desc → Bool) (e : Exc) : M.Keeps (needDescOf sel ok e) := by
  unfold needDescOf
  repeat' first
    | with_reducible intro _
    | (with_reducible first | refine keeps_bind ?_ ?_ | refine keeps_ite ?_ ?_ | refine keeps_map ?_)
    | assumption
    | (simp [*]; done)
    | split
    | dsimp only
@[simp] theorem keeps_setAccessed (d : Desc) : M.Keeps (setAccessed d) := by
  unfold setAccessed
  repeat' first
    | with_reducible intro _
    | (with_reducible first | refine keeps_bind ?_ ?_ | refine keeps_ite ?_ ?_ | refine keeps_map ?_)
    | assumption
    | (simp [*]; done)
    | split
    | dsimp only
@[simp] theorem keeps_load86 (r : SReg) (sel : Word) : M.Keeps (load86 r sel) := by
  unfold load86
  repeat' first
    | with_reducible intro _
    | (with_reducible first | refine keeps_bind ?_ ?_ | refine keeps_ite ?_ ?_ | refine keeps_map ?_)
    | assumption
    | (simp [*]; done)
    | split
    | dsimp only
@[simp] theorem keeps_return86 (sel : Word) : M.Keeps (return86 sel) := by
  unfold return86
  repeat' first
    | with_reducible intro _
    | (with_reducible first | refine keeps_bind ?_ ?_ | refine keeps_ite ?_ ?_ | refine keeps_map ?_)
    | assumption
    | (simp [*]; done)
    | split
    | dsimp only
@[simp] theorem keeps_loadV86 (r : SReg) (sel : Word) : M.Keeps (loadV86 r sel) :=
  keeps_modify fun _ => .of_eq rfl rfl rfl rfl rfl rfl rfl rfl rfl rfl rfl rfl
@[simp] theorem keeps_loadDataSeg (r : SReg) (sel : Word) : M.Keeps (loadDataSeg r sel) := by
  have hm : M.Keeps (modify fun s : State => { s with seg := s.seg.set r { s.seg.get r with sel := sel, valid := false } }) :=
    keeps_modify fun _ => .of_eq rfl rfl rfl rfl rfl rfl rfl rfl rfl rfl rfl rfl
  unfold loadDataSeg
  repeat' first
    | with_reducible intro _
    | (with_reducible first | refine keeps_bind ?_ ?_ | refine keeps_ite ?_ ?_ | refine keeps_map ?_)
    | assumption
    | (simp [*]; done)
    | split
    | dsimp only
@[simp] theorem keeps_loadSs (sel : Word) : M.Keeps (loadSs sel) := by
  unfold loadSs
  repeat' first
    | with_reducible intro _
    | (with_reducible first | refine keeps_bind ?_ ?_ | refine keeps_ite ?_ ?_ | refine keeps_map ?_)
    | assumption
    | (simp [*]; done)
    | split
    | dsimp only
@[simp] theorem keeps_loadSegReg (r : SReg) (sel : Word) : M.Keeps (loadSegReg r sel) := by
  unfold loadSegReg
  repeat' first
    | with_reducible intro _
    | (with_reducible first | refine keeps_bind ?_ ?_ | refine keeps_ite ?_ ?_ | refine keeps_map ?_)
    | assumption
    | (simp [*]; done)
    | split
    | dsimp only
@[simp] theorem keeps_loadCs (sel : Word) (d : Desc) (pl : Nat) : M.Keeps (loadCs sel d pl) := by
  have hm : M.Keeps (modify fun s : State =>
      { s with seg := { s.seg with cs := d.loaded (withRpl sel pl) }, cpl := BitVec.ofNat 2 pl }) :=
    keeps_modify fun _ => .of_eq rfl rfl rfl rfl rfl rfl rfl rfl rfl rfl rfl rfl
  unfold loadCs
  repeat' first
    | with_reducible intro _
    | (with_reducible first | refine keeps_bind ?_ ?_ | refine keeps_ite ?_ ?_ | refine keeps_map ?_)
    | assumption
    | (simp [*]; done)
    | split
    | dsimp only
@[simp] theorem keeps_checkIo (port : Word) (n : Nat) : M.Keeps (checkIo port n) := by
  unfold checkIo
  repeat' first
    | with_reducible intro _
    | (with_reducible first | refine keeps_bind ?_ ?_ | refine keeps_ite ?_ ?_ | refine keeps_map ?_)
    | assumption
    | (simp [*]; done)
    | split
    | dsimp only
@[simp] theorem keeps_loadStack (ss : Word) (esp : Dword) (d : Desc) : M.Keeps (loadStack ss esp d) := by
  have hm : M.Keeps (modify fun s : State =>
      { s with seg := { s.seg with ss := d.loaded ss }, gpr := { s.gpr with esp := esp } }) :=
    keeps_modify fun _ => .of_eq rfl rfl rfl rfl rfl rfl rfl rfl rfl rfl rfl rfl
  unfold loadStack
  repeat' first
    | with_reducible intro _
    | (with_reducible first | refine keeps_bind ?_ ?_ | refine keeps_ite ?_ ?_ | refine keeps_map ?_)
    | assumption
    | (simp [*]; done)
    | split
    | dsimp only
@[simp] theorem keeps_pushAll (n : Nat) : ∀ vs, M.Keeps (pushAll n vs)
  | [] => by simp [pushAll]
  | v :: vs => by
    have ih := keeps_pushAll n vs
    simp [pushAll, ih]

/-! ## Task switches -/

@[simp] theorem keeps_keepFaults {m : M α} (h : M.Keeps m) : M.Keeps (keepFaults m) := by
  intro s
  have hs := h s
  unfold keepFaults
  cases hx : m s with
  | ok a t => rw [hx] at hs; exact hs
  | error e t =>
    rw [hx] at hs
    cases e <;> first | exact hs | (dsimp only; split <;> exact hs)
@[simp] theorem keeps_withExt {m : M α} (b : Bool) (h : M.Keeps m) : M.Keeps (withExt b m) := by
  intro s
  have hs := h s
  unfold withExt
  cases hx : m s with
  | ok a t => rw [hx] at hs; exact hs
  | error e t =>
    rw [hx] at hs
    cases e <;> exact hs
@[simp] theorem keeps_markBusy (sel : Word) (busy : Bool) : M.Keeps (markBusy sel busy) := by
  unfold markBusy
  repeat' first
    | with_reducible intro _
    | (with_reducible first | refine keeps_bind ?_ ?_ | refine keeps_ite ?_ ?_ | refine keeps_map ?_)
    | (with_reducible first | refine keeps_keepFaults ?_ | refine keeps_withExt _ ?_)
    | assumption
    | (simp [*]; done)
    | split
    | dsimp only
@[simp] theorem keeps_saveFields (n step : Nat) : ∀ (vs : List Nat) (a : Dword), M.Keeps (saveFields n step a vs)
  | [], _ => by simp [saveFields]
  | v :: vs, a => by
    have ih := keeps_saveFields n step vs
    simp [saveFields, ih]
@[simp] theorem keeps_saveTask (eip img : Dword) : M.Keeps (saveTask eip img) := by
  unfold saveTask
  repeat' first
    | with_reducible intro _
    | (with_reducible first | refine keeps_bind ?_ ?_ | refine keeps_ite ?_ ?_ | refine keeps_map ?_)
    | (with_reducible first | refine keeps_keepFaults ?_ | refine keeps_withExt _ ?_)
    | assumption
    | (simp [*]; done)
    | split
    | dsimp only
@[simp] theorem keeps_readTask32 (b : Dword) : M.Keeps (readTask32 b) := by
  unfold readTask32
  repeat' first
    | with_reducible intro _
    | (with_reducible first | refine keeps_bind ?_ ?_ | refine keeps_ite ?_ ?_ | refine keeps_map ?_)
    | (with_reducible first | refine keeps_keepFaults ?_ | refine keeps_withExt _ ?_)
    | assumption
    | (simp [*]; done)
    | split
    | dsimp only
@[simp] theorem keeps_readTask16 (b : Dword) : M.Keeps (readTask16 b) := by
  unfold readTask16
  repeat' first
    | with_reducible intro _
    | (with_reducible first | refine keeps_bind ?_ ?_ | refine keeps_ite ?_ ?_ | refine keeps_map ?_)
    | (with_reducible first | refine keeps_keepFaults ?_ | refine keeps_withExt _ ?_)
    | assumption
    | (simp [*]; done)
    | split
    | dsimp only
theorem keeps_raiseIf_set (c : Bool) (e : Exc) {s t : State} (h : Kept s t) :
    Kept s (resultState ((raiseIf c e >>= fun _ => (set t : M Unit)) s)) := by
  cases c
  · exact h
  · exact Kept.refl s
@[simp] theorem keeps_loadPdptes : M.Keeps loadPdptes := by
  unfold loadPdptes
  refine keeps_bind keeps_get fun s0 => keeps_bind (keeps_sample _) fun _ => keeps_getBind fun s => ?_
  apply keeps_raiseIf_set
  exact .of_eq rfl rfl rfl rfl rfl rfl rfl rfl rfl rfl rfl rfl
@[simp] theorem keeps_loadTask (t : TaskImage) (is32 nested : Bool) : M.Keeps (loadTask t is32 nested) := by
  have hm : M.Keeps (modify fun s : State => { s with cr3 := t.cr3 }) :=
    keeps_modify fun _ => .of_eq rfl rfl rfl rfl rfl rfl rfl rfl rfl rfl rfl rfl
  have ht : ∀ c : Prop, [Decidable c] → ∀ d : Prop, [Decidable d] → M.Keeps (if c then (do
      modify fun s : State => { s with cr3 := t.cr3 }
      flushTlb
      if d then loadPdptes else pure ()) else pure ()) := by
    intro c _ d _; simp (maxDischargeDepth := 60) [hm]
  intro s
  unfold loadTask
  simp only [M.bind_run, M.get_run, M.set_run]
  refine Kept.trans ?_ (ht _ _ _)
  exact .of_eq rfl rfl rfl rfl rfl rfl rfl rfl rfl rfl rfl rfl
@[simp] theorem keeps_loadLdtr (sel : Word) : M.Keeps (loadLdtr sel) := by
  have hm : ∀ d : Desc, M.Keeps (modify fun s : State => { s with ldtr := d.seg sel }) := fun _ =>
    keeps_modify fun _ => .of_eq rfl rfl rfl rfl rfl rfl rfl rfl rfl rfl rfl rfl
  unfold loadLdtr
  repeat' first
    | with_reducible intro _
    | (with_reducible first | refine keeps_bind ?_ ?_ | refine keeps_ite ?_ ?_ | refine keeps_map ?_)
    | (with_reducible first | refine keeps_keepFaults ?_ | refine keeps_withExt _ ?_)
    | assumption
    | (simp [*]; done)
    | split
    | dsimp only
@[simp] theorem keeps_loadTaskCs (sel : Word) : M.Keeps (loadTaskCs sel) := by
  unfold loadTaskCs
  repeat' first
    | with_reducible intro _
    | (with_reducible first | refine keeps_bind ?_ ?_ | refine keeps_ite ?_ ?_ | refine keeps_map ?_)
    | (with_reducible first | refine keeps_keepFaults ?_ | refine keeps_withExt _ ?_)
    | assumption
    | (simp [*]; done)
    | split
    | dsimp only
@[simp] theorem keeps_loadTaskSs (sel : Word) : M.Keeps (loadTaskSs sel) := by
  unfold loadTaskSs
  repeat' first
    | with_reducible intro _
    | (with_reducible first | refine keeps_bind ?_ ?_ | refine keeps_ite ?_ ?_ | refine keeps_map ?_)
    | (with_reducible first | refine keeps_keepFaults ?_ | refine keeps_withExt _ ?_)
    | assumption
    | (simp [*]; done)
    | split
    | dsimp only
@[simp] theorem keeps_loadTaskData (r : SReg) (sel : Word) : M.Keeps (loadTaskData r sel) := by
  unfold loadTaskData
  repeat' first
    | with_reducible intro _
    | (with_reducible first | refine keeps_bind ?_ ?_ | refine keeps_ite ?_ ?_ | refine keeps_map ?_)
    | (with_reducible first | refine keeps_keepFaults ?_ | refine keeps_withExt _ ?_)
    | assumption
    | (simp [*]; done)
    | split
    | dsimp only
@[simp] theorem keeps_loadTaskSegs (t : TaskImage) : M.Keeps (loadTaskSegs t) := by
  unfold loadTaskSegs
  repeat' first
    | with_reducible intro _
    | (with_reducible first | refine keeps_bind ?_ ?_ | refine keeps_ite ?_ ?_ | refine keeps_map ?_)
    | (with_reducible first | refine keeps_keepFaults ?_ | refine keeps_withExt _ ?_)
    | assumption
    | (simp [*]; done)
    | split
    | dsimp only

/-- TS is set, and only the enables of DR7 change. -/
theorem Kept.of_switch {s t : State} (hm : t.mem = s.mem) (h1 : t.gdtr = s.gdtr) (h2 : t.idtr = s.idtr)
    (h3 : t.cr0 = s.cr0 ||| 8#32) (h4 : t.cr4 = s.cr4) (h5 : t.dr0 = s.dr0) (h6 : t.dr1 = s.dr1)
    (h7 : t.dr2 = s.dr2) (h8 : t.dr3 = s.dr3) (h9 : t.msrs = s.msrs) (h10 : t.dr7 = s.dr7 &&& 0xFFFFFEAA#32)
    (h11 : t.fpu.cw = s.fpu.cw) : Kept s t := by
  refine ⟨fun l => ⟨hm ▸ l.memory, h9 ▸ l.msrs, ?_, ?_, ?_, h4 ▸ l.cr4, ?_, h11 ▸ l.cw⟩,
    ⟨h1, h2, ?_, h4, h5, h6, h7, h8, h9⟩⟩
  · have := l.paging; rw [h3]; simpa using this
  · have := l.caching; rw [h3]; simpa using this
  · have := l.et; rw [h3]; simpa using this
  · have := l.dr7
    rw [h10, BitVec.and_assoc]
    exact this
  · rw [h3, BitVec.or_assoc, BitVec.or_self]

@[simp] theorem keeps_leaveTask (tsel : Word) (xs : SegReg) (kind : SwitchKind) (ret img : Dword) :
    M.Keeps (leaveTask tsel xs kind ret img) := by
  have hm : M.Keeps (modify fun s : State => { s with
      tr := { xs with typ := xs.typ ||| 2#4 }, cr0 := s.cr0 ||| 8#32, dr7 := s.dr7 &&& 0xFFFFFEAA#32 }) :=
    keeps_modify fun _ => .of_switch rfl rfl rfl rfl rfl rfl rfl rfl rfl rfl rfl rfl
  unfold leaveTask
  repeat' first
    | with_reducible intro _
    | (with_reducible first | refine keeps_bind ?_ ?_ | refine keeps_ite ?_ ?_ | refine keeps_map ?_)
    | (with_reducible first | refine keeps_keepFaults ?_ | refine keeps_withExt _ ?_)
    | assumption
    | (simp [*]; done)
    | split
    | dsimp only
@[simp] theorem keeps_enterTask (xs : SegReg) (nested : Bool) (old : Word) : M.Keeps (enterTask xs nested old) := by
  unfold enterTask
  repeat' first
    | with_reducible intro _
    | (with_reducible first | refine keeps_bind ?_ ?_ | refine keeps_ite ?_ ?_ | refine keeps_map ?_)
    | (with_reducible first | refine keeps_keepFaults ?_ | refine keeps_withExt _ ?_)
    | assumption
    | (simp [*]; done)
    | split
    | dsimp only
@[simp] theorem keeps_switchTasks (tsel : Word) (x : Desc) (kind : SwitchKind) (ret img : Dword) :
    M.Keeps (switchTasks tsel x kind ret img) := by
  unfold switchTasks
  repeat' first
    | with_reducible intro _
    | (with_reducible first | refine keeps_bind ?_ ?_ | refine keeps_ite ?_ ?_ | refine keeps_map ?_)
    | (with_reducible first | refine keeps_keepFaults ?_ | refine keeps_withExt _ ?_)
    | assumption
    | (simp [*]; done)
    | split
    | dsimp only
@[simp] theorem keeps_afterSwitch (trap : Bool) : M.Keeps (afterSwitch trap) := by
  unfold afterSwitch
  repeat' first
    | with_reducible intro _
    | (with_reducible first | refine keeps_bind ?_ ?_ | refine keeps_ite ?_ ?_ | refine keeps_map ?_)
    | (with_reducible first | refine keeps_keepFaults ?_ | refine keeps_withExt _ ?_)
    | assumption
    | (simp [*]; done)
    | split
    | dsimp only
@[simp] theorem keeps_tssStack (pl : Nat) : M.Keeps (tssStack pl) := by
  unfold tssStack
  repeat' first
    | with_reducible intro _
    | (with_reducible first | refine keeps_bind ?_ ?_ | refine keeps_ite ?_ ?_ | refine keeps_map ?_)
    | (with_reducible first | refine keeps_keepFaults ?_ | refine keeps_withExt _ ?_)
    | assumption
    | (simp [*]; done)
    | split
    | dsimp only
@[simp] theorem keeps_innerStack (pl : Nat) (ext : Bool) : M.Keeps (innerStack pl ext) := by
  unfold innerStack
  repeat' first
    | with_reducible intro _
    | (with_reducible first | refine keeps_bind ?_ ?_ | refine keeps_ite ?_ ?_ | refine keeps_map ?_)
    | (with_reducible first | refine keeps_keepFaults ?_ | refine keeps_withExt _ ?_)
    | assumption
    | (simp [*]; done)
    | split
    | dsimp only

/-! ## Delivery -/

@[simp] theorem keeps_deliverReal (ev : Event) : M.Keeps (deliverReal ev) := by
  unfold deliverReal
  repeat' first
    | with_reducible intro _
    | (with_reducible first | refine keeps_bind ?_ ?_ | refine keeps_ite ?_ ?_ | refine keeps_map ?_)
    | (with_reducible first | refine keeps_keepFaults ?_ | refine keeps_withExt _ ?_)
    | assumption
    | (simp [*]; done)
    | split
    | dsimp only
@[simp] theorem keeps_deliverIntra (ev : Event) (g : Gate) (d : Desc) : M.Keeps (deliverIntra ev g d) := by
  unfold deliverIntra
  repeat' first
    | with_reducible intro _
    | (with_reducible first | refine keeps_bind ?_ ?_ | refine keeps_ite ?_ ?_ | refine keeps_map ?_)
    | (with_reducible first | refine keeps_keepFaults ?_ | refine keeps_withExt _ ?_)
    | assumption
    | (simp [*]; done)
    | split
    | dsimp only
@[simp] theorem keeps_deliverInter (ev : Event) (g : Gate) (d : Desc) : M.Keeps (deliverInter ev g d) := by
  have hm : M.Keeps (modify fun s : State => { s with seg := { s.seg with
      gs := s.seg.gs.nulled, fs := s.seg.fs.nulled, ds := s.seg.ds.nulled, es := s.seg.es.nulled } }) :=
    keeps_modify fun _ => .of_eq rfl rfl rfl rfl rfl rfl rfl rfl rfl rfl rfl rfl
  unfold deliverInter
  repeat' first
    | with_reducible intro _
    | (with_reducible first | refine keeps_bind ?_ ?_ | refine keeps_ite ?_ ?_ | refine keeps_map ?_)
    | (with_reducible first | refine keeps_keepFaults ?_ | refine keeps_withExt _ ?_)
    | assumption
    | (simp [*]; done)
    | split
    | dsimp only
@[simp] theorem keeps_deliverGate (ev : Event) (g : Gate) : M.Keeps (deliverGate ev g) := by
  unfold deliverGate
  repeat' first
    | with_reducible intro _
    | (with_reducible first | refine keeps_bind ?_ ?_ | refine keeps_ite ?_ ?_ | refine keeps_map ?_)
    | (with_reducible first | refine keeps_keepFaults ?_ | refine keeps_withExt _ ?_)
    | assumption
    | (simp [*]; done)
    | split
    | dsimp only
@[simp] theorem keeps_deliverTask (ev : Event) (g : Gate) : M.Keeps (deliverTask ev g) := by
  unfold deliverTask
  refine keeps_bind (by simp (maxDischargeDepth := 60)) fun s => keeps_bind (by simp (maxDischargeDepth := 60)) fun _ => keeps_bind (by simp (maxDischargeDepth := 60)) fun x =>
    keeps_bind (by simp (maxDischargeDepth := 60)) fun _ => keeps_bind (by simp (maxDischargeDepth := 60)) fun trap => keeps_bind (keeps_keepFaults ?_) fun _ => by simp
  repeat' first
    | with_reducible intro _
    | (with_reducible first | refine keeps_bind ?_ ?_ | refine keeps_ite ?_ ?_ | refine keeps_map ?_)
    | (with_reducible first | refine keeps_keepFaults ?_ | refine keeps_withExt _ ?_)
    | assumption
    | (simp [*]; done)
    | split
    | dsimp only
@[simp] theorem keeps_deliverProt (ev : Event) : M.Keeps (deliverProt ev) := by
  unfold deliverProt
  repeat' first
    | with_reducible intro _
    | (with_reducible first | refine keeps_bind ?_ ?_ | refine keeps_ite ?_ ?_ | refine keeps_map ?_)
    | (with_reducible first | refine keeps_keepFaults ?_ | refine keeps_withExt _ ?_)
    | assumption
    | (simp [*]; done)
    | split
    | dsimp only
@[simp] theorem keeps_deliver (ev : Event) : M.Keeps (deliver ev) := by
  have hm : M.Keeps (modify fun s : State => { s with
      shadow := .none, activity := .running, interrupted := true
      nmiBlocked := s.nmiBlocked || (decide (ev.kind = .external) && decide (ev.vector = 2)) }) :=
    keeps_modify fun _ => .of_eq rfl rfl rfl rfl rfl rfl rfl rfl rfl rfl rfl rfl
  unfold deliver
  repeat' first
    | with_reducible intro _
    | (with_reducible first | refine keeps_bind ?_ ?_ | refine keeps_ite ?_ ?_ | refine keeps_map ?_)
    | (with_reducible first | refine keeps_keepFaults ?_ | refine keeps_withExt _ ?_)
    | assumption
    | (simp [*]; done)
    | split
    | dsimp only

/-! ## Taking an exception -/

theorem Kept.of_retired (u : State) : Kept u { u with eip := u.npc, adLog := [] } :=
  .of_eq rfl rfl rfl rfl rfl rfl rfl rfl rfl rfl rfl rfl

theorem kept_foldr (l : List (Nat × Byte)) {m : Memory} (h : m.wf = true) :
    (l.foldr (fun (a, k) (m : Memory) => m.write a (m.read a ||| k)) m).wf = true := by
  induction l with
  | nil => exact h
  | cons e t ih => exact Memory.write_wf ih _ _

/-- Undoing an instruction. -/
theorem kept_rollback (s t : State) : Kept s (s.rollback t) :=
  .of_fields (fun h => kept_foldr t.adLog h) rfl rfl rfl rfl rfl rfl rfl rfl rfl rfl id

/-- Recording an exception: GD may be cleared, the reserved bits of DR7 stay. -/
theorem kept_record (s : State) (e : Exc) : Kept s (s.record e) := by
  refine ⟨fun l => ⟨l.memory, l.msrs, l.paging, l.caching, l.et, l.cr4, ?_, l.cw⟩,
    ⟨rfl, rfl, rfl, rfl, rfl, rfl, rfl, rfl, rfl⟩⟩
  have := l.dr7
  simp only [State.record]
  split
  · rw [BitVec.and_assoc]; exact this
  · exact this

/-- Whatever an event leads to, the state after it is kept. -/
theorem kept_takeEvent : ∀ (n : Nat) (ev : Event) (s t : State), takeEvent n ev s = .next t → Kept s t
  | 0, ev, s, t, h => by
    cases h
    exact .of_eq rfl rfl rfl rfl rfl rfl rfl rfl rfl rfl rfl rfl
  | n + 1, ev, s, t, h => by
    have hd := keeps_deliver ev { s with adLog := [] }
    have h0 : Kept s { s with adLog := [] } := .of_eq rfl rfl rfl rfl rfl rfl rfl rfl rfl rfl rfl rfl
    have hn : ∀ (e : Exc) (u : State), Kept s u →
        (match nestedOf ev.cls e.event.cls with
          | .second => takeEvent n e.event u
          | .double => takeEvent n Exc.df.event u
          | .shutdown => .next u.shut) =
          (.next t : Host.Outcome State Fault Refusal) → Kept s t := by
      intro e u hu hh
      split at hh
      · exact hu.trans (kept_takeEvent n _ u t hh)
      · exact hu.trans (kept_takeEvent n _ u t hh)
      · cases hh; exact hu.trans (.of_eq rfl rfl rfl rfl rfl rfl rfl rfl rfl rfl rfl rfl)
    unfold takeEvent at h
    dsimp only at h
    cases hx : deliver ev { s with adLog := [] } with
    | ok a u =>
      rw [hx] at h hd
      cases h
      exact h0.trans (hd.trans (.of_eq rfl rfl rfl rfl rfl rfl rfl rfl rfl rfl rfl rfl))
    | error e u =>
      rw [hx] at h hd
      cases e with
      | exc e =>
        refine hn e _ ((kept_rollback s u).trans (Kept.trans ?_ (kept_record _ e))) h
        exact .of_eq rfl rfl rfl rfl rfl rfl rfl rfl rfl rfl rfl rfl
      | excKeep e =>
        refine hn e _ ?_ h
        exact h0.trans (hd.trans ((Kept.of_retired u).trans (kept_record _ e)))
      | shutdown =>
        cases h
        exact (kept_rollback s u).trans (.of_eq rfl rfl rfl rfl rfl rfl rfl rfl rfl rfl rfl rfl)
      | freeze =>
        cases h
        exact (kept_rollback s u).trans (.of_eq rfl rfl rfl rfl rfl rfl rfl rfl rfl rfl rfl rfl)
      | software v =>
        cases h
        exact (kept_rollback s u).trans (.of_eq rfl rfl rfl rfl rfl rfl rfl rfl rfl rfl rfl rfl)
      | refuse r => cases h

/-- Taking an exception. -/
theorem kept_takeExc {e : Exc} {s t : State} (h : takeExc e s = .next t) : Kept s t :=
  (kept_record s e).trans (kept_takeEvent _ _ _ _ h)

/-- The end of a meaning that keeps what is to be kept. -/
theorem kept_finish {m : M Unit} {s t : State} (hm : Kept s (resultState (m s)))
    (h : finish s (m s) = .next t) : Kept s t := by
  cases hx : m s with
  | ok a u =>
    rw [hx] at h hm
    cases h
    exact hm.trans (.of_eq rfl rfl rfl rfl rfl rfl rfl rfl rfl rfl rfl rfl)
  | error e u =>
    rw [hx] at h hm
    cases e with
    | exc e => exact (kept_rollback s u).trans (kept_takeExc h)
    | excKeep e =>
      exact hm.trans ((Kept.of_retired u).trans (kept_takeExc h))
    | shutdown =>
      cases h
      exact (kept_rollback s u).trans (.of_eq rfl rfl rfl rfl rfl rfl rfl rfl rfl rfl rfl rfl)
    | freeze =>
      cases h
      exact (kept_rollback s u).trans (.of_eq rfl rfl rfl rfl rfl rfl rfl rfl rfl rfl rfl rfl)
    | software v => exact hm.trans (kept_takeEvent _ _ _ _ h)
    | refuse r => cases h

/-- Running a meaning, from what is known of it on this state. -/
theorem kept_runWith {lockable : Bool} {rep : RepUse} {m : M Unit} {s t : State}
    (hm : Kept s (resultState (m s))) (h : runWith lockable rep m s = .next t) : Kept s t := by
  unfold runWith at h
  split at h
  · exact kept_takeExc h
  · split at h
    · exact kept_finish hm h
    · cases h

/-- Running a meaning that keeps everything. -/
theorem kept_run {lockable : Bool} {rep : RepUse} {m : M Unit} (hm : M.Keeps m) {s t : State}
    (h : runWith lockable rep m s = .next t) : Kept s t := kept_runWith (hm s) h

/-! ## Return from an interrupt -/

@[simp] theorem keeps_loadRf (os32 : Bool) : M.Keeps (loadRf os32) :=
  keeps_modify fun _ => .of_eq rfl rfl rfl rfl rfl rfl rfl rfl rfl rfl rfl rfl
@[simp] theorem keeps_popFrame (n : Nat) : M.Keeps (popFrame n) := by
  unfold popFrame
  repeat' first
    | with_reducible intro _
    | (with_reducible first | refine keeps_bind ?_ ?_ | refine keeps_ite ?_ ?_ | refine keeps_map ?_)
    | (with_reducible first | refine keeps_keepFaults ?_ | refine keeps_withExt _ ?_)
    | assumption
    | (simp [*]; done)
    | split
    | dsimp only
@[simp] theorem keeps_iretReal : M.Keeps iretReal := by
  unfold iretReal
  repeat' first
    | with_reducible intro _
    | (with_reducible first | refine keeps_bind ?_ ?_ | refine keeps_ite ?_ ?_ | refine keeps_map ?_)
    | (with_reducible first | refine keeps_keepFaults ?_ | refine keeps_withExt _ ?_)
    | assumption
    | (simp [*]; done)
    | split
    | dsimp only
@[simp] theorem keeps_iretV86 : M.Keeps iretV86 := by
  unfold iretV86
  repeat' first
    | with_reducible intro _
    | (with_reducible first | refine keeps_bind ?_ ?_ | refine keeps_ite ?_ ?_ | refine keeps_map ?_)
    | (with_reducible first | refine keeps_keepFaults ?_ | refine keeps_withExt _ ?_)
    | assumption
    | (simp [*]; done)
    | split
    | dsimp only
@[simp] theorem keeps_iretToV86 (ip : Dword) (cs : Word) (fl : Dword) : M.Keeps (iretToV86 ip cs fl) := by
  have hm : ∀ e : Nat, M.Keeps (modify fun s : State => { s with
      flags := .ofDword fl, rfKept := true, cpl := 3#2, npc := ip, gpr := { s.gpr with esp := BitVec.ofNat 32 e } }) := fun _ =>
    keeps_modify fun _ => .of_eq rfl rfl rfl rfl rfl rfl rfl rfl rfl rfl rfl rfl
  unfold iretToV86
  repeat' first
    | with_reducible intro _
    | (with_reducible first | refine keeps_bind ?_ ?_ | refine keeps_ite ?_ ?_ | refine keeps_map ?_)
    | (with_reducible first | refine keeps_keepFaults ?_ | refine keeps_withExt _ ?_)
    | assumption
    | (simp [*]; done)
    | split
    | dsimp only
@[simp] theorem keeps_cleanSegs (pl : Nat) : M.Keeps (cleanSegs pl) :=
  keeps_modify fun _ => .of_eq rfl rfl rfl rfl rfl rfl rfl rfl rfl rfl rfl rfl
@[simp] theorem keeps_returnDesc (cs : Word) : M.Keeps (returnDesc cs) := by
  unfold returnDesc
  repeat' first
    | with_reducible intro _
    | (with_reducible first | refine keeps_bind ?_ ?_ | refine keeps_ite ?_ ?_ | refine keeps_map ?_)
    | (with_reducible first | refine keeps_keepFaults ?_ | refine keeps_withExt _ ?_)
    | assumption
    | (simp [*]; done)
    | split
    | dsimp only
@[simp] theorem keeps_returnStack (ss cs : Word) : M.Keeps (returnStack ss cs) := by
  unfold returnStack
  repeat' first
    | with_reducible intro _
    | (with_reducible first | refine keeps_bind ?_ ?_ | refine keeps_ite ?_ ?_ | refine keeps_map ?_)
    | (with_reducible first | refine keeps_keepFaults ?_ | refine keeps_withExt _ ?_)
    | assumption
    | (simp [*]; done)
    | split
    | dsimp only
@[simp] theorem keeps_setOuterStack (os32 : Bool) (ss : Word) (d : Desc) (old esp : Dword) :
    M.Keeps (setOuterStack os32 ss d old esp) := by
  unfold setOuterStack
  repeat' first
    | with_reducible intro _
    | (with_reducible first | refine keeps_bind ?_ ?_ | refine keeps_ite ?_ ?_ | refine keeps_map ?_)
    | (with_reducible first | refine keeps_keepFaults ?_ | refine keeps_withExt _ ?_)
    | assumption
    | (simp [*]; done)
    | split
    | dsimp only
@[simp] theorem keeps_iretProt (old ip : Dword) (cs : Word) (fl : Dword) : M.Keeps (iretProt old ip cs fl) := by
  unfold iretProt
  repeat' first
    | with_reducible intro _
    | (with_reducible first | refine keeps_bind ?_ ?_ | refine keeps_ite ?_ ?_ | refine keeps_map ?_)
    | (with_reducible first | refine keeps_keepFaults ?_ | refine keeps_withExt _ ?_)
    | assumption
    | (simp [*]; done)
    | split
    | dsimp only
@[simp] theorem keeps_taskReturn : M.Keeps taskReturn := by
  unfold taskReturn
  repeat' first
    | with_reducible intro _
    | (with_reducible first | refine keeps_bind ?_ ?_ | refine keeps_ite ?_ ?_ | refine keeps_map ?_)
    | (with_reducible first | refine keeps_keepFaults ?_ | refine keeps_withExt _ ?_)
    | assumption
    | (simp [*]; done)
    | split
    | dsimp only
@[simp] theorem keeps_iret : M.Keeps iret := by
  have hm : M.Keeps (modify fun s : State => { s with nmiBlocked := false }) :=
    keeps_modify fun _ => .of_eq rfl rfl rfl rfl rfl rfl rfl rfl rfl rfl rfl rfl
  unfold iret
  repeat' first
    | with_reducible intro _
    | (with_reducible first | refine keeps_bind ?_ ?_ | refine keeps_ite ?_ ?_ | refine keeps_map ?_)
    | (with_reducible first | refine keeps_keepFaults ?_ | refine keeps_withExt _ ?_)
    | assumption
    | (simp [*]; done)
    | split
    | dsimp only

end Sys2Proof.Machine
end

