-- ==== Sys2Proof/Laws/KeptExec.lean ====
section
/-! SUPPORT. The bodies of the meanings keep a legal state legal and the registers of level 0 as they are, but for the
instructions that write those registers (Laws/KeptStep.lean). -/

namespace Sys2Proof.Machine

/-! ## The FPU control word -/

@[simp] theorem Fpu.setReg_cw (f : Fpu) (n : BitVec 3) (v : Ext) : (f.setReg n v).cw = f.cw := by
  unfold Fpu.setReg; split <;> rfl
@[simp] theorem Fpu.setTag_cw (f : Fpu) (n : BitVec 3) (t : BitVec 2) : (f.setTag n t).cw = f.cw := rfl
@[simp] theorem Fpu.setTop_cw (f : Fpu) (t : BitVec 3) : (f.setTop t).cw = f.cw := rfl
@[simp] theorem Fpu.setSt_cw (f : Fpu) (i : Nat) (v : Ext) : (f.setSt i v).cw = f.cw := by unfold Fpu.setSt; simp
@[simp] theorem Fpu.pop_cw (f : Fpu) : f.pop.cw = f.cw := rfl
@[simp] theorem Fpu.fixEs_cw (f : Fpu) : f.fixEs.cw = f.cw := rfl
@[simp] theorem Fpu.setMm_cw (f : Fpu) (i : Idx8) (v : Qword) : (f.setMm i v).cw = f.cw := by unfold Fpu.setMm; simp
@[simp] theorem Fpu.loadPtrs_cw (f : Fpu) (o p : Bool) (v : Nat) : (f.loadPtrs o p v).cw = f.cw := by
  cases o <;> cases p <;> rfl
@[simp] theorem Fpu.loadStack_cw (f : Fpu) (v : Nat) : ∀ k, (f.loadStack v k).cw = f.cw
  | 0 => rfl
  | k + 1 => by
    have ih := Fpu.loadStack_cw f v k
    simp [Fpu.loadStack, ih]
@[simp] theorem Fpu.loadEnv_cw (f : Fpu) (o p : Bool) (v : Nat) :
    (f.loadEnv o p v).cw = word16 v 0 ||| 0x0040#16 := by unfold Fpu.loadEnv; simp
@[simp] theorem Fpu.init_cw (f : Fpu) : f.init.cw = 0x037F#16 := rfl

theorem keeps_modifyFpu {g : Fpu → Fpu} (h : ∀ f, f.cw.getLsbD 6 = true → (g f).cw.getLsbD 6 = true) :
    M.Keeps (modifyFpu g) :=
  keeps_modify fun _ => .of_fields id rfl rfl rfl rfl rfl rfl rfl rfl rfl rfl (h _)

/-- A change of the FPU that leaves the control word. -/
theorem keeps_modifyFpuEq {g : Fpu → Fpu} (h : ∀ f, (g f).cw = f.cw) : M.Keeps (modifyFpu g) :=
  keeps_modifyFpu fun f k => by rw [h f]; exact k

theorem keeps_modifyRegA (r : Reg) (f : State → Dword) : M.Keeps (modify fun s : State => s.setRegA r (f s)) := by
  apply keeps_modify
  intro s
  unfold State.setRegA
  split <;> exact .of_eq rfl rfl rfl rfl rfl rfl rfl rfl rfl rfl rfl rfl

@[simp] theorem keeps_clts : M.Keeps clts := by
  unfold clts privileged
  refine keeps_bind (keeps_bind keeps_get fun _ => keeps_raiseIf _ _) fun _ => keeps_modify fun s => ?_
  refine ⟨fun l => ⟨l.memory, l.msrs, ?_, ?_, ?_, l.cr4, l.dr7, l.cw⟩, ⟨rfl, rfl, ?_, rfl, rfl, rfl, rfl, rfl, rfl⟩⟩
  · have := l.paging; simpa using this
  · have := l.caching; simpa using this
  · have := l.et; simpa using this
  · have h : ∀ i : Fin 32, (8#32)[i.val] = false → (0xFFFFFFF7#32)[i.val] = true := by decide
    ext i hi
    have := h ⟨i, hi⟩
    simp only [BitVec.getElem_or, BitVec.getElem_and]
    cases hc : (8#32)[i] <;> simp_all

/-! ## Alu -/

@[simp] theorem keeps_addOp (c : Bool) : ∀ sz a b, M.Keeps (addOp c sz a b) := by
  intros
  unfold addOp
  repeat' first
    | with_reducible intro _
    | (with_reducible first | refine keeps_bind ?_ ?_ | refine keeps_ite ?_ ?_ | refine keeps_map ?_)
    | assumption
    | (simp [*]; done)
    | exact keeps_modify fun _ => .of_eq rfl rfl rfl rfl rfl rfl rfl rfl rfl rfl rfl rfl
    | exact keeps_readRm _ _
    | exact keeps_locRead _ _
    | exact keeps_modifyRegA _ _
    | (apply keeps_modifyFpuEq; intro; simp; done)
    | (apply keeps_modifyFpu; intro _ h; simp [h]; done)
    | split
    | dsimp only

@[simp] theorem keeps_subOp (c : Bool) : ∀ sz a b, M.Keeps (subOp c sz a b) := by
  intros
  unfold subOp
  repeat' first
    | with_reducible intro _
    | (with_reducible first | refine keeps_bind ?_ ?_ | refine keeps_ite ?_ ?_ | refine keeps_map ?_)
    | assumption
    | (simp [*]; done)
    | exact keeps_modify fun _ => .of_eq rfl rfl rfl rfl rfl rfl rfl rfl rfl rfl rfl rfl
    | exact keeps_readRm _ _
    | exact keeps_locRead _ _
    | exact keeps_modifyRegA _ _
    | (apply keeps_modifyFpuEq; intro; simp; done)
    | (apply keeps_modifyFpu; intro _ h; simp [h]; done)
    | split
    | dsimp only

@[simp] theorem keeps_logicOp (g : {w : Nat} → BitVec w → BitVec w → BitVec w) :
    ∀ sz a b, M.Keeps (logicOp g sz a b) := by
  intros
  unfold logicOp
  repeat' first
    | with_reducible intro _
    | (with_reducible first | refine keeps_bind ?_ ?_ | refine keeps_ite ?_ ?_ | refine keeps_map ?_)
    | assumption
    | (simp [*]; done)
    | exact keeps_modify fun _ => .of_eq rfl rfl rfl rfl rfl rfl rfl rfl rfl rfl rfl rfl
    | exact keeps_readRm _ _
    | exact keeps_locRead _ _
    | exact keeps_modifyRegA _ _
    | (apply keeps_modifyFpuEq; intro; simp; done)
    | (apply keeps_modifyFpu; intro _ h; simp [h]; done)
    | split
    | dsimp only

@[simp] theorem keeps_binRm (write : Bool) (op : BinOp) (sz : Sz) (d : Rm) (b : BitVec sz.bits) (h0 : ∀ sz a b, M.Keeps (op sz a b)) :
    M.Keeps (binRm write op sz d b) := by
  unfold binRm
  repeat' first
    | with_reducible intro _
    | (with_reducible first | refine keeps_bind ?_ ?_ | refine keeps_ite ?_ ?_ | refine keeps_map ?_)
    | assumption
    | (simp [*]; done)
    | exact keeps_modify fun _ => .of_eq rfl rfl rfl rfl rfl rfl rfl rfl rfl rfl rfl rfl
    | exact keeps_readRm _ _
    | exact keeps_locRead _ _
    | exact keeps_modifyRegA _ _
    | (apply keeps_modifyFpuEq; intro; simp; done)
    | (apply keeps_modifyFpu; intro _ h; simp [h]; done)
    | split
    | dsimp only

@[simp] theorem keeps_binReg (write : Bool) (op : BinOp) (sz : Sz) (r : Reg) (b : BitVec sz.bits) (h0 : ∀ sz a b, M.Keeps (op sz a b)) :
    M.Keeps (binReg write op sz r b) := by
  unfold binReg
  repeat' first
    | with_reducible intro _
    | (with_reducible first | refine keeps_bind ?_ ?_ | refine keeps_ite ?_ ?_ | refine keeps_map ?_)
    | assumption
    | (simp [*]; done)
    | exact keeps_modify fun _ => .of_eq rfl rfl rfl rfl rfl rfl rfl rfl rfl rfl rfl rfl
    | exact keeps_readRm _ _
    | exact keeps_locRead _ _
    | exact keeps_modifyRegA _ _
    | (apply keeps_modifyFpuEq; intro; simp; done)
    | (apply keeps_modifyFpu; intro _ h; simp [h]; done)
    | split
    | dsimp only

@[simp] theorem keeps_alu (write : Bool) (op : BinOp) (f : AluForm) (h0 : ∀ sz a b, M.Keeps (op sz a b)) :
    M.Keeps (alu write op f) := by
  unfold alu
  repeat' first
    | with_reducible intro _
    | (with_reducible first | refine keeps_bind ?_ ?_ | refine keeps_ite ?_ ?_ | refine keeps_map ?_)
    | (with_reducible first | refine keeps_binRm _ _ _ _ _ ?_ | refine keeps_binReg _ _ _ _ _ ?_)
    | assumption
    | (simp [*]; done)
    | exact keeps_modify fun _ => .of_eq rfl rfl rfl rfl rfl rfl rfl rfl rfl rfl rfl rfl
    | exact keeps_readRm _ _
    | exact keeps_locRead _ _
    | exact keeps_modifyRegA _ _
    | (apply keeps_modifyFpuEq; intro; simp; done)
    | (apply keeps_modifyFpu; intro _ h; simp [h]; done)
    | split
    | dsimp only

@[simp] theorem keeps_unRm (op : UnOp) (sz : Sz) (d : Rm) (h0 : ∀ sz a, M.Keeps (op sz a)) :
    M.Keeps (unRm op sz d) := by
  unfold unRm
  repeat' first
    | with_reducible intro _
    | (with_reducible first | refine keeps_bind ?_ ?_ | refine keeps_ite ?_ ?_ | refine keeps_map ?_)
    | assumption
    | (simp [*]; done)
    | exact keeps_modify fun _ => .of_eq rfl rfl rfl rfl rfl rfl rfl rfl rfl rfl rfl rfl
    | exact keeps_readRm _ _
    | exact keeps_locRead _ _
    | exact keeps_modifyRegA _ _
    | (apply keeps_modifyFpuEq; intro; simp; done)
    | (apply keeps_modifyFpu; intro _ h; simp [h]; done)
    | split
    | dsimp only

@[simp] theorem keeps_incOp : ∀ sz a, M.Keeps (incOp sz a) := by
  intros
  unfold incOp
  repeat' first
    | with_reducible intro _
    | (with_reducible first | refine keeps_bind ?_ ?_ | refine keeps_ite ?_ ?_ | refine keeps_map ?_)
    | assumption
    | (simp [*]; done)
    | exact keeps_modify fun _ => .of_eq rfl rfl rfl rfl rfl rfl rfl rfl rfl rfl rfl rfl
    | exact keeps_readRm _ _
    | exact keeps_locRead _ _
    | exact keeps_modifyRegA _ _
    | (apply keeps_modifyFpuEq; intro; simp; done)
    | (apply keeps_modifyFpu; intro _ h; simp [h]; done)
    | split
    | dsimp only

@[simp] theorem keeps_decOp : ∀ sz a, M.Keeps (decOp sz a) := by
  intros
  unfold decOp
  repeat' first
    | with_reducible intro _
    | (with_reducible first | refine keeps_bind ?_ ?_ | refine keeps_ite ?_ ?_ | refine keeps_map ?_)
    | assumption
    | (simp [*]; done)
    | exact keeps_modify fun _ => .of_eq rfl rfl rfl rfl rfl rfl rfl rfl rfl rfl rfl rfl
    | exact keeps_readRm _ _
    | exact keeps_locRead _ _
    | exact keeps_modifyRegA _ _
    | (apply keeps_modifyFpuEq; intro; simp; done)
    | (apply keeps_modifyFpu; intro _ h; simp [h]; done)
    | split
    | dsimp only

@[simp] theorem keeps_negOp : ∀ sz a, M.Keeps (negOp sz a) := by
  intros
  unfold negOp
  repeat' first
    | with_reducible intro _
    | (with_reducible first | refine keeps_bind ?_ ?_ | refine keeps_ite ?_ ?_ | refine keeps_map ?_)
    | assumption
    | (simp [*]; done)
    | exact keeps_modify fun _ => .of_eq rfl rfl rfl rfl rfl rfl rfl rfl rfl rfl rfl rfl
    | exact keeps_readRm _ _
    | exact keeps_locRead _ _
    | exact keeps_modifyRegA _ _
    | (apply keeps_modifyFpuEq; intro; simp; done)
    | (apply keeps_modifyFpu; intro _ h; simp [h]; done)
    | split
    | dsimp only

@[simp] theorem keeps_notOp : ∀ sz a, M.Keeps (notOp sz a) := by
  intros
  unfold notOp
  repeat' first
    | with_reducible intro _
    | (with_reducible first | refine keeps_bind ?_ ?_ | refine keeps_ite ?_ ?_ | refine keeps_map ?_)
    | assumption
    | (simp [*]; done)
    | exact keeps_modify fun _ => .of_eq rfl rfl rfl rfl rfl rfl rfl rfl rfl rfl rfl rfl
    | exact keeps_readRm _ _
    | exact keeps_locRead _ _
    | exact keeps_modifyRegA _ _
    | (apply keeps_modifyFpuEq; intro; simp; done)
    | (apply keeps_modifyFpu; intro _ h; simp [h]; done)
    | split
    | dsimp only

@[simp] theorem keeps_incForm (op : UnOp) (f : IncForm) (h0 : ∀ sz a, M.Keeps (op sz a)) :
    M.Keeps (incForm op f) := by
  unfold incForm
  repeat' first
    | with_reducible intro _
    | (with_reducible first | refine keeps_bind ?_ ?_ | refine keeps_ite ?_ ?_ | refine keeps_map ?_)
    | (with_reducible first | refine keeps_unRm _ _ _ ?_)
    | assumption
    | (simp [*]; done)
    | exact keeps_modify fun _ => .of_eq rfl rfl rfl rfl rfl rfl rfl rfl rfl rfl rfl rfl
    | exact keeps_readRm _ _
    | exact keeps_locRead _ _
    | exact keeps_modifyRegA _ _
    | (apply keeps_modifyFpuEq; intro; simp; done)
    | (apply keeps_modifyFpu; intro _ h; simp [h]; done)
    | split
    | dsimp only

@[simp] theorem keeps_testForm (f : TestForm) : M.Keeps (testForm f) := by
  unfold testForm
  repeat' first
    | with_reducible intro _
    | (with_reducible first | refine keeps_bind ?_ ?_ | refine keeps_ite ?_ ?_ | refine keeps_map ?_)
    | (with_reducible first | refine keeps_binRm _ _ _ _ _ ?_ | refine keeps_binReg _ _ _ _ _ ?_)
    | assumption
    | (simp [*]; done)
    | exact keeps_modify fun _ => .of_eq rfl rfl rfl rfl rfl rfl rfl rfl rfl rfl rfl rfl
    | exact keeps_readRm _ _
    | exact keeps_locRead _ _
    | exact keeps_modifyRegA _ _
    | (apply keeps_modifyFpuEq; intro; simp; done)
    | (apply keeps_modifyFpu; intro _ h; simp [h]; done)
    | split
    | dsimp only

@[simp] theorem keeps_setWideAcc (sz : Sz) (hi lo : Nat) : M.Keeps (setWideAcc sz hi lo) := by
  unfold setWideAcc
  repeat' first
    | with_reducible intro _
    | (with_reducible first | refine keeps_bind ?_ ?_ | refine keeps_ite ?_ ?_ | refine keeps_map ?_)
    | assumption
    | (simp [*]; done)
    | exact keeps_modify fun _ => .of_eq rfl rfl rfl rfl rfl rfl rfl rfl rfl rfl rfl rfl
    | exact keeps_readRm _ _
    | exact keeps_locRead _ _
    | exact keeps_modifyRegA _ _
    | (apply keeps_modifyFpuEq; intro; simp; done)
    | (apply keeps_modifyFpu; intro _ h; simp [h]; done)
    | split
    | dsimp only

@[simp] theorem keeps_mulFlags (c : Bool) : M.Keeps (mulFlags c) := by
  unfold mulFlags
  repeat' first
    | with_reducible intro _
    | (with_reducible first | refine keeps_bind ?_ ?_ | refine keeps_ite ?_ ?_ | refine keeps_map ?_)
    | assumption
    | (simp [*]; done)
    | exact keeps_modify fun _ => .of_eq rfl rfl rfl rfl rfl rfl rfl rfl rfl rfl rfl rfl
    | exact keeps_readRm _ _
    | exact keeps_locRead _ _
    | exact keeps_modifyRegA _ _
    | (apply keeps_modifyFpuEq; intro; simp; done)
    | (apply keeps_modifyFpu; intro _ h; simp [h]; done)
    | split
    | dsimp only

@[simp] theorem keeps_divFlags : M.Keeps divFlags := by
  unfold divFlags
  repeat' first
    | with_reducible intro _
    | (with_reducible first | refine keeps_bind ?_ ?_ | refine keeps_ite ?_ ?_ | refine keeps_map ?_)
    | assumption
    | (simp [*]; done)
    | exact keeps_modify fun _ => .of_eq rfl rfl rfl rfl rfl rfl rfl rfl rfl rfl rfl rfl
    | exact keeps_readRm _ _
    | exact keeps_locRead _ _
    | exact keeps_modifyRegA _ _
    | (apply keeps_modifyFpuEq; intro; simp; done)
    | (apply keeps_modifyFpu; intro _ h; simp [h]; done)
    | split
    | dsimp only

@[simp] theorem keeps_mul (sz : Sz) (src : Rm) : M.Keeps (mul sz src) := by
  unfold mul
  repeat' first
    | with_reducible intro _
    | (with_reducible first | refine keeps_bind ?_ ?_ | refine keeps_ite ?_ ?_ | refine keeps_map ?_)
    | assumption
    | (simp [*]; done)
    | exact keeps_modify fun _ => .of_eq rfl rfl rfl rfl rfl rfl rfl rfl rfl rfl rfl rfl
    | exact keeps_readRm _ _
    | exact keeps_locRead _ _
    | exact keeps_modifyRegA _ _
    | (apply keeps_modifyFpuEq; intro; simp; done)
    | (apply keeps_modifyFpu; intro _ h; simp [h]; done)
    | split
    | dsimp only

@[simp] theorem keeps_imulWide (sz : Sz) (src : Rm) : M.Keeps (imulWide sz src) := by
  unfold imulWide
  repeat' first
    | with_reducible intro _
    | (with_reducible first | refine keeps_bind ?_ ?_ | refine keeps_ite ?_ ?_ | refine keeps_map ?_)
    | assumption
    | (simp [*]; done)
    | exact keeps_modify fun _ => .of_eq rfl rfl rfl rfl rfl rfl rfl rfl rfl rfl rfl rfl
    | exact keeps_readRm _ _
    | exact keeps_locRead _ _
    | exact keeps_modifyRegA _ _
    | (apply keeps_modifyFpuEq; intro; simp; done)
    | (apply keeps_modifyFpu; intro _ h; simp [h]; done)
    | split
    | dsimp only

@[simp] theorem keeps_imulTrunc (sz : Sz) (dst : Reg) (a b : BitVec sz.bits) : M.Keeps (imulTrunc sz dst a b) := by
  unfold imulTrunc
  repeat' first
    | with_reducible intro _
    | (with_reducible first | refine keeps_bind ?_ ?_ | refine keeps_ite ?_ ?_ | refine keeps_map ?_)
    | assumption
    | (simp [*]; done)
    | exact keeps_modify fun _ => .of_eq rfl rfl rfl rfl rfl rfl rfl rfl rfl rfl rfl rfl
    | exact keeps_readRm _ _
    | exact keeps_locRead _ _
    | exact keeps_modifyRegA _ _
    | (apply keeps_modifyFpuEq; intro; simp; done)
    | (apply keeps_modifyFpu; intro _ h; simp [h]; done)
    | split
    | dsimp only

@[simp] theorem keeps_imulForm (f : ImulForm) : M.Keeps (imulForm f) := by
  unfold imulForm
  repeat' first
    | with_reducible intro _
    | (with_reducible first | refine keeps_bind ?_ ?_ | refine keeps_ite ?_ ?_ | refine keeps_map ?_)
    | assumption
    | (simp [*]; done)
    | exact keeps_modify fun _ => .of_eq rfl rfl rfl rfl rfl rfl rfl rfl rfl rfl rfl rfl
    | exact keeps_readRm _ _
    | exact keeps_locRead _ _
    | exact keeps_modifyRegA _ _
    | (apply keeps_modifyFpuEq; intro; simp; done)
    | (apply keeps_modifyFpu; intro _ h; simp [h]; done)
    | split
    | dsimp only

@[simp] theorem keeps_divideError : M.Keeps divideError := by
  unfold divideError
  repeat' first
    | with_reducible intro _
    | (with_reducible first | refine keeps_bind ?_ ?_ | refine keeps_ite ?_ ?_ | refine keeps_map ?_)
    | assumption
    | (simp [*]; done)
    | exact keeps_modify fun _ => .of_eq rfl rfl rfl rfl rfl rfl rfl rfl rfl rfl rfl rfl
    | exact keeps_readRm _ _
    | exact keeps_locRead _ _
    | exact keeps_modifyRegA _ _
    | (apply keeps_modifyFpuEq; intro; simp; done)
    | (apply keeps_modifyFpu; intro _ h; simp [h]; done)
    | split
    | dsimp only

@[simp] theorem keeps_divU (sz : Sz) (src : Rm) : M.Keeps (divU sz src) := by
  unfold divU
  repeat' first
    | with_reducible intro _
    | (with_reducible first | refine keeps_bind ?_ ?_ | refine keeps_ite ?_ ?_ | refine keeps_map ?_)
    | assumption
    | (simp [*]; done)
    | exact keeps_modify fun _ => .of_eq rfl rfl rfl rfl rfl rfl rfl rfl rfl rfl rfl rfl
    | exact keeps_readRm _ _
    | exact keeps_locRead _ _
    | exact keeps_modifyRegA _ _
    | (apply keeps_modifyFpuEq; intro; simp; done)
    | (apply keeps_modifyFpu; intro _ h; simp [h]; done)
    | split
    | dsimp only

@[simp] theorem keeps_divS (sz : Sz) (src : Rm) : M.Keeps (divS sz src) := by
  unfold divS
  repeat' first
    | with_reducible intro _
    | (with_reducible first | refine keeps_bind ?_ ?_ | refine keeps_ite ?_ ?_ | refine keeps_map ?_)
    | assumption
    | (simp [*]; done)
    | exact keeps_modify fun _ => .of_eq rfl rfl rfl rfl rfl rfl rfl rfl rfl rfl rfl rfl
    | exact keeps_readRm _ _
    | exact keeps_locRead _ _
    | exact keeps_modifyRegA _ _
    | (apply keeps_modifyFpuEq; intro; simp; done)
    | (apply keeps_modifyFpu; intro _ h; simp [h]; done)
    | split
    | dsimp only

@[simp] theorem keeps_getAl : M.Keeps getAl := by
  unfold getAl
  repeat' first
    | with_reducible intro _
    | (with_reducible first | refine keeps_bind ?_ ?_ | refine keeps_ite ?_ ?_ | refine keeps_map ?_)
    | assumption
    | (simp [*]; done)
    | exact keeps_modify fun _ => .of_eq rfl rfl rfl rfl rfl rfl rfl rfl rfl rfl rfl rfl
    | exact keeps_readRm _ _
    | exact keeps_locRead _ _
    | exact keeps_modifyRegA _ _
    | (apply keeps_modifyFpuEq; intro; simp; done)
    | (apply keeps_modifyFpu; intro _ h; simp [h]; done)
    | split
    | dsimp only

@[simp] theorem keeps_getAh : M.Keeps getAh := by
  unfold getAh
  repeat' first
    | with_reducible intro _
    | (with_reducible first | refine keeps_bind ?_ ?_ | refine keeps_ite ?_ ?_ | refine keeps_map ?_)
    | assumption
    | (simp [*]; done)
    | exact keeps_modify fun _ => .of_eq rfl rfl rfl rfl rfl rfl rfl rfl rfl rfl rfl rfl
    | exact keeps_readRm _ _
    | exact keeps_locRead _ _
    | exact keeps_modifyRegA _ _
    | (apply keeps_modifyFpuEq; intro; simp; done)
    | (apply keeps_modifyFpu; intro _ h; simp [h]; done)
    | split
    | dsimp only

@[simp] theorem keeps_setAl (v : Byte) : M.Keeps (setAl v) := by
  unfold setAl
  repeat' first
    | with_reducible intro _
    | (with_reducible first | refine keeps_bind ?_ ?_ | refine keeps_ite ?_ ?_ | refine keeps_map ?_)
    | assumption
    | (simp [*]; done)
    | exact keeps_modify fun _ => .of_eq rfl rfl rfl rfl rfl rfl rfl rfl rfl rfl rfl rfl
    | exact keeps_readRm _ _
    | exact keeps_locRead _ _
    | exact keeps_modifyRegA _ _
    | (apply keeps_modifyFpuEq; intro; simp; done)
    | (apply keeps_modifyFpu; intro _ h; simp [h]; done)
    | split
    | dsimp only

@[simp] theorem keeps_setAh (v : Byte) : M.Keeps (setAh v) := by
  unfold setAh
  repeat' first
    | with_reducible intro _
    | (with_reducible first | refine keeps_bind ?_ ?_ | refine keeps_ite ?_ ?_ | refine keeps_map ?_)
    | assumption
    | (simp [*]; done)
    | exact keeps_modify fun _ => .of_eq rfl rfl rfl rfl rfl rfl rfl rfl rfl rfl rfl rfl
    | exact keeps_readRm _ _
    | exact keeps_locRead _ _
    | exact keeps_modifyRegA _ _
    | (apply keeps_modifyFpuEq; intro; simp; done)
    | (apply keeps_modifyFpu; intro _ h; simp [h]; done)
    | split
    | dsimp only

@[simp] theorem keeps_asciiAdjust (dl dh : Byte) : M.Keeps (asciiAdjust dl dh) := by
  unfold asciiAdjust
  repeat' first
    | with_reducible intro _
    | (with_reducible first | refine keeps_bind ?_ ?_ | refine keeps_ite ?_ ?_ | refine keeps_map ?_)
    | assumption
    | (simp [*]; done)
    | exact keeps_modify fun _ => .of_eq rfl rfl rfl rfl rfl rfl rfl rfl rfl rfl rfl rfl
    | exact keeps_readRm _ _
    | exact keeps_locRead _ _
    | exact keeps_modifyRegA _ _
    | (apply keeps_modifyFpuEq; intro; simp; done)
    | (apply keeps_modifyFpu; intro _ h; simp [h]; done)
    | split
    | dsimp only

@[simp] theorem keeps_aaFlags (r : Byte) : M.Keeps (aaFlags r) := by
  unfold aaFlags
  repeat' first
    | with_reducible intro _
    | (with_reducible first | refine keeps_bind ?_ ?_ | refine keeps_ite ?_ ?_ | refine keeps_map ?_)
    | assumption
    | (simp [*]; done)
    | exact keeps_modify fun _ => .of_eq rfl rfl rfl rfl rfl rfl rfl rfl rfl rfl rfl rfl
    | exact keeps_readRm _ _
    | exact keeps_locRead _ _
    | exact keeps_modifyRegA _ _
    | (apply keeps_modifyFpuEq; intro; simp; done)
    | (apply keeps_modifyFpu; intro _ h; simp [h]; done)
    | split
    | dsimp only

@[simp] theorem keeps_aadBody (base : Byte) : M.Keeps (aadBody base) := by
  unfold aadBody
  repeat' first
    | with_reducible intro _
    | (with_reducible first | refine keeps_bind ?_ ?_ | refine keeps_ite ?_ ?_ | refine keeps_map ?_)
    | assumption
    | (simp [*]; done)
    | exact keeps_modify fun _ => .of_eq rfl rfl rfl rfl rfl rfl rfl rfl rfl rfl rfl rfl
    | exact keeps_readRm _ _
    | exact keeps_locRead _ _
    | exact keeps_modifyRegA _ _
    | (apply keeps_modifyFpuEq; intro; simp; done)
    | (apply keeps_modifyFpu; intro _ h; simp [h]; done)
    | split
    | dsimp only

@[simp] theorem keeps_aamBody (base : Byte) : M.Keeps (aamBody base) := by
  unfold aamBody
  repeat' first
    | with_reducible intro _
    | (with_reducible first | refine keeps_bind ?_ ?_ | refine keeps_ite ?_ ?_ | refine keeps_map ?_)
    | assumption
    | (simp [*]; done)
    | exact keeps_modify fun _ => .of_eq rfl rfl rfl rfl rfl rfl rfl rfl rfl rfl rfl rfl
    | exact keeps_readRm _ _
    | exact keeps_locRead _ _
    | exact keeps_modifyRegA _ _
    | (apply keeps_modifyFpuEq; intro; simp; done)
    | (apply keeps_modifyFpu; intro _ h; simp [h]; done)
    | split
    | dsimp only

@[simp] theorem keeps_decimalAdjust (sub : Bool) : M.Keeps (decimalAdjust sub) := by
  unfold decimalAdjust
  repeat' first
    | with_reducible intro _
    | (with_reducible first | refine keeps_bind ?_ ?_ | refine keeps_ite ?_ ?_ | refine keeps_map ?_)
    | assumption
    | (simp [*]; done)
    | exact keeps_modify fun _ => .of_eq rfl rfl rfl rfl rfl rfl rfl rfl rfl rfl rfl rfl
    | exact keeps_readRm _ _
    | exact keeps_locRead _ _
    | exact keeps_modifyRegA _ _
    | (apply keeps_modifyFpuEq; intro; simp; done)
    | (apply keeps_modifyFpu; intro _ h; simp [h]; done)
    | split
    | dsimp only

@[simp] theorem keeps_convertAcc : M.Keeps convertAcc := by
  unfold convertAcc
  repeat' first
    | with_reducible intro _
    | (with_reducible first | refine keeps_bind ?_ ?_ | refine keeps_ite ?_ ?_ | refine keeps_map ?_)
    | assumption
    | (simp [*]; done)
    | exact keeps_modify fun _ => .of_eq rfl rfl rfl rfl rfl rfl rfl rfl rfl rfl rfl rfl
    | exact keeps_readRm _ _
    | exact keeps_locRead _ _
    | exact keeps_modifyRegA _ _
    | (apply keeps_modifyFpuEq; intro; simp; done)
    | (apply keeps_modifyFpu; intro _ h; simp [h]; done)
    | split
    | dsimp only

@[simp] theorem keeps_spreadSign : M.Keeps spreadSign := by
  unfold spreadSign
  repeat' first
    | with_reducible intro _
    | (with_reducible first | refine keeps_bind ?_ ?_ | refine keeps_ite ?_ ?_ | refine keeps_map ?_)
    | assumption
    | (simp [*]; done)
    | exact keeps_modify fun _ => .of_eq rfl rfl rfl rfl rfl rfl rfl rfl rfl rfl rfl rfl
    | exact keeps_readRm _ _
    | exact keeps_locRead _ _
    | exact keeps_modifyRegA _ _
    | (apply keeps_modifyFpuEq; intro; simp; done)
    | (apply keeps_modifyFpu; intro _ h; simp [h]; done)
    | split
    | dsimp only

/-! ## Bits -/

@[simp] theorem keeps_shift (k : ShiftKind) (f : ShiftForm) : M.Keeps (shift k f) := by
  unfold shift
  repeat' first
    | with_reducible intro _
    | (with_reducible first | refine keeps_bind ?_ ?_ | refine keeps_ite ?_ ?_ | refine keeps_map ?_)
    | assumption
    | (simp [*]; done)
    | exact keeps_modify fun _ => .of_eq rfl rfl rfl rfl rfl rfl rfl rfl rfl rfl rfl rfl
    | exact keeps_readRm _ _
    | exact keeps_locRead _ _
    | exact keeps_modifyRegA _ _
    | (apply keeps_modifyFpuEq; intro; simp; done)
    | (apply keeps_modifyFpu; intro _ h; simp [h]; done)
    | split
    | dsimp only

@[simp] theorem keeps_shxd (left : Bool) (dst : Rm) (src : Reg) (n : Nat) : M.Keeps (shxd left dst src n) := by
  unfold shxd
  repeat' first
    | with_reducible intro _
    | (with_reducible first | refine keeps_bind ?_ ?_ | refine keeps_ite ?_ ?_ | refine keeps_map ?_)
    | assumption
    | (simp [*]; done)
    | exact keeps_modify fun _ => .of_eq rfl rfl rfl rfl rfl rfl rfl rfl rfl rfl rfl rfl
    | exact keeps_readRm _ _
    | exact keeps_locRead _ _
    | exact keeps_modifyRegA _ _
    | (apply keeps_modifyFpuEq; intro; simp; done)
    | (apply keeps_modifyFpu; intro _ h; simp [h]; done)
    | split
    | dsimp only

@[simp] theorem keeps_shxdForm (left : Bool) (f : ShxdForm) : M.Keeps (shxdForm left f) := by
  unfold shxdForm
  repeat' first
    | with_reducible intro _
    | (with_reducible first | refine keeps_bind ?_ ?_ | refine keeps_ite ?_ ?_ | refine keeps_map ?_)
    | assumption
    | (simp [*]; done)
    | exact keeps_modify fun _ => .of_eq rfl rfl rfl rfl rfl rfl rfl rfl rfl rfl rfl rfl
    | exact keeps_readRm _ _
    | exact keeps_locRead _ _
    | exact keeps_modifyRegA _ _
    | (apply keeps_modifyFpuEq; intro; simp; done)
    | (apply keeps_modifyFpu; intro _ h; simp [h]; done)
    | split
    | dsimp only

@[simp] theorem keeps_bitUnit (sz : Sz) (f : BtForm) (k : Acc) : M.Keeps (bitUnit sz f k) := by
  unfold bitUnit
  repeat' first
    | with_reducible intro _
    | (with_reducible first | refine keeps_bind ?_ ?_ | refine keeps_ite ?_ ?_ | refine keeps_map ?_)
    | assumption
    | (simp [*]; done)
    | exact keeps_modify fun _ => .of_eq rfl rfl rfl rfl rfl rfl rfl rfl rfl rfl rfl rfl
    | exact keeps_readRm _ _
    | exact keeps_locRead _ _
    | exact keeps_modifyRegA _ _
    | (apply keeps_modifyFpuEq; intro; simp; done)
    | (apply keeps_modifyFpu; intro _ h; simp [h]; done)
    | split
    | dsimp only

@[simp] theorem keeps_btFlags (c : Bool) : M.Keeps (btFlags c) := by
  unfold btFlags
  repeat' first
    | with_reducible intro _
    | (with_reducible first | refine keeps_bind ?_ ?_ | refine keeps_ite ?_ ?_ | refine keeps_map ?_)
    | assumption
    | (simp [*]; done)
    | exact keeps_modify fun _ => .of_eq rfl rfl rfl rfl rfl rfl rfl rfl rfl rfl rfl rfl
    | exact keeps_readRm _ _
    | exact keeps_locRead _ _
    | exact keeps_modifyRegA _ _
    | (apply keeps_modifyFpuEq; intro; simp; done)
    | (apply keeps_modifyFpu; intro _ h; simp [h]; done)
    | split
    | dsimp only

@[simp] theorem keeps_bitTest (f : BtForm) : M.Keeps (bitTest f) := by
  unfold bitTest
  repeat' first
    | with_reducible intro _
    | (with_reducible first | refine keeps_bind ?_ ?_ | refine keeps_ite ?_ ?_ | refine keeps_map ?_)
    | assumption
    | (simp [*]; done)
    | exact keeps_modify fun _ => .of_eq rfl rfl rfl rfl rfl rfl rfl rfl rfl rfl rfl rfl
    | exact keeps_readRm _ _
    | exact keeps_locRead _ _
    | exact keeps_modifyRegA _ _
    | (apply keeps_modifyFpuEq; intro; simp; done)
    | (apply keeps_modifyFpu; intro _ h; simp [h]; done)
    | split
    | dsimp only

@[simp] theorem keeps_bitChange (g : {w : Nat} → BitVec w → BitVec w → BitVec w) (f : BtForm) :
    M.Keeps (bitChange g f) := by
  unfold bitChange
  repeat' first
    | with_reducible intro _
    | (with_reducible first | refine keeps_bind ?_ ?_ | refine keeps_ite ?_ ?_ | refine keeps_map ?_)
    | assumption
    | (simp [*]; done)
    | exact keeps_modify fun _ => .of_eq rfl rfl rfl rfl rfl rfl rfl rfl rfl rfl rfl rfl
    | exact keeps_readRm _ _
    | exact keeps_locRead _ _
    | exact keeps_modifyRegA _ _
    | (apply keeps_modifyFpuEq; intro; simp; done)
    | (apply keeps_modifyFpu; intro _ h; simp [h]; done)
    | split
    | dsimp only

@[simp] theorem keeps_bitScan (is : Nat → List Nat) (dst : Reg) (src : Rm) : M.Keeps (bitScan is dst src) := by
  unfold bitScan
  repeat' first
    | with_reducible intro _
    | (with_reducible first | refine keeps_bind ?_ ?_ | refine keeps_ite ?_ ?_ | refine keeps_map ?_)
    | assumption
    | (simp [*]; done)
    | exact keeps_modify fun _ => .of_eq rfl rfl rfl rfl rfl rfl rfl rfl rfl rfl rfl rfl
    | exact keeps_readRm _ _
    | exact keeps_locRead _ _
    | exact keeps_modifyRegA _ _
    | (apply keeps_modifyFpuEq; intro; simp; done)
    | (apply keeps_modifyFpu; intro _ h; simp [h]; done)
    | split
    | dsimp only

@[simp] theorem keeps_bswapBody (r : Reg) : M.Keeps (bswapBody r) := by
  unfold bswapBody
  repeat' first
    | with_reducible intro _
    | (with_reducible first | refine keeps_bind ?_ ?_ | refine keeps_ite ?_ ?_ | refine keeps_map ?_)
    | assumption
    | (simp [*]; done)
    | exact keeps_modify fun _ => .of_eq rfl rfl rfl rfl rfl rfl rfl rfl rfl rfl rfl rfl
    | exact keeps_readRm _ _
    | exact keeps_locRead _ _
    | exact keeps_modifyRegA _ _
    | (apply keeps_modifyFpuEq; intro; simp; done)
    | (apply keeps_modifyFpu; intro _ h; simp [h]; done)
    | split
    | dsimp only

@[simp] theorem keeps_cmov (c : Cond) (dst : Reg) (src : Rm) : M.Keeps (cmov c dst src) := by
  unfold cmov
  repeat' first
    | with_reducible intro _
    | (with_reducible first | refine keeps_bind ?_ ?_ | refine keeps_ite ?_ ?_ | refine keeps_map ?_)
    | assumption
    | (simp [*]; done)
    | exact keeps_modify fun _ => .of_eq rfl rfl rfl rfl rfl rfl rfl rfl rfl rfl rfl rfl
    | exact keeps_readRm _ _
    | exact keeps_locRead _ _
    | exact keeps_modifyRegA _ _
    | (apply keeps_modifyFpuEq; intro; simp; done)
    | (apply keeps_modifyFpu; intro _ h; simp [h]; done)
    | split
    | dsimp only

@[simp] theorem keeps_setcc (c : Cond) (dst : Rm) : M.Keeps (setcc c dst) := by
  unfold setcc
  repeat' first
    | with_reducible intro _
    | (with_reducible first | refine keeps_bind ?_ ?_ | refine keeps_ite ?_ ?_ | refine keeps_map ?_)
    | assumption
    | (simp [*]; done)
    | exact keeps_modify fun _ => .of_eq rfl rfl rfl rfl rfl rfl rfl rfl rfl rfl rfl rfl
    | exact keeps_readRm _ _
    | exact keeps_locRead _ _
    | exact keeps_modifyRegA _ _
    | (apply keeps_modifyFpuEq; intro; simp; done)
    | (apply keeps_modifyFpu; intro _ h; simp [h]; done)
    | split
    | dsimp only

/-! ## Move -/

@[simp] theorem keeps_movForm (f : MovForm) : M.Keeps (movForm f) := by
  unfold movForm
  repeat' first
    | with_reducible intro _
    | (with_reducible first | refine keeps_bind ?_ ?_ | refine keeps_ite ?_ ?_ | refine keeps_map ?_)
    | assumption
    | (simp [*]; done)
    | exact keeps_modify fun _ => .of_eq rfl rfl rfl rfl rfl rfl rfl rfl rfl rfl rfl rfl
    | exact keeps_readRm _ _
    | exact keeps_locRead _ _
    | exact keeps_modifyRegA _ _
    | (apply keeps_modifyFpuEq; intro; simp; done)
    | (apply keeps_modifyFpu; intro _ h; simp [h]; done)
    | split
    | dsimp only

@[simp] theorem keeps_storeSelector (dst : Rm) (v : Word) : M.Keeps (storeSelector dst v) := by
  unfold storeSelector
  repeat' first
    | with_reducible intro _
    | (with_reducible first | refine keeps_bind ?_ ?_ | refine keeps_ite ?_ ?_ | refine keeps_map ?_)
    | assumption
    | (simp [*]; done)
    | exact keeps_modify fun _ => .of_eq rfl rfl rfl rfl rfl rfl rfl rfl rfl rfl rfl rfl
    | exact keeps_readRm _ _
    | exact keeps_locRead _ _
    | exact keeps_modifyRegA _ _
    | (apply keeps_modifyFpuEq; intro; simp; done)
    | (apply keeps_modifyFpu; intro _ h; simp [h]; done)
    | split
    | dsimp only

@[simp] theorem keeps_readWord (m : Rm) : M.Keeps (readWord m) := by
  unfold readWord
  repeat' first
    | with_reducible intro _
    | (with_reducible first | refine keeps_bind ?_ ?_ | refine keeps_ite ?_ ?_ | refine keeps_map ?_)
    | assumption
    | (simp [*]; done)
    | exact keeps_modify fun _ => .of_eq rfl rfl rfl rfl rfl rfl rfl rfl rfl rfl rfl rfl
    | exact keeps_readRm _ _
    | exact keeps_locRead _ _
    | exact keeps_modifyRegA _ _
    | (apply keeps_modifyFpuEq; intro; simp; done)
    | (apply keeps_modifyFpu; intro _ h; simp [h]; done)
    | split
    | dsimp only

@[simp] theorem keeps_shadowSs : M.Keeps shadowSs := by
  unfold shadowSs
  repeat' first
    | with_reducible intro _
    | (with_reducible first | refine keeps_bind ?_ ?_ | refine keeps_ite ?_ ?_ | refine keeps_map ?_)
    | assumption
    | (simp [*]; done)
    | exact keeps_modify fun _ => .of_eq rfl rfl rfl rfl rfl rfl rfl rfl rfl rfl rfl rfl
    | exact keeps_readRm _ _
    | exact keeps_locRead _ _
    | exact keeps_modifyRegA _ _
    | (apply keeps_modifyFpuEq; intro; simp; done)
    | (apply keeps_modifyFpu; intro _ h; simp [h]; done)
    | split
    | dsimp only

@[simp] theorem keeps_movSregForm (f : MovSregForm) : M.Keeps (movSregForm f) := by
  unfold movSregForm
  repeat' first
    | with_reducible intro _
    | (with_reducible first | refine keeps_bind ?_ ?_ | refine keeps_ite ?_ ?_ | refine keeps_map ?_)
    | assumption
    | (simp [*]; done)
    | exact keeps_modify fun _ => .of_eq rfl rfl rfl rfl rfl rfl rfl rfl rfl rfl rfl rfl
    | exact keeps_readRm _ _
    | exact keeps_locRead _ _
    | exact keeps_modifyRegA _ _
    | (apply keeps_modifyFpuEq; intro; simp; done)
    | (apply keeps_modifyFpu; intro _ h; simp [h]; done)
    | split
    | dsimp only

@[simp] theorem keeps_movExtend (signed : Bool) (w : Wd) (dst : Reg) (src : Rm) :
    M.Keeps (movExtend signed w dst src) := by
  unfold movExtend
  repeat' first
    | with_reducible intro _
    | (with_reducible first | refine keeps_bind ?_ ?_ | refine keeps_ite ?_ ?_ | refine keeps_map ?_)
    | assumption
    | (simp [*]; done)
    | exact keeps_modify fun _ => .of_eq rfl rfl rfl rfl rfl rfl rfl rfl rfl rfl rfl rfl
    | exact keeps_readRm _ _
    | exact keeps_locRead _ _
    | exact keeps_modifyRegA _ _
    | (apply keeps_modifyFpuEq; intro; simp; done)
    | (apply keeps_modifyFpu; intro _ h; simp [h]; done)
    | split
    | dsimp only

@[simp] theorem keeps_xchgForm (f : XchgForm) : M.Keeps (xchgForm f) := by
  unfold xchgForm
  repeat' first
    | with_reducible intro _
    | (with_reducible first | refine keeps_bind ?_ ?_ | refine keeps_ite ?_ ?_ | refine keeps_map ?_)
    | assumption
    | (simp [*]; done)
    | exact keeps_modify fun _ => .of_eq rfl rfl rfl rfl rfl rfl rfl rfl rfl rfl rfl rfl
    | exact keeps_readRm _ _
    | exact keeps_locRead _ _
    | exact keeps_modifyRegA _ _
    | (apply keeps_modifyFpuEq; intro; simp; done)
    | (apply keeps_modifyFpu; intro _ h; simp [h]; done)
    | split
    | dsimp only

@[simp] theorem keeps_xadd (sz : Sz) (dst : Rm) (src : Reg) : M.Keeps (xadd sz dst src) := by
  unfold xadd
  repeat' first
    | with_reducible intro _
    | (with_reducible first | refine keeps_bind ?_ ?_ | refine keeps_ite ?_ ?_ | refine keeps_map ?_)
    | assumption
    | (simp [*]; done)
    | exact keeps_modify fun _ => .of_eq rfl rfl rfl rfl rfl rfl rfl rfl rfl rfl rfl rfl
    | exact keeps_readRm _ _
    | exact keeps_locRead _ _
    | exact keeps_modifyRegA _ _
    | (apply keeps_modifyFpuEq; intro; simp; done)
    | (apply keeps_modifyFpu; intro _ h; simp [h]; done)
    | split
    | dsimp only

@[simp] theorem keeps_cmpxchg (sz : Sz) (dst : Rm) (src : Reg) : M.Keeps (cmpxchg sz dst src) := by
  unfold cmpxchg
  repeat' first
    | with_reducible intro _
    | (with_reducible first | refine keeps_bind ?_ ?_ | refine keeps_ite ?_ ?_ | refine keeps_map ?_)
    | assumption
    | (simp [*]; done)
    | exact keeps_modify fun _ => .of_eq rfl rfl rfl rfl rfl rfl rfl rfl rfl rfl rfl rfl
    | exact keeps_readRm _ _
    | exact keeps_locRead _ _
    | exact keeps_modifyRegA _ _
    | (apply keeps_modifyFpuEq; intro; simp; done)
    | (apply keeps_modifyFpu; intro _ h; simp [h]; done)
    | split
    | dsimp only

@[simp] theorem keeps_cmpxchg8b (m : Rm) : M.Keeps (cmpxchg8b m) := by
  unfold cmpxchg8b
  repeat' first
    | with_reducible intro _
    | (with_reducible first | refine keeps_bind ?_ ?_ | refine keeps_ite ?_ ?_ | refine keeps_map ?_)
    | assumption
    | (simp [*]; done)
    | exact keeps_modify fun _ => .of_eq rfl rfl rfl rfl rfl rfl rfl rfl rfl rfl rfl rfl
    | exact keeps_readRm _ _
    | exact keeps_locRead _ _
    | exact keeps_modifyRegA _ _
    | (apply keeps_modifyFpuEq; intro; simp; done)
    | (apply keeps_modifyFpu; intro _ h; simp [h]; done)
    | split
    | dsimp only

@[simp] theorem keeps_readFar (a : Ea) (n : Nat) : M.Keeps (readFar a n) := by
  unfold readFar
  repeat' first
    | with_reducible intro _
    | (with_reducible first | refine keeps_bind ?_ ?_ | refine keeps_ite ?_ ?_ | refine keeps_map ?_)
    | assumption
    | (simp [*]; done)
    | exact keeps_modify fun _ => .of_eq rfl rfl rfl rfl rfl rfl rfl rfl rfl rfl rfl rfl
    | exact keeps_readRm _ _
    | exact keeps_locRead _ _
    | exact keeps_modifyRegA _ _
    | (apply keeps_modifyFpuEq; intro; simp; done)
    | (apply keeps_modifyFpu; intro _ h; simp [h]; done)
    | split
    | dsimp only

@[simp] theorem keeps_loadFar (r : SReg) (dst : Reg) (m : Rm) : M.Keeps (loadFar r dst m) := by
  unfold loadFar
  repeat' first
    | with_reducible intro _
    | (with_reducible first | refine keeps_bind ?_ ?_ | refine keeps_ite ?_ ?_ | refine keeps_map ?_)
    | assumption
    | (simp [*]; done)
    | exact keeps_modify fun _ => .of_eq rfl rfl rfl rfl rfl rfl rfl rfl rfl rfl rfl rfl
    | exact keeps_readRm _ _
    | exact keeps_locRead _ _
    | exact keeps_modifyRegA _ _
    | (apply keeps_modifyFpuEq; intro; simp; done)
    | (apply keeps_modifyFpu; intro _ h; simp [h]; done)
    | split
    | dsimp only

@[simp] theorem keeps_lea (dst : Reg) (m : Rm) : M.Keeps (lea dst m) := by
  unfold lea
  repeat' first
    | with_reducible intro _
    | (with_reducible first | refine keeps_bind ?_ ?_ | refine keeps_ite ?_ ?_ | refine keeps_map ?_)
    | assumption
    | (simp [*]; done)
    | exact keeps_modify fun _ => .of_eq rfl rfl rfl rfl rfl rfl rfl rfl rfl rfl rfl rfl
    | exact keeps_readRm _ _
    | exact keeps_locRead _ _
    | exact keeps_modifyRegA _ _
    | (apply keeps_modifyFpuEq; intro; simp; done)
    | (apply keeps_modifyFpu; intro _ h; simp [h]; done)
    | split
    | dsimp only

@[simp] theorem keeps_xlat : M.Keeps xlat := by
  unfold xlat
  repeat' first
    | with_reducible intro _
    | (with_reducible first | refine keeps_bind ?_ ?_ | refine keeps_ite ?_ ?_ | refine keeps_map ?_)
    | assumption
    | (simp [*]; done)
    | exact keeps_modify fun _ => .of_eq rfl rfl rfl rfl rfl rfl rfl rfl rfl rfl rfl rfl
    | exact keeps_readRm _ _
    | exact keeps_locRead _ _
    | exact keeps_modifyRegA _ _
    | (apply keeps_modifyFpuEq; intro; simp; done)
    | (apply keeps_modifyFpu; intro _ h; simp [h]; done)
    | split
    | dsimp only

@[simp] theorem keeps_lahf : M.Keeps lahf := by
  unfold lahf
  repeat' first
    | with_reducible intro _
    | (with_reducible first | refine keeps_bind ?_ ?_ | refine keeps_ite ?_ ?_ | refine keeps_map ?_)
    | assumption
    | (simp [*]; done)
    | exact keeps_modify fun _ => .of_eq rfl rfl rfl rfl rfl rfl rfl rfl rfl rfl rfl rfl
    | exact keeps_readRm _ _
    | exact keeps_locRead _ _
    | exact keeps_modifyRegA _ _
    | (apply keeps_modifyFpuEq; intro; simp; done)
    | (apply keeps_modifyFpu; intro _ h; simp [h]; done)
    | split
    | dsimp only

@[simp] theorem keeps_sahf : M.Keeps sahf := by
  unfold sahf
  repeat' first
    | with_reducible intro _
    | (with_reducible first | refine keeps_bind ?_ ?_ | refine keeps_ite ?_ ?_ | refine keeps_map ?_)
    | assumption
    | (simp [*]; done)
    | exact keeps_modify fun _ => .of_eq rfl rfl rfl rfl rfl rfl rfl rfl rfl rfl rfl rfl
    | exact keeps_readRm _ _
    | exact keeps_locRead _ _
    | exact keeps_modifyRegA _ _
    | (apply keeps_modifyFpuEq; intro; simp; done)
    | (apply keeps_modifyFpu; intro _ h; simp [h]; done)
    | split
    | dsimp only

@[simp] theorem keeps_boundBody (r : Reg) (m : Rm) : M.Keeps (boundBody r m) := by
  unfold boundBody
  repeat' first
    | with_reducible intro _
    | (with_reducible first | refine keeps_bind ?_ ?_ | refine keeps_ite ?_ ?_ | refine keeps_map ?_)
    | assumption
    | (simp [*]; done)
    | exact keeps_modify fun _ => .of_eq rfl rfl rfl rfl rfl rfl rfl rfl rfl rfl rfl rfl
    | exact keeps_readRm _ _
    | exact keeps_locRead _ _
    | exact keeps_modifyRegA _ _
    | (apply keeps_modifyFpuEq; intro; simp; done)
    | (apply keeps_modifyFpu; intro _ h; simp [h]; done)
    | split
    | dsimp only

/-! ## Stack -/

@[simp] theorem keeps_pushGuard : M.Keeps pushGuard := by
  unfold pushGuard
  repeat' first
    | with_reducible intro _
    | (with_reducible first | refine keeps_bind ?_ ?_ | refine keeps_ite ?_ ?_ | refine keeps_map ?_)
    | assumption
    | (simp [*]; done)
    | exact keeps_modify fun _ => .of_eq rfl rfl rfl rfl rfl rfl rfl rfl rfl rfl rfl rfl
    | exact keeps_readRm _ _
    | exact keeps_locRead _ _
    | exact keeps_modifyRegA _ _
    | (apply keeps_modifyFpuEq; intro; simp; done)
    | (apply keeps_modifyFpu; intro _ h; simp [h]; done)
    | split
    | dsimp only

@[simp] theorem keeps_pushValue (sz : Sz) (v : BitVec sz.bits) : M.Keeps (pushValue sz v) := by
  unfold pushValue
  repeat' first
    | with_reducible intro _
    | (with_reducible first | refine keeps_bind ?_ ?_ | refine keeps_ite ?_ ?_ | refine keeps_map ?_)
    | assumption
    | (simp [*]; done)
    | exact keeps_modify fun _ => .of_eq rfl rfl rfl rfl rfl rfl rfl rfl rfl rfl rfl rfl
    | exact keeps_readRm _ _
    | exact keeps_locRead _ _
    | exact keeps_modifyRegA _ _
    | (apply keeps_modifyFpuEq; intro; simp; done)
    | (apply keeps_modifyFpu; intro _ h; simp [h]; done)
    | split
    | dsimp only

@[simp] theorem keeps_pushForm (f : PushForm) : M.Keeps (pushForm f) := by
  unfold pushForm
  repeat' first
    | with_reducible intro _
    | (with_reducible first | refine keeps_bind ?_ ?_ | refine keeps_ite ?_ ?_ | refine keeps_map ?_)
    | assumption
    | (simp [*]; done)
    | exact keeps_modify fun _ => .of_eq rfl rfl rfl rfl rfl rfl rfl rfl rfl rfl rfl rfl
    | exact keeps_readRm _ _
    | exact keeps_locRead _ _
    | exact keeps_modifyRegA _ _
    | (apply keeps_modifyFpuEq; intro; simp; done)
    | (apply keeps_modifyFpu; intro _ h; simp [h]; done)
    | split
    | dsimp only

@[simp] theorem keeps_popForm (f : PopForm) : M.Keeps (popForm f) := by
  unfold popForm
  repeat' first
    | with_reducible intro _
    | (with_reducible first | refine keeps_bind ?_ ?_ | refine keeps_ite ?_ ?_ | refine keeps_map ?_)
    | assumption
    | (simp [*]; done)
    | exact keeps_modify fun _ => .of_eq rfl rfl rfl rfl rfl rfl rfl rfl rfl rfl rfl rfl
    | exact keeps_readRm _ _
    | exact keeps_locRead _ _
    | exact keeps_modifyRegA _ _
    | (apply keeps_modifyFpuEq; intro; simp; done)
    | (apply keeps_modifyFpu; intro _ h; simp [h]; done)
    | split
    | dsimp only

@[simp] theorem keeps_pushAllRegs : M.Keeps pushAllRegs := by
  unfold pushAllRegs
  repeat' first
    | with_reducible intro _
    | (with_reducible first | refine keeps_bind ?_ ?_ | refine keeps_ite ?_ ?_ | refine keeps_map ?_)
    | assumption
    | (simp [*]; done)
    | exact keeps_modify fun _ => .of_eq rfl rfl rfl rfl rfl rfl rfl rfl rfl rfl rfl rfl
    | exact keeps_readRm _ _
    | exact keeps_locRead _ _
    | exact keeps_modifyRegA _ _
    | (apply keeps_modifyFpuEq; intro; simp; done)
    | (apply keeps_modifyFpu; intro _ h; simp [h]; done)
    | split
    | dsimp only

@[simp] theorem keeps_popReg (sz : Sz) (r : Reg) : M.Keeps (popReg sz r) := by
  unfold popReg
  repeat' first
    | with_reducible intro _
    | (with_reducible first | refine keeps_bind ?_ ?_ | refine keeps_ite ?_ ?_ | refine keeps_map ?_)
    | assumption
    | (simp [*]; done)
    | exact keeps_modify fun _ => .of_eq rfl rfl rfl rfl rfl rfl rfl rfl rfl rfl rfl rfl
    | exact keeps_readRm _ _
    | exact keeps_locRead _ _
    | exact keeps_modifyRegA _ _
    | (apply keeps_modifyFpuEq; intro; simp; done)
    | (apply keeps_modifyFpu; intro _ h; simp [h]; done)
    | split
    | dsimp only

@[simp] theorem keeps_popAllRegs : M.Keeps popAllRegs := by
  unfold popAllRegs
  repeat' first
    | with_reducible intro _
    | (with_reducible first | refine keeps_bind ?_ ?_ | refine keeps_ite ?_ ?_ | refine keeps_map ?_)
    | assumption
    | (simp [*]; done)
    | exact keeps_modify fun _ => .of_eq rfl rfl rfl rfl rfl rfl rfl rfl rfl rfl rfl rfl
    | exact keeps_readRm _ _
    | exact keeps_locRead _ _
    | exact keeps_modifyRegA _ _
    | (apply keeps_modifyFpuEq; intro; simp; done)
    | (apply keeps_modifyFpu; intro _ h; simp [h]; done)
    | split
    | dsimp only

@[simp] theorem keeps_pushFlags : M.Keeps pushFlags := by
  unfold pushFlags
  repeat' first
    | with_reducible intro _
    | (with_reducible first | refine keeps_bind ?_ ?_ | refine keeps_ite ?_ ?_ | refine keeps_map ?_)
    | assumption
    | (simp [*]; done)
    | exact keeps_modify fun _ => .of_eq rfl rfl rfl rfl rfl rfl rfl rfl rfl rfl rfl rfl
    | exact keeps_readRm _ _
    | exact keeps_locRead _ _
    | exact keeps_modifyRegA _ _
    | (apply keeps_modifyFpuEq; intro; simp; done)
    | (apply keeps_modifyFpu; intro _ h; simp [h]; done)
    | split
    | dsimp only

@[simp] theorem keeps_popFlags : M.Keeps popFlags := by
  unfold popFlags
  repeat' first
    | with_reducible intro _
    | (with_reducible first | refine keeps_bind ?_ ?_ | refine keeps_ite ?_ ?_ | refine keeps_map ?_)
    | assumption
    | (simp [*]; done)
    | exact keeps_modify fun _ => .of_eq rfl rfl rfl rfl rfl rfl rfl rfl rfl rfl rfl rfl
    | exact keeps_readRm _ _
    | exact keeps_locRead _ _
    | exact keeps_modifyRegA _ _
    | (apply keeps_modifyFpuEq; intro; simp; done)
    | (apply keeps_modifyFpu; intro _ h; simp [h]; done)
    | split
    | dsimp only

@[simp] theorem keeps_copyDisplay (m : Nat) : ∀ (k : Nat) (fp : Dword), M.Keeps (copyDisplay m k fp)
  | 0, _ => by simp [copyDisplay]
  | k + 1, fp => by
    have ih := keeps_copyDisplay m k
    unfold copyDisplay
    refine keeps_bind keeps_get fun s => keeps_bind (keeps_readSeg _ _ _ _) fun v => keeps_bind (keeps_pushN _ _) fun _ => ih _

@[simp] theorem keeps_enter (size : Word) (level : Byte) : M.Keeps (enter size level) := by
  unfold enter
  repeat' first
    | with_reducible intro _
    | (with_reducible first | refine keeps_bind ?_ ?_ | refine keeps_ite ?_ ?_ | refine keeps_map ?_)
    | assumption
    | (simp [*]; done)
    | exact keeps_modify fun _ => .of_eq rfl rfl rfl rfl rfl rfl rfl rfl rfl rfl rfl rfl
    | exact keeps_readRm _ _
    | exact keeps_locRead _ _
    | exact keeps_modifyRegA _ _
    | (apply keeps_modifyFpuEq; intro; simp; done)
    | (apply keeps_modifyFpu; intro _ h; simp [h]; done)
    | split
    | dsimp only

@[simp] theorem keeps_leave : M.Keeps leave := by
  unfold leave
  repeat' first
    | with_reducible intro _
    | (with_reducible first | refine keeps_bind ?_ ?_ | refine keeps_ite ?_ ?_ | refine keeps_map ?_)
    | assumption
    | (simp [*]; done)
    | exact keeps_modify fun _ => .of_eq rfl rfl rfl rfl rfl rfl rfl rfl rfl rfl rfl rfl
    | exact keeps_readRm _ _
    | exact keeps_locRead _ _
    | exact keeps_modifyRegA _ _
    | (apply keeps_modifyFpuEq; intro; simp; done)
    | (apply keeps_modifyFpu; intro _ h; simp [h]; done)
    | split
    | dsimp only

/-! ## Control -/

@[simp] theorem keeps_nearJump (t : Dword) : M.Keeps (nearJump t) := by
  unfold nearJump
  repeat' first
    | with_reducible intro _
    | (with_reducible first | refine keeps_bind ?_ ?_ | refine keeps_ite ?_ ?_ | refine keeps_map ?_)
    | assumption
    | (simp [*]; done)
    | exact keeps_modify fun _ => .of_eq rfl rfl rfl rfl rfl rfl rfl rfl rfl rfl rfl rfl
    | exact keeps_readRm _ _
    | exact keeps_locRead _ _
    | exact keeps_modifyRegA _ _
    | (apply keeps_modifyFpuEq; intro; simp; done)
    | (apply keeps_modifyFpu; intro _ h; simp [h]; done)
    | split
    | dsimp only

@[simp] theorem keeps_jcc (c : Cond) (t : JForm) : M.Keeps (jcc c t) := by
  unfold jcc
  repeat' first
    | with_reducible intro _
    | (with_reducible first | refine keeps_bind ?_ ?_ | refine keeps_ite ?_ ?_ | refine keeps_map ?_)
    | assumption
    | (simp [*]; done)
    | exact keeps_modify fun _ => .of_eq rfl rfl rfl rfl rfl rfl rfl rfl rfl rfl rfl rfl
    | exact keeps_readRm _ _
    | exact keeps_locRead _ _
    | exact keeps_modifyRegA _ _
    | (apply keeps_modifyFpuEq; intro; simp; done)
    | (apply keeps_modifyFpu; intro _ h; simp [h]; done)
    | split
    | dsimp only

@[simp] theorem keeps_jcxz (d : Byte) : M.Keeps (jcxz d) := by
  unfold jcxz
  repeat' first
    | with_reducible intro _
    | (with_reducible first | refine keeps_bind ?_ ?_ | refine keeps_ite ?_ ?_ | refine keeps_map ?_)
    | assumption
    | (simp [*]; done)
    | exact keeps_modify fun _ => .of_eq rfl rfl rfl rfl rfl rfl rfl rfl rfl rfl rfl rfl
    | exact keeps_readRm _ _
    | exact keeps_locRead _ _
    | exact keeps_modifyRegA _ _
    | (apply keeps_modifyFpuEq; intro; simp; done)
    | (apply keeps_modifyFpu; intro _ h; simp [h]; done)
    | split
    | dsimp only

@[simp] theorem keeps_loopBody (ok : Flags → Bool) (d : Byte) : M.Keeps (loopBody ok d) := by
  unfold loopBody
  repeat' first
    | with_reducible intro _
    | (with_reducible first | refine keeps_bind ?_ ?_ | refine keeps_ite ?_ ?_ | refine keeps_map ?_)
    | assumption
    | (simp [*]; done)
    | exact keeps_modify fun _ => .of_eq rfl rfl rfl rfl rfl rfl rfl rfl rfl rfl rfl rfl
    | exact keeps_readRm _ _
    | exact keeps_locRead _ _
    | exact keeps_modifyRegA _ _
    | (apply keeps_modifyFpuEq; intro; simp; done)
    | (apply keeps_modifyFpu; intro _ h; simp [h]; done)
    | split
    | dsimp only

@[simp] theorem keeps_callNear (t : Dword) : M.Keeps (callNear t) := by
  unfold callNear
  repeat' first
    | with_reducible intro _
    | (with_reducible first | refine keeps_bind ?_ ?_ | refine keeps_ite ?_ ?_ | refine keeps_map ?_)
    | assumption
    | (simp [*]; done)
    | exact keeps_modify fun _ => .of_eq rfl rfl rfl rfl rfl rfl rfl rfl rfl rfl rfl rfl
    | exact keeps_readRm _ _
    | exact keeps_locRead _ _
    | exact keeps_modifyRegA _ _
    | (apply keeps_modifyFpuEq; intro; simp; done)
    | (apply keeps_modifyFpu; intro _ h; simp [h]; done)
    | split
    | dsimp only

@[simp] theorem keeps_readTarget (m : Rm) : M.Keeps (readTarget m) := by
  unfold readTarget
  repeat' first
    | with_reducible intro _
    | (with_reducible first | refine keeps_bind ?_ ?_ | refine keeps_ite ?_ ?_ | refine keeps_map ?_)
    | assumption
    | (simp [*]; done)
    | exact keeps_modify fun _ => .of_eq rfl rfl rfl rfl rfl rfl rfl rfl rfl rfl rfl rfl
    | exact keeps_readRm _ _
    | exact keeps_locRead _ _
    | exact keeps_modifyRegA _ _
    | (apply keeps_modifyFpuEq; intro; simp; done)
    | (apply keeps_modifyFpu; intro _ h; simp [h]; done)
    | split
    | dsimp only

@[simp] theorem keeps_retNear (src : Word) : M.Keeps (retNear src) := by
  unfold retNear
  repeat' first
    | with_reducible intro _
    | (with_reducible first | refine keeps_bind ?_ ?_ | refine keeps_ite ?_ ?_ | refine keeps_map ?_)
    | assumption
    | (simp [*]; done)
    | exact keeps_modify fun _ => .of_eq rfl rfl rfl rfl rfl rfl rfl rfl rfl rfl rfl rfl
    | exact keeps_readRm _ _
    | exact keeps_locRead _ _
    | exact keeps_modifyRegA _ _
    | (apply keeps_modifyFpuEq; intro; simp; done)
    | (apply keeps_modifyFpu; intro _ h; simp [h]; done)
    | split
    | dsimp only

@[simp] theorem keeps_checkDirect (sel : Word) (d : Desc) : M.Keeps (checkDirect sel d) := by
  unfold checkDirect
  repeat' first
    | with_reducible intro _
    | (with_reducible first | refine keeps_bind ?_ ?_ | refine keeps_ite ?_ ?_ | refine keeps_map ?_)
    | assumption
    | (simp [*]; done)
    | exact keeps_modify fun _ => .of_eq rfl rfl rfl rfl rfl rfl rfl rfl rfl rfl rfl rfl
    | exact keeps_readRm _ _
    | exact keeps_locRead _ _
    | exact keeps_modifyRegA _ _
    | (apply keeps_modifyFpuEq; intro; simp; done)
    | (apply keeps_modifyFpu; intro _ h; simp [h]; done)
    | split
    | dsimp only

@[simp] theorem keeps_checkGate (sel : Word) (d : Desc) : M.Keeps (checkGate sel d) := by
  unfold checkGate
  repeat' first
    | with_reducible intro _
    | (with_reducible first | refine keeps_bind ?_ ?_ | refine keeps_ite ?_ ?_ | refine keeps_map ?_)
    | assumption
    | (simp [*]; done)
    | exact keeps_modify fun _ => .of_eq rfl rfl rfl rfl rfl rfl rfl rfl rfl rfl rfl rfl
    | exact keeps_readRm _ _
    | exact keeps_locRead _ _
    | exact keeps_modifyRegA _ _
    | (apply keeps_modifyFpuEq; intro; simp; done)
    | (apply keeps_modifyFpu; intro _ h; simp [h]; done)
    | split
    | dsimp only

@[simp] theorem keeps_gateTarget (g : Gate) (ok : Desc → Bool) : M.Keeps (gateTarget g ok) := by
  unfold gateTarget
  repeat' first
    | with_reducible intro _
    | (with_reducible first | refine keeps_bind ?_ ?_ | refine keeps_ite ?_ ?_ | refine keeps_map ?_)
    | assumption
    | (simp [*]; done)
    | exact keeps_modify fun _ => .of_eq rfl rfl rfl rfl rfl rfl rfl rfl rfl rfl rfl rfl
    | exact keeps_readRm _ _
    | exact keeps_locRead _ _
    | exact keeps_modifyRegA _ _
    | (apply keeps_modifyFpuEq; intro; simp; done)
    | (apply keeps_modifyFpu; intro _ h; simp [h]; done)
    | split
    | dsimp only

@[simp] theorem keeps_taskGate (g : Gate) (kind : SwitchKind) : M.Keeps (taskGate g kind) := by
  unfold taskGate
  repeat' first
    | with_reducible intro _
    | (with_reducible first | refine keeps_bind ?_ ?_ | refine keeps_ite ?_ ?_ | refine keeps_map ?_)
    | assumption
    | (simp [*]; done)
    | exact keeps_modify fun _ => .of_eq rfl rfl rfl rfl rfl rfl rfl rfl rfl rfl rfl rfl
    | exact keeps_readRm _ _
    | exact keeps_locRead _ _
    | exact keeps_modifyRegA _ _
    | (apply keeps_modifyFpuEq; intro; simp; done)
    | (apply keeps_modifyFpu; intro _ h; simp [h]; done)
    | split
    | dsimp only

@[simp] theorem keeps_taskState (sel : Word) (x : Desc) (kind : SwitchKind) : M.Keeps (taskState sel x kind) := by
  unfold taskState
  repeat' first
    | with_reducible intro _
    | (with_reducible first | refine keeps_bind ?_ ?_ | refine keeps_ite ?_ ?_ | refine keeps_map ?_)
    | assumption
    | (simp [*]; done)
    | exact keeps_modify fun _ => .of_eq rfl rfl rfl rfl rfl rfl rfl rfl rfl rfl rfl rfl
    | exact keeps_readRm _ _
    | exact keeps_locRead _ _
    | exact keeps_modifyRegA _ _
    | (apply keeps_modifyFpuEq; intro; simp; done)
    | (apply keeps_modifyFpu; intro _ h; simp [h]; done)
    | split
    | dsimp only

@[simp] theorem keeps_readParams (m : Nat) : ∀ (k : Nat) (o : Dword), M.Keeps (readParams m k o)
  | 0, _ => by simp [readParams]
  | k + 1, o => by
    have ih := keeps_readParams m k
    unfold readParams
    refine keeps_bind keeps_get fun s => keeps_bind (keeps_readSeg _ _ _ _) fun v => keeps_bind (ih _) fun _ => keeps_pure _

@[simp] theorem keeps_callGate (sel : Word) (gd : Desc) : M.Keeps (callGate sel gd) := by
  unfold callGate
  repeat' first
    | with_reducible intro _
    | (with_reducible first | refine keeps_bind ?_ ?_ | refine keeps_ite ?_ ?_ | refine keeps_map ?_)
    | assumption
    | (simp [*]; done)
    | exact keeps_modify fun _ => .of_eq rfl rfl rfl rfl rfl rfl rfl rfl rfl rfl rfl rfl
    | exact keeps_readRm _ _
    | exact keeps_locRead _ _
    | exact keeps_modifyRegA _ _
    | (apply keeps_modifyFpuEq; intro; simp; done)
    | (apply keeps_modifyFpu; intro _ h; simp [h]; done)
    | split
    | dsimp only

@[simp] theorem keeps_jmpGate (sel : Word) (gd : Desc) : M.Keeps (jmpGate sel gd) := by
  unfold jmpGate
  repeat' first
    | with_reducible intro _
    | (with_reducible first | refine keeps_bind ?_ ?_ | refine keeps_ite ?_ ?_ | refine keeps_map ?_)
    | assumption
    | (simp [*]; done)
    | exact keeps_modify fun _ => .of_eq rfl rfl rfl rfl rfl rfl rfl rfl rfl rfl rfl rfl
    | exact keeps_readRm _ _
    | exact keeps_locRead _ _
    | exact keeps_modifyRegA _ _
    | (apply keeps_modifyFpuEq; intro; simp; done)
    | (apply keeps_modifyFpu; intro _ h; simp [h]; done)
    | split
    | dsimp only

@[simp] theorem keeps_callProt (sel : Word) (off : Dword) : M.Keeps (callProt sel off) := by
  unfold callProt
  repeat' first
    | with_reducible intro _
    | (with_reducible first | refine keeps_bind ?_ ?_ | refine keeps_ite ?_ ?_ | refine keeps_map ?_)
    | assumption
    | (simp [*]; done)
    | exact keeps_modify fun _ => .of_eq rfl rfl rfl rfl rfl rfl rfl rfl rfl rfl rfl rfl
    | exact keeps_readRm _ _
    | exact keeps_locRead _ _
    | exact keeps_modifyRegA _ _
    | (apply keeps_modifyFpuEq; intro; simp; done)
    | (apply keeps_modifyFpu; intro _ h; simp [h]; done)
    | split
    | dsimp only

@[simp] theorem keeps_jmpProt (sel : Word) (off : Dword) : M.Keeps (jmpProt sel off) := by
  unfold jmpProt
  repeat' first
    | with_reducible intro _
    | (with_reducible first | refine keeps_bind ?_ ?_ | refine keeps_ite ?_ ?_ | refine keeps_map ?_)
    | assumption
    | (simp [*]; done)
    | exact keeps_modify fun _ => .of_eq rfl rfl rfl rfl rfl rfl rfl rfl rfl rfl rfl rfl
    | exact keeps_readRm _ _
    | exact keeps_locRead _ _
    | exact keeps_modifyRegA _ _
    | (apply keeps_modifyFpuEq; intro; simp; done)
    | (apply keeps_modifyFpu; intro _ h; simp [h]; done)
    | split
    | dsimp only

@[simp] theorem keeps_FarSrc.read (f : FarSrc) : M.Keeps (FarSrc.read f) := by
  unfold FarSrc.read
  repeat' first
    | with_reducible intro _
    | (with_reducible first | refine keeps_bind ?_ ?_ | refine keeps_ite ?_ ?_ | refine keeps_map ?_)
    | assumption
    | (simp [*]; done)
    | exact keeps_modify fun _ => .of_eq rfl rfl rfl rfl rfl rfl rfl rfl rfl rfl rfl rfl
    | exact keeps_readRm _ _
    | exact keeps_locRead _ _
    | exact keeps_modifyRegA _ _
    | (apply keeps_modifyFpuEq; intro; simp; done)
    | (apply keeps_modifyFpu; intro _ h; simp [h]; done)
    | split
    | dsimp only

@[simp] theorem keeps_callReal (f : FarSrc) : M.Keeps (callReal f) := by
  unfold callReal
  repeat' first
    | with_reducible intro _
    | (with_reducible first | refine keeps_bind ?_ ?_ | refine keeps_ite ?_ ?_ | refine keeps_map ?_)
    | assumption
    | (simp [*]; done)
    | exact keeps_modify fun _ => .of_eq rfl rfl rfl rfl rfl rfl rfl rfl rfl rfl rfl rfl
    | exact keeps_readRm _ _
    | exact keeps_locRead _ _
    | exact keeps_modifyRegA _ _
    | (apply keeps_modifyFpuEq; intro; simp; done)
    | (apply keeps_modifyFpu; intro _ h; simp [h]; done)
    | split
    | dsimp only

@[simp] theorem keeps_callFar (f : FarSrc) : M.Keeps (callFar f) := by
  unfold callFar
  repeat' first
    | with_reducible intro _
    | (with_reducible first | refine keeps_bind ?_ ?_ | refine keeps_ite ?_ ?_ | refine keeps_map ?_)
    | assumption
    | (simp [*]; done)
    | exact keeps_modify fun _ => .of_eq rfl rfl rfl rfl rfl rfl rfl rfl rfl rfl rfl rfl
    | exact keeps_readRm _ _
    | exact keeps_locRead _ _
    | exact keeps_modifyRegA _ _
    | (apply keeps_modifyFpuEq; intro; simp; done)
    | (apply keeps_modifyFpu; intro _ h; simp [h]; done)
    | split
    | dsimp only

@[simp] theorem keeps_jmpFar (f : FarSrc) : M.Keeps (jmpFar f) := by
  unfold jmpFar
  repeat' first
    | with_reducible intro _
    | (with_reducible first | refine keeps_bind ?_ ?_ | refine keeps_ite ?_ ?_ | refine keeps_map ?_)
    | assumption
    | (simp [*]; done)
    | exact keeps_modify fun _ => .of_eq rfl rfl rfl rfl rfl rfl rfl rfl rfl rfl rfl rfl
    | exact keeps_readRm _ _
    | exact keeps_locRead _ _
    | exact keeps_modifyRegA _ _
    | (apply keeps_modifyFpuEq; intro; simp; done)
    | (apply keeps_modifyFpu; intro _ h; simp [h]; done)
    | split
    | dsimp only

@[simp] theorem keeps_callForm (f : CallForm) : M.Keeps (callForm f) := by
  unfold callForm
  repeat' first
    | with_reducible intro _
    | (with_reducible first | refine keeps_bind ?_ ?_ | refine keeps_ite ?_ ?_ | refine keeps_map ?_)
    | assumption
    | (simp [*]; done)
    | exact keeps_modify fun _ => .of_eq rfl rfl rfl rfl rfl rfl rfl rfl rfl rfl rfl rfl
    | exact keeps_readRm _ _
    | exact keeps_locRead _ _
    | exact keeps_modifyRegA _ _
    | (apply keeps_modifyFpuEq; intro; simp; done)
    | (apply keeps_modifyFpu; intro _ h; simp [h]; done)
    | split
    | dsimp only

@[simp] theorem keeps_jmpForm (f : JmpForm) : M.Keeps (jmpForm f) := by
  unfold jmpForm
  repeat' first
    | with_reducible intro _
    | (with_reducible first | refine keeps_bind ?_ ?_ | refine keeps_ite ?_ ?_ | refine keeps_map ?_)
    | assumption
    | (simp [*]; done)
    | exact keeps_modify fun _ => .of_eq rfl rfl rfl rfl rfl rfl rfl rfl rfl rfl rfl rfl
    | exact keeps_readRm _ _
    | exact keeps_locRead _ _
    | exact keeps_modifyRegA _ _
    | (apply keeps_modifyFpuEq; intro; simp; done)
    | (apply keeps_modifyFpu; intro _ h; simp [h]; done)
    | split
    | dsimp only

@[simp] theorem keeps_retReal (src : Word) : M.Keeps (retReal src) := by
  unfold retReal
  repeat' first
    | with_reducible intro _
    | (with_reducible first | refine keeps_bind ?_ ?_ | refine keeps_ite ?_ ?_ | refine keeps_map ?_)
    | assumption
    | (simp [*]; done)
    | exact keeps_modify fun _ => .of_eq rfl rfl rfl rfl rfl rfl rfl rfl rfl rfl rfl rfl
    | exact keeps_readRm _ _
    | exact keeps_locRead _ _
    | exact keeps_modifyRegA _ _
    | (apply keeps_modifyFpuEq; intro; simp; done)
    | (apply keeps_modifyFpu; intro _ h; simp [h]; done)
    | split
    | dsimp only

@[simp] theorem keeps_retProt (src : Word) : M.Keeps (retProt src) := by
  unfold retProt
  repeat' first
    | with_reducible intro _
    | (with_reducible first | refine keeps_bind ?_ ?_ | refine keeps_ite ?_ ?_ | refine keeps_map ?_)
    | assumption
    | (simp [*]; done)
    | exact keeps_modify fun _ => .of_eq rfl rfl rfl rfl rfl rfl rfl rfl rfl rfl rfl rfl
    | exact keeps_readRm _ _
    | exact keeps_locRead _ _
    | exact keeps_modifyRegA _ _
    | (apply keeps_modifyFpuEq; intro; simp; done)
    | (apply keeps_modifyFpu; intro _ h; simp [h]; done)
    | split
    | dsimp only

@[simp] theorem keeps_retForm (f : RetForm) : M.Keeps (retForm f) := by
  unfold retForm
  repeat' first
    | with_reducible intro _
    | (with_reducible first | refine keeps_bind ?_ ?_ | refine keeps_ite ?_ ?_ | refine keeps_map ?_)
    | assumption
    | (simp [*]; done)
    | exact keeps_modify fun _ => .of_eq rfl rfl rfl rfl rfl rfl rfl rfl rfl rfl rfl rfl
    | exact keeps_readRm _ _
    | exact keeps_locRead _ _
    | exact keeps_modifyRegA _ _
    | (apply keeps_modifyFpuEq; intro; simp; done)
    | (apply keeps_modifyFpu; intro _ h; simp [h]; done)
    | split
    | dsimp only

@[simp] theorem keeps_softInt (v : Byte) : M.Keeps (softInt v) := by
  unfold softInt
  repeat' first
    | with_reducible intro _
    | (with_reducible first | refine keeps_bind ?_ ?_ | refine keeps_ite ?_ ?_ | refine keeps_map ?_)
    | assumption
    | (simp [*]; done)
    | exact keeps_modify fun _ => .of_eq rfl rfl rfl rfl rfl rfl rfl rfl rfl rfl rfl rfl
    | exact keeps_readRm _ _
    | exact keeps_locRead _ _
    | exact keeps_modifyRegA _ _
    | (apply keeps_modifyFpuEq; intro; simp; done)
    | (apply keeps_modifyFpu; intro _ h; simp [h]; done)
    | split
    | dsimp only

@[simp] theorem keeps_intBody (n : Byte) : M.Keeps (intBody n) := by
  unfold intBody
  repeat' first
    | with_reducible intro _
    | (with_reducible first | refine keeps_bind ?_ ?_ | refine keeps_ite ?_ ?_ | refine keeps_map ?_)
    | assumption
    | (simp [*]; done)
    | exact keeps_modify fun _ => .of_eq rfl rfl rfl rfl rfl rfl rfl rfl rfl rfl rfl rfl
    | exact keeps_readRm _ _
    | exact keeps_locRead _ _
    | exact keeps_modifyRegA _ _
    | (apply keeps_modifyFpuEq; intro; simp; done)
    | (apply keeps_modifyFpu; intro _ h; simp [h]; done)
    | split
    | dsimp only

@[simp] theorem keeps_intoBody : M.Keeps intoBody := by
  unfold intoBody
  repeat' first
    | with_reducible intro _
    | (with_reducible first | refine keeps_bind ?_ ?_ | refine keeps_ite ?_ ?_ | refine keeps_map ?_)
    | assumption
    | (simp [*]; done)
    | exact keeps_modify fun _ => .of_eq rfl rfl rfl rfl rfl rfl rfl rfl rfl rfl rfl rfl
    | exact keeps_readRm _ _
    | exact keeps_locRead _ _
    | exact keeps_modifyRegA _ _
    | (apply keeps_modifyFpuEq; intro; simp; done)
    | (apply keeps_modifyFpu; intro _ h; simp [h]; done)
    | split
    | dsimp only

/-! ## System -/

@[simp] theorem keeps_privileged : M.Keeps privileged := by
  unfold privileged
  repeat' first
    | with_reducible intro _
    | (with_reducible first | refine keeps_bind ?_ ?_ | refine keeps_ite ?_ ?_ | refine keeps_map ?_)
    | assumption
    | (simp [*]; done)
    | exact keeps_modify fun _ => .of_eq rfl rfl rfl rfl rfl rfl rfl rfl rfl rfl rfl rfl
    | exact keeps_readRm _ _
    | exact keeps_locRead _ _
    | exact keeps_modifyRegA _ _
    | (apply keeps_modifyFpuEq; intro; simp; done)
    | (apply keeps_modifyFpu; intro _ h; simp [h]; done)
    | split
    | dsimp only

@[simp] theorem keeps_protOnly : M.Keeps protOnly := by
  unfold protOnly
  repeat' first
    | with_reducible intro _
    | (with_reducible first | refine keeps_bind ?_ ?_ | refine keeps_ite ?_ ?_ | refine keeps_map ?_)
    | assumption
    | (simp [*]; done)
    | exact keeps_modify fun _ => .of_eq rfl rfl rfl rfl rfl rfl rfl rfl rfl rfl rfl rfl
    | exact keeps_readRm _ _
    | exact keeps_locRead _ _
    | exact keeps_modifyRegA _ _
    | (apply keeps_modifyFpuEq; intro; simp; done)
    | (apply keeps_modifyFpu; intro _ h; simp [h]; done)
    | split
    | dsimp only

@[simp] theorem keeps_ioplCheck : M.Keeps ioplCheck := by
  unfold ioplCheck
  repeat' first
    | with_reducible intro _
    | (with_reducible first | refine keeps_bind ?_ ?_ | refine keeps_ite ?_ ?_ | refine keeps_map ?_)
    | assumption
    | (simp [*]; done)
    | exact keeps_modify fun _ => .of_eq rfl rfl rfl rfl rfl rfl rfl rfl rfl rfl rfl rfl
    | exact keeps_readRm _ _
    | exact keeps_locRead _ _
    | exact keeps_modifyRegA _ _
    | (apply keeps_modifyFpuEq; intro; simp; done)
    | (apply keeps_modifyFpu; intro _ h; simp [h]; done)
    | split
    | dsimp only

@[simp] theorem keeps_cli : M.Keeps cli := by
  unfold cli
  repeat' first
    | with_reducible intro _
    | (with_reducible first | refine keeps_bind ?_ ?_ | refine keeps_ite ?_ ?_ | refine keeps_map ?_)
    | assumption
    | (simp [*]; done)
    | exact keeps_modify fun _ => .of_eq rfl rfl rfl rfl rfl rfl rfl rfl rfl rfl rfl rfl
    | exact keeps_readRm _ _
    | exact keeps_locRead _ _
    | exact keeps_modifyRegA _ _
    | (apply keeps_modifyFpuEq; intro; simp; done)
    | (apply keeps_modifyFpu; intro _ h; simp [h]; done)
    | split
    | dsimp only

@[simp] theorem keeps_sti : M.Keeps sti := by
  unfold sti
  repeat' first
    | with_reducible intro _
    | (with_reducible first | refine keeps_bind ?_ ?_ | refine keeps_ite ?_ ?_ | refine keeps_map ?_)
    | assumption
    | (simp [*]; done)
    | exact keeps_modify fun _ => .of_eq rfl rfl rfl rfl rfl rfl rfl rfl rfl rfl rfl rfl
    | exact keeps_readRm _ _
    | exact keeps_locRead _ _
    | exact keeps_modifyRegA _ _
    | (apply keeps_modifyFpuEq; intro; simp; done)
    | (apply keeps_modifyFpu; intro _ h; simp [h]; done)
    | split
    | dsimp only

@[simp] theorem keeps_hlt : M.Keeps hlt := by
  unfold hlt
  repeat' first
    | with_reducible intro _
    | (with_reducible first | refine keeps_bind ?_ ?_ | refine keeps_ite ?_ ?_ | refine keeps_map ?_)
    | assumption
    | (simp [*]; done)
    | exact keeps_modify fun _ => .of_eq rfl rfl rfl rfl rfl rfl rfl rfl rfl rfl rfl rfl
    | exact keeps_readRm _ _
    | exact keeps_locRead _ _
    | exact keeps_modifyRegA _ _
    | (apply keeps_modifyFpuEq; intro; simp; done)
    | (apply keeps_modifyFpu; intro _ h; simp [h]; done)
    | split
    | dsimp only

@[simp] theorem keeps_invlpg (m : Rm) : M.Keeps (invlpg m) := by
  unfold invlpg
  repeat' first
    | with_reducible intro _
    | (with_reducible first | refine keeps_bind ?_ ?_ | refine keeps_ite ?_ ?_ | refine keeps_map ?_)
    | assumption
    | (simp [*]; done)
    | exact keeps_modify fun _ => .of_eq rfl rfl rfl rfl rfl rfl rfl rfl rfl rfl rfl rfl
    | exact keeps_readRm _ _
    | exact keeps_locRead _ _
    | exact keeps_modifyRegA _ _
    | (apply keeps_modifyFpuEq; intro; simp; done)
    | (apply keeps_modifyFpu; intro _ h; simp [h]; done)
    | split
    | dsimp only

@[simp] theorem keeps_readTable (m : Rm) : M.Keeps (readTable m) := by
  unfold readTable
  repeat' first
    | with_reducible intro _
    | (with_reducible first | refine keeps_bind ?_ ?_ | refine keeps_ite ?_ ?_ | refine keeps_map ?_)
    | assumption
    | (simp [*]; done)
    | exact keeps_modify fun _ => .of_eq rfl rfl rfl rfl rfl rfl rfl rfl rfl rfl rfl rfl
    | exact keeps_readRm _ _
    | exact keeps_locRead _ _
    | exact keeps_modifyRegA _ _
    | (apply keeps_modifyFpuEq; intro; simp; done)
    | (apply keeps_modifyFpu; intro _ h; simp [h]; done)
    | split
    | dsimp only

@[simp] theorem keeps_storeTable (t : TableReg) (m : Rm) : M.Keeps (storeTable t m) := by
  unfold storeTable
  repeat' first
    | with_reducible intro _
    | (with_reducible first | refine keeps_bind ?_ ?_ | refine keeps_ite ?_ ?_ | refine keeps_map ?_)
    | assumption
    | (simp [*]; done)
    | exact keeps_modify fun _ => .of_eq rfl rfl rfl rfl rfl rfl rfl rfl rfl rfl rfl rfl
    | exact keeps_readRm _ _
    | exact keeps_locRead _ _
    | exact keeps_modifyRegA _ _
    | (apply keeps_modifyFpuEq; intro; simp; done)
    | (apply keeps_modifyFpu; intro _ h; simp [h]; done)
    | split
    | dsimp only

@[simp] theorem keeps_lldt (src : Rm) : M.Keeps (lldt src) := by
  unfold lldt
  repeat' first
    | with_reducible intro _
    | (with_reducible first | refine keeps_bind ?_ ?_ | refine keeps_ite ?_ ?_ | refine keeps_map ?_)
    | assumption
    | (simp [*]; done)
    | exact keeps_modify fun _ => .of_eq rfl rfl rfl rfl rfl rfl rfl rfl rfl rfl rfl rfl
    | exact keeps_readRm _ _
    | exact keeps_locRead _ _
    | exact keeps_modifyRegA _ _
    | (apply keeps_modifyFpuEq; intro; simp; done)
    | (apply keeps_modifyFpu; intro _ h; simp [h]; done)
    | split
    | dsimp only

@[simp] theorem keeps_ltr (src : Rm) : M.Keeps (ltr src) := by
  unfold ltr
  repeat' first
    | with_reducible intro _
    | (with_reducible first | refine keeps_bind ?_ ?_ | refine keeps_ite ?_ ?_ | refine keeps_map ?_)
    | assumption
    | (simp [*]; done)
    | exact keeps_modify fun _ => .of_eq rfl rfl rfl rfl rfl rfl rfl rfl rfl rfl rfl rfl
    | exact keeps_readRm _ _
    | exact keeps_locRead _ _
    | exact keeps_modifyRegA _ _
    | (apply keeps_modifyFpuEq; intro; simp; done)
    | (apply keeps_modifyFpu; intro _ h; simp [h]; done)
    | split
    | dsimp only

@[simp] theorem keeps_sldt (dst : Rm) : M.Keeps (sldt dst) := by
  unfold sldt
  repeat' first
    | with_reducible intro _
    | (with_reducible first | refine keeps_bind ?_ ?_ | refine keeps_ite ?_ ?_ | refine keeps_map ?_)
    | assumption
    | (simp [*]; done)
    | exact keeps_modify fun _ => .of_eq rfl rfl rfl rfl rfl rfl rfl rfl rfl rfl rfl rfl
    | exact keeps_readRm _ _
    | exact keeps_locRead _ _
    | exact keeps_modifyRegA _ _
    | (apply keeps_modifyFpuEq; intro; simp; done)
    | (apply keeps_modifyFpu; intro _ h; simp [h]; done)
    | split
    | dsimp only

@[simp] theorem keeps_str (dst : Rm) : M.Keeps (str dst) := by
  unfold str
  repeat' first
    | with_reducible intro _
    | (with_reducible first | refine keeps_bind ?_ ?_ | refine keeps_ite ?_ ?_ | refine keeps_map ?_)
    | assumption
    | (simp [*]; done)
    | exact keeps_modify fun _ => .of_eq rfl rfl rfl rfl rfl rfl rfl rfl rfl rfl rfl rfl
    | exact keeps_readRm _ _
    | exact keeps_locRead _ _
    | exact keeps_modifyRegA _ _
    | (apply keeps_modifyFpuEq; intro; simp; done)
    | (apply keeps_modifyFpu; intro _ h; simp [h]; done)
    | split
    | dsimp only

@[simp] theorem keeps_setCr3 (v : Dword) : M.Keeps (setCr3 v) := by
  unfold setCr3
  repeat' first
    | with_reducible intro _
    | (with_reducible first | refine keeps_bind ?_ ?_ | refine keeps_ite ?_ ?_ | refine keeps_map ?_)
    | assumption
    | (simp [*]; done)
    | exact keeps_modify fun _ => .of_eq rfl rfl rfl rfl rfl rfl rfl rfl rfl rfl rfl rfl
    | exact keeps_readRm _ _
    | exact keeps_locRead _ _
    | exact keeps_modifyRegA _ _
    | (apply keeps_modifyFpuEq; intro; simp; done)
    | (apply keeps_modifyFpu; intro _ h; simp [h]; done)
    | split
    | dsimp only

@[simp] theorem keeps_smsw (dst : Rm) : M.Keeps (smsw dst) := by
  unfold smsw
  repeat' first
    | with_reducible intro _
    | (with_reducible first | refine keeps_bind ?_ ?_ | refine keeps_ite ?_ ?_ | refine keeps_map ?_)
    | assumption
    | (simp [*]; done)
    | exact keeps_modify fun _ => .of_eq rfl rfl rfl rfl rfl rfl rfl rfl rfl rfl rfl rfl
    | exact keeps_readRm _ _
    | exact keeps_locRead _ _
    | exact keeps_modifyRegA _ _
    | (apply keeps_modifyFpuEq; intro; simp; done)
    | (apply keeps_modifyFpu; intro _ h; simp [h]; done)
    | split
    | dsimp only

@[simp] theorem keeps_debugCheck (n : Idx8) : M.Keeps (debugCheck n) := by
  unfold debugCheck
  repeat' first
    | with_reducible intro _
    | (with_reducible first | refine keeps_bind ?_ ?_ | refine keeps_ite ?_ ?_ | refine keeps_map ?_)
    | assumption
    | (simp [*]; done)
    | exact keeps_modify fun _ => .of_eq rfl rfl rfl rfl rfl rfl rfl rfl rfl rfl rfl rfl
    | exact keeps_readRm _ _
    | exact keeps_locRead _ _
    | exact keeps_modifyRegA _ _
    | (apply keeps_modifyFpuEq; intro; simp; done)
    | (apply keeps_modifyFpu; intro _ h; simp [h]; done)
    | split
    | dsimp only

@[simp] theorem keeps_msrCheck (i : Dword) : M.Keeps (msrCheck i) := by
  unfold msrCheck
  repeat' first
    | with_reducible intro _
    | (with_reducible first | refine keeps_bind ?_ ?_ | refine keeps_ite ?_ ?_ | refine keeps_map ?_)
    | assumption
    | (simp [*]; done)
    | exact keeps_modify fun _ => .of_eq rfl rfl rfl rfl rfl rfl rfl rfl rfl rfl rfl rfl
    | exact keeps_readRm _ _
    | exact keeps_locRead _ _
    | exact keeps_modifyRegA _ _
    | (apply keeps_modifyFpuEq; intro; simp; done)
    | (apply keeps_modifyFpu; intro _ h; simp [h]; done)
    | split
    | dsimp only

@[simp] theorem keeps_setEdxEax (v : Qword) : M.Keeps (setEdxEax v) := by
  unfold setEdxEax
  repeat' first
    | with_reducible intro _
    | (with_reducible first | refine keeps_bind ?_ ?_ | refine keeps_ite ?_ ?_ | refine keeps_map ?_)
    | assumption
    | (simp [*]; done)
    | exact keeps_modify fun _ => .of_eq rfl rfl rfl rfl rfl rfl rfl rfl rfl rfl rfl rfl
    | exact keeps_readRm _ _
    | exact keeps_locRead _ _
    | exact keeps_modifyRegA _ _
    | (apply keeps_modifyFpuEq; intro; simp; done)
    | (apply keeps_modifyFpu; intro _ h; simp [h]; done)
    | split
    | dsimp only

@[simp] theorem keeps_rdmsr : M.Keeps rdmsr := by
  unfold rdmsr
  repeat' first
    | with_reducible intro _
    | (with_reducible first | refine keeps_bind ?_ ?_ | refine keeps_ite ?_ ?_ | refine keeps_map ?_)
    | assumption
    | (simp [*]; done)
    | exact keeps_modify fun _ => .of_eq rfl rfl rfl rfl rfl rfl rfl rfl rfl rfl rfl rfl
    | exact keeps_readRm _ _
    | exact keeps_locRead _ _
    | exact keeps_modifyRegA _ _
    | (apply keeps_modifyFpuEq; intro; simp; done)
    | (apply keeps_modifyFpu; intro _ h; simp [h]; done)
    | split
    | dsimp only

@[simp] theorem keeps_rdpmc : M.Keeps rdpmc := by
  unfold rdpmc
  repeat' first
    | with_reducible intro _
    | (with_reducible first | refine keeps_bind ?_ ?_ | refine keeps_ite ?_ ?_ | refine keeps_map ?_)
    | assumption
    | (simp [*]; done)
    | exact keeps_modify fun _ => .of_eq rfl rfl rfl rfl rfl rfl rfl rfl rfl rfl rfl rfl
    | exact keeps_readRm _ _
    | exact keeps_locRead _ _
    | exact keeps_modifyRegA _ _
    | (apply keeps_modifyFpuEq; intro; simp; done)
    | (apply keeps_modifyFpu; intro _ h; simp [h]; done)
    | split
    | dsimp only

@[simp] theorem keeps_rdtsc : M.Keeps rdtsc := by
  unfold rdtsc
  repeat' first
    | with_reducible intro _
    | (with_reducible first | refine keeps_bind ?_ ?_ | refine keeps_ite ?_ ?_ | refine keeps_map ?_)
    | assumption
    | (simp [*]; done)
    | exact keeps_modify fun _ => .of_eq rfl rfl rfl rfl rfl rfl rfl rfl rfl rfl rfl rfl
    | exact keeps_readRm _ _
    | exact keeps_locRead _ _
    | exact keeps_modifyRegA _ _
    | (apply keeps_modifyFpuEq; intro; simp; done)
    | (apply keeps_modifyFpu; intro _ h; simp [h]; done)
    | split
    | dsimp only

@[simp] theorem keeps_setAbcd (a b c d : Dword) : M.Keeps (setAbcd a b c d) := by
  unfold setAbcd
  repeat' first
    | with_reducible intro _
    | (with_reducible first | refine keeps_bind ?_ ?_ | refine keeps_ite ?_ ?_ | refine keeps_map ?_)
    | assumption
    | (simp [*]; done)
    | exact keeps_modify fun _ => .of_eq rfl rfl rfl rfl rfl rfl rfl rfl rfl rfl rfl rfl
    | exact keeps_readRm _ _
    | exact keeps_locRead _ _
    | exact keeps_modifyRegA _ _
    | (apply keeps_modifyFpuEq; intro; simp; done)
    | (apply keeps_modifyFpu; intro _ h; simp [h]; done)
    | split
    | dsimp only

@[simp] theorem keeps_cpuid : M.Keeps cpuid := by
  unfold cpuid
  repeat' first
    | with_reducible intro _
    | (with_reducible first | refine keeps_bind ?_ ?_ | refine keeps_ite ?_ ?_ | refine keeps_map ?_)
    | assumption
    | (simp [*]; done)
    | exact keeps_modify fun _ => .of_eq rfl rfl rfl rfl rfl rfl rfl rfl rfl rfl rfl rfl
    | exact keeps_readRm _ _
    | exact keeps_locRead _ _
    | exact keeps_modifyRegA _ _
    | (apply keeps_modifyFpuEq; intro; simp; done)
    | (apply keeps_modifyFpu; intro _ h; simp [h]; done)
    | split
    | dsimp only

@[simp] theorem keeps_testDesc (sel : Word) (ok : Desc → Bool) : M.Keeps (testDesc sel ok) := by
  unfold testDesc
  repeat' first
    | with_reducible intro _
    | (with_reducible first | refine keeps_bind ?_ ?_ | refine keeps_ite ?_ ?_ | refine keeps_map ?_)
    | assumption
    | (simp [*]; done)
    | exact keeps_modify fun _ => .of_eq rfl rfl rfl rfl rfl rfl rfl rfl rfl rfl rfl rfl
    | exact keeps_readRm _ _
    | exact keeps_locRead _ _
    | exact keeps_modifyRegA _ _
    | (apply keeps_modifyFpuEq; intro; simp; done)
    | (apply keeps_modifyFpu; intro _ h; simp [h]; done)
    | split
    | dsimp only

@[simp] theorem keeps_setZf (b : Bool) : M.Keeps (setZf b) := by
  unfold setZf
  repeat' first
    | with_reducible intro _
    | (with_reducible first | refine keeps_bind ?_ ?_ | refine keeps_ite ?_ ?_ | refine keeps_map ?_)
    | assumption
    | (simp [*]; done)
    | exact keeps_modify fun _ => .of_eq rfl rfl rfl rfl rfl rfl rfl rfl rfl rfl rfl rfl
    | exact keeps_readRm _ _
    | exact keeps_locRead _ _
    | exact keeps_modifyRegA _ _
    | (apply keeps_modifyFpuEq; intro; simp; done)
    | (apply keeps_modifyFpu; intro _ h; simp [h]; done)
    | split
    | dsimp only

@[simp] theorem keeps_lar (dst : Reg) (src : Rm) : M.Keeps (lar dst src) := by
  unfold lar
  repeat' first
    | with_reducible intro _
    | (with_reducible first | refine keeps_bind ?_ ?_ | refine keeps_ite ?_ ?_ | refine keeps_map ?_)
    | assumption
    | (simp [*]; done)
    | exact keeps_modify fun _ => .of_eq rfl rfl rfl rfl rfl rfl rfl rfl rfl rfl rfl rfl
    | exact keeps_readRm _ _
    | exact keeps_locRead _ _
    | exact keeps_modifyRegA _ _
    | (apply keeps_modifyFpuEq; intro; simp; done)
    | (apply keeps_modifyFpu; intro _ h; simp [h]; done)
    | split
    | dsimp only

@[simp] theorem keeps_lsl (dst : Reg) (src : Rm) : M.Keeps (lsl dst src) := by
  unfold lsl
  repeat' first
    | with_reducible intro _
    | (with_reducible first | refine keeps_bind ?_ ?_ | refine keeps_ite ?_ ?_ | refine keeps_map ?_)
    | assumption
    | (simp [*]; done)
    | exact keeps_modify fun _ => .of_eq rfl rfl rfl rfl rfl rfl rfl rfl rfl rfl rfl rfl
    | exact keeps_readRm _ _
    | exact keeps_locRead _ _
    | exact keeps_modifyRegA _ _
    | (apply keeps_modifyFpuEq; intro; simp; done)
    | (apply keeps_modifyFpu; intro _ h; simp [h]; done)
    | split
    | dsimp only

@[simp] theorem keeps_verify (ok : Desc → Bool) (src : Rm) : M.Keeps (verify ok src) := by
  unfold verify
  repeat' first
    | with_reducible intro _
    | (with_reducible first | refine keeps_bind ?_ ?_ | refine keeps_ite ?_ ?_ | refine keeps_map ?_)
    | assumption
    | (simp [*]; done)
    | exact keeps_modify fun _ => .of_eq rfl rfl rfl rfl rfl rfl rfl rfl rfl rfl rfl rfl
    | exact keeps_readRm _ _
    | exact keeps_locRead _ _
    | exact keeps_modifyRegA _ _
    | (apply keeps_modifyFpuEq; intro; simp; done)
    | (apply keeps_modifyFpu; intro _ h; simp [h]; done)
    | split
    | dsimp only

@[simp] theorem keeps_arpl (dst : Rm) (src : Reg) : M.Keeps (arpl dst src) := by
  unfold arpl
  repeat' first
    | with_reducible intro _
    | (with_reducible first | refine keeps_bind ?_ ?_ | refine keeps_ite ?_ ?_ | refine keeps_map ?_)
    | assumption
    | (simp [*]; done)
    | exact keeps_modify fun _ => .of_eq rfl rfl rfl rfl rfl rfl rfl rfl rfl rfl rfl rfl
    | exact keeps_readRm _ _
    | exact keeps_locRead _ _
    | exact keeps_modifyRegA _ _
    | (apply keeps_modifyFpuEq; intro; simp; done)
    | (apply keeps_modifyFpu; intro _ h; simp [h]; done)
    | split
    | dsimp only

/-! ## Strings -/

@[simp] theorem keeps_repeated (isCmp : Bool) (body : M Unit) (h0 : M.Keeps body) :
    M.Keeps (repeated isCmp body) := by
  unfold repeated
  repeat' first
    | with_reducible intro _
    | (with_reducible first | refine keeps_bind ?_ ?_ | refine keeps_ite ?_ ?_ | refine keeps_map ?_)
    | assumption
    | (simp [*]; done)
    | exact keeps_modify fun _ => .of_eq rfl rfl rfl rfl rfl rfl rfl rfl rfl rfl rfl rfl
    | exact keeps_readRm _ _
    | exact keeps_locRead _ _
    | exact keeps_modifyRegA _ _
    | (apply keeps_modifyFpuEq; intro; simp; done)
    | (apply keeps_modifyFpu; intro _ h; simp [h]; done)
    | split
    | dsimp only

@[simp] theorem keeps_advance (r : Reg) (n : Nat) : M.Keeps (advance r n) := by
  unfold advance
  repeat' first
    | with_reducible intro _
    | (with_reducible first | refine keeps_bind ?_ ?_ | refine keeps_ite ?_ ?_ | refine keeps_map ?_)
    | assumption
    | (simp [*]; done)
    | exact keeps_modify fun _ => .of_eq rfl rfl rfl rfl rfl rfl rfl rfl rfl rfl rfl rfl
    | exact keeps_readRm _ _
    | exact keeps_locRead _ _
    | exact keeps_modifyRegA _ _
    | (apply keeps_modifyFpuEq; intro; simp; done)
    | (apply keeps_modifyFpu; intro _ h; simp [h]; done)
    | split
    | dsimp only

@[simp] theorem keeps_readSi (sz : Sz) : M.Keeps (readSi sz) := by
  unfold readSi
  repeat' first
    | with_reducible intro _
    | (with_reducible first | refine keeps_bind ?_ ?_ | refine keeps_ite ?_ ?_ | refine keeps_map ?_)
    | assumption
    | (simp [*]; done)
    | exact keeps_modify fun _ => .of_eq rfl rfl rfl rfl rfl rfl rfl rfl rfl rfl rfl rfl
    | exact keeps_readRm _ _
    | exact keeps_locRead _ _
    | exact keeps_modifyRegA _ _
    | (apply keeps_modifyFpuEq; intro; simp; done)
    | (apply keeps_modifyFpu; intro _ h; simp [h]; done)
    | split
    | dsimp only

@[simp] theorem keeps_readDi (sz : Sz) : M.Keeps (readDi sz) := by
  unfold readDi
  repeat' first
    | with_reducible intro _
    | (with_reducible first | refine keeps_bind ?_ ?_ | refine keeps_ite ?_ ?_ | refine keeps_map ?_)
    | assumption
    | (simp [*]; done)
    | exact keeps_modify fun _ => .of_eq rfl rfl rfl rfl rfl rfl rfl rfl rfl rfl rfl rfl
    | exact keeps_readRm _ _
    | exact keeps_locRead _ _
    | exact keeps_modifyRegA _ _
    | (apply keeps_modifyFpuEq; intro; simp; done)
    | (apply keeps_modifyFpu; intro _ h; simp [h]; done)
    | split
    | dsimp only

@[simp] theorem keeps_writeDi (sz : Sz) (v : BitVec sz.bits) : M.Keeps (writeDi sz v) := by
  unfold writeDi
  repeat' first
    | with_reducible intro _
    | (with_reducible first | refine keeps_bind ?_ ?_ | refine keeps_ite ?_ ?_ | refine keeps_map ?_)
    | assumption
    | (simp [*]; done)
    | exact keeps_modify fun _ => .of_eq rfl rfl rfl rfl rfl rfl rfl rfl rfl rfl rfl rfl
    | exact keeps_readRm _ _
    | exact keeps_locRead _ _
    | exact keeps_modifyRegA _ _
    | (apply keeps_modifyFpuEq; intro; simp; done)
    | (apply keeps_modifyFpu; intro _ h; simp [h]; done)
    | split
    | dsimp only

@[simp] theorem keeps_movs (sz : Sz) : M.Keeps (movs sz) := by
  unfold movs
  repeat' first
    | with_reducible intro _
    | (with_reducible first | refine keeps_bind ?_ ?_ | refine keeps_ite ?_ ?_ | refine keeps_map ?_)
    | assumption
    | (simp [*]; done)
    | exact keeps_modify fun _ => .of_eq rfl rfl rfl rfl rfl rfl rfl rfl rfl rfl rfl rfl
    | exact keeps_readRm _ _
    | exact keeps_locRead _ _
    | exact keeps_modifyRegA _ _
    | (apply keeps_modifyFpuEq; intro; simp; done)
    | (apply keeps_modifyFpu; intro _ h; simp [h]; done)
    | split
    | dsimp only

@[simp] theorem keeps_cmps (sz : Sz) : M.Keeps (cmps sz) := by
  unfold cmps
  repeat' first
    | with_reducible intro _
    | (with_reducible first | refine keeps_bind ?_ ?_ | refine keeps_ite ?_ ?_ | refine keeps_map ?_)
    | assumption
    | (simp [*]; done)
    | exact keeps_modify fun _ => .of_eq rfl rfl rfl rfl rfl rfl rfl rfl rfl rfl rfl rfl
    | exact keeps_readRm _ _
    | exact keeps_locRead _ _
    | exact keeps_modifyRegA _ _
    | (apply keeps_modifyFpuEq; intro; simp; done)
    | (apply keeps_modifyFpu; intro _ h; simp [h]; done)
    | split
    | dsimp only

@[simp] theorem keeps_scas (sz : Sz) : M.Keeps (scas sz) := by
  unfold scas
  repeat' first
    | with_reducible intro _
    | (with_reducible first | refine keeps_bind ?_ ?_ | refine keeps_ite ?_ ?_ | refine keeps_map ?_)
    | assumption
    | (simp [*]; done)
    | exact keeps_modify fun _ => .of_eq rfl rfl rfl rfl rfl rfl rfl rfl rfl rfl rfl rfl
    | exact keeps_readRm _ _
    | exact keeps_locRead _ _
    | exact keeps_modifyRegA _ _
    | (apply keeps_modifyFpuEq; intro; simp; done)
    | (apply keeps_modifyFpu; intro _ h; simp [h]; done)
    | split
    | dsimp only

@[simp] theorem keeps_lods (sz : Sz) : M.Keeps (lods sz) := by
  unfold lods
  repeat' first
    | with_reducible intro _
    | (with_reducible first | refine keeps_bind ?_ ?_ | refine keeps_ite ?_ ?_ | refine keeps_map ?_)
    | assumption
    | (simp [*]; done)
    | exact keeps_modify fun _ => .of_eq rfl rfl rfl rfl rfl rfl rfl rfl rfl rfl rfl rfl
    | exact keeps_readRm _ _
    | exact keeps_locRead _ _
    | exact keeps_modifyRegA _ _
    | (apply keeps_modifyFpuEq; intro; simp; done)
    | (apply keeps_modifyFpu; intro _ h; simp [h]; done)
    | split
    | dsimp only

@[simp] theorem keeps_stos (sz : Sz) : M.Keeps (stos sz) := by
  unfold stos
  repeat' first
    | with_reducible intro _
    | (with_reducible first | refine keeps_bind ?_ ?_ | refine keeps_ite ?_ ?_ | refine keeps_map ?_)
    | assumption
    | (simp [*]; done)
    | exact keeps_modify fun _ => .of_eq rfl rfl rfl rfl rfl rfl rfl rfl rfl rfl rfl rfl
    | exact keeps_readRm _ _
    | exact keeps_locRead _ _
    | exact keeps_modifyRegA _ _
    | (apply keeps_modifyFpuEq; intro; simp; done)
    | (apply keeps_modifyFpu; intro _ h; simp [h]; done)
    | split
    | dsimp only

@[simp] theorem keeps_ioRead (port : Word) (sz : Sz) : M.Keeps (ioRead port sz) := by
  unfold ioRead
  repeat' first
    | with_reducible intro _
    | (with_reducible first | refine keeps_bind ?_ ?_ | refine keeps_ite ?_ ?_ | refine keeps_map ?_)
    | assumption
    | (simp [*]; done)
    | exact keeps_modify fun _ => .of_eq rfl rfl rfl rfl rfl rfl rfl rfl rfl rfl rfl rfl
    | exact keeps_readRm _ _
    | exact keeps_locRead _ _
    | exact keeps_modifyRegA _ _
    | (apply keeps_modifyFpuEq; intro; simp; done)
    | (apply keeps_modifyFpu; intro _ h; simp [h]; done)
    | split
    | dsimp only

@[simp] theorem keeps_ioWrite (port : Word) (sz : Sz) (v : BitVec sz.bits) : M.Keeps (ioWrite port sz v) := by
  unfold ioWrite
  repeat' first
    | with_reducible intro _
    | (with_reducible first | refine keeps_bind ?_ ?_ | refine keeps_ite ?_ ?_ | refine keeps_map ?_)
    | assumption
    | (simp [*]; done)
    | exact keeps_modify fun _ => .of_eq rfl rfl rfl rfl rfl rfl rfl rfl rfl rfl rfl rfl
    | exact keeps_readRm _ _
    | exact keeps_locRead _ _
    | exact keeps_modifyRegA _ _
    | (apply keeps_modifyFpuEq; intro; simp; done)
    | (apply keeps_modifyFpu; intro _ h; simp [h]; done)
    | split
    | dsimp only

@[simp] theorem keeps_input (sz : Sz) (p : Port) : M.Keeps (input sz p) := by
  unfold input
  repeat' first
    | with_reducible intro _
    | (with_reducible first | refine keeps_bind ?_ ?_ | refine keeps_ite ?_ ?_ | refine keeps_map ?_)
    | assumption
    | (simp [*]; done)
    | exact keeps_modify fun _ => .of_eq rfl rfl rfl rfl rfl rfl rfl rfl rfl rfl rfl rfl
    | exact keeps_readRm _ _
    | exact keeps_locRead _ _
    | exact keeps_modifyRegA _ _
    | (apply keeps_modifyFpuEq; intro; simp; done)
    | (apply keeps_modifyFpu; intro _ h; simp [h]; done)
    | split
    | dsimp only

@[simp] theorem keeps_output (sz : Sz) (p : Port) : M.Keeps (output sz p) := by
  unfold output
  repeat' first
    | with_reducible intro _
    | (with_reducible first | refine keeps_bind ?_ ?_ | refine keeps_ite ?_ ?_ | refine keeps_map ?_)
    | assumption
    | (simp [*]; done)
    | exact keeps_modify fun _ => .of_eq rfl rfl rfl rfl rfl rfl rfl rfl rfl rfl rfl rfl
    | exact keeps_readRm _ _
    | exact keeps_locRead _ _
    | exact keeps_modifyRegA _ _
    | (apply keeps_modifyFpuEq; intro; simp; done)
    | (apply keeps_modifyFpu; intro _ h; simp [h]; done)
    | split
    | dsimp only

@[simp] theorem keeps_ins (sz : Sz) : M.Keeps (ins sz) := by
  unfold ins
  repeat' first
    | with_reducible intro _
    | (with_reducible first | refine keeps_bind ?_ ?_ | refine keeps_ite ?_ ?_ | refine keeps_map ?_)
    | assumption
    | (simp [*]; done)
    | exact keeps_modify fun _ => .of_eq rfl rfl rfl rfl rfl rfl rfl rfl rfl rfl rfl rfl
    | exact keeps_readRm _ _
    | exact keeps_locRead _ _
    | exact keeps_modifyRegA _ _
    | (apply keeps_modifyFpuEq; intro; simp; done)
    | (apply keeps_modifyFpu; intro _ h; simp [h]; done)
    | split
    | dsimp only

@[simp] theorem keeps_outs (sz : Sz) : M.Keeps (outs sz) := by
  unfold outs
  repeat' first
    | with_reducible intro _
    | (with_reducible first | refine keeps_bind ?_ ?_ | refine keeps_ite ?_ ?_ | refine keeps_map ?_)
    | assumption
    | (simp [*]; done)
    | exact keeps_modify fun _ => .of_eq rfl rfl rfl rfl rfl rfl rfl rfl rfl rfl rfl rfl
    | exact keeps_readRm _ _
    | exact keeps_locRead _ _
    | exact keeps_modifyRegA _ _
    | (apply keeps_modifyFpuEq; intro; simp; done)
    | (apply keeps_modifyFpu; intro _ h; simp [h]; done)
    | split
    | dsimp only

/-! ## Fpu -/

@[simp] theorem keeps_getSt (i : Nat) : M.Keeps (getSt i) := by
  unfold getSt
  repeat' first
    | with_reducible intro _
    | (with_reducible first | refine keeps_bind ?_ ?_ | refine keeps_ite ?_ ?_ | refine keeps_map ?_)
    | assumption
    | (simp [*]; done)
    | exact keeps_modify fun _ => .of_eq rfl rfl rfl rfl rfl rfl rfl rfl rfl rfl rfl rfl
    | exact keeps_readRm _ _
    | exact keeps_locRead _ _
    | exact keeps_modifyRegA _ _
    | (apply keeps_modifyFpuEq; intro; simp; done)
    | (apply keeps_modifyFpu; intro _ h; simp [h]; done)
    | split
    | dsimp only

@[simp] theorem keeps_setSt (i : Nat) (v : Ext) : M.Keeps (setSt i v) := by
  unfold setSt
  repeat' first
    | with_reducible intro _
    | (with_reducible first | refine keeps_bind ?_ ?_ | refine keeps_ite ?_ ?_ | refine keeps_map ?_)
    | assumption
    | (simp [*]; done)
    | exact keeps_modify fun _ => .of_eq rfl rfl rfl rfl rfl rfl rfl rfl rfl rfl rfl rfl
    | exact keeps_readRm _ _
    | exact keeps_locRead _ _
    | exact keeps_modifyRegA _ _
    | (apply keeps_modifyFpuEq; intro; simp; done)
    | (apply keeps_modifyFpu; intro _ h; simp [h]; done)
    | split
    | dsimp only

@[simp] theorem keeps_popIf (p : Bool) : M.Keeps (popIf p) := by
  unfold popIf
  repeat' first
    | with_reducible intro _
    | (with_reducible first | refine keeps_bind ?_ ?_ | refine keeps_ite ?_ ?_ | refine keeps_map ?_)
    | assumption
    | (simp [*]; done)
    | exact keeps_modify fun _ => .of_eq rfl rfl rfl rfl rfl rfl rfl rfl rfl rfl rfl rfl
    | exact keeps_readRm _ _
    | exact keeps_locRead _ _
    | exact keeps_modifyRegA _ _
    | (apply keeps_modifyFpuEq; intro; simp; done)
    | (apply keeps_modifyFpu; intro _ h; simp [h]; done)
    | split
    | dsimp only

@[simp] theorem keeps_setC1 (b : Bool) : M.Keeps (setC1 b) := by
  unfold setC1
  repeat' first
    | with_reducible intro _
    | (with_reducible first | refine keeps_bind ?_ ?_ | refine keeps_ite ?_ ?_ | refine keeps_map ?_)
    | assumption
    | (simp [*]; done)
    | exact keeps_modify fun _ => .of_eq rfl rfl rfl rfl rfl rfl rfl rfl rfl rfl rfl rfl
    | exact keeps_readRm _ _
    | exact keeps_locRead _ _
    | exact keeps_modifyRegA _ _
    | (apply keeps_modifyFpuEq; intro; simp; done)
    | (apply keeps_modifyFpu; intro _ h; simp [h]; done)
    | split
    | dsimp only

@[simp] theorem keeps_setC2 (b : Bool) : M.Keeps (setC2 b) := by
  unfold setC2
  repeat' first
    | with_reducible intro _
    | (with_reducible first | refine keeps_bind ?_ ?_ | refine keeps_ite ?_ ?_ | refine keeps_map ?_)
    | assumption
    | (simp [*]; done)
    | exact keeps_modify fun _ => .of_eq rfl rfl rfl rfl rfl rfl rfl rfl rfl rfl rfl rfl
    | exact keeps_readRm _ _
    | exact keeps_locRead _ _
    | exact keeps_modifyRegA _ _
    | (apply keeps_modifyFpuEq; intro; simp; done)
    | (apply keeps_modifyFpu; intro _ h; simp [h]; done)
    | split
    | dsimp only

@[simp] theorem keeps_freeC023 : M.Keeps freeC023 := by
  unfold freeC023
  repeat' first
    | with_reducible intro _
    | (with_reducible first | refine keeps_bind ?_ ?_ | refine keeps_ite ?_ ?_ | refine keeps_map ?_)
    | assumption
    | (simp [*]; done)
    | exact keeps_modify fun _ => .of_eq rfl rfl rfl rfl rfl rfl rfl rfl rfl rfl rfl rfl
    | exact keeps_readRm _ _
    | exact keeps_locRead _ _
    | exact keeps_modifyRegA _ _
    | (apply keeps_modifyFpuEq; intro; simp; done)
    | (apply keeps_modifyFpu; intro _ h; simp [h]; done)
    | split
    | dsimp only

@[simp] theorem keeps_freeC0123 : M.Keeps freeC0123 := by
  unfold freeC0123
  repeat' first
    | with_reducible intro _
    | (with_reducible first | refine keeps_bind ?_ ?_ | refine keeps_ite ?_ ?_ | refine keeps_map ?_)
    | assumption
    | (simp [*]; done)
    | exact keeps_modify fun _ => .of_eq rfl rfl rfl rfl rfl rfl rfl rfl rfl rfl rfl rfl
    | exact keeps_readRm _ _
    | exact keeps_locRead _ _
    | exact keeps_modifyRegA _ _
    | (apply keeps_modifyFpuEq; intro; simp; done)
    | (apply keeps_modifyFpu; intro _ h; simp [h]; done)
    | split
    | dsimp only

@[simp] theorem keeps_setC320 (c3 c2 c0 : Bool) : M.Keeps (setC320 c3 c2 c0) := by
  unfold setC320
  repeat' first
    | with_reducible intro _
    | (with_reducible first | refine keeps_bind ?_ ?_ | refine keeps_ite ?_ ?_ | refine keeps_map ?_)
    | assumption
    | (simp [*]; done)
    | exact keeps_modify fun _ => .of_eq rfl rfl rfl rfl rfl rfl rfl rfl rfl rfl rfl rfl
    | exact keeps_readRm _ _
    | exact keeps_locRead _ _
    | exact keeps_modifyRegA _ _
    | (apply keeps_modifyFpuEq; intro; simp; done)
    | (apply keeps_modifyFpu; intro _ h; simp [h]; done)
    | split
    | dsimp only

@[simp] theorem keeps_precision : M.Keeps precision := by
  unfold precision
  repeat' first
    | with_reducible intro _
    | (with_reducible first | refine keeps_bind ?_ ?_ | refine keeps_ite ?_ ?_ | refine keeps_map ?_)
    | assumption
    | (simp [*]; done)
    | exact keeps_modify fun _ => .of_eq rfl rfl rfl rfl rfl rfl rfl rfl rfl rfl rfl rfl
    | exact keeps_readRm _ _
    | exact keeps_locRead _ _
    | exact keeps_modifyRegA _ _
    | (apply keeps_modifyFpuEq; intro; simp; done)
    | (apply keeps_modifyFpu; intro _ h; simp [h]; done)
    | split
    | dsimp only

@[simp] theorem keeps_fpException (x : FpExc) : M.Keeps (fpException x) := by
  unfold fpException
  repeat' first
    | with_reducible intro _
    | (with_reducible first | refine keeps_bind ?_ ?_ | refine keeps_ite ?_ ?_ | refine keeps_map ?_)
    | assumption
    | (simp [*]; done)
    | exact keeps_modify fun _ => .of_eq rfl rfl rfl rfl rfl rfl rfl rfl rfl rfl rfl rfl
    | exact keeps_readRm _ _
    | exact keeps_locRead _ _
    | exact keeps_modifyRegA _ _
    | (apply keeps_modifyFpuEq; intro; simp; done)
    | (apply keeps_modifyFpu; intro _ h; simp [h]; done)
    | split
    | dsimp only

@[simp] theorem keeps_fpExceptionIf (c : Bool) (x : FpExc) : M.Keeps (fpExceptionIf c x) := by
  unfold fpExceptionIf
  repeat' first
    | with_reducible intro _
    | (with_reducible first | refine keeps_bind ?_ ?_ | refine keeps_ite ?_ ?_ | refine keeps_map ?_)
    | assumption
    | (simp [*]; done)
    | exact keeps_modify fun _ => .of_eq rfl rfl rfl rfl rfl rfl rfl rfl rfl rfl rfl rfl
    | exact keeps_readRm _ _
    | exact keeps_locRead _ _
    | exact keeps_modifyRegA _ _
    | (apply keeps_modifyFpuEq; intro; simp; done)
    | (apply keeps_modifyFpu; intro _ h; simp [h]; done)
    | split
    | dsimp only

@[simp] theorem keeps_stackFault (overflow : Bool) : M.Keeps (stackFault overflow) := by
  unfold stackFault
  repeat' first
    | with_reducible intro _
    | (with_reducible first | refine keeps_bind ?_ ?_ | refine keeps_ite ?_ ?_ | refine keeps_map ?_)
    | assumption
    | (simp [*]; done)
    | exact keeps_modify fun _ => .of_eq rfl rfl rfl rfl rfl rfl rfl rfl rfl rfl rfl rfl
    | exact keeps_readRm _ _
    | exact keeps_locRead _ _
    | exact keeps_modifyRegA _ _
    | (apply keeps_modifyFpuEq; intro; simp; done)
    | (apply keeps_modifyFpu; intro _ h; simp [h]; done)
    | split
    | dsimp only

@[simp] theorem keeps_anyEmpty (is : List Nat) : M.Keeps (anyEmpty is) := by
  unfold anyEmpty
  repeat' first
    | with_reducible intro _
    | (with_reducible first | refine keeps_bind ?_ ?_ | refine keeps_ite ?_ ?_ | refine keeps_map ?_)
    | assumption
    | (simp [*]; done)
    | exact keeps_modify fun _ => .of_eq rfl rfl rfl rfl rfl rfl rfl rfl rfl rfl rfl rfl
    | exact keeps_readRm _ _
    | exact keeps_locRead _ _
    | exact keeps_modifyRegA _ _
    | (apply keeps_modifyFpuEq; intro; simp; done)
    | (apply keeps_modifyFpu; intro _ h; simp [h]; done)
    | split
    | dsimp only

@[simp] theorem keeps_fpuPush (v : Ext) : M.Keeps (fpuPush v) := by
  unfold fpuPush
  repeat' first
    | with_reducible intro _
    | (with_reducible first | refine keeps_bind ?_ ?_ | refine keeps_ite ?_ ?_ | refine keeps_map ?_)
    | assumption
    | (simp [*]; done)
    | exact keeps_modify fun _ => .of_eq rfl rfl rfl rfl rfl rfl rfl rfl rfl rfl rfl rfl
    | exact keeps_readRm _ _
    | exact keeps_locRead _ _
    | exact keeps_modifyRegA _ _
    | (apply keeps_modifyFpuEq; intro; simp; done)
    | (apply keeps_modifyFpu; intro _ h; simp [h]; done)
    | split
    | dsimp only

@[simp] theorem keeps_pendingCheck : M.Keeps pendingCheck := by
  unfold pendingCheck
  repeat' first
    | with_reducible intro _
    | (with_reducible first | refine keeps_bind ?_ ?_ | refine keeps_ite ?_ ?_ | refine keeps_map ?_)
    | assumption
    | (simp [*]; done)
    | exact keeps_modify fun _ => .of_eq rfl rfl rfl rfl rfl rfl rfl rfl rfl rfl rfl rfl
    | exact keeps_readRm _ _
    | exact keeps_locRead _ _
    | exact keeps_modifyRegA _ _
    | (apply keeps_modifyFpuEq; intro; simp; done)
    | (apply keeps_modifyFpu; intro _ h; simp [h]; done)
    | split
    | dsimp only

@[simp] theorem keeps_fpuEntry (waiting : Bool) : M.Keeps (fpuEntry waiting) := by
  unfold fpuEntry
  repeat' first
    | with_reducible intro _
    | (with_reducible first | refine keeps_bind ?_ ?_ | refine keeps_ite ?_ ?_ | refine keeps_map ?_)
    | assumption
    | (simp [*]; done)
    | exact keeps_modify fun _ => .of_eq rfl rfl rfl rfl rfl rfl rfl rfl rfl rfl rfl rfl
    | exact keeps_readRm _ _
    | exact keeps_locRead _ _
    | exact keeps_modifyRegA _ _
    | (apply keeps_modifyFpuEq; intro; simp; done)
    | (apply keeps_modifyFpu; intro _ h; simp [h]; done)
    | split
    | dsimp only

@[simp] theorem keeps_fpuPointers (m : Option Ea) : M.Keeps (fpuPointers m) := by
  unfold fpuPointers
  repeat' first
    | with_reducible intro _
    | (with_reducible first | refine keeps_bind ?_ ?_ | refine keeps_ite ?_ ?_ | refine keeps_map ?_)
    | assumption
    | (simp [*]; done)
    | exact keeps_modify fun _ => .of_eq rfl rfl rfl rfl rfl rfl rfl rfl rfl rfl rfl rfl
    | exact keeps_readRm _ _
    | exact keeps_locRead _ _
    | exact keeps_modifyRegA _ _
    | (apply keeps_modifyFpuEq; intro; simp; done)
    | (apply keeps_modifyFpu; intro _ h; simp [h]; done)
    | split
    | dsimp only

@[simp] theorem keeps_fpuInstr (m : Option Ea) (body : M Unit) (h0 : M.Keeps body) : M.Keeps (fpuInstr m body) := by
  unfold fpuInstr
  repeat' first
    | with_reducible intro _
    | (with_reducible first | refine keeps_bind ?_ ?_ | refine keeps_ite ?_ ?_ | refine keeps_map ?_)
    | assumption
    | (simp [*]; done)
    | exact keeps_modify fun _ => .of_eq rfl rfl rfl rfl rfl rfl rfl rfl rfl rfl rfl rfl
    | exact keeps_readRm _ _
    | exact keeps_locRead _ _
    | exact keeps_modifyRegA _ _
    | (apply keeps_modifyFpuEq; intro; simp; done)
    | (apply keeps_modifyFpu; intro _ h; simp [h]; done)
    | split
    | dsimp only

@[simp] theorem keeps_readReal (fmt : RealFmt) (a : Ea) : M.Keeps (readReal fmt a) := by
  unfold readReal
  repeat' first
    | with_reducible intro _
    | (with_reducible first | refine keeps_bind ?_ ?_ | refine keeps_ite ?_ ?_ | refine keeps_map ?_)
    | assumption
    | (simp [*]; done)
    | exact keeps_modify fun _ => .of_eq rfl rfl rfl rfl rfl rfl rfl rfl rfl rfl rfl rfl
    | exact keeps_readRm _ _
    | exact keeps_locRead _ _
    | exact keeps_modifyRegA _ _
    | (apply keeps_modifyFpuEq; intro; simp; done)
    | (apply keeps_modifyFpu; intro _ h; simp [h]; done)
    | split
    | dsimp only

@[simp] theorem keeps_readInt (a : Ea) (n : Nat) : M.Keeps (readInt a n) := by
  unfold readInt
  repeat' first
    | with_reducible intro _
    | (with_reducible first | refine keeps_bind ?_ ?_ | refine keeps_ite ?_ ?_ | refine keeps_map ?_)
    | assumption
    | (simp [*]; done)
    | exact keeps_modify fun _ => .of_eq rfl rfl rfl rfl rfl rfl rfl rfl rfl rfl rfl rfl
    | exact keeps_readRm _ _
    | exact keeps_locRead _ _
    | exact keeps_modifyRegA _ _
    | (apply keeps_modifyFpuEq; intro; simp; done)
    | (apply keeps_modifyFpu; intro _ h; simp [h]; done)
    | split
    | dsimp only

@[simp] theorem keeps_nanResult (x y : Ext) : M.Keeps (nanResult x y) := by
  unfold nanResult
  repeat' first
    | with_reducible intro _
    | (with_reducible first | refine keeps_bind ?_ ?_ | refine keeps_ite ?_ ?_ | refine keeps_map ?_)
    | assumption
    | (simp [*]; done)
    | exact keeps_modify fun _ => .of_eq rfl rfl rfl rfl rfl rfl rfl rfl rfl rfl rfl rfl
    | exact keeps_readRm _ _
    | exact keeps_locRead _ _
    | exact keeps_modifyRegA _ _
    | (apply keeps_modifyFpuEq; intro; simp; done)
    | (apply keeps_modifyFpu; intro _ h; simp [h]; done)
    | split
    | dsimp only

@[simp] theorem keeps_invalidOp (v : Ext) : M.Keeps (invalidOp v) := by
  unfold invalidOp
  repeat' first
    | with_reducible intro _
    | (with_reducible first | refine keeps_bind ?_ ?_ | refine keeps_ite ?_ ?_ | refine keeps_map ?_)
    | assumption
    | (simp [*]; done)
    | exact keeps_modify fun _ => .of_eq rfl rfl rfl rfl rfl rfl rfl rfl rfl rfl rfl rfl
    | exact keeps_readRm _ _
    | exact keeps_locRead _ _
    | exact keeps_modifyRegA _ _
    | (apply keeps_modifyFpuEq; intro; simp; done)
    | (apply keeps_modifyFpu; intro _ h; simp [h]; done)
    | split
    | dsimp only

@[simp] theorem keeps_nanCheck (x y : Ext) : M.Keeps (nanCheck x y) := by
  unfold nanCheck
  repeat' first
    | with_reducible intro _
    | (with_reducible first | refine keeps_bind ?_ ?_ | refine keeps_ite ?_ ?_ | refine keeps_map ?_)
    | assumption
    | (simp [*]; done)
    | exact keeps_modify fun _ => .of_eq rfl rfl rfl rfl rfl rfl rfl rfl rfl rfl rfl rfl
    | exact keeps_readRm _ _
    | exact keeps_locRead _ _
    | exact keeps_modifyRegA _ _
    | (apply keeps_modifyFpuEq; intro; simp; done)
    | (apply keeps_modifyFpu; intro _ h; simp [h]; done)
    | split
    | dsimp only

@[simp] theorem keeps_denormalCheck (c : Bool) : M.Keeps (denormalCheck c) := by
  unfold denormalCheck
  repeat' first
    | with_reducible intro _
    | (with_reducible first | refine keeps_bind ?_ ?_ | refine keeps_ite ?_ ?_ | refine keeps_map ?_)
    | assumption
    | (simp [*]; done)
    | exact keeps_modify fun _ => .of_eq rfl rfl rfl rfl rfl rfl rfl rfl rfl rfl rfl rfl
    | exact keeps_readRm _ _
    | exact keeps_locRead _ _
    | exact keeps_modifyRegA _ _
    | (apply keeps_modifyFpuEq; intro; simp; done)
    | (apply keeps_modifyFpu; intro _ h; simp [h]; done)
    | split
    | dsimp only

@[simp] theorem keeps_commitRes (r : FRes) : M.Keeps (commitRes r) := by
  unfold commitRes
  repeat' first
    | with_reducible intro _
    | (with_reducible first | refine keeps_bind ?_ ?_ | refine keeps_ite ?_ ?_ | refine keeps_map ?_)
    | assumption
    | (simp [*]; done)
    | exact keeps_modify fun _ => .of_eq rfl rfl rfl rfl rfl rfl rfl rfl rfl rfl rfl rfl
    | exact keeps_readRm _ _
    | exact keeps_locRead _ _
    | exact keeps_modifyRegA _ _
    | (apply keeps_modifyFpuEq; intro; simp; done)
    | (apply keeps_modifyFpu; intro _ h; simp [h]; done)
    | split
    | dsimp only

@[simp] theorem keeps_roundExt (n : FpNum) (prec : Nat) : M.Keeps (roundExt n prec) := by
  unfold roundExt
  repeat' first
    | with_reducible intro _
    | (with_reducible first | refine keeps_bind ?_ ?_ | refine keeps_ite ?_ ?_ | refine keeps_map ?_)
    | assumption
    | (simp [*]; done)
    | exact keeps_modify fun _ => .of_eq rfl rfl rfl rfl rfl rfl rfl rfl rfl rfl rfl rfl
    | exact keeps_readRm _ _
    | exact keeps_locRead _ _
    | exact keeps_modifyRegA _ _
    | (apply keeps_modifyFpuEq; intro; simp; done)
    | (apply keeps_modifyFpu; intro _ h; simp [h]; done)
    | split
    | dsimp only

@[simp] theorem keeps_storeSt (i : Nat) (pop : Bool) (v : Option Ext) : M.Keeps (storeSt i pop v) := by
  cases v
  · exact keeps_pure _
  · exact keeps_bind (keeps_setSt _ _) fun _ => keeps_popIf _

@[simp] theorem keeps_stBody (needs : List Nat) (dst : Nat) (pop : Bool) (body : M (Option Ext)) (h0 : M.Keeps body) :
    M.Keeps (stBody needs dst pop body) := by
  unfold stBody
  repeat' first
    | with_reducible intro _
    | (with_reducible first | refine keeps_bind ?_ ?_ | refine keeps_ite ?_ ?_ | refine keeps_map ?_)
    | assumption
    | (simp [*]; done)
    | exact keeps_modify fun _ => .of_eq rfl rfl rfl rfl rfl rfl rfl rfl rfl rfl rfl rfl
    | exact keeps_readRm _ _
    | exact keeps_locRead _ _
    | exact keeps_modifyRegA _ _
    | (apply keeps_modifyFpuEq; intro; simp; done)
    | (apply keeps_modifyFpu; intro _ h; simp [h]; done)
    | split
    | dsimp only

@[simp] theorem keeps_stOp (needs : List Nat) (dst : Nat) (pop : Bool) (body : M (Option Ext)) (h0 : M.Keeps body) :
    M.Keeps (stOp needs dst pop body) := keeps_bind keeps_freeC023 fun _ => keeps_stBody _ _ _ _ h0

@[simp] theorem keeps_arith2 (op : FOp) (x y : Src) : M.Keeps (arith2 op x y) := by
  unfold arith2
  repeat' first
    | with_reducible intro _
    | (with_reducible first | refine keeps_bind ?_ ?_ | refine keeps_ite ?_ ?_ | refine keeps_map ?_)
    | assumption
    | (simp [*]; done)
    | exact keeps_modify fun _ => .of_eq rfl rfl rfl rfl rfl rfl rfl rfl rfl rfl rfl rfl
    | exact keeps_readRm _ _
    | exact keeps_locRead _ _
    | exact keeps_modifyRegA _ _
    | (apply keeps_modifyFpuEq; intro; simp; done)
    | (apply keeps_modifyFpu; intro _ h; simp [h]; done)
    | split
    | dsimp only

@[simp] theorem keeps_arithTo (op : FOp) (rev : Bool) (dst : Nat) (src : Src) :
    M.Keeps (arithTo op rev dst src) := by
  unfold arithTo
  repeat' first
    | with_reducible intro _
    | (with_reducible first | refine keeps_bind ?_ ?_ | refine keeps_ite ?_ ?_ | refine keeps_map ?_)
    | assumption
    | (simp [*]; done)
    | exact keeps_modify fun _ => .of_eq rfl rfl rfl rfl rfl rfl rfl rfl rfl rfl rfl rfl
    | exact keeps_readRm _ _
    | exact keeps_locRead _ _
    | exact keeps_modifyRegA _ _
    | (apply keeps_modifyFpuEq; intro; simp; done)
    | (apply keeps_modifyFpu; intro _ h; simp [h]; done)
    | split
    | dsimp only

@[simp] theorem keeps_fArithReg (op : FOp) (rev pop : Bool) (dst src : Nat) :
    M.Keeps (fArithReg op rev pop dst src) := by
  unfold fArithReg
  repeat' first
    | with_reducible intro _
    | (with_reducible first | refine keeps_bind ?_ ?_ | refine keeps_ite ?_ ?_ | refine keeps_map ?_)
    | (with_reducible first | refine keeps_fpuInstr _ _ ?_ | refine keeps_stOp _ _ _ _ ?_)
    | assumption
    | (simp [*]; done)
    | exact keeps_modify fun _ => .of_eq rfl rfl rfl rfl rfl rfl rfl rfl rfl rfl rfl rfl
    | exact keeps_readRm _ _
    | exact keeps_locRead _ _
    | exact keeps_modifyRegA _ _
    | (apply keeps_modifyFpuEq; intro; simp; done)
    | (apply keeps_modifyFpu; intro _ h; simp [h]; done)
    | split
    | dsimp only

@[simp] theorem keeps_fArithMem (op : FOp) (rev : Bool) (a : Ea) (src : M Src) (h0 : M.Keeps src) :
    M.Keeps (fArithMem op rev a src) := by
  unfold fArithMem
  repeat' first
    | with_reducible intro _
    | (with_reducible first | refine keeps_bind ?_ ?_ | refine keeps_ite ?_ ?_ | refine keeps_map ?_)
    | (with_reducible first | refine keeps_fpuInstr _ _ ?_ | refine keeps_stOp _ _ _ _ ?_)
    | assumption
    | (simp [*]; done)
    | exact keeps_modify fun _ => .of_eq rfl rfl rfl rfl rfl rfl rfl rfl rfl rfl rfl rfl
    | exact keeps_readRm _ _
    | exact keeps_locRead _ _
    | exact keeps_modifyRegA _ _
    | (apply keeps_modifyFpuEq; intro; simp; done)
    | (apply keeps_modifyFpu; intro _ h; simp [h]; done)
    | split
    | dsimp only

@[simp] theorem keeps_fArith (op : FOp) (rev : Bool) (f : FArith) : M.Keeps (fArith op rev f) := by
  unfold fArith
  repeat' first
    | with_reducible intro _
    | (with_reducible first | refine keeps_bind ?_ ?_ | refine keeps_ite ?_ ?_ | refine keeps_map ?_)
    | (with_reducible first | refine keeps_fArithMem _ _ _ _ ?_)
    | assumption
    | (simp [*]; done)
    | exact keeps_modify fun _ => .of_eq rfl rfl rfl rfl rfl rfl rfl rfl rfl rfl rfl rfl
    | exact keeps_readRm _ _
    | exact keeps_locRead _ _
    | exact keeps_modifyRegA _ _
    | (apply keeps_modifyFpuEq; intro; simp; done)
    | (apply keeps_modifyFpu; intro _ h; simp [h]; done)
    | split
    | dsimp only

@[simp] theorem keeps_fArithP (op : FOp) (rev : Bool) (i : Idx8) : M.Keeps (fArithP op rev i) := by
  unfold fArithP
  repeat' first
    | with_reducible intro _
    | (with_reducible first | refine keeps_bind ?_ ?_ | refine keeps_ite ?_ ?_ | refine keeps_map ?_)
    | assumption
    | (simp [*]; done)
    | exact keeps_modify fun _ => .of_eq rfl rfl rfl rfl rfl rfl rfl rfl rfl rfl rfl rfl
    | exact keeps_readRm _ _
    | exact keeps_locRead _ _
    | exact keeps_modifyRegA _ _
    | (apply keeps_modifyFpuEq; intro; simp; done)
    | (apply keeps_modifyFpu; intro _ h; simp [h]; done)
    | split
    | dsimp only

@[simp] theorem keeps_fArithInt (op : FOp) (rev : Bool) (f : FInt2) : M.Keeps (fArithInt op rev f) := by
  unfold fArithInt
  repeat' first
    | with_reducible intro _
    | (with_reducible first | refine keeps_bind ?_ ?_ | refine keeps_ite ?_ ?_ | refine keeps_map ?_)
    | (with_reducible first | refine keeps_fArithMem _ _ _ _ ?_)
    | assumption
    | (simp [*]; done)
    | exact keeps_modify fun _ => .of_eq rfl rfl rfl rfl rfl rfl rfl rfl rfl rfl rfl rfl
    | exact keeps_readRm _ _
    | exact keeps_locRead _ _
    | exact keeps_modifyRegA _ _
    | (apply keeps_modifyFpuEq; intro; simp; done)
    | (apply keeps_modifyFpu; intro _ h; simp [h]; done)
    | split
    | dsimp only

@[simp] theorem keeps_signOp (g : Bool → Bool) : M.Keeps (signOp g) := by
  unfold signOp
  repeat' first
    | with_reducible intro _
    | (with_reducible first | refine keeps_bind ?_ ?_ | refine keeps_ite ?_ ?_ | refine keeps_map ?_)
    | (with_reducible first | refine keeps_fpuInstr _ _ ?_ | refine keeps_stOp _ _ _ _ ?_)
    | assumption
    | (simp [*]; done)
    | exact keeps_modify fun _ => .of_eq rfl rfl rfl rfl rfl rfl rfl rfl rfl rfl rfl rfl
    | exact keeps_readRm _ _
    | exact keeps_locRead _ _
    | exact keeps_modifyRegA _ _
    | (apply keeps_modifyFpuEq; intro; simp; done)
    | (apply keeps_modifyFpu; intro _ h; simp [h]; done)
    | split
    | dsimp only

@[simp] theorem keeps_unaryOp (invalid : Ext → Bool) (body : Ext → M Ext) (h0 : ∀ x0, M.Keeps (body x0)) :
    M.Keeps (unaryOp invalid body) := by
  unfold unaryOp
  repeat' first
    | with_reducible intro _
    | (with_reducible first | refine keeps_bind ?_ ?_ | refine keeps_ite ?_ ?_ | refine keeps_map ?_)
    | (with_reducible first | refine keeps_fpuInstr _ _ ?_ | refine keeps_stOp _ _ _ _ ?_)
    | assumption
    | (simp [*]; done)
    | exact keeps_modify fun _ => .of_eq rfl rfl rfl rfl rfl rfl rfl rfl rfl rfl rfl rfl
    | exact keeps_readRm _ _
    | exact keeps_locRead _ _
    | exact keeps_modifyRegA _ _
    | (apply keeps_modifyFpuEq; intro; simp; done)
    | (apply keeps_modifyFpu; intro _ h; simp [h]; done)
    | split
    | dsimp only

@[simp] theorem keeps_fsqrt : M.Keeps fsqrt := by
  unfold fsqrt
  repeat' first
    | with_reducible intro _
    | (with_reducible first | refine keeps_bind ?_ ?_ | refine keeps_ite ?_ ?_ | refine keeps_map ?_)
    | (with_reducible first | refine keeps_unaryOp _ _ ?_)
    | assumption
    | (simp [*]; done)
    | exact keeps_modify fun _ => .of_eq rfl rfl rfl rfl rfl rfl rfl rfl rfl rfl rfl rfl
    | exact keeps_readRm _ _
    | exact keeps_locRead _ _
    | exact keeps_modifyRegA _ _
    | (apply keeps_modifyFpuEq; intro; simp; done)
    | (apply keeps_modifyFpu; intro _ h; simp [h]; done)
    | split
    | dsimp only

@[simp] theorem keeps_frndint : M.Keeps frndint := by
  unfold frndint
  repeat' first
    | with_reducible intro _
    | (with_reducible first | refine keeps_bind ?_ ?_ | refine keeps_ite ?_ ?_ | refine keeps_map ?_)
    | (with_reducible first | refine keeps_unaryOp _ _ ?_)
    | assumption
    | (simp [*]; done)
    | exact keeps_modify fun _ => .of_eq rfl rfl rfl rfl rfl rfl rfl rfl rfl rfl rfl rfl
    | exact keeps_readRm _ _
    | exact keeps_locRead _ _
    | exact keeps_modifyRegA _ _
    | (apply keeps_modifyFpuEq; intro; simp; done)
    | (apply keeps_modifyFpu; intro _ h; simp [h]; done)
    | split
    | dsimp only

@[simp] theorem keeps_fscaleValue (x y : Ext) : M.Keeps (fscaleValue x y) := by
  unfold fscaleValue
  repeat' first
    | with_reducible intro _
    | (with_reducible first | refine keeps_bind ?_ ?_ | refine keeps_ite ?_ ?_ | refine keeps_map ?_)
    | assumption
    | (simp [*]; done)
    | exact keeps_modify fun _ => .of_eq rfl rfl rfl rfl rfl rfl rfl rfl rfl rfl rfl rfl
    | exact keeps_readRm _ _
    | exact keeps_locRead _ _
    | exact keeps_modifyRegA _ _
    | (apply keeps_modifyFpuEq; intro; simp; done)
    | (apply keeps_modifyFpu; intro _ h; simp [h]; done)
    | split
    | dsimp only

@[simp] theorem keeps_binaryOp (dst : Nat) (pop : Bool) (body : Ext → Ext → M (Option Ext)) (h0 : ∀ x0 x1, M.Keeps (body x0 x1)) :
    M.Keeps (binaryOp dst pop body) := by
  unfold binaryOp
  repeat' first
    | with_reducible intro _
    | (with_reducible first | refine keeps_bind ?_ ?_ | refine keeps_ite ?_ ?_ | refine keeps_map ?_)
    | (with_reducible first | refine keeps_fpuInstr _ _ ?_ | refine keeps_stOp _ _ _ _ ?_)
    | assumption
    | (simp [*]; done)
    | exact keeps_modify fun _ => .of_eq rfl rfl rfl rfl rfl rfl rfl rfl rfl rfl rfl rfl
    | exact keeps_readRm _ _
    | exact keeps_locRead _ _
    | exact keeps_modifyRegA _ _
    | (apply keeps_modifyFpuEq; intro; simp; done)
    | (apply keeps_modifyFpu; intro _ h; simp [h]; done)
    | split
    | dsimp only

@[simp] theorem keeps_fpremN : M.Keeps fpremN := by
  unfold fpremN
  repeat' first
    | with_reducible intro _
    | (with_reducible first | refine keeps_bind ?_ ?_ | refine keeps_ite ?_ ?_ | refine keeps_map ?_)
    | assumption
    | (simp [*]; done)
    | exact keeps_modify fun _ => .of_eq rfl rfl rfl rfl rfl rfl rfl rfl rfl rfl rfl rfl
    | exact keeps_readRm _ _
    | exact keeps_locRead _ _
    | exact keeps_modifyRegA _ _
    | (apply keeps_modifyFpuEq; intro; simp; done)
    | (apply keeps_modifyFpu; intro _ h; simp [h]; done)
    | split
    | dsimp only

@[simp] theorem keeps_setQuotient (q : Nat) : M.Keeps (setQuotient q) := by
  unfold setQuotient
  repeat' first
    | with_reducible intro _
    | (with_reducible first | refine keeps_bind ?_ ?_ | refine keeps_ite ?_ ?_ | refine keeps_map ?_)
    | assumption
    | (simp [*]; done)
    | exact keeps_modify fun _ => .of_eq rfl rfl rfl rfl rfl rfl rfl rfl rfl rfl rfl rfl
    | exact keeps_readRm _ _
    | exact keeps_locRead _ _
    | exact keeps_modifyRegA _ _
    | (apply keeps_modifyFpuEq; intro; simp; done)
    | (apply keeps_modifyFpu; intro _ h; simp [h]; done)
    | split
    | dsimp only

@[simp] theorem keeps_fpremValue (nearest : Bool) (x y : Ext) : M.Keeps (fpremValue nearest x y) := by
  unfold fpremValue
  repeat' first
    | with_reducible intro _
    | (with_reducible first | refine keeps_bind ?_ ?_ | refine keeps_ite ?_ ?_ | refine keeps_map ?_)
    | assumption
    | (simp [*]; done)
    | exact keeps_modify fun _ => .of_eq rfl rfl rfl rfl rfl rfl rfl rfl rfl rfl rfl rfl
    | exact keeps_readRm _ _
    | exact keeps_locRead _ _
    | exact keeps_modifyRegA _ _
    | (apply keeps_modifyFpuEq; intro; simp; done)
    | (apply keeps_modifyFpu; intro _ h; simp [h]; done)
    | split
    | dsimp only

@[simp] theorem keeps_fprem (nearest : Bool) : M.Keeps (fprem nearest) := by
  unfold fprem
  repeat' first
    | with_reducible intro _
    | (with_reducible first | refine keeps_bind ?_ ?_ | refine keeps_ite ?_ ?_ | refine keeps_map ?_)
    | (with_reducible first | refine keeps_binaryOp _ _ _ ?_)
    | assumption
    | (simp [*]; done)
    | exact keeps_modify fun _ => .of_eq rfl rfl rfl rfl rfl rfl rfl rfl rfl rfl rfl rfl
    | exact keeps_readRm _ _
    | exact keeps_locRead _ _
    | exact keeps_modifyRegA _ _
    | (apply keeps_modifyFpuEq; intro; simp; done)
    | (apply keeps_modifyFpu; intro _ h; simp [h]; done)
    | split
    | dsimp only

@[simp] theorem keeps_twoResults (below top : Ext) : M.Keeps (twoResults below top) := by
  unfold twoResults
  repeat' first
    | with_reducible intro _
    | (with_reducible first | refine keeps_bind ?_ ?_ | refine keeps_ite ?_ ?_ | refine keeps_map ?_)
    | assumption
    | (simp [*]; done)
    | exact keeps_modify fun _ => .of_eq rfl rfl rfl rfl rfl rfl rfl rfl rfl rfl rfl rfl
    | exact keeps_readRm _ _
    | exact keeps_locRead _ _
    | exact keeps_modifyRegA _ _
    | (apply keeps_modifyFpuEq; intro; simp; done)
    | (apply keeps_modifyFpu; intro _ h; simp [h]; done)
    | split
    | dsimp only

@[simp] theorem keeps_pushChecks (body : M Unit) (h0 : M.Keeps body) : M.Keeps (pushChecks body) := by
  unfold pushChecks
  repeat' first
    | with_reducible intro _
    | (with_reducible first | refine keeps_bind ?_ ?_ | refine keeps_ite ?_ ?_ | refine keeps_map ?_)
    | assumption
    | (simp [*]; done)
    | exact keeps_modify fun _ => .of_eq rfl rfl rfl rfl rfl rfl rfl rfl rfl rfl rfl rfl
    | exact keeps_readRm _ _
    | exact keeps_locRead _ _
    | exact keeps_modifyRegA _ _
    | (apply keeps_modifyFpuEq; intro; simp; done)
    | (apply keeps_modifyFpu; intro _ h; simp [h]; done)
    | split
    | dsimp only

@[simp] theorem keeps_fxtractValue (v : Ext) : M.Keeps (fxtractValue v) := by
  unfold fxtractValue
  repeat' first
    | with_reducible intro _
    | (with_reducible first | refine keeps_bind ?_ ?_ | refine keeps_ite ?_ ?_ | refine keeps_map ?_)
    | assumption
    | (simp [*]; done)
    | exact keeps_modify fun _ => .of_eq rfl rfl rfl rfl rfl rfl rfl rfl rfl rfl rfl rfl
    | exact keeps_readRm _ _
    | exact keeps_locRead _ _
    | exact keeps_modifyRegA _ _
    | (apply keeps_modifyFpuEq; intro; simp; done)
    | (apply keeps_modifyFpu; intro _ h; simp [h]; done)
    | split
    | dsimp only

@[simp] theorem keeps_fxtract : M.Keeps fxtract := by
  unfold fxtract
  repeat' first
    | with_reducible intro _
    | (with_reducible first | refine keeps_bind ?_ ?_ | refine keeps_ite ?_ ?_ | refine keeps_map ?_)
    | (with_reducible first | refine keeps_fpuInstr _ _ ?_ | refine keeps_pushChecks _ ?_)
    | assumption
    | (simp [*]; done)
    | exact keeps_modify fun _ => .of_eq rfl rfl rfl rfl rfl rfl rfl rfl rfl rfl rfl rfl
    | exact keeps_readRm _ _
    | exact keeps_locRead _ _
    | exact keeps_modifyRegA _ _
    | (apply keeps_modifyFpuEq; intro; simp; done)
    | (apply keeps_modifyFpu; intro _ h; simp [h]; done)
    | split
    | dsimp only

@[simp] theorem keeps_compareSt0 (quiet den : Bool) (src : Src) : M.Keeps (compareSt0 quiet den src) := by
  unfold compareSt0
  repeat' first
    | with_reducible intro _
    | (with_reducible first | refine keeps_bind ?_ ?_ | refine keeps_ite ?_ ?_ | refine keeps_map ?_)
    | assumption
    | (simp [*]; done)
    | exact keeps_modify fun _ => .of_eq rfl rfl rfl rfl rfl rfl rfl rfl rfl rfl rfl rfl
    | exact keeps_readRm _ _
    | exact keeps_locRead _ _
    | exact keeps_modifyRegA _ _
    | (apply keeps_modifyFpuEq; intro; simp; done)
    | (apply keeps_modifyFpu; intro _ h; simp [h]; done)
    | split
    | dsimp only

@[simp] theorem keeps_setRelFlags (r : FRel) : M.Keeps (setRelFlags r) := by
  unfold setRelFlags
  repeat' first
    | with_reducible intro _
    | (with_reducible first | refine keeps_bind ?_ ?_ | refine keeps_ite ?_ ?_ | refine keeps_map ?_)
    | assumption
    | (simp [*]; done)
    | exact keeps_modify fun _ => .of_eq rfl rfl rfl rfl rfl rfl rfl rfl rfl rfl rfl rfl
    | exact keeps_readRm _ _
    | exact keeps_locRead _ _
    | exact keeps_modifyRegA _ _
    | (apply keeps_modifyFpuEq; intro; simp; done)
    | (apply keeps_modifyFpu; intro _ h; simp [h]; done)
    | split
    | dsimp only

@[simp] theorem keeps_popTimes : ∀ n, M.Keeps (popTimes n)
  | 0 => by simp [popTimes]
  | n + 1 => by
    have ih := keeps_popTimes n
    unfold popTimes
    exact keeps_bind (keeps_modifyFpu fun _ h => h) fun _ => ih

@[simp] theorem keeps_compareOp (needs : List Nat) (quiet den : Bool) (src : M Src) (set : FRel → M Unit) (pops k : Nat)
    (h0 : M.Keeps src) (h1 : ∀ x0, M.Keeps (set x0)) : M.Keeps (compareOp needs quiet den src set pops k) := by
  unfold compareOp
  repeat' first
    | with_reducible intro _
    | (with_reducible first | refine keeps_bind ?_ ?_ | refine keeps_ite ?_ ?_ | refine keeps_map ?_)
    | assumption
    | (simp [*]; done)
    | exact keeps_modify fun _ => .of_eq rfl rfl rfl rfl rfl rfl rfl rfl rfl rfl rfl rfl
    | exact keeps_readRm _ _
    | exact keeps_locRead _ _
    | exact keeps_modifyRegA _ _
    | (apply keeps_modifyFpuEq; intro; simp; done)
    | (apply keeps_modifyFpu; intro _ h; simp [h]; done)
    | split
    | dsimp only

@[simp] theorem keeps_setRel (r : FRel) : M.Keeps (setRel r) := by cases r <;> simp [setRel]

@[simp] theorem keeps_compareReg (quiet : Bool) (i pops : Nat) : M.Keeps (compareReg quiet i pops) := by
  unfold compareReg
  repeat' first
    | with_reducible intro _
    | (with_reducible first | refine keeps_bind ?_ ?_ | refine keeps_ite ?_ ?_ | refine keeps_map ?_)
    | (with_reducible first | refine keeps_fpuInstr _ _ ?_ | refine keeps_compareOp _ _ _ _ _ _ _ ?_ ?_)
    | assumption
    | (simp [*]; done)
    | exact keeps_modify fun _ => .of_eq rfl rfl rfl rfl rfl rfl rfl rfl rfl rfl rfl rfl
    | exact keeps_readRm _ _
    | exact keeps_locRead _ _
    | exact keeps_modifyRegA _ _
    | (apply keeps_modifyFpuEq; intro; simp; done)
    | (apply keeps_modifyFpu; intro _ h; simp [h]; done)
    | split
    | dsimp only

@[simp] theorem keeps_compareFlags (quiet : Bool) (i pops : Nat) : M.Keeps (compareFlags quiet i pops) := by
  unfold compareFlags
  repeat' first
    | with_reducible intro _
    | (with_reducible first | refine keeps_bind ?_ ?_ | refine keeps_ite ?_ ?_ | refine keeps_map ?_)
    | (with_reducible first | refine keeps_fpuInstr _ _ ?_ | refine keeps_compareOp _ _ _ _ _ _ _ ?_ ?_)
    | assumption
    | (simp [*]; done)
    | exact keeps_modify fun _ => .of_eq rfl rfl rfl rfl rfl rfl rfl rfl rfl rfl rfl rfl
    | exact keeps_readRm _ _
    | exact keeps_locRead _ _
    | exact keeps_modifyRegA _ _
    | (apply keeps_modifyFpuEq; intro; simp; done)
    | (apply keeps_modifyFpu; intro _ h; simp [h]; done)
    | split
    | dsimp only

@[simp] theorem keeps_compareMem (a : Ea) (src : M Src) (pops : Nat) (h0 : M.Keeps src) :
    M.Keeps (compareMem a src pops) := by
  unfold compareMem
  repeat' first
    | with_reducible intro _
    | (with_reducible first | refine keeps_bind ?_ ?_ | refine keeps_ite ?_ ?_ | refine keeps_map ?_)
    | (with_reducible first | refine keeps_fpuInstr _ _ ?_ | refine keeps_compareOp _ _ _ _ _ _ _ ?_ ?_)
    | assumption
    | (simp [*]; done)
    | exact keeps_modify fun _ => .of_eq rfl rfl rfl rfl rfl rfl rfl rfl rfl rfl rfl rfl
    | exact keeps_readRm _ _
    | exact keeps_locRead _ _
    | exact keeps_modifyRegA _ _
    | (apply keeps_modifyFpuEq; intro; simp; done)
    | (apply keeps_modifyFpu; intro _ h; simp [h]; done)
    | split
    | dsimp only

@[simp] theorem keeps_fcomForm (f : FComForm) (pops : Nat) : M.Keeps (fcomForm f pops) := by
  unfold fcomForm
  repeat' first
    | with_reducible intro _
    | (with_reducible first | refine keeps_bind ?_ ?_ | refine keeps_ite ?_ ?_ | refine keeps_map ?_)
    | (with_reducible first | refine keeps_compareMem _ _ _ ?_)
    | assumption
    | (simp [*]; done)
    | exact keeps_modify fun _ => .of_eq rfl rfl rfl rfl rfl rfl rfl rfl rfl rfl rfl rfl
    | exact keeps_readRm _ _
    | exact keeps_locRead _ _
    | exact keeps_modifyRegA _ _
    | (apply keeps_modifyFpuEq; intro; simp; done)
    | (apply keeps_modifyFpu; intro _ h; simp [h]; done)
    | split
    | dsimp only

@[simp] theorem keeps_ficomForm (f : FInt2) (pops : Nat) : M.Keeps (ficomForm f pops) := by
  unfold ficomForm
  repeat' first
    | with_reducible intro _
    | (with_reducible first | refine keeps_bind ?_ ?_ | refine keeps_ite ?_ ?_ | refine keeps_map ?_)
    | (with_reducible first | refine keeps_compareMem _ _ _ ?_)
    | assumption
    | (simp [*]; done)
    | exact keeps_modify fun _ => .of_eq rfl rfl rfl rfl rfl rfl rfl rfl rfl rfl rfl rfl
    | exact keeps_readRm _ _
    | exact keeps_locRead _ _
    | exact keeps_modifyRegA _ _
    | (apply keeps_modifyFpuEq; intro; simp; done)
    | (apply keeps_modifyFpu; intro _ h; simp [h]; done)
    | split
    | dsimp only

@[simp] theorem keeps_ftst : M.Keeps ftst := by
  unfold ftst
  repeat' first
    | with_reducible intro _
    | (with_reducible first | refine keeps_bind ?_ ?_ | refine keeps_ite ?_ ?_ | refine keeps_map ?_)
    | (with_reducible first | refine keeps_fpuInstr _ _ ?_ | refine keeps_compareOp _ _ _ _ _ _ _ ?_ ?_)
    | assumption
    | (simp [*]; done)
    | exact keeps_modify fun _ => .of_eq rfl rfl rfl rfl rfl rfl rfl rfl rfl rfl rfl rfl
    | exact keeps_readRm _ _
    | exact keeps_locRead _ _
    | exact keeps_modifyRegA _ _
    | (apply keeps_modifyFpuEq; intro; simp; done)
    | (apply keeps_modifyFpu; intro _ h; simp [h]; done)
    | split
    | dsimp only

@[simp] theorem keeps_fxam : M.Keeps fxam := by
  unfold fxam
  repeat' first
    | with_reducible intro _
    | (with_reducible first | refine keeps_bind ?_ ?_ | refine keeps_ite ?_ ?_ | refine keeps_map ?_)
    | (with_reducible first | refine keeps_fpuInstr _ _ ?_)
    | assumption
    | (simp [*]; done)
    | exact keeps_modify fun _ => .of_eq rfl rfl rfl rfl rfl rfl rfl rfl rfl rfl rfl rfl
    | exact keeps_readRm _ _
    | exact keeps_locRead _ _
    | exact keeps_modifyRegA _ _
    | (apply keeps_modifyFpuEq; intro; simp; done)
    | (apply keeps_modifyFpu; intro _ h; simp [h]; done)
    | split
    | dsimp only

/-! ## FpuMove -/

@[simp] theorem keeps_loadOp (m : Option Ea) (src : M (Option Ext)) (h0 : M.Keeps src) : M.Keeps (loadOp m src) := by
  unfold loadOp
  repeat' first
    | with_reducible intro _
    | (with_reducible first | refine keeps_bind ?_ ?_ | refine keeps_ite ?_ ?_ | refine keeps_map ?_)
    | (with_reducible first | refine keeps_fpuInstr _ _ ?_)
    | assumption
    | (simp [*]; done)
    | exact keeps_modify fun _ => .of_eq rfl rfl rfl rfl rfl rfl rfl rfl rfl rfl rfl rfl
    | exact keeps_readRm _ _
    | exact keeps_locRead _ _
    | exact keeps_modifyRegA _ _
    | (apply keeps_modifyFpuEq; intro; simp; done)
    | (apply keeps_modifyFpu; intro _ h; simp [h]; done)
    | split
    | dsimp only

@[simp] theorem keeps_loadReal (fmt : RealFmt) (a : Ea) : M.Keeps (loadReal fmt a) := by
  unfold loadReal
  repeat' first
    | with_reducible intro _
    | (with_reducible first | refine keeps_bind ?_ ?_ | refine keeps_ite ?_ ?_ | refine keeps_map ?_)
    | assumption
    | (simp [*]; done)
    | exact keeps_modify fun _ => .of_eq rfl rfl rfl rfl rfl rfl rfl rfl rfl rfl rfl rfl
    | exact keeps_readRm _ _
    | exact keeps_locRead _ _
    | exact keeps_modifyRegA _ _
    | (apply keeps_modifyFpuEq; intro; simp; done)
    | (apply keeps_modifyFpu; intro _ h; simp [h]; done)
    | split
    | dsimp only

@[simp] theorem keeps_fld (f : FLdForm) : M.Keeps (fld f) := by
  unfold fld
  repeat' first
    | with_reducible intro _
    | (with_reducible first | refine keeps_bind ?_ ?_ | refine keeps_ite ?_ ?_ | refine keeps_map ?_)
    | (with_reducible first | refine keeps_fpuInstr _ _ ?_ | refine keeps_loadOp _ _ ?_)
    | assumption
    | (simp [*]; done)
    | exact keeps_modify fun _ => .of_eq rfl rfl rfl rfl rfl rfl rfl rfl rfl rfl rfl rfl
    | exact keeps_readRm _ _
    | exact keeps_locRead _ _
    | exact keeps_modifyRegA _ _
    | (apply keeps_modifyFpuEq; intro; simp; done)
    | (apply keeps_modifyFpu; intro _ h; simp [h]; done)
    | split
    | dsimp only

@[simp] theorem keeps_fild (f : FInt3) : M.Keeps (fild f) := by
  unfold fild
  repeat' first
    | with_reducible intro _
    | (with_reducible first | refine keeps_bind ?_ ?_ | refine keeps_ite ?_ ?_ | refine keeps_map ?_)
    | (with_reducible first | refine keeps_loadOp _ _ ?_)
    | assumption
    | (simp [*]; done)
    | exact keeps_modify fun _ => .of_eq rfl rfl rfl rfl rfl rfl rfl rfl rfl rfl rfl rfl
    | exact keeps_readRm _ _
    | exact keeps_locRead _ _
    | exact keeps_modifyRegA _ _
    | (apply keeps_modifyFpuEq; intro; simp; done)
    | (apply keeps_modifyFpu; intro _ h; simp [h]; done)
    | split
    | dsimp only

@[simp] theorem keeps_fbld (a : Ea) : M.Keeps (fbld a) := by
  unfold fbld
  repeat' first
    | with_reducible intro _
    | (with_reducible first | refine keeps_bind ?_ ?_ | refine keeps_ite ?_ ?_ | refine keeps_map ?_)
    | (with_reducible first | refine keeps_loadOp _ _ ?_)
    | assumption
    | (simp [*]; done)
    | exact keeps_modify fun _ => .of_eq rfl rfl rfl rfl rfl rfl rfl rfl rfl rfl rfl rfl
    | exact keeps_readRm _ _
    | exact keeps_locRead _ _
    | exact keeps_modifyRegA _ _
    | (apply keeps_modifyFpuEq; intro; simp; done)
    | (apply keeps_modifyFpu; intro _ h; simp [h]; done)
    | split
    | dsimp only

@[simp] theorem keeps_fldConst (e near down up : Nat) : M.Keeps (fldConst e near down up) := by
  unfold fldConst
  repeat' first
    | with_reducible intro _
    | (with_reducible first | refine keeps_bind ?_ ?_ | refine keeps_ite ?_ ?_ | refine keeps_map ?_)
    | (with_reducible first | refine keeps_loadOp _ _ ?_)
    | assumption
    | (simp [*]; done)
    | exact keeps_modify fun _ => .of_eq rfl rfl rfl rfl rfl rfl rfl rfl rfl rfl rfl rfl
    | exact keeps_readRm _ _
    | exact keeps_locRead _ _
    | exact keeps_modifyRegA _ _
    | (apply keeps_modifyFpuEq; intro; simp; done)
    | (apply keeps_modifyFpu; intro _ h; simp [h]; done)
    | split
    | dsimp only

@[simp] theorem keeps_storeOp (a : Ea) (n al : Nat) (indef : Nat) (pop : Bool) (body : Ext → M (Option Nat)) (h0 : ∀ x0, M.Keeps (body x0)) :
    M.Keeps (storeOp a n al indef pop body) := by
  unfold storeOp
  repeat' first
    | with_reducible intro _
    | (with_reducible first | refine keeps_bind ?_ ?_ | refine keeps_ite ?_ ?_ | refine keeps_map ?_)
    | (with_reducible first | refine keeps_fpuInstr _ _ ?_)
    | assumption
    | (simp [*]; done)
    | exact keeps_modify fun _ => .of_eq rfl rfl rfl rfl rfl rfl rfl rfl rfl rfl rfl rfl
    | exact keeps_readRm _ _
    | exact keeps_locRead _ _
    | exact keeps_modifyRegA _ _
    | (apply keeps_modifyFpuEq; intro; simp; done)
    | (apply keeps_modifyFpu; intro _ h; simp [h]; done)
    | split
    | dsimp only

@[simp] theorem keeps_realBits (fmt : RealFmt) (v : Ext) : M.Keeps (realBits fmt v) := by
  unfold realBits
  repeat' first
    | with_reducible intro _
    | (with_reducible first | refine keeps_bind ?_ ?_ | refine keeps_ite ?_ ?_ | refine keeps_map ?_)
    | assumption
    | (simp [*]; done)
    | exact keeps_modify fun _ => .of_eq rfl rfl rfl rfl rfl rfl rfl rfl rfl rfl rfl rfl
    | exact keeps_readRm _ _
    | exact keeps_locRead _ _
    | exact keeps_modifyRegA _ _
    | (apply keeps_modifyFpuEq; intro; simp; done)
    | (apply keeps_modifyFpu; intro _ h; simp [h]; done)
    | split
    | dsimp only

@[simp] theorem keeps_storeReg (i : Nat) (pop : Bool) : M.Keeps (storeReg i pop) := by
  unfold storeReg
  repeat' first
    | with_reducible intro _
    | (with_reducible first | refine keeps_bind ?_ ?_ | refine keeps_ite ?_ ?_ | refine keeps_map ?_)
    | (with_reducible first | refine keeps_fpuInstr _ _ ?_ | refine keeps_stOp _ _ _ _ ?_)
    | assumption
    | (simp [*]; done)
    | exact keeps_modify fun _ => .of_eq rfl rfl rfl rfl rfl rfl rfl rfl rfl rfl rfl rfl
    | exact keeps_readRm _ _
    | exact keeps_locRead _ _
    | exact keeps_modifyRegA _ _
    | (apply keeps_modifyFpuEq; intro; simp; done)
    | (apply keeps_modifyFpu; intro _ h; simp [h]; done)
    | split
    | dsimp only

@[simp] theorem keeps_fst (f : FComForm) : M.Keeps (fst f) := by
  unfold fst
  repeat' first
    | with_reducible intro _
    | (with_reducible first | refine keeps_bind ?_ ?_ | refine keeps_ite ?_ ?_ | refine keeps_map ?_)
    | (with_reducible first | refine keeps_storeOp _ _ _ _ _ _ ?_)
    | assumption
    | (simp [*]; done)
    | exact keeps_modify fun _ => .of_eq rfl rfl rfl rfl rfl rfl rfl rfl rfl rfl rfl rfl
    | exact keeps_readRm _ _
    | exact keeps_locRead _ _
    | exact keeps_modifyRegA _ _
    | (apply keeps_modifyFpuEq; intro; simp; done)
    | (apply keeps_modifyFpu; intro _ h; simp [h]; done)
    | split
    | dsimp only

@[simp] theorem keeps_fstp (f : FLdForm) : M.Keeps (fstp f) := by
  unfold fstp
  repeat' first
    | with_reducible intro _
    | (with_reducible first | refine keeps_bind ?_ ?_ | refine keeps_ite ?_ ?_ | refine keeps_map ?_)
    | (with_reducible first | refine keeps_storeOp _ _ _ _ _ _ ?_)
    | assumption
    | (simp [*]; done)
    | exact keeps_modify fun _ => .of_eq rfl rfl rfl rfl rfl rfl rfl rfl rfl rfl rfl rfl
    | exact keeps_readRm _ _
    | exact keeps_locRead _ _
    | exact keeps_modifyRegA _ _
    | (apply keeps_modifyFpuEq; intro; simp; done)
    | (apply keeps_modifyFpu; intro _ h; simp [h]; done)
    | split
    | dsimp only

@[simp] theorem keeps_toInteger (ok : Bool → Nat → Bool) (indef : Nat) (enc : Bool → Nat → Nat) (v : Ext) :
    M.Keeps (toInteger ok indef enc v) := by
  unfold toInteger
  repeat' first
    | with_reducible intro _
    | (with_reducible first | refine keeps_bind ?_ ?_ | refine keeps_ite ?_ ?_ | refine keeps_map ?_)
    | assumption
    | (simp [*]; done)
    | exact keeps_modify fun _ => .of_eq rfl rfl rfl rfl rfl rfl rfl rfl rfl rfl rfl rfl
    | exact keeps_readRm _ _
    | exact keeps_locRead _ _
    | exact keeps_modifyRegA _ _
    | (apply keeps_modifyFpuEq; intro; simp; done)
    | (apply keeps_modifyFpu; intro _ h; simp [h]; done)
    | split
    | dsimp only

@[simp] theorem keeps_fistOp (a : Ea) (k : Nat) (pop : Bool) : M.Keeps (fistOp a k pop) := by
  unfold fistOp
  repeat' first
    | with_reducible intro _
    | (with_reducible first | refine keeps_bind ?_ ?_ | refine keeps_ite ?_ ?_ | refine keeps_map ?_)
    | (with_reducible first | refine keeps_storeOp _ _ _ _ _ _ ?_)
    | assumption
    | (simp [*]; done)
    | exact keeps_modify fun _ => .of_eq rfl rfl rfl rfl rfl rfl rfl rfl rfl rfl rfl rfl
    | exact keeps_readRm _ _
    | exact keeps_locRead _ _
    | exact keeps_modifyRegA _ _
    | (apply keeps_modifyFpuEq; intro; simp; done)
    | (apply keeps_modifyFpu; intro _ h; simp [h]; done)
    | split
    | dsimp only

@[simp] theorem keeps_fist (f : FInt2) : M.Keeps (fist f) := by
  unfold fist
  repeat' first
    | with_reducible intro _
    | (with_reducible first | refine keeps_bind ?_ ?_ | refine keeps_ite ?_ ?_ | refine keeps_map ?_)
    | assumption
    | (simp [*]; done)
    | exact keeps_modify fun _ => .of_eq rfl rfl rfl rfl rfl rfl rfl rfl rfl rfl rfl rfl
    | exact keeps_readRm _ _
    | exact keeps_locRead _ _
    | exact keeps_modifyRegA _ _
    | (apply keeps_modifyFpuEq; intro; simp; done)
    | (apply keeps_modifyFpu; intro _ h; simp [h]; done)
    | split
    | dsimp only

@[simp] theorem keeps_fistp (f : FInt3) : M.Keeps (fistp f) := by
  unfold fistp
  repeat' first
    | with_reducible intro _
    | (with_reducible first | refine keeps_bind ?_ ?_ | refine keeps_ite ?_ ?_ | refine keeps_map ?_)
    | assumption
    | (simp [*]; done)
    | exact keeps_modify fun _ => .of_eq rfl rfl rfl rfl rfl rfl rfl rfl rfl rfl rfl rfl
    | exact keeps_readRm _ _
    | exact keeps_locRead _ _
    | exact keeps_modifyRegA _ _
    | (apply keeps_modifyFpuEq; intro; simp; done)
    | (apply keeps_modifyFpu; intro _ h; simp [h]; done)
    | split
    | dsimp only

@[simp] theorem keeps_fbstp (a : Ea) : M.Keeps (fbstp a) := by
  unfold fbstp
  repeat' first
    | with_reducible intro _
    | (with_reducible first | refine keeps_bind ?_ ?_ | refine keeps_ite ?_ ?_ | refine keeps_map ?_)
    | (with_reducible first | refine keeps_storeOp _ _ _ _ _ _ ?_)
    | assumption
    | (simp [*]; done)
    | exact keeps_modify fun _ => .of_eq rfl rfl rfl rfl rfl rfl rfl rfl rfl rfl rfl rfl
    | exact keeps_readRm _ _
    | exact keeps_locRead _ _
    | exact keeps_modifyRegA _ _
    | (apply keeps_modifyFpuEq; intro; simp; done)
    | (apply keeps_modifyFpu; intro _ h; simp [h]; done)
    | split
    | dsimp only

@[simp] theorem keeps_fxch (i : Nat) : M.Keeps (fxch i) := by
  unfold fxch
  repeat' first
    | with_reducible intro _
    | (with_reducible first | refine keeps_bind ?_ ?_ | refine keeps_ite ?_ ?_ | refine keeps_map ?_)
    | (with_reducible first | refine keeps_fpuInstr _ _ ?_)
    | assumption
    | (simp [*]; done)
    | exact keeps_modify fun _ => .of_eq rfl rfl rfl rfl rfl rfl rfl rfl rfl rfl rfl rfl
    | exact keeps_readRm _ _
    | exact keeps_locRead _ _
    | exact keeps_modifyRegA _ _
    | (apply keeps_modifyFpuEq; intro; simp; done)
    | (apply keeps_modifyFpu; intro _ h; simp [h]; done)
    | split
    | dsimp only

@[simp] theorem keeps_fcmov (c : Flags → Bool) (i : Nat) : M.Keeps (fcmov c i) := by
  unfold fcmov
  repeat' first
    | with_reducible intro _
    | (with_reducible first | refine keeps_bind ?_ ?_ | refine keeps_ite ?_ ?_ | refine keeps_map ?_)
    | (with_reducible first | refine keeps_fpuInstr _ _ ?_ | refine keeps_stOp _ _ _ _ ?_)
    | assumption
    | (simp [*]; done)
    | exact keeps_modify fun _ => .of_eq rfl rfl rfl rfl rfl rfl rfl rfl rfl rfl rfl rfl
    | exact keeps_readRm _ _
    | exact keeps_locRead _ _
    | exact keeps_modifyRegA _ _
    | (apply keeps_modifyFpuEq; intro; simp; done)
    | (apply keeps_modifyFpu; intro _ h; simp [h]; done)
    | split
    | dsimp only

@[simp] theorem keeps_moveTop (d : BitVec 3) : M.Keeps (moveTop d) := by
  unfold moveTop
  repeat' first
    | with_reducible intro _
    | (with_reducible first | refine keeps_bind ?_ ?_ | refine keeps_ite ?_ ?_ | refine keeps_map ?_)
    | (with_reducible first | refine keeps_fpuInstr _ _ ?_)
    | assumption
    | (simp [*]; done)
    | exact keeps_modify fun _ => .of_eq rfl rfl rfl rfl rfl rfl rfl rfl rfl rfl rfl rfl
    | exact keeps_readRm _ _
    | exact keeps_locRead _ _
    | exact keeps_modifyRegA _ _
    | (apply keeps_modifyFpuEq; intro; simp; done)
    | (apply keeps_modifyFpu; intro _ h; simp [h]; done)
    | split
    | dsimp only

@[simp] theorem keeps_ffree (i : Nat) : M.Keeps (ffree i) := by
  unfold ffree
  repeat' first
    | with_reducible intro _
    | (with_reducible first | refine keeps_bind ?_ ?_ | refine keeps_ite ?_ ?_ | refine keeps_map ?_)
    | (with_reducible first | refine keeps_fpuInstr _ _ ?_)
    | assumption
    | (simp [*]; done)
    | exact keeps_modify fun _ => .of_eq rfl rfl rfl rfl rfl rfl rfl rfl rfl rfl rfl rfl
    | exact keeps_readRm _ _
    | exact keeps_locRead _ _
    | exact keeps_modifyRegA _ _
    | (apply keeps_modifyFpuEq; intro; simp; done)
    | (apply keeps_modifyFpu; intro _ h; simp [h]; done)
    | split
    | dsimp only

@[simp] theorem keeps_fnop : M.Keeps fnop := by
  unfold fnop
  repeat' first
    | with_reducible intro _
    | (with_reducible first | refine keeps_bind ?_ ?_ | refine keeps_ite ?_ ?_ | refine keeps_map ?_)
    | assumption
    | (simp [*]; done)
    | exact keeps_modify fun _ => .of_eq rfl rfl rfl rfl rfl rfl rfl rfl rfl rfl rfl rfl
    | exact keeps_readRm _ _
    | exact keeps_locRead _ _
    | exact keeps_modifyRegA _ _
    | (apply keeps_modifyFpuEq; intro; simp; done)
    | (apply keeps_modifyFpu; intro _ h; simp [h]; done)
    | split
    | dsimp only

@[simp] theorem keeps_wait : M.Keeps wait := by
  unfold wait
  repeat' first
    | with_reducible intro _
    | (with_reducible first | refine keeps_bind ?_ ?_ | refine keeps_ite ?_ ?_ | refine keeps_map ?_)
    | assumption
    | (simp [*]; done)
    | exact keeps_modify fun _ => .of_eq rfl rfl rfl rfl rfl rfl rfl rfl rfl rfl rfl rfl
    | exact keeps_readRm _ _
    | exact keeps_locRead _ _
    | exact keeps_modifyRegA _ _
    | (apply keeps_modifyFpuEq; intro; simp; done)
    | (apply keeps_modifyFpu; intro _ h; simp [h]; done)
    | split
    | dsimp only

@[simp] theorem keeps_fninit : M.Keeps fninit := by
  unfold fninit
  repeat' first
    | with_reducible intro _
    | (with_reducible first | refine keeps_bind ?_ ?_ | refine keeps_ite ?_ ?_ | refine keeps_map ?_)
    | assumption
    | (simp [*]; done)
    | exact keeps_modify fun _ => .of_eq rfl rfl rfl rfl rfl rfl rfl rfl rfl rfl rfl rfl
    | exact keeps_readRm _ _
    | exact keeps_locRead _ _
    | exact keeps_modifyRegA _ _
    | (apply keeps_modifyFpuEq; intro; simp; done)
    | (apply keeps_modifyFpu; intro _ h; simp [h]; done)
    | split
    | dsimp only

@[simp] theorem keeps_fnclex : M.Keeps fnclex := by
  unfold fnclex
  repeat' first
    | with_reducible intro _
    | (with_reducible first | refine keeps_bind ?_ ?_ | refine keeps_ite ?_ ?_ | refine keeps_map ?_)
    | assumption
    | (simp [*]; done)
    | exact keeps_modify fun _ => .of_eq rfl rfl rfl rfl rfl rfl rfl rfl rfl rfl rfl rfl
    | exact keeps_readRm _ _
    | exact keeps_locRead _ _
    | exact keeps_modifyRegA _ _
    | (apply keeps_modifyFpuEq; intro; simp; done)
    | (apply keeps_modifyFpu; intro _ h; simp [h]; done)
    | split
    | dsimp only

@[simp] theorem keeps_fnstcw (a : Ea) : M.Keeps (fnstcw a) := by
  unfold fnstcw
  repeat' first
    | with_reducible intro _
    | (with_reducible first | refine keeps_bind ?_ ?_ | refine keeps_ite ?_ ?_ | refine keeps_map ?_)
    | assumption
    | (simp [*]; done)
    | exact keeps_modify fun _ => .of_eq rfl rfl rfl rfl rfl rfl rfl rfl rfl rfl rfl rfl
    | exact keeps_readRm _ _
    | exact keeps_locRead _ _
    | exact keeps_modifyRegA _ _
    | (apply keeps_modifyFpuEq; intro; simp; done)
    | (apply keeps_modifyFpu; intro _ h; simp [h]; done)
    | split
    | dsimp only

@[simp] theorem keeps_fldcw (a : Ea) : M.Keeps (fldcw a) := by
  unfold fldcw
  repeat' first
    | with_reducible intro _
    | (with_reducible first | refine keeps_bind ?_ ?_ | refine keeps_ite ?_ ?_ | refine keeps_map ?_)
    | assumption
    | (simp [*]; done)
    | exact keeps_modify fun _ => .of_eq rfl rfl rfl rfl rfl rfl rfl rfl rfl rfl rfl rfl
    | exact keeps_readRm _ _
    | exact keeps_locRead _ _
    | exact keeps_modifyRegA _ _
    | (apply keeps_modifyFpuEq; intro; simp; done)
    | (apply keeps_modifyFpu; intro _ h; simp [h]; done)
    | split
    | dsimp only

@[simp] theorem keeps_fnstsw (f : FStsw) : M.Keeps (fnstsw f) := by
  unfold fnstsw
  repeat' first
    | with_reducible intro _
    | (with_reducible first | refine keeps_bind ?_ ?_ | refine keeps_ite ?_ ?_ | refine keeps_map ?_)
    | assumption
    | (simp [*]; done)
    | exact keeps_modify fun _ => .of_eq rfl rfl rfl rfl rfl rfl rfl rfl rfl rfl rfl rfl
    | exact keeps_readRm _ _
    | exact keeps_locRead _ _
    | exact keeps_modifyRegA _ _
    | (apply keeps_modifyFpuEq; intro; simp; done)
    | (apply keeps_modifyFpu; intro _ h; simp [h]; done)
    | split
    | dsimp only

@[simp] theorem keeps_envImage : M.Keeps envImage := by
  unfold envImage
  repeat' first
    | with_reducible intro _
    | (with_reducible first | refine keeps_bind ?_ ?_ | refine keeps_ite ?_ ?_ | refine keeps_map ?_)
    | assumption
    | (simp [*]; done)
    | exact keeps_modify fun _ => .of_eq rfl rfl rfl rfl rfl rfl rfl rfl rfl rfl rfl rfl
    | exact keeps_readRm _ _
    | exact keeps_locRead _ _
    | exact keeps_modifyRegA _ _
    | (apply keeps_modifyFpuEq; intro; simp; done)
    | (apply keeps_modifyFpu; intro _ h; simp [h]; done)
    | split
    | dsimp only

@[simp] theorem keeps_fnstenv (a : Ea) : M.Keeps (fnstenv a) := by
  unfold fnstenv
  repeat' first
    | with_reducible intro _
    | (with_reducible first | refine keeps_bind ?_ ?_ | refine keeps_ite ?_ ?_ | refine keeps_map ?_)
    | assumption
    | (simp [*]; done)
    | exact keeps_modify fun _ => .of_eq rfl rfl rfl rfl rfl rfl rfl rfl rfl rfl rfl rfl
    | exact keeps_readRm _ _
    | exact keeps_locRead _ _
    | exact keeps_modifyRegA _ _
    | (apply keeps_modifyFpuEq; intro; simp; done)
    | (apply keeps_modifyFpu; intro _ h; simp [h]; done)
    | split
    | dsimp only

@[simp] theorem keeps_fldenv (a : Ea) : M.Keeps (fldenv a) := by
  unfold fldenv
  repeat' first
    | with_reducible intro _
    | (with_reducible first | refine keeps_bind ?_ ?_ | refine keeps_ite ?_ ?_ | refine keeps_map ?_)
    | assumption
    | (simp [*]; done)
    | exact keeps_modify fun _ => .of_eq rfl rfl rfl rfl rfl rfl rfl rfl rfl rfl rfl rfl
    | exact keeps_readRm _ _
    | exact keeps_locRead _ _
    | exact keeps_modifyRegA _ _
    | (apply keeps_modifyFpuEq; intro; simp; done)
    | (apply keeps_modifyFpu; intro _ h; simp [h]; done)
    | split
    | dsimp only

@[simp] theorem keeps_fnsave (a : Ea) : M.Keeps (fnsave a) := by
  unfold fnsave
  repeat' first
    | with_reducible intro _
    | (with_reducible first | refine keeps_bind ?_ ?_ | refine keeps_ite ?_ ?_ | refine keeps_map ?_)
    | assumption
    | (simp [*]; done)
    | exact keeps_modify fun _ => .of_eq rfl rfl rfl rfl rfl rfl rfl rfl rfl rfl rfl rfl
    | exact keeps_readRm _ _
    | exact keeps_locRead _ _
    | exact keeps_modifyRegA _ _
    | (apply keeps_modifyFpuEq; intro; simp; done)
    | (apply keeps_modifyFpu; intro _ h; simp [h]; done)
    | split
    | dsimp only

@[simp] theorem keeps_frstor (a : Ea) : M.Keeps (frstor a) := by
  unfold frstor
  repeat' first
    | with_reducible intro _
    | (with_reducible first | refine keeps_bind ?_ ?_ | refine keeps_ite ?_ ?_ | refine keeps_map ?_)
    | assumption
    | (simp [*]; done)
    | exact keeps_modify fun _ => .of_eq rfl rfl rfl rfl rfl rfl rfl rfl rfl rfl rfl rfl
    | exact keeps_readRm _ _
    | exact keeps_locRead _ _
    | exact keeps_modifyRegA _ _
    | (apply keeps_modifyFpuEq; intro; simp; done)
    | (apply keeps_modifyFpu; intro _ h; simp [h]; done)
    | split
    | dsimp only

/-! ## FpuTrans -/

@[simp] theorem keeps_commitTrans (v : Ext) (inexact up tinyU : Bool) :
    M.Keeps (commitTrans v inexact up tinyU) := by
  unfold commitTrans
  repeat' first
    | with_reducible intro _
    | (with_reducible first | refine keeps_bind ?_ ?_ | refine keeps_ite ?_ ?_ | refine keeps_map ?_)
    | assumption
    | (simp [*]; done)
    | exact keeps_modify fun _ => .of_eq rfl rfl rfl rfl rfl rfl rfl rfl rfl rfl rfl rfl
    | exact keeps_readRm _ _
    | exact keeps_locRead _ _
    | exact keeps_modifyRegA _ _
    | (apply keeps_modifyFpuEq; intro; simp; done)
    | (apply keeps_modifyFpu; intro _ h; simp [h]; done)
    | split
    | dsimp only

@[simp] theorem keeps_transValue (t : Config.Transcendental) (x y lo hi : Ext) (tinyU : Bool) :
    M.Keeps (transValue t x y lo hi tinyU) := by
  unfold transValue
  repeat' first
    | with_reducible intro _
    | (with_reducible first | refine keeps_bind ?_ ?_ | refine keeps_ite ?_ ?_ | refine keeps_map ?_)
    | assumption
    | (simp [*]; done)
    | exact keeps_modify fun _ => .of_eq rfl rfl rfl rfl rfl rfl rfl rfl rfl rfl rfl rfl
    | exact keeps_readRm _ _
    | exact keeps_locRead _ _
    | exact keeps_modifyRegA _ _
    | (apply keeps_modifyFpuEq; intro; simp; done)
    | (apply keeps_modifyFpu; intro _ h; simp [h]; done)
    | split
    | dsimp only

@[simp] theorem keeps_outOfRange : M.Keeps outOfRange := by
  unfold outOfRange
  repeat' first
    | with_reducible intro _
    | (with_reducible first | refine keeps_bind ?_ ?_ | refine keeps_ite ?_ ?_ | refine keeps_map ?_)
    | assumption
    | (simp [*]; done)
    | exact keeps_modify fun _ => .of_eq rfl rfl rfl rfl rfl rfl rfl rfl rfl rfl rfl rfl
    | exact keeps_readRm _ _
    | exact keeps_locRead _ _
    | exact keeps_modifyRegA _ _
    | (apply keeps_modifyFpuEq; intro; simp; done)
    | (apply keeps_modifyFpu; intro _ h; simp [h]; done)
    | split
    | dsimp only

@[simp] theorem keeps_piResult (neg : Bool) (e sig : Nat) : M.Keeps (piResult neg e sig) := by
  unfold piResult
  repeat' first
    | with_reducible intro _
    | (with_reducible first | refine keeps_bind ?_ ?_ | refine keeps_ite ?_ ?_ | refine keeps_map ?_)
    | assumption
    | (simp [*]; done)
    | exact keeps_modify fun _ => .of_eq rfl rfl rfl rfl rfl rfl rfl rfl rfl rfl rfl rfl
    | exact keeps_readRm _ _
    | exact keeps_locRead _ _
    | exact keeps_modifyRegA _ _
    | (apply keeps_modifyFpuEq; intro; simp; done)
    | (apply keeps_modifyFpu; intro _ h; simp [h]; done)
    | split
    | dsimp only

@[simp] theorem keeps_f2xm1Value (x : Ext) : M.Keeps (f2xm1Value x) := by
  unfold f2xm1Value
  repeat' first
    | with_reducible intro _
    | (with_reducible first | refine keeps_bind ?_ ?_ | refine keeps_ite ?_ ?_ | refine keeps_map ?_)
    | assumption
    | (simp [*]; done)
    | exact keeps_modify fun _ => .of_eq rfl rfl rfl rfl rfl rfl rfl rfl rfl rfl rfl rfl
    | exact keeps_readRm _ _
    | exact keeps_locRead _ _
    | exact keeps_modifyRegA _ _
    | (apply keeps_modifyFpuEq; intro; simp; done)
    | (apply keeps_modifyFpu; intro _ h; simp [h]; done)
    | split
    | dsimp only

@[simp] theorem keeps_ofSt0 (body : Ext → M (Option Ext)) (h0 : ∀ x0, M.Keeps (body x0)) : M.Keeps (ofSt0 body) := by
  unfold ofSt0
  repeat' first
    | with_reducible intro _
    | (with_reducible first | refine keeps_bind ?_ ?_ | refine keeps_ite ?_ ?_ | refine keeps_map ?_)
    | assumption
    | (simp [*]; done)
    | exact keeps_modify fun _ => .of_eq rfl rfl rfl rfl rfl rfl rfl rfl rfl rfl rfl rfl
    | exact keeps_readRm _ _
    | exact keeps_locRead _ _
    | exact keeps_modifyRegA _ _
    | (apply keeps_modifyFpuEq; intro; simp; done)
    | (apply keeps_modifyFpu; intro _ h; simp [h]; done)
    | split
    | dsimp only

@[simp] theorem keeps_f2xm1 : M.Keeps f2xm1 :=
  keeps_fpuInstr _ _ (keeps_stOp _ _ _ _ (keeps_ofSt0 _ keeps_f2xm1Value))

@[simp] theorem keeps_notReduced : M.Keeps notReduced := by
  unfold notReduced
  repeat' first
    | with_reducible intro _
    | (with_reducible first | refine keeps_bind ?_ ?_ | refine keeps_ite ?_ ?_ | refine keeps_map ?_)
    | assumption
    | (simp [*]; done)
    | exact keeps_modify fun _ => .of_eq rfl rfl rfl rfl rfl rfl rfl rfl rfl rfl rfl rfl
    | exact keeps_readRm _ _
    | exact keeps_locRead _ _
    | exact keeps_modifyRegA _ _
    | (apply keeps_modifyFpuEq; intro; simp; done)
    | (apply keeps_modifyFpu; intro _ h; simp [h]; done)
    | split
    | dsimp only

@[simp] theorem keeps_trigValue (t : Config.Transcendental) (atZero : Ext → Ext) (x : Ext) :
    M.Keeps (trigValue t atZero x) := by
  unfold trigValue
  repeat' first
    | with_reducible intro _
    | (with_reducible first | refine keeps_bind ?_ ?_ | refine keeps_ite ?_ ?_ | refine keeps_map ?_)
    | assumption
    | (simp [*]; done)
    | exact keeps_modify fun _ => .of_eq rfl rfl rfl rfl rfl rfl rfl rfl rfl rfl rfl rfl
    | exact keeps_readRm _ _
    | exact keeps_locRead _ _
    | exact keeps_modifyRegA _ _
    | (apply keeps_modifyFpuEq; intro; simp; done)
    | (apply keeps_modifyFpu; intro _ h; simp [h]; done)
    | split
    | dsimp only

@[simp] theorem keeps_trigNumber (t : Config.Transcendental) (atZero : Ext → Ext) (x : Ext) :
    M.Keeps (trigNumber t atZero x) := by
  unfold trigNumber
  repeat' first
    | with_reducible intro _
    | (with_reducible first | refine keeps_bind ?_ ?_ | refine keeps_ite ?_ ?_ | refine keeps_map ?_)
    | assumption
    | (simp [*]; done)
    | exact keeps_modify fun _ => .of_eq rfl rfl rfl rfl rfl rfl rfl rfl rfl rfl rfl rfl
    | exact keeps_readRm _ _
    | exact keeps_locRead _ _
    | exact keeps_modifyRegA _ _
    | (apply keeps_modifyFpuEq; intro; simp; done)
    | (apply keeps_modifyFpu; intro _ h; simp [h]; done)
    | split
    | dsimp only

@[simp] theorem keeps_trig (t : Config.Transcendental) (atZero : Ext → Ext) : M.Keeps (trig t atZero) := by
  unfold trig
  repeat' first
    | with_reducible intro _
    | (with_reducible first | refine keeps_bind ?_ ?_ | refine keeps_ite ?_ ?_ | refine keeps_map ?_)
    | (with_reducible first | refine keeps_fpuInstr _ _ ?_ | refine keeps_stBody _ _ _ _ ?_ | refine keeps_ofSt0 _ ?_)
    | assumption
    | (simp [*]; done)
    | exact keeps_modify fun _ => .of_eq rfl rfl rfl rfl rfl rfl rfl rfl rfl rfl rfl rfl
    | exact keeps_readRm _ _
    | exact keeps_locRead _ _
    | exact keeps_modifyRegA _ _
    | (apply keeps_modifyFpuEq; intro; simp; done)
    | (apply keeps_modifyFpu; intro _ h; simp [h]; done)
    | split
    | dsimp only

@[simp] theorem keeps_trigTwo (body : Ext → M (Ext × Ext)) (h0 : ∀ x0, M.Keeps (body x0)) :
    M.Keeps (trigTwo body) := by
  unfold trigTwo
  repeat' first
    | with_reducible intro _
    | (with_reducible first | refine keeps_bind ?_ ?_ | refine keeps_ite ?_ ?_ | refine keeps_map ?_)
    | (with_reducible first | refine keeps_fpuInstr _ _ ?_ | refine keeps_pushChecks _ ?_)
    | assumption
    | (simp [*]; done)
    | exact keeps_modify fun _ => .of_eq rfl rfl rfl rfl rfl rfl rfl rfl rfl rfl rfl rfl
    | exact keeps_readRm _ _
    | exact keeps_locRead _ _
    | exact keeps_modifyRegA _ _
    | (apply keeps_modifyFpuEq; intro; simp; done)
    | (apply keeps_modifyFpu; intro _ h; simp [h]; done)
    | split
    | dsimp only

@[simp] theorem keeps_c1OfBoth (a b c d : Bool) : M.Keeps (c1OfBoth a b c d) := by
  unfold c1OfBoth
  repeat' first
    | with_reducible intro _
    | (with_reducible first | refine keeps_bind ?_ ?_ | refine keeps_ite ?_ ?_ | refine keeps_map ?_)
    | assumption
    | (simp [*]; done)
    | exact keeps_modify fun _ => .of_eq rfl rfl rfl rfl rfl rfl rfl rfl rfl rfl rfl rfl
    | exact keeps_readRm _ _
    | exact keeps_locRead _ _
    | exact keeps_modifyRegA _ _
    | (apply keeps_modifyFpuEq; intro; simp; done)
    | (apply keeps_modifyFpu; intro _ h; simp [h]; done)
    | split
    | dsimp only

@[simp] theorem keeps_fsincosValue (x : Ext) : M.Keeps (fsincosValue x) := by
  unfold fsincosValue
  repeat' first
    | with_reducible intro _
    | (with_reducible first | refine keeps_bind ?_ ?_ | refine keeps_ite ?_ ?_ | refine keeps_map ?_)
    | assumption
    | (simp [*]; done)
    | exact keeps_modify fun _ => .of_eq rfl rfl rfl rfl rfl rfl rfl rfl rfl rfl rfl rfl
    | exact keeps_readRm _ _
    | exact keeps_locRead _ _
    | exact keeps_modifyRegA _ _
    | (apply keeps_modifyFpuEq; intro; simp; done)
    | (apply keeps_modifyFpu; intro _ h; simp [h]; done)
    | split
    | dsimp only

@[simp] theorem keeps_fptanValue (x : Ext) : M.Keeps (fptanValue x) := by
  unfold fptanValue
  repeat' first
    | with_reducible intro _
    | (with_reducible first | refine keeps_bind ?_ ?_ | refine keeps_ite ?_ ?_ | refine keeps_map ?_)
    | assumption
    | (simp [*]; done)
    | exact keeps_modify fun _ => .of_eq rfl rfl rfl rfl rfl rfl rfl rfl rfl rfl rfl rfl
    | exact keeps_readRm _ _
    | exact keeps_locRead _ _
    | exact keeps_modifyRegA _ _
    | (apply keeps_modifyFpuEq; intro; simp; done)
    | (apply keeps_modifyFpu; intro _ h; simp [h]; done)
    | split
    | dsimp only

@[simp] theorem keeps_fpatanValue (x y : Ext) : M.Keeps (fpatanValue x y) := by
  unfold fpatanValue
  repeat' first
    | with_reducible intro _
    | (with_reducible first | refine keeps_bind ?_ ?_ | refine keeps_ite ?_ ?_ | refine keeps_map ?_)
    | assumption
    | (simp [*]; done)
    | exact keeps_modify fun _ => .of_eq rfl rfl rfl rfl rfl rfl rfl rfl rfl rfl rfl rfl
    | exact keeps_readRm _ _
    | exact keeps_locRead _ _
    | exact keeps_modifyRegA _ _
    | (apply keeps_modifyFpuEq; intro; simp; done)
    | (apply keeps_modifyFpu; intro _ h; simp [h]; done)
    | split
    | dsimp only

@[simp] theorem keeps_signedValue (t : Config.Transcendental) (x y : Ext) (neg : Bool) :
    M.Keeps (signedValue t x y neg) := by
  unfold signedValue
  repeat' first
    | with_reducible intro _
    | (with_reducible first | refine keeps_bind ?_ ?_ | refine keeps_ite ?_ ?_ | refine keeps_map ?_)
    | assumption
    | (simp [*]; done)
    | exact keeps_modify fun _ => .of_eq rfl rfl rfl rfl rfl rfl rfl rfl rfl rfl rfl rfl
    | exact keeps_readRm _ _
    | exact keeps_locRead _ _
    | exact keeps_modifyRegA _ _
    | (apply keeps_modifyFpuEq; intro; simp; done)
    | (apply keeps_modifyFpu; intro _ h; simp [h]; done)
    | split
    | dsimp only

@[simp] theorem keeps_fyl2xFinite (x y : Ext) (neg : Bool) : M.Keeps (fyl2xFinite x y neg) := by
  unfold fyl2xFinite
  repeat' first
    | with_reducible intro _
    | (with_reducible first | refine keeps_bind ?_ ?_ | refine keeps_ite ?_ ?_ | refine keeps_map ?_)
    | assumption
    | (simp [*]; done)
    | exact keeps_modify fun _ => .of_eq rfl rfl rfl rfl rfl rfl rfl rfl rfl rfl rfl rfl
    | exact keeps_readRm _ _
    | exact keeps_locRead _ _
    | exact keeps_modifyRegA _ _
    | (apply keeps_modifyFpuEq; intro; simp; done)
    | (apply keeps_modifyFpu; intro _ h; simp [h]; done)
    | split
    | dsimp only

@[simp] theorem keeps_fyl2xValue (x y : Ext) : M.Keeps (fyl2xValue x y) := by
  unfold fyl2xValue
  repeat' first
    | with_reducible intro _
    | (with_reducible first | refine keeps_bind ?_ ?_ | refine keeps_ite ?_ ?_ | refine keeps_map ?_)
    | assumption
    | (simp [*]; done)
    | exact keeps_modify fun _ => .of_eq rfl rfl rfl rfl rfl rfl rfl rfl rfl rfl rfl rfl
    | exact keeps_readRm _ _
    | exact keeps_locRead _ _
    | exact keeps_modifyRegA _ _
    | (apply keeps_modifyFpuEq; intro; simp; done)
    | (apply keeps_modifyFpu; intro _ h; simp [h]; done)
    | split
    | dsimp only

@[simp] theorem keeps_fyl2xp1Value (x y : Ext) : M.Keeps (fyl2xp1Value x y) := by
  unfold fyl2xp1Value
  repeat' first
    | with_reducible intro _
    | (with_reducible first | refine keeps_bind ?_ ?_ | refine keeps_ite ?_ ?_ | refine keeps_map ?_)
    | assumption
    | (simp [*]; done)
    | exact keeps_modify fun _ => .of_eq rfl rfl rfl rfl rfl rfl rfl rfl rfl rfl rfl rfl
    | exact keeps_readRm _ _
    | exact keeps_locRead _ _
    | exact keeps_modifyRegA _ _
    | (apply keeps_modifyFpuEq; intro; simp; done)
    | (apply keeps_modifyFpu; intro _ h; simp [h]; done)
    | split
    | dsimp only

/-! ## Mmx -/

@[simp] theorem keeps_mmxEntry : M.Keeps mmxEntry := by
  unfold mmxEntry
  repeat' first
    | with_reducible intro _
    | (with_reducible first | refine keeps_bind ?_ ?_ | refine keeps_ite ?_ ?_ | refine keeps_map ?_)
    | assumption
    | (simp [*]; done)
    | exact keeps_modify fun _ => .of_eq rfl rfl rfl rfl rfl rfl rfl rfl rfl rfl rfl rfl
    | exact keeps_readRm _ _
    | exact keeps_locRead _ _
    | exact keeps_modifyRegA _ _
    | (apply keeps_modifyFpuEq; intro; simp; done)
    | (apply keeps_modifyFpu; intro _ h; simp [h]; done)
    | split
    | dsimp only

@[simp] theorem keeps_mmxExit : M.Keeps mmxExit := by
  unfold mmxExit
  repeat' first
    | with_reducible intro _
    | (with_reducible first | refine keeps_bind ?_ ?_ | refine keeps_ite ?_ ?_ | refine keeps_map ?_)
    | assumption
    | (simp [*]; done)
    | exact keeps_modify fun _ => .of_eq rfl rfl rfl rfl rfl rfl rfl rfl rfl rfl rfl rfl
    | exact keeps_readRm _ _
    | exact keeps_locRead _ _
    | exact keeps_modifyRegA _ _
    | (apply keeps_modifyFpuEq; intro; simp; done)
    | (apply keeps_modifyFpu; intro _ h; simp [h]; done)
    | split
    | dsimp only

@[simp] theorem keeps_readMm (n : Nat) (m : MmRm) : M.Keeps (readMm n m) := by
  cases m
  · exact keeps_bind keeps_get fun _ => keeps_pure _
  · exact keeps_bind (keeps_readEa _ _ _) fun _ => keeps_pure _

@[simp] theorem keeps_mmxOp (n : Nat) (g : Qword → Qword → Qword) (d : Idx8) (src : MmRm) :
    M.Keeps (mmxOp n g d src) := by
  unfold mmxOp
  repeat' first
    | with_reducible intro _
    | (with_reducible first | refine keeps_bind ?_ ?_ | refine keeps_ite ?_ ?_ | refine keeps_map ?_)
    | assumption
    | (simp [*]; done)
    | exact keeps_modify fun _ => .of_eq rfl rfl rfl rfl rfl rfl rfl rfl rfl rfl rfl rfl
    | exact keeps_readRm _ _
    | exact keeps_locRead _ _
    | exact keeps_modifyRegA _ _
    | (apply keeps_modifyFpuEq; intro; simp; done)
    | (apply keeps_modifyFpu; intro _ h; simp [h]; done)
    | split
    | dsimp only

@[simp] theorem keeps_mmxShift (g : Qword → Nat → Qword) (f : MShift) : M.Keeps (mmxShift g f) := by
  unfold mmxShift
  repeat' first
    | with_reducible intro _
    | (with_reducible first | refine keeps_bind ?_ ?_ | refine keeps_ite ?_ ?_ | refine keeps_map ?_)
    | assumption
    | (simp [*]; done)
    | exact keeps_modify fun _ => .of_eq rfl rfl rfl rfl rfl rfl rfl rfl rfl rfl rfl rfl
    | exact keeps_readRm _ _
    | exact keeps_locRead _ _
    | exact keeps_modifyRegA _ _
    | (apply keeps_modifyFpuEq; intro; simp; done)
    | (apply keeps_modifyFpu; intro _ h; simp [h]; done)
    | split
    | dsimp only

@[simp] theorem keeps_emms : M.Keeps emms := by
  unfold emms
  repeat' first
    | with_reducible intro _
    | (with_reducible first | refine keeps_bind ?_ ?_ | refine keeps_ite ?_ ?_ | refine keeps_map ?_)
    | assumption
    | (simp [*]; done)
    | exact keeps_modify fun _ => .of_eq rfl rfl rfl rfl rfl rfl rfl rfl rfl rfl rfl rfl
    | exact keeps_readRm _ _
    | exact keeps_locRead _ _
    | exact keeps_modifyRegA _ _
    | (apply keeps_modifyFpuEq; intro; simp; done)
    | (apply keeps_modifyFpu; intro _ h; simp [h]; done)
    | split
    | dsimp only

@[simp] theorem keeps_movd (f : MovdForm) : M.Keeps (movd f) := by
  unfold movd
  repeat' first
    | with_reducible intro _
    | (with_reducible first | refine keeps_bind ?_ ?_ | refine keeps_ite ?_ ?_ | refine keeps_map ?_)
    | assumption
    | (simp [*]; done)
    | exact keeps_modify fun _ => .of_eq rfl rfl rfl rfl rfl rfl rfl rfl rfl rfl rfl rfl
    | exact keeps_readRm _ _
    | exact keeps_locRead _ _
    | exact keeps_modifyRegA _ _
    | (apply keeps_modifyFpuEq; intro; simp; done)
    | (apply keeps_modifyFpu; intro _ h; simp [h]; done)
    | split
    | dsimp only

@[simp] theorem keeps_movq (f : MovqForm) : M.Keeps (movq f) := by
  unfold movq
  repeat' first
    | with_reducible intro _
    | (with_reducible first | refine keeps_bind ?_ ?_ | refine keeps_ite ?_ ?_ | refine keeps_map ?_)
    | assumption
    | (simp [*]; done)
    | exact keeps_modify fun _ => .of_eq rfl rfl rfl rfl rfl rfl rfl rfl rfl rfl rfl rfl
    | exact keeps_readRm _ _
    | exact keeps_locRead _ _
    | exact keeps_modifyRegA _ _
    | (apply keeps_modifyFpuEq; intro; simp; done)
    | (apply keeps_modifyFpu; intro _ h; simp [h]; done)
    | split
    | dsimp only


end Sys2Proof.Machine
end

