-- ==== Sys2Proof/Laws/KeptStep.lean ====
section
/-! SUPPORT. Every instruction and every step keeps a legal state legal, and below level 0 the registers of level 0 as
they are. -/

namespace Sys2Proof.Machine

/-! ## Running -/

theorem kept_runM {m : M Unit} (hm : M.Keeps m) {s t : State} (h : run m s = .next t) : Kept s t := kept_run hm h
theorem kept_runLock {d : Rm} {m : M Unit} (hm : M.Keeps m) {s t : State} (h : runLock d m s = .next t) : Kept s t :=
  kept_run hm h
theorem kept_runAlu {op : BinOp} {f : AluForm} (ho : ∀ sz a b, M.Keeps (op sz a b)) {s t : State}
    (h : runAlu op f s = .next t) : Kept s t := kept_run (keeps_alu _ _ _ ho) h
theorem kept_latch {b : Bool} {p : Pfx} {s t : State} (h : latch b p s = .next t) : Kept s t := by
  unfold latch at h
  split at h
  · cases h
  · cases h; exact .of_eq rfl rfl rfl rfl rfl rfl rfl rfl rfl rfl rfl rfl
theorem kept_latchSeg {r : SReg} {s t : State} (h : latchSeg r s = .next t) : Kept s t := kept_latch h
theorem kept_runWaiting {m : M Unit} (hm : M.Keeps m) {s t : State} (h : runWaiting m s = .next t) : Kept s t := by
  unfold runWaiting at h
  split at h
  · exact kept_runM keeps_wait h
  · have hw := keeps_wait s
    cases hx : wait s with
    | ok a u =>
      rw [hx] at h hw
      dsimp only at h
      split at h
      · cases h
        exact hw.trans (.of_eq rfl rfl rfl rfl rfl rfl rfl rfl rfl rfl rfl rfl)
      · have h0 : Kept u { u with eip := s.eip + 1 } := .of_eq rfl rfl rfl rfl rfl rfl rfl rfl rfl rfl rfl rfl
        exact hw.trans (h0.trans (kept_runM hm h))
    | error e u =>
      rw [hx] at h
      exact kept_runM keeps_wait h

/-- Every instruction but the six that write the registers of level 0. -/
theorem kept_exec {i : Instr} (hi : writesSystem i = false) {s t : State} (h : exec i s = .next t) : Kept s t :=
  match i, hi, h with
| .reserved _, _, h => kept_takeExc h
  | .aad _, _, h => kept_runM (by simp) h
  | .aam _, _, h => kept_runM (by simp) h
  | .adc _, _, h => kept_runAlu (by simp) h
  | .add _, _, h => kept_runAlu (by simp) h
  | .and_ _, _, h => kept_runAlu (by simp) h
  | .arpl _ _, _, h => kept_runM (by simp) h
  | .bound _ _, _, h => kept_runM (by simp) h
  | .bsf _ _, _, h => kept_runM (by simp) h
  | .bsr _ _, _, h => kept_runM (by simp) h
  | .bswap _, _, h => kept_runM (by simp) h
  | .bt _, _, h => kept_runM (by simp) h
  | .btc _, _, h => kept_run (by simp) h
  | .btr _, _, h => kept_run (by simp) h
  | .bts _, _, h => kept_run (by simp) h
  | .call _, _, h => kept_runM (by simp) h
  | .cmovo _ _, _, h => kept_runM (by simp) h
  | .cmovno _ _, _, h => kept_runM (by simp) h
  | .cmovb _ _, _, h => kept_runM (by simp) h
  | .cmovae _ _, _, h => kept_runM (by simp) h
  | .cmove _ _, _, h => kept_runM (by simp) h
  | .cmovne _ _, _, h => kept_runM (by simp) h
  | .cmovbe _ _, _, h => kept_runM (by simp) h
  | .cmova _ _, _, h => kept_runM (by simp) h
  | .cmovs _ _, _, h => kept_runM (by simp) h
  | .cmovns _ _, _, h => kept_runM (by simp) h
  | .cmovp _ _, _, h => kept_runM (by simp) h
  | .cmovnp _ _, _, h => kept_runM (by simp) h
  | .cmovl _ _, _, h => kept_runM (by simp) h
  | .cmovge _ _, _, h => kept_runM (by simp) h
  | .cmovle _ _, _, h => kept_runM (by simp) h
  | .cmovg _ _, _, h => kept_runM (by simp) h
  | .cmp _, _, h => kept_runM (by simp) h
  | .cmps _, _, h => kept_run (by simp) h
  | .cmpxchg _ _ _, _, h => kept_runLock (by simp) h
  | .cmpxchg8b _, _, h => kept_runLock (by simp) h
  | .dec _, _, h => kept_run (by simp) h
  | .div _ _, _, h => kept_runM (by simp) h
  | .enter _ _, _, h => kept_runM (by simp) h
  | .fadd _, _, h => kept_runM (by simp) h
  | .faddp _, _, h => kept_runM (by simp) h
  | .fiadd _, _, h => kept_runM (by simp) h
  | .fbld _, _, h => kept_runM (by simp) h
  | .fbstp _, _, h => kept_runM (by simp) h
  | .fcmovb _, _, h => kept_runM (by simp) h
  | .fcmove _, _, h => kept_runM (by simp) h
  | .fcmovbe _, _, h => kept_runM (by simp) h
  | .fcmovu _, _, h => kept_runM (by simp) h
  | .fcmovnb _, _, h => kept_runM (by simp) h
  | .fcmovne _, _, h => kept_runM (by simp) h
  | .fcmovnbe _, _, h => kept_runM (by simp) h
  | .fcmovnu _, _, h => kept_runM (by simp) h
  | .fcom _, _, h => kept_runM (by simp) h
  | .fcomp _, _, h => kept_runM (by simp) h
  | .fcomi _, _, h => kept_runM (by simp) h
  | .fcomip _, _, h => kept_runM (by simp) h
  | .fucomi _, _, h => kept_runM (by simp) h
  | .fucomip _, _, h => kept_runM (by simp) h
  | .fdiv _, _, h => kept_runM (by simp) h
  | .fdivp _, _, h => kept_runM (by simp) h
  | .fidiv _, _, h => kept_runM (by simp) h
  | .fdivr _, _, h => kept_runM (by simp) h
  | .fdivrp _, _, h => kept_runM (by simp) h
  | .fidivr _, _, h => kept_runM (by simp) h
  | .ffree _, _, h => kept_runM (by simp) h
  | .ficom _, _, h => kept_runM (by simp) h
  | .ficomp _, _, h => kept_runM (by simp) h
  | .fild _, _, h => kept_runM (by simp) h
  | .fist _, _, h => kept_runM (by simp) h
  | .fistp _, _, h => kept_runM (by simp) h
  | .fld _, _, h => kept_runM (by simp) h
  | .fldcw _, _, h => kept_runM (by simp) h
  | .fldenv _, _, h => kept_runM (by simp) h
  | .fmul _, _, h => kept_runM (by simp) h
  | .fmulp _, _, h => kept_runM (by simp) h
  | .fimul _, _, h => kept_runM (by simp) h
  | .frstor _, _, h => kept_runM (by simp) h
  | .fsave _, _, h => kept_runWaiting (by simp) h
  | .fnsave _, _, h => kept_runM (by simp) h
  | .fst _, _, h => kept_runM (by simp) h
  | .fstp _, _, h => kept_runM (by simp) h
  | .fstcw _, _, h => kept_runWaiting (by simp) h
  | .fnstcw _, _, h => kept_runM (by simp) h
  | .fstenv _, _, h => kept_runWaiting (by simp) h
  | .fnstenv _, _, h => kept_runM (by simp) h
  | .fstsw _, _, h => kept_runWaiting (by simp) h
  | .fnstsw _, _, h => kept_runM (by simp) h
  | .fsub _, _, h => kept_runM (by simp) h
  | .fsubp _, _, h => kept_runM (by simp) h
  | .fisub _, _, h => kept_runM (by simp) h
  | .fsubr _, _, h => kept_runM (by simp) h
  | .fsubrp _, _, h => kept_runM (by simp) h
  | .fisubr _, _, h => kept_runM (by simp) h
  | .fucom _, _, h => kept_runM (by simp) h
  | .fucomp _, _, h => kept_runM (by simp) h
  | .fxch _, _, h => kept_runM (by simp) h
  | .idiv _ _, _, h => kept_runM (by simp) h
  | .imul _, _, h => kept_runM (by simp) h
  | .inp _ _, _, h => kept_runM (by simp) h
  | .inc _, _, h => kept_run (by simp) h
  | .ins _, _, h => kept_run (by simp) h
  | .intN _, _, h => kept_runM (by simp) h
  | .invlpg _, _, h => kept_runM (by simp) h
  | .jo _, _, h => kept_runM (by simp) h
  | .jno _, _, h => kept_runM (by simp) h
  | .jb _, _, h => kept_runM (by simp) h
  | .jae _, _, h => kept_runM (by simp) h
  | .je _, _, h => kept_runM (by simp) h
  | .jne _, _, h => kept_runM (by simp) h
  | .jbe _, _, h => kept_runM (by simp) h
  | .ja _, _, h => kept_runM (by simp) h
  | .js _, _, h => kept_runM (by simp) h
  | .jns _, _, h => kept_runM (by simp) h
  | .jp _, _, h => kept_runM (by simp) h
  | .jnp _, _, h => kept_runM (by simp) h
  | .jl _, _, h => kept_runM (by simp) h
  | .jge _, _, h => kept_runM (by simp) h
  | .jle _, _, h => kept_runM (by simp) h
  | .jg _, _, h => kept_runM (by simp) h
  | .jcxz _, _, h => kept_runM (by simp) h
  | .jecxz _, _, h => kept_runM (by simp) h
  | .jmp _, _, h => kept_runM (by simp) h
  | .lar _ _, _, h => kept_runM (by simp) h
  | .lds _ _, _, h => kept_runM (by simp) h
  | .les _ _, _, h => kept_runM (by simp) h
  | .lss _ _, _, h => kept_runM (by simp) h
  | .lfs _ _, _, h => kept_runM (by simp) h
  | .lgs _ _, _, h => kept_runM (by simp) h
  | .lea _ _, _, h => kept_runM (by simp) h
  | .lgdt _, hi, _ => by cases hi
  | .lidt _, hi, _ => by cases hi
  | .lldt _, _, h => kept_runM (by simp) h
  | .lmsw _, hi, _ => by cases hi
  | .lods _, _, h => kept_run (by simp) h
  | .loop _, _, h => kept_runM (by simp) h
  | .loope _, _, h => kept_runM (by simp) h
  | .loopne _, _, h => kept_runM (by simp) h
  | .lsl _ _, _, h => kept_runM (by simp) h
  | .ltr _, _, h => kept_runM (by simp) h
  | .mov _, _, h => kept_runM (by simp) h
  | .movSreg _, _, h => kept_runM (by simp) h
  | .movCr _, hi, _ => by cases hi
  | .movDr _, hi, _ => by cases hi
  | .movd _, _, h => kept_runM (by simp) h
  | .movq _, _, h => kept_runM (by simp) h
  | .movs _, _, h => kept_run (by simp) h
  | .movsx _ _ _, _, h => kept_runM (by simp) h
  | .movzx _ _ _, _, h => kept_runM (by simp) h
  | .mul _ _, _, h => kept_runM (by simp) h
  | .neg _ _, _, h => kept_runLock (by simp) h
  | .not_ _ _, _, h => kept_runLock (by simp) h
  | .or_ _, _, h => kept_runAlu (by simp) h
  | .outp _ _, _, h => kept_runM (by simp) h
  | .outs _, _, h => kept_run (by simp) h
  | .packsswb _ _, _, h => kept_runM (by simp) h
  | .packssdw _ _, _, h => kept_runM (by simp) h
  | .packuswb _ _, _, h => kept_runM (by simp) h
  | .paddb _ _, _, h => kept_runM (by simp) h
  | .paddw _ _, _, h => kept_runM (by simp) h
  | .paddd _ _, _, h => kept_runM (by simp) h
  | .paddsb _ _, _, h => kept_runM (by simp) h
  | .paddsw _ _, _, h => kept_runM (by simp) h
  | .paddusb _ _, _, h => kept_runM (by simp) h
  | .paddusw _ _, _, h => kept_runM (by simp) h
  | .pand _ _, _, h => kept_runM (by simp) h
  | .pandn _ _, _, h => kept_runM (by simp) h
  | .pcmpeqb _ _, _, h => kept_runM (by simp) h
  | .pcmpeqw _ _, _, h => kept_runM (by simp) h
  | .pcmpeqd _ _, _, h => kept_runM (by simp) h
  | .pcmpgtb _ _, _, h => kept_runM (by simp) h
  | .pcmpgtw _ _, _, h => kept_runM (by simp) h
  | .pcmpgtd _ _, _, h => kept_runM (by simp) h
  | .pmaddwd _ _, _, h => kept_runM (by simp) h
  | .pmulhw _ _, _, h => kept_runM (by simp) h
  | .pmullw _ _, _, h => kept_runM (by simp) h
  | .por _ _, _, h => kept_runM (by simp) h
  | .psllw _, _, h => kept_runM (by simp) h
  | .pslld _, _, h => kept_runM (by simp) h
  | .psllq _, _, h => kept_runM (by simp) h
  | .psraw _, _, h => kept_runM (by simp) h
  | .psrad _, _, h => kept_runM (by simp) h
  | .psrlw _, _, h => kept_runM (by simp) h
  | .psrld _, _, h => kept_runM (by simp) h
  | .psrlq _, _, h => kept_runM (by simp) h
  | .psubb _ _, _, h => kept_runM (by simp) h
  | .psubw _ _, _, h => kept_runM (by simp) h
  | .psubd _ _, _, h => kept_runM (by simp) h
  | .psubsb _ _, _, h => kept_runM (by simp) h
  | .psubsw _ _, _, h => kept_runM (by simp) h
  | .psubusb _ _, _, h => kept_runM (by simp) h
  | .psubusw _ _, _, h => kept_runM (by simp) h
  | .punpckhbw _ _, _, h => kept_runM (by simp) h
  | .punpckhwd _ _, _, h => kept_runM (by simp) h
  | .punpckhdq _ _, _, h => kept_runM (by simp) h
  | .punpcklbw _ _, _, h => kept_runM (by simp) h
  | .punpcklwd _ _, _, h => kept_runM (by simp) h
  | .punpckldq _ _, _, h => kept_runM (by simp) h
  | .pxor _ _, _, h => kept_runM (by simp) h
  | .pop _, _, h => kept_runM (by simp) h
  | .push _, _, h => kept_runM (by simp) h
  | .rol _, _, h => kept_runM (by simp) h
  | .ror _, _, h => kept_runM (by simp) h
  | .rcl _, _, h => kept_runM (by simp) h
  | .rcr _, _, h => kept_runM (by simp) h
  | .ret _, _, h => kept_runM (by simp) h
  | .salShl _, _, h => kept_runM (by simp) h
  | .shr _, _, h => kept_runM (by simp) h
  | .sar _, _, h => kept_runM (by simp) h
  | .sbb _, _, h => kept_runAlu (by simp) h
  | .scas _, _, h => kept_run (by simp) h
  | .seto _, _, h => kept_runM (by simp) h
  | .setno _, _, h => kept_runM (by simp) h
  | .setb _, _, h => kept_runM (by simp) h
  | .setae _, _, h => kept_runM (by simp) h
  | .sete _, _, h => kept_runM (by simp) h
  | .setne _, _, h => kept_runM (by simp) h
  | .setbe _, _, h => kept_runM (by simp) h
  | .seta _, _, h => kept_runM (by simp) h
  | .sets _, _, h => kept_runM (by simp) h
  | .setns _, _, h => kept_runM (by simp) h
  | .setp _, _, h => kept_runM (by simp) h
  | .setnp _, _, h => kept_runM (by simp) h
  | .setl _, _, h => kept_runM (by simp) h
  | .setge _, _, h => kept_runM (by simp) h
  | .setle _, _, h => kept_runM (by simp) h
  | .setg _, _, h => kept_runM (by simp) h
  | .sgdt _, _, h => kept_runM (by simp) h
  | .sidt _, _, h => kept_runM (by simp) h
  | .shld _, _, h => kept_runM (by simp) h
  | .shrd _, _, h => kept_runM (by simp) h
  | .sldt _, _, h => kept_runM (by simp) h
  | .smsw _, _, h => kept_runM (by simp) h
  | .stos _, _, h => kept_run (by simp) h
  | .str _, _, h => kept_runM (by simp) h
  | .sub _, _, h => kept_runAlu (by simp) h
  | .test _, _, h => kept_runM (by simp) h
  | .verr _, _, h => kept_runM (by simp) h
  | .verw _, _, h => kept_runM (by simp) h
  | .xadd _ _ _, _, h => kept_runLock (by simp) h
  | .xchg _, _, h => kept_run (by simp) h
  | .xor_ _, _, h => kept_runAlu (by simp) h
  | .segCs, _, h => kept_latchSeg h
  | .segSs, _, h => kept_latchSeg h
  | .segDs, _, h => kept_latchSeg h
  | .segEs, _, h => kept_latchSeg h
  | .segFs, _, h => kept_latchSeg h
  | .segGs, _, h => kept_latchSeg h
  | .opSize, _, h => kept_latch h
  | .adSize, _, h => kept_latch h
  | .lock, _, h => kept_latch h
  | .rep, _, h => kept_latch h
  | .repne, _, h => kept_latch h
  | .invalidOpcode, _, h => kept_takeExc h
  | .aaa, _, h => kept_runM (by simp) h
  | .aas, _, h => kept_runM (by simp) h
  | .cbw, _, h => kept_runM (by simp) h
  | .cwde, _, h => kept_runM (by simp) h
  | .clc, _, h => kept_runM (by simp) h
  | .cld, _, h => kept_runM (by simp) h
  | .cli, _, h => kept_runM (by simp) h
  | .clts, _, h => kept_runM (by simp) h
  | .cmc, _, h => kept_runM (by simp) h
  | .cpuid, _, h => kept_runM (by simp) h
  | .cwd, _, h => kept_runM (by simp) h
  | .cdq, _, h => kept_runM (by simp) h
  | .daa, _, h => kept_runM (by simp) h
  | .das, _, h => kept_runM (by simp) h
  | .emms, _, h => kept_runM (by simp) h
  | .f2xm1, _, h => kept_runM (by simp) h
  | .fabs, _, h => kept_runM (by simp) h
  | .fchs, _, h => kept_runM (by simp) h
  | .fclex, _, h => kept_runWaiting (by simp) h
  | .fnclex, _, h => kept_runM (by simp) h
  | .fcompp, _, h => kept_runM (by simp) h
  | .fcos, _, h => kept_runM (by simp) h
  | .fdecstp, _, h => kept_runM (by simp) h
  | .fincstp, _, h => kept_runM (by simp) h
  | .finit, _, h => kept_runWaiting (by simp) h
  | .fninit, _, h => kept_runM (by simp) h
  | .fld1, _, h => kept_runM (by simp) h
  | .fldl2t, _, h => kept_runM (by simp) h
  | .fldl2e, _, h => kept_runM (by simp) h
  | .fldpi, _, h => kept_runM (by simp) h
  | .fldlg2, _, h => kept_runM (by simp) h
  | .fldln2, _, h => kept_runM (by simp) h
  | .fldz, _, h => kept_runM (by simp) h
  | .fnop, _, h => kept_runM (by simp) h
  | .fpatan, _, h => kept_runM (by simp) h
  | .fprem, _, h => kept_runM (by simp) h
  | .fprem1, _, h => kept_runM (by simp) h
  | .fptan, _, h => kept_runM (by simp) h
  | .frndint, _, h => kept_runM (by simp) h
  | .fscale, _, h => kept_runM (by simp) h
  | .fsin, _, h => kept_runM (by simp) h
  | .fsincos, _, h => kept_runM (by simp) h
  | .fsqrt, _, h => kept_runM (by simp) h
  | .ftst, _, h => kept_runM (by simp) h
  | .fucompp, _, h => kept_runM (by simp) h
  | .fxam, _, h => kept_runM (by simp) h
  | .fxtract, _, h => kept_runM (by simp) h
  | .fyl2x, _, h => kept_runM (by simp) h
  | .fyl2xp1, _, h => kept_runM (by simp) h
  | .hlt, _, h => kept_runM (by simp) h
  | .int3, _, h => kept_runM (by simp) h
  | .into, _, h => kept_runM (by simp) h
  | .invd, _, h => kept_runM (by simp) h
  | .iret, _, h => kept_runM (by simp) h
  | .iretd, _, h => kept_runM (by simp) h
  | .lahf, _, h => kept_runM (by simp) h
  | .leave, _, h => kept_runM (by simp) h
  | .nop, _, h => kept_runM (by simp) h
  | .popa, _, h => kept_runM (by simp) h
  | .popad, _, h => kept_runM (by simp) h
  | .popf, _, h => kept_runM (by simp) h
  | .popfd, _, h => kept_runM (by simp) h
  | .pusha, _, h => kept_runM (by simp) h
  | .pushad, _, h => kept_runM (by simp) h
  | .pushf, _, h => kept_runM (by simp) h
  | .pushfd, _, h => kept_runM (by simp) h
  | .rdmsr, _, h => kept_runM (by simp) h
  | .rdpmc, _, h => kept_runM (by simp) h
  | .rdtsc, _, h => kept_runM (by simp) h
  | .rsm, _, h => kept_takeExc h
  | .sahf, _, h => kept_runM (by simp) h
  | .stc, _, h => kept_runM (by simp) h
  | .std, _, h => kept_runM (by simp) h
  | .sti, _, h => kept_runM (by simp) h
  | .ud2, _, h => kept_takeExc h
  | .wait, _, h => kept_runM (by simp) h
  | .wbinvd, _, h => kept_runM (by simp) h
  | .wrmsr, hi, _ => by cases hi
  | .xlat, _, h => kept_runM (by simp) h

/-! ## The instructions that write the registers of level 0 -/

/-- A legal state stays legal; below level 0 the registers of level 0 stay. -/
structure Guarded (s t : State) : Prop where
  legal : s.Legal → t.Legal
  same : s.curPl ≠ 0 → s.SameSystem t

theorem Kept.guarded {s t : State} (h : Kept s t) : Guarded s t := ⟨h.legal, fun _ => h.same⟩

theorem State.SameSystem.trans {a b c : State} (h : a.SameSystem b) (k : b.SameSystem c) : a.SameSystem c :=
  ⟨k.gdtr.trans h.gdtr, k.idtr.trans h.idtr, k.cr0.trans h.cr0, k.cr4.trans h.cr4, k.dr0.trans h.dr0,
   k.dr1.trans h.dr1, k.dr2.trans h.dr2, k.dr3.trans h.dr3, k.msrs.trans h.msrs⟩

theorem Guarded.kept {s t u : State} (h : Guarded s t) (k : Kept t u) : Guarded s u :=
  ⟨fun l => k.legal (h.legal l), fun c => (h.same c).trans k.same⟩

/-- The end of a meaning, from what is known of it on this state. -/
theorem guarded_run {m : M Unit} {s t : State} (hm : Guarded s (resultState (m s))) (h : run m s = .next t) :
    Guarded s t := by
  unfold run runWith at h
  split at h
  · exact (kept_takeExc h).guarded
  · split at h
    · cases hx : m s with
      | ok a u =>
        rw [hx] at h hm
        cases h
        have h0 : Kept u { u with eip := u.npc } := .of_eq rfl rfl rfl rfl rfl rfl rfl rfl rfl rfl rfl rfl
        exact hm.kept h0
      | error e u =>
        rw [hx] at h hm
        cases e with
        | exc e => exact ((kept_rollback s u).trans (kept_takeExc h)).guarded
        | excKeep e => exact hm.kept ((Kept.of_retired u).trans (kept_takeExc h))
        | shutdown =>
          cases h
          refine Kept.guarded (Kept.trans (kept_rollback s u) ?_)
          exact .of_eq rfl rfl rfl rfl rfl rfl rfl rfl rfl rfl rfl rfl
        | freeze =>
          cases h
          refine Kept.guarded (Kept.trans (kept_rollback s u) ?_)
          exact .of_eq rfl rfl rfl rfl rfl rfl rfl rfl rfl rfl rfl rfl
        | software v => exact hm.kept (kept_takeEvent _ _ _ _ h)
        | refuse r => cases h
    · cases h

theorem privileged_stops {s : State} (h : s.curPl ≠ 0) : privileged s = .error (.exc (.gp 0)) s := by
  unfold privileged
  simp [h]

theorem privileged_passes {s : State} (h : s.curPl = 0) : privileged s = .ok () s := by
  unfold privileged
  simp [h]

/-- A meaning that begins with the privilege check. -/
theorem guarded_privileged {f : Unit → M Unit} {s : State} (h : s.Legal → (resultState (f () s)).Legal) :
    Guarded s (resultState ((privileged >>= f) s)) := by
  rw [M.bind_run]
  by_cases hc : s.curPl = 0
  · rw [privileged_passes hc]
    exact ⟨h, fun c => absurd hc c⟩
  · rw [privileged_stops hc]
    exact (Kept.refl s).guarded

/-- What a meaning keeps after a part that keeps everything, where the part does not run below level 0. -/
theorem legal_bind {α : Type} {m : M α} {f : α → M Unit} (hm : M.Keeps m)
    (hf : ∀ a s, s.Legal → (resultState (f a s)).Legal) (s : State) (l : s.Legal) :
    (resultState ((m >>= f) s)).Legal := by
  have hk := (hm s).legal l
  rw [M.bind_run]
  cases hx : m s with
  | ok a t => rw [hx] at hk; exact hf a t hk
  | error e t => rw [hx] at hk; exact hk

theorem legal_of_keeps {m : M Unit} (hm : M.Keeps m) (s : State) (l : s.Legal) : (resultState (m s)).Legal :=
  (hm s).legal l

theorem readTable_stops {s : State} (m : Rm) (h : s.curPl ≠ 0) : ∃ e, readTable m s = .error e s := by
  cases m with
  | reg r => exact ⟨_, rfl⟩
  | mem a =>
    refine ⟨.exc (.gp 0), ?_⟩
    unfold readTable needMem
    rw [M.bind_run]
    simp only [M.pure_run]
    rw [M.bind_run, privileged_stops h]

theorem guarded_table {m : Rm} {f : TableReg → M Unit} (hf : ∀ a s, s.Legal → (resultState (f a s)).Legal) (s : State) :
    Guarded s (resultState ((readTable m >>= f) s)) := by
  refine ⟨legal_bind (keeps_readTable m) hf s, fun c => ?_⟩
  obtain ⟨e, he⟩ := readTable_stops m c
  rw [M.bind_run, he]
  exact (Kept.refl s).same

theorem guarded_lgdt (m : Rm) (s : State) : Guarded s (resultState (lgdt m s)) := by
  unfold lgdt
  exact guarded_table
    (fun _ _ l => by
      rw [M.modify_run]; exact ⟨l.memory, l.msrs, l.paging, l.caching, l.et, l.cr4, l.dr7, l.cw⟩) s
theorem guarded_lidt (m : Rm) (s : State) : Guarded s (resultState (lidt m s)) := by
  unfold lidt
  exact guarded_table
    (fun _ _ l => by
      rw [M.modify_run]; exact ⟨l.memory, l.msrs, l.paging, l.caching, l.et, l.cr4, l.dr7, l.cw⟩) s

theorem getLsbD_mask (v w m : Dword) (i : Nat) (hi : i < 32) :
    ((v &&& m) ||| (w &&& ~~~m)).getLsbD i = if m.getLsbD i then v.getLsbD i else w.getLsbD i := by
  simp only [BitVec.getLsbD_or, BitVec.getLsbD_and, BitVec.getLsbD_not, hi, decide_true, Bool.true_and]
  cases m.getLsbD i <;> simp

theorem legal_setCr0 (v : Dword) (s : State) (l : s.Legal) : (resultState (setCr0 v s)).Legal := by
  unfold setCr0
  rw [M.bind_run, raiseIf_run]
  split
  · rename_i h
    split at h
    · cases h
    · rename_i hc
      cases h
      rw [M.bind_run, M.get_run]
      dsimp only
      generalize hn : (v &&& cr0Mask) ||| (s.cr0 &&& ~~~cr0Mask) = new
      have hb : ∀ i, i < 32 → new.getLsbD i = if cr0Mask.getLsbD i then v.getLsbD i else s.cr0.getLsbD i := by
        intro i hi; rw [← hn]; exact getLsbD_mask _ _ _ _ hi
      have b31 := hb 31 (by decide)
      have b30 := hb 30 (by decide)
      have b29 := hb 29 (by decide)
      have b0 := hb 0 (by decide)
      have b4 := hb 4 (by decide)
      rw [show cr0Mask.getLsbD 31 = true by decide, if_pos rfl] at b31
      rw [show cr0Mask.getLsbD 30 = true by decide, if_pos rfl] at b30
      rw [show cr0Mask.getLsbD 29 = true by decide, if_pos rfl] at b29
      rw [show cr0Mask.getLsbD 0 = true by decide, if_pos rfl] at b0
      rw [show cr0Mask.getLsbD 4 = false by decide, if_neg (by decide)] at b4
      have hp : new.getLsbD 31 = true → new.getLsbD 0 = true := by
        rw [b31, b0]; intro h; cases h0 : v.getLsbD 0 <;> simp_all
      have hq : new.getLsbD 29 = true → new.getLsbD 30 = true := by
        rw [b29, b30]; intro h; cases h0 : v.getLsbD 30 <;> simp_all
      have he : new.getLsbD 4 = true := by rw [b4]; exact l.et
      have hk : ∀ t : State, t.Legal → (resultState ((do
          modify fun s : State => { s with cr0 := new }
          if (s.cr4Pae && !s.cr0Pg && new.getLsbD 31) = true then loadPdptes else pure () : M Unit) t)).Legal := by
        intro t lt
        rw [M.bind_run, M.modify_run]
        exact legal_of_keeps (keeps_ite keeps_loadPdptes (keeps_pure _)) _
          ⟨lt.memory, lt.msrs, hp, hq, he, lt.cr4, lt.dr7, lt.cw⟩
      rw [M.ite_run]
      split
      · exact hk s l
      · exact legal_bind keeps_flushTlbAll (fun _ t lt => hk t lt) s l
  · rename_i h
    split at h
    · cases h; exact l
    · cases h

theorem legal_setCr4 (v : Dword) (s : State) (l : s.Legal) : (resultState (setCr4 v s)).Legal := by
  unfold setCr4
  rw [M.bind_run, raiseIf_run]
  split
  · rename_i h
    split at h
    · cases h
    · rename_i hc
      cases h
      rw [M.ite_run]
      split
      · exact l
      · rename_i hv
        have h4 : v &&& 0xFFFFFE03#32 = 0#32 := by
          have h1 : v.extractLsb' 9 23 = 0#23 := by simpa using hc
          have h2 : v.extractLsb' 0 2 = 0#2 := by simpa using hv
          apply BitVec.eq_of_getLsbD_eq
          intro i hi
          have e1 := congrArg (fun x => x.getLsbD (i - 9)) h1
          have e2 := congrArg (fun x => x.getLsbD i) h2
          simp only [BitVec.getLsbD_extractLsb', BitVec.getLsbD_zero, BitVec.getLsbD_and] at e1 e2 ⊢
          by_cases c1 : 9 ≤ i
          · rw [show 9 + (i - 9) = i by omega, decide_eq_true (show i - 9 < 23 by omega)] at e1
            simp only [Bool.true_and] at e1
            rw [e1]; rfl
          · by_cases c2 : i < 2
            · rw [decide_eq_true c2, Nat.zero_add] at e2
              simp only [Bool.true_and] at e2
              rw [e2]; rfl
            · have : ∀ j : Fin 9, 2 ≤ j.val → (0xFFFFFE03#32).getLsbD j.val = false := by decide
              rw [this ⟨i, by omega⟩ (show 2 ≤ i by omega), Bool.and_false]
        rw [M.bind_run, M.get_run]
        dsimp only
        have hk : ∀ t : State, t.Legal → (resultState ((do
            modify fun s : State => { s with cr4 := v }
            if (s.cr0Pg && !s.cr4Pae && v.getLsbD 5) = true then loadPdptes else pure () : M Unit) t)).Legal := by
          intro t lt
          rw [M.bind_run, M.modify_run]
          exact legal_of_keeps (keeps_ite keeps_loadPdptes (keeps_pure _)) _
            ⟨lt.memory, lt.msrs, lt.paging, lt.caching, lt.et, h4, lt.dr7, lt.cw⟩
        rw [M.ite_run]
        split
        · exact hk s l
        · exact legal_bind keeps_flushTlbAll (fun _ t lt => hk t lt) s l
  · rename_i h
    split at h
    · cases h; exact l
    · cases h

theorem legal_setControlReg (n : Idx8) (v : Dword) (s : State) (l : s.Legal) :
    (resultState (setControlReg n v s)).Legal := by
  cases n
  · exact legal_setCr0 v s l
  · exact l
  · exact ⟨l.memory, l.msrs, l.paging, l.caching, l.et, l.cr4, l.dr7, l.cw⟩
  · exact legal_of_keeps (keeps_setCr3 v) s l
  · exact legal_setCr4 v s l
  · exact l
  · exact l
  · exact l

/-- A guarded part, then one that keeps everything. -/
theorem guarded_then {m : M Unit} {k : M Unit} {s : State} (hm : Guarded s (resultState (m s))) (hk : M.Keeps k) :
    Guarded s (resultState ((m >>= fun _ => k) s)) := by
  rw [M.bind_run]
  cases hx : m s with
  | ok a t => rw [hx] at hm; exact hm.kept (hk t)
  | error e t => rw [hx] at hm; exact hm

/-- A check, then a guarded part. -/
theorem guarded_check {α : Type} {m : M α} {k : α → M Unit} {s : State}
    (hm : (∃ e, m s = .error e s) ∨ ∃ a, m s = .ok a s) (hk : ∀ a, Guarded s (resultState (k a s))) :
    Guarded s (resultState ((m >>= k) s)) := by
  rw [M.bind_run]
  obtain ⟨e, h⟩ | ⟨a, h⟩ := hm
  · rw [h]; exact (Kept.refl s).guarded
  · rw [h]; exact hk a

theorem raiseIf_or (c : Bool) (e : Exc) (s : State) :
    (∃ x, raiseIf c e s = .error x s) ∨ ∃ a, raiseIf c e s = .ok a s := by
  cases c
  · exact .inr ⟨(), rfl⟩
  · exact .inl ⟨_, rfl⟩

theorem guarded_movCr (f : MovSysForm) (s : State) : Guarded s (resultState (movCr f s)) := by
  unfold movCr
  cases f with
  | fromSys d n =>
    refine (Kept.guarded ?_)
    refine keeps_bind keeps_get (fun u => ?_) s
    cases u.controlReg n with
    | none => exact keeps_raise _
    | some v =>
      exact keeps_bind (m := privileged) keeps_privileged fun _ =>
        keeps_bind (keeps_setReg .d _ _) fun _ => keeps_divFlags
  | toSys n r =>
    dsimp only
    rw [M.bind_run, M.get_run]
    dsimp only
    refine guarded_check (raiseIf_or _ _ _) fun _ => ?_
    refine guarded_privileged fun l => ?_
    rw [M.bind_run, M.get_run]
    dsimp only
    rw [M.bind_run]
    have h := legal_setControlReg n (s.gpr.get r) s l
    cases hx : setControlReg n (s.gpr.get r) s with
    | ok a t => rw [hx] at h; exact legal_of_keeps keeps_divFlags t h
    | error e t => rw [hx] at h; exact h
  | badMod w m => exact (Kept.refl s).guarded

theorem guarded_lmsw (src : Rm) (s : State) : Guarded s (resultState (lmsw src s)) := by
  unfold lmsw
  refine guarded_privileged fun l => ?_
  refine legal_bind (keeps_readWord src) (fun x t lt => ?_) s l
  generalize hv : x.setWidth 32 &&& 0xF#32 = v
  have hb : ∀ i, 4 ≤ i → v.getLsbD i = false := by
    intro i hi
    rw [← hv, BitVec.getLsbD_and]
    by_cases h32 : i < 32
    · have : ∀ j : Fin 32, 4 ≤ j.val → (0xF#32).getLsbD j.val = false := by decide
      rw [this ⟨i, h32⟩ hi, Bool.and_false]
    · rw [BitVec.getLsbD_of_ge (0xF#32) i (by omega), Bool.and_false]
  have hk : ∀ u : State, u.Legal → (resultState ((modify fun s : State =>
      { s with cr0 := (s.cr0 &&& 0xFFFFFFF1#32) ||| v } : M Unit) u)).Legal := by
    intro u lu
    rw [M.modify_run]
    have hn : ∀ i, 4 ≤ i → i < 32 → ((u.cr0 &&& 0xFFFFFFF1#32) ||| v).getLsbD i = u.cr0.getLsbD i := by
      intro i h4 h32
      have : ∀ j : Fin 32, 4 ≤ j.val → (0xFFFFFFF1#32).getLsbD j.val = true := by decide
      rw [BitVec.getLsbD_or, BitVec.getLsbD_and, hb i h4, this ⟨i, h32⟩ h4, Bool.and_true, Bool.or_false]
    have h0 : u.cr0.getLsbD 0 = true → ((u.cr0 &&& 0xFFFFFFF1#32) ||| v).getLsbD 0 = true := by
      intro h
      rw [BitVec.getLsbD_or, BitVec.getLsbD_and, h]
      rfl
    refine ⟨lu.memory, lu.msrs, ?_, ?_, ?_, lu.cr4, lu.dr7, lu.cw⟩
    · intro h
      exact h0 (lu.paging (by rw [← hn 31 (by decide) (by decide)]; exact h))
    · intro h
      show ((u.cr0 &&& 0xFFFFFFF1#32) ||| v).getLsbD 30 = true
      rw [hn 30 (by decide) (by decide)]
      exact lu.caching (by rw [← hn 29 (by decide) (by decide)]; exact h)
    · show ((u.cr0 &&& 0xFFFFFFF1#32) ||| v).getLsbD 4 = true
      rw [hn 4 (by decide) (by decide)]
      exact lu.et
  rw [M.bind_run, M.get_run]
  dsimp only
  rw [M.ite_run]
  split
  · exact legal_bind keeps_flushTlbAll (fun _ t lt => hk t lt) t lt
  · exact hk t lt

theorem dr7Of_reserved (v : Dword) : dr7Of v &&& 0x0000DC00#32 = 0x00000400#32 := by
  unfold dr7Of
  apply BitVec.eq_of_getLsbD_eq
  intro i hi
  rw [BitVec.getLsbD_and, BitVec.getLsbD_or, BitVec.getLsbD_and]
  have : ∀ j : Fin 32, ∀ b : Bool, ((b && (0xFFFF23FF#32).getLsbD j.val || (0x00000400#32).getLsbD j.val) &&
      (0x0000DC00#32).getLsbD j.val) = (0x00000400#32).getLsbD j.val := by decide
  exact this ⟨i, hi⟩ _

theorem legal_setDebugReg (n : Idx8) (v : Dword) (s : State) (l : s.Legal) : (s.setDebugReg n v).Legal := by
  cases n <;> first
    | exact ⟨l.memory, l.msrs, l.paging, l.caching, l.et, l.cr4, l.dr7, l.cw⟩
    | exact ⟨l.memory, l.msrs, l.paging, l.caching, l.et, l.cr4, dr7Of_reserved v, l.cw⟩

theorem debugCheck_or (n : Idx8) (s : State) :
    (∃ e, debugCheck n s = .error e s) ∨ debugCheck n s = .ok () s ∧ s.curPl = 0 := by
  unfold debugCheck
  rw [M.bind_run, M.get_run]
  dsimp only
  rw [M.bind_run, raiseIf_run]
  split
  · rename_i h
    split at h
    · cases h
    · cases h
      rw [M.bind_run]
      by_cases hc : s.curPl = 0
      · rw [privileged_passes hc]
        dsimp only
        rw [raiseIf_run]
        split
        · exact .inl ⟨_, rfl⟩
        · exact .inr ⟨rfl, hc⟩
      · rw [privileged_stops hc]
        exact .inl ⟨_, rfl⟩
  · rename_i h
    split at h
    · cases h; exact .inl ⟨_, rfl⟩
    · cases h

theorem guarded_movDr (f : MovSysForm) (s : State) : Guarded s (resultState (movDr f s)) := by
  unfold movDr
  cases f with
  | fromSys d n =>
    exact Kept.guarded ((keeps_bind (keeps_debugCheck n) fun _ => keeps_bind keeps_get fun _ =>
      keeps_bind (keeps_setReg _ _ _) fun _ => keeps_divFlags) s)
  | toSys n r =>
    dsimp only
    rw [M.bind_run]
    obtain ⟨e, he⟩ | ⟨he, hc⟩ := debugCheck_or n s
    · rw [he]; exact (Kept.refl s).guarded
    · rw [he]
      dsimp only
      rw [M.bind_run, M.modify_run]
      exact ⟨fun l => legal_of_keeps keeps_divFlags _ (legal_setDebugReg _ _ _ l), fun c => absurd hc c⟩
  | badMod w m => exact (Kept.refl s).guarded

theorem msrInsert_sorted (i : Dword) (v : Qword) : ∀ l : List (Dword × Qword), msrsSorted l →
    msrsSorted (msrInsert l i v) ∧ ∀ k : Dword, k < i → (∀ x ∈ l.head?, k < x.1) → ∀ x ∈ (msrInsert l i v).head?, k < x.1
  | [], _ => ⟨trivial, fun k hk _ x hx => by cases hx; exact hk⟩
  | (j, w) :: t, h => by
    unfold msrInsert
    split
    · rename_i hj
      subst hj
      refine ⟨?_, fun k hk _ x hx => by cases hx; exact hk⟩
      cases t with
      | nil => trivial
      | cons y t => exact h
    · rename_i hne
      split
      · rename_i hlt
        exact ⟨⟨hlt, h⟩, fun k hk _ x hx => by cases hx; exact hk⟩
      · rename_i hge
        have hji : j < i := by
          have h1 : j.toNat ≠ i.toNat := fun e => hne (BitVec.eq_of_toNat_eq e)
          have h2 : ¬ i.toNat < j.toNat := hge
          exact BitVec.lt_def.mpr (by omega)
        refine ⟨?_, fun k _ hh x hx => by cases hx; exact hh (j, w) rfl⟩
        have ht : msrsSorted t := by
          cases t with
          | nil => trivial
          | cons y t => exact h.2
        have ih := msrInsert_sorted i v t ht
        have hhead := ih.2 j hji (by
          intro x hx
          cases t with
          | nil => cases hx
          | cons y t => cases hx; exact h.1)
        cases hm : msrInsert t i v with
        | nil => trivial
        | cons y u =>
          rw [hm] at ih hhead
          exact ⟨hhead y rfl, ih.1⟩

theorem guarded_wrmsr (s : State) : Guarded s (resultState (wrmsr s)) := by
  unfold wrmsr
  refine guarded_privileged fun l => ?_
  rw [M.bind_run, M.get_run]
  dsimp only
  refine legal_bind (keeps_msrCheck _) (fun _ t lt => ?_) s l
  refine legal_bind (keeps_raiseIf _ _) (fun _ u lu => ?_) t lt
  rw [M.bind_run, M.modify_run]
  dsimp only
  refine legal_of_keeps (keeps_ite keeps_flushTlbAll (keeps_pure _)) _ ?_
  unfold State.setMsr
  split
  · exact ⟨lu.memory, lu.msrs, lu.paging, lu.caching, lu.et, lu.cr4, lu.dr7, lu.cw⟩
  · exact ⟨lu.memory, (msrInsert_sorted _ _ _ lu.msrs).1, lu.paging, lu.caching, lu.et, lu.cr4, lu.dr7, lu.cw⟩

/-- Every instruction. -/
theorem guarded_exec {i : Instr} {s t : State} (h : exec i s = .next t) : Guarded s t := by
  cases hi : writesSystem i with
  | false => exact (kept_exec hi h).guarded
  | true =>
    cases i <;> first
      | (cases hi; done)
      | exact guarded_run (guarded_lgdt _ _) h
      | exact guarded_run (guarded_lidt _ _) h
      | exact guarded_run (guarded_movCr _ _) h
      | exact guarded_run (guarded_lmsw _ _) h
      | exact guarded_run (guarded_movDr _ _) h
      | exact guarded_run (guarded_wrmsr _) h

end Sys2Proof.Machine
end

