-- ==== Sys2Proof/Laws/KeptCycle.lean ====
section
/-! SUPPORT. What a step does around an instruction keeps a legal state legal, and below level 0 the registers of level 0
as they are. -/

namespace Sys2Proof.Machine

/-- What an access changes keeps everything. -/
theorem Walked.kept {s t : State} (h : Walked s t) : Kept s t := by
  have hr := h.rest
  refine .of_fields h.wf ?_ ?_ ?_ ?_ ?_ ?_ ?_ ?_ ?_ ?_ ?_ <;> rw [hr]
  exact id

theorem Walked.curPl {s t : State} (h : Walked s t) : t.curPl = s.curPl := by rw [h.rest]; rfl

/-- A prefix changes the latch only. -/
theorem exec_prefix {i : Instr} (hi : isPrefix i = true) {s t : State} (h : exec i s = .next t) :
    ∃ p, t = { s with pfx := p } := by
  have hl : ∀ (b : Bool) (p : Pfx), latch b p s = .next t → ∃ p, t = { s with pfx := p } := by
    intro b p h
    unfold latch at h
    split at h
    · cases h
    · cases h; exact ⟨p, rfl⟩
  cases i <;> first
    | (cases hi; done)
    | exact hl _ _ h

theorem kept_begin (s : State) : Kept s s.begin := .of_eq rfl rfl rfl rfl rfl rfl rfl rfl rfl rfl rfl rfl

theorem kept_tick (s : State) : Kept s s.tick := .of_eq rfl rfl rfl rfl rfl rfl rfl rfl rfl rfl rfl rfl

theorem kept_fetchFault {s t : State} (h : fetchFault s = .next t) : Kept s t := by
  unfold fetchFault at h
  split at h
  · exact (kept_rollback s _).trans (kept_takeExc h)
  · exact kept_takeExc h

theorem kept_fetchCommit (n : Nat) (s : State) (w : Word) :
    Kept s { fetchCommit n s with opBytes := w } ∧ ({ fetchCommit n s with opBytes := w } : State).curPl = s.curPl := by
  obtain ⟨t, ht, he⟩ := fetchCommit_walked n s
  rw [he]
  exact ⟨ht.kept.trans (.of_eq rfl rfl rfl rfl rfl rfl rfl rfl rfl rfl rfl rfl), ht.curPl⟩

theorem kept_trap {s1 s2 s3 t : State} {c : Prop} [Decidable c] {e : Exc} (h2 : Kept s1 s2) (h3 : Kept s1 s3)
    (h : (if c then .next s2 else takeExc e s3) = .next t) : Kept s1 t := by
  split at h
  · cases h; exact h2
  · exact h3.trans (kept_takeExc h)

theorem kept_complete {s0 s1 t : State} (h : complete s0 s1 = .next t) : Kept s1 t := by
  unfold complete at h
  split at h
  · cases h; exact .of_eq rfl rfl rfl rfl rfl rfl rfl rfl rfl rfl rfl rfl
  · refine kept_trap ?_ ?_ h
    · exact .of_eq rfl rfl rfl rfl rfl rfl rfl rfl rfl rfl rfl rfl
    · exact .of_eq rfl rfl rfl rfl rfl rfl rfl rfl rfl rfl rfl rfl

theorem guarded_runUnits (s0 : State) : ∀ (n used : Nat) (bs : List Byte) (s t : State), Kept s0 s →
    s.curPl = s0.curPl → runUnits exec s0 n used bs s = .next t → Guarded s0 t
  | 0, _, _, _, _, _, _, h => (kept_fetchFault h).guarded
  | n + 1, used, bs, s, t, hk, hc, h => by
    unfold runUnits at h
    split at h
    · exact (kept_fetchFault h).guarded
    · rename_i i rest _
      dsimp only at h
      split at h
      · rename_i hp
        split at h
        · rename_i s' he
          obtain ⟨p, hp'⟩ := exec_prefix hp he
          subst hp'
          have hp : Kept s { s with pfx := p } := .of_eq rfl rfl rfl rfl rfl rfl rfl rfl rfl rfl rfl rfl
          exact guarded_runUnits s0 n _ rest _ t (hk.trans hp) hc h
        · cases h
        · cases h
      · generalize hu : used + (bs.length - rest.length) = len at h
        obtain ⟨hf, hfc⟩ := kept_fetchCommit len s (opBytesOf bs)
        cases he : exec i { fetchCommit len s with opBytes := opBytesOf bs } with
        | next s1 =>
          rw [he] at h
          have hg := (guarded_exec he).kept (kept_complete h)
          have hk2 := hk.trans hf
          exact ⟨fun l => hg.legal (hk2.legal l),
            fun c => hk2.same.trans (hg.same (by rw [hfc, hc]; exact c))⟩
        | fault f => rw [he] at h; cases h
        | refused r => rw [he] at h; cases h

theorem guarded_runInstr {s t : State} (h : runInstr exec s = .next t) : Guarded s t := by
  unfold runInstr at h
  split at h
  · exact guarded_runUnits s _ _ _ s t (.refl s) rfl h
  · exact (kept_takeExc h).guarded

theorem kept_settle (s : State) : Kept s s.settle := by
  unfold State.settle
  split
  · exact (kept_record s (.db true (s.dbgHits.setWidth 32))).trans (.of_eq rfl rfl rfl rfl rfl rfl rfl rfl rfl rfl rfl rfl)
  · exact .refl s

theorem endOutcome_next {o : Host.Outcome State Fault Refusal} {t : State} (h : endOutcome o = .next t) :
    ∃ u, o = .next u ∧ t = u.settle.tick := by
  cases o with
  | next u => cases h; exact ⟨u, rfl, rfl⟩
  | fault f => cases h
  | refused r => cases h

theorem kept_pendingEvent {s t : State} {ev : Event} (h : s.pendingEvent = some (ev, t)) : Kept s t := by
  unfold State.pendingEvent at h
  split at h
  · cases h; exact .of_eq rfl rfl rfl rfl rfl rfl rfl rfl rfl rfl rfl rfl
  · split at h
    · cases h; exact .of_eq rfl rfl rfl rfl rfl rfl rfl rfl rfl rfl rfl rfl
    · cases h

end Sys2Proof.Machine
end

