-- ==== Sys2Proof/Laws/PagingRuns.lean ====
section
/-! SUPPORT. Translation: without paging, what a walk does once the tables have given a page, and the entries they read. -/

namespace Sys2Proof.Machine

theorem physFrom_flat (w u : Bool) (s : State) (hpg : s.cr0Pg = false) : ∀ (n : Nat) (la : Dword) (prev : Option Nat),
    (∀ p, prev = some p → la.toNat % 4096 ≠ 0 → p + 1 = la.toNat) →
    physFrom w u n la prev s = .ok ((List.range n).map fun i => (la + BitVec.ofNat 32 i).toNat) s := by
  intro n
  induction n with
  | zero => intro la prev _; rfl
  | succ n ih =>
    intro la prev hp
    have hr := ih (la + 1) (some la.toNat) (by
      intro p hp h
      cases hp
      have : (la + 1).toNat = (la.toNat + 1) % 2^32 := by simp [BitVec.toNat_add]
      have := la.isLt
      omega)
    have he : la.toNat :: (List.range n).map (fun i => (la + 1 + BitVec.ofNat 32 i).toNat) =
        (List.range (n + 1)).map fun i => (la + BitVec.ofNat 32 i).toNat := by
      rw [List.range_succ_eq_map, List.map_cons, List.map_map]
      congr 1
      · simp
      · apply List.map_congr_left
        intro i _
        simp only [Function.comp]
        congr 1
        apply BitVec.eq_of_toNat_eq
        simp [BitVec.toNat_add, BitVec.toNat_ofNat]
        omega
    have ht : translate la w u s = .ok la.toNat s := by simp [translate, hpg]
    rw [← he]
    cases prev with
    | none => unfold physFrom; simp only [M.bind_run, ht, hr, M.pure_run]
    | some p =>
      by_cases h : la.toNat % 4096 = 0
      · unfold physFrom; simp only [h, beq_self_eq_true, if_true, M.bind_run, ht, hr, M.pure_run]
      · have h' : (la.toNat % 4096 == 0) = false := by simpa using h
        unfold physFrom; simp only [h', Bool.false_eq_true, if_false, M.bind_run, hp p rfl h, hr, M.pure_run]

theorem leNat_lt : ∀ l : List Byte, leNat l < 256 ^ l.length
  | [] => by simp [leNat]
  | b :: l => by
    have := leNat_lt l
    have hb := b.isLt
    simp only [leNat, List.length_cons, Nat.pow_succ]
    omega

theorem entry_lt (s : State) (pa n : Nat) : s.entry pa n < 256 ^ n := by
  have := leNat_lt (s.mem.readList (addrs n pa))
  simpa [Memory.readList, State.entry] using this

theorem orMem_run (pa : Nat) (mask : Byte) (s : State) : ∃ t, orMem pa mask s = .ok () t ∧
    (s.mem.wf = true → ∀ a, t.mem.read a = if a = pa then s.mem.read a ||| mask else s.mem.read a) := by
  unfold orMem
  simp only [M.bind_run, M.get_run, M.ite_run, M.pure_run, M.set_run]
  split
  · rename_i h
    refine ⟨_, rfl, fun hw a => ?_⟩
    split
    · rename_i ha; rw [ha, h]
    · rfl
  · refine ⟨_, rfl, fun hw a => ?_⟩
    change (s.mem.write pa (BitVec.ofNat 8 (s.mem.read pa ||| mask).toNat)).read a = _
    rw [BitVec.ofNat_toNat, BitVec.setWidth_eq, Memory.read_write hw]
    split
    · rename_i ha; rw [ha]
    · rfl

theorem orMem_wf {pa : Nat} {mask : Byte} {s t : State} (h : orMem pa mask s = .ok () t) (hw : s.mem.wf = true) : t.mem.wf = true := by
  unfold orMem at h
  simp only [M.bind_run, M.get_run, M.ite_run, M.pure_run, M.set_run] at h
  split at h <;> cases h
  · exact hw
  · exact State.stored_wf hw _ _

theorem cacheTlb_run (e : TlbEntry) (s : State) : ∃ t, cacheTlb e s = .ok () t ∧ t.mem = s.mem ∧
    t.tlb = if e ∈ s.tlb then s.tlb else e :: s.tlb := by
  unfold cacheTlb
  refine ⟨_, rfl, ?_, ?_⟩ <;> by_cases h : e ∈ s.tlb <;> simp [h]

theorem denied_iff (wp us rw w u : Bool) :
    pageDenied wp us rw w u = false ↔ (u = true → us = true) ∧ (w = true → rw = true ∨ u = false ∧ wp = false) := by
  unfold pageDenied
  cases wp <;> cases us <;> cases rw <;> cases w <;> cases u <;> simp

theorem orMem_tlb {pa : Nat} {mask : Byte} {s t : State} (h : orMem pa mask s = .ok () t) : t.tlb = s.tlb := by
  unfold orMem at h
  simp only [M.bind_run, M.get_run, M.ite_run, M.pure_run, M.set_run] at h
  split at h <;> cases h <;> rfl

/-- The walk once the tables have given a mapping. -/
theorem walk_ends (la : Dword) (w u : Bool) (s s' : State) (m : Mapping) (hpg : s.cr0Pg = true) (h : lookup la.toNat s = .ok (.ok m) s')
    (htlb : s'.tlb = s.tlb) (hmem : s.mem.wf = true → s'.mem.wf = true ∧ ∀ a, s.isRam a = true → s'.mem.read a = s.mem.read a) :
    WalkEnds s s' la w u (s.translationOf la w m.shift m.frame m.user m.write m.dirty m.global) m.upper m.leaf
      (m.frame + pageOffset la.toNat m.shift) := by
  refine ⟨fun hd => ?_, fun hd => ?_⟩
  · replace hd := (denied_iff s.cr0Wp m.user m.write w u).2 hd
    obtain ⟨t1, h1, r1⟩ : ∃ t1, (match m.upper with | some a => orMem a 0x20#8 | none => pure ()) s' = .ok () t1 ∧ t1.tlb = s'.tlb ∧
        (s'.mem.wf = true → t1.mem.wf = true ∧ ∀ a, t1.mem.read a = s'.mem.read a ||| (if m.upper = some a then 0x20#8 else 0)) := by
      cases hu : m.upper with
      | none => exact ⟨s', rfl, rfl, fun hw => ⟨hw, fun a => by simp⟩⟩
      | some a =>
        obtain ⟨t, ht, hr⟩ := orMem_run a 0x20#8 s'
        refine ⟨t, ht, orMem_tlb ht, fun hw => ⟨orMem_wf ht hw, fun b => ?_⟩⟩
        rw [hr hw]
        by_cases hb : b = a
        · simp [hb]
        · simp [hb, Ne.symm hb]
    obtain ⟨t2, h2, r2⟩ := orMem_run m.leaf (if w then 0x60#8 else 0x20#8) t1
    obtain ⟨t3, h3, r3, r4⟩ := cacheTlb_run ⟨la.toNat / 2 ^ m.shift, m.shift, m.frame, m.user, m.write, m.dirty || w, m.global && s.cr4Pge⟩ t2
    have hrun : walk la w u s = .ok (m.frame + pageOffset la.toNat m.shift) t3 := by
      rw [← Nat.shiftRight_eq_div_pow] at h3
      unfold walk
      simp only [M.bind_run, M.get_run, h, hd, Bool.false_eq_true, if_false]
      cases hu : m.upper with
      | none => rw [hu] at h1; simp only [M.pure_run] at h1; cases h1; simp only [M.bind_run, h2, h3, M.pure_run]
      | some a => rw [hu] at h1; simp only [M.bind_run, h1, h2, h3, M.pure_run]
    refine ⟨t3, hrun, walk_paged la w u s _ t3 hpg hrun, ?_, fun hw a => ⟨?_, (hmem hw).2 a⟩⟩
    · rw [r4, orMem_tlb h2, r1.1, htlb]
      rfl
    · obtain ⟨w1, q1⟩ := r1.2 (hmem hw).1
      rw [r3, r2 w1]
      split
      · rename_i ha; rw [ha, q1]
      · rw [q1]; simp
  · have hd : pageDenied s.cr0Wp m.user m.write w u = true := by
      cases hp : pageDenied s.cr0Wp m.user m.write w u
      · exact absurd ((denied_iff _ _ _ _ _).1 hp) hd
      · rfl
    unfold walk pageFault
    simp only [M.bind_run, M.get_run, h, hd, if_true, raise_run, pfCode]

theorem walk_absent (la : Dword) (w u : Bool) (s s' : State) (p r : Bool) (h : lookup la.toNat s = .ok (.error (p, r)) s') :
    walk la w u s = .error (.exc (.pf la (pfCode p w u r))) s' := by
  unfold walk
  simp only [M.bind_run, M.get_run, h, raise_run]

theorem translate_walk (la : Dword) (w u : Bool) (s : State) (hpg : s.cr0Pg = true) (hc : s.cached la = []) :
    translate la w u s = walk la w u s := by
  unfold translate
  simp only [M.bind_run, M.get_run, hpg, hc, Bool.not_true, Bool.false_eq_true, if_false]

theorem ofNat32_getLsbD (n i : Nat) (hi : i < 32) : (BitVec.ofNat 32 n).getLsbD i = n.testBit i := by
  rw [BitVec.getLsbD_ofNat]; simp [hi]

end Sys2Proof.Machine
end

