-- ==== Sys2Proof/Laws/PerInstr.lean ====
section
/-! SUPPORT. The family `RoundTrip`, one lemma per instruction: reading back the encoding of a well-formed
instruction gives that instruction and leaves the bytes after it. -/

namespace Sys2Proof.Laws.RoundTrip

-- one lemma at a time: the lemmas are many and small
set_option Elab.async false

/-- What the encoder writes for `i` in a context that can express it, the decoder reads as `i`, and no more of what
follows. WAIT is told from the wait forms of the FPU control instructions by the bytes after it (30_encoding R223),
so nothing may follow it. -/
def Statement (i : Instr) : Prop :=
  ∀ (c : Ctx) (rest : List Byte), i.wf c = true → (i = .wait → rest = []) →
    decode c (encode c i ++ rest) = some (i, rest)

/-! ## Reading one or two fields -/

theorem dec1 {α : Type} {c : Ctx} {p : Parser α} {a : α} {X rest bs : List Byte} {k : α → Instr}
    (hp : p X = some (a, rest)) (hd : decode c bs = (p X).bind fun x => some (k x.1, x.2)) :
    decode c bs = some (k a, rest) := by
  rw [hd, hp]; rfl

theorem decAlu {α : Type} {c : Ctx} {n : Nat} {p : Parser α} {a : α} {X rest bs : List Byte} {k : α → AluForm}
    (hp : p X = some (a, rest)) (hd : pAluForm c n bs = (p X).bind fun x => some (k x.1, x.2)) :
    pAluForm c n bs = some (k a, rest) := by
  rw [hd, hp]; rfl

theorem dec2 {α β : Type} {c : Ctx} {p : Parser α} {q : Parser β} {a : α} {b : β} {X Y rest bs : List Byte}
    {k : α → β → Instr} (hp : p X = some (a, Y)) (hq : q Y = some (b, rest))
    (hd : decode c bs = (p X).bind fun x => (q x.2).bind fun y => some (k x.1 y.1, y.2)) :
    decode c bs = some (k a b, rest) := by
  rw [hd, hp]; change (q Y).bind _ = _; rw [hq]; rfl

theorem dec_rm {c : Ctx} {d : Rm} {g : Nat} {k : Rm → Instr} (bs : List Byte → List Byte)
    (h : WellFormed.rm c d = true) (hg : g < 8)
    (hd : ∀ m X, regOf m = g → decode c (bs (m :: X)) = (pRmOf c m X).bind fun x => some (k x.1, x.2))
    (rest : List Byte) : decode c (bs (encRm g d ++ rest)) = some (k d, rest) := by
  obtain ⟨m, tl, he, hgm, hp⟩ := pRmOf_enc h hg
  rw [he, List.cons_append, hd m _ hgm, hp]; rfl

theorem rm_two {c : Ctx} {β : Type} {d : Rm} {g : Nat} {q : Parser β} {b : β} {e : List Byte} {k : Rm → β → Instr}
    (bs : List Byte → List Byte) (h : WellFormed.rm c d = true) (hg : g < 8) {rest : List Byte}
    (hq : q (e ++ rest) = some (b, rest))
    (hd : ∀ m X, regOf m = g →
      decode c (bs (m :: X)) = (pRmOf c m X).bind fun x => (q x.2).bind fun y => some (k x.1 y.1, y.2)) :
    decode c (bs (encRm g d ++ e ++ rest)) = some (k d b, rest) := by
  obtain ⟨m, tl, he, hgm, hp⟩ := pRmOf_enc h hg
  rw [he, List.append_assoc, List.cons_append, hd m _ hgm, hp]; change (q _).bind _ = _; rw [hq]; rfl

theorem two_rm {c : Ctx} {β : Type} {d : Rm} {q : Parser β} {b : β} {e bs rest : List Byte} {k : Reg × Rm → β → Instr}
    (h : WellFormed.rm c d = true) (r : Reg) (hq : q (e ++ rest) = some (b, rest))
    (hd : decode c bs = (pRegRm c (encRm r.num d ++ e ++ rest)).bind fun x =>
      (q x.2).bind fun y => some (k x.1 y.1, y.2)) : decode c bs = some (k (r, d) b, rest) := by
  rw [hd, List.append_assoc, pRegRm_enc h r]; change (q _).bind _ = _; rw [hq]; rfl

/-! ## Operand forms -/

theorem alu_rt {c : Ctx} {f : AluForm} (h : WellFormed.alu c f = true) (n : Nat) (hn : n < 8) (rest : List Byte) :
    decode c (encAlu c n f ++ rest) = some (aluOf n f, rest) := by
  have low (k) (e : List Byte) (hk : k < 6) (he : pAluForm c k (e ++ rest) = some (f, rest)) :
      decode c (opByte (8 * n + k) :: (e ++ rest)) = some (aluOf n f, rest) := by
    refine dec1 (k := aluOf n) he ?_
    have hh : n = 0 ∨ n = 1 ∨ n = 2 ∨ n = 3 ∨ n = 4 ∨ n = 5 ∨ n = 6 ∨ n = 7 := by omega
    have hj : k = 0 ∨ k = 1 ∨ k = 2 ∨ k = 3 ∨ k = 4 ∨ k = 5 := by omega
    rcases hh with rfl | rfl | rfl | rfl | rfl | rfl | rfl | rfl <;>
      rcases hj with rfl | rfl | rfl | rfl | rfl | rfl <;> rfl
  cases f with
  | rmR w d r =>
    have hp := pRegRm_enc (c := c) (d := d) h r rest
    cases w
    · exact low 0 _ (by omega) (decAlu (k := fun x => .rmR .b x.2 x.1) hp rfl)
    · exact low 1 _ (by omega) (decAlu (k := fun x => .rmR .v x.2 x.1) hp rfl)
  | rRm w r d =>
    have hp := pRegRm_enc (c := c) (d := d) h r rest
    cases w
    · exact low 2 _ (by omega) (decAlu (k := fun x => .rRm .b x.1 x.2) hp rfl)
    · exact low 3 _ (by omega) (decAlu (k := fun x => .rRm .v x.1 x.2) hp rfl)
  | accImm w i =>
    have hp := pImm_enc (c := c) (w := w) (v := i) h rest
    cases w
    · exact low 4 _ (by omega) (decAlu (k := fun x => .accImm .b x) hp rfl)
    · exact low 5 _ (by omega) (decAlu (k := fun x => .accImm .v x) hp rfl)
  | rmImm w d i =>
    have h' : WellFormed.rm c d = true ∧ WellFormed.imm c w i = true := by simpa [WellFormed.alu] using h
    have hp := pImm_enc h'.2 rest
    cases w
    · refine rm_two (k := fun d i => aluOf n (.rmImm .b d i)) (0x80#8 :: ·) h'.1 hn hp fun m X hg => ?_
      subst hg; rfl
    · refine rm_two (k := fun d i => aluOf n (.rmImm .v d i)) (0x81#8 :: ·) h'.1 hn hp fun m X hg => ?_
      subst hg; rfl
  | rmImm8 d i =>
    refine rm_two (q := pByte) (e := [i]) (k := fun d i => aluOf n (.rmImm8 d i)) (0x83#8 :: ·) h hn rfl
      fun m X hg => ?_
    subst hg; rfl

theorem shift_rt {c : Ctx} {f : ShiftForm} (h : WellFormed.rm c f.dst = true) (n : Nat) (hn : n < 8) (h6 : n ≠ 6)
    (rest : List Byte) : decode c (encShift n f ++ rest) = some (shiftOf n f, rest) := by
  have hf {m} (hg : regOf m = n) : (regOf m == 6) = false := by simpa [hg] using h6
  obtain ⟨w, d, k⟩ := f
  cases k with
  | one =>
    cases w
    · refine dec_rm (k := fun d => shiftOf n ⟨.b, d, .one⟩) (0xD0#8 :: ·) h hn (fun m X hg => ?_) rest
      change pShift c 0xD0 (m :: X) = _
      unfold pShift; rw [Parser.bind_run, pByte_cons]; dsimp only; rw [hf hg, hg]; rfl
    · refine dec_rm (k := fun d => shiftOf n ⟨.v, d, .one⟩) (0xD1#8 :: ·) h hn (fun m X hg => ?_) rest
      change pShift c 0xD1 (m :: X) = _
      unfold pShift; rw [Parser.bind_run, pByte_cons]; dsimp only; rw [hf hg, hg]; rfl
  | cl =>
    cases w
    · refine dec_rm (k := fun d => shiftOf n ⟨.b, d, .cl⟩) (0xD2#8 :: ·) h hn (fun m X hg => ?_) rest
      change pShift c 0xD2 (m :: X) = _
      unfold pShift; rw [Parser.bind_run, pByte_cons]; dsimp only; rw [hf hg, hg]; rfl
    · refine dec_rm (k := fun d => shiftOf n ⟨.v, d, .cl⟩) (0xD3#8 :: ·) h hn (fun m X hg => ?_) rest
      change pShift c 0xD3 (m :: X) = _
      unfold pShift; rw [Parser.bind_run, pByte_cons]; dsimp only; rw [hf hg, hg]; rfl
  | imm i =>
    have hq : (Count.imm <$> pByte) ([i] ++ rest) = some (.imm i, rest) := rfl
    cases w
    · refine rm_two (k := fun d i => shiftOf n ⟨.b, d, i⟩) (0xC0#8 :: ·) h hn hq fun m X hg => ?_
      change pShift c 0xC0 (m :: X) = _
      unfold pShift; rw [Parser.bind_run, pByte_cons]; dsimp only; rw [hf hg, hg]; rfl
    · refine rm_two (k := fun d i => shiftOf n ⟨.v, d, i⟩) (0xC1#8 :: ·) h hn hq fun m X hg => ?_
      change pShift c 0xC1 (m :: X) = _
      unfold pShift; rw [Parser.bind_run, pByte_cons]; dsimp only; rw [hf hg, hg]; rfl

theorem inc_rt {c : Ctx} {f : IncForm} (h : WellFormed.inc c f = true) (rest : List Byte) :
    decode c (encInc 0 f ++ rest) = some (.inc f, rest) := by
  cases f with
  | reg r => cases r <;> rfl
  | rm w d =>
    cases w
    · refine dec_rm (k := fun d => .inc (.rm .b d)) (0xFE#8 :: ·) h (g := 0) (by decide) (fun m X hg => ?_) rest
      change pGroup45 c 0xFE (m :: X) = _
      unfold pGroup45; rw [Parser.bind_run, pByte_cons]; dsimp only; rw [hg]; rfl
    · refine dec_rm (k := fun d => .inc (.rm .v d)) (0xFF#8 :: ·) h (g := 0) (by decide) (fun m X hg => ?_) rest
      change pGroup45 c 0xFF (m :: X) = _
      unfold pGroup45; rw [Parser.bind_run, pByte_cons]; dsimp only; rw [hg]; rfl

theorem dec_rt {c : Ctx} {f : IncForm} (h : WellFormed.inc c f = true) (rest : List Byte) :
    decode c (encInc 1 f ++ rest) = some (.dec f, rest) := by
  cases f with
  | reg r => cases r <;> rfl
  | rm w d =>
    cases w
    · refine dec_rm (k := fun d => .dec (.rm .b d)) (0xFE#8 :: ·) h (g := 1) (by decide) (fun m X hg => ?_) rest
      change pGroup45 c 0xFE (m :: X) = _
      unfold pGroup45; rw [Parser.bind_run, pByte_cons]; dsimp only; rw [hg]; rfl
    · refine dec_rm (k := fun d => .dec (.rm .v d)) (0xFF#8 :: ·) h (g := 1) (by decide) (fun m X hg => ?_) rest
      change pGroup45 c 0xFF (m :: X) = _
      unfold pGroup45; rw [Parser.bind_run, pByte_cons]; dsimp only; rw [hg]; rfl

/-- The other members of group 5, opcode FF. -/
theorem group5_rt {c : Ctx} {d : Rm} {k : Rm → Instr} (h : WellFormed.rm c d = true) (g : Nat) (hg : g < 8)
    (hk : ∀ m X, regOf m = g → pGroup45 c 0xFF (m :: X) = (pRmOf c m X).bind fun x => some (k x.1, x.2))
    (rest : List Byte) : decode c (0xFF#8 :: encRm g d ++ rest) = some (k d, rest) :=
  dec_rm (0xFF#8 :: ·) h hg (fun m X hm => hk m X hm) rest

/-- Memory forms of the escape opcodes. -/
theorem esc_mem {c : Ctx} {a : Ea} (h : WellFormed.ea c a = true) {e g : Nat} (he : e < 8) (hg : g < 8)
    (hb : blankEscMem e g = false) (rest : List Byte) :
    decode c (opByte (0xD8 + e) :: (encEa g a ++ rest)) = some (pEscMem e g a, rest) := by
  obtain ⟨m, tl, hm, h3, hgm, hp⟩ := pEa_enc h hg
  have h3' : (modOf m == 3) = false := by simpa using h3
  have hd : ∀ X, decode c (opByte (0xD8 + e) :: X) = pEsc c (0xD8 + e) X := by
    have hh : e = 0 ∨ e = 1 ∨ e = 2 ∨ e = 3 ∨ e = 4 ∨ e = 5 ∨ e = 6 ∨ e = 7 := by omega
    rcases hh with rfl | rfl | rfl | rfl | rfl | rfl | rfl | rfl <;> intro X <;> rfl
  have h8 : (0xD8 + e) % 8 = e := by omega
  rw [hm, List.cons_append, hd]
  unfold pEsc
  rw [Parser.bind_run, pByte_cons]; dsimp only
  rw [h3', h8, hgm, hb]
  change (pEa c (modOf m) (rmOf m) (tl ++ rest)).bind _ = _
  rw [hp rest]; rfl

/-- A wait form: 9B and the bytes of the instruction without the wait. -/
theorem wait_mem {c : Ctx} {a : Ea} (h : WellFormed.ea c a = true) {g : Nat} (e : Byte) (hg : g < 8)
    (k : Ea → Instr) (hk : ∀ m tl rest', regOf m = g → modOf m ≠ 3 →
      pEa c (modOf m) (rmOf m) tl = some (a, rest') → pWait c (e :: m :: tl) = some (k a, rest'))
    (rest : List Byte) : decode c (0x9B#8 :: e :: (encEa g a ++ rest)) = some (k a, rest) := by
  obtain ⟨m, tl, hm, h3, hgm, hp⟩ := pEa_enc h hg
  rw [hm, List.cons_append]
  exact hk m _ _ hgm h3 (hp rest)

theorem byte_of_toNat {op : Byte} {n : Nat} (h : op.toNat = n) : op = BitVec.ofNat 8 n := by
  rw [← h]; simp

/-- Blank members of the one-byte groups and blank escape cells. -/
theorem blank_ext1 {c : Ctx} {op m : Byte} (h : blankExtOne op m = true) (rest : List Byte) :
    decode c (op :: m :: rest) = some (.reserved (.ext1 op m), rest) := by
  have shift (n : Nat) (h6 : (regOf m == 6) = true) :
      pShift c n (m :: rest) = some (.reserved (.ext1 (BitVec.ofNat 8 n) m), rest) := by
    unfold pShift; rw [Parser.bind_run, pByte_cons]; dsimp only; rw [h6]; rfl
  have group3 (n : Nat) (h1 : (regOf m == 1) = true) :
      pGroup3 c n (m :: rest) = some (.reserved (.ext1 (BitVec.ofNat 8 n) m), rest) := by
    unfold pGroup3; rw [Parser.bind_run, pByte_cons]; dsimp only; rw [eq_of_beq h1]; rfl
  have lt8 : regOf m < 8 := Nat.mod_lt _ (by decide)
  have group4 (h2 : 2 ≤ regOf m) : pGroup45 c 0xFE (m :: rest) = some (.reserved (.ext1 0xFE#8 m), rest) := by
    have hh : regOf m = 2 ∨ regOf m = 3 ∨ regOf m = 4 ∨ regOf m = 5 ∨ regOf m = 6 ∨ regOf m = 7 := by omega
    unfold pGroup45; rw [Parser.bind_run, pByte_cons]; dsimp only
    rcases hh with hh | hh | hh | hh | hh | hh <;> rw [hh] <;> rfl
  have group5 (h7 : (regOf m == 7) = true) : pGroup45 c 0xFF (m :: rest) = some (.reserved (.ext1 0xFF#8 m), rest) := by
    unfold pGroup45; rw [Parser.bind_run, pByte_cons]; dsimp only; rw [eq_of_beq h7]; rfl
  have digit0 (n : Byte) (k : Parser Instr) (h0 : (regOf m != 0) = true) :
      (do let m ← pByte
          if regOf m == 0 then k else return .reserved (.ext1 n m) : Parser Instr) (m :: rest) =
        some (.reserved (.ext1 n m), rest) := by
    have h0' : (regOf m == 0) = false := by simpa using h0
    rw [Parser.bind_run, pByte_cons]; dsimp only; rw [h0']; rfl
  have esc (n : Nat) (hb : (if (modOf m == 3) = true then blankEscReg (n % 8) (m.toNat % 64)
        else blankEscMem (n % 8) (regOf m)) = true) :
      pEsc c n (m :: rest) = some (.reserved (.ext1 (BitVec.ofNat 8 n) m), rest) := by
    unfold pEsc; rw [Parser.bind_run, pByte_cons]; dsimp only
    split at hb
    · rename_i h3; rw [h3, hb]; rfl
    · rename_i h3; rw [eq_false_of_ne_true h3, hb]; rfl
  unfold blankExtOne at h
  dsimp only at h
  split at h <;> rename_i ho
  case h_21 => cases h
  all_goals have hb := byte_of_toNat ho; clear ho; subst hb
  all_goals first
    | exact shift _ h
    | exact group3 _ h
    | exact group4 (of_decide_eq_true h)
    | exact group5 h
    | exact esc _ h
    | exact digit0 _ _ h

/-- Blank members of the two-byte groups. -/
theorem blank_ext2 {c : Ctx} {op m : Byte} (h : blankExtTwo op m = true) (rest : List Byte) :
    decode c (0x0F#8 :: op :: m :: rest) = some (.reserved (.ext2 op m), rest) := by
  have lt8 : regOf m < 8 := Nat.mod_lt _ (by decide)
  have group6 (h6 : 6 ≤ regOf m) : pGroup6 c (m :: rest) = some (.reserved (.ext2 0x00#8 m), rest) := by
    have hh : regOf m = 6 ∨ regOf m = 7 := by omega
    unfold pGroup6; rw [Parser.bind_run, pByte_cons]; dsimp only
    rcases hh with hh | hh <;> rw [hh] <;> rfl
  have group7 (h5 : (regOf m == 5) = true) : pGroup7 c (m :: rest) = some (.reserved (.ext2 0x01#8 m), rest) := by
    unfold pGroup7; rw [Parser.bind_run, pByte_cons]; dsimp only; rw [eq_of_beq h5]; rfl
  have group8 (h4 : regOf m < 4) : pGroup8 c (m :: rest) = some (.reserved (.ext2 0xBA#8 m), rest) := by
    unfold pGroup8; rw [Parser.bind_run, pByte_cons]; dsimp only; rw [if_pos h4]; rfl
  have groupA (n : Nat) (hb : blankExtTwo (BitVec.ofNat 8 n) m = true) :
      pGroupA n (m :: rest) = some (.reserved (.ext2 (BitVec.ofNat 8 n) m), rest) := by
    unfold pGroupA; rw [Parser.bind_run, pByte_cons]; dsimp only; rw [if_pos hb]; rfl
  have group9 (h1 : (regOf m != 1) = true) : pTwoC0 c 0xC7 (m :: rest) = some (.reserved (.ext2 0xC7#8 m), rest) := by
    have h1' : (regOf m == 1) = false := by simpa using h1
    change (do
      let m ← pByte
      if regOf m == 1 then return .cmpxchg8b (← pRmOf c m) else return .reserved (.ext2 0xC7#8 m) : Parser Instr)
        (m :: rest) = _
    rw [Parser.bind_run, pByte_cons]; dsimp only; rw [h1']; rfl
  have hA := h
  unfold blankExtTwo at h
  dsimp only at h
  split at h <;> rename_i ho
  case h_8 => cases h
  all_goals have hb := byte_of_toNat ho; clear ho; subst hb
  · exact group6 (of_decide_eq_true h)
  · exact group7 h
  · exact group8 (of_decide_eq_true h)
  · exact group9 h
  · exact groupA 0x71 hA
  · exact groupA 0x72 hA
  · exact groupA 0x73 hA

/-! ## The instructions -/

theorem reserved (cell : BlankCell) : Statement (.reserved cell) := fun c rest h _ => by
  cases cell with
  | op1 op =>
    have h' : op = 0x82#8 ∨ op = 0xD6#8 ∨ op = 0xF1#8 := by
      simpa [Instr.wf, WellFormed.blank, blankOne, or_assoc] using h
    rcases h' with rfl | rfl | rfl <;> rfl
  | op2 op =>
    have h' : blankTwo op = true := h
    change pTwo c (op :: rest) = _
    unfold pTwo; rw [Parser.bind_run, pByte_cons]; dsimp only; rw [if_pos h']; rfl
  | ext1 op m => exact blank_ext1 h rest
  | ext2 op m => exact blank_ext2 h rest
theorem aad (base : Byte) : Statement (.aad base) := fun _ _ _ _ => rfl
theorem aam (base : Byte) : Statement (.aam base) := fun _ _ _ _ => rfl
theorem adc (f : AluForm) : Statement (.adc f) := fun _ rest h _ => alu_rt h 2 (by decide) rest
theorem add (f : AluForm) : Statement (.add f) := fun _ rest h _ => alu_rt h 0 (by decide) rest
theorem and_ (f : AluForm) : Statement (.and_ f) := fun _ rest h _ => alu_rt h 4 (by decide) rest
theorem arpl (dst : Rm) (src : Reg) : Statement (.arpl dst src) := fun _ rest h _ => by
  refine dec1 (k := fun x => .arpl x.2 x.1) (pRegRm_enc h src rest) ?_; rfl
theorem bound (r : Reg) (bnd : Rm) : Statement (.bound r bnd) := fun _ rest h _ => by
  refine dec1 (k := fun x => .bound x.1 x.2) (pRegRm_enc h r rest) ?_; rfl
theorem bsf (dst : Reg) (src : Rm) : Statement (.bsf dst src) := fun _ rest h _ => by
  refine dec1 (k := fun x => .bsf x.1 x.2) (pRegRm_enc h dst rest) ?_; rfl
theorem bsr (dst : Reg) (src : Rm) : Statement (.bsr dst src) := fun _ rest h _ => by
  refine dec1 (k := fun x => .bsr x.1 x.2) (pRegRm_enc h dst rest) ?_; rfl
theorem bswap (r : Reg) : Statement (.bswap r) := fun _ _ _ _ => by cases r <;> rfl
theorem bt (f : BtForm) : Statement (.bt f) := fun c rest h _ => by
  cases f with
  | rmR b o => (refine dec1 (k := fun x => .bt (.rmR x.2 x.1)) (pRegRm_enc (d := b) h o rest) ?_; rfl)
  | rmImm b o =>
    exact rm_two (k := fun d i => .bt (.rmImm d i)) (q := pByte) (fun l => 0x0F#8 :: 0xBA#8 :: l) h (g := 4) (by decide) (e := [o]) (rest := rest) rfl (fun m X hg => by
        change pGroup8 c (m :: X) = _; unfold pGroup8; rw [Parser.bind_run, pByte_cons]; dsimp only; simp only [hg]; rfl)
theorem btc (f : BtForm) : Statement (.btc f) := fun c rest h _ => by
  cases f with
  | rmR b o => (refine dec1 (k := fun x => .btc (.rmR x.2 x.1)) (pRegRm_enc (d := b) h o rest) ?_; rfl)
  | rmImm b o =>
    exact rm_two (k := fun d i => .btc (.rmImm d i)) (q := pByte) (fun l => 0x0F#8 :: 0xBA#8 :: l) h (g := 7) (by decide) (e := [o]) (rest := rest) rfl (fun m X hg => by
        change pGroup8 c (m :: X) = _; unfold pGroup8; rw [Parser.bind_run, pByte_cons]; dsimp only; simp only [hg]; rfl)
theorem btr (f : BtForm) : Statement (.btr f) := fun c rest h _ => by
  cases f with
  | rmR b o => (refine dec1 (k := fun x => .btr (.rmR x.2 x.1)) (pRegRm_enc (d := b) h o rest) ?_; rfl)
  | rmImm b o =>
    exact rm_two (k := fun d i => .btr (.rmImm d i)) (q := pByte) (fun l => 0x0F#8 :: 0xBA#8 :: l) h (g := 6) (by decide) (e := [o]) (rest := rest) rfl (fun m X hg => by
        change pGroup8 c (m :: X) = _; unfold pGroup8; rw [Parser.bind_run, pByte_cons]; dsimp only; simp only [hg]; rfl)
theorem bts (f : BtForm) : Statement (.bts f) := fun c rest h _ => by
  cases f with
  | rmR b o => (refine dec1 (k := fun x => .bts (.rmR x.2 x.1)) (pRegRm_enc (d := b) h o rest) ?_; rfl)
  | rmImm b o =>
    exact rm_two (k := fun d i => .bts (.rmImm d i)) (q := pByte) (fun l => 0x0F#8 :: 0xBA#8 :: l) h (g := 5) (by decide) (e := [o]) (rest := rest) rfl (fun m X hg => by
        change pGroup8 c (m :: X) = _; unfold pGroup8; rw [Parser.bind_run, pByte_cons]; dsimp only; simp only [hg]; rfl)
theorem call (f : CallForm) : Statement (.call f) := fun c rest h _ => by
  cases f with
  | rel d => (refine dec1 (k := fun x => .call (.rel x)) (pOp_enc (v := d) h rest) ?_; rfl)
  | rm d =>
    exact group5_rt (d := d) (k := fun d => .call (.rm d)) h 2 (by decide) (fun m X hg => by
      unfold pGroup45; rw [Parser.bind_run, pByte_cons]; dsimp only; rw [hg]; rfl) rest
  | ptr s o =>
    exact dec2 (q := pWord) (k := fun x y => .call (.ptr y x)) (pOp_enc (v := o) h (leWord s ++ rest)) (pWord_enc s rest)
      (by change decode c (0x9A#8 :: (encOp c o ++ leWord s ++ rest)) = _; rw [List.append_assoc]; rfl)
  | mfar d =>
    exact group5_rt (d := d) (k := fun d => .call (.mfar d)) h 3 (by decide) (fun m X hg => by
      unfold pGroup45; rw [Parser.bind_run, pByte_cons]; dsimp only; rw [hg]; rfl) rest
theorem cmovo (dst : Reg) (src : Rm) : Statement (.cmovo dst src) := fun _ rest h _ => by
  refine dec1 (k := fun x => .cmovo x.1 x.2) (pRegRm_enc h dst rest) ?_; rfl
theorem cmovno (dst : Reg) (src : Rm) : Statement (.cmovno dst src) := fun _ rest h _ => by
  refine dec1 (k := fun x => .cmovno x.1 x.2) (pRegRm_enc h dst rest) ?_; rfl
theorem cmovb (dst : Reg) (src : Rm) : Statement (.cmovb dst src) := fun _ rest h _ => by
  refine dec1 (k := fun x => .cmovb x.1 x.2) (pRegRm_enc h dst rest) ?_; rfl
theorem cmovae (dst : Reg) (src : Rm) : Statement (.cmovae dst src) := fun _ rest h _ => by
  refine dec1 (k := fun x => .cmovae x.1 x.2) (pRegRm_enc h dst rest) ?_; rfl
theorem cmove (dst : Reg) (src : Rm) : Statement (.cmove dst src) := fun _ rest h _ => by
  refine dec1 (k := fun x => .cmove x.1 x.2) (pRegRm_enc h dst rest) ?_; rfl
theorem cmovne (dst : Reg) (src : Rm) : Statement (.cmovne dst src) := fun _ rest h _ => by
  refine dec1 (k := fun x => .cmovne x.1 x.2) (pRegRm_enc h dst rest) ?_; rfl
theorem cmovbe (dst : Reg) (src : Rm) : Statement (.cmovbe dst src) := fun _ rest h _ => by
  refine dec1 (k := fun x => .cmovbe x.1 x.2) (pRegRm_enc h dst rest) ?_; rfl
theorem cmova (dst : Reg) (src : Rm) : Statement (.cmova dst src) := fun _ rest h _ => by
  refine dec1 (k := fun x => .cmova x.1 x.2) (pRegRm_enc h dst rest) ?_; rfl
theorem cmovs (dst : Reg) (src : Rm) : Statement (.cmovs dst src) := fun _ rest h _ => by
  refine dec1 (k := fun x => .cmovs x.1 x.2) (pRegRm_enc h dst rest) ?_; rfl
theorem cmovns (dst : Reg) (src : Rm) : Statement (.cmovns dst src) := fun _ rest h _ => by
  refine dec1 (k := fun x => .cmovns x.1 x.2) (pRegRm_enc h dst rest) ?_; rfl
theorem cmovp (dst : Reg) (src : Rm) : Statement (.cmovp dst src) := fun _ rest h _ => by
  refine dec1 (k := fun x => .cmovp x.1 x.2) (pRegRm_enc h dst rest) ?_; rfl
theorem cmovnp (dst : Reg) (src : Rm) : Statement (.cmovnp dst src) := fun _ rest h _ => by
  refine dec1 (k := fun x => .cmovnp x.1 x.2) (pRegRm_enc h dst rest) ?_; rfl
theorem cmovl (dst : Reg) (src : Rm) : Statement (.cmovl dst src) := fun _ rest h _ => by
  refine dec1 (k := fun x => .cmovl x.1 x.2) (pRegRm_enc h dst rest) ?_; rfl
theorem cmovge (dst : Reg) (src : Rm) : Statement (.cmovge dst src) := fun _ rest h _ => by
  refine dec1 (k := fun x => .cmovge x.1 x.2) (pRegRm_enc h dst rest) ?_; rfl
theorem cmovle (dst : Reg) (src : Rm) : Statement (.cmovle dst src) := fun _ rest h _ => by
  refine dec1 (k := fun x => .cmovle x.1 x.2) (pRegRm_enc h dst rest) ?_; rfl
theorem cmovg (dst : Reg) (src : Rm) : Statement (.cmovg dst src) := fun _ rest h _ => by
  refine dec1 (k := fun x => .cmovg x.1 x.2) (pRegRm_enc h dst rest) ?_; rfl
theorem cmp (f : AluForm) : Statement (.cmp f) := fun _ rest h _ => alu_rt h 7 (by decide) rest
theorem cmps (w : Wd) : Statement (.cmps w) := fun _ _ _ _ => by cases w <;> rfl
theorem cmpxchg (w : Wd) (dst : Rm) (src : Reg) : Statement (.cmpxchg w dst src) := fun _ rest h _ => by
  cases w
  · (refine dec1 (k := fun x => .cmpxchg .b x.2 x.1) (pRegRm_enc h src rest) ?_; rfl)
  · (refine dec1 (k := fun x => .cmpxchg .v x.2 x.1) (pRegRm_enc h src rest) ?_; rfl)
theorem cmpxchg8b (m : Rm) : Statement (.cmpxchg8b m) := fun c rest h _ =>
  dec_rm (k := .cmpxchg8b) (fun l => 0x0F#8 :: 0xC7#8 :: l) h (g := 1) (by decide) (fun m X hg => by
      change (do
        let m ← pByte
        if regOf m == 1 then return .cmpxchg8b (← pRmOf c m) else return .reserved (.ext2 0xC7#8 m) : Parser Instr)
          (m :: X) = _
      rw [Parser.bind_run, pByte_cons]; dsimp only; rw [hg]; rfl) rest
theorem dec (f : IncForm) : Statement (.dec f) := fun _ rest h _ => dec_rt h rest
theorem div (w : Wd) (src : Rm) : Statement (.div w src) := fun c rest h _ => by
  cases w
  · exact dec_rm (k := .div .b) (fun l => 0xF6#8 :: l) h (g := 6) (by decide) (fun m X hg => by
        change pGroup3 c 0xF6 (m :: X) = _; unfold pGroup3; rw [Parser.bind_run, pByte_cons]; dsimp only; rw [hg]; rfl) rest
  · exact dec_rm (k := .div .v) (fun l => 0xF7#8 :: l) h (g := 6) (by decide) (fun m X hg => by
        change pGroup3 c 0xF7 (m :: X) = _; unfold pGroup3; rw [Parser.bind_run, pByte_cons]; dsimp only; rw [hg]; rfl) rest
theorem enter (size : Word) (level : Byte) : Statement (.enter size level) := fun _ rest _ _ => dec2 (k := fun x y => .enter x y) (pWord_enc size (level :: rest)) (q := pByte) rfl rfl
theorem fadd (f : FArith) : Statement (.fadd f) := fun _ rest h _ => by
  cases f with
  | m32 a => exact esc_mem h (e := 0) (g := 0) (by decide) (by decide) rfl rest
  | m64 a => exact esc_mem h (e := 4) (g := 0) (by decide) (by decide) rfl rest
  | st0i i => cases i <;> rfl
  | sti0 i => cases i <;> rfl
theorem faddp (i : Idx8) : Statement (.faddp i) := fun _ _ _ _ => by cases i <;> rfl
theorem fiadd (f : FInt2) : Statement (.fiadd f) := fun _ rest h _ => by
  cases f with
  | i16 a => exact esc_mem h (e := 6) (g := 0) (by decide) (by decide) rfl rest
  | i32 a => exact esc_mem h (e := 2) (g := 0) (by decide) (by decide) rfl rest
theorem fbld (m : Ea) : Statement (.fbld m) := fun _ rest h _ => esc_mem h (e := 7) (g := 4) (by decide) (by decide) rfl rest
theorem fbstp (m : Ea) : Statement (.fbstp m) := fun _ rest h _ => esc_mem h (e := 7) (g := 6) (by decide) (by decide) rfl rest
theorem fcmovb (i : Idx8) : Statement (.fcmovb i) := fun _ _ _ _ => by cases i <;> rfl
theorem fcmove (i : Idx8) : Statement (.fcmove i) := fun _ _ _ _ => by cases i <;> rfl
theorem fcmovbe (i : Idx8) : Statement (.fcmovbe i) := fun _ _ _ _ => by cases i <;> rfl
theorem fcmovu (i : Idx8) : Statement (.fcmovu i) := fun _ _ _ _ => by cases i <;> rfl
theorem fcmovnb (i : Idx8) : Statement (.fcmovnb i) := fun _ _ _ _ => by cases i <;> rfl
theorem fcmovne (i : Idx8) : Statement (.fcmovne i) := fun _ _ _ _ => by cases i <;> rfl
theorem fcmovnbe (i : Idx8) : Statement (.fcmovnbe i) := fun _ _ _ _ => by cases i <;> rfl
theorem fcmovnu (i : Idx8) : Statement (.fcmovnu i) := fun _ _ _ _ => by cases i <;> rfl
theorem fcom (f : FComForm) : Statement (.fcom f) := fun _ rest h _ => by
  cases f with
  | m32 a => exact esc_mem h (e := 0) (g := 2) (by decide) (by decide) rfl rest
  | m64 a => exact esc_mem h (e := 4) (g := 2) (by decide) (by decide) rfl rest
  | st i => cases i <;> rfl
theorem fcomp (f : FComForm) : Statement (.fcomp f) := fun _ rest h _ => by
  cases f with
  | m32 a => exact esc_mem h (e := 0) (g := 3) (by decide) (by decide) rfl rest
  | m64 a => exact esc_mem h (e := 4) (g := 3) (by decide) (by decide) rfl rest
  | st i => cases i <;> rfl
theorem fcomi (i : Idx8) : Statement (.fcomi i) := fun _ _ _ _ => by cases i <;> rfl
theorem fcomip (i : Idx8) : Statement (.fcomip i) := fun _ _ _ _ => by cases i <;> rfl
theorem fucomi (i : Idx8) : Statement (.fucomi i) := fun _ _ _ _ => by cases i <;> rfl
theorem fucomip (i : Idx8) : Statement (.fucomip i) := fun _ _ _ _ => by cases i <;> rfl
theorem fdiv (f : FArith) : Statement (.fdiv f) := fun _ rest h _ => by
  cases f with
  | m32 a => exact esc_mem h (e := 0) (g := 6) (by decide) (by decide) rfl rest
  | m64 a => exact esc_mem h (e := 4) (g := 6) (by decide) (by decide) rfl rest
  | st0i i => cases i <;> rfl
  | sti0 i => cases i <;> rfl
theorem fdivp (i : Idx8) : Statement (.fdivp i) := fun _ _ _ _ => by cases i <;> rfl
theorem fidiv (f : FInt2) : Statement (.fidiv f) := fun _ rest h _ => by
  cases f with
  | i16 a => exact esc_mem h (e := 6) (g := 6) (by decide) (by decide) rfl rest
  | i32 a => exact esc_mem h (e := 2) (g := 6) (by decide) (by decide) rfl rest
theorem fdivr (f : FArith) : Statement (.fdivr f) := fun _ rest h _ => by
  cases f with
  | m32 a => exact esc_mem h (e := 0) (g := 7) (by decide) (by decide) rfl rest
  | m64 a => exact esc_mem h (e := 4) (g := 7) (by decide) (by decide) rfl rest
  | st0i i => cases i <;> rfl
  | sti0 i => cases i <;> rfl
theorem fdivrp (i : Idx8) : Statement (.fdivrp i) := fun _ _ _ _ => by cases i <;> rfl
theorem fidivr (f : FInt2) : Statement (.fidivr f) := fun _ rest h _ => by
  cases f with
  | i16 a => exact esc_mem h (e := 6) (g := 7) (by decide) (by decide) rfl rest
  | i32 a => exact esc_mem h (e := 2) (g := 7) (by decide) (by decide) rfl rest
theorem ffree (i : Idx8) : Statement (.ffree i) := fun _ _ _ _ => by cases i <;> rfl
theorem ficom (f : FInt2) : Statement (.ficom f) := fun _ rest h _ => by
  cases f with
  | i16 a => exact esc_mem h (e := 6) (g := 2) (by decide) (by decide) rfl rest
  | i32 a => exact esc_mem h (e := 2) (g := 2) (by decide) (by decide) rfl rest
theorem ficomp (f : FInt2) : Statement (.ficomp f) := fun _ rest h _ => by
  cases f with
  | i16 a => exact esc_mem h (e := 6) (g := 3) (by decide) (by decide) rfl rest
  | i32 a => exact esc_mem h (e := 2) (g := 3) (by decide) (by decide) rfl rest
theorem fild (f : FInt3) : Statement (.fild f) := fun _ rest h _ => by
  cases f with
  | i16 a => exact esc_mem h (e := 7) (g := 0) (by decide) (by decide) rfl rest
  | i32 a => exact esc_mem h (e := 3) (g := 0) (by decide) (by decide) rfl rest
  | i64 a => exact esc_mem h (e := 7) (g := 5) (by decide) (by decide) rfl rest
theorem fist (f : FInt2) : Statement (.fist f) := fun _ rest h _ => by
  cases f with
  | i16 a => exact esc_mem h (e := 7) (g := 2) (by decide) (by decide) rfl rest
  | i32 a => exact esc_mem h (e := 3) (g := 2) (by decide) (by decide) rfl rest
theorem fistp (f : FInt3) : Statement (.fistp f) := fun _ rest h _ => by
  cases f with
  | i16 a => exact esc_mem h (e := 7) (g := 3) (by decide) (by decide) rfl rest
  | i32 a => exact esc_mem h (e := 3) (g := 3) (by decide) (by decide) rfl rest
  | i64 a => exact esc_mem h (e := 7) (g := 7) (by decide) (by decide) rfl rest
theorem fld (f : FLdForm) : Statement (.fld f) := fun _ rest h _ => by
  cases f with
  | m32 a => exact esc_mem h (e := 1) (g := 0) (by decide) (by decide) rfl rest
  | m64 a => exact esc_mem h (e := 5) (g := 0) (by decide) (by decide) rfl rest
  | m80 a => exact esc_mem h (e := 3) (g := 5) (by decide) (by decide) rfl rest
  | st i => cases i <;> rfl
theorem fldcw (m : Ea) : Statement (.fldcw m) := fun _ rest h _ => esc_mem h (e := 1) (g := 5) (by decide) (by decide) rfl rest
theorem fldenv (m : Ea) : Statement (.fldenv m) := fun _ rest h _ => esc_mem h (e := 1) (g := 4) (by decide) (by decide) rfl rest
theorem fmul (f : FArith) : Statement (.fmul f) := fun _ rest h _ => by
  cases f with
  | m32 a => exact esc_mem h (e := 0) (g := 1) (by decide) (by decide) rfl rest
  | m64 a => exact esc_mem h (e := 4) (g := 1) (by decide) (by decide) rfl rest
  | st0i i => cases i <;> rfl
  | sti0 i => cases i <;> rfl
theorem fmulp (i : Idx8) : Statement (.fmulp i) := fun _ _ _ _ => by cases i <;> rfl
theorem fimul (f : FInt2) : Statement (.fimul f) := fun _ rest h _ => by
  cases f with
  | i16 a => exact esc_mem h (e := 6) (g := 1) (by decide) (by decide) rfl rest
  | i32 a => exact esc_mem h (e := 2) (g := 1) (by decide) (by decide) rfl rest
theorem frstor (m : Ea) : Statement (.frstor m) := fun _ rest h _ => esc_mem h (e := 5) (g := 4) (by decide) (by decide) rfl rest
theorem fsave (m : Ea) : Statement (.fsave m) := fun c rest h _ => by
  have h' : WellFormed.ea c m = true ∧ c.waitAlone = false := by simpa [Instr.wf] using h
  exact wait_mem (g := 6) h'.1 0xDD#8 (by decide) .fsave (fun m tl r hg h3 hp => by
    simp [pWait, h'.2, hg, h3, StateT.run, hp]) rest
theorem fnsave (m : Ea) : Statement (.fnsave m) := fun _ rest h _ => esc_mem h (e := 5) (g := 6) (by decide) (by decide) rfl rest
theorem fst (f : FComForm) : Statement (.fst f) := fun _ rest h _ => by
  cases f with
  | m32 a => exact esc_mem h (e := 1) (g := 2) (by decide) (by decide) rfl rest
  | m64 a => exact esc_mem h (e := 5) (g := 2) (by decide) (by decide) rfl rest
  | st i => cases i <;> rfl
theorem fstp (f : FLdForm) : Statement (.fstp f) := fun _ rest h _ => by
  cases f with
  | m32 a => exact esc_mem h (e := 1) (g := 3) (by decide) (by decide) rfl rest
  | m64 a => exact esc_mem h (e := 5) (g := 3) (by decide) (by decide) rfl rest
  | m80 a => exact esc_mem h (e := 3) (g := 7) (by decide) (by decide) rfl rest
  | st i => cases i <;> rfl
theorem fstcw (m : Ea) : Statement (.fstcw m) := fun c rest h _ => by
  have h' : WellFormed.ea c m = true ∧ c.waitAlone = false := by simpa [Instr.wf] using h
  exact wait_mem (g := 7) h'.1 0xD9#8 (by decide) .fstcw (fun m tl r hg h3 hp => by
    simp [pWait, h'.2, hg, h3, StateT.run, hp]) rest
theorem fnstcw (m : Ea) : Statement (.fnstcw m) := fun _ rest h _ => esc_mem h (e := 1) (g := 7) (by decide) (by decide) rfl rest
theorem fstenv (m : Ea) : Statement (.fstenv m) := fun c rest h _ => by
  have h' : WellFormed.ea c m = true ∧ c.waitAlone = false := by simpa [Instr.wf] using h
  exact wait_mem (g := 6) h'.1 0xD9#8 (by decide) .fstenv (fun m tl r hg h3 hp => by
    simp [pWait, h'.2, hg, h3, StateT.run, hp]) rest
theorem fnstenv (m : Ea) : Statement (.fnstenv m) := fun _ rest h _ => esc_mem h (e := 1) (g := 6) (by decide) (by decide) rfl rest
theorem fstsw (f : FStsw) : Statement (.fstsw f) := fun c rest h _ => by
  have h' : WellFormed.fStsw c f = true ∧ c.waitAlone = false := by simpa [Instr.wf] using h
  cases f with
  | ax => obtain ⟨o, a, p⟩ := c; cases h'.2; rfl
  | mem a =>
    exact wait_mem (g := 7) h'.1 0xDD#8 (by decide) (fun a => .fstsw (.mem a)) (fun m tl r hg h3 hp => by
      simp [pWait, h'.2, hg, h3, StateT.run, hp]) rest
theorem fnstsw (f : FStsw) : Statement (.fnstsw f) := fun _ rest h _ => by
  cases f with
  | ax => rfl
  | mem a => exact esc_mem h (e := 5) (g := 7) (by decide) (by decide) rfl rest
theorem fsub (f : FArith) : Statement (.fsub f) := fun _ rest h _ => by
  cases f with
  | m32 a => exact esc_mem h (e := 0) (g := 4) (by decide) (by decide) rfl rest
  | m64 a => exact esc_mem h (e := 4) (g := 4) (by decide) (by decide) rfl rest
  | st0i i => cases i <;> rfl
  | sti0 i => cases i <;> rfl
theorem fsubp (i : Idx8) : Statement (.fsubp i) := fun _ _ _ _ => by cases i <;> rfl
theorem fisub (f : FInt2) : Statement (.fisub f) := fun _ rest h _ => by
  cases f with
  | i16 a => exact esc_mem h (e := 6) (g := 4) (by decide) (by decide) rfl rest
  | i32 a => exact esc_mem h (e := 2) (g := 4) (by decide) (by decide) rfl rest
theorem fsubr (f : FArith) : Statement (.fsubr f) := fun _ rest h _ => by
  cases f with
  | m32 a => exact esc_mem h (e := 0) (g := 5) (by decide) (by decide) rfl rest
  | m64 a => exact esc_mem h (e := 4) (g := 5) (by decide) (by decide) rfl rest
  | st0i i => cases i <;> rfl
  | sti0 i => cases i <;> rfl
theorem fsubrp (i : Idx8) : Statement (.fsubrp i) := fun _ _ _ _ => by cases i <;> rfl
theorem fisubr (f : FInt2) : Statement (.fisubr f) := fun _ rest h _ => by
  cases f with
  | i16 a => exact esc_mem h (e := 6) (g := 5) (by decide) (by decide) rfl rest
  | i32 a => exact esc_mem h (e := 2) (g := 5) (by decide) (by decide) rfl rest
theorem fucom (i : Idx8) : Statement (.fucom i) := fun _ _ _ _ => by cases i <;> rfl
theorem fucomp (i : Idx8) : Statement (.fucomp i) := fun _ _ _ _ => by cases i <;> rfl
theorem fxch (i : Idx8) : Statement (.fxch i) := fun _ _ _ _ => by cases i <;> rfl
theorem idiv (w : Wd) (src : Rm) : Statement (.idiv w src) := fun c rest h _ => by
  cases w
  · exact dec_rm (k := .idiv .b) (fun l => 0xF6#8 :: l) h (g := 7) (by decide) (fun m X hg => by
        change pGroup3 c 0xF6 (m :: X) = _; unfold pGroup3; rw [Parser.bind_run, pByte_cons]; dsimp only; rw [hg]; rfl) rest
  · exact dec_rm (k := .idiv .v) (fun l => 0xF7#8 :: l) h (g := 7) (by decide) (fun m X hg => by
        change pGroup3 c 0xF7 (m :: X) = _; unfold pGroup3; rw [Parser.bind_run, pByte_cons]; dsimp only; rw [hg]; rfl) rest
theorem imul (f : ImulForm) : Statement (.imul f) := fun c rest h _ => by
  cases f with
  | one w d =>
    cases w
    · exact dec_rm (k := fun d => .imul (.one .b d)) (fun l => 0xF6#8 :: l) h (g := 5) (by decide) (fun m X hg => by
          change pGroup3 c 0xF6 (m :: X) = _; unfold pGroup3; rw [Parser.bind_run, pByte_cons]; dsimp only; rw [hg]; rfl) rest
    · exact dec_rm (k := fun d => .imul (.one .v d)) (fun l => 0xF7#8 :: l) h (g := 5) (by decide) (fun m X hg => by
          change pGroup3 c 0xF7 (m :: X) = _; unfold pGroup3; rw [Parser.bind_run, pByte_cons]; dsimp only; rw [hg]; rfl) rest
  | two r d => (refine dec1 (k := fun x => .imul (.two x.1 x.2)) (pRegRm_enc (d := d) h r rest) ?_; rfl)
  | three r d i =>
    have h' : WellFormed.rm c d = true ∧ WellFormed.immForm c i = true := by simpa [Instr.wf, WellFormed.imul] using h
    cases i with
    | v x => (refine two_rm (e := encOp c x) (q := pOp c) (k := fun x y => .imul (.three x.1 x.2 (.v y))) h'.1 r (pOp_enc h'.2 rest) ?_; rfl)
    | b x => (refine two_rm (b := x) (e := [x]) (q := pByte) (k := fun x y => .imul (.three x.1 x.2 (.b y))) h'.1 r rfl ?_; rfl)
theorem inp (w : Wd) (p : Port) : Statement (.inp w p) := fun _ _ _ _ => by cases w <;> cases p <;> rfl
theorem inc (f : IncForm) : Statement (.inc f) := fun _ rest h _ => inc_rt h rest
theorem ins (w : Wd) : Statement (.ins w) := fun _ _ _ _ => by cases w <;> rfl
theorem intN (n : Byte) : Statement (.intN n) := fun _ _ _ _ => rfl
theorem invlpg (m : Rm) : Statement (.invlpg m) := fun c rest h _ =>
  dec_rm (k := .invlpg) (fun l => 0x0F#8 :: 0x01#8 :: l) h (g := 7) (by decide) (fun m X hg => by
      change pGroup7 c (m :: X) = _; unfold pGroup7; rw [Parser.bind_run, pByte_cons]; dsimp only; rw [hg]; rfl) rest
theorem jo (t : JForm) : Statement (.jo t) := fun _ rest h _ => by
  cases t with
  | short d => rfl
  | near d => (refine dec1 (k := fun x => .jo (.near x)) (pOp_enc (v := d) h rest) ?_; rfl)
theorem jno (t : JForm) : Statement (.jno t) := fun _ rest h _ => by
  cases t with
  | short d => rfl
  | near d => (refine dec1 (k := fun x => .jno (.near x)) (pOp_enc (v := d) h rest) ?_; rfl)
theorem jb (t : JForm) : Statement (.jb t) := fun _ rest h _ => by
  cases t with
  | short d => rfl
  | near d => (refine dec1 (k := fun x => .jb (.near x)) (pOp_enc (v := d) h rest) ?_; rfl)
theorem jae (t : JForm) : Statement (.jae t) := fun _ rest h _ => by
  cases t with
  | short d => rfl
  | near d => (refine dec1 (k := fun x => .jae (.near x)) (pOp_enc (v := d) h rest) ?_; rfl)
theorem je (t : JForm) : Statement (.je t) := fun _ rest h _ => by
  cases t with
  | short d => rfl
  | near d => (refine dec1 (k := fun x => .je (.near x)) (pOp_enc (v := d) h rest) ?_; rfl)
theorem jne (t : JForm) : Statement (.jne t) := fun _ rest h _ => by
  cases t with
  | short d => rfl
  | near d => (refine dec1 (k := fun x => .jne (.near x)) (pOp_enc (v := d) h rest) ?_; rfl)
theorem jbe (t : JForm) : Statement (.jbe t) := fun _ rest h _ => by
  cases t with
  | short d => rfl
  | near d => (refine dec1 (k := fun x => .jbe (.near x)) (pOp_enc (v := d) h rest) ?_; rfl)
theorem ja (t : JForm) : Statement (.ja t) := fun _ rest h _ => by
  cases t with
  | short d => rfl
  | near d => (refine dec1 (k := fun x => .ja (.near x)) (pOp_enc (v := d) h rest) ?_; rfl)
theorem js (t : JForm) : Statement (.js t) := fun _ rest h _ => by
  cases t with
  | short d => rfl
  | near d => (refine dec1 (k := fun x => .js (.near x)) (pOp_enc (v := d) h rest) ?_; rfl)
theorem jns (t : JForm) : Statement (.jns t) := fun _ rest h _ => by
  cases t with
  | short d => rfl
  | near d => (refine dec1 (k := fun x => .jns (.near x)) (pOp_enc (v := d) h rest) ?_; rfl)
theorem jp (t : JForm) : Statement (.jp t) := fun _ rest h _ => by
  cases t with
  | short d => rfl
  | near d => (refine dec1 (k := fun x => .jp (.near x)) (pOp_enc (v := d) h rest) ?_; rfl)
theorem jnp (t : JForm) : Statement (.jnp t) := fun _ rest h _ => by
  cases t with
  | short d => rfl
  | near d => (refine dec1 (k := fun x => .jnp (.near x)) (pOp_enc (v := d) h rest) ?_; rfl)
theorem jl (t : JForm) : Statement (.jl t) := fun _ rest h _ => by
  cases t with
  | short d => rfl
  | near d => (refine dec1 (k := fun x => .jl (.near x)) (pOp_enc (v := d) h rest) ?_; rfl)
theorem jge (t : JForm) : Statement (.jge t) := fun _ rest h _ => by
  cases t with
  | short d => rfl
  | near d => (refine dec1 (k := fun x => .jge (.near x)) (pOp_enc (v := d) h rest) ?_; rfl)
theorem jle (t : JForm) : Statement (.jle t) := fun _ rest h _ => by
  cases t with
  | short d => rfl
  | near d => (refine dec1 (k := fun x => .jle (.near x)) (pOp_enc (v := d) h rest) ?_; rfl)
theorem jg (t : JForm) : Statement (.jg t) := fun _ rest h _ => by
  cases t with
  | short d => rfl
  | near d => (refine dec1 (k := fun x => .jg (.near x)) (pOp_enc (v := d) h rest) ?_; rfl)
theorem jcxz (rel : Byte) : Statement (.jcxz rel) := fun ⟨o, a, p⟩ _ h _ => by
  have h' : a = false := by simpa [Instr.wf] using h
  subst h'; rfl
theorem jecxz (rel : Byte) : Statement (.jecxz rel) := fun ⟨o, a, p⟩ _ h _ => by
  have h' : a = true := by simpa [Instr.wf] using h
  subst h'; rfl
theorem jmp (f : JmpForm) : Statement (.jmp f) := fun c rest h _ => by
  cases f with
  | short d => rfl
  | rel d => (refine dec1 (k := fun x => .jmp (.rel x)) (pOp_enc (v := d) h rest) ?_; rfl)
  | rm d =>
    exact group5_rt (d := d) (k := fun d => .jmp (.rm d)) h 4 (by decide) (fun m X hg => by
      unfold pGroup45; rw [Parser.bind_run, pByte_cons]; dsimp only; rw [hg]; rfl) rest
  | ptr s o =>
    exact dec2 (q := pWord) (k := fun x y => .jmp (.ptr y x)) (pOp_enc (v := o) h (leWord s ++ rest)) (pWord_enc s rest)
      (by change decode c (0xEA#8 :: (encOp c o ++ leWord s ++ rest)) = _; rw [List.append_assoc]; rfl)
  | mfar d =>
    exact group5_rt (d := d) (k := fun d => .jmp (.mfar d)) h 5 (by decide) (fun m X hg => by
      unfold pGroup45; rw [Parser.bind_run, pByte_cons]; dsimp only; rw [hg]; rfl) rest
theorem lar (dst : Reg) (src : Rm) : Statement (.lar dst src) := fun _ rest h _ => by
  refine dec1 (k := fun x => .lar x.1 x.2) (pRegRm_enc h dst rest) ?_; rfl
theorem lds (dst : Reg) (m : Rm) : Statement (.lds dst m) := fun _ rest h _ => by
  refine dec1 (k := fun x => .lds x.1 x.2) (pRegRm_enc h dst rest) ?_; rfl
theorem les (dst : Reg) (m : Rm) : Statement (.les dst m) := fun _ rest h _ => by
  refine dec1 (k := fun x => .les x.1 x.2) (pRegRm_enc h dst rest) ?_; rfl
theorem lss (dst : Reg) (m : Rm) : Statement (.lss dst m) := fun _ rest h _ => by
  refine dec1 (k := fun x => .lss x.1 x.2) (pRegRm_enc h dst rest) ?_; rfl
theorem lfs (dst : Reg) (m : Rm) : Statement (.lfs dst m) := fun _ rest h _ => by
  refine dec1 (k := fun x => .lfs x.1 x.2) (pRegRm_enc h dst rest) ?_; rfl
theorem lgs (dst : Reg) (m : Rm) : Statement (.lgs dst m) := fun _ rest h _ => by
  refine dec1 (k := fun x => .lgs x.1 x.2) (pRegRm_enc h dst rest) ?_; rfl
theorem lea (dst : Reg) (m : Rm) : Statement (.lea dst m) := fun _ rest h _ => by
  refine dec1 (k := fun x => .lea x.1 x.2) (pRegRm_enc h dst rest) ?_; rfl
theorem lgdt (m : Rm) : Statement (.lgdt m) := fun c rest h _ =>
  dec_rm (k := .lgdt) (fun l => 0x0F#8 :: 0x01#8 :: l) h (g := 2) (by decide) (fun m X hg => by
      change pGroup7 c (m :: X) = _; unfold pGroup7; rw [Parser.bind_run, pByte_cons]; dsimp only; rw [hg]; rfl) rest
theorem lidt (m : Rm) : Statement (.lidt m) := fun c rest h _ =>
  dec_rm (k := .lidt) (fun l => 0x0F#8 :: 0x01#8 :: l) h (g := 3) (by decide) (fun m X hg => by
      change pGroup7 c (m :: X) = _; unfold pGroup7; rw [Parser.bind_run, pByte_cons]; dsimp only; rw [hg]; rfl) rest
theorem lldt (src : Rm) : Statement (.lldt src) := fun c rest h _ =>
  dec_rm (k := .lldt) (fun l => 0x0F#8 :: 0x00#8 :: l) h (g := 2) (by decide) (fun m X hg => by
      change pGroup6 c (m :: X) = _; unfold pGroup6; rw [Parser.bind_run, pByte_cons]; dsimp only; rw [hg]; rfl) rest
theorem lmsw (src : Rm) : Statement (.lmsw src) := fun c rest h _ =>
  dec_rm (k := .lmsw) (fun l => 0x0F#8 :: 0x01#8 :: l) h (g := 6) (by decide) (fun m X hg => by
      change pGroup7 c (m :: X) = _; unfold pGroup7; rw [Parser.bind_run, pByte_cons]; dsimp only; rw [hg]; rfl) rest
theorem lods (w : Wd) : Statement (.lods w) := fun _ _ _ _ => by cases w <;> rfl
theorem loop (rel : Byte) : Statement (.loop rel) := fun _ _ _ _ => rfl
theorem loope (rel : Byte) : Statement (.loope rel) := fun _ _ _ _ => rfl
theorem loopne (rel : Byte) : Statement (.loopne rel) := fun _ _ _ _ => rfl
theorem lsl (dst : Reg) (src : Rm) : Statement (.lsl dst src) := fun _ rest h _ => by
  refine dec1 (k := fun x => .lsl x.1 x.2) (pRegRm_enc h dst rest) ?_; rfl
theorem ltr (src : Rm) : Statement (.ltr src) := fun c rest h _ =>
  dec_rm (k := .ltr) (fun l => 0x0F#8 :: 0x00#8 :: l) h (g := 3) (by decide) (fun m X hg => by
      change pGroup6 c (m :: X) = _; unfold pGroup6; rw [Parser.bind_run, pByte_cons]; dsimp only; rw [hg]; rfl) rest
theorem mov (f : MovForm) : Statement (.mov f) := fun c rest h _ => by
  cases f with
  | rmR w d s =>
    cases w
    · (refine dec1 (k := fun x => .mov (.rmR .b x.2 x.1)) (pRegRm_enc (d := d) h s rest) ?_; rfl)
    · (refine dec1 (k := fun x => .mov (.rmR .v x.2 x.1)) (pRegRm_enc (d := d) h s rest) ?_; rfl)
  | rRm w d s =>
    cases w
    · (refine dec1 (k := fun x => .mov (.rRm .b x.1 x.2)) (pRegRm_enc (d := s) h d rest) ?_; rfl)
    · (refine dec1 (k := fun x => .mov (.rRm .v x.1 x.2)) (pRegRm_enc (d := s) h d rest) ?_; rfl)
  | rImm w d i =>
    have hp := pImm_enc (w := w) (v := i) h rest
    cases w
    · cases d <;> (refine dec1 (k := fun x => .mov (.rImm .b _ x)) hp ?_; rfl)
    · cases d <;> (refine dec1 (k := fun x => .mov (.rImm .v _ x)) hp ?_; rfl)
  | rmImm w d i =>
    have h' : WellFormed.rm c d = true ∧ WellFormed.imm c w i = true := by simpa [Instr.wf, WellFormed.mov] using h
    have hp := pImm_enc h'.2 rest
    cases w
    · exact rm_two (k := fun d i => .mov (.rmImm .b d i)) (0xC6#8 :: ·) h'.1 (g := 0) (by decide) hp fun m X hg => by
        change (do
          let m ← pByte
          if regOf m == 0 then
            let d ← pRmOf c m
            return .mov (.rmImm .b d (← pImm c .b))
          else return .reserved (.ext1 0xC6#8 m) : Parser Instr) (m :: X) = _
        rw [Parser.bind_run, pByte_cons]; dsimp only; rw [hg]; rfl
    · exact rm_two (k := fun d i => .mov (.rmImm .v d i)) (0xC7#8 :: ·) h'.1 (g := 0) (by decide) hp fun m X hg => by
        change (do
          let m ← pByte
          if regOf m == 0 then
            let d ← pRmOf c m
            return .mov (.rmImm .v d (← pImm c .v))
          else return .reserved (.ext1 0xC7#8 m) : Parser Instr) (m :: X) = _
        rw [Parser.bind_run, pByte_cons]; dsimp only; rw [hg]; rfl
  | accMoffs w o =>
    cases w
    · (refine dec1 (k := fun x => .mov (.accMoffs .b x)) (pMoffs_enc (v := o) h rest) ?_; rfl)
    · (refine dec1 (k := fun x => .mov (.accMoffs .v x)) (pMoffs_enc (v := o) h rest) ?_; rfl)
  | moffsAcc w o =>
    cases w
    · (refine dec1 (k := fun x => .mov (.moffsAcc .b x)) (pMoffs_enc (v := o) h rest) ?_; rfl)
    · (refine dec1 (k := fun x => .mov (.moffsAcc .v x)) (pMoffs_enc (v := o) h rest) ?_; rfl)
theorem movSreg (f : MovSregForm) : Statement (.movSreg f) := fun _ rest h _ => by
  cases f with
  | fromSreg d s => (refine dec1 (k := fun x => .movSreg (.fromSreg x.2 x.1)) (pIdxRm_enc (d := d) h s rest) ?_; rfl)
  | toSreg s d => (refine dec1 (k := fun x => .movSreg (.toSreg x.1 x.2)) (pIdxRm_enc (d := d) h s rest) ?_; rfl)
theorem movCr (f : MovSysForm) : Statement (.movCr f) := fun _ rest h _ => by
  cases f with
  | fromSys d n => cases d <;> cases n <;> rfl
  | toSys n s => cases n <;> cases s <;> rfl
  | badMod w m =>
    have hm : movSysOf w m = .badMod w m := if_pos (of_decide_eq_true h)
    cases w
    · change some (Instr.movCr (movSysOf false m), rest) = _; rw [hm]
    · change some (Instr.movCr (movSysOf true m), rest) = _; rw [hm]
theorem movDr (f : MovSysForm) : Statement (.movDr f) := fun _ rest h _ => by
  cases f with
  | fromSys d n => cases d <;> cases n <;> rfl
  | toSys n s => cases n <;> cases s <;> rfl
  | badMod w m =>
    have hm : movSysOf w m = .badMod w m := if_pos (of_decide_eq_true h)
    cases w
    · change some (Instr.movDr (movSysOf false m), rest) = _; rw [hm]
    · change some (Instr.movDr (movSysOf true m), rest) = _; rw [hm]
theorem movd (f : MovdForm) : Statement (.movd f) := fun _ rest h _ => by
  cases f with
  | toMm d s => (refine dec1 (k := fun x => .movd (.toMm x.1 x.2)) (pIdxRm_enc (d := s) h d rest) ?_; rfl)
  | fromMm d s => (refine dec1 (k := fun x => .movd (.fromMm x.2 x.1)) (pIdxRm_enc (d := d) h s rest) ?_; rfl)
theorem movq (f : MovqForm) : Statement (.movq f) := fun _ rest h _ => by
  cases f with
  | load d s => (refine dec1 (k := fun x => .movq (.load x.1 x.2)) (pMm_enc (d := s) h d rest) ?_; rfl)
  | store d s => (refine dec1 (k := fun x => .movq (.store x.2 x.1)) (pMm_enc (d := d) h s rest) ?_; rfl)
theorem movs (w : Wd) : Statement (.movs w) := fun _ _ _ _ => by cases w <;> rfl
theorem movsx (w : Wd) (dst : Reg) (src : Rm) : Statement (.movsx w dst src) := fun _ rest h _ => by
  cases w
  · (refine dec1 (k := fun x => .movsx .b x.1 x.2) (pRegRm_enc h dst rest) ?_; rfl)
  · (refine dec1 (k := fun x => .movsx .v x.1 x.2) (pRegRm_enc h dst rest) ?_; rfl)
theorem movzx (w : Wd) (dst : Reg) (src : Rm) : Statement (.movzx w dst src) := fun _ rest h _ => by
  cases w
  · (refine dec1 (k := fun x => .movzx .b x.1 x.2) (pRegRm_enc h dst rest) ?_; rfl)
  · (refine dec1 (k := fun x => .movzx .v x.1 x.2) (pRegRm_enc h dst rest) ?_; rfl)
theorem mul (w : Wd) (src : Rm) : Statement (.mul w src) := fun c rest h _ => by
  cases w
  · exact dec_rm (k := .mul .b) (fun l => 0xF6#8 :: l) h (g := 4) (by decide) (fun m X hg => by
        change pGroup3 c 0xF6 (m :: X) = _; unfold pGroup3; rw [Parser.bind_run, pByte_cons]; dsimp only; rw [hg]; rfl) rest
  · exact dec_rm (k := .mul .v) (fun l => 0xF7#8 :: l) h (g := 4) (by decide) (fun m X hg => by
        change pGroup3 c 0xF7 (m :: X) = _; unfold pGroup3; rw [Parser.bind_run, pByte_cons]; dsimp only; rw [hg]; rfl) rest
theorem neg (w : Wd) (dst : Rm) : Statement (.neg w dst) := fun c rest h _ => by
  cases w
  · exact dec_rm (k := .neg .b) (fun l => 0xF6#8 :: l) h (g := 3) (by decide) (fun m X hg => by
        change pGroup3 c 0xF6 (m :: X) = _; unfold pGroup3; rw [Parser.bind_run, pByte_cons]; dsimp only; rw [hg]; rfl) rest
  · exact dec_rm (k := .neg .v) (fun l => 0xF7#8 :: l) h (g := 3) (by decide) (fun m X hg => by
        change pGroup3 c 0xF7 (m :: X) = _; unfold pGroup3; rw [Parser.bind_run, pByte_cons]; dsimp only; rw [hg]; rfl) rest
theorem not_ (w : Wd) (dst : Rm) : Statement (.not_ w dst) := fun c rest h _ => by
  cases w
  · exact dec_rm (k := .not_ .b) (fun l => 0xF6#8 :: l) h (g := 2) (by decide) (fun m X hg => by
        change pGroup3 c 0xF6 (m :: X) = _; unfold pGroup3; rw [Parser.bind_run, pByte_cons]; dsimp only; rw [hg]; rfl) rest
  · exact dec_rm (k := .not_ .v) (fun l => 0xF7#8 :: l) h (g := 2) (by decide) (fun m X hg => by
        change pGroup3 c 0xF7 (m :: X) = _; unfold pGroup3; rw [Parser.bind_run, pByte_cons]; dsimp only; rw [hg]; rfl) rest
theorem or_ (f : AluForm) : Statement (.or_ f) := fun _ rest h _ => alu_rt h 1 (by decide) rest
theorem outp (w : Wd) (p : Port) : Statement (.outp w p) := fun _ _ _ _ => by cases w <;> cases p <;> rfl
theorem outs (w : Wd) : Statement (.outs w) := fun _ _ _ _ => by cases w <;> rfl
theorem packsswb (d : Idx8) (src : MmRm) : Statement (.packsswb d src) := fun _ rest h _ => by
  refine dec1 (k := fun x => .packsswb x.1 x.2) (pMm_enc h d rest) ?_; rfl
theorem packssdw (d : Idx8) (src : MmRm) : Statement (.packssdw d src) := fun _ rest h _ => by
  refine dec1 (k := fun x => .packssdw x.1 x.2) (pMm_enc h d rest) ?_; rfl
theorem packuswb (d : Idx8) (src : MmRm) : Statement (.packuswb d src) := fun _ rest h _ => by
  refine dec1 (k := fun x => .packuswb x.1 x.2) (pMm_enc h d rest) ?_; rfl
theorem paddb (d : Idx8) (src : MmRm) : Statement (.paddb d src) := fun _ rest h _ => by
  refine dec1 (k := fun x => .paddb x.1 x.2) (pMm_enc h d rest) ?_; rfl
theorem paddw (d : Idx8) (src : MmRm) : Statement (.paddw d src) := fun _ rest h _ => by
  refine dec1 (k := fun x => .paddw x.1 x.2) (pMm_enc h d rest) ?_; rfl
theorem paddd (d : Idx8) (src : MmRm) : Statement (.paddd d src) := fun _ rest h _ => by
  refine dec1 (k := fun x => .paddd x.1 x.2) (pMm_enc h d rest) ?_; rfl
theorem paddsb (d : Idx8) (src : MmRm) : Statement (.paddsb d src) := fun _ rest h _ => by
  refine dec1 (k := fun x => .paddsb x.1 x.2) (pMm_enc h d rest) ?_; rfl
theorem paddsw (d : Idx8) (src : MmRm) : Statement (.paddsw d src) := fun _ rest h _ => by
  refine dec1 (k := fun x => .paddsw x.1 x.2) (pMm_enc h d rest) ?_; rfl
theorem paddusb (d : Idx8) (src : MmRm) : Statement (.paddusb d src) := fun _ rest h _ => by
  refine dec1 (k := fun x => .paddusb x.1 x.2) (pMm_enc h d rest) ?_; rfl
theorem paddusw (d : Idx8) (src : MmRm) : Statement (.paddusw d src) := fun _ rest h _ => by
  refine dec1 (k := fun x => .paddusw x.1 x.2) (pMm_enc h d rest) ?_; rfl
theorem pand (d : Idx8) (src : MmRm) : Statement (.pand d src) := fun _ rest h _ => by
  refine dec1 (k := fun x => .pand x.1 x.2) (pMm_enc h d rest) ?_; rfl
theorem pandn (d : Idx8) (src : MmRm) : Statement (.pandn d src) := fun _ rest h _ => by
  refine dec1 (k := fun x => .pandn x.1 x.2) (pMm_enc h d rest) ?_; rfl
theorem pcmpeqb (d : Idx8) (src : MmRm) : Statement (.pcmpeqb d src) := fun _ rest h _ => by
  refine dec1 (k := fun x => .pcmpeqb x.1 x.2) (pMm_enc h d rest) ?_; rfl
theorem pcmpeqw (d : Idx8) (src : MmRm) : Statement (.pcmpeqw d src) := fun _ rest h _ => by
  refine dec1 (k := fun x => .pcmpeqw x.1 x.2) (pMm_enc h d rest) ?_; rfl
theorem pcmpeqd (d : Idx8) (src : MmRm) : Statement (.pcmpeqd d src) := fun _ rest h _ => by
  refine dec1 (k := fun x => .pcmpeqd x.1 x.2) (pMm_enc h d rest) ?_; rfl
theorem pcmpgtb (d : Idx8) (src : MmRm) : Statement (.pcmpgtb d src) := fun _ rest h _ => by
  refine dec1 (k := fun x => .pcmpgtb x.1 x.2) (pMm_enc h d rest) ?_; rfl
theorem pcmpgtw (d : Idx8) (src : MmRm) : Statement (.pcmpgtw d src) := fun _ rest h _ => by
  refine dec1 (k := fun x => .pcmpgtw x.1 x.2) (pMm_enc h d rest) ?_; rfl
theorem pcmpgtd (d : Idx8) (src : MmRm) : Statement (.pcmpgtd d src) := fun _ rest h _ => by
  refine dec1 (k := fun x => .pcmpgtd x.1 x.2) (pMm_enc h d rest) ?_; rfl
theorem pmaddwd (d : Idx8) (src : MmRm) : Statement (.pmaddwd d src) := fun _ rest h _ => by
  refine dec1 (k := fun x => .pmaddwd x.1 x.2) (pMm_enc h d rest) ?_; rfl
theorem pmulhw (d : Idx8) (src : MmRm) : Statement (.pmulhw d src) := fun _ rest h _ => by
  refine dec1 (k := fun x => .pmulhw x.1 x.2) (pMm_enc h d rest) ?_; rfl
theorem pmullw (d : Idx8) (src : MmRm) : Statement (.pmullw d src) := fun _ rest h _ => by
  refine dec1 (k := fun x => .pmullw x.1 x.2) (pMm_enc h d rest) ?_; rfl
theorem por (d : Idx8) (src : MmRm) : Statement (.por d src) := fun _ rest h _ => by
  refine dec1 (k := fun x => .por x.1 x.2) (pMm_enc h d rest) ?_; rfl
theorem psllw (f : MShift) : Statement (.psllw f) := fun _ rest h _ => by
  cases f with
  | rm d s => (refine dec1 (k := fun x => .psllw (.rm x.1 x.2)) (pMm_enc (d := s) h d rest) ?_; rfl)
  | imm d k => cases d <;> rfl
theorem pslld (f : MShift) : Statement (.pslld f) := fun _ rest h _ => by
  cases f with
  | rm d s => (refine dec1 (k := fun x => .pslld (.rm x.1 x.2)) (pMm_enc (d := s) h d rest) ?_; rfl)
  | imm d k => cases d <;> rfl
theorem psllq (f : MShift) : Statement (.psllq f) := fun _ rest h _ => by
  cases f with
  | rm d s => (refine dec1 (k := fun x => .psllq (.rm x.1 x.2)) (pMm_enc (d := s) h d rest) ?_; rfl)
  | imm d k => cases d <;> rfl
theorem psraw (f : MShift) : Statement (.psraw f) := fun _ rest h _ => by
  cases f with
  | rm d s => (refine dec1 (k := fun x => .psraw (.rm x.1 x.2)) (pMm_enc (d := s) h d rest) ?_; rfl)
  | imm d k => cases d <;> rfl
theorem psrad (f : MShift) : Statement (.psrad f) := fun _ rest h _ => by
  cases f with
  | rm d s => (refine dec1 (k := fun x => .psrad (.rm x.1 x.2)) (pMm_enc (d := s) h d rest) ?_; rfl)
  | imm d k => cases d <;> rfl
theorem psrlw (f : MShift) : Statement (.psrlw f) := fun _ rest h _ => by
  cases f with
  | rm d s => (refine dec1 (k := fun x => .psrlw (.rm x.1 x.2)) (pMm_enc (d := s) h d rest) ?_; rfl)
  | imm d k => cases d <;> rfl
theorem psrld (f : MShift) : Statement (.psrld f) := fun _ rest h _ => by
  cases f with
  | rm d s => (refine dec1 (k := fun x => .psrld (.rm x.1 x.2)) (pMm_enc (d := s) h d rest) ?_; rfl)
  | imm d k => cases d <;> rfl
theorem psrlq (f : MShift) : Statement (.psrlq f) := fun _ rest h _ => by
  cases f with
  | rm d s => (refine dec1 (k := fun x => .psrlq (.rm x.1 x.2)) (pMm_enc (d := s) h d rest) ?_; rfl)
  | imm d k => cases d <;> rfl
theorem psubb (d : Idx8) (src : MmRm) : Statement (.psubb d src) := fun _ rest h _ => by
  refine dec1 (k := fun x => .psubb x.1 x.2) (pMm_enc h d rest) ?_; rfl
theorem psubw (d : Idx8) (src : MmRm) : Statement (.psubw d src) := fun _ rest h _ => by
  refine dec1 (k := fun x => .psubw x.1 x.2) (pMm_enc h d rest) ?_; rfl
theorem psubd (d : Idx8) (src : MmRm) : Statement (.psubd d src) := fun _ rest h _ => by
  refine dec1 (k := fun x => .psubd x.1 x.2) (pMm_enc h d rest) ?_; rfl
theorem psubsb (d : Idx8) (src : MmRm) : Statement (.psubsb d src) := fun _ rest h _ => by
  refine dec1 (k := fun x => .psubsb x.1 x.2) (pMm_enc h d rest) ?_; rfl
theorem psubsw (d : Idx8) (src : MmRm) : Statement (.psubsw d src) := fun _ rest h _ => by
  refine dec1 (k := fun x => .psubsw x.1 x.2) (pMm_enc h d rest) ?_; rfl
theorem psubusb (d : Idx8) (src : MmRm) : Statement (.psubusb d src) := fun _ rest h _ => by
  refine dec1 (k := fun x => .psubusb x.1 x.2) (pMm_enc h d rest) ?_; rfl
theorem psubusw (d : Idx8) (src : MmRm) : Statement (.psubusw d src) := fun _ rest h _ => by
  refine dec1 (k := fun x => .psubusw x.1 x.2) (pMm_enc h d rest) ?_; rfl
theorem punpckhbw (d : Idx8) (src : MmRm) : Statement (.punpckhbw d src) := fun _ rest h _ => by
  refine dec1 (k := fun x => .punpckhbw x.1 x.2) (pMm_enc h d rest) ?_; rfl
theorem punpckhwd (d : Idx8) (src : MmRm) : Statement (.punpckhwd d src) := fun _ rest h _ => by
  refine dec1 (k := fun x => .punpckhwd x.1 x.2) (pMm_enc h d rest) ?_; rfl
theorem punpckhdq (d : Idx8) (src : MmRm) : Statement (.punpckhdq d src) := fun _ rest h _ => by
  refine dec1 (k := fun x => .punpckhdq x.1 x.2) (pMm_enc h d rest) ?_; rfl
theorem punpcklbw (d : Idx8) (src : MmRm) : Statement (.punpcklbw d src) := fun _ rest h _ => by
  refine dec1 (k := fun x => .punpcklbw x.1 x.2) (pMm_enc h d rest) ?_; rfl
theorem punpcklwd (d : Idx8) (src : MmRm) : Statement (.punpcklwd d src) := fun _ rest h _ => by
  refine dec1 (k := fun x => .punpcklwd x.1 x.2) (pMm_enc h d rest) ?_; rfl
theorem punpckldq (d : Idx8) (src : MmRm) : Statement (.punpckldq d src) := fun _ rest h _ => by
  refine dec1 (k := fun x => .punpckldq x.1 x.2) (pMm_enc h d rest) ?_; rfl
theorem pxor (d : Idx8) (src : MmRm) : Statement (.pxor d src) := fun _ rest h _ => by
  refine dec1 (k := fun x => .pxor x.1 x.2) (pMm_enc h d rest) ?_; rfl
theorem pop (f : PopForm) : Statement (.pop f) := fun c rest h _ => by
  cases f with
  | rm d =>
    refine dec_rm (k := fun d => .pop (.rm d)) (fun l => 0x8F#8 :: l) h (g := 0) (by decide) (fun m X hg => ?_) rest
    change (do
      let m ← pByte
      if regOf m == 0 then return .pop (.rm (← pRmOf c m)) else return .reserved (.ext1 0x8F#8 m) : Parser Instr)
        (m :: X) = _
    rw [Parser.bind_run, pByte_cons]; dsimp only; rw [hg]; rfl
  | reg r => cases r <;> rfl
  | sreg s => cases s <;> first | rfl | cases h
theorem push (f : PushForm) : Statement (.push f) := fun c rest h _ => by
  cases f with
  | rm d =>
    exact group5_rt (d := d) (k := fun d => .push (.rm d)) h 6 (by decide) (fun m X hg => by
      unfold pGroup45; rw [Parser.bind_run, pByte_cons]; dsimp only; rw [hg]; rfl) rest
  | reg r => cases r <;> rfl
  | imm i =>
    cases i with
    | v x => (refine dec1 (k := fun x => .push (.imm (.v x))) (pOp_enc (v := x) h rest) ?_; rfl)
    | b x => rfl
  | sreg s => cases s <;> rfl
theorem rol (f : ShiftForm) : Statement (.rol f) := fun _ rest h _ => shift_rt h 0 (by decide) (by decide) rest
theorem ror (f : ShiftForm) : Statement (.ror f) := fun _ rest h _ => shift_rt h 1 (by decide) (by decide) rest
theorem rcl (f : ShiftForm) : Statement (.rcl f) := fun _ rest h _ => shift_rt h 2 (by decide) (by decide) rest
theorem rcr (f : ShiftForm) : Statement (.rcr f) := fun _ rest h _ => shift_rt h 3 (by decide) (by decide) rest
theorem ret (f : RetForm) : Statement (.ret f) := fun _ rest _ _ => by
  cases f with
  | near i =>
    cases i with
    | none => rfl
    | some k => (refine dec1 (k := fun x => .ret (.near (some x))) (pWord_enc k rest) ?_; rfl)
  | far i =>
    cases i with
    | none => rfl
    | some k => (refine dec1 (k := fun x => .ret (.far (some x))) (pWord_enc k rest) ?_; rfl)
theorem salShl (f : ShiftForm) : Statement (.salShl f) := fun _ rest h _ => shift_rt h 4 (by decide) (by decide) rest
theorem shr (f : ShiftForm) : Statement (.shr f) := fun _ rest h _ => shift_rt h 5 (by decide) (by decide) rest
theorem sar (f : ShiftForm) : Statement (.sar f) := fun _ rest h _ => shift_rt h 7 (by decide) (by decide) rest
theorem sbb (f : AluForm) : Statement (.sbb f) := fun _ rest h _ => alu_rt h 3 (by decide) rest
theorem scas (w : Wd) : Statement (.scas w) := fun _ _ _ _ => by cases w <;> rfl
theorem seto (dst : Rm) : Statement (.seto dst) := fun _ rest h _ => by
  refine dec1 (k := fun x => .seto x.2) (pRegRm_enc h .eax rest) ?_; rfl
theorem setno (dst : Rm) : Statement (.setno dst) := fun _ rest h _ => by
  refine dec1 (k := fun x => .setno x.2) (pRegRm_enc h .eax rest) ?_; rfl
theorem setb (dst : Rm) : Statement (.setb dst) := fun _ rest h _ => by
  refine dec1 (k := fun x => .setb x.2) (pRegRm_enc h .eax rest) ?_; rfl
theorem setae (dst : Rm) : Statement (.setae dst) := fun _ rest h _ => by
  refine dec1 (k := fun x => .setae x.2) (pRegRm_enc h .eax rest) ?_; rfl
theorem sete (dst : Rm) : Statement (.sete dst) := fun _ rest h _ => by
  refine dec1 (k := fun x => .sete x.2) (pRegRm_enc h .eax rest) ?_; rfl
theorem setne (dst : Rm) : Statement (.setne dst) := fun _ rest h _ => by
  refine dec1 (k := fun x => .setne x.2) (pRegRm_enc h .eax rest) ?_; rfl
theorem setbe (dst : Rm) : Statement (.setbe dst) := fun _ rest h _ => by
  refine dec1 (k := fun x => .setbe x.2) (pRegRm_enc h .eax rest) ?_; rfl
theorem seta (dst : Rm) : Statement (.seta dst) := fun _ rest h _ => by
  refine dec1 (k := fun x => .seta x.2) (pRegRm_enc h .eax rest) ?_; rfl
theorem sets (dst : Rm) : Statement (.sets dst) := fun _ rest h _ => by
  refine dec1 (k := fun x => .sets x.2) (pRegRm_enc h .eax rest) ?_; rfl
theorem setns (dst : Rm) : Statement (.setns dst) := fun _ rest h _ => by
  refine dec1 (k := fun x => .setns x.2) (pRegRm_enc h .eax rest) ?_; rfl
theorem setp (dst : Rm) : Statement (.setp dst) := fun _ rest h _ => by
  refine dec1 (k := fun x => .setp x.2) (pRegRm_enc h .eax rest) ?_; rfl
theorem setnp (dst : Rm) : Statement (.setnp dst) := fun _ rest h _ => by
  refine dec1 (k := fun x => .setnp x.2) (pRegRm_enc h .eax rest) ?_; rfl
theorem setl (dst : Rm) : Statement (.setl dst) := fun _ rest h _ => by
  refine dec1 (k := fun x => .setl x.2) (pRegRm_enc h .eax rest) ?_; rfl
theorem setge (dst : Rm) : Statement (.setge dst) := fun _ rest h _ => by
  refine dec1 (k := fun x => .setge x.2) (pRegRm_enc h .eax rest) ?_; rfl
theorem setle (dst : Rm) : Statement (.setle dst) := fun _ rest h _ => by
  refine dec1 (k := fun x => .setle x.2) (pRegRm_enc h .eax rest) ?_; rfl
theorem setg (dst : Rm) : Statement (.setg dst) := fun _ rest h _ => by
  refine dec1 (k := fun x => .setg x.2) (pRegRm_enc h .eax rest) ?_; rfl
theorem sgdt (m : Rm) : Statement (.sgdt m) := fun c rest h _ =>
  dec_rm (k := .sgdt) (fun l => 0x0F#8 :: 0x01#8 :: l) h (g := 0) (by decide) (fun m X hg => by
      change pGroup7 c (m :: X) = _; unfold pGroup7; rw [Parser.bind_run, pByte_cons]; dsimp only; rw [hg]; rfl) rest
theorem sidt (m : Rm) : Statement (.sidt m) := fun c rest h _ =>
  dec_rm (k := .sidt) (fun l => 0x0F#8 :: 0x01#8 :: l) h (g := 1) (by decide) (fun m X hg => by
      change pGroup7 c (m :: X) = _; unfold pGroup7; rw [Parser.bind_run, pByte_cons]; dsimp only; rw [hg]; rfl) rest
theorem shld (f : ShxdForm) : Statement (.shld f) := fun _ rest h _ => by
  cases f with
  | imm d s k => (refine two_rm (d := d) (b := k) (e := [k]) (q := pByte) (k := fun x y => .shld (.imm x.2 x.1 y)) h s rfl ?_; rfl)
  | cl d s => (refine dec1 (k := fun x => .shld (.cl x.2 x.1)) (pRegRm_enc (d := d) h s rest) ?_; rfl)
theorem shrd (f : ShxdForm) : Statement (.shrd f) := fun _ rest h _ => by
  cases f with
  | imm d s k => (refine two_rm (d := d) (b := k) (e := [k]) (q := pByte) (k := fun x y => .shrd (.imm x.2 x.1 y)) h s rfl ?_; rfl)
  | cl d s => (refine dec1 (k := fun x => .shrd (.cl x.2 x.1)) (pRegRm_enc (d := d) h s rest) ?_; rfl)
theorem sldt (dst : Rm) : Statement (.sldt dst) := fun c rest h _ =>
  dec_rm (k := .sldt) (fun l => 0x0F#8 :: 0x00#8 :: l) h (g := 0) (by decide) (fun m X hg => by
      change pGroup6 c (m :: X) = _; unfold pGroup6; rw [Parser.bind_run, pByte_cons]; dsimp only; rw [hg]; rfl) rest
theorem smsw (dst : Rm) : Statement (.smsw dst) := fun c rest h _ =>
  dec_rm (k := .smsw) (fun l => 0x0F#8 :: 0x01#8 :: l) h (g := 4) (by decide) (fun m X hg => by
      change pGroup7 c (m :: X) = _; unfold pGroup7; rw [Parser.bind_run, pByte_cons]; dsimp only; rw [hg]; rfl) rest
theorem stos (w : Wd) : Statement (.stos w) := fun _ _ _ _ => by cases w <;> rfl
theorem str (dst : Rm) : Statement (.str dst) := fun c rest h _ =>
  dec_rm (k := .str) (fun l => 0x0F#8 :: 0x00#8 :: l) h (g := 1) (by decide) (fun m X hg => by
      change pGroup6 c (m :: X) = _; unfold pGroup6; rw [Parser.bind_run, pByte_cons]; dsimp only; rw [hg]; rfl) rest
theorem sub (f : AluForm) : Statement (.sub f) := fun _ rest h _ => alu_rt h 5 (by decide) rest
theorem test (f : TestForm) : Statement (.test f) := fun c rest h _ => by
  cases f with
  | rmR w d s =>
    cases w
    · (refine dec1 (k := fun x => .test (.rmR .b x.2 x.1)) (pRegRm_enc (d := d) h s rest) ?_; rfl)
    · (refine dec1 (k := fun x => .test (.rmR .v x.2 x.1)) (pRegRm_enc (d := d) h s rest) ?_; rfl)
  | accImm w i =>
    have hp := pImm_enc (w := w) (v := i) h rest
    cases w
    · (refine dec1 (k := fun x => .test (.accImm .b x)) hp ?_; rfl)
    · (refine dec1 (k := fun x => .test (.accImm .v x)) hp ?_; rfl)
  | rmImm w d i =>
    have h' : WellFormed.rm c d = true ∧ WellFormed.imm c w i = true := by simpa [Instr.wf, WellFormed.test] using h
    have hp := pImm_enc h'.2 rest
    cases w
    · exact rm_two (k := fun d i => .test (.rmImm .b d i)) (0xF6#8 :: ·) h'.1 (g := 0) (by decide) hp fun m X hg => by
        change pGroup3 c 0xF6 (m :: X) = _; unfold pGroup3; rw [Parser.bind_run, pByte_cons]; dsimp only; rw [hg]; rfl
    · exact rm_two (k := fun d i => .test (.rmImm .v d i)) (0xF7#8 :: ·) h'.1 (g := 0) (by decide) hp fun m X hg => by
        change pGroup3 c 0xF7 (m :: X) = _; unfold pGroup3; rw [Parser.bind_run, pByte_cons]; dsimp only; rw [hg]; rfl
theorem verr (src : Rm) : Statement (.verr src) := fun c rest h _ =>
  dec_rm (k := .verr) (fun l => 0x0F#8 :: 0x00#8 :: l) h (g := 4) (by decide) (fun m X hg => by
      change pGroup6 c (m :: X) = _; unfold pGroup6; rw [Parser.bind_run, pByte_cons]; dsimp only; rw [hg]; rfl) rest
theorem verw (src : Rm) : Statement (.verw src) := fun c rest h _ =>
  dec_rm (k := .verw) (fun l => 0x0F#8 :: 0x00#8 :: l) h (g := 5) (by decide) (fun m X hg => by
      change pGroup6 c (m :: X) = _; unfold pGroup6; rw [Parser.bind_run, pByte_cons]; dsimp only; rw [hg]; rfl) rest
theorem xadd (w : Wd) (dst : Rm) (src : Reg) : Statement (.xadd w dst src) := fun _ rest h _ => by
  cases w
  · (refine dec1 (k := fun x => .xadd .b x.2 x.1) (pRegRm_enc h src rest) ?_; rfl)
  · (refine dec1 (k := fun x => .xadd .v x.2 x.1) (pRegRm_enc h src rest) ?_; rfl)
theorem xchg (f : XchgForm) : Statement (.xchg f) := fun _ rest h _ => by
  cases f with
  | rmR w a b =>
    cases w
    · (refine dec1 (k := fun x => .xchg (.rmR .b x.2 x.1)) (pRegRm_enc (d := a) h b rest) ?_; rfl)
    · (refine dec1 (k := fun x => .xchg (.rmR .v x.2 x.1)) (pRegRm_enc (d := a) h b rest) ?_; rfl)
  | acc r => cases r <;> first | rfl | cases h
theorem xor_ (f : AluForm) : Statement (.xor_ f) := fun _ rest h _ => alu_rt h 6 (by decide) rest
theorem segCs : Statement .segCs := fun _ _ _ _ => rfl
theorem segSs : Statement .segSs := fun _ _ _ _ => rfl
theorem segDs : Statement .segDs := fun _ _ _ _ => rfl
theorem segEs : Statement .segEs := fun _ _ _ _ => rfl
theorem segFs : Statement .segFs := fun _ _ _ _ => rfl
theorem segGs : Statement .segGs := fun _ _ _ _ => rfl
theorem opSize : Statement .opSize := fun _ _ _ _ => rfl
theorem adSize : Statement .adSize := fun _ _ _ _ => rfl
theorem lock : Statement .lock := fun _ _ _ _ => rfl
theorem rep : Statement .rep := fun _ _ _ _ => rfl
theorem repne : Statement .repne := fun _ _ _ _ => rfl
theorem invalidOpcode : Statement .invalidOpcode := fun _ _ _ _ => rfl
theorem aaa : Statement .aaa := fun _ _ _ _ => rfl
theorem aas : Statement .aas := fun _ _ _ _ => rfl
theorem cbw : Statement .cbw := fun ⟨o, a, p⟩ _ h _ => by
  have h' : o = false := by simpa [Instr.wf] using h
  subst h'; rfl
theorem cwde : Statement .cwde := fun ⟨o, a, p⟩ _ h _ => by
  have h' : o = true := by simpa [Instr.wf] using h
  subst h'; rfl
theorem clc : Statement .clc := fun _ _ _ _ => rfl
theorem cld : Statement .cld := fun _ _ _ _ => rfl
theorem cli : Statement .cli := fun _ _ _ _ => rfl
theorem clts : Statement .clts := fun _ _ _ _ => rfl
theorem cmc : Statement .cmc := fun _ _ _ _ => rfl
theorem cpuid : Statement .cpuid := fun _ _ _ _ => rfl
theorem cwd : Statement .cwd := fun ⟨o, a, p⟩ _ h _ => by
  have h' : o = false := by simpa [Instr.wf] using h
  subst h'; rfl
theorem cdq : Statement .cdq := fun ⟨o, a, p⟩ _ h _ => by
  have h' : o = true := by simpa [Instr.wf] using h
  subst h'; rfl
theorem daa : Statement .daa := fun _ _ _ _ => rfl
theorem das : Statement .das := fun _ _ _ _ => rfl
theorem emms : Statement .emms := fun _ _ _ _ => rfl
theorem f2xm1 : Statement .f2xm1 := fun _ _ _ _ => rfl
theorem fabs : Statement .fabs := fun _ _ _ _ => rfl
theorem fchs : Statement .fchs := fun _ _ _ _ => rfl
theorem fclex : Statement .fclex := fun ⟨o, a, p⟩ _ h _ => by
  have h' : p = false := by simpa [Instr.wf] using h
  subst h'; rfl
theorem fnclex : Statement .fnclex := fun _ _ _ _ => rfl
theorem fcompp : Statement .fcompp := fun _ _ _ _ => rfl
theorem fcos : Statement .fcos := fun _ _ _ _ => rfl
theorem fdecstp : Statement .fdecstp := fun _ _ _ _ => rfl
theorem fincstp : Statement .fincstp := fun _ _ _ _ => rfl
theorem finit : Statement .finit := fun ⟨o, a, p⟩ _ h _ => by
  have h' : p = false := by simpa [Instr.wf] using h
  subst h'; rfl
theorem fninit : Statement .fninit := fun _ _ _ _ => rfl
theorem fld1 : Statement .fld1 := fun _ _ _ _ => rfl
theorem fldl2t : Statement .fldl2t := fun _ _ _ _ => rfl
theorem fldl2e : Statement .fldl2e := fun _ _ _ _ => rfl
theorem fldpi : Statement .fldpi := fun _ _ _ _ => rfl
theorem fldlg2 : Statement .fldlg2 := fun _ _ _ _ => rfl
theorem fldln2 : Statement .fldln2 := fun _ _ _ _ => rfl
theorem fldz : Statement .fldz := fun _ _ _ _ => rfl
theorem fnop : Statement .fnop := fun _ _ _ _ => rfl
theorem fpatan : Statement .fpatan := fun _ _ _ _ => rfl
theorem fprem : Statement .fprem := fun _ _ _ _ => rfl
theorem fprem1 : Statement .fprem1 := fun _ _ _ _ => rfl
theorem fptan : Statement .fptan := fun _ _ _ _ => rfl
theorem frndint : Statement .frndint := fun _ _ _ _ => rfl
theorem fscale : Statement .fscale := fun _ _ _ _ => rfl
theorem fsin : Statement .fsin := fun _ _ _ _ => rfl
theorem fsincos : Statement .fsincos := fun _ _ _ _ => rfl
theorem fsqrt : Statement .fsqrt := fun _ _ _ _ => rfl
theorem ftst : Statement .ftst := fun _ _ _ _ => rfl
theorem fucompp : Statement .fucompp := fun _ _ _ _ => rfl
theorem fxam : Statement .fxam := fun _ _ _ _ => rfl
theorem fxtract : Statement .fxtract := fun _ _ _ _ => rfl
theorem fyl2x : Statement .fyl2x := fun _ _ _ _ => rfl
theorem fyl2xp1 : Statement .fyl2xp1 := fun _ _ _ _ => rfl
theorem hlt : Statement .hlt := fun _ _ _ _ => rfl
theorem int3 : Statement .int3 := fun _ _ _ _ => rfl
theorem into : Statement .into := fun _ _ _ _ => rfl
theorem invd : Statement .invd := fun _ _ _ _ => rfl
theorem iret : Statement .iret := fun ⟨o, a, p⟩ _ h _ => by
  have h' : o = false := by simpa [Instr.wf] using h
  subst h'; rfl
theorem iretd : Statement .iretd := fun ⟨o, a, p⟩ _ h _ => by
  have h' : o = true := by simpa [Instr.wf] using h
  subst h'; rfl
theorem lahf : Statement .lahf := fun _ _ _ _ => rfl
theorem leave : Statement .leave := fun _ _ _ _ => rfl
theorem nop : Statement .nop := fun _ _ _ _ => rfl
theorem popa : Statement .popa := fun ⟨o, a, p⟩ _ h _ => by
  have h' : o = false := by simpa [Instr.wf] using h
  subst h'; rfl
theorem popad : Statement .popad := fun ⟨o, a, p⟩ _ h _ => by
  have h' : o = true := by simpa [Instr.wf] using h
  subst h'; rfl
theorem popf : Statement .popf := fun ⟨o, a, p⟩ _ h _ => by
  have h' : o = false := by simpa [Instr.wf] using h
  subst h'; rfl
theorem popfd : Statement .popfd := fun ⟨o, a, p⟩ _ h _ => by
  have h' : o = true := by simpa [Instr.wf] using h
  subst h'; rfl
theorem pusha : Statement .pusha := fun ⟨o, a, p⟩ _ h _ => by
  have h' : o = false := by simpa [Instr.wf] using h
  subst h'; rfl
theorem pushad : Statement .pushad := fun ⟨o, a, p⟩ _ h _ => by
  have h' : o = true := by simpa [Instr.wf] using h
  subst h'; rfl
theorem pushf : Statement .pushf := fun ⟨o, a, p⟩ _ h _ => by
  have h' : o = false := by simpa [Instr.wf] using h
  subst h'; rfl
theorem pushfd : Statement .pushfd := fun ⟨o, a, p⟩ _ h _ => by
  have h' : o = true := by simpa [Instr.wf] using h
  subst h'; rfl
theorem rdmsr : Statement .rdmsr := fun _ _ _ _ => rfl
theorem rdpmc : Statement .rdpmc := fun _ _ _ _ => rfl
theorem rdtsc : Statement .rdtsc := fun _ _ _ _ => rfl
theorem rsm : Statement .rsm := fun _ _ _ _ => rfl
theorem sahf : Statement .sahf := fun _ _ _ _ => rfl
theorem stc : Statement .stc := fun _ _ _ _ => rfl
theorem std : Statement .std := fun _ _ _ _ => rfl
theorem sti : Statement .sti := fun _ _ _ _ => rfl
theorem ud2 : Statement .ud2 := fun _ _ _ _ => rfl
theorem wait : Statement .wait := fun ⟨o, a, p⟩ rest _ h => by
  cases h rfl; cases p <;> rfl
theorem wbinvd : Statement .wbinvd := fun _ _ _ _ => rfl
theorem wrmsr : Statement .wrmsr := fun _ _ _ _ => rfl
theorem xlat : Statement .xlat := fun _ _ _ _ => rfl

end Sys2Proof.Laws.RoundTrip
end

