-- ==== Sys2Proof/Laws/StackRuns.lean ====
section
/-! SUPPORT. Pushing, popping, descriptors and segment registers: what each operation does where it succeeds, and what it leaves alone (`Still`, `Quiet`, `Seen`). -/

namespace Sys2Proof.Machine

theorem access_same {r off n al k ps} {s u : State} (h : access r off n al k s = .ok ps u) :
    u.gpr = s.gpr ∧ u.seg = s.seg ∧ u.flags = s.flags ∧ u.cr0 = s.cr0 ∧ u.pfx = s.pfx ∧ u.npc = s.npc := by
  have := (access_walks r off n al k s ps u h).rest
  rw [this]; exact ⟨rfl, rfl, rfl, rfl, rfl, rfl⟩

theorem locate_same {sz m k l} {s u : State} (h : locate sz m k s = .ok l u) :
    u.gpr = s.gpr ∧ u.seg = s.seg ∧ u.flags = s.flags ∧ u.cr0 = s.cr0 ∧ u.pfx = s.pfx ∧ u.npc = s.npc := by
  have := (locate_walks sz m k s l u h).rest
  rw [this]; exact ⟨rfl, rfl, rfl, rfl, rfl, rfl⟩

theorem pushN_run {n v} {s t : State} (h : Pushes n [v] s t) : pushN n v s = .ok () t := by
  obtain ⟨ps, u, h1, rfl⟩ := h
  simp only [pushN, M.bind_run, M.get_run, writeSeg, h1, storeAt_run, setSp_run]

theorem pushes_append {n} : ∀ {vs ws} {s t : State}, Pushes n (vs ++ ws) s t ↔ ∃ u, Pushes n vs s u ∧ Pushes n ws u t
  | [], ws, s, t => ⟨fun h => ⟨s, rfl, h⟩, fun ⟨u, h1, h2⟩ => by cases h1; exact h2⟩
  | v :: vs, ws, s, t => by
    constructor
    · rintro ⟨ps, u, h1, h2⟩
      obtain ⟨w, h3, h4⟩ := pushes_append.1 h2
      exact ⟨w, ⟨ps, u, h1, h3⟩, h4⟩
    · rintro ⟨w, ⟨ps, u, h1, h3⟩, h4⟩
      exact ⟨ps, u, h1, pushes_append.2 ⟨w, h3, h4⟩⟩

theorem pushes_cons {n v vs} {s t : State} (h : Pushes n (v :: vs) s t) : ∃ u, pushN n v s = .ok () u ∧ Pushes n vs u t := by
  obtain ⟨u, h1, h2⟩ := (pushes_append (vs := [v])).1 h
  exact ⟨u, pushN_run h1, h2⟩

theorem popN_run {n v} {s t : State} (h : Pops n [v] s t) : popN n s = .ok v t := by
  obtain ⟨ps, u, h1, rfl, rfl⟩ := h
  simp only [popN, M.bind_run, M.get_run, readSeg, h1, loadAt_run, M.modify_run, M.pure_run]
  rfl

theorem pops_cons {n v vs} {s t : State} (h : Pops n (v :: vs) s t) : ∃ u, popN n s = .ok v u ∧ Pops n vs u t := by
  obtain ⟨ps, u, h1, h2, h3⟩ := h
  exact ⟨_, popN_run ⟨ps, u, h1, h2, rfl⟩, h3⟩

theorem popReg_run {sz r v} {s u : State} (h : Pops sz.bytes [v] s u) : popReg sz r s = .ok () (u.setReg sz r (BitVec.ofNat sz.bits v)) := by
  simp only [popReg, popSz, M.bind_run, popN_run h, M.pure_run, setReg_run]

theorem readSeg_run {r off n al ps} {s u : State} (h : access r off n al .r s = .ok ps u) : readSeg r off n al s = .ok (u.at ps) u := by
  simp only [readSeg, M.bind_run, h, loadAt_run]; rfl

theorem writeSeg_run {r off n al v ps} {s u : State} (h : access r off n al .w s = .ok ps u) : writeSeg r off n al v s = .ok () (u.stored ps v) := by
  simp only [writeSeg, M.bind_run, h, storeAt_run]

theorem readDesc_walk {sel d} {s t : State} (h : readDesc sel s = .ok d t) : t.seg = s.seg ∧ t.gpr = s.gpr ∧ t.cr0 = s.cr0 ∧ t.flags = s.flags ∧ t.cpl = s.cpl := by
  have := (readDesc_walks sel s d t h).rest; rw [this]; exact ⟨rfl, rfl, rfl, rfl, rfl⟩

theorem curPl_of {s t : State} (h1 : t.cr0 = s.cr0) (h2 : t.flags = s.flags) (h3 : t.cpl = s.cpl) : t.curPl = s.curPl := by
  unfold State.curPl State.pe; rw [h1, h2, h3]

theorem needDesc_run {sel e d} {s t : State} (h : readDesc sel s = .ok d t) : needDesc sel e s = match d with | none => .error (.exc e) t | some d => .ok d t := by
  simp only [needDesc, M.bind_run, h]
  cases d <;> rfl

theorem needDesc_ok {sel e d} {s t : State} (h : readDesc sel s = .ok (some d) t) : needDesc sel e s = .ok d t := by
  rw [needDesc_run h]

theorem needDesc_none {sel e} {s t : State} (h : readDesc sel s = .ok none t) : needDesc sel e s = .error (.exc e) t := by
  rw [needDesc_run h]

theorem loadSegReg_run {r sel} {s t : State} (h : SegLoads r sel s t) : loadSegReg r sel s = .ok () t := by
  unfold SegLoads at h
  unfold loadSegReg
  simp only [M.bind_run, M.get_run, M.ite_run]
  by_cases hp : s.prot = true
  · rw [if_pos hp] at h ⊢
    by_cases hn : isNull sel = true
    · rw [if_pos hn] at h
      rw [if_neg h.1, h.2]
      simp only [loadDataSeg, M.ite_run, hn, if_true, M.modify_run]
    · rw [if_neg hn] at h
      obtain ⟨d, s1, s2, h1, h2, h3, rfl⟩ := h
      have hw := readDesc_walk h1
      have hc := curPl_of hw.2.2.1 hw.2.2.2.1 hw.2.2.2.2
      have hn' : isNull sel = false := by simpa using hn
      by_cases hr : r = .ss
      · rw [if_pos hr] at h2 ⊢
        obtain ⟨g1, g2, g3, g4⟩ := h2
        subst hr
        simp only [loadSs, M.bind_run, raiseIf_run, hn', needDesc_ok h1, M.get_run, hc, g1, g2, g3, g4, Bool.false_eq_true, if_false, bne_self_eq_false, Bool.not_true, Bool.or_self, h3, setSeg_run]
      · rw [if_neg hr] at h2 ⊢
        obtain ⟨g1, g2, g3⟩ := h2
        simp only [loadDataSeg, M.ite_run, M.bind_run, raiseIf_run, hn', needDesc_ok h1, M.get_run, hc, g1, Bool.not_true, Bool.false_eq_true, if_false]
        have : (!(d.isCode && d.conf) && (decide (d.dpl < rpl sel) || decide (d.dpl < s.curPl))) = false := by
          rcases g2 with g | ⟨ga, gb⟩
          · rw [g]; rfl
          · rw [decide_eq_false (by omega), decide_eq_false (by omega)]; simp
        simp only [this, Bool.false_eq_true, if_false, g3, Bool.not_true, h3, setSeg_run]
  · rw [if_neg hp] at h ⊢
    rw [h]; rfl

theorem pushValue_run {sz v} {s t : State} (hg : ¬ (s.real = true ∧ s.sp = 1)) (h : Pushes sz.bytes [v.toNat] s t) : pushValue sz v s = .ok () t := by
  have : (s.real && s.sp == 1) = false := by
    simpa [Bool.and_eq_false_iff] using fun h => (by simpa [h] using hg)
  simp only [pushValue, pushGuard, M.bind_run, M.get_run, M.ite_run, this, Bool.false_eq_true, if_false, M.pure_run, pushSz, pushN_run h]

theorem run_down {m : M Unit} {s u : State} (hp : s.plain) (h : m s = .error .shutdown u) : run m s = .next (s.rollback u).shut := by
  unfold run runWith
  rw [hp.1, hp.2, h]; rfl

theorem mergeFlags_popped (s : State) (v : Dword) (hv : s.v86 = true → s.flags.iopl = 3) :
    (if s.os32 && !s.v86 then { s.flags.merge v s.popfMask with vif := false, vip := false } else s.flags.merge v s.popfMask) = s.poppedFlags v := by
  have e3 : ∀ a : BitVec 2, a &&& 3#2 = a := by decide
  rw [Flags.merge_eq]
  unfold State.popfMask State.poppedFlags
  cases h1 : s.v86
  · cases h2 : s.os32 <;> by_cases h3 : s.curPl = 0 <;> by_cases h4 : s.flags.iopl.toNat < s.curPl <;>
      simp [h3, h4, show (s.curPl ≤ s.flags.iopl.toNat ↔ ¬ s.flags.iopl.toNat < s.curPl) by omega, e3] <;> omega
  · have h5 : s.curPl = 3 := by
      unfold State.v86 at h1; unfold State.curPl; simp only [Bool.and_eq_true] at h1; simp [h1]
    have h6 := hv h1
    cases h2 : s.os32 <;> simp [h5, h6]

theorem display_run {m} : ∀ {k fp} {s t : State}, Display m k fp s t → copyDisplay m k fp s = .ok () t
  | 0, _, _, _, h => by cases h; rfl
  | k + 1, fp, s, t, h => by
    obtain ⟨ps, u, w, h1, h2, h3⟩ := h
    simp only [copyDisplay, M.bind_run, M.get_run, readSeg_run h1, pushN_run h2]
    exact display_run h3

/-- Only general registers, memory and the latches changed. -/
def Quiet (s t : State) : Prop := t = { s with gpr := t.gpr, mem := t.mem, tlb := t.tlb, fresh := t.fresh, adLog := t.adLog, dbgHits := t.dbgHits, ioLog := t.ioLog }

/-- Only memory and the latches changed. -/
def Still (s t : State) : Prop := t = { s with mem := t.mem, tlb := t.tlb, fresh := t.fresh, adLog := t.adLog, dbgHits := t.dbgHits, ioLog := t.ioLog }

theorem Still.refl (s : State) : Still s s := rfl

theorem Still.trans {a b c : State} (h : Still a b) (k : Still b c) : Still a c := by
  unfold Still at *
  rw [h] at k; exact k

theorem Quiet.trans {a b c : State} (h : Quiet a b) (k : Quiet b c) : Quiet a c := by
  unfold Quiet at *
  rw [h] at k; exact k

theorem Still.quiet {a b : State} (h : Still a b) : Quiet a b := by
  unfold Still at h; unfold Quiet
  have : b.gpr = a.gpr := by rw [h]
  rw [this]; exact h

theorem Walked.still {a b : State} (h : Walked a b) : Still a b := h.rest

theorem access_still {r off n al k ps} {s u : State} (h : access r off n al k s = .ok ps u) : Still s u := (access_walks r off n al k s ps u h).still

theorem locate_still {sz m k l} {s u : State} (h : locate sz m k s = .ok l u) : Still s u := (locate_walks sz m k s l u h).still

theorem readDesc_still {sel d} {s u : State} (h : readDesc sel s = .ok d u) : Still s u := (readDesc_walks sel s d u h).still

theorem sysRead_still {a n v} {s u : State} (h : sysRead a n s = .ok v u) : Still s u := (sysRead_walks a n s v u h).still

theorem orMem_still (pa : Nat) (mask : Byte) (s t : State) (h : orMem pa mask s = .ok () t) : Still s t := by
  unfold orMem at h
  simp only [M.bind_run, M.get_run, M.ite_run, M.pure_run, M.set_run] at h
  split at h <;> cases h <;> rfl

theorem setAccessed_still {d} {s t : State} (h : setAccessed d s = .ok () t) : Still s t := by
  unfold setAccessed at h
  split at h
  · cases h; rfl
  · unfold sysOr at h
    rw [M.bind_run] at h
    cases hx : phys (d.addr + 5) 1 true false s with
    | error e u => rw [hx] at h; cases h
    | ok ps u =>
      rw [hx] at h
      dsimp only at h
      have h1 : Still s u := (phys_walks _ _ _ _ s ps u hx).still
      cases ps with
      | nil => cases h; exact h1
      | cons p ps =>
        simp only [M.bind_run, sample_run] at h
        exact (h1.trans (Walked.of_sampled u [p]).still).trans (orMem_still _ _ _ _ h)

theorem pushes_quiet {n} : ∀ {vs} {s t : State}, Pushes n vs s t → Quiet s t
  | [], s, t, h => by cases h; rfl
  | v :: vs, s, t, h => by
    obtain ⟨ps, u, h1, h2⟩ := h
    have a := access_still h1
    have b : Quiet s ((u.stored ps v).setSp (s.wrapSp (s.sp - BitVec.ofNat 32 n))) := by
      unfold Still at a; rw [a]; rfl
    exact b.trans (pushes_quiet h2)

theorem pops_quiet {n} : ∀ {vs} {s t : State}, Pops n vs s t → Quiet s t
  | [], s, t, h => by cases h; rfl
  | v :: vs, s, t, h => by
    obtain ⟨ps, u, h1, _, h2⟩ := h
    have a := access_still h1
    have b : Quiet s (u.setSp (u.sp + BitVec.ofNat 32 n)) := by
      unfold Still at a; rw [a]; rfl
    exact b.trans (pops_quiet h2)

theorem pushAll_run {n} : ∀ {vs} {s t : State}, Pushes n vs s t → pushAll n vs s = .ok () t
  | [], s, t, h => by cases h; rfl
  | v :: vs, s, t, h => by
    obtain ⟨u, h1, h2⟩ := pushes_cons h
    simp only [pushAll, M.bind_run, h1]; exact pushAll_run h2

/-- what control transfers look at -/
structure Seen (s t : State) : Prop where
  seg : t.seg = s.seg
  os32 : t.os32 = s.os32
  as32 : t.as32 = s.as32
  prot : t.prot = s.prot
  v86 : t.v86 = s.v86
  real : t.real = s.real
  curPl : t.curPl = s.curPl
  flags : t.flags = s.flags
  npc : t.npc = s.npc
  osz : t.osz = s.osz
  cpl : t.cpl = s.cpl
  tr : t.tr = s.tr
  pfx : t.pfx = s.pfx

theorem Quiet.seen {s t : State} (h : Quiet s t) : Seen s t := by
  unfold Quiet at h; rw [h]; exact ⟨rfl, rfl, rfl, rfl, rfl, rfl, rfl, rfl, rfl, rfl, rfl, rfl, rfl⟩

theorem Still.seen {s t : State} (h : Still s t) : Seen s t := h.quiet.seen

theorem Still.gpr {s t : State} (h : Still s t) : t.gpr = s.gpr := by unfold Still at h; rw [h]

theorem Still.sp {s t : State} (h : Still s t) : t.sp = s.sp := by unfold Still at h; rw [h]; rfl

theorem Still.room {s t : State} (h : Still s t) (n) : t.stackRoom n = s.stackRoom n := by unfold Still at h; rw [h]; rfl

theorem Still.has {s t : State} (h : Still s t) (n) : t.stackHas n = s.stackHas n := by unfold Still at h; rw [h]; rfl

theorem nearJump_run {t : Dword} {s : State} : nearJump t s = if s.seg.cs.codeOk (s.nearTarget t) then .ok () { s with npc := s.nearTarget t } else .error (.exc (.gp 0)) s := by
  simp only [nearJump, M.bind_run, M.get_run, raiseIf_run, setNpc_run]
  cases s.seg.cs.codeOk (s.nearTarget t) <;> rfl

theorem jumps_of {i : Instr} {m : M Unit} {s u : State} {c : Bool} {t : Dword} (hp : s.plain) (hx : exec i s = run m s)
    (h : m s = if c then (if s.seg.cs.codeOk t then .ok () { u with npc := t } else .error (.exc (.gp 0)) u) else .ok () u)
    (hu : s.rollback u = s.rollback s) : jumps i s u c t := by
  unfold jumps
  cases c
  · exact hx.trans (run_ok hp h)
  · simp only [if_true] at h ⊢
    split
    · rename_i hc; rw [if_pos hc] at h; exact hx.trans (run_ok hp h)
    · rename_i hc; rw [if_neg hc] at h; rw [hx, run_exc hp h, hu]

theorem putLow16_low (v : Dword) (x : Word) : (putLow16 v x).extractLsb' 0 16 = x := by
  apply BitVec.eq_of_getLsbD_eq; intro i hi
  simp only [putLow16, BitVec.getLsbD_extractLsb', BitVec.getLsbD_append]
  simp [hi]

theorem loopCount16 (g : Gprs) : ((((g.setSz .w .ecx ((((g.getSz .w .ecx).setWidth 32 : Dword) - 1).setWidth 16)).getSz .w .ecx).setWidth 32 : Dword) != 0) = decide (((g.getSz .w .ecx).setWidth 32 : Dword) ≠ 1) := by
  simp only [Gprs.setSz, Gprs.set, Gprs.getSz, Gprs.get, putLow16_low]
  rw [Bool.eq_iff_iff]
  refine Iff.trans bne_iff_ne (Iff.trans ?_ decide_eq_true_iff.symm)
  generalize g.ecx.extractLsb' 0 16 = x
  have hx := x.isLt
  refine not_congr ⟨fun h => ?_, fun h => ?_⟩
  · apply BitVec.eq_of_toNat_eq
    have := congrArg BitVec.toNat h
    have e1 : BitVec.toNat (1 : BitVec 32) = 1 := rfl
    have e0 : BitVec.toNat (0 : BitVec 32) = 0 := rfl
    simp only [BitVec.toNat_sub, e1, e0, BitVec.toNat_setWidth, Sz.bits] at this ⊢
    omega
  · rw [h]; rfl

theorem nearTarget_sz (sz : Sz) (v : BitVec sz.bits) (o : Bool) (h : sz = if o then .d else .w) :
    (if o then v.setWidth 32 else ((v.setWidth 32 : Dword).extractLsb' 0 16).setWidth 32) = v.setWidth 32 := by
  cases o
  · simp only [Bool.false_eq_true, if_false] at h ⊢
    subst h
    apply BitVec.eq_of_toNat_eq
    have := v.isLt
    simp only [Sz.bits] at this
    simp [BitVec.toNat_setWidth, BitVec.extractLsb'_toNat]
    omega
  · rfl

end Sys2Proof.Machine
end

