-- ==== Sys2Proof/Laws/TransferRuns.lean ====
section
/-! SUPPORT. Far transfers, delivering an event, and returning from one: what each shared operation does where it succeeds. -/

namespace Sys2Proof.Machine

theorem readFar_still {a n p} {s u : State} (h : readFar a n s = .ok p u) : Still s u := by
  simp only [readFar, M.bind_run] at h
  cases h1 : readEa a (n + 2) n s with
  | error e w => rw [h1] at h; cases h
  | ok v w => rw [h1] at h; cases h; exact (readEa_walks _ _ _ _ _ _ h1).still

theorem nearTarget_seen {s t : State} (h : Seen s t) (o) : t.nearTarget o = s.nearTarget o := by unfold State.nearTarget; rw [h.os32]

theorem load86_run {r sel} {s : State} : load86 r sel s = .ok () { s with seg := s.seg.set r ((s.seg.get r).load86 s.v86 sel) } := rfl

theorem loadCs_run {sel d pl} {s t : State} (h : setAccessed d s = .ok () t) (n : Dword) (hn : t.npc = n) :
    loadCs sel d pl s = .ok () { t.enterCs sel d pl n with npc := t.npc } := by
  simp only [loadCs, M.bind_run, h, M.modify_run]; rfl

theorem return86_run {sel} {s : State} : return86 sel s = .ok () { s with seg := { s.seg with cs := s.seg.cs.return86 s.v86 sel } } := rfl

theorem loadRf_run {b} {s : State} : loadRf b s = .ok () { s with rfKept := s.rfKept || b } := rfl

theorem checkDirect_run {sel d} {s : State} (h : s.directOk sel d) : checkDirect sel d s = .ok () s := by
  obtain ⟨_, hp, hc⟩ := h
  simp only [checkDirect, M.bind_run, M.get_run, M.ite_run, raiseIf_run, hp, Bool.not_true, Bool.false_eq_true, if_false]
  split
  · rename_i hcf; rw [if_pos hcf] at hc
    rw [decide_eq_false (by omega)]; rfl
  · rename_i hcf; rw [if_neg hcf] at hc
    rw [decide_eq_false (by omega), hc.2]; simp

theorem directOk_still {sel d} {s t : State} (h : Still s t) (k : s.directOk sel d) : t.directOk sel d := by
  unfold State.directOk at *; rw [h.seen.curPl]; exact k

theorem needDescOf_ok {sel ok e d} {s t : State} (h : readDesc sel s = .ok (some d) t) (hk : ok d = true) : needDescOf sel ok e s = .ok d t := by
  simp only [needDescOf, M.bind_run, needDesc_ok h, raiseIf_run, hk, Bool.not_true, Bool.false_eq_true, if_false, M.pure_run]

theorem checkGate_run {sel d} {s : State} (h1 : s.curPl ≤ d.dpl) (h2 : rpl sel ≤ d.dpl) (h3 : d.p = true) : checkGate sel d s = .ok () s := by
  simp only [checkGate, M.bind_run, M.get_run, raiseIf_run, h3, Bool.not_true, Bool.false_eq_true, if_false]
  rw [decide_eq_false (by omega), decide_eq_false (by omega)]; rfl

theorem innerStack_run {pl ext ss esp d} {s t : State} (h : InnerStack pl s ss esp d t) : innerStack pl ext s = .ok (ss, esp, d) t := by
  obtain ⟨a, b, u, v, h1, rfl, rfl, hn, hd, g1, g2, g3, g4⟩ := h
  have hsel : tssStack pl s = .ok (BitVec.ofNat 16 b, BitVec.ofNat 32 a) v := by
    simp only [tssStack, M.bind_run, M.get_run, M.ite_run, raiseIf_run]
    split
    · rename_i ht; rw [if_pos ht] at h1
      obtain ⟨k1, k2, k3⟩ := h1
      rw [decide_eq_false (by omega)]
      simp only [Bool.false_eq_true, if_false, k2]
      rw [show pl * 8 + 4 + 4 = pl * 8 + 8 by omega, k3]; rfl
    · rename_i ht; rw [if_neg ht] at h1
      obtain ⟨k1, k2, k3⟩ := h1
      rw [decide_eq_false (by omega)]
      simp only [Bool.false_eq_true, if_false, k2]
      rw [show pl * 4 + 2 + 2 = pl * 4 + 4 by omega, k3]; rfl
  simp only [innerStack, M.bind_run, hsel, raiseIf_run, hn, Bool.false_eq_true, if_false]
  rw [needDescOf_ok hd (by simp [g1, g2, g3])]
  simp only [g4, Bool.not_true, Bool.false_eq_true, if_false, M.pure_run]

theorem loadStack_run {ss esp d} {s t : State} (h : setAccessed d s = .ok () t) : loadStack ss esp d s = .ok () { t with seg := { t.seg with ss := d.loaded ss }, gpr := { t.gpr with esp := esp } } := by
  simp only [loadStack, M.bind_run, h, M.modify_run]

theorem gateTarget_run {g ok c} {s t : State} (hn : isNull g.sel = false) (h : readDesc g.sel s = .ok (some c) t) (h1 : c.isCode = true) (h2 : c.p = true) (h3 : ok c = true) :
    gateTarget g ok s = .ok c t := by
  simp only [gateTarget, M.bind_run, raiseIf_run, hn, Bool.false_eq_true, if_false]
  rw [needDescOf_ok h (by simp [h1, h3])]
  simp only [h2, Bool.not_true, Bool.false_eq_true, if_false, M.pure_run]

theorem readParams_still {m} : ∀ {k o ps} {s t : State}, readParams m k o s = .ok ps t → Still s t
  | 0, _, _, s, t, h => by cases h; rfl
  | k + 1, o, ps, s, t, h => by
    simp only [readParams, M.bind_run, M.get_run] at h
    cases h1 : readSeg .ss (s.wrapSp o) m m s with
    | error e u => rw [h1] at h; cases h
    | ok v u =>
      rw [h1] at h; dsimp only at h
      cases h2 : readParams m k (o + BitVec.ofNat 32 m) u with
      | error e w => rw [h2] at h; cases h
      | ok vs w => rw [h2] at h; cases h; exact ((readSeg_walks _ _ _ _ _ _ _ h1).still).trans (readParams_still h2)

theorem returnDesc_run {sel d} {s t : State} (h : readDesc sel s = .ok (some d) t) (k : s.returnOk sel d) : returnDesc sel s = .ok d t := by
  obtain ⟨hn, h1, h2, h3, h4⟩ := k
  simp only [returnDesc, M.bind_run, raiseIf_run, hn, Bool.false_eq_true, if_false, M.get_run]
  rw [needDescOf_ok h]
  · simp only [h2, Bool.not_true, Bool.false_eq_true, if_false, M.pure_run]
  · rw [h1]; cases hc : d.conf <;> rw [hc] at h4 <;> simp at h4 ⊢ <;> omega

theorem returnStack_run {ss cs d} {s t : State} (h : readDesc ss s = .ok (some d) t) (k : returnStackOk ss cs d) : returnStack ss cs s = .ok d t := by
  obtain ⟨hn, h1, h2, h3, h4⟩ := k
  simp only [returnStack, M.bind_run, raiseIf_run, hn, Bool.false_eq_true, if_false]
  rw [needDescOf_ok h]
  · simp only [h4, Bool.not_true, Bool.false_eq_true, if_false, M.pure_run]
  · simp [h1, h2, h3]

theorem returnOk_q {sel d} {s t : State} (h : Seen s t) (k : s.returnOk sel d) : t.returnOk sel d := by
  unfold State.returnOk at *; rw [h.curPl]; exact k

theorem cleanSegs_run (pl) (s : State) : cleanSegs pl s = .ok () { s with seg := s.seg.forLevel pl } := rfl

theorem setOuter_run {os ss d old esp} {s t : State} (h : setAccessed d { s with fresh := s.fresh + 1 } = .ok () t) :
    setOuterStack os ss d old esp s = .ok () { t with seg := { t.seg with ss := d.loaded ss }, gpr := { t.gpr with esp := outerEsp os d old (Config.freeDword s.fresh) esp } } := by
  simp only [setOuterStack, M.bind_run, freeDword_run, loadStack_run h]
  rfl

theorem gate_bit0 {g : Gate} (h : g.typ = 6 ∨ g.typ = 7 ∨ g.typ = 14 ∨ g.typ = 15) : g.typ.getLsbD 0 = (g.typ == 7 || g.typ == 15) := by
  rcases h with h | h | h | h <;> rw [h] <;> rfl

theorem delivered_eq {g : Gate} (h : g.typ = 6 ∨ g.typ = 7 ∨ g.typ = 14 ∨ g.typ = 15) (f : Flags) : f.delivered g = deliveredFlags f g := by
  unfold Flags.delivered deliveredFlags; rw [gate_bit0 h]

theorem gateFor_run {ev g} {s u : State} (h : GateFor ev s g u) : deliverProt ev s = deliverGate ev g u := by
  obtain ⟨h1, ⟨v, hv, hg⟩, h2, h3, h4, h5, h6⟩ := h
  simp only [deliverProt, M.bind_run, M.get_run, raiseIf_run]
  rw [decide_eq_false (by omega)]
  simp only [Bool.false_eq_true, if_false, hv]
  rw [← hg, h2, h4]
  have e1 : (false || !(g.typ == 5#4 || g.typ == 6#4 || g.typ == 7#4 || g.typ == 14#4 || g.typ == 15#4)) = false := by
    rcases h3 with h | h | h | h <;> rw [h] <;> rfl
  have e2 : (decide (ev.kind = .software) && decide (g.dpl < (s.curPl))) = false := by
    by_cases hk : ev.kind = .software
    · have := h5 hk; simp; omega
    · simp [hk]
  have e3 : ¬ g.typ = 5#4 := by rcases h3 with h | h | h | h <;> rw [h] <;> decide
  simp only [e1, e2, Bool.false_eq_true, if_false, Bool.not_true, M.ite_run, e3]

theorem SegReg.delivering_seen (s : State) (ev) : Seen s (s.delivering ev) := ⟨rfl, rfl, rfl, rfl, rfl, rfl, rfl, rfl, rfl, rfl, rfl, rfl, rfl⟩

theorem flagsImage_q {ev} {s t : State} (h : t.flags = s.flags) : t.flagsImage ev = s.flagsImage ev := by unfold State.flagsImage; rw [h]

theorem deliver_ok {ev} {s t : State} (h : Delivers ev s t) : deliver ev s = .ok () t := by
  unfold deliver
  simp only [M.bind_run, M.modify_run, M.get_run, M.ite_run]
  change (if (s.delivering ev).pe = true then deliverProt ev (s.delivering ev) else deliverReal ev (s.delivering ev)) = _
  rcases h with h | h | h
  · obtain ⟨hr, h1, h2, u, v, w, h3, h4, rfl⟩ := h
    have hpe : (s.delivering ev).pe = false := by
      have : s.pe = false := by unfold State.real at hr; simpa using hr
      exact this
    rw [hpe]
    simp only [Bool.false_eq_true, if_false, deliverReal, M.bind_run, M.get_run, raiseIf_run]
    rw [show decide ((s.delivering ev).idtr.limit.toNat < ev.vector.toNat * 4 + 3) = false from decide_eq_false (by have : (s.delivering ev).idtr = s.idtr := rfl; rw [this]; omega)]
    rw [show (s.delivering ev).stackRoom 6 = true from h2]
    simp only [Bool.false_eq_true, if_false, Bool.not_true]
    rw [show pushAll 2 [(s.delivering ev).flags.toDword.toNat, (s.delivering ev).seg.cs.sel.toNat, ((s.delivering ev).returnEip ev).toNat] (s.delivering ev) = .ok () u from pushAll_run h3]
    dsimp only
    rw [show sysRead ((s.delivering ev).idtr.base + BitVec.ofNat 32 (ev.vector.toNat * 4)) 4 u = .ok v w from h4]
    have hw : w.flags = s.flags := ((pushes_quiet h3).trans (sysRead_still h4).quiet).seen.flags
    simp only [load86_run, setNpc_run, modifyFlags_run, hw]
    rfl
  · obtain ⟨g, u, d, v, w, x, hpr, hg, hd, h1, h2, h3, h4, ⟨h5, h6, h7⟩, h8, rfl⟩ := h
    have hpe : (s.delivering ev).pe = true := by
      unfold State.prot at hpr; simp only [Bool.and_eq_true] at hpr; exact hpr.1
    have hvm : s.flags.vm = false := by unfold State.prot at hpr; simp only [Bool.and_eq_true] at hpr; simpa using hpr.2
    have hqu : Still (s.delivering ev) u := by obtain ⟨_, ⟨_, hv, _⟩, _⟩ := hg; exact sysRead_still hv
    have hqv := hqu.trans (readDesc_still hd)
    have hsu := hqu.seen
    have hsv := hqv.seen
    have hcu : u.curPl = s.curPl := hsu.curPl
    have hcv : v.curPl = s.curPl := hsv.curPl
    have htyp := hg.2.2.2.1
    rw [hpe]
    simp only [if_true, gateFor_run hg]
    simp only [deliverGate, M.bind_run, M.get_run, raiseIf_run, hg.2.2.2.2.2.2, Bool.false_eq_true, if_false, hcu]
    rw [needDescOf_ok hd (by simp [h1]; exact h3)]
    have e1 : (!d.conf && decide (d.dpl < s.curPl)) = false := by
      rcases h4 with h | h
      · rw [h]; rfl
      · simp; omega
    have hvu : u.flags.vm = false := by rw [hsu.flags]; exact hvm
    simp only [h2, Bool.not_true, Bool.false_eq_true, if_false, M.ite_run, e1, M.bind_run, hvu, raiseIf_run]
    simp only [deliverIntra, M.bind_run, M.get_run, raiseIf_run, flagsImage_q hsv.flags]
    have er : v.returnEip ev = s.returnEip ev := by
      unfold Still at hqv; rw [hqv]; rfl
    rw [er, hsv.seg, hcv]
    have h5' : v.stackRoom (([(s.flagsImage ev).toNat, s.seg.cs.sel.toNat, (s.returnEip ev).toNat] ++ ev.errList).length * (if g.is32 then 4 else 2)) = true := by
      rw [hqv.room]; exact h5
    rw [show ((s.delivering ev).flagsImage ev) = s.flagsImage ev from rfl, show (s.delivering ev).seg = s.seg from rfl]
    simp only [h5', h6, Bool.not_true, Bool.false_eq_true, if_false]
    rw [show pushAll (if g.is32 = true then 4 else 2) ([(s.flagsImage ev).toNat, s.seg.cs.sel.toNat, (s.returnEip ev).toNat] ++ ev.errList) v = .ok () w from pushAll_run h7]
    simp only [loadCs_run h8 _ rfl, setNpc_run, modifyFlags_run, delivered_eq htyp]
    have hx : x.flags = s.flags := ((hqv.quiet.trans (pushes_quiet h7)).trans (setAccessed_still h8).quiet).seen.flags
    unfold State.enterCs
    simp only [hx]
  · obtain ⟨g, u, d, v, ss, esp, sd, w, x, y, z, hpe, hg, hd, h1, h2, h3, h4, h5, h6, ⟨h7, h8, h9, h10, h11⟩, rfl⟩ := h
    have hqu : Still (s.delivering ev) u := by obtain ⟨_, ⟨_, hv, _⟩, _⟩ := hg; exact sysRead_still hv
    have hqv := hqu.trans (readDesc_still hd)
    have hqw : Still v w := by
      obtain ⟨a, b, u, v, h1, _, _, _, hd', _⟩ := h6
      split at h1
      · exact ((sysRead_still h1.2.1).trans (sysRead_still h1.2.2)).trans (readDesc_still hd')
      · exact ((sysRead_still h1.2.1).trans (sysRead_still h1.2.2)).trans (readDesc_still hd')
    have hsu := hqu.seen
    have hsv := hqv.seen
    have hcu : u.curPl = s.curPl := hsu.curPl
    have htyp := hg.2.2.2.1
    rw [show (s.delivering ev).pe = true from hpe]
    simp only [if_true, gateFor_run hg]
    simp only [deliverGate, M.bind_run, M.get_run, raiseIf_run, hg.2.2.2.2.2.2, Bool.false_eq_true, if_false, hcu]
    rw [needDescOf_ok hd (by simp [h1]; omega)]
    have e1 : (!d.conf && decide (d.dpl < s.curPl)) = true := by simp [h3, h4]
    have hvu : u.flags.vm = s.flags.vm := by rw [hsu.flags]; rfl
    have e2 : (s.flags.vm && d.dpl != 0) = false := by
      cases h : s.flags.vm
      · rfl
      · rw [h5 h]; rfl
    simp only [h2, Bool.not_true, Bool.false_eq_true, if_false, M.ite_run, e1, if_true, M.bind_run, hvu, raiseIf_run, e2]
    simp only [deliverInter, M.bind_run, M.get_run, raiseIf_run, innerStack_run h6, flagsImage_q hsv.flags]
    have er : v.returnEip ev = s.returnEip ev := by
      unfold Still at hqv; rw [hqv]; rfl
    rw [er, hsv.seg, hsv.flags, hqv.gpr]
    rw [show ((s.delivering ev).flagsImage ev) = s.flagsImage ev from rfl, show (s.delivering ev).seg = s.seg from rfl, show (s.delivering ev).flags = s.flags from rfl, show (s.delivering ev).gpr = s.gpr from rfl]
    have hwf : w.flags = s.flags := (hqv.trans hqw).seen.flags
    simp only [show g.is32 = g.typ.getLsbD 3 from rfl, h7, h8, Bool.not_true, Bool.false_eq_true, if_false, modifyFlags_run, delivered_eq htyp, hwf]
    simp only [loadStack_run h9, loadCs, M.bind_run, h10, M.modify_run]
    rw [show pushAll (if g.typ.getLsbD 3 = true then 4 else 2) _ _ = .ok () z from pushAll_run h11]
    simp only [setNpc_run]
    split <;> rfl

theorem popFrame_run {n ip cs fl} {s t : State} (hh : s.stackHas (3 * n) = true) (h : Pops n [ip, cs, fl] s t) :
    popFrame n s = .ok (BitVec.ofNat 32 ip, BitVec.ofNat 16 cs, BitVec.ofNat 32 fl) t := by
  obtain ⟨u1, p1, h⟩ := pops_cons h
  obtain ⟨u2, p2, h⟩ := pops_cons h
  simp only [popFrame, M.bind_run, M.get_run, raiseIf_run, hh, Bool.not_true, Bool.false_eq_true, if_false, p1, p2, popN_run h, M.pure_run]

theorem mask_lemma (f : Flags) (v m : Dword) : f.merge v m = f.merge v m := rfl

/-- merge with the IRET masks -/
theorem iret_merge_np (s : State) (v : Dword) (hv : s.v86 = true → s.flags.iopl = 3) (hp : s.prot = false) :
    s.flags.merge v (if s.v86 then (if s.os32 then 0x00254FD5#32 else 0x00004FD5#32) else (if s.os32 then 0x00257FD5#32 else 0x00007FD5#32)) = s.iretFlags v := by
  have e3 : ∀ a : BitVec 2, a &&& 3#2 = a := by decide
  rw [Flags.merge_eq]
  unfold State.iretFlags
  cases h1 : s.v86
  · have h5 : s.curPl = 0 := by
      unfold State.prot at hp; unfold State.v86 at h1; unfold State.curPl
      cases hpe : s.pe
      · rfl
      · rw [hpe] at hp h1; simp at hp h1; rw [hp] at h1; cases h1
    cases h2 : s.os32 <;> simp [h5, hp, e3]
  · have h5 : s.curPl = 3 := by
      unfold State.v86 at h1; unfold State.curPl; simp only [Bool.and_eq_true] at h1; simp [h1]
    have h6 := hv h1
    cases h2 : s.os32 <;> simp [h5, h6, hp]

theorem iret_merge_p (s : State) (v : Dword) (hp : s.prot = true) : 
    s.flags.merge v (iretMask s.os32 s.curPl s.flags.iopl.toNat) = s.iretFlags v := by
  have e3 : ∀ a : BitVec 2, a &&& 3#2 = a := by decide
  rw [Flags.merge_eq]
  unfold State.iretFlags iretMask
  cases h2 : s.os32 <;> by_cases h3 : s.curPl = 0 <;> by_cases h4 : s.curPl ≤ s.flags.iopl.toNat <;>
      simp [h3, h4, e3, hp] <;> omega

theorem v86_prot (s : State) (h : s.prot = true) : s.real = false ∧ s.flags.vm = false ∧ s.v86 = false := by
  unfold State.prot at h; simp only [Bool.and_eq_true] at h
  unfold State.real State.v86
  rw [h.1]; simpa using h.2

end Sys2Proof.Machine
end

