-- ==== Sys2Proof/Laws/StringRuns.lean ====
section
/-! SUPPORT. One iteration of each string instruction, repetition, and ports: what the shared operations do where they succeed. -/

namespace Sys2Proof.Machine

theorem advance_run {r n} {s : State} : advance r n s = .ok () (s.past r n) := rfl

theorem readSi_run {sz v} {s t : State} (h : ReadsSi sz s v t) : readSi sz s = .ok v t := by
  obtain ⟨ps, h1, rfl⟩ := h
  simp only [readSi, M.bind_run, M.get_run, readSeg_run h1, M.pure_run]

theorem readDi_run {sz v} {s t : State} (h : ReadsDi sz s v t) : readDi sz s = .ok v t := by
  obtain ⟨ps, h1, rfl⟩ := h
  simp only [readDi, M.bind_run, M.get_run, readSeg_run h1, M.pure_run]

theorem writeDi_run {sz v} {s t : State} (h : WritesDi sz s v t) : writeDi sz v s = .ok () t := by
  obtain ⟨ps, u, h1, rfl⟩ := h
  simp only [writeDi, M.bind_run, M.get_run, writeSeg_run h1]

theorem readPort_run {sz p v} {s t : State} (h : ReadsPort sz p s v t) : ioRead p sz s = .ok v t := by
  obtain ⟨rfl, u, h1, rfl⟩ := h
  simp only [ioRead, M.bind_run, freshNat_run, h1, M.modify_run, M.pure_run]

theorem writePort_run {sz p v} {s t : State} (h : WritesPort sz p s v t) : ioWrite p sz v s = .ok () t := by
  obtain ⟨u, h1, rfl⟩ := h
  simp only [ioWrite, M.bind_run, h1, M.modify_run]

theorem subOp_run {sz : Sz} (a b : BitVec sz.bits) (s : State) : subOp false sz a b s = .ok (subC a b false) { s with flags := s.flags.subF a b false } := by
  rw [subOp_does false sz a b s]; simp only [subEffect, Bool.false_and]

theorem readsDi_still {sz v} {s t : State} (h : ReadsDi sz s v t) : Still s t := by
  obtain ⟨ps, h1, _⟩ := h; exact access_still h1

theorem readsSi_still {sz v} {s t : State} (h : ReadsSi sz s v t) : Still s t := by
  obtain ⟨ps, h1, _⟩ := h; exact access_still h1

theorem writesDi_still {sz v} {s t : State} (h : WritesDi sz s v t) : Still s t := by
  obtain ⟨ps, u, h1, rfl⟩ := h
  have := access_still h1
  unfold Still at *; rw [this]; rfl

/-- pfx and eip kept -/
structure KeepPfx (s t : State) : Prop where
  pfx : t.pfx = s.pfx
  eip : t.eip = s.eip

theorem once_movs {sz} {s t : State} (h : MovsOnce sz s t) : movs sz s = .ok () t := by
  obtain ⟨v, u, w, h1, h2, rfl⟩ := h
  simp only [movs, M.bind_run, readSi_run h1, writeDi_run h2, advance_run]

theorem once_cmps {sz} {s t : State} (h : CmpsOnce sz s t) : cmps sz s = .ok () t := by
  obtain ⟨v, u, w, x, h1, h2, rfl⟩ := h
  simp only [cmps, M.bind_run, readSi_run h1, readDi_run h2, subOp_run, advance_run]

theorem once_scas {sz} {s t : State} (h : ScasOnce sz s t) : scas sz s = .ok () t := by
  obtain ⟨v, u, h1, rfl⟩ := h
  have : u.reg sz .eax = s.reg sz .eax := by unfold State.reg; rw [(readsDi_still h1).gpr]
  simp only [scas, M.bind_run, readDi_run h1, getReg_run, subOp_run, advance_run, this]

theorem once_lods {sz} {s t : State} (h : LodsOnce sz s t) : lods sz s = .ok () t := by
  obtain ⟨v, u, h1, rfl⟩ := h
  simp only [lods, M.bind_run, readSi_run h1, setReg_run, advance_run]

theorem once_stos {sz} {s t : State} (h : StosOnce sz s t) : stos sz s = .ok () t := by
  obtain ⟨u, h1, rfl⟩ := h
  simp only [stos, M.bind_run, getReg_run, writeDi_run h1, advance_run]

theorem once_ins {sz} {s t : State} (h : InsOnce sz s t) : ins sz s = .ok () t := by
  obtain ⟨u, ps, v, x, w, h1, h2, h3, rfl⟩ := h
  simp only [ins, M.bind_run, M.get_run, h1, h2, readPort_run h3, storeAt_run, advance_run]

theorem once_outs {sz} {s t : State} (h : OutsOnce sz s t) : outs sz s = .ok () t := by
  obtain ⟨u, x, v, w, h1, h2, h3, rfl⟩ := h
  simp only [outs, M.bind_run, M.get_run, h1, readSi_run h2, writePort_run h3, advance_run]

theorem past_keep (s : State) (r n) : KeepPfx s (s.past r n) := by
  unfold State.past State.setRegA; split <;> exact ⟨rfl, rfl⟩

theorem KeepPfx.trans {a b c : State} (h : KeepPfx a b) (k : KeepPfx b c) : KeepPfx a c := ⟨k.pfx.trans h.pfx, k.eip.trans h.eip⟩

theorem Still.keep {a b : State} (h : Still a b) : KeepPfx a b := by unfold Still at h; rw [h]; exact ⟨rfl, rfl⟩

theorem recordHits_keep {k x n} : ∀ {i} {s t : State}, recordHits k x n i s = .ok () t → KeepPfx s t := by
  intro i s t h
  exact (recordHits_walks k x n i s () t h).still.keep

theorem recordIo_still {p n} {s t : State} (h : recordIo p n s = .ok () t) : Still s t := by
  simp only [recordIo, M.bind_run, M.get_run, M.ite_run, M.pure_run] at h
  split at h
  · cases h; rfl
  · exact (recordHits_walks _ _ _ _ s () t h).still

theorem readsPort_keep {sz p v} {s t : State} (h : ReadsPort sz p s v t) : KeepPfx s t := by
  obtain ⟨_, u, h1, rfl⟩ := h
  have := (recordIo_still h1).keep
  exact ⟨this.pfx, this.eip⟩

theorem writesPort_keep {sz p v} {s t : State} (h : WritesPort sz p s v t) : KeepPfx s t := by
  obtain ⟨u, h1, rfl⟩ := h
  have := (recordIo_still h1).keep
  exact ⟨this.pfx, this.eip⟩

theorem checkIo_walks (p : Word) (n : Nat) : M.Walks (checkIo p n) := by
  unfold checkIo
  refine walks_bind walks_get fun s => walks_ite ?_ (walks_pure _)
  exact walks_bind (walks_raiseIf _ _) fun _ => walks_bind (walks_raiseIf _ _) fun _ => walks_bind (sysRead_walks _ _) fun _ =>
    walks_bind (walks_raiseIf _ _) fun _ => walks_bind (sysRead_walks _ _) fun _ => walks_raiseIf _ _

theorem checkIo_still {p n} {s t : State} (h : checkIo p n s = .ok () t) : Still s t := (checkIo_walks p n s () t h).still

theorem keep_flags (s : State) (f) : KeepPfx s { s with flags := f } := ⟨rfl, rfl⟩

theorem keep_reg (s : State) (z r v) : KeepPfx s (s.setReg z r v) := ⟨rfl, rfl⟩

theorem keep_stored (s : State) (ps v) : KeepPfx s (s.stored ps v) := ⟨rfl, rfl⟩

theorem keep_iter : ∀ p ∈ stringOps, ∀ {sz s t}, p.2.1 sz s t → KeepPfx s t := by
  intro p hp sz s t h
  simp only [stringOps, List.mem_cons, List.mem_nil_iff, or_false] at hp
  rcases hp with rfl|rfl|rfl|rfl|rfl|rfl|rfl
  · obtain ⟨v, u, w, h1, h2, rfl⟩ := h
    exact ((((readsSi_still h1).trans (writesDi_still h2)).keep.trans (past_keep _ _ _)).trans (past_keep _ _ _))
  · obtain ⟨v, u, w, x, h1, h2, rfl⟩ := h
    exact (((((readsSi_still h1).trans (readsDi_still h2)).keep.trans (keep_flags _ _)).trans (past_keep _ _ _)).trans (past_keep _ _ _))
  · obtain ⟨v, u, h1, rfl⟩ := h
    exact ((readsDi_still h1).keep.trans (keep_flags _ _)).trans (past_keep _ _ _)
  · obtain ⟨v, u, h1, rfl⟩ := h
    exact ((readsSi_still h1).keep.trans (keep_reg _ _ _ _)).trans (past_keep _ _ _)
  · obtain ⟨u, h1, rfl⟩ := h
    exact (writesDi_still h1).keep.trans (past_keep _ _ _)
  · obtain ⟨u, ps, v, x, w, h1, h2, h3, rfl⟩ := h
    exact ((((checkIo_still h1).trans (access_still h2)).keep.trans (readsPort_keep h3)).trans (keep_stored _ _ _)).trans (past_keep _ _ _)
  · obtain ⟨u, x, v, w, h1, h2, h3, rfl⟩ := h
    exact (((checkIo_still h1).trans (readsSi_still h2)).keep.trans (writesPort_keep h3)).trans (past_keep _ _ _)

theorem repeated_none {c b} {s : State} (h : s.pfx.rep = .none) : repeated c b s = b s := by
  simp only [repeated, M.bind_run, M.get_run, M.ite_run, h, if_true]

theorem repeated_zero {c b} {s : State} (h : s.pfx.rep ≠ .none) (h0 : s.regA .ecx = 0) : repeated c b s = .ok () s := by
  simp only [repeated, M.bind_run, M.get_run, M.ite_run, h, if_false, h0]; rfl

theorem repeated_go {c b} {s t : State} (h : s.pfx.rep ≠ .none) (h0 : s.regA .ecx ≠ 0) (hb : b s = .ok () t) (hk : KeepPfx s t) :
    repeated c b s = .ok () (let u := t.setRegA .ecx (t.regA .ecx - 1)
        if goesOn u c then { u with npc := s.eip } else u) := by
  have hk2 : KeepPfx s (t.setRegA .ecx (t.regA .ecx - 1)) := by
    refine hk.trans ?_
    unfold State.setRegA; split <;> exact ⟨rfl, rfl⟩
  simp only [repeated, M.bind_run, M.get_run, M.ite_run, h, if_false, show ¬ s.regA .ecx = 0#32 from h0, hb, M.modify_run, M.pure_run, setNpc_run]
  generalize t.setRegA .ecx (t.regA .ecx - 1) = u at hk2
  have : repContinues u.pfx.rep c (u.regA .ecx) u.flags.zf = goesOn u c := by
    unfold repContinues goesOn
    have hr : u.pfx.rep ≠ .none := by rw [hk2.pfx]; exact h
    congr 1
    cases hx : u.pfx.rep
    · exact absurd hx hr
    · cases c <;> cases u.flags.zf <;> rfl
    · cases c <;> cases u.flags.zf <;> rfl
  rw [this, hk2.eip]
  split <;> rfl

theorem bitsAny (m k n : Nat) : (m / 2 ^ k % 2 ^ n != 0) = decide (∃ i < n, m.testBit (k + i) = true) := by
  rw [Bool.eq_iff_iff, bne_iff_ne, decide_eq_true_iff]
  constructor
  · intro h
    apply Classical.byContradiction; intro hne
    apply h
    apply Nat.eq_of_testBit_eq
    intro i
    rw [Nat.testBit_mod_two_pow, Nat.testBit_div_two_pow, Nat.zero_testBit]
    by_cases hi : i < n
    · have : ¬ m.testBit (k + i) = true := fun h => hne ⟨i, hi, h⟩
      simpa [hi, Nat.add_comm] using this
    · simp [hi]
  · rintro ⟨i, hi, hb⟩ h0
    have : (m / 2 ^ k % 2 ^ n).testBit i = true := by
      rw [Nat.testBit_mod_two_pow, Nat.testBit_div_two_pow]
      simp [hi, Nat.add_comm, hb]
    rw [h0] at this; simp at this

end Sys2Proof.Machine
end

