-- ==== Sys2Proof/Laws/SystemRuns.lean ====
section
/-! SUPPORT. Privilege checks, control registers, model-specific registers, selector tests, and prefixes that do not fit. -/

namespace Sys2Proof.Machine

theorem priv_run {s : State} (h : s.curPl = 0) : privileged s = .ok () s := by
  simp [privileged, h]

theorem priv_err {s : State} (h : s.curPl ≠ 0) : privileged s = .error (.exc (.gp 0)) s := by
  simp [privileged, h]

theorem prot_run {s : State} (h : s.prot = true) : protOnly s = .ok () s := by simp [protOnly, h]

theorem prot_err {s : State} (h : s.prot = false) : protOnly s = .error (.exc .ud) s := by simp [protOnly, h]

theorem storeSel_run (s : State) (v : Word) : (∀ r, storeSelector (.reg r) v s = .ok () (if s.os32 then s.setReg .d r (v.setWidth 32) else s.setReg .w r v)) ∧
   (∀ a ps u, accessEa a 2 2 .w s = .ok ps u → storeSelector (.mem a) v s = .ok () (u.stored ps v.toNat)) := by
  refine ⟨?_, ?_⟩
  · intro r
    simp only [storeSelector, M.bind_run, M.get_run, M.ite_run, setReg_run]
    split <;> rfl
  · intro a ps u h
    simp only [storeSelector, writeEa, M.bind_run, h, storeAt_run]

theorem and_zero_iff (x m : Dword) : x &&& m = 0#32 ↔ ∀ i < 32, m.getLsbD i = true → x.getLsbD i = false := by
  constructor
  · intro h i hi hm
    have := congrArg (fun z => BitVec.getLsbD z i) h
    simp only [BitVec.getLsbD_and, hm, Bool.and_true, BitVec.getLsbD_zero] at this
    exact this
  · intro h
    apply BitVec.eq_of_getLsbD_eq; intro i hi
    rw [BitVec.getLsbD_and, BitVec.getLsbD_zero]
    cases hm : m.getLsbD i
    · simp
    · rw [h i hi hm]; rfl

theorem cr0_flush_iff (v c : Dword) : (((v &&& cr0Mask) ||| (c &&& ~~~cr0Mask)) ^^^ c) &&& 0x80000001#32 = 0#32 ↔ (v.getLsbD 31 != c.getLsbD 31 || v.getLsbD 0 != c.getLsbD 0) = false := by
  have hm : ∀ i < 32, (0x80000001#32).getLsbD i = true ↔ i = 31 ∨ i = 0 := by decide
  have k31 : cr0Mask.getLsbD 31 = true := rfl
  have k0 : cr0Mask.getLsbD 0 = true := rfl
  have e : ∀ i, cr0Mask.getLsbD i = true → (((v &&& cr0Mask) ||| (c &&& ~~~cr0Mask)) ^^^ c).getLsbD i = (v.getLsbD i != c.getLsbD i) := by
    intro i h
    simp only [BitVec.getLsbD_xor, BitVec.getLsbD_or, BitVec.getLsbD_and, BitVec.getLsbD_not, h, Bool.not_true, Bool.and_true, Bool.and_false, Bool.or_false]

  rw [and_zero_iff]
  constructor
  · intro h
    have h1 := h 31 (by decide) rfl
    have h2 := h 0 (by decide) rfl
    rw [e 31 k31] at h1; rw [e 0 k0] at h2
    rw [h1, h2, Bool.or_self]
  · intro h i hi hb
    simp only [Bool.or_eq_false_iff] at h
    rcases (hm i hi).1 hb with rfl | rfl
    · rw [e 31 k31]; exact h.1
    · rw [e 0 k0]; exact h.2

theorem cr4_flush_iff (v c : Dword) : (v ^^^ c) &&& 0x000000B0#32 = 0#32 ↔ (v.getLsbD 4 != c.getLsbD 4 || v.getLsbD 5 != c.getLsbD 5 || v.getLsbD 7 != c.getLsbD 7) = false := by
  have hm : ∀ i < 32, (0x000000B0#32).getLsbD i = true ↔ i = 4 ∨ i = 5 ∨ i = 7 := by decide
  have e : ∀ i, (v ^^^ c).getLsbD i = (v.getLsbD i != c.getLsbD i) := by
    intro i; rw [BitVec.getLsbD_xor]
  rw [and_zero_iff]
  constructor
  · intro h
    have h1 := h 4 (by decide) rfl
    have h2 := h 5 (by decide) rfl
    have h3 := h 7 (by decide) rfl
    rw [e] at h1 h2 h3
    rw [h1, h2, h3, Bool.or_self, Bool.or_self]
  · intro h i hi hb
    simp only [Bool.or_eq_false_iff] at h
    rw [e]
    rcases (hm i hi).1 hb with rfl | rfl | rfl
    · exact h.1.1
    · exact h.1.2
    · exact h.2

theorem pdptes_run {s t : State} (h : ReloadsPdptes true s t) : loadPdptes s = .ok () t := by
  obtain ⟨h1, rfl⟩ := h
  have hc : (s.sampled (addrs 32 (s.cr3.toNat / 32 * 32))).cr3 = s.cr3 := State.sampled_cr3 ..
  have e : ∀ i < 4, ¬ 2 ^ Config.physBits ≤ (s.sampled (addrs 32 (s.cr3.toNat / 32 * 32))).entry (s.cr3.toNat / 32 * 32 + 8 * i) 8 := by
    intro i hi
    have := h1 i hi
    unfold State.pdpteAt at this
    rw [hc] at this
    rw [show Config.physBits = 36 from rfl]; omega
  simp only [loadPdptes, M.bind_run, M.get_run, sample_run]
  unfold State.pdpteAt
  rw [hc]
  generalize s.sampled (addrs 32 (s.cr3.toNat / 32 * 32)) = u at e ⊢
  simp only [raiseIf_run, decide_eq_false (e 0 (by omega)), decide_eq_false (e 1 (by omega)), decide_eq_false (e 2 (by omega)), decide_eq_false (e 3 (by omega)), Bool.or_self, Bool.false_eq_true, if_false, M.set_run]

theorem reload_run {c : Bool} {s t : State} (h : ReloadsPdptes c s t) : (if c = true then loadPdptes else pure () : M Unit) s = .ok () t := by
  rw [M.ite_run]
  cases c
  · cases h; rfl
  · rw [if_pos rfl]; exact pdptes_run h

theorem divFlags_run (s : State) : divFlags s = .ok () s.noFlags := rfl

theorem toSys_run {n r v} {s t : State} (hp : s.plain) (hc : s.curPl = 0) (hn : (s.controlReg n).isSome = true)
    (h : setControlReg n v s = .ok () t) (hv : s.gpr.get r = v) : completes (.movCr (.toSys n r)) s t.noFlags := by
  obtain ⟨x, hx⟩ := Option.isSome_iff_exists.1 hn
  refine run_ok hp ?_
  simp only [movCr, M.bind_run, M.get_run, hx, Option.isNone_some, raiseIf_run, Bool.false_eq_true, if_false, priv_run hc, hv, h, divFlags_run]

theorem toSys_err {n r v e} {s : State} (hp : s.plain) (hc : s.curPl = 0) (hn : (s.controlReg n).isSome = true)
    (h : setControlReg n v s = .error (.exc e) s) (hv : s.gpr.get r = v) : exec (.movCr (.toSys n r)) s = takeExc e (s.rollback s) := by
  obtain ⟨x, hx⟩ := Option.isSome_iff_exists.1 hn
  refine run_exc hp ?_
  simp only [movCr, M.bind_run, M.get_run, hx, Option.isNone_some, raiseIf_run, Bool.false_eq_true, if_false, priv_run hc, hv, h]

theorem msrLookup_insert : ∀ (l : List (Dword × Qword)) i v j, msrsSorted l → msrLookup (msrInsert l i v) j = if j = i then v else msrLookup l j
  | [], i, v, j, _ => by
    simp only [msrInsert, msrLookup]
    by_cases h : i = j
    · subst h; simp
    · simp [h, Ne.symm h, show ¬ j = i from fun e => h e.symm]
  | (k, w) :: t, i, v, j, hs => by
    have ht : msrsSorted t := by
      cases t with
      | nil => trivial
      | cons p t => exact hs.2
    unfold msrInsert
    split
    · rename_i h; subst h
      simp only [msrLookup]
      by_cases h : k = j
      · subst h; simp
      · simp [h, show ¬ j = k from fun e => h e.symm]
    · rename_i h
      split
      · simp only [msrLookup]
        by_cases h2 : i = j
        · subst h2; simp
        · simp [h2, show ¬ j = i from fun e => h2 e.symm]
      · simp only [msrLookup]
        rw [msrLookup_insert t i v j ht]
        by_cases h2 : k = j
        · subst h2; simp [h]
        · simp [h2]

theorem testDesc_fails {sel ok} {s t : State} (h : TestFails sel ok s t) : testDesc sel ok s = .ok none t := by
  rcases h with ⟨h, rfl⟩ | ⟨h, hd⟩ | ⟨d, h, hd, hn⟩
  · simp only [testDesc, M.ite_run, h, if_true, M.pure_run]
  · simp only [testDesc, M.ite_run, h, Bool.false_eq_true, if_false, M.bind_run, hd, M.pure_run]
  · have hc := (readDesc_still hd).seen.curPl
    simp only [testDesc, M.ite_run, h, Bool.false_eq_true, if_false, M.bind_run, hd, M.get_run, M.pure_run, hc]
    rw [if_neg]
    intro h2
    apply hn
    simpa [State.testOk] using h2

theorem testDesc_finds {sel ok d} {s t : State} (h : TestFinds sel ok s d t) : testDesc sel ok s = .ok (some d) t := by
  obtain ⟨h, hd, hn⟩ := h
  have hc := (readDesc_still hd).seen.curPl
  simp only [testDesc, M.ite_run, h, Bool.false_eq_true, if_false, M.bind_run, hd, M.get_run, M.pure_run, hc]
  rw [if_pos]
  simpa [State.testOk] using hn

theorem run_locked_ud (m : M Unit) {s : State} (h : s.pfx.lock = true) : run m s = takeExc .ud s := by
  simp [run, runWith, h]

theorem runWith_locked_ud (m : M Unit) {s : State} (h : s.pfx.lock = true) : runWaiting m s = takeExc .ud s := by
  simp only [runWaiting, h, Bool.true_or, if_true]; exact run_locked_ud _ h

theorem run_repRefused (m : M Unit) {s : State} (h : decide (s.pfx.rep = .none) = false) (h4 : s.pfx.lock = false) : run m s = .refused .repUndefined := by
  have h := of_decide_eq_false h
  have : RepUse.allows .never s.pfx.rep = false := by cases hr : s.pfx.rep <;> simp_all [RepUse.allows]
  simp [run, runWith, h4, this]

end Sys2Proof.Machine
end

