-- ==== Sys2Proof/Tests/Slice0.lean ====
section
/-! SUPPORT. Tests: words written out from the spec's encodings, ill-formed terms, small steps with results worked out from
the spec, and for every statement with hypotheses a concrete state and operands that meet them. -/

set_option Elab.async false

namespace Sys2Proof.Tests
open Sys2Proof.Machine

/-! ## Decoding -/

def c32 : Ctx := { os32 := true, as32 := true, waitAlone := false }
def c16 : Ctx := { os32 := false, as32 := false, waitAlone := false }

/-- Every row's bytes decode, in its context, to its instruction and nothing is left. -/
def rowsDecode (rows : List (Ctx × List Byte × Instr)) : Bool :=
  rows.all fun r => decide (decode r.1 r.2.1 = some (r.2.2, []))

theorem test_decode_operand : rowsDecode [
  (c32, [0x8B, 0x44, 0x8B, 0xFC], .mov (.rRm .v .eax (.mem (.a32 (some .ebx) (some (.ecx, .x4)) 0xFFFFFFFC)))),
  (c32, [0x8B, 0x04, 0x25, 0x78, 0x56, 0x34, 0x12], .mov (.rRm .v .eax (.mem (.a32 none none 0x12345678)))),
  (c32, [0x8B, 0x05, 0x78, 0x56, 0x34, 0x12], .mov (.rRm .v .eax (.mem (.a32 none none 0x12345678)))),
  (c32, [0x8B, 0x04, 0x24], .mov (.rRm .v .eax (.mem (.a32 (some .esp) none 0)))),
  (c32, [0x8B, 0x04, 0x6D, 0x78, 0x56, 0x34, 0x12], .mov (.rRm .v .eax (.mem (.a32 none (some (.ebp, .x2)) 0x12345678)))),
  (c32, [0x8B, 0x80, 0x78, 0x56, 0x34, 0x12], .mov (.rRm .v .eax (.mem (.a32 (some .eax) none 0x12345678)))),
  (c16, [0x8B, 0x46, 0xFE], .mov (.rRm .v .eax (.mem (.a16 (some .bp) 0xFFFE)))),
  (c16, [0x8B, 0x06, 0x34, 0x12], .mov (.rRm .v .eax (.mem (.a16 none 0x1234)))),
  (c16, [0x8B, 0x82, 0x34, 0x12], .mov (.rRm .v .eax (.mem (.a16 (some .bpsi) 0x1234)))),
  (c16, [0xEA, 0x34, 0x12, 0x23, 0x01], .jmp (.ptr 0x0123 0x1234))] = true := by decide +kernel

theorem test_decode_alu : rowsDecode [
  (c32, [0xD5, 0x05], .aad 5),
  (c32, [0xD4, 0x05], .aam 5),
  (c32, [0x14, 0x05], .adc (.accImm .b 5)),
  (c16, [0x15, 0x34, 0x12], .adc (.accImm .v 0x1234)),
  (c32, [0x15, 0x78, 0x56, 0x34, 0x12], .adc (.accImm .v 0x12345678)),
  (c32, [0x80, 0xD1, 0x05], .adc (.rmImm .b (.reg .ecx) 5)),
  (c16, [0x81, 0xD1, 0x34, 0x12], .adc (.rmImm .v (.reg .ecx) 0x1234)),
  (c32, [0x81, 0xD1, 0x78, 0x56, 0x34, 0x12], .adc (.rmImm .v (.reg .ecx) 0x12345678)),
  (c32, [0x83, 0xD1, 0x05], .adc (.rmImm8 (.reg .ecx) 5)),
  (c32, [0x10, 0xD1], .adc (.rmR .b (.reg .ecx) .edx)),
  (c32, [0x11, 0xD1], .adc (.rmR .v (.reg .ecx) .edx)),
  (c32, [0x12, 0xD1], .adc (.rRm .b .edx (.reg .ecx))),
  (c32, [0x13, 0xD1], .adc (.rRm .v .edx (.reg .ecx))),
  (c32, [0x04, 0x05], .add (.accImm .b 5)),
  (c16, [0x05, 0x34, 0x12], .add (.accImm .v 0x1234)),
  (c32, [0x05, 0x78, 0x56, 0x34, 0x12], .add (.accImm .v 0x12345678)),
  (c32, [0x80, 0xC1, 0x05], .add (.rmImm .b (.reg .ecx) 5)),
  (c16, [0x81, 0xC1, 0x34, 0x12], .add (.rmImm .v (.reg .ecx) 0x1234)),
  (c32, [0x81, 0xC1, 0x78, 0x56, 0x34, 0x12], .add (.rmImm .v (.reg .ecx) 0x12345678)),
  (c32, [0x83, 0xC1, 0x05], .add (.rmImm8 (.reg .ecx) 5)),
  (c32, [0x00, 0xD1], .add (.rmR .b (.reg .ecx) .edx)),
  (c32, [0x01, 0xD1], .add (.rmR .v (.reg .ecx) .edx)),
  (c32, [0x02, 0xD1], .add (.rRm .b .edx (.reg .ecx))),
  (c32, [0x03, 0xD1], .add (.rRm .v .edx (.reg .ecx))),
  (c32, [0x24, 0x05], .and_ (.accImm .b 5)),
  (c16, [0x25, 0x34, 0x12], .and_ (.accImm .v 0x1234)),
  (c32, [0x25, 0x78, 0x56, 0x34, 0x12], .and_ (.accImm .v 0x12345678)),
  (c32, [0x80, 0xE1, 0x05], .and_ (.rmImm .b (.reg .ecx) 5)),
  (c16, [0x81, 0xE1, 0x34, 0x12], .and_ (.rmImm .v (.reg .ecx) 0x1234)),
  (c32, [0x81, 0xE1, 0x78, 0x56, 0x34, 0x12], .and_ (.rmImm .v (.reg .ecx) 0x12345678)),
  (c32, [0x83, 0xE1, 0x05], .and_ (.rmImm8 (.reg .ecx) 5)),
  (c32, [0x20, 0xD1], .and_ (.rmR .b (.reg .ecx) .edx)),
  (c32, [0x21, 0xD1], .and_ (.rmR .v (.reg .ecx) .edx)),
  (c32, [0x22, 0xD1], .and_ (.rRm .b .edx (.reg .ecx))),
  (c32, [0x23, 0xD1], .and_ (.rRm .v .edx (.reg .ecx))),
  (c32, [0x3C, 0x05], .cmp (.accImm .b 5)),
  (c16, [0x3D, 0x34, 0x12], .cmp (.accImm .v 0x1234)),
  (c32, [0x3D, 0x78, 0x56, 0x34, 0x12], .cmp (.accImm .v 0x12345678)),
  (c32, [0x80, 0xF9, 0x05], .cmp (.rmImm .b (.reg .ecx) 5)),
  (c16, [0x81, 0xF9, 0x34, 0x12], .cmp (.rmImm .v (.reg .ecx) 0x1234)),
  (c32, [0x81, 0xF9, 0x78, 0x56, 0x34, 0x12], .cmp (.rmImm .v (.reg .ecx) 0x12345678)),
  (c32, [0x83, 0xF9, 0x05], .cmp (.rmImm8 (.reg .ecx) 5)),
  (c32, [0x38, 0xD1], .cmp (.rmR .b (.reg .ecx) .edx)),
  (c32, [0x39, 0xD1], .cmp (.rmR .v (.reg .ecx) .edx)),
  (c32, [0x3A, 0xD1], .cmp (.rRm .b .edx (.reg .ecx))),
  (c32, [0x3B, 0xD1], .cmp (.rRm .v .edx (.reg .ecx))),
  (c32, [0x0F, 0xB0, 0xD1], .cmpxchg .b (.reg .ecx) .edx),
  (c32, [0x0F, 0xB1, 0xD1], .cmpxchg .v (.reg .ecx) .edx),
  (c32, [0x0F, 0xC7, 0x4B, 0x10], .cmpxchg8b (.mem (.a32 (some .ebx) none 0x10))),
  (c32, [0xFE, 0xC9], .dec (.rm .b (.reg .ecx))),
  (c32, [0xFF, 0xC9], .dec (.rm .v (.reg .ecx))),
  (c32, [0x49], .dec (.reg .ecx)),
  (c32, [0xF6, 0xF1], .div .b (.reg .ecx)),
  (c32, [0xF7, 0xF1], .div .v (.reg .ecx)),
  (c32, [0xF6, 0xF9], .idiv .b (.reg .ecx)),
  (c32, [0xF7, 0xF9], .idiv .v (.reg .ecx)),
  (c32, [0xF6, 0xE9], .imul (.one .b (.reg .ecx))),
  (c32, [0xF7, 0xE9], .imul (.one .v (.reg .ecx))),
  (c32, [0x0F, 0xAF, 0xD1], .imul (.two .edx (.reg .ecx))),
  (c32, [0x6B, 0xD1, 0x05], .imul (.three .edx (.reg .ecx) (.b 5))),
  (c16, [0x69, 0xD1, 0x34, 0x12], .imul (.three .edx (.reg .ecx) (.v 0x1234))),
  (c32, [0x69, 0xD1, 0x78, 0x56, 0x34, 0x12], .imul (.three .edx (.reg .ecx) (.v 0x12345678))),
  (c32, [0xFE, 0xC1], .inc (.rm .b (.reg .ecx))),
  (c32, [0xFF, 0xC1], .inc (.rm .v (.reg .ecx))),
  (c32, [0x41], .inc (.reg .ecx)),
  (c32, [0xF6, 0xE1], .mul .b (.reg .ecx)),
  (c32, [0xF7, 0xE1], .mul .v (.reg .ecx)),
  (c32, [0xF6, 0xD9], .neg .b (.reg .ecx)),
  (c32, [0xF7, 0xD9], .neg .v (.reg .ecx)),
  (c32, [0xF6, 0xD1], .not_ .b (.reg .ecx)),
  (c32, [0xF7, 0xD1], .not_ .v (.reg .ecx)),
  (c32, [0x0C, 0x05], .or_ (.accImm .b 5)),
  (c16, [0x0D, 0x34, 0x12], .or_ (.accImm .v 0x1234)),
  (c32, [0x0D, 0x78, 0x56, 0x34, 0x12], .or_ (.accImm .v 0x12345678)),
  (c32, [0x80, 0xC9, 0x05], .or_ (.rmImm .b (.reg .ecx) 5)),
  (c16, [0x81, 0xC9, 0x34, 0x12], .or_ (.rmImm .v (.reg .ecx) 0x1234)),
  (c32, [0x81, 0xC9, 0x78, 0x56, 0x34, 0x12], .or_ (.rmImm .v (.reg .ecx) 0x12345678)),
  (c32, [0x83, 0xC9, 0x05], .or_ (.rmImm8 (.reg .ecx) 5)),
  (c32, [0x08, 0xD1], .or_ (.rmR .b (.reg .ecx) .edx)),
  (c32, [0x09, 0xD1], .or_ (.rmR .v (.reg .ecx) .edx)),
  (c32, [0x0A, 0xD1], .or_ (.rRm .b .edx (.reg .ecx))),
  (c32, [0x0B, 0xD1], .or_ (.rRm .v .edx (.reg .ecx))),
  (c32, [0x1C, 0x05], .sbb (.accImm .b 5)),
  (c16, [0x1D, 0x34, 0x12], .sbb (.accImm .v 0x1234)),
  (c32, [0x1D, 0x78, 0x56, 0x34, 0x12], .sbb (.accImm .v 0x12345678)),
  (c32, [0x80, 0xD9, 0x05], .sbb (.rmImm .b (.reg .ecx) 5)),
  (c16, [0x81, 0xD9, 0x34, 0x12], .sbb (.rmImm .v (.reg .ecx) 0x1234)),
  (c32, [0x81, 0xD9, 0x78, 0x56, 0x34, 0x12], .sbb (.rmImm .v (.reg .ecx) 0x12345678)),
  (c32, [0x83, 0xD9, 0x05], .sbb (.rmImm8 (.reg .ecx) 5)),
  (c32, [0x18, 0xD1], .sbb (.rmR .b (.reg .ecx) .edx)),
  (c32, [0x19, 0xD1], .sbb (.rmR .v (.reg .ecx) .edx)),
  (c32, [0x1A, 0xD1], .sbb (.rRm .b .edx (.reg .ecx))),
  (c32, [0x1B, 0xD1], .sbb (.rRm .v .edx (.reg .ecx))),
  (c32, [0x2C, 0x05], .sub (.accImm .b 5)),
  (c16, [0x2D, 0x34, 0x12], .sub (.accImm .v 0x1234)),
  (c32, [0x2D, 0x78, 0x56, 0x34, 0x12], .sub (.accImm .v 0x12345678)),
  (c32, [0x80, 0xE9, 0x05], .sub (.rmImm .b (.reg .ecx) 5)),
  (c16, [0x81, 0xE9, 0x34, 0x12], .sub (.rmImm .v (.reg .ecx) 0x1234)),
  (c32, [0x81, 0xE9, 0x78, 0x56, 0x34, 0x12], .sub (.rmImm .v (.reg .ecx) 0x12345678)),
  (c32, [0x83, 0xE9, 0x05], .sub (.rmImm8 (.reg .ecx) 5)),
  (c32, [0x28, 0xD1], .sub (.rmR .b (.reg .ecx) .edx)),
  (c32, [0x29, 0xD1], .sub (.rmR .v (.reg .ecx) .edx)),
  (c32, [0x2A, 0xD1], .sub (.rRm .b .edx (.reg .ecx))),
  (c32, [0x2B, 0xD1], .sub (.rRm .v .edx (.reg .ecx))),
  (c32, [0xA8, 0x05], .test (.accImm .b 5)),
  (c16, [0xA9, 0x34, 0x12], .test (.accImm .v 0x1234)),
  (c32, [0xA9, 0x78, 0x56, 0x34, 0x12], .test (.accImm .v 0x12345678)),
  (c32, [0xF6, 0xC1, 0x05], .test (.rmImm .b (.reg .ecx) 5)),
  (c16, [0xF7, 0xC1, 0x34, 0x12], .test (.rmImm .v (.reg .ecx) 0x1234)),
  (c32, [0xF7, 0xC1, 0x78, 0x56, 0x34, 0x12], .test (.rmImm .v (.reg .ecx) 0x12345678)),
  (c32, [0x84, 0xD1], .test (.rmR .b (.reg .ecx) .edx)),
  (c32, [0x85, 0xD1], .test (.rmR .v (.reg .ecx) .edx)),
  (c32, [0x0F, 0xC0, 0xD1], .xadd .b (.reg .ecx) .edx),
  (c32, [0x0F, 0xC1, 0xD1], .xadd .v (.reg .ecx) .edx),
  (c32, [0x34, 0x05], .xor_ (.accImm .b 5)),
  (c16, [0x35, 0x34, 0x12], .xor_ (.accImm .v 0x1234)),
  (c32, [0x35, 0x78, 0x56, 0x34, 0x12], .xor_ (.accImm .v 0x12345678)),
  (c32, [0x80, 0xF1, 0x05], .xor_ (.rmImm .b (.reg .ecx) 5)),
  (c16, [0x81, 0xF1, 0x34, 0x12], .xor_ (.rmImm .v (.reg .ecx) 0x1234)),
  (c32, [0x81, 0xF1, 0x78, 0x56, 0x34, 0x12], .xor_ (.rmImm .v (.reg .ecx) 0x12345678)),
  (c32, [0x83, 0xF1, 0x05], .xor_ (.rmImm8 (.reg .ecx) 5)),
  (c32, [0x30, 0xD1], .xor_ (.rmR .b (.reg .ecx) .edx)),
  (c32, [0x31, 0xD1], .xor_ (.rmR .v (.reg .ecx) .edx)),
  (c32, [0x32, 0xD1], .xor_ (.rRm .b .edx (.reg .ecx))),
  (c32, [0x33, 0xD1], .xor_ (.rRm .v .edx (.reg .ecx)))] = true := by decide +kernel

theorem test_decode_shift : rowsDecode [
  (c32, [0xD0, 0xC1], .rol { w := .b, dst := .reg .ecx, count := .one }),
  (c32, [0xD2, 0xC1], .rol { w := .b, dst := .reg .ecx, count := .cl }),
  (c32, [0xC0, 0xC1, 0x05], .rol { w := .b, dst := .reg .ecx, count := .imm 5 }),
  (c32, [0xD1, 0xC1], .rol { w := .v, dst := .reg .ecx, count := .one }),
  (c32, [0xD3, 0xC1], .rol { w := .v, dst := .reg .ecx, count := .cl }),
  (c32, [0xC1, 0xC1, 0x05], .rol { w := .v, dst := .reg .ecx, count := .imm 5 }),
  (c32, [0xD0, 0xC9], .ror { w := .b, dst := .reg .ecx, count := .one }),
  (c32, [0xD2, 0xC9], .ror { w := .b, dst := .reg .ecx, count := .cl }),
  (c32, [0xC0, 0xC9, 0x05], .ror { w := .b, dst := .reg .ecx, count := .imm 5 }),
  (c32, [0xD1, 0xC9], .ror { w := .v, dst := .reg .ecx, count := .one }),
  (c32, [0xD3, 0xC9], .ror { w := .v, dst := .reg .ecx, count := .cl }),
  (c32, [0xC1, 0xC9, 0x05], .ror { w := .v, dst := .reg .ecx, count := .imm 5 }),
  (c32, [0xD0, 0xD1], .rcl { w := .b, dst := .reg .ecx, count := .one }),
  (c32, [0xD2, 0xD1], .rcl { w := .b, dst := .reg .ecx, count := .cl }),
  (c32, [0xC0, 0xD1, 0x05], .rcl { w := .b, dst := .reg .ecx, count := .imm 5 }),
  (c32, [0xD1, 0xD1], .rcl { w := .v, dst := .reg .ecx, count := .one }),
  (c32, [0xD3, 0xD1], .rcl { w := .v, dst := .reg .ecx, count := .cl }),
  (c32, [0xC1, 0xD1, 0x05], .rcl { w := .v, dst := .reg .ecx, count := .imm 5 }),
  (c32, [0xD0, 0xD9], .rcr { w := .b, dst := .reg .ecx, count := .one }),
  (c32, [0xD2, 0xD9], .rcr { w := .b, dst := .reg .ecx, count := .cl }),
  (c32, [0xC0, 0xD9, 0x05], .rcr { w := .b, dst := .reg .ecx, count := .imm 5 }),
  (c32, [0xD1, 0xD9], .rcr { w := .v, dst := .reg .ecx, count := .one }),
  (c32, [0xD3, 0xD9], .rcr { w := .v, dst := .reg .ecx, count := .cl }),
  (c32, [0xC1, 0xD9, 0x05], .rcr { w := .v, dst := .reg .ecx, count := .imm 5 }),
  (c32, [0xD0, 0xE1], .salShl { w := .b, dst := .reg .ecx, count := .one }),
  (c32, [0xD2, 0xE1], .salShl { w := .b, dst := .reg .ecx, count := .cl }),
  (c32, [0xC0, 0xE1, 0x05], .salShl { w := .b, dst := .reg .ecx, count := .imm 5 }),
  (c32, [0xD1, 0xE1], .salShl { w := .v, dst := .reg .ecx, count := .one }),
  (c32, [0xD3, 0xE1], .salShl { w := .v, dst := .reg .ecx, count := .cl }),
  (c32, [0xC1, 0xE1, 0x05], .salShl { w := .v, dst := .reg .ecx, count := .imm 5 }),
  (c32, [0xD0, 0xE9], .shr { w := .b, dst := .reg .ecx, count := .one }),
  (c32, [0xD2, 0xE9], .shr { w := .b, dst := .reg .ecx, count := .cl }),
  (c32, [0xC0, 0xE9, 0x05], .shr { w := .b, dst := .reg .ecx, count := .imm 5 }),
  (c32, [0xD1, 0xE9], .shr { w := .v, dst := .reg .ecx, count := .one }),
  (c32, [0xD3, 0xE9], .shr { w := .v, dst := .reg .ecx, count := .cl }),
  (c32, [0xC1, 0xE9, 0x05], .shr { w := .v, dst := .reg .ecx, count := .imm 5 }),
  (c32, [0xD0, 0xF9], .sar { w := .b, dst := .reg .ecx, count := .one }),
  (c32, [0xD2, 0xF9], .sar { w := .b, dst := .reg .ecx, count := .cl }),
  (c32, [0xC0, 0xF9, 0x05], .sar { w := .b, dst := .reg .ecx, count := .imm 5 }),
  (c32, [0xD1, 0xF9], .sar { w := .v, dst := .reg .ecx, count := .one }),
  (c32, [0xD3, 0xF9], .sar { w := .v, dst := .reg .ecx, count := .cl }),
  (c32, [0xC1, 0xF9, 0x05], .sar { w := .v, dst := .reg .ecx, count := .imm 5 }),
  (c32, [0x0F, 0xA4, 0xD1, 0x05], .shld (.imm (.reg .ecx) .edx 5)),
  (c32, [0x0F, 0xA5, 0xD1], .shld (.cl (.reg .ecx) .edx)),
  (c32, [0x0F, 0xAC, 0xD1, 0x05], .shrd (.imm (.reg .ecx) .edx 5)),
  (c32, [0x0F, 0xAD, 0xD1], .shrd (.cl (.reg .ecx) .edx))] = true := by decide +kernel

theorem test_decode_bit : rowsDecode [
  (c32, [0x0F, 0xBC, 0xD1], .bsf .edx (.reg .ecx)),
  (c32, [0x0F, 0xBD, 0xD1], .bsr .edx (.reg .ecx)),
  (c32, [0x0F, 0xC9], .bswap .ecx),
  (c32, [0x0F, 0xA3, 0xD1], .bt (.rmR (.reg .ecx) .edx)),
  (c32, [0x0F, 0xBA, 0xE1, 0x05], .bt (.rmImm (.reg .ecx) 5)),
  (c32, [0x0F, 0xBB, 0xD1], .btc (.rmR (.reg .ecx) .edx)),
  (c32, [0x0F, 0xBA, 0xF9, 0x05], .btc (.rmImm (.reg .ecx) 5)),
  (c32, [0x0F, 0xB3, 0xD1], .btr (.rmR (.reg .ecx) .edx)),
  (c32, [0x0F, 0xBA, 0xF1, 0x05], .btr (.rmImm (.reg .ecx) 5)),
  (c32, [0x0F, 0xAB, 0xD1], .bts (.rmR (.reg .ecx) .edx)),
  (c32, [0x0F, 0xBA, 0xE9, 0x05], .bts (.rmImm (.reg .ecx) 5))] = true := by decide +kernel

theorem test_decode_cond : rowsDecode [
  (c32, [0x0F, 0x40, 0xD1], .cmovo .edx (.reg .ecx)),
  (c32, [0x0F, 0x41, 0xD1], .cmovno .edx (.reg .ecx)),
  (c32, [0x0F, 0x42, 0xD1], .cmovb .edx (.reg .ecx)),
  (c32, [0x0F, 0x43, 0xD1], .cmovae .edx (.reg .ecx)),
  (c32, [0x0F, 0x44, 0xD1], .cmove .edx (.reg .ecx)),
  (c32, [0x0F, 0x45, 0xD1], .cmovne .edx (.reg .ecx)),
  (c32, [0x0F, 0x46, 0xD1], .cmovbe .edx (.reg .ecx)),
  (c32, [0x0F, 0x47, 0xD1], .cmova .edx (.reg .ecx)),
  (c32, [0x0F, 0x48, 0xD1], .cmovs .edx (.reg .ecx)),
  (c32, [0x0F, 0x49, 0xD1], .cmovns .edx (.reg .ecx)),
  (c32, [0x0F, 0x4A, 0xD1], .cmovp .edx (.reg .ecx)),
  (c32, [0x0F, 0x4B, 0xD1], .cmovnp .edx (.reg .ecx)),
  (c32, [0x0F, 0x4C, 0xD1], .cmovl .edx (.reg .ecx)),
  (c32, [0x0F, 0x4D, 0xD1], .cmovge .edx (.reg .ecx)),
  (c32, [0x0F, 0x4E, 0xD1], .cmovle .edx (.reg .ecx)),
  (c32, [0x0F, 0x4F, 0xD1], .cmovg .edx (.reg .ecx)),
  (c32, [0x70, 0x05], .jo (.short 5)),
  (c32, [0x71, 0x05], .jno (.short 5)),
  (c32, [0x72, 0x05], .jb (.short 5)),
  (c32, [0x73, 0x05], .jae (.short 5)),
  (c32, [0x74, 0x05], .je (.short 5)),
  (c32, [0x75, 0x05], .jne (.short 5)),
  (c32, [0x76, 0x05], .jbe (.short 5)),
  (c32, [0x77, 0x05], .ja (.short 5)),
  (c32, [0x78, 0x05], .js (.short 5)),
  (c32, [0x79, 0x05], .jns (.short 5)),
  (c32, [0x7A, 0x05], .jp (.short 5)),
  (c32, [0x7B, 0x05], .jnp (.short 5)),
  (c32, [0x7C, 0x05], .jl (.short 5)),
  (c32, [0x7D, 0x05], .jge (.short 5)),
  (c32, [0x7E, 0x05], .jle (.short 5)),
  (c32, [0x7F, 0x05], .jg (.short 5)),
  (c16, [0x0F, 0x80, 0x34, 0x12], .jo (.near 0x1234)),
  (c32, [0x0F, 0x80, 0x78, 0x56, 0x34, 0x12], .jo (.near 0x12345678)),
  (c16, [0x0F, 0x81, 0x34, 0x12], .jno (.near 0x1234)),
  (c32, [0x0F, 0x81, 0x78, 0x56, 0x34, 0x12], .jno (.near 0x12345678)),
  (c16, [0x0F, 0x82, 0x34, 0x12], .jb (.near 0x1234)),
  (c32, [0x0F, 0x82, 0x78, 0x56, 0x34, 0x12], .jb (.near 0x12345678)),
  (c16, [0x0F, 0x83, 0x34, 0x12], .jae (.near 0x1234)),
  (c32, [0x0F, 0x83, 0x78, 0x56, 0x34, 0x12], .jae (.near 0x12345678)),
  (c16, [0x0F, 0x84, 0x34, 0x12], .je (.near 0x1234)),
  (c32, [0x0F, 0x84, 0x78, 0x56, 0x34, 0x12], .je (.near 0x12345678)),
  (c16, [0x0F, 0x85, 0x34, 0x12], .jne (.near 0x1234)),
  (c32, [0x0F, 0x85, 0x78, 0x56, 0x34, 0x12], .jne (.near 0x12345678)),
  (c16, [0x0F, 0x86, 0x34, 0x12], .jbe (.near 0x1234)),
  (c32, [0x0F, 0x86, 0x78, 0x56, 0x34, 0x12], .jbe (.near 0x12345678)),
  (c16, [0x0F, 0x87, 0x34, 0x12], .ja (.near 0x1234)),
  (c32, [0x0F, 0x87, 0x78, 0x56, 0x34, 0x12], .ja (.near 0x12345678)),
  (c16, [0x0F, 0x88, 0x34, 0x12], .js (.near 0x1234)),
  (c32, [0x0F, 0x88, 0x78, 0x56, 0x34, 0x12], .js (.near 0x12345678)),
  (c16, [0x0F, 0x89, 0x34, 0x12], .jns (.near 0x1234)),
  (c32, [0x0F, 0x89, 0x78, 0x56, 0x34, 0x12], .jns (.near 0x12345678)),
  (c16, [0x0F, 0x8A, 0x34, 0x12], .jp (.near 0x1234)),
  (c32, [0x0F, 0x8A, 0x78, 0x56, 0x34, 0x12], .jp (.near 0x12345678)),
  (c16, [0x0F, 0x8B, 0x34, 0x12], .jnp (.near 0x1234)),
  (c32, [0x0F, 0x8B, 0x78, 0x56, 0x34, 0x12], .jnp (.near 0x12345678)),
  (c16, [0x0F, 0x8C, 0x34, 0x12], .jl (.near 0x1234)),
  (c32, [0x0F, 0x8C, 0x78, 0x56, 0x34, 0x12], .jl (.near 0x12345678)),
  (c16, [0x0F, 0x8D, 0x34, 0x12], .jge (.near 0x1234)),
  (c32, [0x0F, 0x8D, 0x78, 0x56, 0x34, 0x12], .jge (.near 0x12345678)),
  (c16, [0x0F, 0x8E, 0x34, 0x12], .jle (.near 0x1234)),
  (c32, [0x0F, 0x8E, 0x78, 0x56, 0x34, 0x12], .jle (.near 0x12345678)),
  (c16, [0x0F, 0x8F, 0x34, 0x12], .jg (.near 0x1234)),
  (c32, [0x0F, 0x8F, 0x78, 0x56, 0x34, 0x12], .jg (.near 0x12345678)),
  (c32, [0x0F, 0x90, 0xC1], .seto (.reg .ecx)),
  (c32, [0x0F, 0x91, 0xC1], .setno (.reg .ecx)),
  (c32, [0x0F, 0x92, 0xC1], .setb (.reg .ecx)),
  (c32, [0x0F, 0x93, 0xC1], .setae (.reg .ecx)),
  (c32, [0x0F, 0x94, 0xC1], .sete (.reg .ecx)),
  (c32, [0x0F, 0x95, 0xC1], .setne (.reg .ecx)),
  (c32, [0x0F, 0x96, 0xC1], .setbe (.reg .ecx)),
  (c32, [0x0F, 0x97, 0xC1], .seta (.reg .ecx)),
  (c32, [0x0F, 0x98, 0xC1], .sets (.reg .ecx)),
  (c32, [0x0F, 0x99, 0xC1], .setns (.reg .ecx)),
  (c32, [0x0F, 0x9A, 0xC1], .setp (.reg .ecx)),
  (c32, [0x0F, 0x9B, 0xC1], .setnp (.reg .ecx)),
  (c32, [0x0F, 0x9C, 0xC1], .setl (.reg .ecx)),
  (c32, [0x0F, 0x9D, 0xC1], .setge (.reg .ecx)),
  (c32, [0x0F, 0x9E, 0xC1], .setle (.reg .ecx)),
  (c32, [0x0F, 0x9F, 0xC1], .setg (.reg .ecx))] = true := by decide +kernel

theorem test_decode_move : rowsDecode [
  (c32, [0x62, 0x53, 0x10], .bound .edx (.mem (.a32 (some .ebx) none 0x10))),
  (c32, [0xC5, 0x53, 0x10], .lds .edx (.mem (.a32 (some .ebx) none 0x10))),
  (c32, [0xC4, 0x53, 0x10], .les .edx (.mem (.a32 (some .ebx) none 0x10))),
  (c32, [0x0F, 0xB2, 0x53, 0x10], .lss .edx (.mem (.a32 (some .ebx) none 0x10))),
  (c32, [0x0F, 0xB4, 0x53, 0x10], .lfs .edx (.mem (.a32 (some .ebx) none 0x10))),
  (c32, [0x0F, 0xB5, 0x53, 0x10], .lgs .edx (.mem (.a32 (some .ebx) none 0x10))),
  (c32, [0x8D, 0x53, 0x10], .lea .edx (.mem (.a32 (some .ebx) none 0x10))),
  (c32, [0x88, 0xD1], .mov (.rmR .b (.reg .ecx) .edx)),
  (c32, [0x89, 0xD1], .mov (.rmR .v (.reg .ecx) .edx)),
  (c32, [0x8A, 0xD1], .mov (.rRm .b .edx (.reg .ecx))),
  (c32, [0x8B, 0xD1], .mov (.rRm .v .edx (.reg .ecx))),
  (c32, [0x8C, 0xD1], .movSreg (.fromSreg (.reg .ecx) .i2)),
  (c32, [0x8E, 0xD1], .movSreg (.toSreg .i2 (.reg .ecx))),
  (c32, [0xA0, 0x78, 0x56, 0x34, 0x12], .mov (.accMoffs .b 0x12345678)),
  (c32, [0xA1, 0x78, 0x56, 0x34, 0x12], .mov (.accMoffs .v 0x12345678)),
  (c32, [0xA2, 0x78, 0x56, 0x34, 0x12], .mov (.moffsAcc .b 0x12345678)),
  (c32, [0xA3, 0x78, 0x56, 0x34, 0x12], .mov (.moffsAcc .v 0x12345678)),
  (c32, [0xB1, 0x05], .mov (.rImm .b .ecx 5)),
  (c16, [0xB9, 0x34, 0x12], .mov (.rImm .v .ecx 0x1234)),
  (c32, [0xB9, 0x78, 0x56, 0x34, 0x12], .mov (.rImm .v .ecx 0x12345678)),
  (c32, [0xC6, 0xC1, 0x05], .mov (.rmImm .b (.reg .ecx) 5)),
  (c16, [0xC7, 0xC1, 0x34, 0x12], .mov (.rmImm .v (.reg .ecx) 0x1234)),
  (c32, [0xC7, 0xC1, 0x78, 0x56, 0x34, 0x12], .mov (.rmImm .v (.reg .ecx) 0x12345678)),
  (c32, [0x0F, 0x22, 0xD1], .movCr (.toSys .i2 .ecx)),
  (c32, [0x0F, 0x20, 0xD1], .movCr (.fromSys .ecx .i2)),
  (c32, [0x0F, 0x22, 0x00], .movCr (.badMod true 0x00)),
  (c32, [0x0F, 0x21, 0x94], .movDr (.badMod false 0x94)),
  (c32, [0x0F, 0x21, 0xD1], .movDr (.fromSys .ecx .i2)),
  (c32, [0x0F, 0x23, 0xD1], .movDr (.toSys .i2 .ecx)),
  (c32, [0x0F, 0xBE, 0xD1], .movsx .b .edx (.reg .ecx)),
  (c32, [0x0F, 0xBF, 0xD1], .movsx .v .edx (.reg .ecx)),
  (c32, [0x0F, 0xB6, 0xD1], .movzx .b .edx (.reg .ecx)),
  (c32, [0x0F, 0xB7, 0xD1], .movzx .v .edx (.reg .ecx)),
  (c32, [0x91], .xchg (.acc .ecx)),
  (c32, [0x86, 0xD1], .xchg (.rmR .b (.reg .ecx) .edx)),
  (c32, [0x87, 0xD1], .xchg (.rmR .v (.reg .ecx) .edx))] = true := by decide +kernel

theorem test_decode_stack : rowsDecode [
  (c32, [0xC8, 0x34, 0x12, 0x05], .enter 0x1234 5),
  (c32, [0x8F, 0xC1], .pop (.rm (.reg .ecx))),
  (c32, [0x59], .pop (.reg .ecx)),
  (c32, [0x1F], .pop (.sreg .ds)),
  (c32, [0x07], .pop (.sreg .es)),
  (c32, [0x17], .pop (.sreg .ss)),
  (c32, [0x0F, 0xA1], .pop (.sreg .fs)),
  (c32, [0x0F, 0xA9], .pop (.sreg .gs)),
  (c32, [0xFF, 0xF1], .push (.rm (.reg .ecx))),
  (c32, [0x51], .push (.reg .ecx)),
  (c32, [0x6A, 0x05], .push (.imm (.b 5))),
  (c16, [0x68, 0x34, 0x12], .push (.imm (.v 0x1234))),
  (c32, [0x68, 0x78, 0x56, 0x34, 0x12], .push (.imm (.v 0x12345678))),
  (c32, [0x0E], .push (.sreg .cs)),
  (c32, [0x16], .push (.sreg .ss)),
  (c32, [0x1E], .push (.sreg .ds)),
  (c32, [0x06], .push (.sreg .es)),
  (c32, [0x0F, 0xA0], .push (.sreg .fs)),
  (c32, [0x0F, 0xA8], .push (.sreg .gs))] = true := by decide +kernel

theorem test_decode_control : rowsDecode [
  (c16, [0xE8, 0x34, 0x12], .call (.rel 0x1234)),
  (c32, [0xE8, 0x78, 0x56, 0x34, 0x12], .call (.rel 0x12345678)),
  (c32, [0xFF, 0xD1], .call (.rm (.reg .ecx))),
  (c32, [0x9A, 0x78, 0x56, 0x34, 0x12, 0x23, 0x01], .call (.ptr 0x0123 0x12345678)),
  (c32, [0xFF, 0x5B, 0x10], .call (.mfar (.mem (.a32 (some .ebx) none 0x10)))),
  (c32, [0xCC], .int3),
  (c32, [0xCD, 0x05], .intN 5),
  (c16, [0xE3, 0x05], .jcxz 5),
  (c32, [0xE3, 0x05], .jecxz 5),
  (c32, [0xEB, 0x05], .jmp (.short 5)),
  (c16, [0xE9, 0x34, 0x12], .jmp (.rel 0x1234)),
  (c32, [0xE9, 0x78, 0x56, 0x34, 0x12], .jmp (.rel 0x12345678)),
  (c32, [0xFF, 0xE1], .jmp (.rm (.reg .ecx))),
  (c32, [0xEA, 0x78, 0x56, 0x34, 0x12, 0x23, 0x01], .jmp (.ptr 0x0123 0x12345678)),
  (c32, [0xFF, 0x6B, 0x10], .jmp (.mfar (.mem (.a32 (some .ebx) none 0x10)))),
  (c32, [0xE2, 0x05], .loop 5),
  (c32, [0xE1, 0x05], .loope 5),
  (c32, [0xE0, 0x05], .loopne 5),
  (c32, [0xC3], .ret (.near none)),
  (c32, [0xC2, 0x34, 0x12], .ret (.near (some 0x1234))),
  (c32, [0xCB], .ret (.far none)),
  (c32, [0xCA, 0x34, 0x12], .ret (.far (some 0x1234)))] = true := by decide +kernel

theorem test_decode_string : rowsDecode [
  (c32, [0xA6], .cmps .b),
  (c32, [0xA7], .cmps .v),
  (c32, [0xE4, 0x05], .inp .b (.imm 5)),
  (c32, [0xE5, 0x05], .inp .v (.imm 5)),
  (c32, [0xEC], .inp .b .dx),
  (c32, [0xED], .inp .v .dx),
  (c32, [0x6C], .ins .b),
  (c32, [0x6D], .ins .v),
  (c32, [0xAC], .lods .b),
  (c32, [0xAD], .lods .v),
  (c32, [0xA4], .movs .b),
  (c32, [0xA5], .movs .v),
  (c32, [0xE6, 0x05], .outp .b (.imm 5)),
  (c32, [0xE7, 0x05], .outp .v (.imm 5)),
  (c32, [0xEE], .outp .b .dx),
  (c32, [0xEF], .outp .v .dx),
  (c32, [0x6E], .outs .b),
  (c32, [0x6F], .outs .v),
  (c32, [0xAE], .scas .b),
  (c32, [0xAF], .scas .v),
  (c32, [0xAA], .stos .b),
  (c32, [0xAB], .stos .v)] = true := by decide +kernel

theorem test_decode_system : rowsDecode [
  (c32, [0x63, 0xD1], .arpl (.reg .ecx) .edx),
  (c32, [0x0F, 0x01, 0x7B, 0x10], .invlpg (.mem (.a32 (some .ebx) none 0x10))),
  (c32, [0x0F, 0x02, 0xD1], .lar .edx (.reg .ecx)),
  (c32, [0x0F, 0x01, 0x53, 0x10], .lgdt (.mem (.a32 (some .ebx) none 0x10))),
  (c32, [0x0F, 0x01, 0x5B, 0x10], .lidt (.mem (.a32 (some .ebx) none 0x10))),
  (c32, [0x0F, 0x00, 0xD1], .lldt (.reg .ecx)),
  (c32, [0x0F, 0x01, 0xF1], .lmsw (.reg .ecx)),
  (c32, [0x0F, 0x03, 0xD1], .lsl .edx (.reg .ecx)),
  (c32, [0x0F, 0x00, 0xD9], .ltr (.reg .ecx)),
  (c32, [0x0F, 0x01, 0x43, 0x10], .sgdt (.mem (.a32 (some .ebx) none 0x10))),
  (c32, [0x0F, 0x01, 0x4B, 0x10], .sidt (.mem (.a32 (some .ebx) none 0x10))),
  (c32, [0x0F, 0x00, 0xC1], .sldt (.reg .ecx)),
  (c32, [0x0F, 0x01, 0xE1], .smsw (.reg .ecx)),
  (c32, [0x0F, 0x00, 0xC9], .str (.reg .ecx)),
  (c32, [0x0F, 0x00, 0xE1], .verr (.reg .ecx)),
  (c32, [0x0F, 0x00, 0xE9], .verw (.reg .ecx))] = true := by decide +kernel

theorem test_decode_mmx : rowsDecode [
  (c32, [0x0F, 0x6E, 0xD1], .movd (.toMm .i2 (.reg .ecx))),
  (c32, [0x0F, 0x7E, 0xD1], .movd (.fromMm (.reg .ecx) .i2)),
  (c32, [0x0F, 0x6F, 0xD1], .movq (.load .i2 (.reg .i1))),
  (c32, [0x0F, 0x7F, 0xD1], .movq (.store (.reg .i1) .i2)),
  (c32, [0x0F, 0x63, 0xD1], .packsswb .i2 (.reg .i1)),
  (c32, [0x0F, 0x6B, 0xD1], .packssdw .i2 (.reg .i1)),
  (c32, [0x0F, 0x67, 0xD1], .packuswb .i2 (.reg .i1)),
  (c32, [0x0F, 0xFC, 0xD1], .paddb .i2 (.reg .i1)),
  (c32, [0x0F, 0xFD, 0xD1], .paddw .i2 (.reg .i1)),
  (c32, [0x0F, 0xFE, 0xD1], .paddd .i2 (.reg .i1)),
  (c32, [0x0F, 0xEC, 0xD1], .paddsb .i2 (.reg .i1)),
  (c32, [0x0F, 0xED, 0xD1], .paddsw .i2 (.reg .i1)),
  (c32, [0x0F, 0xDC, 0xD1], .paddusb .i2 (.reg .i1)),
  (c32, [0x0F, 0xDD, 0xD1], .paddusw .i2 (.reg .i1)),
  (c32, [0x0F, 0xDB, 0xD1], .pand .i2 (.reg .i1)),
  (c32, [0x0F, 0xDF, 0xD1], .pandn .i2 (.reg .i1)),
  (c32, [0x0F, 0x74, 0xD1], .pcmpeqb .i2 (.reg .i1)),
  (c32, [0x0F, 0x75, 0xD1], .pcmpeqw .i2 (.reg .i1)),
  (c32, [0x0F, 0x76, 0xD1], .pcmpeqd .i2 (.reg .i1)),
  (c32, [0x0F, 0x64, 0xD1], .pcmpgtb .i2 (.reg .i1)),
  (c32, [0x0F, 0x65, 0xD1], .pcmpgtw .i2 (.reg .i1)),
  (c32, [0x0F, 0x66, 0xD1], .pcmpgtd .i2 (.reg .i1)),
  (c32, [0x0F, 0xF5, 0xD1], .pmaddwd .i2 (.reg .i1)),
  (c32, [0x0F, 0xE5, 0xD1], .pmulhw .i2 (.reg .i1)),
  (c32, [0x0F, 0xD5, 0xD1], .pmullw .i2 (.reg .i1)),
  (c32, [0x0F, 0xEB, 0xD1], .por .i2 (.reg .i1)),
  (c32, [0x0F, 0xF1, 0xD1], .psllw (.rm .i2 (.reg .i1))),
  (c32, [0x0F, 0x71, 0xF1, 0x05], .psllw (.imm .i1 5)),
  (c32, [0x0F, 0xF2, 0xD1], .pslld (.rm .i2 (.reg .i1))),
  (c32, [0x0F, 0x72, 0xF1, 0x05], .pslld (.imm .i1 5)),
  (c32, [0x0F, 0xF3, 0xD1], .psllq (.rm .i2 (.reg .i1))),
  (c32, [0x0F, 0x73, 0xF1, 0x05], .psllq (.imm .i1 5)),
  (c32, [0x0F, 0xE1, 0xD1], .psraw (.rm .i2 (.reg .i1))),
  (c32, [0x0F, 0x71, 0xE1, 0x05], .psraw (.imm .i1 5)),
  (c32, [0x0F, 0xE2, 0xD1], .psrad (.rm .i2 (.reg .i1))),
  (c32, [0x0F, 0x72, 0xE1, 0x05], .psrad (.imm .i1 5)),
  (c32, [0x0F, 0xD1, 0xD1], .psrlw (.rm .i2 (.reg .i1))),
  (c32, [0x0F, 0x71, 0xD1, 0x05], .psrlw (.imm .i1 5)),
  (c32, [0x0F, 0xD2, 0xD1], .psrld (.rm .i2 (.reg .i1))),
  (c32, [0x0F, 0x72, 0xD1, 0x05], .psrld (.imm .i1 5)),
  (c32, [0x0F, 0xD3, 0xD1], .psrlq (.rm .i2 (.reg .i1))),
  (c32, [0x0F, 0x73, 0xD1, 0x05], .psrlq (.imm .i1 5)),
  (c32, [0x0F, 0xF8, 0xD1], .psubb .i2 (.reg .i1)),
  (c32, [0x0F, 0xF9, 0xD1], .psubw .i2 (.reg .i1)),
  (c32, [0x0F, 0xFA, 0xD1], .psubd .i2 (.reg .i1)),
  (c32, [0x0F, 0xE8, 0xD1], .psubsb .i2 (.reg .i1)),
  (c32, [0x0F, 0xE9, 0xD1], .psubsw .i2 (.reg .i1)),
  (c32, [0x0F, 0xD8, 0xD1], .psubusb .i2 (.reg .i1)),
  (c32, [0x0F, 0xD9, 0xD1], .psubusw .i2 (.reg .i1)),
  (c32, [0x0F, 0x68, 0xD1], .punpckhbw .i2 (.reg .i1)),
  (c32, [0x0F, 0x69, 0xD1], .punpckhwd .i2 (.reg .i1)),
  (c32, [0x0F, 0x6A, 0xD1], .punpckhdq .i2 (.reg .i1)),
  (c32, [0x0F, 0x60, 0xD1], .punpcklbw .i2 (.reg .i1)),
  (c32, [0x0F, 0x61, 0xD1], .punpcklwd .i2 (.reg .i1)),
  (c32, [0x0F, 0x62, 0xD1], .punpckldq .i2 (.reg .i1)),
  (c32, [0x0F, 0xEF, 0xD1], .pxor .i2 (.reg .i1))] = true := by decide +kernel

theorem test_decode_fpu : rowsDecode [
  (c32, [0xD9, 0xF0], .f2xm1),
  (c32, [0xD9, 0xE1], .fabs),
  (c32, [0xD8, 0x43, 0x10], .fadd (.m32 (.a32 (some .ebx) none 0x10))),
  (c32, [0xDC, 0x43, 0x10], .fadd (.m64 (.a32 (some .ebx) none 0x10))),
  (c32, [0xD8, 0xC1], .fadd (.st0i .i1)),
  (c32, [0xDC, 0xC1], .fadd (.sti0 .i1)),
  (c32, [0xDE, 0xC1], .faddp .i1),
  (c32, [0xDA, 0x43, 0x10], .fiadd (.i32 (.a32 (some .ebx) none 0x10))),
  (c32, [0xDE, 0x43, 0x10], .fiadd (.i16 (.a32 (some .ebx) none 0x10))),
  (c32, [0xDF, 0x63, 0x10], .fbld (.a32 (some .ebx) none 0x10)),
  (c32, [0xDF, 0x73, 0x10], .fbstp (.a32 (some .ebx) none 0x10)),
  (c32, [0xD9, 0xE0], .fchs),
  (c32, [0x9B, 0xDB, 0xE2], .fclex),
  (c32, [0xDB, 0xE2], .fnclex),
  (c32, [0xDA, 0xC1], .fcmovb .i1),
  (c32, [0xDA, 0xC9], .fcmove .i1),
  (c32, [0xDA, 0xD1], .fcmovbe .i1),
  (c32, [0xDA, 0xD9], .fcmovu .i1),
  (c32, [0xDB, 0xC1], .fcmovnb .i1),
  (c32, [0xDB, 0xC9], .fcmovne .i1),
  (c32, [0xDB, 0xD1], .fcmovnbe .i1),
  (c32, [0xDB, 0xD9], .fcmovnu .i1),
  (c32, [0xD8, 0x53, 0x10], .fcom (.m32 (.a32 (some .ebx) none 0x10))),
  (c32, [0xDC, 0x53, 0x10], .fcom (.m64 (.a32 (some .ebx) none 0x10))),
  (c32, [0xD8, 0xD1], .fcom (.st .i1)),
  (c32, [0xD8, 0x5B, 0x10], .fcomp (.m32 (.a32 (some .ebx) none 0x10))),
  (c32, [0xDC, 0x5B, 0x10], .fcomp (.m64 (.a32 (some .ebx) none 0x10))),
  (c32, [0xD8, 0xD9], .fcomp (.st .i1)),
  (c32, [0xDE, 0xD9], .fcompp),
  (c32, [0xDB, 0xF1], .fcomi .i1),
  (c32, [0xDF, 0xF1], .fcomip .i1),
  (c32, [0xDB, 0xE9], .fucomi .i1),
  (c32, [0xDF, 0xE9], .fucomip .i1),
  (c32, [0xD9, 0xFF], .fcos),
  (c32, [0xD9, 0xF6], .fdecstp),
  (c32, [0xD8, 0x73, 0x10], .fdiv (.m32 (.a32 (some .ebx) none 0x10))),
  (c32, [0xDC, 0x73, 0x10], .fdiv (.m64 (.a32 (some .ebx) none 0x10))),
  (c32, [0xD8, 0xF1], .fdiv (.st0i .i1)),
  (c32, [0xDC, 0xF9], .fdiv (.sti0 .i1)),
  (c32, [0xDE, 0xF9], .fdivp .i1),
  (c32, [0xDA, 0x73, 0x10], .fidiv (.i32 (.a32 (some .ebx) none 0x10))),
  (c32, [0xDE, 0x73, 0x10], .fidiv (.i16 (.a32 (some .ebx) none 0x10))),
  (c32, [0xD8, 0x7B, 0x10], .fdivr (.m32 (.a32 (some .ebx) none 0x10))),
  (c32, [0xDC, 0x7B, 0x10], .fdivr (.m64 (.a32 (some .ebx) none 0x10))),
  (c32, [0xD8, 0xF9], .fdivr (.st0i .i1)),
  (c32, [0xDC, 0xF1], .fdivr (.sti0 .i1)),
  (c32, [0xDE, 0xF1], .fdivrp .i1),
  (c32, [0xDA, 0x7B, 0x10], .fidivr (.i32 (.a32 (some .ebx) none 0x10))),
  (c32, [0xDE, 0x7B, 0x10], .fidivr (.i16 (.a32 (some .ebx) none 0x10))),
  (c32, [0xDD, 0xC1], .ffree .i1),
  (c32, [0xDE, 0x53, 0x10], .ficom (.i16 (.a32 (some .ebx) none 0x10))),
  (c32, [0xDA, 0x53, 0x10], .ficom (.i32 (.a32 (some .ebx) none 0x10))),
  (c32, [0xDE, 0x5B, 0x10], .ficomp (.i16 (.a32 (some .ebx) none 0x10))),
  (c32, [0xDA, 0x5B, 0x10], .ficomp (.i32 (.a32 (some .ebx) none 0x10))),
  (c32, [0xDF, 0x43, 0x10], .fild (.i16 (.a32 (some .ebx) none 0x10))),
  (c32, [0xDB, 0x43, 0x10], .fild (.i32 (.a32 (some .ebx) none 0x10))),
  (c32, [0xDF, 0x6B, 0x10], .fild (.i64 (.a32 (some .ebx) none 0x10))),
  (c32, [0xD9, 0xF7], .fincstp),
  (c32, [0x9B, 0xDB, 0xE3], .finit),
  (c32, [0xDB, 0xE3], .fninit),
  (c32, [0xDF, 0x53, 0x10], .fist (.i16 (.a32 (some .ebx) none 0x10))),
  (c32, [0xDB, 0x53, 0x10], .fist (.i32 (.a32 (some .ebx) none 0x10))),
  (c32, [0xDF, 0x5B, 0x10], .fistp (.i16 (.a32 (some .ebx) none 0x10))),
  (c32, [0xDB, 0x5B, 0x10], .fistp (.i32 (.a32 (some .ebx) none 0x10))),
  (c32, [0xDF, 0x7B, 0x10], .fistp (.i64 (.a32 (some .ebx) none 0x10))),
  (c32, [0xD9, 0x43, 0x10], .fld (.m32 (.a32 (some .ebx) none 0x10))),
  (c32, [0xDD, 0x43, 0x10], .fld (.m64 (.a32 (some .ebx) none 0x10))),
  (c32, [0xDB, 0x6B, 0x10], .fld (.m80 (.a32 (some .ebx) none 0x10))),
  (c32, [0xD9, 0xC1], .fld (.st .i1)),
  (c32, [0xD9, 0xE8], .fld1),
  (c32, [0xD9, 0xE9], .fldl2t),
  (c32, [0xD9, 0xEA], .fldl2e),
  (c32, [0xD9, 0xEB], .fldpi),
  (c32, [0xD9, 0xEC], .fldlg2),
  (c32, [0xD9, 0xED], .fldln2),
  (c32, [0xD9, 0xEE], .fldz),
  (c32, [0xD9, 0x6B, 0x10], .fldcw (.a32 (some .ebx) none 0x10)),
  (c32, [0xD9, 0x63, 0x10], .fldenv (.a32 (some .ebx) none 0x10)),
  (c32, [0xD8, 0x4B, 0x10], .fmul (.m32 (.a32 (some .ebx) none 0x10))),
  (c32, [0xDC, 0x4B, 0x10], .fmul (.m64 (.a32 (some .ebx) none 0x10))),
  (c32, [0xD8, 0xC9], .fmul (.st0i .i1)),
  (c32, [0xDC, 0xC9], .fmul (.sti0 .i1)),
  (c32, [0xDE, 0xC9], .fmulp .i1),
  (c32, [0xDA, 0x4B, 0x10], .fimul (.i32 (.a32 (some .ebx) none 0x10))),
  (c32, [0xDE, 0x4B, 0x10], .fimul (.i16 (.a32 (some .ebx) none 0x10))),
  (c32, [0xD9, 0xD0], .fnop),
  (c32, [0xD9, 0xF3], .fpatan),
  (c32, [0xD9, 0xF8], .fprem),
  (c32, [0xD9, 0xF5], .fprem1),
  (c32, [0xD9, 0xF2], .fptan),
  (c32, [0xD9, 0xFC], .frndint),
  (c32, [0xDD, 0x63, 0x10], .frstor (.a32 (some .ebx) none 0x10)),
  (c32, [0x9B, 0xDD, 0x73, 0x10], .fsave (.a32 (some .ebx) none 0x10)),
  (c32, [0xDD, 0x73, 0x10], .fnsave (.a32 (some .ebx) none 0x10)),
  (c32, [0xD9, 0xFD], .fscale),
  (c32, [0xD9, 0xFE], .fsin),
  (c32, [0xD9, 0xFB], .fsincos),
  (c32, [0xD9, 0xFA], .fsqrt),
  (c32, [0xD9, 0x53, 0x10], .fst (.m32 (.a32 (some .ebx) none 0x10))),
  (c32, [0xDD, 0x53, 0x10], .fst (.m64 (.a32 (some .ebx) none 0x10))),
  (c32, [0xDD, 0xD1], .fst (.st .i1)),
  (c32, [0xD9, 0x5B, 0x10], .fstp (.m32 (.a32 (some .ebx) none 0x10))),
  (c32, [0xDD, 0x5B, 0x10], .fstp (.m64 (.a32 (some .ebx) none 0x10))),
  (c32, [0xDB, 0x7B, 0x10], .fstp (.m80 (.a32 (some .ebx) none 0x10))),
  (c32, [0xDD, 0xD9], .fstp (.st .i1)),
  (c32, [0x9B, 0xD9, 0x7B, 0x10], .fstcw (.a32 (some .ebx) none 0x10)),
  (c32, [0xD9, 0x7B, 0x10], .fnstcw (.a32 (some .ebx) none 0x10)),
  (c32, [0x9B, 0xD9, 0x73, 0x10], .fstenv (.a32 (some .ebx) none 0x10)),
  (c32, [0xD9, 0x73, 0x10], .fnstenv (.a32 (some .ebx) none 0x10)),
  (c32, [0x9B, 0xDD, 0x7B, 0x10], .fstsw (.mem (.a32 (some .ebx) none 0x10))),
  (c32, [0x9B, 0xDF, 0xE0], .fstsw (.ax)),
  (c32, [0xDD, 0x7B, 0x10], .fnstsw (.mem (.a32 (some .ebx) none 0x10))),
  (c32, [0xDF, 0xE0], .fnstsw (.ax)),
  (c32, [0xD8, 0x63, 0x10], .fsub (.m32 (.a32 (some .ebx) none 0x10))),
  (c32, [0xDC, 0x63, 0x10], .fsub (.m64 (.a32 (some .ebx) none 0x10))),
  (c32, [0xD8, 0xE1], .fsub (.st0i .i1)),
  (c32, [0xDC, 0xE9], .fsub (.sti0 .i1)),
  (c32, [0xDE, 0xE9], .fsubp .i1),
  (c32, [0xDA, 0x63, 0x10], .fisub (.i32 (.a32 (some .ebx) none 0x10))),
  (c32, [0xDE, 0x63, 0x10], .fisub (.i16 (.a32 (some .ebx) none 0x10))),
  (c32, [0xD8, 0x6B, 0x10], .fsubr (.m32 (.a32 (some .ebx) none 0x10))),
  (c32, [0xDC, 0x6B, 0x10], .fsubr (.m64 (.a32 (some .ebx) none 0x10))),
  (c32, [0xD8, 0xE9], .fsubr (.st0i .i1)),
  (c32, [0xDC, 0xE1], .fsubr (.sti0 .i1)),
  (c32, [0xDE, 0xE1], .fsubrp .i1),
  (c32, [0xDA, 0x6B, 0x10], .fisubr (.i32 (.a32 (some .ebx) none 0x10))),
  (c32, [0xDE, 0x6B, 0x10], .fisubr (.i16 (.a32 (some .ebx) none 0x10))),
  (c32, [0xD9, 0xE4], .ftst),
  (c32, [0xDD, 0xE1], .fucom .i1),
  (c32, [0xDD, 0xE9], .fucomp .i1),
  (c32, [0xDA, 0xE9], .fucompp),
  (c32, [0xD9, 0xE5], .fxam),
  (c32, [0xD9, 0xC9], .fxch .i1),
  (c32, [0xD9, 0xF4], .fxtract),
  (c32, [0xD9, 0xF1], .fyl2x),
  (c32, [0xD9, 0xF9], .fyl2xp1)] = true := by decide +kernel

theorem test_decode_other : rowsDecode [
  (c32, [0x2E], .segCs),
  (c32, [0x36], .segSs),
  (c32, [0x3E], .segDs),
  (c32, [0x26], .segEs),
  (c32, [0x64], .segFs),
  (c32, [0x65], .segGs),
  (c32, [0x66], .opSize),
  (c32, [0x67], .adSize),
  (c32, [0x82], .reserved (.op1 0x82)),
  (c32, [0xD6], .reserved (.op1 0xD6)),
  (c32, [0xF1], .reserved (.op1 0xF1)),
  (c32, [0x0F, 0xB9], .invalidOpcode),
  (c32, [0x37], .aaa),
  (c32, [0x3F], .aas),
  (c16, [0x98], .cbw),
  (c32, [0x98], .cwde),
  (c32, [0xF8], .clc),
  (c32, [0xFC], .cld),
  (c32, [0xFA], .cli),
  (c32, [0x0F, 0x06], .clts),
  (c32, [0xF5], .cmc),
  (c32, [0x0F, 0xA2], .cpuid),
  (c16, [0x99], .cwd),
  (c32, [0x99], .cdq),
  (c32, [0x27], .daa),
  (c32, [0x2F], .das),
  (c32, [0x0F, 0x77], .emms),
  (c32, [0xF4], .hlt),
  (c32, [0xCE], .into),
  (c32, [0x0F, 0x08], .invd),
  (c16, [0xCF], .iret),
  (c32, [0xCF], .iretd),
  (c32, [0x9F], .lahf),
  (c32, [0xC9], .leave),
  (c32, [0xF0], .lock),
  (c32, [0x90], .nop),
  (c16, [0x61], .popa),
  (c32, [0x61], .popad),
  (c16, [0x9D], .popf),
  (c32, [0x9D], .popfd),
  (c16, [0x60], .pusha),
  (c32, [0x60], .pushad),
  (c16, [0x9C], .pushf),
  (c32, [0x9C], .pushfd),
  (c32, [0x0F, 0x32], .rdmsr),
  (c32, [0x0F, 0x33], .rdpmc),
  (c32, [0x0F, 0x31], .rdtsc),
  (c32, [0xF3], .rep),
  (c32, [0xF2], .repne),
  (c32, [0x0F, 0xAA], .rsm),
  (c32, [0x9E], .sahf),
  (c32, [0xF9], .stc),
  (c32, [0xFD], .std),
  (c32, [0xFB], .sti),
  (c32, [0x0F, 0x0B], .ud2),
  (c32, [0x9B], .wait),
  (c32, [0x0F, 0x09], .wbinvd),
  (c32, [0x0F, 0x30], .wrmsr),
  (c32, [0xD7], .xlat)] = true := by decide +kernel
/-! ## Well-formedness -/

/-- A memory operand of 32-bit form, which a 16-bit address size cannot express, and the reverse. -/
def m32 : Ea := .a32 (some .ebx) none 0x10
def m16 : Ea := .a16 (some .si) 0x10

/-- Every term is ill-formed in its context. -/
def illFormed (rows : List (Ctx × Instr)) : Bool := rows.all fun r => !r.2.wf r.1

/-- The form of the address size; ESP as an index; an offset, an immediate or a displacement too wide. -/
theorem test_wf_operands : illFormed [
  (c16, .lea .eax (.mem m32)), (c32, .lea .eax (.mem m16)), (c32, .lea .eax (.mem (.a32 none (some (.esp, .x1)) 0))),
  (c16, .mov (.accMoffs .b 0x10000)), (c16, .mov (.moffsAcc .v 0x10000)), (c32, .mov (.rImm .b .eax 0x100)),
  (c16, .mov (.rImm .v .eax 0x10000)), (c32, .mov (.rmR .v (.mem m16) .eax)), (c32, .mov (.rRm .v .eax (.mem m16))),
  (c32, .mov (.rmImm .b (.reg .eax) 0x100)), (c32, .mov (.rmImm .b (.mem m16) 0)),
  (c32, .add (.accImm .b 0x100)), (c16, .add (.accImm .v 0x10000)), (c32, .add (.rmImm .b (.reg .eax) 0x100)),
  (c32, .add (.rmImm .b (.mem m16) 0)), (c32, .add (.rmR .v (.mem m16) .eax)), (c32, .add (.rRm .v .eax (.mem m16))),
  (c32, .add (.rmImm8 (.mem m16) 0)), (c32, .test (.accImm .b 0x100)), (c32, .test (.rmR .v (.mem m16) .eax)),
  (c32, .test (.rmImm .b (.reg .eax) 0x100)), (c32, .test (.rmImm .b (.mem m16) 0)), (c32, .inc (.rm .v (.mem m16))),
  (c32, .shld (.imm (.mem m16) .eax 1)), (c32, .shld (.cl (.mem m16) .eax)), (c32, .bt (.rmR (.mem m16) .eax)),
  (c32, .bt (.rmImm (.mem m16) 1)), (c32, .shr { w := .v, dst := .mem m16, count := .one }),
  (c32, .imul (.one .v (.mem m16))), (c32, .imul (.two .eax (.mem m16))), (c32, .imul (.three .eax (.mem m16) (.b 1))),
  (c16, .imul (.three .eax (.reg .eax) (.v 0x10000))), (c32, .movSreg (.fromSreg (.mem m16) .i0)),
  (c32, .movSreg (.toSreg .i0 (.mem m16))), (c32, .cmpxchg .v (.mem m16) .eax), (c32, .sete (.mem m16))] = true := by
  decide +kernel

/-- Jumps, calls and the stack; POP CS; XCHG of the accumulator with itself. -/
theorem test_wf_control : illFormed [
  (c16, .call (.rel 0x10000)), (c32, .call (.rm (.mem m16))), (c16, .call (.ptr 0 0x10000)), (c32, .call (.mfar (.mem m16))),
  (c16, .jmp (.rel 0x10000)), (c32, .jmp (.rm (.mem m16))), (c16, .jmp (.ptr 0 0x10000)), (c32, .jmp (.mfar (.mem m16))),
  (c16, .je (.near 0x10000)), (c32, .jcxz 0), (c16, .jecxz 0), (c32, .push (.rm (.mem m16))), (c16, .push (.imm (.v 0x10000))),
  (c32, .pop (.rm (.mem m16))), (c32, .pop (.sreg .cs)), (c32, .xchg (.acc .eax)), (c32, .xchg (.rmR .v (.mem m16) .eax))] =
    true := by decide +kernel

/-- The names that belong to one operand size. -/
theorem test_wf_sizes : illFormed [
  (c32, .cbw), (c16, .cwde), (c32, .cwd), (c16, .cdq), (c32, .iret), (c16, .iretd), (c32, .popa), (c16, .popad), (c32, .popf),
  (c16, .popfd), (c32, .pusha), (c16, .pushad), (c32, .pushf), (c16, .pushfd)] = true := by decide +kernel

/-- The FPU and MMX operands; the forms with a WAIT of their own after a prefix; a cell that is not blank. -/
theorem test_wf_fpu : illFormed [
  (c32, .fadd (.m32 m16)), (c32, .fadd (.m64 m16)), (c32, .fiadd (.i16 m16)), (c32, .fiadd (.i32 m16)), (c32, .fild (.i16 m16)),
  (c32, .fild (.i32 m16)), (c32, .fild (.i64 m16)), (c32, .fcom (.m32 m16)), (c32, .fcom (.m64 m16)), (c32, .fld (.m32 m16)),
  (c32, .fld (.m64 m16)), (c32, .fld (.m80 m16)), (c32, .fldcw m16), (c32, .fnstsw (.mem m16)), (c32, .fstsw (.mem m16)),
  (c32, .paddb .i0 (.mem m16)), (c32, .psllw (.rm .i0 (.mem m16))), (c32, .movd (.toMm .i0 (.mem m16))),
  (c32, .movd (.fromMm (.mem m16) .i0)), (c32, .movq (.load .i0 (.mem m16))), (c32, .movq (.store (.mem m16) .i0)),
  ({ c32 with waitAlone := true }, .finit), ({ c32 with waitAlone := true }, .fclex), ({ c32 with waitAlone := true }, .fstcw m32),
  ({ c32 with waitAlone := true }, .fstenv m32), ({ c32 with waitAlone := true }, .fsave m32), ({ c32 with waitAlone := true }, .fstsw .ax),
  (c32, .reserved (.op1 0x90)), (c32, .reserved (.op2 0xA2)), (c32, .reserved (.ext1 0xF7 0xC0)),
  (c32, .reserved (.ext2 0xBA 0xE0))] = true := by decide +kernel

/-- A byte that no instruction's encoding allows to be missing: the decoder refuses to read on past the end. -/
theorem test_decode_needs_operands : (decode c32 [0x81] = none ∧ decode c32 [0x0F] = none ∧ decode c32 [] = none ∧
    decode c32 [0x81, 0xC1, 0x78] = none) := by decide +kernel

/-! ## Small states -/

/-- Real-address mode: an instruction at 0F000H:0100H, a stack. -/
def real : State :=
  { State.reset with eip := 0x100#32, npc := 0x102#32, gpr := { State.reset.gpr with esp := 0x1000#32 } }

/-- A flat segment of level `pl`. -/
def flatSeg (sel : Word) (typ : BitVec 4) (pl : BitVec 2) : SegReg :=
  { sel := sel, base := 0, limit := 0xFFFFFFFF, typ := typ, s := true, dpl := pl, p := true, avl := false, db := true
    g := true, valid := true }

/-- Bytes stored from an address on. -/
def put (a n v : Nat) (s : State) : State := s.stored ((List.range n).map (a + ·)) v

/-- The descriptors of the tests' GDT at 8000H. -/
def gdt (s : State) : State :=
  (((((s |> put 0x8008 8 0x00CF9B000000FFFF) |> put 0x8010 8 0x00CF93000000FFFF) |> put 0x8018 8 0x00CFFB000000FFFF) |>
    put 0x8020 8 0x00CFF3000000FFFF) |> put 0x8028 8 0x0000820000000017) |> put 0x8030 8 0x0000890100000067

/-- Protected mode at level `pl` with flat segments, the GDT at 8000H, the IDT at 9000H and a 32-bit TSS at A000H. -/
def prot (pl : BitVec 2) : State :=
  let c : Word := if pl = 0 then 0x08 else 0x1B
  let d : Word := if pl = 0 then 0x10 else 0x23
  gdt { State.reset with
    eip := 0x2000#32, npc := 0x2002#32, cr0 := 0x00000031#32, cpl := pl
    gpr := { eax := 1, ecx := 2, edx := 3, ebx := 0x5000, esp := 0x7000, ebp := 0x7100, esi := 0x5100, edi := 0x5200 }
    gdtr := { base := 0x8000, limit := 0xFFFF }, idtr := { base := 0x9000, limit := 0x7FF }
    tr := { flatSeg 0x30 0xB 0 with base := 0xA000, limit := 0x2067, s := false, db := false, g := false }
    seg := { es := flatSeg d 3 pl, cs := flatSeg c 0xB pl, ss := flatSeg d 3 pl, ds := flatSeg d 3 pl, fs := flatSeg d 3 pl
             gs := flatSeg d 3 pl } }

/-- Level 0. -/
def sup : State := prot 0
/-- Level 3. -/
def user : State := prot 3
/-- Virtual-8086 mode with IOPL 3. -/
def virt : State :=
  { prot 3 with flags := { Flags.zero with vm := true, iopl := 3 }, eip := 0x100#32, npc := 0x102#32
                gpr := { real.gpr with ebx := 0x5000 }, seg := real.seg }

/-- `[EBX]`. -/
def mb : Ea := .a32 (some .ebx) none 0
/-- `[BX]`. -/
def mb16 : Ea := .a16 (some .bx) 0

/-- The outcome is a next state with the property. -/
def next (o : Host.Outcome State Fault Refusal) (p : State → Bool) : Bool :=
  match o with
  | .next t => p t
  | _ => false

/-! ## One step, with the vectors of 95_test_vectors

Each test decodes the bytes of a vector (or of an instruction rule's example) and runs the instruction; its comment names
the vector. -/

/-- The bytes decode whole and the instruction they stand for ends in a next state with the property. -/
def after (bs : List Byte) (s : State) (p : State → Bool) : Bool :=
  match decode s.ctx bs with
  | some (i, []) => next (exec i { s with npc := s.eip + BitVec.ofNat 32 bs.length }) p
  | _ => false

/-- CF ZF SF OF AF PF as six binary digits. -/
def six (t : State) : Nat :=
  [t.flags.cf, t.flags.zf, t.flags.sf, t.flags.of_, t.flags.af, t.flags.pf].foldl (fun n b => 2 * n + carryNat b) 0

/-- `sup` with EAX, EBX, ECX and EDX. -/
def abcd (a b c d : Dword) : State := { sup with gpr := { sup.gpr with eax := a, ebx := b, ecx := c, edx := d } }

/-- `sup` with flags changed. -/
def withF (s : State) (f : Flags → Flags) : State := { s with flags := f s.flags }

/-- With a 16-bit operand size. -/
def osz16 (s : State) : State := { s with pfx := { s.pfx with opsz := true } }

/-- With a 16-bit address size. -/
def asz16 (s : State) : State := { s with pfx := { s.pfx with adsz := true } }

/-- The doubleword, or `n` bytes, at an address. -/
def rd (t : State) (a n : Nat) : Nat := t.at ((List.range n).map (a + ·))

-- TA1, TA2, TA6, TA15, TM32, TC13, TC14, TM21 and the page of SUB, SBB, XOR
theorem test_add : after [0x04, 0x01] (abcd 0xFF 0 0 0) (fun t => t.gpr.eax == 0 && six t == 0b110011 && t.eip == 0x2002) &&
    after [0x05, 1, 0, 0, 0] (abcd 0x7FFFFFFF 0 0 0) (fun t => t.gpr.eax == 0x80000000 && six t == 0b001111) = true := by
  decide +kernel
theorem test_adc : after [0x10, 0xD8] (withF (abcd 0xFF 0xFF 0 0) fun f => { f with cf := true })
    (fun t => t.gpr.eax == 0xFF && six t == 0b101011) = true := by decide +kernel
theorem test_sub : after [0x2C, 0x01] (abcd 0 0 0 0) (fun t => t.gpr.eax == 0xFF && six t == 0b101011) = true := by
  decide +kernel
theorem test_sbb : after [0x1C, 0x00] (withF (abcd 0 0 0 0) fun f => { f with cf := true })
    (fun t => t.gpr.eax == 0xFF && six t == 0b101011) = true := by decide +kernel
theorem test_cmp : after [0x66, 0x3D] sup (fun _ => true) = false ∧
    after [0x3D, 0xFF, 0x7F] (osz16 (abcd 0x8000 0 0 0)) (fun t => t.gpr.eax == 0x8000 && six t == 0b000110) = true := by
  decide +kernel
theorem test_and : after [0x21, 0xD8] (abcd 0xF0F0F0F0 0x0FF00FF0 0 0)
    (fun t => t.gpr.eax == 0x00F000F0 && !t.flags.cf && !t.flags.of_ && !t.flags.zf && !t.flags.sf && t.flags.pf) = true := by
  decide +kernel
theorem test_or : after [0x09, 0xD8] (abcd 0xF0F0F0F0 0x0FF00FF0 0 0)
    (fun t => t.gpr.eax == 0xFFF0FFF0 && !t.flags.cf && !t.flags.of_ && t.flags.sf && t.flags.pf) = true := by decide +kernel
theorem test_xor : after [0x31, 0xC0] (abcd 5 0 0 0) (fun t => t.gpr.eax == 0 && t.flags.zf && t.flags.pf) = true := by
  decide +kernel
theorem test_test : after [0xA8, 0x80] (abcd 0x80 0 0 0) (fun t => t.gpr.eax == 0x80 && t.flags.sf && !t.flags.zf) = true := by
  decide +kernel
-- TC23, TH13
theorem test_dec : after [0xFE, 0xC8] (withF (abcd 0x80 0 0 0) fun f => { f with cf := true })
    (fun t => t.gpr.eax == 0x7F && six t == 0b100110) = true := by decide +kernel
theorem test_inc : after [0xFE, 0xC0] (withF (abcd 0x7F 0 0 0) fun f => { f with cf := true })
    (fun t => t.gpr.eax == 0x80 && six t == 0b101110) = true := by decide +kernel
-- TM27, TM31
theorem test_neg : after [0xF6, 0xD8] (abcd 0x80 0 0 0) (fun t => t.gpr.eax == 0x80 && six t == 0b101100) = true := by
  decide +kernel
theorem test_not : after [0xF7, 0xD0] (abcd 0x0F0F0F0F 0 0 0) (fun t => t.gpr.eax == 0xF0F0F0F0 && six t == 0) = true := by
  decide +kernel
-- TM23, TM24, TH6, TH8, TH10
theorem test_mul : after [0xF6, 0xE3] (abcd 0xFF 2 0 0) (fun t => t.gpr.eax == 0x1FE && t.flags.cf && t.flags.of_) = true ∧
    after [0xF7, 0xE3] (abcd 0xFFFFFFFF 0xFFFFFFFF 0 0) (fun t => t.gpr.eax == 1 && t.gpr.edx == 0xFFFFFFFE) = true := by
  decide +kernel
theorem test_imul : after [0xF6, 0xEB] (abcd 0x80 0xFF 0 0) (fun t => t.gpr.eax == 0x80 && t.flags.cf && t.flags.of_) = true ∧
    after [0x69, 0xC3, 0, 1, 0, 0] (abcd 0 0xFFFFFFFF 0 0) (fun t => t.gpr.eax == 0xFFFFFF00 && !t.flags.cf) = true := by
  decide +kernel
-- TC27, TH2, TH3
theorem test_div : after [0xF7, 0xF3] (abcd 5 3 0 2) (fun t => t.gpr.eax == 0xAAAAAAAC && t.gpr.edx == 1) = true := by
  decide +kernel
theorem test_idiv : after [0xF6, 0xFB] (abcd 0xFFF7 4 0 0) (fun t => t.gpr.eax == 0xFFFE) = true ∧
    after [0xF6, 0xFB] (abcd 9 0xFC 0 0) (fun t => t.gpr.eax == 0x1FE) = true := by decide +kernel
-- TA8, TA10, TA12, TA13, TC21, TC22
theorem test_aaa : after [0x37] (abcd 0xFF0F 0 0 0) (fun t => t.gpr.eax == 0x0005 && t.flags.af && t.flags.cf) = true := by
  decide +kernel
theorem test_aas : after [0x3F] (withF (abcd 0 0 0 0) fun f => { f with af := true })
    (fun t => t.gpr.eax == 0xFF0A && t.flags.af && t.flags.cf) = true := by decide +kernel
theorem test_aad : after [0xD5, 0x0A] (abcd 0xFFFF 0 0 0) (fun t => t.gpr.eax == 0xF5 && t.flags.sf && t.flags.pf) = true := by
  decide +kernel
theorem test_aam : after [0xD4, 0x10] (abcd 0x77AB 0 0 0) (fun t => t.gpr.eax == 0x0A0B && !t.flags.pf) = true := by
  decide +kernel
theorem test_daa : after [0x27] (abcd 0x9A 0 0 0) (fun t => t.gpr.eax == 0 && t.flags.cf && t.flags.af && t.flags.zf) = true := by
  decide +kernel
theorem test_das : after [0x2F] (withF (abcd 5 0 0 0) fun f => { f with af := true })
    (fun t => t.gpr.eax == 0x9F && t.flags.cf && t.flags.af && t.flags.sf) = true := by decide +kernel
-- TC5, TC6, TJ14, R640, TM30
theorem test_cbw : after [0x98] (osz16 (abcd 0x80 0 0 0)) (fun t => t.gpr.eax == 0xFF80) = true := by decide +kernel
theorem test_cwde : after [0x98] (abcd 0x8000 0 0 0) (fun t => t.gpr.eax == 0xFFFF8000) = true := by decide +kernel
theorem test_cwd : after [0x99] (osz16 (abcd 0x7FFF 0 0 0xFFFF)) (fun t => t.gpr.edx == 0) = true := by decide +kernel
theorem test_cdq : after [0x99] (abcd 0x80000000 0 0 0) (fun t => t.gpr.edx == 0xFFFFFFFF) = true := by decide +kernel
theorem test_lahf : after [0x9F] (withF (abcd 0 0 0 0) fun f => { f with sf := true, af := true, cf := true })
    (fun t => t.gpr.eax == 0x9300) = true := by decide +kernel
theorem test_sahf : after [0x9E] (withF (abcd 0xD700 0 0 0) fun f => { f with of_ := true, if_ := true })
    (fun t => t.flags.toDword == 0xAD7) = true := by decide +kernel
theorem test_nop : after [0x90] sup (fun t => decide ({ t with eip := sup.eip, npc := sup.npc } = sup)) = true := by
  decide +kernel
-- TC7
theorem test_clc_stc_cmc_cld_std : after [0xF8] sup (fun t => !t.flags.cf) = true ∧ after [0xF9] sup (fun t => t.flags.cf) = true ∧
    after [0xF5] sup (fun t => t.flags.cf) = true ∧ after [0xFD] sup (fun t => t.flags.toDword == 0x402) = true ∧
    after [0xFC] (withF sup fun f => { f with df := true }) (fun t => !t.flags.df) = true := by decide +kernel
-- R610, R641, R646
theorem test_rotates : after [0xD0, 0xC0] (abcd 0x81 0 0 0) (fun t => t.gpr.eax == 3 && t.flags.cf && t.flags.of_) = true ∧
    after [0xD0, 0xC8] (abcd 1 0 0 0) (fun t => t.gpr.eax == 0x80 && t.flags.cf && t.flags.of_) = true ∧
    after [0xD0, 0xD0] (withF (abcd 0x80 0 0 0) fun f => { f with cf := true }) (fun t => t.gpr.eax == 1 && t.flags.cf) = true ∧
    after [0xD0, 0xD8] (withF (abcd 1 0 0 0) fun f => { f with cf := true }) (fun t => t.gpr.eax == 0x80 && t.flags.cf) = true := by
  decide +kernel
theorem test_shifts : after [0xC1, 0xF8, 0x02] (abcd 0xFFFFFFF7 0 0 0) (fun t => t.gpr.eax == 0xFFFFFFFD && t.flags.cf) = true ∧
    after [0xD1, 0xE0] (abcd 0x80000001 0 0 0) (fun t => t.gpr.eax == 2 && t.flags.cf && t.flags.of_) = true ∧
    after [0xD1, 0xE8] (abcd 0x80000001 0 0 0) (fun t => t.gpr.eax == 0x40000000 && t.flags.cf && t.flags.of_) = true := by
  decide +kernel
theorem test_shld : after [0x0F, 0xA4, 0xD8, 0x08] (abcd 0x12345678 0xAB000000 0 0) (fun t => t.gpr.eax == 0x345678AB) = true := by
  decide +kernel
theorem test_shrd : after [0x0F, 0xAC, 0xD8, 0x08] (abcd 0x12345678 0xAB 0 0) (fun t => t.gpr.eax == 0xAB123456) = true := by
  decide +kernel
-- TA26, TA27, TA28, TA29
theorem test_bt : after [0x0F, 0xA3, 0x0B] (put 0x4FFC 4 0x00200000 (abcd 0 0x5000 0xFFFFFFF5 0)) (fun t => t.flags.cf) = true ∧
    after [0x0F, 0xA3, 0x0B] (put 0x5000 4 0 (abcd 0 0x5000 0xFFFFFFF5 0)) (fun t => !t.flags.cf) = true := by decide +kernel
theorem test_bts : after [0x0F, 0xBA, 0xE8, 0x23] (abcd 0 0 0 0) (fun t => t.gpr.eax == 8 && !t.flags.cf) = true := by
  decide +kernel
theorem test_btr : after [0x0F, 0xBA, 0x33, 0x11] (osz16 (put 0x5000 2 0xFFFF sup)) (fun t => rd t 0x5000 2 == 0xFFFD && t.flags.cf)
    = true := by decide +kernel
theorem test_btc : after [0x0F, 0xBB, 0x03] (abcd 32 0x5000 0 0) (fun t => rd t 0x5004 4 == 1 && !t.flags.cf) = true := by
  decide +kernel
-- TA22, TA24
theorem test_bsf : after [0x0F, 0xBC, 0xC3] (abcd 7 0x80000001 0 0) (fun t => t.gpr.eax == 0 && !t.flags.zf) = true := by
  decide +kernel
theorem test_bsr : after [0x0F, 0xBD, 0xC3] (abcd 7 0x80000001 0 0) (fun t => t.gpr.eax == 31 && !t.flags.zf) = true := by
  decide +kernel
theorem test_bswap : after [0x0F, 0xC9] (abcd 0 0 0x11223344 0) (fun t => t.gpr.ecx == 0x44332211) = true := by decide +kernel
-- TC11, R644
theorem test_cmovl : after [0x0F, 0x4C, 0xC3] (withF (abcd 1 2 0 0) fun f => { f with sf := true }) (fun t => t.gpr.eax == 2) = true ∧
    after [0x0F, 0x4C, 0xC3] (abcd 1 2 0 0) (fun t => t.gpr.eax == 1) = true := by decide +kernel
theorem test_setbe : after [0x0F, 0x96, 0xC4] (withF (abcd 0 0 0 0) fun f => { f with cf := true }) (fun t => t.gpr.eax == 0x100) = true := by
  decide +kernel
-- TM2, TM3, TM5, TM19, TM22, TJ20, R664
theorem test_mov : after [0x88, 0xE0] (abcd 0xAB00 0 0 0) (fun t => t.gpr.eax == 0xABAB) = true ∧
    after [0xC7, 0x03, 0x44, 0x33, 0x22, 0x11] sup (fun t => t.mem.readList [0x5000, 0x5001, 0x5002, 0x5003] == [0x44, 0x33, 0x22, 0x11])
      = true := by decide +kernel
theorem test_movsx : after [0x0F, 0xBE, 0xC3] (abcd 0 0x80 0 0) (fun t => t.gpr.eax == 0xFFFFFF80) = true := by decide +kernel
theorem test_movzx : after [0x0F, 0xB7, 0xC3] (abcd 0 0xFFFF80FF 0 0) (fun t => t.gpr.eax == 0x80FF) = true := by decide +kernel
theorem test_lea : after [0x8D, 0x44, 0xB3, 0x04] { sup with gpr := { sup.gpr with ebx := 0x1000, esi := 0x10 } }
    (fun t => t.gpr.eax == 0x1044) = true := by decide +kernel
theorem test_xlat : after [0xD7] (put 0x5004 1 0x7E (abcd 4 0x5000 0 0)) (fun t => t.gpr.eax == 0x7E) = true := by decide +kernel
-- TC16, TC17, TC18, R662, R663
theorem test_xchg : after [0x87, 0xCB] (abcd 0 1 2 0) (fun t => t.gpr.ebx == 2 && t.gpr.ecx == 1) = true := by decide +kernel
theorem test_xadd : after [0x0F, 0xC1, 0xCB] (abcd 0 1 2 0) (fun t => t.gpr.ebx == 3 && t.gpr.ecx == 1) = true := by decide +kernel
theorem test_cmpxchg : after [0x0F, 0xB1, 0x0B] (put 0x5000 4 7 (abcd 5 0x5000 9 0))
      (fun t => t.gpr.eax == 7 && rd t 0x5000 4 == 7 && six t == 0b101010) = true ∧
    after [0x0F, 0xB0, 0x0B] (put 0x5000 1 7 (abcd 7 0x5000 9 0)) (fun t => rd t 0x5000 1 == 9 && six t == 0b010001) = true := by
  decide +kernel
theorem test_cmpxchg8b : after [0x0F, 0xC7, 0x0E] (put 0x5100 8 0x0000000300000004 (abcd 2 6 5 1))
    (fun t => t.gpr.edx == 3 && t.gpr.eax == 4 && !t.flags.zf && rd t 0x5100 8 == 0x0000000300000004) = true := by decide +kernel
-- R606, R600: PUSH ESP stores the value before the push; POP into memory addressed by ESP uses the moved ESP
theorem test_push : after [0x54] sup (fun t => t.gpr.esp == 0x6FFC && rd t 0x6FFC 4 == 0x7000) = true := by decide +kernel
theorem test_pop : after [0x8F, 0x04, 0x24] (put 0x7000 4 0x12345678 sup)
    (fun t => t.gpr.esp == 0x7004 && rd t 0x7004 4 == 0x12345678) = true := by decide +kernel
theorem test_pushad : after [0x60] sup (fun t => t.gpr.esp == 0x6FE0 && rd t 0x6FEC 4 == 0x7000 && rd t 0x6FE0 4 == 0x5200) = true := by
  decide +kernel
theorem test_popad : after [0x61] (put 0x700C 4 0xFFFF (put 0x7000 4 0x77 sup))
    (fun t => t.gpr.esp == 0x7020 && t.gpr.edi == 0x77 && t.gpr.eax == 0) = true := by decide +kernel
theorem test_pushfd : after [0x9C] (withF sup fun f => { f with rf := true, cf := true }) (fun t => rd t 0x6FFC 4 == 3) = true := by
  decide +kernel
theorem test_popfd : after [0x9D] (put 0x7000 4 0xFFFFFFFF user) (fun t => t.flags.iopl == 0 && !t.flags.if_ && t.flags.cf && t.flags.ac)
    = true := by decide +kernel
-- TC31, TC32, TJ22
theorem test_enter : after [0xC8, 8, 0, 2] (put 0x1FFC 4 0xAAAA0001 { sup with gpr := { sup.gpr with ebp := 0x2000, esp := 0x1000 } })
    (fun t => rd t 0xFFC 4 == 0x2000 && rd t 0xFF8 4 == 0xAAAA0001 && rd t 0xFF4 4 == 0xFFC && t.gpr.ebp == 0xFFC && t.gpr.esp == 0xFEC)
      = true := by decide +kernel
theorem test_leave : after [0xC9] (put 0xFFC 4 0x2000 { sup with gpr := { sup.gpr with ebp := 0xFFC } })
    (fun t => t.gpr.ebp == 0x2000 && t.gpr.esp == 0x1000) = true := by decide +kernel
-- TJ1 to TJ9, TJ27 to TJ30
theorem test_jcc : after [0x74, 0xFE] (withF sup fun f => { f with zf := true }) (fun t => t.eip == 0x2000) = true ∧
    after [0x0F, 0x8C, 0, 0xFF, 0xFF, 0xFF] (withF sup fun f => { f with of_ := true }) (fun t => t.eip == 0x1F06) = true := by
  decide +kernel
theorem test_jcxz : after [0xE3, 5] (asz16 (abcd 0 0 0x10000 0)) (fun t => t.eip == 0x2007) = true ∧
    after [0xE3, 5] (abcd 0 0 0x10000 0) (fun t => t.eip == 0x2002) = true := by decide +kernel
theorem test_loop : after [0xE2, 0xFE] (abcd 0 0 0 0) (fun t => t.gpr.ecx == 0xFFFFFFFF && t.eip == 0x2000) = true ∧
    after [0xE2, 0xFE] (asz16 (abcd 0 0 0x50001 0)) (fun t => t.gpr.ecx == 0x50000 && t.eip == 0x2002) = true := by decide +kernel
theorem test_loope : after [0xE1, 0x10] (abcd 0 0 5 0) (fun t => t.gpr.ecx == 4 && t.eip == 0x2002) = true ∧
    after [0xE0, 0x10] (abcd 0 0 5 0) (fun t => t.gpr.ecx == 4 && t.eip == 0x2012) = true := by decide +kernel
theorem test_jmp : after [0xEB, 0xFE] sup (fun t => t.eip == 0x2000) = true ∧
    after [0xFF, 0xE0] (osz16 (abcd 0x12345678 0 0 0)) (fun t => t.eip == 0x5678) = true := by decide +kernel
-- TJ11, TJ12, TC1, TC4, R615, R616
theorem test_jmp_far : after [0xEA, 0x00, 0x7C, 0x00, 0x00] real (fun t => t.seg.cs.sel == 0 && t.seg.cs.base == 0 && t.eip == 0x7C00) = true ∧
    after [0xEA, 0, 0x10, 0, 0, 8, 0] sup (fun t => t.seg.cs.sel == 8 && t.seg.cs.limit == 0xFFFFFFFF && t.eip == 0x1000) = true := by
  decide +kernel
theorem test_call : after [0xE8, 0xFB, 0xFF, 0xFF, 0xFF] sup (fun t => t.eip == 0x2000 && rd t 0x6FFC 4 == 0x2005) = true ∧
    after [0x9A, 0x34, 0x12, 0x00, 0x20] real
      (fun t => t.seg.cs.base == 0x20000 && t.eip == 0x1234 && rd t 0xFFE 2 == 0xF000 && rd t 0xFFC 2 == 0x105) = true := by
  decide +kernel
theorem test_ret : after [0xC2, 8, 0] (put 0x7000 4 0x1234 sup) (fun t => t.eip == 0x1234 && t.gpr.esp == 0x700C) = true ∧
    after [0xCB] (put 0x1000 4 0x20001234 real) (fun t => t.eip == 0x1234 && t.seg.cs.base == 0x20000 && t.gpr.esp == 0x1004) = true := by
  decide +kernel
-- TH22, TH24
theorem test_iret : after [0xCF] (put 0x1000 6 0x020200000504 real)
      (fun t => t.eip == 0x504 && t.seg.cs.sel == 0 && t.flags.toDword == 0x202 && t.gpr.esp == 0x1006) = true ∧
    after [0xCF] (put 0x7000 20 0x000000230012FFF0000002020000001B00401000 sup)
      (fun t => t.cpl == 3 && t.seg.cs.sel == 0x1B && t.eip == 0x401000 && t.seg.ss.sel == 0x23 && t.gpr.esp == 0x12FFF0 &&
        t.flags.if_ && !t.seg.ds.valid && t.seg.ds.sel == 0) = true := by decide +kernel
-- TH16, TH18, TE13
theorem test_int : after [0xCD, 0x21] (put 0x84 4 0x12345678 real)
    (fun t => t.seg.cs.sel == 0x1234 && t.eip == 0x5678 && rd t 0xFFA 2 == 0x102 && rd t 0xFFC 2 == 0xF000 && rd t 0xFFE 2 == 2)
      = true := by decide +kernel
theorem test_into : after [0xCE] real (fun t => t.eip == 0x101 && t.gpr.esp == 0x1000) = true := by decide +kernel
theorem test_ud2 : after [0x0F, 0x0B] (put 0x18 4 0x12345678 real)
    (fun t => t.seg.cs.sel == 0x1234 && t.eip == 0x5678 && rd t 0xFFA 2 == 0x100) = true := by decide +kernel
-- TM6, TM9, TJ17, TJ18
theorem test_mov_sreg : after [0x8E, 0xD0] { real with gpr := { real.gpr with eax := 0x200 } }
      (fun t => t.seg.ss.base == 0x2000 && t.shadow == .movSs) = true ∧
    after [0x8C, 0xD8] { user with gpr := { user.gpr with eax := 0xFFFFFFFF } } (fun t => t.gpr.eax == 0x23) = true := by
  decide +kernel
theorem test_lss : after [0x0F, 0xB2, 0x23] (put 0x5000 6 0x001000008000 sup)
    (fun t => t.gpr.esp == 0x8000 && t.seg.ss.sel == 0x10 && t.seg.ss.db) = true := by decide +kernel
-- TA18
theorem test_bound : after [0x62, 0x03] (put 0x5000 8 0x0000000900000000 (abcd 10 0x5000 0 0)) (fun t => t.eip == 0x2002) = true := by
  decide +kernel
-- TM17, TC15, TJ26, TM34, R643, R653
theorem test_movs : after [0xA4] (put 0x5100 1 0x5A (withF sup fun f => { f with df := true }))
    (fun t => rd t 0x5200 1 == 0x5A && t.gpr.esi == 0x50FF && t.gpr.edi == 0x51FF) = true := by decide +kernel
theorem test_cmps : after [0xA7] (put 0x5200 4 1 (put 0x5100 4 2 (withF sup fun f => { f with df := true })))
    (fun t => six t == 0 && t.gpr.esi == 0x50FC && t.gpr.edi == 0x51FC) = true := by decide +kernel
theorem test_lods : after [0xAD] (put 0x5100 4 0x44332211 sup) (fun t => t.gpr.eax == 0x44332211 && t.gpr.esi == 0x5104) = true := by
  decide +kernel
theorem test_stos : after [0xAB] (osz16 (abcd 0x11223344 0 0 0)) (fun t => rd t 0x5200 4 == 0x3344 && t.gpr.edi == 0x5202) = true := by
  decide +kernel
theorem test_scas : after [0xAE] (put 0x5200 1 7 (abcd 7 0 0 0)) (fun t => t.flags.zf && t.gpr.edi == 0x5201) = true := by decide +kernel
theorem test_rep : after [0xAA] { abcd 0x41 0 2 0 with pfx := { Pfx.clear with rep := .rep } }
    (fun t => t.gpr.ecx == 1 && t.eip == 0x2000 && rd t 0x5200 1 == 0x41) = true ∧
    after [0xAA] { abcd 0x41 0 0 0 with pfx := { Pfx.clear with rep := .rep } } (fun t => t.gpr.ecx == 0 && t.eip == 0x2001 && rd t 0x5200 1 == 0)
      = true := by decide +kernel
theorem test_ins : after [0x6C] sup (fun t => t.gpr.edi == 0x5201 && t.fresh == 1) = true := by decide +kernel
theorem test_outs : after [0x6E] (put 0x5100 1 0x41 sup) (fun t => t.ioLog == [.write 3 1 0x41] && t.gpr.esi == 0x5101) = true := by
  decide +kernel
theorem test_out : after [0xE6, 0x80] sup (fun t => t.ioLog == [.write 0x80 1 1]) = true := by decide +kernel
theorem test_in : after [0xE5, 0x60] sup (fun t => t.ioLog.length == 1 && t.gpr.ecx == 2) = true := by decide +kernel
-- TC9, TC10, TH1, TJ23, TJ24, TJ25, TJ32, TM10, TC20
theorem test_cli_sti : after [0xFA] (withF sup fun f => { f with if_ := true }) (fun t => !t.flags.if_) = true ∧
    after [0xFB] sup (fun t => t.flags.if_ && t.shadow == .sti) = true := by decide +kernel
theorem test_clts : after [0x0F, 0x06] { sup with cr0 := 0x8000003B, cr3 := 0 } (fun t => t.cr0 == 0x80000033) = true := by decide +kernel
theorem test_hlt : after [0xF4] sup (fun t => t.activity == .halted && t.eip == 0x2001) = true := by decide +kernel
theorem test_lgdt : after [0x0F, 0x01, 0x13] (put 0x5000 6 0x002010000017 sup) (fun t => t.gdtr == { base := 0x201000, limit := 0x17 }) = true := by
  decide +kernel
theorem test_sgdt : after [0x0F, 0x01, 0x03] sup (fun t => rd t 0x5000 6 == 0x00008000FFFF) = true := by decide +kernel
theorem test_lidt : after [0x0F, 0x01, 0x1B] (osz16 (put 0x5000 6 0xFF20100003FF sup))
    (fun t => t.idtr == { base := 0x201000, limit := 0x3FF }) = true := by decide +kernel
theorem test_sidt : after [0x0F, 0x01, 0x0B] sup (fun t => rd t 0x5000 6 == 0x0000900007FF) = true := by decide +kernel
theorem test_lldt : after [0x0F, 0x00, 0xD0] (abcd 0x28 0 0 0) (fun t => t.ldtr.sel == 0x28 && t.ldtr.limit == 0x17) = true := by
  decide +kernel
theorem test_ltr : after [0x0F, 0x00, 0xD8] (abcd 0x30 0 0 0) (fun t => t.tr.sel == 0x30 && rd t 0x8030 8 == 0x00008B0100000067) = true := by
  decide +kernel
theorem test_sldt : after [0x0F, 0x00, 0x03] { sup with ldtr := { sup.ldtr with sel := 0x28 } } (fun t => rd t 0x5000 4 == 0x28) = true := by
  decide +kernel
theorem test_str : after [0x0F, 0x00, 0xC8] (abcd 0xFFFFFFFF 0 0 0) (fun t => t.gpr.eax == 0x30) = true := by decide +kernel
theorem test_lmsw : after [0x0F, 0x01, 0xF0] (abcd 0xFFFE 0 0 0) (fun t => t.cr0 == 0x3F) = true := by decide +kernel
theorem test_smsw : after [0x0F, 0x01, 0x23] sup (fun t => rd t 0x5000 4 == 0x31) = true := by decide +kernel
theorem test_mov_cr : after [0x0F, 0x20, 0xC0] sup (fun t => t.gpr.eax == 0x31) = true ∧
    after [0x0F, 0x22, 0xD8] (abcd 0x3000 0 0 0) (fun t => t.cr3 == 0x3000) = true := by decide +kernel
theorem test_mov_dr : after [0x0F, 0x23, 0xC0] (abcd 0x3000 0 0 0) (fun t => t.dr0 == 0x3000) = true ∧
    after [0x0F, 0x21, 0xF8] sup (fun t => t.gpr.eax == 0x400) = true := by decide +kernel
theorem test_cpuid : after [0x0F, 0xA2] (abcd 0 0 0 0) (fun t => t.gpr.ebx == 0x756E6547 && t.gpr.edx == 0x49656E69 && t.gpr.ecx == 0x6C65746E)
    = true := by decide +kernel
theorem test_rdtsc : after [0x0F, 0x31] { sup with tsc := 0x0000000500000007 } (fun t => t.gpr.edx == 5 && t.gpr.eax == 7) = true := by
  decide +kernel
theorem test_rdpmc : after [0x0F, 0x33] { abcd 0 0 1 0 with pmc1 := 0x0500000007 } (fun t => t.gpr.edx == 5 && t.gpr.eax == 7) = true := by
  decide +kernel
theorem test_wrmsr : after [0x0F, 0x30] (abcd 7 0 0x10 5) (fun t => t.tsc == 0x0000000500000007) = true := by decide +kernel
theorem test_rdmsr : after [0x0F, 0x32] { abcd 0 0 0x10 0 with tsc := 0x0000000500000007 } (fun t => t.fresh == 2 && t.gpr.ecx == 0x10) = true := by
  decide +kernel
-- TJ15, TJ31, TA16, R658
theorem test_lar : after [0x0F, 0x02, 0xC3] (abcd 0 8 0 0) (fun t => t.flags.zf && t.gpr.ebx == 8) = true ∧
    after [0x0F, 0x02, 0xC3] (abcd 7 0 0 0) (fun t => !t.flags.zf && t.gpr.eax == 7) = true := by decide +kernel
theorem test_lsl : after [0x0F, 0x03, 0xC3] (abcd 0 8 0 0) (fun t => t.flags.zf && t.gpr.eax == 0xFFFFFFFF) = true := by decide +kernel
theorem test_verr_verw : after [0x0F, 0x00, 0xE3] (abcd 0 8 0 0) (fun t => t.flags.zf) = true ∧
    after [0x0F, 0x00, 0xEB] (abcd 0 8 0 0) (fun t => !t.flags.zf) = true := by decide +kernel
theorem test_arpl : after [0x63, 0xC8] (abcd 0x10 0 0x13 0) (fun t => t.flags.zf && t.gpr.eax == 0x13) = true ∧
    after [0x63, 0xC8] (abcd 0x13 0 0x10 0) (fun t => !t.flags.zf && t.gpr.eax == 0x13) = true := by decide +kernel

/-! ## The FPU and MMX -/

/-- `sup` after FNINIT (R353). -/
def fsup : State := { sup with fpu := sup.fpu.init }

/-- `fsup` with ST(0) and ST(1). -/
def st01 (a b : Ext) : State :=
  { fsup with fpu := { fsup.fpu with r6 := a, r7 := b, tags := 0x0FFF, sw := { fsup.fpu.sw with top := 6 } } }

/-- 1.0, 2.0, 3.0, 2.5 and 12.0 as extended reals. -/
def one : Ext := 0x3FFF8000000000000000
def two : Ext := 0x40008000000000000000
def three : Ext := 0x4000C000000000000000
def twoHalf : Ext := 0x4000A000000000000000
def twelve : Ext := 0x4002C000000000000000

/-- ST(0) after the bytes is the value. -/
def st0Is (bs : List Byte) (s : State) (v : Ext) : Bool := after bs s fun t => t.fpu.st 0 == v

-- TF1, TF3, TF4, TF5, TF7, TF9, TF10, R337, R380, R397, R398, R348
theorem test_fld1 : after [0xD9, 0xE8] fsup (fun t => t.fpu.sw.top == 7 && t.fpu.r7 == one && t.fpu.tags == 0x3FFF) = true := by
  decide +kernel
theorem test_fldpi : st0Is [0xD9, 0xEB] fsup 0x4000C90FDAA22168C235 = true := by decide +kernel
theorem test_fadd : st0Is [0xD8, 0xC1] (st01 one two) three = true := by decide +kernel
theorem test_fadd_empty : after [0xD8, 0xC1] fsup
    (fun t => t.fpu.st 0 == 0xFFFFC000000000000000 && t.fpu.sw.ie && t.fpu.sw.sf && !t.fpu.sw.c1) = true := by decide +kernel
theorem test_fsub : st0Is [0xD8, 0xE1] (st01 three one) two = true := by decide +kernel
theorem test_fsubr : st0Is [0xD8, 0xE9] (st01 one three) two = true := by decide +kernel
theorem test_fmul : st0Is [0xD8, 0xC9] (st01 three (two)) 0x4001C000000000000000 = true := by decide +kernel
theorem test_fdiv : after [0xD8, 0xF1] (st01 one three)
    (fun t => t.fpu.st 0 == 0x3FFDAAAAAAAAAAAAAAAB && t.fpu.sw.pe && t.fpu.sw.c1) = true := by decide +kernel
theorem test_fdivr : st0Is [0xD8, 0xF9] (st01 two three) 0x3FFFC000000000000000 = true := by decide +kernel
theorem test_fdiv_zero : after [0xD8, 0xF1] (st01 one 0) (fun t => t.fpu.st 0 == 0x7FFF8000000000000000 && t.fpu.sw.ze) = true ∧
    after [0xD8, 0xF1] (st01 0 0) (fun t => t.fpu.st 0 == 0xFFFFC000000000000000 && t.fpu.sw.ie && !t.fpu.sw.sf) = true := by
  decide +kernel
theorem test_faddp : after [0xDE, 0xC1] (st01 one two) (fun t => t.fpu.st 0 == three && t.fpu.sw.top == 7 && t.fpu.tags == 0x3FFF) = true := by
  decide +kernel
-- TF12, TF13, TF38, TF39, TF40, TF41
theorem test_fchs_fabs : st0Is [0xD9, 0xE0] (st01 0 0) 0x80000000000000000000 = true ∧
    st0Is [0xD9, 0xE1] (st01 0xFFFFC000000000000000 0) 0x7FFFC000000000000000 = true := by decide +kernel
theorem test_fincstp_fdecstp : after [0xD9, 0xF6] fsup (fun t => t.fpu.sw.top == 7 && t.fpu.tags == 0xFFFF) = true ∧
    after [0xD9, 0xF7] (st01 one two) (fun t => t.fpu.sw.top == 7 && t.fpu.tags == 0x0FFF) = true := by decide +kernel
theorem test_ffree : after [0xDD, 0xC1] (st01 one two) (fun t => t.fpu.tags == 0xCFFF) = true := by decide +kernel
theorem test_fcmovb : st0Is [0xDA, 0xC1] (withF (st01 one two) fun f => { f with cf := true }) two = true ∧
    st0Is [0xDA, 0xC1] (st01 one two) one = true := by decide +kernel
theorem test_fxch : after [0xD9, 0xC9] (st01 one two) (fun t => t.fpu.st 0 == two && t.fpu.st 1 == one) = true := by decide +kernel
-- TF14, TF15, TF16, TF17, TF18
theorem test_fcom : after [0xD8, 0xD1] (st01 one two) (fun t => !t.fpu.sw.c3 && !t.fpu.sw.c2 && t.fpu.sw.c0) = true := by decide +kernel
theorem test_fucom : after [0xDD, 0xE1] (st01 one 0x7FFFC000000000000000)
    (fun t => t.fpu.sw.c3 && t.fpu.sw.c2 && t.fpu.sw.c0 && !t.fpu.sw.ie) = true := by decide +kernel
theorem test_fcomi : after [0xDB, 0xF1] (withF (st01 two one) fun f => { f with zf := true, pf := true, cf := true })
    (fun t => six t == 0) = true := by decide +kernel
theorem test_ftst : after [0xD9, 0xE4] (st01 0x80000000000000000000 0) (fun t => t.fpu.sw.c3 && !t.fpu.sw.c2 && !t.fpu.sw.c0) = true := by
  decide +kernel
theorem test_fxam : after [0xD9, 0xE5] { fsup with fpu := { fsup.fpu with r0 := 0x80000000000000000000 } }
    (fun t => t.fpu.sw.c3 && !t.fpu.sw.c2 && t.fpu.sw.c0 && t.fpu.sw.c1) = true := by decide +kernel
-- TF19, TF20, TF22, TF23, TF24, TF25
theorem test_fistp : after [0xDB, 0x1B] (st01 twoHalf 0) (fun t => rd t 0x5000 4 == 2 && t.fpu.sw.pe && !t.fpu.sw.c1 && t.fpu.sw.top == 7) = true := by
  decide +kernel
theorem test_fist_word_too_big : after [0xDF, 0x13] (st01 0x400E8000000000000000 0) (fun t => rd t 0x5000 2 == 0x8000 && t.fpu.sw.ie) = true := by
  decide +kernel
theorem test_fbstp : after [0xDF, 0x33] (st01 0xC0099A40000000000000 0) (fun t => rd t 0x5000 10 == 0x80000000000000001234) = true := by
  decide +kernel
theorem test_fbld : st0Is [0xDF, 0x23] (put 0x5000 10 0x00999999999999999999 fsup) 0x403ADE0B6B3A763FFFF0 = true := by decide +kernel
theorem test_fild : st0Is [0xDF, 0x03] (put 0x5000 2 0xFFFF fsup) 0xBFFF8000000000000000 = true := by decide +kernel
theorem test_fld : st0Is [0xD9, 0x03] (put 0x5000 4 0x3F800000 fsup) one = true ∧
    after [0xD9, 0x03] (put 0x5000 4 1 fsup) (fun t => t.fpu.st 0 == 0x3F6A8000000000000000 && t.fpu.sw.de) = true := by decide +kernel
theorem test_fst : after [0xDD, 0x13] (st01 twoHalf 0) (fun t => rd t 0x5000 8 == 0x4004000000000000) = true := by decide +kernel
-- TF27, TF28, TF32, TF33
theorem test_frndint : after [0xD9, 0xFC] (st01 twoHalf 0) (fun t => t.fpu.st 0 == two && t.fpu.sw.pe && !t.fpu.sw.c1) = true := by
  decide +kernel
theorem test_fxtract : after [0xD9, 0xF4] (st01 twelve 0) (fun t => t.fpu.st 0 == 0x3FFFC000000000000000 && t.fpu.st 1 == three) = true := by
  decide +kernel
theorem test_fsqrt : st0Is [0xD9, 0xFA] (st01 0x40018000000000000000 0) two = true := by decide +kernel
theorem test_fscale : st0Is [0xD9, 0xFD] (st01 0x3FFFC000000000000000 0xC000B000000000000000) 0x3FFDC000000000000000 = true := by
  decide +kernel
-- TF35, TF34, TF45, TF43
theorem test_fnstcw_fldcw : after [0xD9, 0x3B] fsup (fun t => rd t 0x5000 2 == 0x37F) = true ∧
    after [0xD9, 0x2B] (put 0x5000 2 0x037B { fsup with fpu := { fsup.fpu with sw := { fsup.fpu.sw with ze := true } } })
      (fun t => t.fpu.sw.es && t.fpu.cw == 0x37B) = true := by decide +kernel
theorem test_fnstsw : after [0xDF, 0xE0] (st01 one two) (fun t => t.gpr.eax == 0x3000) = true := by decide +kernel
theorem test_fninit : after [0xDB, 0xE3] (st01 one two)
    (fun t => t.fpu.cw == 0x37F && t.fpu.sw.toWord == 0 && t.fpu.tags == 0xFFFF && t.fpu.r6 == one) = true := by decide +kernel
theorem test_fldenv : after [0xD9, 0x23] (put 0x5000 28 0xFFFF000000003800_0000037F fsup) (fun t => t.fpu.cw == 0x37F && t.fpu.sw.top == 7) = true := by
  decide +kernel
theorem test_wait : after [0x9B] fsup (fun t => t.eip == 0x2001) = true := by decide +kernel
theorem test_nm : next (exec .fld1 (put 0x1C 4 0x12345678 { real with cr0 := 0x00000018 }))
    (fun t => t.seg.cs.sel == 0x1234 && t.eip == 0x5678) = true := by decide +kernel

/-- `fsup` with MM0 and MM1. -/
def mm01 (a b : Qword) : State := { fsup with fpu := (fsup.fpu.setMm .i0 a).setMm .i1 b }

/-- MM0 after an instruction of bytes `0F op C1`, with the operands of section 2.8. -/
def mm (op : Byte) (v : Qword) : Bool :=
  after [0x0F, op, 0xC1] (mm01 0x7FFF80000001FFFF 0x0001FFFF7FFF0001)
    fun t => t.fpu.mm .i0 == v && t.fpu.tags == 0 && t.fpu.sw.top == 0

-- TX1 to TX27, R550
theorem test_padd : (mm 0xFC 0x7F007FFF7F00FF00 && mm 0xFD 0x80007FFF80000000 && mm 0xFE 0x80017FFF80010000 &&
    mm 0xED 0x7FFF80007FFF0000 && mm 0xDD 0x8000FFFF8000FFFF) = true := by decide +kernel
theorem test_psub : (mm 0xF9 0x7FFE80018002FFFE && mm 0xE9 0x7FFE80018002FFFE && mm 0xD9 0x7FFE00000000FFFE) = true := by
  decide +kernel
theorem test_pmul : (mm 0xD5 0x7FFF80007FFFFFFF && mm 0xE5 0x000000000000FFFF && mm 0xF5 0x0000FFFF00007FFE) = true := by
  decide +kernel
theorem test_pcmp : (mm 0x75 0 && mm 0x65 0xFFFF000000000000) = true := by decide +kernel
theorem test_pack : (mm 0x63 0x01FF7F017F8001FF && mm 0x67 0x0100FF01FF000100 && mm 0x6B 0x7FFF7FFF7FFF7FFF) = true := by
  decide +kernel
theorem test_plogic : (mm 0xDB 0x0001800000010001 && mm 0xDF 0x00007FFF7FFE0000 && mm 0xEB 0x7FFFFFFF7FFFFFFF &&
    mm 0xEF 0x7FFE7FFF7FFEFFFE) = true := by decide +kernel
theorem test_punpck : (mm 0x60 0x7F00FF0100FF01FF && mm 0x61 0x7FFF00010001FFFF && mm 0x62 0x7FFF00010001FFFF &&
    mm 0x68 0x007F01FFFF80FF00 && mm 0x69 0x00017FFFFFFF8000 && mm 0x6A 0x0001FFFF7FFF8000) = true := by decide +kernel
-- TX28 to TX36
theorem test_pshift : ([([0x71, 0xF0, 4], 0xFFF000000010FFF0), ([0x71, 0xD0, 4], 0x07FF080000000FFF), ([0x71, 0xE0, 4], 0x07FFF8000000FFFF),
    ([0x71, 0xE0, 16], 0x0000FFFF0000FFFF), ([0x71, 0xF0, 16], 0), ([0x73, 0xF0, 0x3F], 0x8000000000000000), ([0x73, 0xD0, 0x3F], 0),
    ([0x72, 0xE0, 0x1F], 0)] : List (List Byte × Qword)).all
      (fun r => after (0x0F :: r.1) (mm01 0x7FFF80000001FFFF 0) fun t => t.fpu.mm .i0 == r.2) = true := by decide +kernel
-- TX37, TM14, TM15, TC30
theorem test_movq : after [0x0F, 0x7F, 0x03] (mm01 0x7FFF80000001FFFF 0) (fun t => rd t 0x5000 8 == 0x7FFF80000001FFFF) = true := by
  decide +kernel
theorem test_movd : after [0x0F, 0x6E, 0xC0] { fsup with gpr := { fsup.gpr with eax := 0x89ABCDEF } }
    (fun t => t.fpu.mm .i0 == 0x89ABCDEF && t.fpu.r0 == 0xFFFF0000000089ABCDEF) = true := by decide +kernel
theorem test_emms : after [0x0F, 0x77] (mm01 0 0) (fun t => t.fpu.tags == 0xFFFF) = true := by decide +kernel

/-! ## Exceptions and steps -/

/-- Protected mode at level 3, with an interrupt gate of level 3 at vector 80H, one of level 0 at vector 13 and a level-0
stack in the TSS. -/
def gates : State :=
  put 0xA004 6 0x001000007800 <| put 0x9068 8 0x00008E0000083000 <| put 0x9400 8 0x0000EE0000084000 user

-- 60_exceptions R713: from level 3 to level 0 SS, ESP, EFLAGS, CS, EIP are pushed on the stack of level 0
theorem test_int_inner : after [0xCD, 0x80] gates (fun t => t.cpl == 0 && t.eip == 0x4000 && t.gpr.esp == 0x77EC && t.seg.cs.sel == 8 &&
    rd t 0x77FC 4 == 0x23 && rd t 0x77F8 4 == 0x7000 && rd t 0x77F0 4 == 0x1B && rd t 0x77EC 4 == 0x2002) = true := by decide +kernel
-- R732: a privileged instruction at level 3 takes #GP(0), with its own address and an error code of 0
theorem test_hlt_user : after [0xF4] gates (fun t => t.cpl == 0 && t.eip == 0x3000 && rd t 0x77EC 4 == 0x2000 && rd t 0x77E8 4 == 0) = true := by
  decide +kernel
-- TH19: a gate of level 0 at level 3: #GP(80H * 8 + 2)
theorem test_int_gate_dpl : after [0xCD, 0x80] (put 0x9400 8 0x00008E0000084000 gates)
    (fun t => t.eip == 0x3000 && rd t 0x77E8 4 == 0x402) = true := by decide +kernel

-- TE10 with its prefix, TE13 and an undefined repeat prefix, in whole steps
theorem test_step_prefix : next (step (put 0x2000 4 0x1234B866 (abcd 0xAABBCCDD 0 0 0)))
    (fun t => t.gpr.eax == 0xAABB1234 && t.eip == 0x2004) = true := by decide +kernel
theorem test_step_longest : next (step (put 0x2000 15 0x1234567800000100888481676626F0
      { sup with seg := { sup.seg with cs := { sup.seg.cs with db := false } } }))
    (fun t => rd t 0x109 4 == 0x12345678 && t.eip == 0x200F) = true := by decide +kernel

-- TP9 in a whole step, which leaves RF as POPFD loads it
theorem test_step_popfd : next (step (put 0x2000 1 0x9D (put 0x7000 4 0xFFFFFFFF sup))) (fun t => t.flags.toDword == 0x00257FD7) = true := by
  decide +kernel
-- R156: a read of a memory-mapped device is an event of the host
theorem test_step_device : next (step (put 0x2000 2 0x038B { sup with map := [{ base := 0x5000, size := 4, kind := .device }] }))
    (fun t => match t.ioLog with | [.memRead cs] => cs.map (·.1) == [0x5000, 0x5001, 0x5002, 0x5003] | _ => false) = true := by decide +kernel

/-- The refusal an outcome is. -/
def refusal (o : Host.Outcome State Fault Refusal) : Option Refusal :=
  match o with
  | .refused r => some r
  | _ => none

theorem test_step_refuses : refusal (step (put 0x2000 2 0x90F3 sup)) = some .repUndefined ∧
    refusal (step (put 0x2000 2 0x6666 sup)) = some .redundantPrefix := by decide +kernel
-- R720, R440: an interrupt request wakes a halted processor; without one it stays
theorem test_step_halted : next (step { real with activity := .halted }) (fun t => t.activity == .halted && t.eip == 0x100) = true ∧
    next (step (put 0x80 4 0x12345678 { withF real (fun f => { f with if_ := true }) with activity := .halted, intrPending := some 0x20 }))
      (fun t => t.activity == .running && t.eip == 0x5678 && !t.flags.if_ && rd t 0xFFA 2 == 0x100) = true := by decide +kernel
-- R90: the first fetch is at FFFFFFF0H
theorem test_step_reset : next (step (State.reset.withFetchWord 40 0xF000E05BEA)) (fun t => t.eip == 0xE05B && t.seg.cs.base == 0xF0000) = true := by
  decide +kernel

/-! ## Witnesses

For every statement with hypotheses a concrete state and operands that meet them together, at the ends of the ranges where a
clause has one. `val r` and `post r` are the value and the state of a computation that ended in `r`. -/

def isOk {α : Type} (r : EStateM.Result Stop State α) : Bool :=
  match r with
  | .ok _ _ => true
  | .error _ _ => false

def post {α : Type} (r : EStateM.Result Stop State α) : State :=
  match r with
  | .ok _ s => s
  | .error _ s => s

def val {α : Type} [Inhabited α] (r : EStateM.Result Stop State α) : α :=
  match r with
  | .ok a _ => a
  | .error _ _ => default

theorem ok_val {α : Type} [Inhabited α] {r : EStateM.Result Stop State α} (h : isOk r = true) : r = .ok (val r) (post r) := by
  cases r with
  | ok a s => rfl
  | error e s => cases h

/-- The computation gave `v`. -/
def okIs {α : Type} [DecidableEq α] (r : EStateM.Result Stop State α) (v : α) : Bool :=
  match r with
  | .ok a _ => decide (a = v)
  | .error _ _ => false

theorem ok_is {α : Type} [DecidableEq α] {r : EStateM.Result Stop State α} {v : α} (h : okIs r v = true) : r = .ok v (post r) := by
  cases r with
  | ok a s =>
    have : a = v := by simpa [okIs] using h
    rw [this]; rfl
  | error e s => cases h

theorem ok_unit {r : EStateM.Result Stop State Unit} (h : isOk r = true) : r = .ok () (post r) := ok_val h

theorem ok_ex {α : Type} {r : EStateM.Result Stop State α} (h : isOk r = true) : ∃ a t, r = .ok a t := by
  cases r with
  | ok a s => exact ⟨a, s, rfl⟩
  | error e s => cases h

/-- The descriptor a computation found. -/
def gotDesc (r : EStateM.Result Stop State (Option Desc)) : Bool :=
  match r with
  | .ok (some _) _ => true
  | _ => false

def descOf (r : EStateM.Result Stop State (Option Desc)) : Desc :=
  match r with
  | .ok (some d) _ => d
  | _ => { addr := 0, raw := 0 }

theorem ok_desc {r : EStateM.Result Stop State (Option Desc)} (h : gotDesc r = true) : r = .ok (some (descOf r)) (post r) := by
  cases r with
  | ok a s => cases a with
    | none => cases h
    | some d => rfl
  | error e s => cases h

def noDesc (r : EStateM.Result Stop State (Option Desc)) : Bool :=
  match r with
  | .ok none _ => true
  | _ => false

theorem ok_none {r : EStateM.Result Stop State (Option Desc)} (h : noDesc r = true) : r = .ok none (post r) := by
  cases r with
  | ok a s => cases a with
    | none => rfl
    | some d => cases h
  | error e s => cases h

/-- Where pushing values leads. -/
def pushed (n : Nat) : List Nat → State → Option State
  | [], s => some s
  | v :: vs, s =>
    let r := access .ss (s.wrapSp (s.sp - BitVec.ofNat 32 n)) n n .w s
    match r with
    | .ok ps u => pushed n vs ((u.stored ps v).setSp (s.wrapSp (s.sp - BitVec.ofNat 32 n)))
    | .error _ _ => none

theorem pushes_of {n vs s t} (h : pushed n vs s = some t) : Pushes n vs s t := by
  induction vs generalizing s with
  | nil => cases h; rfl
  | cons v vs ih =>
    simp only [pushed] at h
    split at h
    · rename_i ps u e
      exact ⟨ps, u, e, ih h⟩
    · cases h

theorem pushes_ex {n vs s} (h : (pushed n vs s).isSome = true) : ∃ t, Pushes n vs s t := by
  obtain ⟨t, e⟩ := Option.isSome_iff_exists.1 h
  exact ⟨t, pushes_of e⟩

/-- What popping `k` values gives, and where it leads. -/
def popped (n : Nat) : Nat → State → Option (List Nat × State)
  | 0, s => some ([], s)
  | k + 1, s =>
    let r := access .ss s.sp n n .r s
    match r with
    | .ok ps u => (popped n k (u.setSp (u.sp + BitVec.ofNat 32 n))).map fun (vs, t) => (u.at ps :: vs, t)
    | .error _ _ => none

theorem pops_of {n k s vs t} (h : popped n k s = some (vs, t)) : Pops n vs s t := by
  induction k generalizing s vs with
  | zero => cases h; rfl
  | succ k ih =>
    simp only [popped] at h
    split at h
    · rename_i ps u e
      cases e2 : popped n k (u.setSp (u.sp + BitVec.ofNat 32 n)) with
      | none => rw [e2] at h; cases h
      | some p => rw [e2] at h; cases h; exact ⟨ps, u, e, rfl, ih e2⟩
    · cases h

/-- The state after popping. -/
def popPost (n k : Nat) (s : State) : State :=
  match popped n k s with
  | some p => p.2
  | none => s

/-- Popping `vs` succeeds. -/
def popsOk (n : Nat) (vs : List Nat) (s : State) : Bool :=
  match popped n vs.length s with
  | some p => p.1 == vs
  | none => false

theorem pops_ok {n vs s} (h : popsOk n vs s = true) : Pops n vs s (popPost n vs.length s) := by
  unfold popsOk at h
  cases e : popped n vs.length s with
  | none => rw [e] at h; cases h
  | some p =>
    rw [e] at h
    have : p.1 = vs := by simpa using h
    have e2 : popped n vs.length s = some (vs, p.2) := by rw [e, ← this]
    have e3 : popPost n vs.length s = p.2 := by simp [popPost, e]
    rw [e3]; exact pops_of e2

/-- `s` with LOCK read. -/
def locked (s : State) : State := { s with pfx := { s.pfx with lock := true } }

theorem witness_TwoOperandResults :
    ((locked sup).pfx.rep = .none ∧ lockFits (locked sup) true (.mem mb) ∧
      ∃ l s1, locate ((locked sup).wd .v) (.mem mb) (useOf true) (locked sup) = .ok l s1) ∧
    (sup.plain ∧ ∃ l s1, locate (sup.wd .b) (.mem mb) .r sup = .ok l s1) :=
  ⟨⟨rfl, fun _ => ⟨rfl, rfl⟩, ok_ex (by decide +kernel)⟩, ⟨rfl, rfl⟩, ok_ex (by decide +kernel)⟩

theorem witness_TestAndUnaryResults :
    (sup.plain ∧ ∃ l s1, locate (sup.wd .v) (.mem mb) .r sup = .ok l s1) ∧
    ((locked sup).pfx.rep = .none ∧ lockFits (locked sup) true (.mem mb) ∧
      ∃ l s1, locate ((locked sup).wd .v) (.mem mb) .rw (locked sup) = .ok l s1) :=
  ⟨⟨⟨rfl, rfl⟩, ok_ex (by decide +kernel)⟩, rfl, fun _ => ⟨rfl, rfl⟩, ok_ex (by decide +kernel)⟩

theorem witness_MultiplyResults : sup.plain ∧ (∃ l s1, locate (sup.wd .b) (.mem mb) .r sup = .ok l s1) ∧
    ∃ l s1, locate sup.osz (.reg .ebx) .r sup = .ok l s1 :=
  ⟨⟨rfl, rfl⟩, ok_ex (by decide +kernel), ok_ex (by decide +kernel)⟩

-- DIV and IDIV with bytes: the last quotients that fit (255, -128, 127), the first that do not, and a divisor of 0
def div255 : State := abcd 0x1FF 2 0 0
def div256 : State := abcd 0x200 2 0 0
def div0 : State := abcd 0x200 0 0 0
def idivLo : State := abcd 0xFF00 2 0 0
def idivHi : State := abcd 0x00FF 2 0 0
def idivUnder : State := abcd 0xFEFE 2 0 0
def idivOver : State := abcd 0x0100 2 0 0

theorem witness_DivideResults_div : div255.plain ∧ locate (div255.wd .b) (.reg .ebx) .r div255 = .ok (.reg .ebx) div255 ∧
    ((Loc.reg .ebx).value (div255.wd .b) div255).toNat ≠ 0 ∧
    div255.wideAcc (div255.wd .b) / ((Loc.reg .ebx).value (div255.wd .b) div255).toNat < 2 ^ (div255.wd .b).bits :=
  ⟨⟨rfl, rfl⟩, rfl, by decide +kernel, by decide +kernel⟩

theorem witness_DivideResults_div_fault :
    (div256.plain ∧ locate (div256.wd .b) (.reg .ebx) .r div256 = .ok (.reg .ebx) div256 ∧
      2 ^ (div256.wd .b).bits ≤ div256.wideAcc (div256.wd .b) / ((Loc.reg .ebx).value (div256.wd .b) div256).toNat) ∧
    (div0.plain ∧ locate (div0.wd .b) (.reg .ebx) .r div0 = .ok (.reg .ebx) div0 ∧
      ((Loc.reg .ebx).value (div0.wd .b) div0).toNat = 0 ∧ ((Loc.reg .ebx).value (div0.wd .b) div0).toInt = 0) :=
  ⟨⟨⟨rfl, rfl⟩, rfl, by decide +kernel⟩, ⟨rfl, rfl⟩, rfl, by decide +kernel, by decide +kernel⟩

/-- The dividend and the divisor of a byte IDIV by BL. -/
def idivParts (s : State) : Int × Int :=
  ((BitVec.ofNat (2 * (s.wd .b).bits) (s.wideAcc (s.wd .b))).toInt, ((Loc.reg .ebx).value (s.wd .b) s).toInt)

theorem witness_DivideResults_idiv : ∀ s ∈ [idivLo, idivHi], s.plain ∧ locate (s.wd .b) (.reg .ebx) .r s = .ok (.reg .ebx) s ∧
    (idivParts s).2 ≠ 0 ∧ -(2 : Int) ^ ((s.wd .b).bits - 1) ≤ (idivParts s).1.tdiv (idivParts s).2 ∧
    (idivParts s).1.tdiv (idivParts s).2 < (2 : Int) ^ ((s.wd .b).bits - 1) := by
  intro s h
  simp only [List.mem_cons, List.not_mem_nil, or_false] at h
  rcases h with rfl | rfl <;> exact ⟨⟨rfl, rfl⟩, rfl, by decide +kernel, by decide +kernel, by decide +kernel⟩

theorem witness_DivideResults_idiv_fault : (idivParts idivUnder).1.tdiv (idivParts idivUnder).2 < -(2 : Int) ^ ((idivUnder.wd .b).bits - 1) ∧
    (2 : Int) ^ ((idivOver.wd .b).bits - 1) ≤ (idivParts idivOver).1.tdiv (idivParts idivOver).2 := by decide +kernel

theorem witness_DecimalAndConversionResults : sup.plain ∧ sup.os32 = true ∧ real.plain ∧ real.os32 = false ∧ (1 : Byte) ≠ 0 :=
  ⟨⟨rfl, rfl⟩, rfl, ⟨rfl, rfl⟩, rfl, by decide⟩

theorem witness_FlagInstructions : sup.plain := ⟨rfl, rfl⟩
theorem witness_FlagsAndAh : sup.plain := ⟨rfl, rfl⟩
theorem witness_FlagsOfSums : 4 ≤ 4 := by decide

theorem witness_ConditionsOrderOperands : (∃ p q r, jccs[0]? = some p ∧ cmovs[0]? = some q ∧ setccs[0]? = some r) ∧
    ∃ p q r, jccs[15]? = some p ∧ cmovs[15]? = some q ∧ setccs[15]? = some r :=
  ⟨⟨_, _, _, rfl, rfl, rfl⟩, _, _, _, rfl, rfl, rfl⟩

-- a masked count of 0 (32), of 1 and of 31; SHLD by 16 and by 17 with a 16-bit operand size
theorem witness_ShiftResults : (∃ p, p ∈ shifts) ∧ sup.plain ∧ (∃ l s1, locate (sup.wd .v) (.mem mb) .rw sup = .ok l s1) ∧
    sup.count (.imm 32) = 0 ∧ sup.count .one = 1 ∧ sup.count (.imm 31) = 31 := by
  exact ⟨⟨_, .head _⟩, ⟨rfl, rfl⟩, ok_ex (by decide +kernel), by decide +kernel, by decide +kernel, by decide +kernel⟩

theorem witness_ShiftResults_double : (osz16 sup).plain ∧
    (∃ l s1, locate (osz16 sup).osz (shxdParts (osz16 sup) (.imm (.mem mb) .eax 17)).1 .rw (osz16 sup) = .ok l s1) ∧
    (osz16 sup).osz.bits < (shxdParts (osz16 sup) (.imm (.mem mb) .eax 17)).2.2 ∧
    ¬ (osz16 sup).osz.bits < (shxdParts (osz16 sup) (.imm (.mem mb) .eax 16)).2.2 ∧ (16 ≤ 16 ∧ 15 < 16 ∧ 0 < 16 ∧ 16 ≤ Sz.w.bits) :=
  ⟨⟨rfl, rfl⟩, ok_ex (by decide +kernel), by decide +kernel, by decide +kernel, by decide⟩

theorem witness_ShiftsAreLoops : (0 < 1 ∧ 1 < 32) ∧ 0 < 31 ∧ 31 < 32 := by decide

theorem witness_BitTestResults : (sup.plain ∧ ∃ l i s1, bitUnit sup.osz (.rmR (.mem mb) .ecx) .r sup = .ok (l, i) s1) ∧
    ((locked sup).pfx.rep = .none ∧ btFits (locked sup) (.rmImm (.mem mb) 31) ∧
      ∃ l i s1, bitUnit (locked sup).osz (.rmImm (.mem mb) 31) .rw (locked sup) = .ok (l, i) s1) ∧
    ∃ l s1, locate sup.osz (.mem mb) .rw sup = .ok l s1 := by
  have split {r : EStateM.Result Stop State (Loc × Nat)} (h : isOk r = true) : ∃ l i s1, r = .ok (l, i) s1 := by
    obtain ⟨a, t, e⟩ := ok_ex h; exact ⟨a.1, a.2, t, e⟩
  exact ⟨⟨⟨rfl, rfl⟩, split (by decide +kernel)⟩, ⟨rfl, fun _ => rfl, split (by decide +kernel)⟩, ok_ex (by decide +kernel)⟩

/-- EBX with its lowest bit, with its highest bit, and 0. -/
def low1 : State := abcd 0 1 0 0
def high1 : State := abcd 0 0x80000000 0 0
theorem witness_ScanAndSwapResults :
    (low1.plain ∧ locate low1.osz (.reg .ebx) .r low1 = .ok (.reg .ebx) low1 ∧ 0 < low1.osz.bits ∧
      ((Loc.reg .ebx).value low1.osz low1).getLsbD 0 = true ∧ (∀ j < 0, ((Loc.reg .ebx).value low1.osz low1).getLsbD j = false)) ∧
    (high1.plain ∧ locate high1.osz (.reg .ebx) .r high1 = .ok (.reg .ebx) high1 ∧ 31 < high1.osz.bits ∧
      ((Loc.reg .ebx).value high1.osz high1).getLsbD 31 = true ∧ (∀ j, 31 < j → ((Loc.reg .ebx).value high1.osz high1).getLsbD j = false)) ∧
    (div0.plain ∧ locate div0.osz (.reg .ebx) .r div0 = .ok (.reg .ebx) div0 ∧ (Loc.reg .ebx).value div0.osz div0 = 0) ∧
    sup.os32 = true ∧ real.os32 = false :=
  ⟨⟨⟨rfl, rfl⟩, rfl, by decide +kernel, by decide +kernel, fun _ h => absurd h (Nat.not_lt_zero _)⟩,
   ⟨⟨rfl, rfl⟩, rfl, by decide +kernel, by decide +kernel, fun j h => BitVec.getLsbD_of_ge _ j h⟩,
   ⟨⟨rfl, rfl⟩, rfl, by decide +kernel⟩, rfl, rfl⟩

theorem witness_ConditionalResults : (∃ p, p ∈ cmovs) ∧ (∃ p, p ∈ setccs) ∧ sup.plain ∧
    (∃ l s1, locate sup.osz (.mem mb) .r sup = .ok l s1) ∧ ∃ l s1, locate .b (.mem mb) .w sup = .ok l s1 :=
  ⟨⟨_, .head _⟩, ⟨_, .head _⟩, ⟨rfl, rfl⟩, ok_ex (by decide +kernel), ok_ex (by decide +kernel)⟩

/-- An address that XLAT may read in `sup`. -/
def xlatAt : Dword := sup.wrapA (sup.regA .ebx + (sup.reg .b .eax).setWidth 32)

theorem witness_MoveResults : ((∃ l s1, locate (sup.wd .v) (.mem mb) .w sup = .ok l s1) ∧
      (∃ l s1, locate (sup.wd .b) (.mem mb) .r sup = .ok l s1) ∧ ∃ l s1, locate (extSrc .b) (.mem mb) .r sup = .ok l s1) ∧
    sup.plain ∧
    (∃ ps s1, access sup.dsSeg 0xFFFFFFFC (sup.wd .v).bytes (sup.wd .v).bytes .r sup = .ok ps s1) ∧
    (∃ ps s1, access sup.dsSeg 0xFFFFFFFF (sup.wd .b).bytes (sup.wd .b).bytes .w sup = .ok ps s1) ∧
    ∃ ps s1, access sup.dsSeg xlatAt 1 1 .r sup = .ok ps s1 :=
  ⟨⟨ok_ex (by decide +kernel), ok_ex (by decide +kernel), ok_ex (by decide +kernel)⟩, ⟨rfl, rfl⟩, ok_ex (by decide +kernel),
   ok_ex (by decide +kernel), ok_ex (by decide +kernel)⟩

theorem witness_ExchangeResults : (locked sup).pfx.rep = .none ∧ lockFits (locked sup) true (.mem mb) ∧
    (∃ l s1, locate ((locked sup).wd .v) (.mem mb) .rw (locked sup) = .ok l s1) ∧ sup.pfx.lock = false ∧
    ∃ ps s1, accessEa mb 8 8 .rw sup = .ok ps s1 :=
  ⟨rfl, fun _ => ⟨rfl, rfl⟩, ok_ex (by decide +kernel), rfl, ok_ex (by decide +kernel)⟩

/-- Loading a segment register outside protected mode. -/
theorem segLoads_86 {r sel s} (h : s.prot = false) :
    SegLoads r sel s { s with seg := s.seg.set r ((s.seg.get r).load86 s.v86 sel) } := by
  unfold SegLoads; rw [h]; rfl

/-- Loading a null selector. -/
theorem segLoads_null {r sel s} (h : s.prot = true) (n : isNull sel = true) (k : r ≠ .ss) : ∃ t, SegLoads r sel s t := by
  unfold SegLoads; rw [h, n]; exact ⟨_, k, rfl⟩

/-- Loading DS, ES, FS or GS from a descriptor. -/
theorem segLoads_data {r sel s d s1 s2} (h : s.prot = true) (n : isNull sel = false) (e : readDesc sel s = .ok (some d) s1)
    (k : r ≠ .ss) (c : s.dataSegOk d sel) (f : setAccessed d s1 = .ok () s2) : ∃ t, SegLoads r sel s t := by
  unfold SegLoads; rw [h, n]; exact ⟨_, d, s1, s2, e, by rw [if_neg k]; exact c, f, rfl⟩

/-- Loading SS from a descriptor. -/
theorem segLoads_stack {sel s d s1 s2} (h : s.prot = true) (n : isNull sel = false) (e : readDesc sel s = .ok (some d) s1)
    (c : s.stackSegOk d sel) (f : setAccessed d s1 = .ok () s2) : ∃ t, SegLoads .ss sel s t := by
  unfold SegLoads; rw [h, n]; exact ⟨_, d, s1, s2, e, by rw [if_pos rfl]; exact c, f, rfl⟩

/-- `sup` with a selector in EAX. -/
def selIn (sel : Dword) : State := abcd sel 0x5000 0 0

theorem witness_SegmentRegisterMoves_loads :
    (sup.plain ∧ sregOf .i2 = some .ss ∧ SReg.ss ≠ .cs ∧ locate .w (.reg .eax) .r (selIn 0x10) = .ok (.reg .eax) (selIn 0x10) ∧
      ∃ t, SegLoads .ss ((Loc.reg .eax).value .w (selIn 0x10)) (selIn 0x10) t) ∧
    (∃ t, SegLoads .ds ((Loc.reg .eax).value .w (selIn 0x23)) (selIn 0x23) t) ∧
    (∃ t, SegLoads .es ((Loc.reg .eax).value .w (selIn 3)) (selIn 3) t) ∧
    (∃ t, SegLoads .gs 0xFFFF virt t) ∧ (∃ t, SegLoads .ss 0x1234 real t) ∧
    (∃ ps s1, accessEa mb 2 2 .w sup = .ok ps s1) ∧
    ∃ sel off s1 t, readFar mb sup.osz.bytes (put 0x5000 6 0x002300001234 sup) = .ok (sel, off) s1 ∧ SegLoads .es sel s1 t := by
  refine ⟨⟨⟨rfl, rfl⟩, rfl, by decide, rfl, ?_⟩, ?_, ?_, ⟨_, segLoads_86 (by decide +kernel)⟩, ⟨_, segLoads_86 (by decide +kernel)⟩,
    ok_ex (by decide +kernel), ?_⟩
  · exact segLoads_stack (by decide +kernel) (by decide +kernel) (ok_desc (by decide +kernel))
      ⟨by decide +kernel, by decide +kernel, by decide +kernel, by decide +kernel⟩ (ok_unit (by decide +kernel))
  · exact segLoads_data (by decide +kernel) (by decide +kernel) (ok_desc (by decide +kernel)) (by decide)
      ⟨by decide +kernel, .inr ⟨by decide +kernel, by decide +kernel⟩, by decide +kernel⟩ (ok_unit (by decide +kernel))
  · exact segLoads_null (by decide +kernel) (by decide +kernel) (by decide)
  · obtain ⟨t, h⟩ : ∃ t, SegLoads .es (val (readFar mb sup.osz.bytes (put 0x5000 6 0x002300001234 sup))).1
        (post (readFar mb sup.osz.bytes (put 0x5000 6 0x002300001234 sup))) t :=
      segLoads_data (by decide +kernel) (by decide +kernel) (ok_desc (by decide +kernel)) (by decide)
        ⟨by decide +kernel, .inr ⟨by decide +kernel, by decide +kernel⟩, by decide +kernel⟩ (ok_unit (by decide +kernel))
    exact ⟨_, _, _, t, ok_val (by decide +kernel), h⟩

/-- A GDT with a descriptor changed: 38H is a data segment that is not present, 40H a code segment that is not present. -/
def absent : State := put 0x8040 8 0x00CF1B000000FFFF <| put 0x8038 8 0x00CF13000000FFFF sup

-- the GDT's limit is FFFFH: selector FFF8H is the last inside it; an LDT of limit 0 holds no selector
theorem witness_SegmentRegisterMoves_faults :
    (sup.plain ∧ sup.prot = true ∧ sregOf .i2 = some .ss ∧ sregOf .i3 = some .ds ∧
      (∀ v, locate .w (.reg .eax) .r (selIn v) = .ok (.reg .eax) (selIn v)) ∧ isNull ((Loc.reg .eax).value .w (selIn 3)) = true) ∧
    (∃ s2, readDesc 0x0C { sup with ldtr := { sup.ldtr with limit := 0 } } = .ok none s2) ∧ isNull 0x0C = false ∧
    (∃ d s2, readDesc 0x08 sup = .ok (some d) s2 ∧ ¬ (rpl 0x08 = sup.curPl ∧ d.writable = true ∧ d.dpl = sup.curPl)) ∧
    (∃ d s2, readDesc 0x38 absent = .ok (some d) s2 ∧ rpl 0x38 = absent.curPl ∧ d.writable = true ∧ d.dpl = absent.curPl ∧ d.p = false ∧
      d.readable = true ∧ (rpl 0x38 ≤ d.dpl ∧ absent.curPl ≤ d.dpl)) ∧
    (∃ d s2, readDesc 0x10 user = .ok (some d) s2 ∧
      ¬ (d.readable = true ∧ ((d.isCode && d.conf) = true ∨ rpl 0x10 ≤ d.dpl ∧ user.curPl ≤ d.dpl))) := by
  refine ⟨⟨⟨rfl, rfl⟩, rfl, rfl, rfl, fun _ => rfl, by decide +kernel⟩, ⟨_, ok_none (by decide +kernel)⟩, by decide, ⟨_, _, ok_desc (by decide +kernel), by decide +kernel⟩,
    ⟨_, _, ok_desc (by decide +kernel), by decide +kernel, by decide +kernel, by decide +kernel, by decide +kernel, by decide +kernel,
      by decide +kernel, by decide +kernel⟩, ⟨_, _, ok_desc (by decide +kernel), by decide +kernel⟩⟩

/-- Bounds 5 and 9, and the index in EAX. -/
def bounds (i : Dword) : State := put 0x5000 8 0x0000000900000005 (abcd i 0x5000 0 0)
-- at the lower bound, at the upper bound plus 4, below and above
theorem witness_BoundResults : ∀ i ∈ [5, 13, 4, 14], ∃ ps s1 qs s2, (bounds i).plain ∧
    access ((bounds i).eaSeg mb) ((bounds i).gpr.eaOff mb) (bounds i).osz.bytes (bounds i).osz.bytes .r (bounds i) = .ok ps s1 ∧
    access ((bounds i).eaSeg mb) ((bounds i).wrapA ((bounds i).gpr.eaOff mb + BitVec.ofNat 32 (bounds i).osz.bytes))
      (bounds i).osz.bytes (bounds i).osz.bytes .r s1 = .ok qs s2 ∧
    ((BitVec.ofNat (bounds i).osz.bits (s1.at ps)).toInt ≤ ((bounds i).reg (bounds i).osz .eax).toInt ∧
      ((bounds i).reg (bounds i).osz .eax).toInt ≤ (BitVec.ofNat (bounds i).osz.bits (s2.at qs)).toInt + (bounds i).osz.bytes ↔
      i = 5 ∨ i = 13) := by
  intro i h
  simp only [List.mem_cons, List.not_mem_nil, or_false] at h
  rcases h with rfl | rfl | rfl | rfl <;>
    exact ⟨_, _, _, _, ⟨rfl, rfl⟩, ok_val (by decide +kernel), ok_val (by decide +kernel), by decide +kernel⟩


theorem pushes_chain {n vs s} {P : State → Prop} (b : State → Bool) (hb : ∀ t, b t = true → P t)
    (h : (pushed n vs s).any b = true) : ∃ t, Pushes n vs s t ∧ P t := by
  cases e : pushed n vs s with
  | none => rw [e] at h; cases h
  | some t => rw [e] at h; exact ⟨t, pushes_of e, hb t h⟩

-- PUSH and POP; a stack pointer of 2 in real-address mode does not shut down, 1 does
def sp1 : State := { real with gpr := { real.gpr with esp := 1 } }
def sp2 : State := { real with gpr := { real.gpr with esp := 2 } }
theorem witness_PushPopResults : (sup.plain ∧ ¬ (sup.real = true ∧ sup.sp = 1) ∧ ∃ t, Pushes sup.osz.bytes [sup.gpr.eax.toNat] sup t) ∧
    (sp2.plain ∧ ¬ (sp2.real = true ∧ sp2.sp = 1) ∧ ∃ t, Pushes sp2.osz.bytes [5] sp2 t) ∧
    (∃ l s1 t, locate sup.osz (.mem mb) .r sup = .ok l s1 ∧ Pushes sup.osz.bytes [(l.value sup.osz s1).toNat] s1 t) ∧
    (sp1.plain ∧ sp1.real = true ∧ sp1.sp = 1 ∧ ∃ l s1, locate sp1.osz (.mem mb16) .r sp1 = .ok l s1) ∧
    (∃ v s1, Pops sup.osz.bytes [v] sup s1 ∧ ∃ l s2, locate sup.osz (.mem mb) .w s1 = .ok l s2) ∧
    ∃ v s1 t, Pops real.osz.bytes [v] real s1 ∧ SReg.ss ≠ .cs ∧ SegLoads .ss (BitVec.ofNat 16 v) s1 t := by
  exact ⟨⟨⟨rfl, rfl⟩, by decide +kernel, pushes_ex (by decide +kernel)⟩, ⟨⟨rfl, rfl⟩, by decide +kernel, pushes_ex (by decide +kernel)⟩,
    ⟨.mem [0x5000, 0x5001, 0x5002, 0x5003], _, let ⟨t, h⟩ := pushes_ex (by decide +kernel); ⟨t, ok_is (by decide +kernel), h⟩⟩,
    ⟨⟨rfl, rfl⟩, by decide +kernel, by decide +kernel, ok_ex (by decide +kernel)⟩, ⟨0, _, pops_ok (by decide +kernel), ok_ex (by decide +kernel)⟩,
    ⟨0, _, _, pops_ok (by decide +kernel), by decide, segLoads_86 (by decide +kernel)⟩⟩

/-- Where popping registers leads. -/
def popRegs (sz : Sz) : List Reg → State → Option State
  | [], s => some s
  | r :: rs, s => match popped sz.bytes 1 s with
    | some ([v], u) => popRegs sz rs (u.setReg sz r (BitVec.ofNat sz.bits v))
    | _ => none

theorem popRegs_of {sz rs s t} (h : popRegs sz rs s = some t) : PopRegs sz rs s t := by
  induction rs generalizing s with
  | nil => cases h; rfl
  | cons r rs ih =>
    simp only [popRegs] at h
    split at h
    · rename_i v u e
      exact ⟨v, u, pops_of e, ih h⟩
    · cases h

theorem popRegs_ex {sz rs s} (h : (popRegs sz rs s).isSome = true) : ∃ t, PopRegs sz rs s t := by
  obtain ⟨t, e⟩ := Option.isSome_iff_exists.1 h
  exact ⟨t, popRegs_of e⟩

/-- `sup` after POPA's first three registers. -/
def popa3 : State := ((popRegs .d [.edi, .esi, .ebp] sup).getD sup)

theorem witness_PushPopResults_all : (sup.plain ∧ sup.sas32 = true ∧
      ∃ t, Pushes sup.osz.bytes ([Reg.eax, .ecx, .edx, .ebx, .esp, .ebp, .esi, .edi].map fun r => (sup.reg sup.osz r).toNat) sup t) ∧
    (real.plain ∧ real.sp.toNat ∉ [1, 3, 5, 7, 9, 11, 13, 15] ∧
      ∃ t, Pushes real.osz.bytes ([Reg.eax, .ecx, .edx, .ebx, .esp, .ebp, .esi, .edi].map fun r => (real.reg real.osz r).toNat) real t) ∧
    sup.stackHas (8 * sup.osz.bytes) = true ∧ PopRegs .d [.edi, .esi, .ebp] sup popa3 ∧
    ∃ t, PopRegs .d [.ebx, .edx, .ecx, .eax] (popa3.setSp (popa3.sp + 4)) t := by
  refine ⟨⟨⟨rfl, rfl⟩, by decide +kernel, pushes_ex (by decide +kernel)⟩, ⟨⟨rfl, rfl⟩, by decide +kernel, pushes_ex (by decide +kernel)⟩,
    by decide +kernel, ?_, popRegs_ex (by decide +kernel)⟩
  have h : (popRegs .d [.edi, .esi, .ebp] sup).isSome = true := by decide +kernel
  obtain ⟨t, e⟩ := Option.isSome_iff_exists.1 h
  have : popa3 = t := by simp [popa3, e]
  rw [this]; exact popRegs_of e

/-- After ENTER's first push. -/
def entered : State := (pushed 4 [sup.gpr.ebp.toNat] sup).getD sup
theorem entered_pushes : Pushes 4 [sup.gpr.ebp.toNat] sup entered := by
  have h : (pushed 4 [sup.gpr.ebp.toNat] sup).isSome = true := by decide +kernel
  obtain ⟨t, e⟩ := Option.isSome_iff_exists.1 h
  have : entered = t := by simp [entered, e]
  rw [this]; exact pushes_of e

-- ENTER at level 0 (32), and at level 2
theorem witness_FlagStackAndFrameResults_flags : virt.plain ∧ (virt.v86 = true ∧ virt.flags.iopl = 3) ∧ ¬ (virt.real = true ∧ virt.sp = 1) ∧
    (∃ t, Pushes virt.osz.bytes [((virt.flags.toDword &&& 0x00FCFFFF#32).setWidth virt.osz.bits).toNat] virt t) ∧
    ∃ s1, Pops virt.osz.bytes [0] virt s1 :=
  ⟨⟨rfl, rfl⟩, by decide +kernel, by decide +kernel, pushes_ex (by decide +kernel), _, pops_ok (by decide +kernel)⟩

theorem witness_FlagStackAndFrameResults_enter : sup.plain ∧ Pushes sup.osz.bytes [sup.gpr.ebp.toNat] sup entered ∧
    (32 : Byte).toNat % 32 = 0 ∧ ((entered.setFp entered.sp).setSp (entered.sp - 0)).stackHas 1 = true ∧
    (2 : Byte).toNat % 32 ≠ 0 ∧
    (∃ s2 s3, Display sup.osz.bytes ((2 : Byte).toNat % 32 - 1) sup.fp entered s2 ∧ Pushes sup.osz.bytes [entered.sp.toNat] s2 s3 ∧
      ((s3.setFp entered.sp).setSp (s3.sp - 8)).stackHas 1 = true) ∧
    ∃ ps s1, access .ss sup.fp sup.osz.bytes sup.osz.bytes .r sup = .ok ps s1 := by
  refine ⟨⟨rfl, rfl⟩, entered_pushes, by decide +kernel, by decide +kernel, by decide +kernel, ?_, ok_ex (by decide +kernel)⟩
  obtain ⟨w, hw, v, hv, k⟩ := pushes_chain (n := 4)
    (vs := [(post (access .ss (entered.wrapSp (sup.fp - BitVec.ofNat 32 4)) 4 4 .r entered)).at
      (val (access .ss (entered.wrapSp (sup.fp - BitVec.ofNat 32 4)) 4 4 .r entered))])
    (s := post (access .ss (entered.wrapSp (sup.fp - BitVec.ofNat 32 4)) 4 4 .r entered))
    (fun w => (pushed 4 [entered.sp.toNat] w).any fun v => ((v.setFp entered.sp).setSp (v.sp - 8)).stackHas 1)
    (fun w h => pushes_chain _ (fun _ h => h) h) (by decide +kernel)
  exact ⟨w, v, ⟨_, _, w, ok_val (by decide +kernel), hw, rfl⟩, hv, k⟩

-- a target at the limit of CS, and one beyond it
theorem witness_ConditionalJumps : real.plain ∧ real.seg.cs.codeOk 0xFFFF = true ∧ real.seg.cs.codeOk 0x10000 = false :=
  ⟨⟨rfl, rfl⟩, by decide +kernel, by decide +kernel⟩

theorem witness_NearTransfers : sup.plain ∧
    (∃ l s1, locate sup.osz (.reg .ebx) .r sup = .ok l s1 ∧ sup.seg.cs.codeOk ((l.value sup.osz s1).setWidth 32) = true ∧
      ∃ u, Pushes sup.osz.bytes [sup.npc.toNat] s1 u) ∧
    sup.stackRoom sup.osz.bytes = true ∧ sup.seg.cs.codeOk (jumpTarget sup (.near 5)) = true ∧
    (∃ u, Pushes sup.osz.bytes [sup.npc.toNat] sup u) ∧
    ∃ v s1, Pops sup.osz.bytes [v] sup s1 ∧ sup.seg.cs.codeOk (BitVec.ofNat 32 v) = true :=
  ⟨⟨rfl, rfl⟩, ⟨_, _, rfl, by decide +kernel, pushes_ex (by decide +kernel)⟩, by decide +kernel, by decide +kernel,
   pushes_ex (by decide +kernel), 0, _, pops_ok (by decide +kernel), by decide +kernel⟩

/-- The pointer that a far transfer reads. -/
def farPtr (f : FarSrc) (s : State) : EStateM.Result Stop State (Word × Dword) := f.read s
theorem ok_far {f : FarSrc} {s : State} {sel off} (h : okIs (f.read s) (sel, off) = true) : f.read s = .ok (sel, off) (post (f.read s)) :=
  ok_is h

/-- A pointer to 0:7C00H in memory, in real-address mode. -/
def realFar : State := put 0 4 0x00007C00 real

theorem witness_FarTransfers86 : realFar.plain ∧ realFar.prot = false ∧
    (∀ f ∈ [FarSrc.imm 0 0x7C00, .mem mb16], ∃ s1, f.read realFar = .ok (0, 0x7C00) s1 ∧
      realFar.seg.cs.codeOk (realFar.nearTarget 0x7C00) = true ∧
      realFar.stackRoom (2 * realFar.osz.bytes - (if realFar.os32 then 2 else 0)) = true ∧
      ∃ u, Pushes realFar.osz.bytes [realFar.seg.cs.sel.toNat, realFar.npc.toNat] s1 u) ∧
    real.plain ∧ real.prot = false ∧ real.stackHas (2 * real.osz.bytes) = true ∧
    ∃ ip cs s1, Pops real.osz.bytes [ip, cs] real s1 ∧ real.seg.cs.codeOk (BitVec.ofNat 32 ip) = true := by
  refine ⟨⟨rfl, rfl⟩, by decide +kernel, ?_, ⟨rfl, rfl⟩, rfl, by decide +kernel, 0, 0, _, pops_ok (by decide +kernel), by decide +kernel⟩
  simp only [List.forall_mem_cons]
  exact ⟨⟨_, rfl, by decide +kernel, by decide +kernel, pushes_ex (by decide +kernel)⟩,
    ⟨_, ok_far (by decide +kernel), by decide +kernel, by decide +kernel, pushes_ex (by decide +kernel)⟩, by simp⟩

/-- `sup` with a pointer to 0008:FFFFFFFFH at 5000H. -/
def supFar : State := put 0x5000 6 0x0008FFFFFFFF sup

theorem witness_FarTransfersDirect : supFar.plain ∧ supFar.prot = true ∧ isNull 8 = false ∧
    ∀ f ∈ [FarSrc.imm 8 0xFFFFFFFF, .mem mb], ∃ s0 d s1, f.read supFar = .ok (8, 0xFFFFFFFF) s0 ∧
      readDesc 8 s0 = .ok (some d) s1 ∧ supFar.directOk 8 d ∧ (d.seg 8).codeOk (supFar.nearTarget 0xFFFFFFFF) = true ∧
      (∃ s2, setAccessed d s1 = .ok () s2) ∧ supFar.stackRoom (2 * supFar.osz.bytes) = true ∧
      ∃ s2, Pushes supFar.osz.bytes [supFar.seg.cs.sel.toNat, supFar.npc.toNat] s1 s2 ∧ ∃ s3, setAccessed d s2 = .ok () s3 := by
  refine ⟨⟨rfl, rfl⟩, rfl, by decide, ?_⟩
  simp only [List.forall_mem_cons]
  exact ⟨⟨_, _, _, rfl, ok_desc (by decide +kernel), ⟨by decide +kernel, by decide +kernel, by decide +kernel⟩,
      by decide +kernel, ⟨_, ok_unit (by decide +kernel)⟩, by decide +kernel,
      pushes_chain (fun t => isOk (setAccessed (descOf (readDesc 8 supFar)) t)) (fun _ h => ⟨_, ok_unit h⟩) (by decide +kernel)⟩,
    ⟨_, _, _, ok_far (by decide +kernel), ok_desc (by decide +kernel), ⟨by decide +kernel, by decide +kernel, by decide +kernel⟩,
      by decide +kernel, ⟨_, ok_unit (by decide +kernel)⟩, by decide +kernel,
      pushes_chain (fun t => isOk (setAccessed (descOf (readDesc 8 (post ((FarSrc.mem mb).read supFar)))) t))
        (fun _ h => ⟨_, ok_unit h⟩) (by decide +kernel)⟩, by simp⟩

/-- A call gate of level 3 at 38H to 0008:4000H with one parameter; a stack of level 0 in the TSS; a pointer to the gate at
5000H. -/
def withGate (s : State) : State := put 0x5000 6 0x003B00000000 <| put 0xA004 6 0x001000007800 <| put 0x8038 8 0x0000EC0100084000 s

/-- A far pointer of `s` names a call gate, whose code segment is usable. -/
def gd (f : FarSrc) (s : State) : EStateM.Result Stop State (Option Desc) := readDesc 0x3B (post (f.read s))
def gc (f : FarSrc) (s : State) : EStateM.Result Stop State (Option Desc) := readDesc (descOf (gd f s)).gate.sel (post (gd f s))
def gateB (f : FarSrc) (s : State) : Bool :=
  okIs (f.read s) (0x3B, 0) && gotDesc (gd f s) && decide ((descOf (gd f s)).farKind = .callGate) &&
  decide (s.curPl ≤ (descOf (gd f s)).dpl) && decide (rpl 0x3B ≤ (descOf (gd f s)).dpl) && (descOf (gd f s)).p &&
  (descOf (gd f s)).gate.is32 && !isNull (descOf (gd f s)).gate.sel && gotDesc (gc f s) && (descOf (gc f s)).isCode &&
  (descOf (gc f s)).p && ((descOf (gc f s)).seg (descOf (gd f s)).gate.sel).codeOk (descOf (gd f s)).gate.off
/-- That the pointer names `d`, a gate to `c`. -/
def NamesGate (f : FarSrc) (s : State) (d c : Desc) (s2 : State) : Prop :=
  ∃ s0 s1, f.read s = .ok (0x3B, 0) s0 ∧ isNull 0x3B = false ∧ readDesc 0x3B s0 = .ok (some d) s1 ∧ d.farKind = .callGate ∧
    s.curPl ≤ d.dpl ∧ rpl 0x3B ≤ d.dpl ∧ d.p = true ∧ d.gate.is32 = true ∧ isNull d.gate.sel = false ∧
    readDesc d.gate.sel s1 = .ok (some c) s2 ∧ c.isCode = true ∧ c.p = true ∧ (c.seg d.gate.sel).codeOk d.gate.off = true
theorem names_gate {f : FarSrc} {s : State} (h : gateB f s = true) :
    NamesGate f s (descOf (gd f s)) (descOf (gc f s)) (post (gc f s)) := by
  simp only [gateB, Bool.and_eq_true, decide_eq_true_eq, Bool.not_eq_true'] at h
  obtain ⟨⟨⟨⟨⟨⟨⟨⟨⟨⟨⟨a, b⟩, c⟩, d⟩, e⟩, g⟩, i⟩, j⟩, k⟩, l⟩, m⟩, n⟩ := h
  exact ⟨_, _, ok_is a, by decide, ok_desc b, c, d, e, g, i, j, ok_desc k, l, m, n⟩

theorem witness_CallGateTransfers_same : (withGate sup).plain ∧ (withGate sup).prot = true ∧
    (withGate sup).stackRoom 8 = true ∧ ∀ f ∈ [FarSrc.imm 0x3B 0, .mem mb], ∃ d c s2 s3, NamesGate f (withGate sup) d c s2 ∧
      (if c.conf then c.dpl ≤ (withGate sup).curPl else c.dpl = (withGate sup).curPl) ∧ setAccessed c s2 = .ok () s3 ∧
      ∃ s4, Pushes 4 [(withGate sup).seg.cs.sel.toNat, (withGate sup).npc.toNat]
        (s3.enterCs d.gate.sel c (withGate sup).curPl (withGate sup).npc) s4 := by
  refine ⟨⟨rfl, rfl⟩, rfl, by decide +kernel, ?_⟩
  simp only [List.forall_mem_cons]
  exact ⟨⟨_, _, _, _, names_gate (by decide +kernel), by decide +kernel, ok_unit (by decide +kernel), pushes_ex (by decide +kernel)⟩,
    ⟨_, _, _, _, names_gate (by decide +kernel), by decide +kernel, ok_unit (by decide +kernel), pushes_ex (by decide +kernel)⟩, by simp⟩

/-- The stack, the parameter and the accessed bits of an inner transfer. -/
def gEsp (f : FarSrc) (s : State) : EStateM.Result Stop State Nat := sysRead (s.tr.base + BitVec.ofNat 32 (0 * 8 + 4)) 4 (post (gc f s))
def gSs (f : FarSrc) (s : State) : EStateM.Result Stop State Nat := sysRead (s.tr.base + BitVec.ofNat 32 (0 * 8 + 8)) 2 (post (gEsp f s))
def gStack (f : FarSrc) (s : State) : EStateM.Result Stop State (Option Desc) := readDesc (BitVec.ofNat 16 (val (gSs f s))) (post (gSs f s))
def gPar (f : FarSrc) (s : State) : EStateM.Result Stop State (List Nat) := readParams 4 1 s.sp (post (gStack f s))
def gAcc1 (f : FarSrc) (s : State) : EStateM.Result Stop State Unit := setAccessed (descOf (gStack f s)) (post (gPar f s))
def gAcc2 (f : FarSrc) (s : State) : EStateM.Result Stop State Unit :=
  let s5 := post (gAcc1 f s)
  setAccessed (descOf (gc f s)) { s5 with
    seg := { s5.seg with ss := (descOf (gStack f s)).loaded (BitVec.ofNat 16 (val (gSs f s))) }
    gpr := { s5.gpr with esp := BitVec.ofNat 32 (val (gEsp f s)) } }

/-- A call through the gate to level 0. -/
def InnerGate (f : FarSrc) : Prop :=
  ∃ d c s2 ss esp sd s3 ps s4 s5 s6 s7,
    NamesGate f (withGate user) d c s2 ∧ d.gate.count = 1 ∧ c.conf = false ∧ c.dpl < (withGate user).curPl ∧
    InnerStack c.dpl s2 ss esp sd s3 ∧ (sd.seg ss).roomBelow esp (1 * 4 + 4 * 4) = true ∧
    readParams 4 1 (withGate user).sp s3 = .ok ps s4 ∧ setAccessed sd s4 = .ok () s5 ∧
    setAccessed c { s5 with seg := { s5.seg with ss := sd.loaded ss }, gpr := { s5.gpr with esp := esp } } = .ok () s6 ∧
    Pushes 4 ([(withGate user).seg.ss.sel.toNat, (withGate user).gpr.esp.toNat] ++ ps.reverse ++
      [(withGate user).seg.cs.sel.toNat, (withGate user).npc.toNat]) (s6.enterCs d.gate.sel c c.dpl (withGate user).npc) s7

/-- Such a call goes through. -/
def innerGateB (f : FarSrc) : Bool :=
  let s := withGate user
  let c := descOf (gc f s)
  let sd := descOf (gStack f s)
  let ss : Word := BitVec.ofNat 16 (val (gSs f s))
  gateB f s && isOk (gEsp f s) && isOk (gSs f s) && gotDesc (gStack f s) &&
  decide ((descOf (gd f s)).gate.count = 1 ∧ c.conf = false ∧ c.dpl = 0 ∧ c.dpl < s.curPl) &&
  decide ((post (gc f s)).tss32 = true ∧ 11 ≤ (post (gc f s)).tr.limit.toNat ∧ (post (gc f s)).tr.base = s.tr.base ∧ isNull ss = false) &&
  decide (rpl ss = c.dpl ∧ sd.dpl = c.dpl ∧ sd.writable = true ∧ sd.p = true) &&
  (sd.seg ss).roomBelow (BitVec.ofNat 32 (val (gEsp f s))) (1 * 4 + 4 * 4) && isOk (gPar f s) && isOk (gAcc1 f s) && isOk (gAcc2 f s) &&
  (pushed 4 ([s.seg.ss.sel.toNat, s.gpr.esp.toNat] ++ (val (gPar f s)).reverse ++ [s.seg.cs.sel.toNat, s.npc.toNat])
    ((post (gAcc2 f s)).enterCs (descOf (gd f s)).gate.sel c c.dpl s.npc)).isSome

theorem inner_gate {f : FarSrc} (h : innerGateB f = true) : InnerGate f := by
  simp only [innerGateB, Bool.and_eq_true, decide_eq_true_eq] at h
  obtain ⟨⟨⟨⟨⟨⟨⟨⟨⟨⟨⟨a, b⟩, c⟩, d⟩, e1, e2, e3, e4⟩, e5, e6, e7, e8⟩, e9⟩, e10⟩, g⟩, i⟩, j⟩, k⟩ := h
  obtain ⟨s7, h⟩ := pushes_ex k
  exact ⟨_, _, _, _, _, _, _, _, _, _, _, s7, names_gate a, e1, e2, e4,
    ⟨_, _, _, _, by rw [if_pos e5, e3, e7]; exact ⟨by omega, ok_val b, ok_val c⟩, rfl, rfl, e8, ok_desc d, e9⟩,
    e10, ok_val g, ok_unit i, ok_unit j, h⟩

theorem witness_CallGateTransfers_inner : InnerGate (.imm 0x3B 0) ∧ InnerGate (.mem mb) :=
  ⟨inner_gate (by decide +kernel), inner_gate (by decide +kernel)⟩

/-- A far return frame of `sup`: to 0008:3000H, and to 001B:3000H with a stack of level 3. -/
def retSame : State := put 0x7000 8 0x0000000800003000 sup
def retOuter : State := put 0x7000 16 0x000000230000B0000000001B00003000 sup

theorem witness_FarReturns_same : retSame.plain ∧ retSame.prot = true ∧ retSame.stackHas (2 * retSame.osz.bytes) = true ∧
    ∃ s1 d s2, Pops retSame.osz.bytes [0x3000, 8] retSame s1 ∧ readDesc (BitVec.ofNat 16 8) s1 = .ok (some d) s2 ∧
      retSame.returnOk (BitVec.ofNat 16 8) d ∧ (d.seg (BitVec.ofNat 16 8)).codeOk (BitVec.ofNat 32 0x3000) = true ∧
      rpl (BitVec.ofNat 16 8) = retSame.curPl ∧ ∃ s3, setAccessed d { s2 with npc := BitVec.ofNat 32 0x3000 } = .ok () s3 :=
  ⟨⟨rfl, rfl⟩, rfl, by decide +kernel, _, _, _, pops_ok (by decide +kernel), ok_desc (by decide +kernel),
   ⟨by decide +kernel, by decide +kernel, by decide +kernel, by decide +kernel, by decide +kernel⟩, by decide +kernel, by decide +kernel,
   _, ok_unit (by decide +kernel)⟩

theorem witness_FarReturns_outer : ∃ s1 d s2 s3 sd s4 s5 s6, Pops retOuter.osz.bytes [0x3000, 0x1B] retOuter s1 ∧
    readDesc (BitVec.ofNat 16 0x1B) s1 = .ok (some d) s2 ∧ retOuter.returnOk (BitVec.ofNat 16 0x1B) d ∧
    (d.seg (BitVec.ofNat 16 0x1B)).codeOk (BitVec.ofNat 32 0x3000) = true ∧ retOuter.curPl < rpl (BitVec.ofNat 16 0x1B) ∧
    retOuter.stackHas (4 * retOuter.osz.bytes + 0) = true ∧
    Pops retOuter.osz.bytes [0xB000, 0x23] (s2.setSp (s2.sp + 0)) s3 ∧ readDesc (BitVec.ofNat 16 0x23) s3 = .ok (some sd) s4 ∧
    returnStackOk (BitVec.ofNat 16 0x23) (BitVec.ofNat 16 0x1B) sd ∧ setAccessed d { s4 with npc := BitVec.ofNat 32 0x3000 } = .ok () s5 ∧
    setAccessed sd { s5.enterCs (BitVec.ofNat 16 0x1B) d (rpl (BitVec.ofNat 16 0x1B)) (BitVec.ofNat 32 0x3000) with
      fresh := s5.fresh + 1 } = .ok () s6 :=
  ⟨_, _, _, _, _, _, _, _, pops_ok (by decide +kernel), ok_desc (by decide +kernel),
   ⟨by decide +kernel, by decide +kernel, by decide +kernel, by decide +kernel, by decide +kernel⟩, by decide +kernel, by decide +kernel,
   by decide +kernel, pops_ok (by decide +kernel), ok_desc (by decide +kernel),
   ⟨by decide +kernel, by decide +kernel, by decide +kernel, by decide +kernel, by decide +kernel⟩, ok_unit (by decide +kernel),
   ok_unit (by decide +kernel)⟩

/-- The state from which IRET pops. -/
def popping (s : State) : State := { s with nmiBlocked := false }
/-- Frames for IRET: to the same level, to level 3, and to virtual-8086 mode. -/
def iretSame : State := put 0x7000 12 0x000002020000000800003000 sup
def iretOuter : State := put 0x7000 20 0x000000230000B000000002020000001B00003000 sup
def iretV86 : State := put 0x7000 36 0x00000005000000040000000300000002000000010000100000023202000012340000FFFF sup

theorem witness_InterruptReturns_86 :
    (real.plain ∧ real.stackHas (3 * real.osz.bytes) = true ∧ (∃ s1, Pops real.osz.bytes [0, 0, 0] (popping real) s1) ∧ real.prot = false ∧
      real.seg.cs.codeOk (BitVec.ofNat 32 0) = true) ∧
    (virt.plain ∧ virt.stackHas (3 * virt.osz.bytes) = true ∧ virt.flags.iopl = 3 ∧ (∃ s1, Pops virt.osz.bytes [0, 0, 0] (popping virt) s1) ∧
      virt.prot = false ∧ virt.seg.cs.codeOk (BitVec.ofNat 32 0) = true) :=
  ⟨⟨⟨rfl, rfl⟩, by decide +kernel, ⟨_, pops_ok (by decide +kernel)⟩, by decide +kernel, by decide +kernel⟩,
   ⟨⟨rfl, rfl⟩, by decide +kernel, by decide +kernel, ⟨_, pops_ok (by decide +kernel)⟩, by decide +kernel, by decide +kernel⟩⟩

theorem witness_InterruptReturns_same : iretSame.plain ∧ iretSame.stackHas (3 * iretSame.osz.bytes) = true ∧ iretSame.prot = true ∧
    iretSame.flags.nt = false ∧ ((BitVec.ofNat 32 0x202).getLsbD 17 && iretSame.curPl == 0) = false ∧
    ∃ s1 d s2, Pops iretSame.osz.bytes [0x3000, 8, 0x202] (popping iretSame) s1 ∧ readDesc (BitVec.ofNat 16 8) s1 = .ok (some d) s2 ∧
      iretSame.returnOk (BitVec.ofNat 16 8) d ∧ (d.seg (BitVec.ofNat 16 8)).codeOk (BitVec.ofNat 32 0x3000) = true ∧
      rpl (BitVec.ofNat 16 8) = iretSame.curPl ∧ ∃ s3, setAccessed d { s2 with npc := BitVec.ofNat 32 0x3000 } = .ok () s3 :=
  ⟨⟨rfl, rfl⟩, by decide +kernel, rfl, rfl, by decide +kernel, _, _, _, pops_ok (by decide +kernel), ok_desc (by decide +kernel),
   ⟨by decide +kernel, by decide +kernel, by decide +kernel, by decide +kernel, by decide +kernel⟩, by decide +kernel, by decide +kernel,
   _, ok_unit (by decide +kernel)⟩

theorem witness_InterruptReturns_outer : ∃ s1 d s2 s3 sd s4 s5 s6, Pops iretOuter.osz.bytes [0x3000, 0x1B, 0x202] (popping iretOuter) s1 ∧
    readDesc (BitVec.ofNat 16 0x1B) s1 = .ok (some d) s2 ∧ iretOuter.returnOk (BitVec.ofNat 16 0x1B) d ∧
    (d.seg (BitVec.ofNat 16 0x1B)).codeOk (BitVec.ofNat 32 0x3000) = true ∧ iretOuter.curPl < rpl (BitVec.ofNat 16 0x1B) ∧
    s2.stackHas (2 * iretOuter.osz.bytes) = true ∧
    Pops iretOuter.osz.bytes [0xB000, 0x23] s2 s3 ∧ readDesc (BitVec.ofNat 16 0x23) s3 = .ok (some sd) s4 ∧
    returnStackOk (BitVec.ofNat 16 0x23) (BitVec.ofNat 16 0x1B) sd ∧ setAccessed d { s4 with npc := BitVec.ofNat 32 0x3000 } = .ok () s5 ∧
    setAccessed sd { s5.enterCs (BitVec.ofNat 16 0x1B) d (rpl (BitVec.ofNat 16 0x1B)) (BitVec.ofNat 32 0x3000) with
      flags := iretOuter.iretFlags (BitVec.ofNat 32 0x202), rfKept := iretOuter.rfKept || iretOuter.os32, fresh := s5.fresh + 1 } = .ok () s6 :=
  ⟨_, _, _, _, _, _, _, _, pops_ok (by decide +kernel), ok_desc (by decide +kernel),
   ⟨by decide +kernel, by decide +kernel, by decide +kernel, by decide +kernel, by decide +kernel⟩, by decide +kernel, by decide +kernel,
   by decide +kernel, pops_ok (by decide +kernel), ok_desc (by decide +kernel),
   ⟨by decide +kernel, by decide +kernel, by decide +kernel, by decide +kernel, by decide +kernel⟩, ok_unit (by decide +kernel),
   ok_unit (by decide +kernel)⟩

theorem witness_InterruptReturns_v86 : iretV86.prot = true ∧ (BitVec.ofNat 32 0x23202).getLsbD 17 = true ∧ iretV86.curPl = 0 ∧
    (BitVec.ofNat 32 0xFFFF).toNat ≤ 0xFFFF ∧ ∃ s1, Pops iretV86.osz.bytes [0xFFFF, 0x1234, 0x23202] (popping iretV86) s1 ∧ s1.stackHas 24 = true ∧
      ∃ s2, Pops 4 [0x1000, 1, 2, 3, 4, 5] s1 s2 :=
  ⟨rfl, by decide +kernel, by decide +kernel, by decide +kernel, _, pops_ok (by decide +kernel), by decide +kernel, _, pops_ok (by decide +kernel)⟩

/-- A software interrupt, and an event from outside. -/
def soft (v : Byte) : Event := { vector := v, kind := .software, err := none }
def ext (v : Byte) : Event := { vector := v, kind := .external, err := none }

/-- Real-address mode with an IDT that just holds vector 21H. -/
def realIdt : State := { real with idtr := { base := 0, limit := 0x87 } }
theorem delivers_real : ∃ t, Delivers (soft 0x21) { realIdt with adLog := [] } t := by
  obtain ⟨u, h, v, w, e⟩ := pushes_chain (n := 2) (vs := [realIdt.flags.toDword.toNat, realIdt.seg.cs.sel.toNat, (realIdt.returnEip (soft 0x21)).toNat])
    (s := realIdt.delivering (soft 0x21)) (P := fun u => ∃ v w, sysRead (realIdt.idtr.base + BitVec.ofNat 32 (0x21 * 4)) 4 u = .ok v w)
    (fun u => isOk (sysRead (realIdt.idtr.base + BitVec.ofNat 32 (0x21 * 4)) 4 u)) (fun _ h => ok_ex h) (by decide +kernel)
  exact ⟨_, .inl ⟨by decide +kernel, by decide +kernel, by decide +kernel, u, v, w, h, e, rfl⟩⟩

/-- `sup` with an interrupt gate of level 0 at vector 80H, `virt` with one of level 3 and a stack of level 0. -/
def supGates : State := put 0x9400 8 0x00008E0000084000 sup
def virtGates : State := put 0xA004 6 0x001000007800 <| put 0x9400 8 0x0000EE0000084000 virt

/-- What delivery reads: the gate, the code segment, the inner stack. -/
def dRead (s : State) (ev : Event) : EStateM.Result Stop State Nat :=
  sysRead (s.idtr.base + BitVec.ofNat 32 (ev.vector.toNat * 8)) 8 (s.delivering ev)
def dGate (s : State) (ev : Event) : Gate := Gate.ofDesc (BitVec.ofNat 64 (val (dRead s ev)))
def dCode (s : State) (ev : Event) : EStateM.Result Stop State (Option Desc) := readDesc (dGate s ev).sel (post (dRead s ev))
def dEsp (s : State) (ev : Event) : EStateM.Result Stop State Nat :=
  sysRead (s.tr.base + BitVec.ofNat 32 ((descOf (dCode s ev)).dpl * 8 + 4)) 4 (post (dCode s ev))
def dSs (s : State) (ev : Event) : EStateM.Result Stop State Nat :=
  sysRead (s.tr.base + BitVec.ofNat 32 ((descOf (dCode s ev)).dpl * 8 + 8)) 2 (post (dEsp s ev))
def dStack (s : State) (ev : Event) : EStateM.Result Stop State (Option Desc) :=
  readDesc (BitVec.ofNat 16 (val (dSs s ev))) (post (dSs s ev))

/-- The gate passes its checks. -/
def gateOk (s : State) (ev : Event) : Bool :=
  decide (ev.vector.toNat * 8 + 7 ≤ s.idtr.limit.toNat) && isOk (dRead s ev) && !(dGate s ev).s && (dGate s ev).typ == 14 && (dGate s ev).p &&
  decide (s.curPl ≤ (dGate s ev).dpl) && !isNull (dGate s ev).sel && gotDesc (dCode s ev) && (descOf (dCode s ev)).isCode &&
  (descOf (dCode s ev)).p && ((descOf (dCode s ev)).seg (dGate s ev).sel).codeOk (dGate s ev).off

theorem gate_for {s ev} (h : gateOk s ev = true) : GateFor ev (s.delivering ev) (dGate s ev) (post (dRead s ev)) ∧
    dCode s ev = .ok (some (descOf (dCode s ev))) (post (dCode s ev)) ∧ (descOf (dCode s ev)).isCode = true ∧
    (descOf (dCode s ev)).p = true ∧ ((descOf (dCode s ev)).seg (dGate s ev).sel).codeOk (dGate s ev).off = true ∧
    (dGate s ev).typ.getLsbD 3 = true := by
  simp only [gateOk, Bool.and_eq_true, decide_eq_true_eq, Bool.not_eq_true', beq_iff_eq] at h
  obtain ⟨⟨⟨⟨⟨⟨⟨⟨⟨⟨a, b⟩, c⟩, d⟩, e⟩, f⟩, g⟩, i⟩, j⟩, k⟩, l⟩ := h
  exact ⟨⟨a, ⟨_, ok_val b, rfl⟩, c, .inr (.inr (.inl d)), e, fun _ => f, g⟩, ok_desc i, j, k, l, by rw [d]; rfl⟩

/-- The frame without a change of level, on the stack of `s`. -/
def dFrame (s : State) (ev : Event) : List Nat :=
  [(s.flagsImage ev).toNat, s.seg.cs.sel.toNat, (s.returnEip ev).toNat] ++ ev.errList

/-- A delivery without a change of level goes through. -/
def sameOk (s : State) (ev : Event) : Bool :=
  gateOk s ev && s.prot && decide ((descOf (dCode s ev)).dpl = s.curPl) && s.stackRoom ((dFrame s ev).length * 4) &&
  (pushed 4 (dFrame s ev) (post (dCode s ev))).any fun w => isOk (setAccessed (descOf (dCode s ev)) w)

theorem same_delivers {s ev} (h : sameOk s ev = true) : ∃ t, Delivers ev s t := by
  simp only [sameOk, Bool.and_eq_true, decide_eq_true_eq] at h
  obtain ⟨⟨⟨⟨a, b⟩, c⟩, d⟩, e⟩ := h
  obtain ⟨g, dc, i, p, k, ty⟩ := gate_for a
  obtain ⟨w, hw, x, hx⟩ := pushes_chain (P := fun w => ∃ x, setAccessed (descOf (dCode s ev)) w = .ok () x) _ (fun _ h => ⟨_, ok_unit h⟩) e
  refine ⟨_, .inr (.inl ⟨_, _, _, _, w, x, b, g, dc, i, p, by omega, .inr c, ?_, hx, rfl⟩)⟩
  simp only [ty, if_true]
  exact ⟨d, k, hw⟩

/-- The frame of an inner delivery. -/
def dInner (s : State) (ev : Event) : List Nat :=
  (if s.flags.vm then [s.seg.gs.sel.toNat, s.seg.fs.sel.toNat, s.seg.ds.sel.toNat, s.seg.es.sel.toNat] else []) ++
    [s.seg.ss.sel.toNat, s.gpr.esp.toNat, (s.flagsImage ev).toNat, s.seg.cs.sel.toNat, (s.returnEip ev).toNat] ++ ev.errList
def dAcc1 (s : State) (ev : Event) : EStateM.Result Stop State Unit :=
  setAccessed (descOf (dStack s ev)) { post (dStack s ev) with flags := deliveredFlags s.flags (dGate s ev) }
def dAcc2 (s : State) (ev : Event) : EStateM.Result Stop State Unit :=
  let x := post (dAcc1 s ev)
  setAccessed (descOf (dCode s ev)) { x with
    seg := { x.seg with ss := (descOf (dStack s ev)).loaded (BitVec.ofNat 16 (val (dSs s ev))) }
    gpr := { x.gpr with esp := BitVec.ofNat 32 (val (dEsp s ev)) } }

/-- An inner delivery goes through. -/
def innerOk (s : State) (ev : Event) : Bool :=
  let ss : Word := BitVec.ofNat 16 (val (dSs s ev))
  let esp : Dword := BitVec.ofNat 32 (val (dEsp s ev))
  let sd := descOf (dStack s ev)
  let y := post (dAcc2 s ev)
  gateOk s ev && s.pe && !(descOf (dCode s ev)).conf && decide ((descOf (dCode s ev)).dpl < s.curPl) &&
  decide ((descOf (dCode s ev)).dpl = 0) && (post (dCode s ev)).tss32 && decide (11 ≤ (post (dCode s ev)).tr.limit.toNat) &&
  decide ((post (dCode s ev)).tr = s.tr) && isOk (dEsp s ev) && isOk (dSs s ev) && !isNull ss && gotDesc (dStack s ev) &&
  decide (rpl ss = (descOf (dCode s ev)).dpl) && decide (sd.dpl = (descOf (dCode s ev)).dpl) && sd.writable && sd.p &&
  (sd.seg ss).roomBelow esp ((dInner s ev).length * 4) && isOk (dAcc1 s ev) && isOk (dAcc2 s ev) &&
  (pushed 4 (dInner s ev) { y with
    seg := { y.seg with cs := (descOf (dCode s ev)).loaded (withRpl (dGate s ev).sel (descOf (dCode s ev)).dpl) }
    cpl := BitVec.ofNat 2 (descOf (dCode s ev)).dpl }).isSome

theorem inner_delivers {s ev} (h : innerOk s ev = true) : ∃ t, Delivers ev s t := by
  simp only [innerOk, Bool.and_eq_true, decide_eq_true_eq, Bool.not_eq_true'] at h
  obtain ⟨⟨⟨⟨⟨⟨⟨⟨⟨⟨⟨⟨⟨⟨⟨⟨⟨⟨⟨a, b⟩, c⟩, d⟩, e⟩, f⟩, g⟩, tr⟩, i⟩, j⟩, k⟩, l⟩, m⟩, n⟩, o⟩, p⟩, q⟩, r⟩, u⟩, v⟩ := h
  obtain ⟨gf, dc, ic, pc, ko, ty⟩ := gate_for a
  obtain ⟨z, hz⟩ := pushes_ex v
  have hs : InnerStack (descOf (dCode s ev)).dpl (post (dCode s ev)) (BitVec.ofNat 16 (val (dSs s ev)))
      (BitVec.ofNat 32 (val (dEsp s ev))) (descOf (dStack s ev)) (post (dStack s ev)) := by
    refine ⟨val (dEsp s ev), val (dSs s ev), post (dEsp s ev), post (dSs s ev), ?_, rfl, rfl, k, ok_desc l, m, n, o, p⟩
    rw [if_pos f, tr]
    exact ⟨by rw [e, ← tr]; exact g, ok_val i, ok_val j⟩
  refine ⟨_, .inr (.inr ⟨dGate s ev, post (dRead s ev), descOf (dCode s ev), post (dCode s ev), BitVec.ofNat 16 (val (dSs s ev)),
    BitVec.ofNat 32 (val (dEsp s ev)), descOf (dStack s ev), post (dStack s ev), post (dAcc1 s ev), post (dAcc2 s ev), z, b, gf, dc, ic, pc, c, d, fun _ => e, hs, ?_, rfl⟩)⟩
  simp only [ty, if_true]
  exact ⟨q, ko, ok_unit r, ok_unit u, hz⟩

/-- The state in which a software interrupt is delivered. -/
def cleared (s : State) : State := { s with adLog := [] }

-- real-address mode with the vector at the end of the IDT; the same level; an inner level, from level 3 and from virtual-8086 mode
theorem witness_EventDelivery : (realIdt.plain ∧ ∃ t, Delivers (soft 0x21) (cleared realIdt) t) ∧
    (∃ t, Delivers (ext 0x80) (cleared supGates) t) ∧ (supGates.plain ∧ ∃ t, Delivers (soft 0x80) (cleared supGates) t) ∧
    (gates.plain ∧ ∃ t, Delivers (soft 0x80) (cleared gates) t) ∧
    (virtGates.plain ∧ (virtGates.v86 = true ∧ virtGates.flags.iopl = 3) ∧ ∃ t, Delivers (soft 0x80) (cleared virtGates) t) ∧
    (real.plain ∧ real.flags.of_ = false) :=
  ⟨⟨⟨rfl, rfl⟩, delivers_real⟩, same_delivers (by decide +kernel), ⟨⟨rfl, rfl⟩, same_delivers (by decide +kernel)⟩,
   ⟨⟨rfl, rfl⟩, inner_delivers (by decide +kernel)⟩, ⟨⟨rfl, rfl⟩, by decide +kernel, inner_delivers (by decide +kernel)⟩,
   ⟨rfl, rfl⟩, rfl⟩

/-- INT 3, INTO with OF = 1 and the #UD of UD2 at the same level. -/
def vec346 : State :=
  withF (put 0x9018 8 0x00008E0000084000 <| put 0x9020 8 0x00008E0000084000 <| put 0x9030 8 0x00008E0000084000 sup) fun f => { f with of_ := true }
theorem witness_EventDelivery_vectors : vec346.plain ∧ vec346.flags.of_ = true ∧ (∃ t, Delivers (soft 3) (cleared vec346) t) ∧
    (∃ t, Delivers (soft 4) (cleared vec346) t) ∧
    ∃ t, Delivers { vector := 6, kind := .exception true, err := none } (cleared vec346) t :=
  ⟨⟨rfl, rfl⟩, rfl, same_delivers (by decide +kernel), same_delivers (by decide +kernel), same_delivers (by decide +kernel)⟩

/-- `sup` with two TSSs at B000H (32-bit) and B100H (16-bit), whose tasks run at 0008:3000H with the stack 0010:7800H; their
descriptors at 40H and 50H, 48H a task gate of level 3 to the first, 58H a busy one, which the link names; vector 81H is a
task gate. -/
def tasks : State :=
  put 0x9408 8 0x0000850000400000 <|
  put 0x8040 8 0x00008900B0000067 <| put 0x8048 8 0x0000E50000400000 <| put 0x8050 8 0x00008100B100002B <|
  put 0x8058 8 0x00008B00B0000067 <| put 0xA000 2 0x58 <|
  put 0xB020 8 0x0000000200003000 <| put 0xB038 4 0x7800 <|
  put 0xB048 2 0x10 <| put 0xB04C 2 0x08 <| put 0xB050 2 0x10 <| put 0xB054 2 0x10 <|
  put 0xB10E 4 0x00023000 <| put 0xB11A 2 0x7800 <| put 0xB122 8 0x0010001000080010 sup

/-- The TSS descriptors that the selectors 40H and 50H name, and what the gate at 48H holds. -/
def taskD (sel : Word) : EStateM.Result Stop State (Option Desc) := readDesc sel tasks
def gateD : EStateM.Result Stop State (Option Desc) := readDesc 0x48 tasks
def gateT : EStateM.Result Stop State (Option Desc) := readDesc (descOf gateD).gate.sel (post gateD)

theorem names_tss {k : SwitchKind} {sel : Word} (h : (!isNull sel && gotDesc (taskD sel) && decide (tasks.curPl ≤ (descOf (taskD sel)).dpl) &&
    decide (rpl sel ≤ (descOf (taskD sel)).dpl) && (descOf (taskD sel)).p && (descOf (taskD sel)).availTss && !selTi sel) = true) :
    NamesTask k sel tasks sel (descOf (taskD sel)) (post (taskD sel)) := by
  simp only [Bool.and_eq_true, decide_eq_true_eq, Bool.not_eq_true'] at h
  obtain ⟨⟨⟨⟨⟨⟨a, b⟩, c⟩, d⟩, e⟩, f⟩, g⟩ := h
  exact ⟨_, _, a, ok_desc b, c, d, e, .inl ⟨f, fun _ => g, rfl, rfl, rfl⟩⟩

theorem names_task_gate {k : SwitchKind} : NamesTask k 0x48 tasks 0x40 (descOf gateT) (post gateT) :=
  ⟨descOf gateD, post gateD, by decide +kernel, ok_desc (by decide +kernel), by decide +kernel, by decide +kernel, by decide +kernel,
    .inr ⟨by decide +kernel, by decide +kernel, by decide +kernel, by decide +kernel, ok_desc (by decide +kernel), by decide +kernel,
      by decide +kernel⟩⟩

/-- The TSS that the link of IRET names. -/
def linkRead : EStateM.Result Stop State Nat := sysRead tasks.tr.base 2 { tasks with nmiBlocked := false }
def linkD : EStateM.Result Stop State (Option Desc) := readDesc 0x58 (post linkRead)

-- a TSS of each size, and a task gate, by JMP and CALL; IRET with a link
theorem witness_TaskSwitches_instructions : tasks.plain ∧ tasks.prot = true ∧ (∃ s1, (FarSrc.imm 0x40 0).read tasks = .ok (0x40, 0) s1) ∧
    (∀ k, ∀ sel ∈ [(0x40 : Word), 0x50], ∃ x u, NamesTask k sel tasks sel x u) ∧ (∀ k, ∃ x u, NamesTask k 0x48 tasks 0x40 x u) ∧
    (let s := withF tasks fun f => { f with nt := true }
     s.plain ∧ s.prot = true ∧ s.flags.nt = true ∧ ∃ s1 x s2, sysRead s.tr.base 2 { s with nmiBlocked := false } = .ok 0x58 s1 ∧
      isNull (BitVec.ofNat 16 0x58) = false ∧ selTi (BitVec.ofNat 16 0x58) = false ∧
      readDesc (BitVec.ofNat 16 0x58) s1 = .ok (some x) s2 ∧ x.busyTss = true ∧ x.p = true) := by
  refine ⟨⟨rfl, rfl⟩, by decide +kernel, ⟨_, rfl⟩, fun k => ?_, fun k => ⟨_, _, names_task_gate⟩, ⟨rfl, rfl⟩, by decide +kernel, rfl, _, _, _,
    ok_is (by decide +kernel), by decide, by decide, ok_desc (by decide +kernel), by decide +kernel, by decide +kernel⟩
  simp only [List.forall_mem_cons]
  exact ⟨⟨_, _, names_tss (by decide +kernel)⟩, ⟨_, _, names_tss (by decide +kernel)⟩, by simp⟩

/-- What delivery through the task gate reads, and its switch. -/
def tRead (ev : Event) : EStateM.Result Stop State Nat :=
  sysRead (tasks.idtr.base + BitVec.ofNat 32 (ev.vector.toNat * 8)) 8 ((cleared tasks).delivering ev)
def tGate (ev : Event) : Gate := Gate.ofDesc (BitVec.ofNat 64 (val (tRead ev)))
def tDesc (ev : Event) : EStateM.Result Stop State (Option Desc) := readDesc (tGate ev).sel (post (tRead ev))
def tSwitch (ev : Event) : EStateM.Result Stop State Bool :=
  switchTasks (tGate ev).sel (descOf (tDesc ev)) .int ((cleared tasks).returnEip ev) ((cleared tasks).flagsImage ev) (post (tDesc ev))

/-- An event through the task gate at 81H, without and with an error code. -/
def taskEv (e : Option Word) : Event := { vector := 0x81, kind := .exception false, err := e }

theorem task_delivers {e : Option Word}
    (h : (isOk (tRead (taskEv e)) && !(tGate (taskEv e)).s && (tGate (taskEv e)).typ == 5 && (tGate (taskEv e)).p && !isNull (tGate (taskEv e)).sel &&
      !selTi (tGate (taskEv e)).sel && gotDesc (tDesc (taskEv e)) && (descOf (tDesc (taskEv e))).availTss && (descOf (tDesc (taskEv e))).p &&
      okIs (tSwitch (taskEv e)) false && (post (tSwitch (taskEv e))).stackRoom (if (post (tSwitch (taskEv e))).tss32 then 4 else 2) &&
      (pushed (if (post (tSwitch (taskEv e))).tss32 then 4 else 2) (taskEv e).errList (post (tSwitch (taskEv e)))).any
        (fun t => t.seg.cs.codeOk t.npc)) = true) : ∃ t, TaskDelivery (taskEv e) (cleared tasks) t := by
  simp only [Bool.and_eq_true, Bool.not_eq_true', beq_iff_eq] at h
  obtain ⟨⟨⟨⟨⟨⟨⟨⟨⟨⟨⟨a, b⟩, c⟩, d⟩, f⟩, g⟩, i⟩, j⟩, l⟩, m⟩, n⟩, k⟩ := h
  obtain ⟨t, ht, hc⟩ := pushes_chain (P := fun t => t.seg.cs.codeOk t.npc = true) _ (fun _ h => h) k
  exact ⟨t, _, _, _, _, _, _, rfl, (by decide +kernel : 0x81 * 8 + 7 ≤ tasks.idtr.limit.toNat), ok_val a, rfl, b, c, d, fun h => (by cases h), f, g, ok_desc i, j, l, ok_is m, ⟨fun _ => n, ht⟩, hc⟩

/-- The state in which a JMP to 40H starts to switch, and its TSS. -/
def tx : SegReg := (descOf (taskD 0x40)).seg 0x40
def tx16 : SegReg := (descOf (taskD 0x50)).seg 0x50
def leaving : EStateM.Result Stop State Unit := leaveTask 0x40 tx .jmp 0x2002 2 tasks

-- the limits below the smallest of each size; the saved fields, from a task and with a null TR, apart from the busy bits; both sizes of TSS entered
theorem witness_TaskSwitches : (∃ t, TaskDelivery (taskEv none) (cleared tasks) t) ∧ (∃ t, TaskDelivery (taskEv (some 5)) (cleared tasks) t) ∧
    (let x (raw : Qword) : SegReg := Desc.seg { addr := 0, raw := raw } 0x40
     ((x 0x00008900B0000066).typ.getLsbD 3 = true ∧ (x 0x00008900B0000066).limit.toNat < 0x67) ∧
     (x 0x00008100B000002A).typ.getLsbD 3 = false ∧ (x 0x00008100B000002A).limit.toNat < 0x2B) ∧
    (∃ t, leaving = .ok () t) ∧
    (tasks.cr0Pg = false ∧ tasks.map = [] ∧ tasks.mem.wf = true ∧ tasks.tss32 = true ∧ tasks.tr.base.toNat + 0x60 ≤ 2 ^ 32 ∧
      tasks.typeByte tasks.tr.sel < 2 ^ 32 ∧ tasks.typeByte 0x40 < 2 ^ 32 ∧ tasks.tr.sel.toNat / 8 ≠ (0x40 : Word).toNat / 8 ∧
      ∀ p ∈ savedFields tasks 0x2002 2, (tasks.typeByte tasks.tr.sel < tasks.tr.base.toNat + p.1 ∨
          tasks.tr.base.toNat + p.1 + p.2.1 ≤ tasks.typeByte tasks.tr.sel) ∧
        (tasks.typeByte 0x40 < tasks.tr.base.toNat + p.1 ∨ tasks.tr.base.toNat + p.1 + p.2.1 ≤ tasks.typeByte 0x40)) ∧
    (let s : State := { tasks with tr := { tasks.tr with sel := 0 } }
     isNull s.tr.sel = true ∧ (∃ t, leaveTask 0x40 tx .jmp 0x2002 2 s = .ok () t) ∧ s.tss32 = true ∧ s.typeByte 0 < 2 ^ 32 ∧
      (0 : Word).toNat / 8 ≠ (0x40 : Word).toNat / 8 ∧ ∀ p ∈ savedFields s 0x2002 2,
        s.typeByte 0 < s.tr.base.toNat + p.1 ∨ s.tr.base.toNat + p.1 + p.2.1 ≤ s.typeByte 0) ∧
    (∃ t trap, enterTask tx true 0x30 (post leaving) = .ok trap t) ∧ ∃ t trap, enterTask tx16 false 0x30 tasks = .ok trap t :=
  ⟨task_delivers (by decide +kernel), task_delivers (by decide +kernel), by decide +kernel,
   ⟨_, ok_unit (by decide +kernel)⟩, by decide +kernel,
   ⟨rfl, ⟨_, ok_unit (by decide +kernel)⟩, by decide +kernel⟩, (ok_ex (by decide +kernel)).elim fun a h => h.elim fun t h => ⟨t, a, h⟩,
   (ok_ex (by decide +kernel)).elim fun a h => h.elim fun t h => ⟨t, a, h⟩⟩

/-- The element at DS:(E)SI read, and the one at ES:(E)DI. -/
def rSi (sz : Sz) (s : State) : EStateM.Result Stop State (List Nat) := access s.dsSeg (s.regA .esi) sz.bytes sz.bytes .r s
def rDi (sz : Sz) (k : Acc) (s : State) : EStateM.Result Stop State (List Nat) := access .es (s.regA .edi) sz.bytes sz.bytes k s
def rIns (sz : Sz) (s : State) : EStateM.Result Stop State (List Nat) :=
  access .es (s.regA .edi) sz.bytes sz.bytes .w (post (checkIo s.dx sz.bytes s))

/-- One iteration of each string instruction goes through. -/
def iterates (sz : Sz) (s : State) : Bool :=
  isOk (rSi sz s) && isOk (rDi sz .w (post (rSi sz s))) && isOk (rDi sz .r (post (rSi sz s))) && isOk (rDi sz .r s) &&
  isOk (rDi sz .w s) && isOk (checkIo s.dx sz.bytes s) && isOk (rIns sz s) &&
  isOk (recordIo s.dx sz.bytes { post (rIns sz s) with fresh := (post (rIns sz s)).fresh + 1 }) &&
  isOk (rSi sz (post (checkIo s.dx sz.bytes s))) &&
  isOk (recordIo s.dx sz.bytes (post (rSi sz (post (checkIo s.dx sz.bytes s)))))

theorem iterates_all {sz : Sz} {s : State} (h : iterates sz s = true) : ∀ p ∈ stringOps, ∃ t, p.2.1 sz s t := by
  simp only [iterates, Bool.and_eq_true] at h
  obtain ⟨⟨⟨⟨⟨⟨⟨⟨⟨a, b⟩, c⟩, d⟩, e⟩, f⟩, g⟩, i⟩, j⟩, k⟩ := h
  simp only [stringOps, List.forall_mem_cons]
  refine ⟨⟨_, _, _, _, ⟨_, ok_val a, rfl⟩, ⟨_, _, ok_val b, rfl⟩, rfl⟩, ⟨_, _, _, _, _, ⟨_, ok_val a, rfl⟩, ⟨_, ok_val c, rfl⟩, rfl⟩,
    ⟨_, _, _, ⟨_, ok_val d, rfl⟩, rfl⟩, ⟨_, _, _, ⟨_, ok_val a, rfl⟩, rfl⟩, ⟨_, _, ⟨_, _, ok_val e, rfl⟩, rfl⟩,
    ⟨_, _, _, _, _, _, ok_unit f, ok_val g, ⟨rfl, _, ok_unit i, rfl⟩, rfl⟩,
    ⟨_, _, _, _, _, ok_unit f, ⟨_, ok_val j, rfl⟩, ⟨_, ok_unit k, rfl⟩, rfl⟩, by simp⟩

/-- `sup` with a repeat prefix and the count `n`. -/
def repeating (r : Rep) (n : Dword) : State := { sup with pfx := { sup.pfx with rep := r }, gpr := { sup.gpr with ecx := n } }

-- once without a prefix, a count of 0, the last iteration, the largest count; both prefixes for the comparisons
theorem witness_StringInstructions :
    (∀ p ∈ stringOps, (sup.pfx.lock = false ∧ sup.pfx.rep = .none ∧ ∃ t, p.2.1 (sup.wd .b) sup t) ∧
      ((repeating .rep 0).pfx.rep ≠ .none ∧ ((repeating .rep 0).pfx.rep = .repne → p.2.2 = true) ∧ (repeating .rep 0).regA .ecx = 0) ∧
      ∀ n ∈ [(1 : Dword), 0xFFFFFFFF], (repeating .rep n).pfx.rep ≠ .none ∧ (repeating .rep n).regA .ecx ≠ 0 ∧
        ∃ t, p.2.1 ((repeating .rep n).wd .v) (repeating .rep n) t) ∧
    ∃ t, CmpsOnce .d (repeating .repne 1) t ∧ ∃ u, ScasOnce .d (repeating .repne 1) u := by
  have h1 : ∀ p ∈ stringOps, ∃ t, p.2.1 (sup.wd .b) sup t := iterates_all (by decide +kernel)
  have h2 : ∀ p ∈ stringOps, ∃ t, p.2.1 ((repeating .rep 1).wd .v) (repeating .rep 1) t := iterates_all (by decide +kernel)
  have h3 : ∀ p ∈ stringOps, ∃ t, p.2.1 ((repeating .rep 0xFFFFFFFF).wd .v) (repeating .rep 0xFFFFFFFF) t :=
    iterates_all (by decide +kernel)
  have h4 : ∀ p ∈ stringOps, ∃ t, p.2.1 .d (repeating .repne 1) t := iterates_all (by decide +kernel)
  refine ⟨fun p hp => ⟨⟨rfl, rfl, h1 p hp⟩, ⟨by decide, fun h => (by cases h), by decide +kernel⟩, ?_⟩, ?_⟩
  · simp only [List.forall_mem_cons]
    exact ⟨⟨by decide, by decide +kernel, h2 p hp⟩, ⟨by decide, by decide +kernel, h3 p hp⟩, by simp⟩
  · obtain ⟨t, ht⟩ := h4 (.cmps, CmpsOnce, true) (by simp [stringOps])
    obtain ⟨u, hu⟩ := h4 (.scas, ScasOnce, true) (by simp [stringOps])
    exact ⟨t, ht, u, hu⟩

/-- `user`, whose TSS has a permission map at offset 68H in which ports 0 to 7 are allowed and port 8 is not; with TSS limits
on both sides of what the map needs. -/
def ioUser (limit : Dword) : State :=
  put 0xA068 3 0xFFFF00 <| put 0xA066 2 0x0068 { user with tr := { user.tr with limit := limit } }

theorem witness_PortResults : (sup.plain ∧ ∃ u, checkIo (sup.portOf (.imm 0xFF)) (sup.wd .b).bytes sup = .ok () u ∧
      (∃ v t, ReadsPort (sup.wd .b) (sup.portOf (.imm 0xFF)) u v t) ∧
      ∃ t, WritesPort (sup.wd .b) (sup.portOf (.imm 0xFF)) u (sup.reg (sup.wd .b) .eax) t) ∧
    ((ioUser 0x69).plain ∧ ∃ u, checkIo ((ioUser 0x69).portOf (.imm 7)) ((ioUser 0x69).wd .b).bytes (ioUser 0x69) = .ok () u) ∧
    real.pe = false ∧ (sup.flags.vm = false ∧ sup.curPl ≤ sup.flags.iopl.toNat) ∧
    (∀ s ∈ [{ user with tr := { user.tr with typ := 3 } }, ioUser 0x66], s.pe = true ∧ s.flags.iopl.toNat < s.curPl ∧
      (s.tss32 = false ∨ s.tr.limit.toNat < 0x67)) ∧
    (∀ l ∈ [(0x67 : Dword), 0x68], (ioUser l).pe = true ∧ (ioUser l).flags.iopl.toNat < (ioUser l).curPl ∧ (ioUser l).tss32 = true ∧
      0x67 ≤ (ioUser l).tr.limit.toNat ∧ ∃ u, sysRead ((ioUser l).tr.base + 0x66#32) 2 (ioUser l) = .ok 0x68 u ∧
        (ioUser l).tr.limit.toNat < 0x68 + (7 : Word).toNat / 8 + 1) ∧
    (∀ port ∈ [(7 : Word), 8], (ioUser 0x6A).tss32 = true ∧ 0x67 ≤ (ioUser 0x6A).tr.limit.toNat ∧
      ∃ u, sysRead ((ioUser 0x6A).tr.base + 0x66#32) 2 (ioUser 0x6A) = .ok 0x68 u ∧
        0x68 + port.toNat / 8 + 1 ≤ (ioUser 0x6A).tr.limit.toNat ∧
        ∃ m v, sysRead ((ioUser 0x6A).tr.base + BitVec.ofNat 32 (0x68 + port.toNat / 8)) 2 u = .ok m v) ∧
    (virt.pe = true ∧ virt.flags.vm = true) := by
  refine ⟨⟨⟨rfl, rfl⟩, post (checkIo (sup.portOf (.imm 0xFF)) (sup.wd .b).bytes sup), ok_unit (by decide +kernel),
    ⟨_, _, rfl, _, ok_unit (by decide +kernel), rfl⟩, _, _, ok_unit (by decide +kernel), rfl⟩,
    ⟨⟨rfl, rfl⟩, _, ok_unit (by decide +kernel)⟩, rfl, ⟨rfl, by decide +kernel⟩, by decide +kernel, ?_, ?_, rfl, rfl⟩
  · simp only [List.forall_mem_cons]
    exact ⟨⟨by decide +kernel, by decide +kernel, by decide +kernel, by decide +kernel, _, ok_is (by decide +kernel), by decide +kernel⟩,
      ⟨by decide +kernel, by decide +kernel, by decide +kernel, by decide +kernel, _, ok_is (by decide +kernel), by decide +kernel⟩, by simp⟩
  · simp only [List.forall_mem_cons]
    exact ⟨⟨by decide +kernel, by decide +kernel, _, ok_is (by decide +kernel), by decide +kernel, _, _, ok_val (by decide +kernel)⟩,
      ⟨by decide +kernel, by decide +kernel, _, ok_is (by decide +kernel), by decide +kernel, _, _, ok_val (by decide +kernel)⟩, by simp⟩

-- every level where CLI is allowed and one where it is not
theorem witness_SupervisorResults : real.plain ∧ real.pe = false ∧ (user.plain ∧ ¬ (user.pe = false ∨ user.curPl ≤ user.flags.iopl.toNat)) ∧
    virt.curPl ≤ virt.flags.iopl.toNat ∧ sup.plain ∧ sup.curPl = 0 :=
  ⟨⟨rfl, rfl⟩, rfl, ⟨⟨rfl, rfl⟩, by decide +kernel⟩, by decide +kernel, ⟨rfl, rfl⟩, by decide +kernel⟩

theorem witness_PrivilegedInstructions :
    (let v := withF virt fun f => { f with iopl := 2 }
     v.plain ∧ v.v86 = true ∧ v.flags.iopl ≠ 3) ∧
    (user.plain ∧ user.curPl ≠ 0 ∧ user.prot = true ∧ (user.controlReg .i0).isSome = true ∧ (user.cr4De && isDr45 .i4) = false) ∧
    (let t := { user with cr4 := 4 }
     t.plain ∧ t.curPl ≠ 0 ∧ t.cr4Tsd = true ∧ t.cr4Pce = false) := by
  refine ⟨⟨⟨rfl, rfl⟩, by decide +kernel, by decide +kernel⟩, ⟨⟨rfl, rfl⟩, by decide +kernel, by decide +kernel, by decide +kernel,
    by decide +kernel⟩, ⟨rfl, rfl⟩, by decide +kernel, by decide +kernel, by decide +kernel⟩

theorem witness_WrongModeOrForm : (real.plain ∧ real.prot = false) ∧ virt.plain ∧ virt.prot = false :=
  ⟨⟨⟨rfl, rfl⟩, rfl⟩, ⟨rfl, rfl⟩, by decide +kernel⟩

/-- The operand that was located. -/
def locOf (r : EStateM.Result Stop State Loc) : Loc :=
  match r with
  | .ok l _ => l
  | .error _ _ => .reg .eax

theorem ok_loc {r : EStateM.Result Stop State Loc} (h : isOk r = true) : r = .ok (locOf r) (post r) := by
  cases r with
  | ok l s => rfl
  | error e s => cases h

/-- `sup` with EAX. -/
def withEax (v : Dword) (s : State) : State := { s with gpr := { s.gpr with eax := v } }

theorem readsTable_of {a : Ea} {s : State} (h : isOk (accessEa a 6 4 .r s) = true) : ∃ r t, ReadsTable a s r t := ⟨_, _, _, ok_val h, rfl⟩
theorem storesTable_of {a : Ea} {s : State} (r : TableReg) (h : isOk (accessEa a 6 4 .w s) = true) : ∃ t, StoresTable a s r t :=
  ⟨_, _, _, ok_val h, rfl⟩

/-- `sup` with operand size 16. -/
def sup16 : State := { sup with pfx := { sup.pfx with opsz := true } }

theorem witness_TableRegisterResults : (sup.plain ∧ sup.curPl = 0 ∧ (∃ r t, ReadsTable mb sup r t) ∧ ∃ t, StoresTable mb sup sup.gdtr t) ∧
    (sup16.plain ∧ sup16.os32 = false ∧ (∃ r t, ReadsTable mb sup16 r t) ∧ ∃ t, StoresTable mb sup16 sup16.idtr t) ∧
    sup.prot = true ∧ ∃ ps u, accessEa mb 2 2 .w sup = .ok ps u :=
  ⟨⟨⟨rfl, rfl⟩, by decide +kernel, readsTable_of (by decide +kernel), storesTable_of _ (by decide +kernel)⟩,
   ⟨⟨rfl, rfl⟩, by decide +kernel, readsTable_of (by decide +kernel), storesTable_of _ (by decide +kernel)⟩,
   by decide +kernel, ok_ex (by decide +kernel)⟩

/-- `sup` with a selector in AX, and the operand AX. -/
def inAx (v : Dword) : EStateM.Result Stop State Loc := locate .w (.reg .eax) .r (withEax v sup)
def axSel (v : Dword) : Word := (locOf (inAx v)).value .w (post (inAx v))
def axDesc (v : Dword) : EStateM.Result Stop State (Option Desc) := readDesc (axSel v) (post (inAx v))

/-- AX names a system descriptor of the GDT that is present. -/
def namesDesc (v : Dword) : Prop :=
  inAx v = .ok (locOf (inAx v)) (post (inAx v)) ∧ isNull (axSel v) = false ∧ selTi (axSel v) = false ∧
  axDesc v = .ok (some (descOf (axDesc v))) (post (axDesc v)) ∧ (descOf (axDesc v)).s = false ∧ (descOf (axDesc v)).p = true

-- null selectors, the LDT of the GDT and its TSS
theorem witness_TableRegisterResults_load : ((withEax 0 sup).plain ∧ (withEax 0 sup).prot = true ∧ (withEax 0 sup).curPl = 0) ∧
    ((inAx 0 = .ok (locOf (inAx 0)) (post (inAx 0)) ∧ isNull (axSel 0) = true) ∧
      inAx 3 = .ok (locOf (inAx 3)) (post (inAx 3)) ∧ isNull (axSel 3) = true) ∧
    namesDesc 0x28 ∧ namesDesc 0x30 ∧ (descOf (axDesc 0x28)).typ = 2 ∧ (descOf (axDesc 0x30)).typ = 9 ∧
    ∃ s3, markBusy (axSel 0x30) true (post (axDesc 0x30)) = .ok () s3 :=
  ⟨⟨⟨rfl, rfl⟩, by decide +kernel, by decide +kernel⟩,
   ⟨⟨ok_loc (by decide +kernel), by decide +kernel⟩, ok_loc (by decide +kernel), by decide +kernel⟩,
   ⟨ok_loc (by decide +kernel), by decide +kernel, by decide +kernel, ok_desc (by decide +kernel), by decide +kernel, by decide +kernel⟩,
   ⟨ok_loc (by decide +kernel), by decide +kernel, by decide +kernel, ok_desc (by decide +kernel), by decide +kernel, by decide +kernel⟩,
   by decide +kernel, by decide +kernel, _, ok_unit (by decide +kernel)⟩

/-- `sup` with CR4, DR7 and EAX. -/
def ctl (c4 d7 v : Dword) : State := { withEax v sup with cr4 := c4, dr7 := d7 }
/-- The same with paging. -/
def paging (s : State) : State := { s with cr0 := 0x80000011 }

theorem reloads_of {c : Bool} {s : State} (h : (!c || (List.range 4).all fun i => decide ((s.sampled (addrs 32 (s.cr3.toNat / 32 * 32))).pdpteAt i < 2 ^ 36)) = true) :
    ∃ t, ReloadsPdptes c s t := by
  unfold ReloadsPdptes
  cases c
  · exact ⟨s, rfl⟩
  · simp only [Bool.not_true, Bool.false_or, List.all_eq_true, List.mem_range, decide_eq_true_eq] at h
    exact ⟨_, h, rfl⟩

/-- The states in which MOV CR0, CR3 and CR4 reload. -/
def afterCr0 (s : State) (v : Dword) : State :=
  { s.flushed (v.getLsbD 31 != s.cr0Pg || v.getLsbD 0 != s.pe) with cr0 := newCr0 s.cr0 v }
def afterCr3 (s : State) (v : Dword) : State := { s with cr3 := v, tlb := s.tlb.filter (·.global) }
def afterCr4 (s : State) (v : Dword) : State :=
  { s.flushed (v.getLsbD 4 != s.cr4Pse || v.getLsbD 5 != s.cr4Pae || v.getLsbD 7 != s.cr4Pge) with cr4 := v }
def movesCr0 (s : State) (v : Dword) : Prop :=
  (v.getLsbD 31 = true → v.getLsbD 0 = true) ∧ (v.getLsbD 29 = true → v.getLsbD 30 = true) ∧
  ∃ t, ReloadsPdptes (s.cr4Pae && !s.cr0Pg && v.getLsbD 31) (afterCr0 s v) t
def movesCr4 (s : State) (v : Dword) : Prop :=
  v &&& 0xFFFFFE03#32 = 0 ∧ ∃ t, ReloadsPdptes (s.cr0Pg && !s.cr4Pae && v.getLsbD 5) (afterCr4 s v) t

-- moves to CR0 and CR4 that turn paging on with PAE and without, that change nothing, and that are refused
theorem witness_ControlAndDebugRegisterMoves_cr : (sup.plain ∧ sup.curPl = 0 ∧ sup.controlReg .i4 = some 0) ∧
    (movesCr0 (ctl 0x20 0x400 0x80000001) 0x80000001 ∧ movesCr0 (ctl 0 0x400 0x80000001) 0x80000001 ∧
      movesCr0 (ctl 0x20 0x400 0x10) 0x10) ∧
    ((∃ t, ReloadsPdptes ((paging (ctl 0x20 0x400 0x7000)).cr4Pae && (paging (ctl 0x20 0x400 0x7000)).cr0Pg)
        (afterCr3 (paging (ctl 0x20 0x400 0x7000)) 0x7000) t) ∧
      ∃ t, ReloadsPdptes (sup.cr4Pae && sup.cr0Pg) (afterCr3 sup 0xFFFFFFFF) t) ∧
    (movesCr4 (ctl 0 0x400 0x1FC) 0x1FC ∧ movesCr4 (paging (ctl 0 0x400 0x1FC)) 0x1FC) ∧
    ((0x80000000#32).getLsbD 31 = true ∧ (0x80000000#32).getLsbD 0 = false) ∧
    ((0x20000001#32).getLsbD 29 = true ∧ (0x20000001#32).getLsbD 30 = false) ∧
    0x200#32 &&& 0xFFFFFE00#32 ≠ 0 ∧ (1#32 &&& 0xFFFFFE00#32 = 0 ∧ 1#32 &&& 3 ≠ 0) ∧
    0x1FE#32 &&& 0xFFFFFE00#32 = 0 ∧ 0x1FE#32 &&& 3 ≠ 0 :=
  ⟨⟨⟨rfl, rfl⟩, by decide +kernel, by decide +kernel⟩,
   ⟨⟨by decide +kernel, by decide +kernel, reloads_of (by decide +kernel)⟩, ⟨by decide +kernel, by decide +kernel, reloads_of (by decide +kernel)⟩,
    by decide +kernel, by decide +kernel, reloads_of (by decide +kernel)⟩,
   ⟨reloads_of (by decide +kernel), reloads_of (by decide +kernel)⟩,
   ⟨⟨by decide +kernel, reloads_of (by decide +kernel)⟩, by decide +kernel, reloads_of (by decide +kernel)⟩, by decide +kernel, by decide +kernel, by decide +kernel⟩

theorem witness_ControlAndDebugRegisterMoves_dr :
    ((∃ l s1, locate .w (.mem mb) .r sup = .ok l s1) ∧ (∃ ps u, accessEa mb 2 2 .w sup = .ok ps u) ∧ sup.os32 = true ∧ real.os32 = false) ∧
    ((ctl 8 0x400 0).cr4De && isDr45 .i4) = true ∧
    (((ctl 8 0x2400 0).cr4De && isDr45 .i3) = false ∧ (ctl 8 0x2400 0).dr7.getLsbD 13 = true) ∧
    ((ctl 0 0x400 0).cr4De && isDr45 .i5) = false ∧ (ctl 0 0x400 0).dr7.getLsbD 13 = false ∧ (ctl 0 0x400 0).curPl = 0 :=
  ⟨⟨ok_ex (by decide +kernel), ok_ex (by decide +kernel), by decide +kernel, by decide +kernel⟩, by decide +kernel,
   ⟨by decide +kernel, by decide +kernel⟩, by decide +kernel, by decide +kernel, by decide +kernel⟩

/-- `sup` with ECX. -/
def withEcx (v : Dword) (s : State) : State := { s with gpr := { s.gpr with ecx := v } }

def userPce : State := { user with cr4 := 0x100 }
def withMsrs : State := { sup with msrs := [(0xFE, 1), (0x2FF, 2)] }

-- the time-stamp counter; the two performance counters and a number beyond them, from level 3 with CR4.PCE; RDTSC at level 3 with CR4.TSD clear
theorem witness_ModelSpecificResults : (sup.plain ∧ sup.curPl = 0 ∧ (withEcx 0x10 sup).gpr.ecx = Config.msrTsc) ∧
    ((withEcx 0 sup).gpr.ecx = 0 ∧ (withEcx 1 sup).gpr.ecx = 1 ∧ ¬ ((withEcx 2 sup).gpr.ecx = 0 ∨ (withEcx 2 sup).gpr.ecx = 1)) ∧
    (userPce.plain ∧ userPce.cr4Pce = true ∧ userPce.cr4Tsd = false) ∧ msrsSorted withMsrs.msrs :=
  ⟨⟨⟨rfl, rfl⟩, by decide +kernel, by decide +kernel⟩, by decide +kernel, ⟨⟨rfl, rfl⟩, by decide +kernel, by decide +kernel⟩, by decide +kernel, trivial⟩

/-- The four selector tests' kinds. -/
def kinds : List (Desc → Bool) := [larOk, lslOk, fun d => d.s && d.readable, fun d => d.s && d.writable]

def finds (sel : Word) (s : State) (ok : Desc → Bool) : Bool :=
  !isNull sel && gotDesc (readDesc sel s) && ok (descOf (readDesc sel s)) && decide (s.curPl ≤ (descOf (readDesc sel s)).dpl) &&
  decide (rpl sel ≤ (descOf (readDesc sel s)).dpl)
theorem finds_of {sel : Word} {ok : Desc → Bool} {s : State} (h : finds sel s ok = true) : ∃ d t, TestFinds sel ok s d t := by
  simp only [finds, Bool.and_eq_true, decide_eq_true_eq, Bool.not_eq_true'] at h
  obtain ⟨⟨⟨⟨a, b⟩, c⟩, d⟩, e⟩ := h
  exact ⟨_, _, a, ok_desc b, c, .inr ⟨d, e⟩⟩

def fails (sel : Word) (s : State) (ok : Desc → Bool) : Bool :=
  isNull sel || (!isNull sel && noDesc (readDesc sel s)) || (!isNull sel && gotDesc (readDesc sel s) &&
    (!ok (descOf (readDesc sel s)) || (!(descOf (readDesc sel s)).isCode && decide ((descOf (readDesc sel s)).dpl < max s.curPl (rpl sel)))))
theorem fails_of {sel : Word} {ok : Desc → Bool} {s : State} (h : fails sel s ok = true) : ∃ t, TestFails sel ok s t := by
  simp only [fails, Bool.and_eq_true, decide_eq_true_eq, Bool.not_eq_true', Bool.or_eq_true] at h
  rcases h with (a | ⟨a, b⟩) | ⟨⟨a, b⟩, c⟩
  · exact ⟨s, .inl ⟨a, rfl⟩⟩
  · exact ⟨_, .inr (.inl ⟨a, ok_none b⟩)⟩
  · refine ⟨_, .inr (.inr ⟨_, a, ok_desc b, fun h => ?_⟩)⟩
    rcases c with c | ⟨c, d⟩
    · rw [h.1] at c; cases c
    · rcases h.2 with e | e
      · rw [e.1] at c; cases c
      · omega

def shortGdt : State := { sup with gdtr := { sup.gdtr with limit := 0xFFFE } }

-- null, beyond the table, of a level that may not use it, of the wrong kind; and found
theorem witness_SelectorTests : (sup.plain ∧ sup.prot = true ∧ ∃ l s1, locate .w (.mem mb) .r sup = .ok l s1) ∧
    (∀ ok ∈ kinds, (∃ t, TestFails 3 ok sup t) ∧ (∃ t, TestFails 0xFFF8 ok shortGdt t) ∧ (∃ t, TestFails 0x10 ok user t) ∧
      ∃ d t, TestFinds 0x10 ok sup d t) ∧
    ∃ t, TestFails 0x28 (fun d => d.s && d.readable) sup t :=
  ⟨⟨⟨rfl, rfl⟩, by decide +kernel, ok_ex (by decide +kernel)⟩, fun ok ho =>
    ⟨fails_of ((by decide +kernel : ∀ ok ∈ kinds, fails 3 sup ok = true) ok ho),
     fails_of ((by decide +kernel : ∀ ok ∈ kinds, fails 0xFFF8 shortGdt ok = true) ok ho),
     fails_of ((by decide +kernel : ∀ ok ∈ kinds, fails 0x10 user ok = true) ok ho),
     finds_of ((by decide +kernel : ∀ ok ∈ kinds, finds 0x10 sup ok = true) ok ho)⟩,
   fails_of (by decide +kernel)⟩

/-- `sup` with a selector of RPL 0 at 5000H, and EAX. -/
def arplSt (v : Dword) : State := put 0x5000 2 0x10 (withEax v sup)
def arplLoc (v : Dword) : EStateM.Result Stop State Loc := locate .w (.mem mb) .rw (arplSt v)

theorem witness_SelectorTests_arpl : (arplSt 0x13).plain ∧ (arplSt 0x13).prot = true ∧
    (arplLoc 0x13 = .ok (locOf (arplLoc 0x13)) (post (arplLoc 0x13)) ∧
      rpl ((locOf (arplLoc 0x13)).value .w (post (arplLoc 0x13))) < rpl ((arplSt 0x13).reg .w .eax)) ∧
    arplLoc 0 = .ok (locOf (arplLoc 0)) (post (arplLoc 0)) ∧
    ¬ rpl ((locOf (arplLoc 0)).value .w (post (arplLoc 0))) < rpl ((arplSt 0).reg .w .eax) :=
  ⟨⟨rfl, rfl⟩, by decide +kernel, ⟨ok_loc (by decide +kernel), by decide +kernel⟩, ok_loc (by decide +kernel), by decide +kernel⟩

/-- ST(i) holds a zero or a normal number, as a test. -/
def holdsB (f : Fpu) (i : Nat) : Bool := !f.isEmpty i && (fclass (f.st i) == .zero || fclass (f.st i) == .normal)
theorem holds_of {f : Fpu} {i : Nat} (h : holdsB f i = true) : f.holds i := by
  simp only [holdsB, Bool.and_eq_true, Bool.or_eq_true, Bool.not_eq_true', beq_iff_eq] at h
  exact h

/-- The waiting FPU instructions may run in `s`. -/
def ready (s : State) : Prop := s.plain ∧ s.fpuReady
def readyB (s : State) : Bool := !s.pfx.lock && decide (s.pfx.rep = .none) && !s.cr0Em && !s.cr0Ts && !s.fpu.sw.es
theorem ready_of {s : State} (h : readyB s = true) : ready s := by
  simp only [readyB, Bool.and_eq_true, decide_eq_true_eq, Bool.not_eq_true'] at h
  obtain ⟨⟨⟨⟨a, b⟩, c⟩, d⟩, e⟩ := h
  exact ⟨⟨a, b⟩, c, d, e⟩

/-- A stack with no empty register, and the FPU with another control word. -/
def full : State := { fsup with fpu := { fsup.fpu with tags := 0, r0 := one, r1 := one } }
def withCw (cw : Word) (s : State) : State := { s with fpu := { s.fpu with cw := cw } }
/-- Infinity and a signalling and a quiet NaN. -/
def inf : Ext := 0x7FFF8000000000000000
def snan : Ext := 0x7FFF8000000000000001
def qnan : Ext := 0x7FFFC000000000000000

theorem witness_FpuCompletes : ready full ∧ ready fsup ∧ full.fpu.cw.extractLsb' 8 2 ≠ 1 ∧ fpuOnRegisters .fsin = true ∧ fpuOnRegisters (.fadd (.st0i .i7)) = true ∧
    fpuOnRegisters (.fcomi .i1) = true :=
  ⟨ready_of (by decide +kernel), ready_of (by decide +kernel), by decide +kernel, rfl, rfl, rfl⟩

theorem witness_FpuStackMoves : ready (st01 one two) ∧ (st01 one two).freeCs.fpu.isEmpty 7 = true ∧
    (st01 one two).freeCs.fpu.isEmpty 0 = false ∧ (st01 one two).freeCs.fpu.isEmpty (idxNat .i1) = false ∧
    ready full ∧ full.freeCs.fpu.isEmpty (idxNat .i7) = false :=
  ⟨ready_of (by decide +kernel), by decide +kernel, by decide +kernel, by decide +kernel, ready_of (by decide +kernel), by decide +kernel⟩

-- each precision and the reserved one; the operands in registers; division by a number that is not 0; each operand in memory
theorem witness_FpuArithmeticResults : (ready (st01 one two) ∧ (st01 one two).fpu.hasPrecision 64 ∧ (withCw 0x7F full).fpu.hasPrecision 24 ∧
      (withCw 0x27F full).fpu.hasPrecision 53) ∧
    (let s := withCw 0x17F (st01 one two)
     ready s ∧ s.fpu.cw.extractLsb' 8 2 = 1 ∧ s.freeCs.fpu.holds 0 ∧ s.freeCs.fpu.holds (idxNat .i1)) ∧
    ((st01 one two).freeCs.fpu.holds 0 ∧ (st01 one two).freeCs.fpu.holds (idxNat .i1) ∧ fclass ((st01 one two).freeCs.fpu.st 1) ≠ .zero) := by
  refine ⟨⟨ready_of (by decide +kernel), .inr (.inr (by decide +kernel)), .inl (by decide +kernel), .inr (.inl (by decide +kernel))⟩,
    ⟨ready_of (by decide +kernel), by decide +kernel, holds_of (by decide +kernel), holds_of (by decide +kernel)⟩,
    holds_of (by decide +kernel), holds_of (by decide +kernel), by decide +kernel⟩

/-- `st01 one two` with bytes at 5000H, and a memory operand there. -/
def inMem (n v : Nat) : State := put 0x5000 n v (st01 one two)
def rMem (n v : Nat) : EStateM.Result Stop State (List Nat) := accessEa mb n n .r (inMem n v)
def realIn (m : RealFmt) (v : Nat) : Ext := m.toExt ((post (rMem m.bytes v)).at (val (rMem m.bytes v)))

theorem witness_FpuArithmeticResults_memory : (∃ ps t, rMem 4 0x7F7FFFFF = .ok ps t) ∧ (∃ ps t, rMem 8 0x0010000000000000 = .ok ps t) ∧
    (∃ ps t, rMem 2 0x8000 = .ok ps t) ∧ (ready (inMem 4 0x7F7FFFFF) ∧ (post (rMem 4 0x7F7FFFFF)).freeCs.fpu.holds 0) ∧
    (fclass (realIn .single 0x7F7FFFFF) = .normal ∧ RealFmt.isDenormal .single 0x7F7FFFFF = false) ∧
    (fclass (realIn .double 0x0010000000000000) = .normal ∧ RealFmt.isDenormal .double 0x0010000000000000 = false) ∧
    fclass (intExt (BitVec.ofNat 16 0x8000).toInt) ≠ .zero :=
  ⟨ok_ex (by decide +kernel), ok_ex (by decide +kernel), ok_ex (by decide +kernel), ⟨ready_of (by decide +kernel), holds_of (by decide +kernel)⟩,
   by decide +kernel, by decide +kernel, by decide +kernel⟩

/-- The value of ST(0) and ST(1) in the state. -/
def top0 (s : State) : Ext := s.freeCs.fpu.st 0

/-- `st01 x y`, ready, with numbers in ST(0) and ST(1). -/
def numbers (x y : Ext) : Prop := ready (st01 x y) ∧ (st01 x y).freeCs.fpu.holds 0 ∧ (st01 x y).freeCs.fpu.holds 1
theorem numbers_of {x y : Ext} (h : (readyB (st01 x y) && holdsB (st01 x y).freeCs.fpu 0 && holdsB (st01 x y).freeCs.fpu 1) = true) : numbers x y := by
  simp only [Bool.and_eq_true] at h
  exact ⟨ready_of h.1.1, holds_of h.1.2, holds_of h.2⟩

-- a positive and a negative number, a zero, on both sides of 2 to the 63rd; the smallest scale and one that rounds to 2^19
theorem witness_FpuFunctionResults :
    (ready (st01 two 0) ∧ (st01 two 0).freeCs.fpu.holds 0 ∧ (st01 two 0).freeCs.fpu.hasPrecision 64 ∧ extNeg (top0 (st01 two 0)) = false ∧
      fclass (top0 (st01 two 0)) = .normal ∧ (st01 two 0).freeCs.fpu.isEmpty 7 = true) ∧
    ((st01 (extWithSign true two) 0).freeCs.fpu.holds 0 ∧ extNeg (top0 (st01 (extWithSign true two) 0)) = true ∧
      fclass (top0 (st01 (extWithSign true two) 0)) = .normal) ∧
    ((st01 0x80000000000000000000 0).freeCs.fpu.holds 0 ∧ fclass (top0 (st01 0x80000000000000000000 0)) = .zero ∧
      (st01 0x80000000000000000000 0).freeCs.fpu.isEmpty 7 = true) ∧
    ((numOf (top0 (st01 0x403DFFFFFFFFFFFFFFFF 0))).exp < 0 ∧ (st01 0x403DFFFFFFFFFFFFFFFF 0).freeCs.fpu.holds 0) ∧
    (0 ≤ (numOf (top0 (st01 0x403E8000000000000000 0))).exp ∧ (st01 0x403E8000000000000000 0).freeCs.fpu.holds 0) ∧
    ((st01 0x403E8000000000000000 0).freeCs.fpu.isEmpty 0 = false ∧ fclass (top0 (st01 0x403E8000000000000000 0)) = .normal ∧
      16383 + 63 = extExp (top0 (st01 0x403E8000000000000000 0))) ∧
    (withCw 0x17F (st01 two 0)).fpu.cw.extractLsb' 8 2 = 1 ∧
    (numbers one 0x40108000000000000000 ∧
      ((extValue ((st01 one 0x40108000000000000000).freeCs.fpu.st 1)).tdiv ((2 : Int) ^ 16445)).natAbs = 2 ^ 17) ∧
    (numbers one 0x40128000000000000000 ∧
      ¬ ((extValue ((st01 one 0x40128000000000000000).freeCs.fpu.st 1)).tdiv ((2 : Int) ^ 16445)).natAbs < 2 ^ 19) := by
  refine ⟨⟨ready_of (by decide +kernel), holds_of (by decide +kernel), .inr (.inr (by decide +kernel)), by decide +kernel, by decide +kernel,
    by decide +kernel⟩, ⟨holds_of (by decide +kernel), by decide +kernel, by decide +kernel⟩, ⟨holds_of (by decide +kernel), by decide +kernel⟩,
    ⟨by decide +kernel, holds_of (by decide +kernel)⟩, ⟨by decide +kernel, holds_of (by decide +kernel)⟩,
    ⟨by decide +kernel, by decide +kernel, by decide +kernel⟩, by decide +kernel, ⟨numbers_of (by decide +kernel), by decide +kernel⟩,
    numbers_of (by decide +kernel), by decide +kernel⟩

-- FPREM and FPREM1 by zero, by infinity and of zero, and with exponents 63 and 64 apart
theorem witness_FpuFunctionResults_remainders : numbers two 0 ∧
    (ready (st01 two inf) ∧ (st01 two inf).freeCs.fpu.holds 0 ∧ (st01 two inf).freeCs.fpu.isEmpty 1 = false ∧
      fclass ((st01 two inf).freeCs.fpu.st 1) = .inf) ∧
    (numbers 0 two ∧ fclass ((st01 0 two).freeCs.fpu.st 0) = .zero ∧ fclass ((st01 0 two).freeCs.fpu.st 1) = .normal) ∧
    (let s := st01 0x403E8000000000000000 one
     numbers 0x403E8000000000000000 one ∧ s.freeCs.fpu.cw.getLsbD 4 = true ∧ extExp (s.freeCs.fpu.st 0) + 1 = extExp (s.freeCs.fpu.st 1) + 64) ∧
    (let s := st01 0x403F8000000000000000 one
     numbers 0x403F8000000000000000 one ∧ s.freeCs.fpu.cw.getLsbD 4 = true ∧ extExp (s.freeCs.fpu.st 1) + 64 = extExp (s.freeCs.fpu.st 0)) :=
  ⟨numbers_of (by decide +kernel),
   ⟨ready_of (by decide +kernel), holds_of (by decide +kernel), by decide +kernel, by decide +kernel⟩,
   ⟨numbers_of (by decide +kernel), by decide +kernel, by decide +kernel⟩,
   ⟨numbers_of (by decide +kernel), by decide +kernel, by decide +kernel⟩, numbers_of (by decide +kernel), by decide +kernel, by decide +kernel⟩

/-- The rounding of `1 * 2 ^ e` to `p` bits, and the power of two below it. -/
def oneAt (e : Int) (p : Nat) : Int :=
  let n : FpNum := { neg := false, mant := 1, exp := e }
  let r := n.roundAt 0 (Int.ofNat n.mant.log2 + n.exp - (p - 1 : Nat))
  Int.ofNat r.mant.log2 + r.exp

-- results at both ends of the range, and the first beyond them; packing at both ends of the range; a common exponent; memory formats at both ends
theorem witness_RoundingRules : ((0 < 1 ∧ 1 ≤ 2 ^ 64 ∧ (-16445 : Int) ≤ -16445 ∧ Int.ofNat (Nat.log2 1) + (-16445) ≤ 16383) ∧
      ((-16445 : Int) ≤ 16320 ∧ Int.ofNat (Nat.log2 (2 ^ 64 - 1)) + 16320 ≤ 16383 ∧ Int.ofNat (Nat.log2 (2 ^ 64)) + 16319 ≤ 16383)) ∧
    (∀ p ∈ [24, 53, 64], oneAt (-16382) p = -16382 ∧ oneAt 16383 p = 16383 ∧ oneAt (-16383) p < -16382 ∧ 16383 < oneAt 16384 p ∧
      oneAt 40959 p - 24576 ≤ 16383 ∧ -16382 ≤ oneAt (-40958) p + 24576) ∧
    ((0 : Int) ≤ ({ neg := false, mant := 3, exp := 0 } : FpNum).exp ∧ ({ neg := false, mant := 3, exp := 0 } : FpNum).mant ≠ 0) ∧
    (∀ v ∈ [0x00800000, 0xFF7FFFFF], v < 2 ^ (8 * RealFmt.single.bytes) ∧ RealFmt.isDenormal .single v = false ∧
      fclass (RealFmt.single.toExt v) = .normal) ∧
    ∀ v ∈ [0x0010000000000000, 0xFFEFFFFFFFFFFFFF], v < 2 ^ (8 * RealFmt.double.bytes) ∧ RealFmt.isDenormal .double v = false ∧
      fclass (RealFmt.double.toExt v) = .normal := by decide +kernel

/-- The classes of ST(0) and ST(1), which are not empty. -/
def classes (a b : Ext) (x y : FClass) : Prop :=
  ready (st01 a b) ∧ (st01 a b).freeCs.fpu.isEmpty 0 = false ∧ (st01 a b).freeCs.fpu.isEmpty (idxNat .i1) = false ∧
  fclass ((st01 a b).freeCs.fpu.st 0) = x ∧ fclass ((st01 a b).freeCs.fpu.st (idxNat .i1)) = y

-- overflow, underflow; unlike infinities, infinity times 0, 0 over 0, a number over 0, a signalling and a quiet NaN
theorem witness_FpuExceptionResults : (ready full ∧ full.freeCs.fpu.isEmpty 7 = false) ∧ (ready fsup ∧ fsup.freeCs.fpu.isEmpty 0 = true) ∧
    (classes inf (extWithSign true inf) .inf .inf ∧ extNeg inf ≠ extNeg (extWithSign true inf)) ∧ classes inf inf .inf .inf ∧
    classes inf 0 .inf .zero ∧ classes 0 inf .zero .inf ∧ classes 0 0 .zero .zero ∧ classes one 0 .normal .zero ∧
    classes snan one .snan .normal ∧ classes qnan inf .qnan .inf ∧ ready (withCw 0x300 (st01 0 0)) :=
  ⟨⟨ready_of (by decide +kernel), by decide +kernel⟩, ⟨ready_of (by decide +kernel), by decide +kernel⟩,
   ⟨⟨ready_of (by decide +kernel), by decide +kernel⟩, by decide +kernel⟩, ⟨ready_of (by decide +kernel), by decide +kernel⟩,
   ⟨ready_of (by decide +kernel), by decide +kernel⟩, ⟨ready_of (by decide +kernel), by decide +kernel⟩,
   ⟨ready_of (by decide +kernel), by decide +kernel⟩, ⟨ready_of (by decide +kernel), by decide +kernel⟩,
   ⟨ready_of (by decide +kernel), by decide +kernel⟩, ⟨ready_of (by decide +kernel), by decide +kernel⟩, ready_of (by decide +kernel)⟩

/-- A denormal number. -/
def denormal : Ext := 0x00000000000000000001
/-- `f` as the comparisons see it. -/
def cmp (a b : Ext) : Fpu := (st01 a b).fpu.withC1 false

-- numbers, a denormal, NaNs on either side; an empty register; memory operands of both kinds
theorem witness_FpuCompareResults : (∀ a ∈ [one, 0, denormal, qnan, snan], ∀ b ∈ [two, qnan], ready (st01 a b) ∧ (cmp a b).isEmpty 0 = false ∧
      (cmp a b).isEmpty (idxNat .i1) = false) ∧
    ([one, 0, denormal].all fun v => (fclass ((cmp v two).st 0)).isFinite && !unorderedClass (fclass ((cmp v two).st 0))) = true ∧
    fclass ((cmp denormal two).st 0) = .denormal ∧ (fclass ((cmp one two).st (idxNat .i1))).isFinite = true ∧
    (unorderedClass (fclass ((cmp qnan two).st 0)) = true ∧ unorderedClass (fclass ((cmp one qnan).st (idxNat .i1))) = true ∧
      (fclass ((cmp snan two).st 0)).isBad = true) ∧
    (ready fsup ∧ fsup.fpu.isEmpty 0 = true) ∧
    (ready (inMem 4 0x7F7FFFFF) ∧ ((inMem 4 0x7F7FFFFF).fpu.withC1 false).isEmpty 0 = false ∧
      (fclass (realIn .single 0x7F7FFFFF)).isFinite = true ∧ RealFmt.isDenormal .single 0x00000001 = true ∧
      unorderedClass (fclass (RealFmt.double.toExt 0x7FF8000000000000)) = true) ∧ ∃ ps t, rMem 2 0x8000 = .ok ps t := by
  have h : ([one, 0, denormal, qnan, snan].all fun a => [two, qnan].all fun b => readyB (st01 a b) && !(cmp a b).isEmpty 0 &&
      !(cmp a b).isEmpty (idxNat .i1)) = true := by decide +kernel
  simp only [List.all_eq_true, Bool.and_eq_true, Bool.not_eq_true'] at h
  exact ⟨fun a ha b hb => ⟨ready_of (h a ha b hb).1.1, (h a ha b hb).1.2, (h a ha b hb).2⟩, by decide +kernel, by decide +kernel, by decide +kernel, by decide +kernel,
    ⟨ready_of (by decide +kernel), by decide +kernel⟩, ⟨ready_of (by decide +kernel), by decide +kernel⟩, ok_ex (by decide +kernel)⟩

/-- Where a memory operand at 5000H is accessed from: `st01 v 0` with bytes there, after the condition bits are freed. -/
def fpSt (v : Ext) (n m : Nat) : State := put 0x5000 n m (st01 v 0)
def fpAt (n al : Nat) (k : Acc) (s : State) : EStateM.Result Stop State (List Nat) := accessEa mb n al k s

-- loads: the largest packed decimal and the least word
theorem witness_FpuLoadsAndStores_loads :
    (ready (fpSt one 10 0x99999999999999999999) ∧ (fpSt one 10 0x99999999999999999999).freeCs.fpu.isEmpty 7 = true ∧
      (∃ ps t, accessEa mb 4 4 .r (fpSt one 10 0x99999999999999999999).freeCs = .ok ps t) ∧
      ∃ ps t, accessEa mb 10 8 .r (fpSt one 10 0x99999999999999999999).freeCs = .ok ps t) ∧
    bcdValue 18 0x99999999999999999999 = some (10 ^ 18 - 1) ∧
    (∃ ps t, accessEa mb 8 8 .r (fpSt one 8 0x0010000000000000).freeCs = .ok ps t) ∧
    (fclass (RealFmt.double.toExt 0x0010000000000000) ≠ .snan ∧ RealFmt.isDenormal .double 0x0010000000000000 = false) ∧
    (fclass (RealFmt.single.toExt 0x99999999) ≠ .snan ∧ RealFmt.isDenormal .single 0x99999999 = false) ∧
    ((∀ v ∈ [0x7F800001, 0xFFBFFFFF], fclass (RealFmt.single.toExt v) = .snan) ∧ fclass (RealFmt.double.toExt 0x7FF0000000000001) = .snan ∧
      (∀ v ∈ [0x00000001, 0x807FFFFF], RealFmt.isDenormal .single v = true) ∧ RealFmt.isDenormal .double 0x000FFFFFFFFFFFFF = true) ∧
    ∃ ps t, accessEa mb 2 2 .r (fpSt one 2 0x8000).freeCs = .ok ps t :=
  ⟨⟨ready_of (by decide +kernel), by decide +kernel, ok_ex (by decide +kernel), ok_ex (by decide +kernel)⟩, by decide +kernel,
   ok_ex (by decide +kernel), by decide +kernel, by decide +kernel, by decide +kernel, ok_ex (by decide +kernel)⟩

-- stores of a negative zero, an infinity and a quiet NaN
theorem witness_FpuLoadsAndStores_specials : (∀ p ∈ [(0x80000000000000000000, FClass.zero), (inf, .inf), (qnan, .qnan)],
    (readyB (st01 p.1 0) && !(st01 p.1 0).freeCs.fpu.isEmpty 0 && decide (fclass ((st01 p.1 0).freeCs.fpu.st 0) = p.2) &&
      isOk (accessEa mb 4 4 .w (st01 p.1 0).freeCs) && isOk (accessEa mb 8 8 .w (st01 p.1 0).freeCs)) = true) := by decide +kernel

/-- The FPU after a store of ST(0) has been rounded. -/
def stored (m : RealFmt) (s : State) : State :=
  let f := s.freeCs.fpu
  let r := m.round (numOf (f.st 0)) f.rc (f.cw.getLsbD 4)
  { s.freeCs with fpu := (f.raised .p r.p).withC1 r.c1 }
def storedInt (s : State) : State :=
  let f := s.freeCs.fpu
  let r := (numOf (f.st 0)).roundAt f.rc 0
  { s.freeCs with fpu := (f.raised .p r.inexact).withC1 r.up }
def storedBad (s : State) : State := { s.freeCs with fpu := s.freeCs.fpu.raised .ia true }
def intOf (v : Ext) : Int :=
  let n := numOf v
  let r := n.roundAt 0 0
  if n.neg then -Int.ofNat r.mant else Int.ofNat r.mant

-- stores: a number that is exact, the least and the first too large word, the largest packed decimal
theorem witness_FpuLoadsAndStores_stores :
    (ready (st01 twoHalf 0) ∧ (st01 twoHalf 0).freeCs.fpu.holds 0 ∧ fclass ((st01 twoHalf 0).freeCs.fpu.st 0) = .normal ∧
      (st01 twoHalf 0).freeCs.fpu.rc = 0 ∧ ∃ ps t, accessEa mb 10 8 .w (st01 twoHalf 0).freeCs = .ok ps t) ∧
    (let r := RealFmt.single.round (numOf twoHalf) 0 true
     r.o = false ∧ r.u = false ∧ ∃ ps t, accessEa mb 4 4 .w (stored .single (st01 twoHalf 0)) = .ok ps t) ∧
    (let r := RealFmt.double.round (numOf twoHalf) 0 true
     r.o = false ∧ r.u = false ∧ ∃ ps t, accessEa mb 8 8 .w (stored .double (st01 twoHalf 0)) = .ok ps t) ∧
    ((st01 0xC00E8000000000000000 0).freeCs.fpu.holds 0 ∧ intOf 0xC00E8000000000000000 = -(2 : Int) ^ (8 * 2 - 1) ∧
      ∃ ps t, accessEa mb 2 2 .w (storedInt (st01 0xC00E8000000000000000 0)) = .ok ps t) ∧
    ((st01 0x400E8000000000000000 0).freeCs.fpu.holds 0 ∧ intOf 0x400E8000000000000000 = (2 : Int) ^ (8 * 2 - 1) ∧
      (st01 0x400E8000000000000000 0).freeCs.fpu.cw.getLsbD 0 = true ∧
      ∃ ps t, accessEa mb 2 2 .w (storedBad (st01 0x400E8000000000000000 0)) = .ok ps t) ∧
    ((st01 0x403ADE0B6B3A763FFFF0 0).freeCs.fpu.holds 0 ∧ intOf 0x403ADE0B6B3A763FFFF0 = 10 ^ 18 - 1 ∧
      ∃ ps t, accessEa mb 10 8 .w (storedInt (st01 0x403ADE0B6B3A763FFFF0 0)) = .ok ps t) :=
  ⟨⟨ready_of (by decide +kernel), holds_of (by decide +kernel), by decide +kernel, by decide +kernel, ok_ex (by decide +kernel)⟩,
   ⟨by decide +kernel, by decide +kernel, ok_ex (by decide +kernel)⟩, ⟨by decide +kernel, by decide +kernel, ok_ex (by decide +kernel)⟩,
   ⟨holds_of (by decide +kernel), by decide +kernel, ok_ex (by decide +kernel)⟩,
   ⟨holds_of (by decide +kernel), by decide +kernel, by decide +kernel, ok_ex (by decide +kernel)⟩,
   holds_of (by decide +kernel), by decide +kernel, ok_ex (by decide +kernel)⟩

/-- `fsup` at the byte after a WAIT, with the free values of an image drawn. -/
def fimg : State := { fsup with eip := fsup.eip + 1, fresh := fsup.fresh + 5 }

/-- `fsup` with a pending exception. -/
def pendingEs : State := { fsup with fpu := { fsup.fpu with sw := { fsup.fpu.sw with es := true } } }
/-- `fsup` with TF set: something is recognised after the WAIT of a waiting form. -/
def traced : State := withF fsup fun f => { f with tf := true }

theorem witness_FpuControlResults : (fsup.plain ∧ fsup.cr0Em = false ∧ fsup.cr0Ts = false ∧ fsup.fpu.sw.es = false ∧ fsup.breaksAfterByte = false) ∧
    (traced.plain ∧ (traced.cr0Mp && traced.cr0Ts) = false ∧ traced.fpu.sw.es = false ∧ traced.breaksAfterByte = true ∧
      fpuWaitForms (.fstcw mb) = true) ∧
    ((∀ s ∈ [fsup, traced, pendingEs], s.pfx = Pfx.clear) ∧ pendingEs.fpu.sw.es = true) ∧
    ((∃ ps t, accessEa mb 2 2 .w { fsup with eip := fsup.eip + 1 } = .ok ps t) ∧ (fsup.envSize = 28 ∧ fsup.envAlign = 4 ∧ fsup.os32 = true) ∧
      (∃ ps t, accessEa mb 28 4 .w fimg = .ok ps t) ∧ ∃ ps t, accessEa mb 108 4 .w fimg = .ok ps t) ∧
    ((∃ ps t, accessEa mb 2 2 .r fsup = .ok ps t) ∧ (∃ ps t, accessEa mb 28 4 .r fsup = .ok ps t) ∧
      ∃ ps t, accessEa mb 108 4 .r fsup = .ok ps t) ∧
    (fsup.prot = true ∧ EnvImage fsup (0x037F + 0xFFFF * 2 ^ 64)) ∧ (fsup.cr0Mp && fsup.cr0Ts) = false :=
  ⟨⟨⟨rfl, rfl⟩, by decide +kernel, by decide +kernel, by decide +kernel, by decide +kernel⟩,
   ⟨⟨rfl, rfl⟩, by decide +kernel, by decide +kernel, by decide +kernel, rfl⟩, by decide +kernel,
   ⟨ok_ex (by decide +kernel), by decide +kernel, ok_ex (by decide +kernel), ok_ex (by decide +kernel)⟩,
   ⟨ok_ex (by decide +kernel), ok_ex (by decide +kernel), ok_ex (by decide +kernel)⟩,
   ⟨by decide +kernel, by unfold EnvImage; decide +kernel⟩, by decide +kernel⟩

/-- `fsup` with CR0. -/
def withCr0 (v : Dword) (s : State) : State := { s with cr0 := v }

theorem witness_FpuAndMmxEntry : (fsup.plain ∧ fpuWaits .fld1 = true ∧ fpuNoWait .fninit = true ∧ isMmx .emms = true) ∧
    (withCr0 0x35 fsup).cr0Em = true ∧ ((withCr0 0x3B fsup).cr0Em = false ∧ (withCr0 0x3B fsup).cr0Ts = true ∧ (withCr0 0x3B fsup).cr0Mp = true) ∧
    (pendingEs.plain ∧ pendingEs.cr0Em = false ∧ pendingEs.cr0Ts = false ∧ pendingEs.fpu.sw.es = true ∧ (pendingEs.cr0Mp && pendingEs.cr0Ts) = false) ∧
    (fpuWaitForms .finit = true ∧ ((withCr0 0x3B fsup).cr0Mp = true ∧ (withCr0 0x3B fsup).cr0Ts = true) ∧
      ∀ s ∈ [withCr0 0x35 fsup, withCr0 0x39 fsup], (s.cr0Mp && s.cr0Ts) = false ∧ s.fpu.sw.es = false ∧ s.breaksAfterByte = false ∧
        (s.cr0Em = true ∨ s.cr0Ts = true)) :=
  ⟨⟨⟨rfl, rfl⟩, rfl, rfl, rfl⟩, by decide +kernel, by decide +kernel,
   ⟨⟨rfl, rfl⟩, by decide +kernel⟩, rfl, by decide +kernel, by decide +kernel⟩

theorem witness_MmxResults : (fsup.plain ∧ fsup.mmxReady) ∧ (∃ b t, MmxSource 8 (.reg .i7) fsup b t) ∧ (∃ b t, MmxSource 8 (.mem mb) fsup b t) ∧
    (∃ b t, MmxSource 4 (.mem mb) fsup b t) ∧ (∃ l s1, locate .d (.mem mb) .r fsup = .ok l s1) ∧
    (∃ l s1, locate .d (.mem mb) .w fsup = .ok l s1) ∧ ∃ ps t, accessEa mb 8 8 .w fsup = .ok ps t :=
  ⟨⟨⟨rfl, rfl⟩, by decide +kernel, by decide +kernel, by decide +kernel⟩, ⟨_, _, rfl, rfl⟩, ⟨_, _, _, ok_val (by decide +kernel), rfl⟩,
   ⟨_, _, _, ok_val (by decide +kernel), rfl⟩, ok_ex (by decide +kernel), ok_ex (by decide +kernel), ok_ex (by decide +kernel)⟩

/-- `real` in a machine whose host maps the device at 500H. -/
def device : State := { real with map := [{ base := 0x500, size := 0x10, kind := .device }] }
/-- `sup` with DS null, `user` with alignment checked. -/
def nullDs : State := { sup with seg := { sup.seg with ds := { sup.seg.ds with valid := false } } }
def aligning : State := withCr0 0x00040031 (withF user fun f => { f with ac := true })

theorem witness_AccessChecks : nullDs.segTypeOk .ds .r = false ∧
    (real.segTypeOk .ds .w = true ∧ (real.seg.get .ds).inLimit 0xFFFF 2 = false ∧ (real.seg.get .ss).inLimit 0xFFFD 4 = false) ∧
    ((real.seg.get .ds).inLimit 0xFFFF 1 = true ∧ real.alignOn = false ∧ real.cr0Pg = false ∧ real.dr7.extractLsb' 0 8 = 0) ∧
    (aligning.segTypeOk .ds .w = true ∧ (aligning.seg.get .ds).inLimit 0x5001 2 = true ∧ aligning.alignOn = true ∧
      ((aligning.seg.get .ds).base + 0x5001#32).toNat % 2 ≠ 0) ∧
    ((aligning.seg.get .ds).base + 0x5002#32).toNat % 2 = 0 ∧ aligning.cr0Pg = false ∧ aligning.dr7.extractLsb' 0 8 = 0 ∧
    (((device.seg.get .ds).inLimit 0x50F 2 = true ∧ device.alignOn = false ∧ device.cr0Pg = false ∧ device.dr7.extractLsb' 0 8 = 0) ∧
      device.isRam 0x4FF = true ∧ device.isRam 0x50F = false ∧ device.isRam 0x510 = true) := by decide +kernel

/-- Paging with page directory 10000H: entries 1 to 4 are a large page, one with a reserved bit, a supervisor's and a table,
whose entries 1 and 2 are a supervisor's page and a user's. -/
def paged : State :=
  put 0x11004 8 0x00008007_00006003 <|
    put 0x10000 20 0x00011007_00C00083_00802087_00400087_00000000
      { sup with cr0 := 0x80000031, cr3 := 0x10000, cr4 := 0x10, tlb := [] }
def pdeOf (la : Dword) : Dword :=
  let a := (paged.cr3 &&& 0xFFFFF000#32).toNat + 4 * (la.extractLsb' 22 10).toNat
  BitVec.ofNat 32 ((paged.sampled (addrs 4 a)).entry a 4)
def pteOf (la : Dword) : Dword :=
  let b := (paged.cr3 &&& 0xFFFFF000#32).toNat + 4 * (la.extractLsb' 22 10).toNat
  let a := (pdeOf la &&& 0xFFFFF000#32).toNat + 4 * (la.extractLsb' 12 10).toNat
  BitVec.ofNat 32 (((paged.sampled (addrs 4 b)).sampled (addrs 4 a)).entry a 4)

/-- `paged` with translations cached for the first page: one of a user's page that is not dirty, one of a supervisor's. -/
def cachedPages : State :=
  { paged with tlb := [{ page := 0, shift := 12, frame := 0x8000, user := true, write := true, dirty := false, global := false },
      { page := 0, shift := 22, frame := 0x400000, user := false, write := true, dirty := true, global := true }] }

theorem witness_PageTranslation_cached : cachedPages.cr0Pg = true ∧ (cachedPages.cached 0xFFF).length = 2 ∧
    (cachedPages.cached 0x3FFFFF).length = 1 ∧ cachedPages.cached 0x400000 = [] ∧
    (∀ e ∈ cachedPages.cached 0xFFF, cachedPages.pageAllows e true false ∧ (e.user = false → ¬ cachedPages.pageAllows e false true)) := by
  unfold State.pageAllows; decide +kernel

theorem witness_PageTranslation_two_levels : (paged.cr0Pg = true ∧ paged.cr4Pae = false ∧ paged.cached 0x003FFFFF = [] ∧ paged.cr4Pse = true ∧ paged.cr0Wp = false) ∧
    (pdeOf 0x003FFFFF).getLsbD 0 = false ∧
    ((pdeOf 0x00400000).getLsbD 0 = true ∧ (pdeOf 0x00400000).getLsbD 7 = true ∧ (pdeOf 0x00400000).extractLsb' 13 9 = 0 ∧
      (pdeOf 0x00400000).getLsbD 2 = true ∧ (pdeOf 0x00400000).getLsbD 1 = true) ∧
    ((pdeOf 0x00800000).getLsbD 0 = true ∧ (pdeOf 0x00800000).getLsbD 7 = true ∧ (pdeOf 0x00800000).extractLsb' 13 9 ≠ 0) ∧
    ((pdeOf 0x00C00000).getLsbD 0 = true ∧ (pdeOf 0x00C00000).getLsbD 7 = true ∧ (pdeOf 0x00C00000).extractLsb' 13 9 = 0 ∧
      (pdeOf 0x00C00000).getLsbD 2 = false) ∧
    ((pdeOf 0x01000000).getLsbD 0 = true ∧ (pdeOf 0x01000000).getLsbD 7 = false ∧ (pteOf 0x01000000).getLsbD 0 = false) ∧
    ((pteOf 0x01001FFF).getLsbD 0 = true ∧ ((pdeOf 0x01001FFF).getLsbD 2 && (pteOf 0x01001FFF).getLsbD 2) = false) ∧
    ((pteOf 0x01002000).getLsbD 0 = true ∧ ((pdeOf 0x01002000).getLsbD 2 && (pteOf 0x01002000).getLsbD 2) = true ∧
      ((pdeOf 0x01002000).getLsbD 1 && (pteOf 0x01002000).getLsbD 1) = true) := by decide +kernel

/-- Three-level paging with the second page-directory-pointer entry absent, and page directory 10000H, whose entries 1 to 3
are one with a reserved bit, a large page and a table, whose entries 1 to 3 are one with a reserved bit, a supervisor's page
and a user's. -/
def pae : State :=
  put 0x11008 24 0x0000000000008007_0000000000006003_0000001000000001 <|
    put 0x10008 24 0x0000000000011007_0000000000400087_0000001000000001
      { sup with cr0 := 0x80000031, cr4 := 0x20, pdpte0 := 0x10001, tlb := [] }
/-- The entry of eight bytes that field `i` of a linear address selects from the structure named by the entry `up`. -/
def paeEntry (up : Qword) (la : Dword) (i : Nat) (s : State) : Qword × State :=
  let a := (up.extractLsb' 12 24 ++ la.extractLsb' i 9 ++ 0#3).toNat
  let t := s.sampled (addrs 8 a)
  (BitVec.ofNat 64 (t.entry a 8), t)
def paePde (la : Dword) : Qword := (paeEntry pae.pdpte0 la 21 pae).1
def paePte (la : Dword) : Qword := (paeEntry (paePde la) la 12 (paeEntry pae.pdpte0 la 21 pae).2).1

theorem witness_PageTranslation_three_levels : (pae.cr0Pg = true ∧ pae.cr4Pae = true ∧ pae.cr0Wp = false ∧ pae.cached 0 = []) ∧
    (((0x3FFFFFFF#32).extractLsb' 30 2).toNat = 0 ∧ ((0x40000000#32).extractLsb' 30 2).toNat = 1 ∧ pae.pdpte0.getLsbD 0 = true ∧
      pae.pdpte1.getLsbD 0 = false) ∧
    (paePde 0x001FFFFF).getLsbD 0 = false ∧
    ((paePde 0x00200000).getLsbD 0 = true ∧ (paePde 0x00200000).extractLsb' 36 28 ≠ 0) ∧
    ((paePde 0x00400000).getLsbD 0 = true ∧ (paePde 0x00400000).extractLsb' 36 28 = 0 ∧ (paePde 0x00400000).getLsbD 7 = true ∧
      (paePde 0x00400000).getLsbD 2 = true ∧ (paePde 0x00400000).getLsbD 1 = true) ∧
    ((paePde 0x00600000).getLsbD 0 = true ∧ (paePde 0x00600000).extractLsb' 36 28 = 0 ∧ (paePde 0x00600000).getLsbD 7 = false ∧
      (paePte 0x00600FFF).getLsbD 0 = false) ∧
    ((paePte 0x00601000).getLsbD 0 = true ∧ (paePte 0x00601000).extractLsb' 36 28 ≠ 0) ∧
    ((paePte 0x00602000).getLsbD 0 = true ∧ (paePte 0x00602000).extractLsb' 36 28 = 0 ∧ (paePte 0x00602000).getLsbD 2 = false) ∧
    ((paePte 0x00603FFF).getLsbD 0 = true ∧ (paePte 0x00603FFF).extractLsb' 36 28 = 0 ∧
      ((paePde 0x00603FFF).getLsbD 2 && (paePte 0x00603FFF).getLsbD 2) = true ∧
      ((paePde 0x00603FFF).getLsbD 1 && (paePte 0x00603FFF).getLsbD 1) = true) := by decide +kernel

/-- `sup` with a segment override, both sizes and a repeat prefix read. -/
def prefixed : State := { sup with pfx := { sup.pfx with seg := some .fs, opsz := true, adsz := true, rep := .rep } }

theorem witness_Prefixes : (sup.pfx.seg = none ∧ sup.pfx.opsz = false ∧ sup.pfx.adsz = false ∧ sup.plain) ∧
    (prefixed.pfx.seg ≠ none ∧ prefixed.pfx.opsz = true ∧ prefixed.pfx.adsz = true ∧ ¬ prefixed.plain) ∧
    (isPrefix .cli = false ∧ takesLock .cli = false ∧ (locked sup).pfx.lock = true) ∧
    (alwaysInvalid .cli = false ∧ takesRep prefixed.pfx.rep .cli = false ∧ prefixed.pfx.lock = false) :=
  ⟨⟨by decide +kernel, by decide +kernel, by decide +kernel, rfl, rfl⟩,
   ⟨by decide +kernel, by decide +kernel, by decide +kernel, fun h => absurd h.2 (by decide +kernel)⟩, by decide +kernel, by decide +kernel⟩

theorem dec_ex {r : Option (Instr × List Byte)} {i : Instr} (h : (r.map Prod.fst == some i) = true) : ∃ rest, r = some (i, rest) := by
  cases r with
  | none => cases h
  | some p => obtain ⟨j, rest⟩ := p; exact ⟨rest, by have : j = i := by simpa using h
                                                     rw [this]⟩

/-- `sup` at `PUSH ECX` (a prefix before it), and at the prefix itself. -/
def atPush : State := put 0x2000 1 0x51 sup
def atPrefix : State := put 0x2000 2 0x5166 sup

theorem witness_StepRunsDecoded : (atPush.deferred = none ∧ atPush.activity = .running ∧ atPush.begin.pendingEvent = none ∧ atPush.begin.codeHits = 0 ∧
      isPrefix (.push (.reg .ecx)) = false ∧ ∃ rest, decode atPush.begin.ctx atPush.begin.codeAhead = some (.push (.reg .ecx), rest)) ∧
    (atPrefix.deferred = none ∧ atPrefix.activity = .running ∧ atPrefix.begin.pendingEvent = none ∧ atPrefix.begin.codeHits = 0 ∧ isPrefix .opSize = true ∧
      (∃ rest, decode atPrefix.begin.ctx atPrefix.begin.codeAhead = some (.opSize, rest)) ∧
      exec .opSize atPrefix.begin = .next { atPrefix.begin with pfx := { atPrefix.begin.pfx with opsz := true } }) ∧
    ((∃ rest, decode prefixed.ctx [0x51] = some (.push (.reg .ecx), rest)) ∧ ∃ rest, decode sup.ctx [0x66, 0x51] = some (.opSize, rest)) ∧
    (sup.interrupted = false ∧ sup.flags.tf = false ∧ sup.dbgHits = 0) ∧
    ((withF sup fun f => { f with tf := true }).flags.tf = true ∧ { sup with dbgHits := 8 }.dbgHits ≠ 0 ∧ { sup with shadow := .movSs }.shadow = .movSs) :=
  ⟨⟨rfl, by decide +kernel, by decide +kernel, by decide +kernel, rfl, dec_ex (by decide +kernel)⟩,
   ⟨rfl, by decide +kernel, by decide +kernel, by decide +kernel, rfl, dec_ex (by decide +kernel), rfl⟩,
   ⟨dec_ex (by decide +kernel), dec_ex (by decide +kernel)⟩, by decide +kernel, by decide +kernel⟩

/-- The exception delivery ended in, where it did. -/
def failed (r : EStateM.Result Stop State Unit) : Bool :=
  match r with
  | .error (.exc _) _ => true
  | _ => false
def failedWith (r : EStateM.Result Stop State Unit) : Exc :=
  match r with
  | .error (.exc e) _ => e
  | _ => .ud
theorem failed_ex {r : EStateM.Result Stop State Unit} (h : failed r = true) : r = .error (.exc (failedWith r)) (post r) := by
  cases r with
  | ok a s => cases h
  | error e s => cases e with
    | exc e => rfl
    | _ => cases h

/-- Delivery of an event that fails, with the classes of both. -/
def failsAs (ev : Event) (s : State) (a b : EventClass) : Prop :=
  ∃ e t, deliver ev { s with adLog := [] } = .error (.exc e) t ∧ ev.cls = a ∧ e.event.cls = b
def failsAsB (ev : Event) (s : State) (a b : EventClass) : Bool :=
  failed (deliver ev { s with adLog := [] }) && decide (ev.cls = a) && decide ((failedWith (deliver ev { s with adLog := [] })).event.cls = b)
theorem failsAs_of {ev s a b} (h : failsAsB ev s a b = true) : failsAs ev s a b := by
  simp only [failsAsB, Bool.and_eq_true, decide_eq_true_eq] at h
  exact ⟨_, _, failed_ex h.1.1, h.1.2, h.2⟩

/-- `sup` whose IDT lies on a page that is absent. -/
def absentIdt : State := { paged with idtr := { paged.idtr with base := 0x1000 } }
def doubleFault : Event := { vector := 8, kind := .exception false, err := some 0 }
def pageFault : Exc := .pf 0x1234 0

/-- An event of each class whose delivery fails, with both classes. -/
def failures : List (Event × State × EventClass × EventClass) :=
  [(soft 0x80, sup, .benign, .contributory), (Exc.event (.gp 0), sup, .contributory, .contributory),
   (pageFault.event, sup, .pageFault, .contributory), (doubleFault, sup, .doubleFault, .contributory),
   (Exc.event (.gp 0), absentIdt, .contributory, .pageFault), (pageFault.event, absentIdt, .pageFault, .pageFault),
   (doubleFault, absentIdt, .doubleFault, .pageFault)]

theorem witness_BoundaryEvents_faults : ∀ p ∈ failures, failsAs p.1 p.2.1 p.2.2.1 p.2.2.2 := by
  have h : (failures.all fun p => failsAsB p.1 p.2.1 p.2.2.1 p.2.2.2) = true := by decide +kernel
  exact fun p hp => failsAs_of (List.all_eq_true.1 h p hp)

theorem witness_BoundaryEvents : ({ sup with deferred := some doubleFault } : State).deferred = some doubleFault ∧ sup.deferred = none ∧
    (let s := { sup with nmiPending := true }
     s.nmiPending = true ∧ s.nmiBlocked = false ∧ s.shadow ≠ .movSs) ∧
    (let s := withF { sup with intrPending := some 0xFF } fun f => { f with if_ := true }
     s.takesNmi = false ∧ s.intrPending = some 0xFF ∧ s.flags.if_ = true ∧ s.shadow = .none ∧ s.activity ≠ .shutdown) ∧
    (let s := { sup with activity := .halted, intrPending := some 0x20 }
     s.takesNmi = false ∧ s.activity = .halted ∧ s.flags.if_ = false) ∧
    { sup with activity := .shutdown }.takesNmi = false := by decide +kernel

/-- `atPush` at each level, and what its step gives. -/
def atPushUser : State := put 0x2000 1 0x51 user
theorem next_ex {o : Host.Outcome State Fault Refusal} (h : next o (fun _ => true) = true) : ∃ t, o = .next t := by
  cases o with
  | next t => exact ⟨t, rfl⟩
  | _ => cases h

theorem witness_StepKeepsLegal : atPush.Legal ∧ ∃ t, step atPush = .next t :=
  ⟨⟨by decide +kernel, trivial, by decide +kernel, by decide +kernel, by decide +kernel, by decide +kernel, by decide +kernel, by decide +kernel⟩,
   next_ex (by decide +kernel)⟩

theorem witness_UserStepKeepsSystemRegisters : atPushUser.curPl ≠ 0 ∧ (∃ t, step atPushUser = .next t) ∧ virt.curPl ≠ 0 :=
  ⟨by decide +kernel, next_ex (by decide +kernel), by decide +kernel⟩

theorem witness_DecodeOfEncode : Instr.wf c32 (.add (.rmImm8 (.mem mb) 0x80)) = true ∧ Instr.wf c16 .wait = true := by decide +kernel

end Sys2Proof.Tests
end

section
/-! The encoding: the round trip of every instruction from its per-instruction lemmas, and the sample words. -/

namespace Sys2Proof.Laws.RoundTrip

/-- The round trip holds of every instruction: the case split along the constructors, each case the lemma about it. -/
theorem statement_of_instr : ∀ i : Instr, Statement i
  | .reserved x => reserved x | .aad x => aad x | .aam x => aam x | .adc x => adc x | .add x => add x
  | .and_ x => and_ x | .arpl x y => arpl x y | .bound x y => bound x y | .bsf x y => bsf x y | .bsr x y => bsr x y
  | .bswap x => bswap x | .bt x => bt x | .btc x => btc x | .btr x => btr x | .bts x => bts x | .call x => call x
  | .cmovo x y => cmovo x y | .cmovno x y => cmovno x y | .cmovb x y => cmovb x y | .cmovae x y => cmovae x y
  | .cmove x y => cmove x y | .cmovne x y => cmovne x y | .cmovbe x y => cmovbe x y | .cmova x y => cmova x y
  | .cmovs x y => cmovs x y | .cmovns x y => cmovns x y | .cmovp x y => cmovp x y | .cmovnp x y => cmovnp x y
  | .cmovl x y => cmovl x y | .cmovge x y => cmovge x y | .cmovle x y => cmovle x y | .cmovg x y => cmovg x y
  | .cmp x => cmp x | .cmps x => cmps x | .cmpxchg x y z => cmpxchg x y z | .cmpxchg8b x => cmpxchg8b x
  | .dec x => dec x | .div x y => div x y | .enter x y => enter x y | .fadd x => fadd x | .faddp x => faddp x
  | .fiadd x => fiadd x | .fbld x => fbld x | .fbstp x => fbstp x | .fcmovb x => fcmovb x | .fcmove x => fcmove x
  | .fcmovbe x => fcmovbe x | .fcmovu x => fcmovu x | .fcmovnb x => fcmovnb x | .fcmovne x => fcmovne x
  | .fcmovnbe x => fcmovnbe x | .fcmovnu x => fcmovnu x | .fcom x => fcom x | .fcomp x => fcomp x
  | .fcomi x => fcomi x | .fcomip x => fcomip x | .fucomi x => fucomi x | .fucomip x => fucomip x | .fdiv x => fdiv x
  | .fdivp x => fdivp x | .fidiv x => fidiv x | .fdivr x => fdivr x | .fdivrp x => fdivrp x | .fidivr x => fidivr x
  | .ffree x => ffree x | .ficom x => ficom x | .ficomp x => ficomp x | .fild x => fild x | .fist x => fist x
  | .fistp x => fistp x | .fld x => fld x | .fldcw x => fldcw x | .fldenv x => fldenv x | .fmul x => fmul x
  | .fmulp x => fmulp x | .fimul x => fimul x | .frstor x => frstor x | .fsave x => fsave x | .fnsave x => fnsave x
  | .fst x => fst x | .fstp x => fstp x | .fstcw x => fstcw x | .fnstcw x => fnstcw x | .fstenv x => fstenv x
  | .fnstenv x => fnstenv x | .fstsw x => fstsw x | .fnstsw x => fnstsw x | .fsub x => fsub x | .fsubp x => fsubp x
  | .fisub x => fisub x | .fsubr x => fsubr x | .fsubrp x => fsubrp x | .fisubr x => fisubr x | .fucom x => fucom x
  | .fucomp x => fucomp x | .fxch x => fxch x | .idiv x y => idiv x y | .imul x => imul x | .inp x y => inp x y
  | .inc x => inc x | .ins x => ins x | .intN x => intN x | .invlpg x => invlpg x | .jo x => jo x | .jno x => jno x
  | .jb x => jb x | .jae x => jae x | .je x => je x | .jne x => jne x | .jbe x => jbe x | .ja x => ja x
  | .js x => js x | .jns x => jns x | .jp x => jp x | .jnp x => jnp x | .jl x => jl x | .jge x => jge x
  | .jle x => jle x | .jg x => jg x | .jcxz x => jcxz x | .jecxz x => jecxz x | .jmp x => jmp x | .lar x y => lar x y
  | .lds x y => lds x y | .les x y => les x y | .lss x y => lss x y | .lfs x y => lfs x y | .lgs x y => lgs x y
  | .lea x y => lea x y | .lgdt x => lgdt x | .lidt x => lidt x | .lldt x => lldt x | .lmsw x => lmsw x
  | .lods x => lods x | .loop x => loop x | .loope x => loope x | .loopne x => loopne x | .lsl x y => lsl x y
  | .ltr x => ltr x | .mov x => mov x | .movSreg x => movSreg x | .movCr x => movCr x | .movDr x => movDr x
  | .movd x => movd x | .movq x => movq x | .movs x => movs x | .movsx x y z => movsx x y z
  | .movzx x y z => movzx x y z | .mul x y => mul x y | .neg x y => neg x y | .not_ x y => not_ x y | .or_ x => or_ x
  | .outp x y => outp x y | .outs x => outs x | .packsswb x y => packsswb x y | .packssdw x y => packssdw x y
  | .packuswb x y => packuswb x y | .paddb x y => paddb x y | .paddw x y => paddw x y | .paddd x y => paddd x y
  | .paddsb x y => paddsb x y | .paddsw x y => paddsw x y | .paddusb x y => paddusb x y | .paddusw x y => paddusw x y
  | .pand x y => pand x y | .pandn x y => pandn x y | .pcmpeqb x y => pcmpeqb x y | .pcmpeqw x y => pcmpeqw x y
  | .pcmpeqd x y => pcmpeqd x y | .pcmpgtb x y => pcmpgtb x y | .pcmpgtw x y => pcmpgtw x y
  | .pcmpgtd x y => pcmpgtd x y | .pmaddwd x y => pmaddwd x y | .pmulhw x y => pmulhw x y | .pmullw x y => pmullw x y
  | .por x y => por x y | .psllw x => psllw x | .pslld x => pslld x | .psllq x => psllq x | .psraw x => psraw x
  | .psrad x => psrad x | .psrlw x => psrlw x | .psrld x => psrld x | .psrlq x => psrlq x | .psubb x y => psubb x y
  | .psubw x y => psubw x y | .psubd x y => psubd x y | .psubsb x y => psubsb x y | .psubsw x y => psubsw x y
  | .psubusb x y => psubusb x y | .psubusw x y => psubusw x y | .punpckhbw x y => punpckhbw x y
  | .punpckhwd x y => punpckhwd x y | .punpckhdq x y => punpckhdq x y | .punpcklbw x y => punpcklbw x y
  | .punpcklwd x y => punpcklwd x y | .punpckldq x y => punpckldq x y | .pxor x y => pxor x y | .pop x => pop x
  | .push x => push x | .rol x => rol x | .ror x => ror x | .rcl x => rcl x | .rcr x => rcr x | .ret x => ret x
  | .salShl x => salShl x | .shr x => shr x | .sar x => sar x | .sbb x => sbb x | .scas x => scas x
  | .seto x => seto x | .setno x => setno x | .setb x => setb x | .setae x => setae x | .sete x => sete x
  | .setne x => setne x | .setbe x => setbe x | .seta x => seta x | .sets x => sets x | .setns x => setns x
  | .setp x => setp x | .setnp x => setnp x | .setl x => setl x | .setge x => setge x | .setle x => setle x
  | .setg x => setg x | .sgdt x => sgdt x | .sidt x => sidt x | .shld x => shld x | .shrd x => shrd x
  | .sldt x => sldt x | .smsw x => smsw x | .stos x => stos x | .str x => str x | .sub x => sub x | .test x => test x
  | .verr x => verr x | .verw x => verw x | .xadd x y z => xadd x y z | .xchg x => xchg x | .xor_ x => xor_ x
  | .segCs => segCs | .segSs => segSs | .segDs => segDs | .segEs => segEs | .segFs => segFs | .segGs => segGs
  | .opSize => opSize | .adSize => adSize | .lock => lock | .rep => rep | .repne => repne
  | .invalidOpcode => invalidOpcode | .aaa => aaa | .aas => aas | .cbw => cbw | .cwde => cwde | .clc => clc
  | .cld => cld | .cli => cli | .clts => clts | .cmc => cmc | .cpuid => cpuid | .cwd => cwd | .cdq => cdq
  | .daa => daa | .das => das | .emms => emms | .f2xm1 => f2xm1 | .fabs => fabs | .fchs => fchs | .fclex => fclex
  | .fnclex => fnclex | .fcompp => fcompp | .fcos => fcos | .fdecstp => fdecstp | .fincstp => fincstp
  | .finit => finit | .fninit => fninit | .fld1 => fld1 | .fldl2t => fldl2t | .fldl2e => fldl2e | .fldpi => fldpi
  | .fldlg2 => fldlg2 | .fldln2 => fldln2 | .fldz => fldz | .fnop => fnop | .fpatan => fpatan | .fprem => fprem
  | .fprem1 => fprem1 | .fptan => fptan | .frndint => frndint | .fscale => fscale | .fsin => fsin
  | .fsincos => fsincos | .fsqrt => fsqrt | .ftst => ftst | .fucompp => fucompp | .fxam => fxam | .fxtract => fxtract
  | .fyl2x => fyl2x | .fyl2xp1 => fyl2xp1 | .hlt => hlt | .int3 => int3 | .into => into | .invd => invd
  | .iret => iret | .iretd => iretd | .lahf => lahf | .leave => leave | .nop => nop | .popa => popa | .popad => popad
  | .popf => popf | .popfd => popfd | .pusha => pusha | .pushad => pushad | .pushf => pushf | .pushfd => pushfd
  | .rdmsr => rdmsr | .rdpmc => rdpmc | .rdtsc => rdtsc | .rsm => rsm | .sahf => sahf | .stc => stc | .std => std
  | .sti => sti | .ud2 => ud2 | .wait => wait | .wbinvd => wbinvd | .wrmsr => wrmsr | .xlat => xlat

end Sys2Proof.Laws.RoundTrip

namespace Sys2Proof.Machine

/-- Settles O59, from the round trip of every instruction (`RoundTrip.statement_of_instr`). -/
theorem decodeOfEncode : Obligations.DecodeOfEncode := Laws.RoundTrip.statement_of_instr

/-- Settles O60: the decoder run on each of the eight words. -/
theorem sampleWordsDecode : Obligations.SampleWordsDecode := ⟨rfl, rfl, rfl, rfl, rfl, rfl, rfl, rfl⟩

end Sys2Proof.Machine
end

section
/-! Prefixes: latching, and the instructions that do not take the prefixes latched. -/

namespace Sys2Proof.Machine

/-! ## Latching -/

theorem latch_unused {s : State} {b : Bool} {p : Pfx} (h : b = false) : latch b p s = .next { s with pfx := p } := by
  simp [latch, h]
theorem latch_used {s : State} {b : Bool} {p : Pfx} (h : b = true) : latch b p s = .refused .redundantPrefix := by
  simp [latch, h]

theorem exec_segPrefix {p : Instr × SReg} (hp : p ∈ segPrefixes) (s : State) : exec p.1 s = latchSeg p.2 s := by
  simp only [segPrefixes, List.mem_cons, List.not_mem_nil, or_false] at hp
  rcases hp with rfl | rfl | rfl | rfl | rfl | rfl <;> rfl

theorem group1_eq_false_iff (s : State) : s.pfx.group1 = false ↔ s.plain := by
  simp [Pfx.group1, State.plain]

theorem group1_eq_true_iff (s : State) : s.pfx.group1 = true ↔ ¬ s.plain := by
  rw [← group1_eq_false_iff, Bool.not_eq_false]

/-! ## LOCK and repeat prefixes that do not fit -/

theorem rmLockable_eq_isMem (d : Rm) : rmLockable d = isMem d := by cases d <;> rfl
theorem aluLockable_eq_aluToMem (f : AluForm) : aluLockable f = aluToMem f := by
  cases f <;> simp only [aluLockable, aluToMem, rmLockable_eq_isMem]
theorem incLockable_eq_incToMem (f : IncForm) : incLockable f = incToMem f := by
  cases f <;> simp only [incLockable, incToMem, rmLockable_eq_isMem]
theorem btLockable_eq_btToMem (f : BtForm) : btLockable f = btToMem f := by
  cases f <;> simp only [btLockable, btToMem, rmLockable_eq_isMem]
theorem xchgLockable_eq_xchgToMem (f : XchgForm) : xchgLockable f = xchgToMem f := by
  cases f <;> simp only [xchgLockable, xchgToMem, rmLockable_eq_isMem]

theorem never_allows (r : Rep) : RepUse.never.allows r = decide (r = .none) := by cases r <;> rfl
theorem repOnly_allows (r : Rep) : RepUse.repOnly.allows r = decide (r ≠ .repne) := by cases r <;> rfl
theorem both_allows (r : Rep) : RepUse.both.allows r = true := by cases r <;> rfl

/-- An outcome in `s` is #UD where LOCK has been read and is not taken, and without LOCK the refusal where REP or REPNE has
been read and is not taken (30_encoding R220, R221). -/
structure StopsUnfit (lockable : Bool) (takes : Rep → Bool) (s : State) (o : Host.Outcome State Fault Refusal) : Prop where
  lock : lockable = false → s.pfx.lock = true → o = takeExc .ud s
  rep : takes s.pfx.rep = false → s.pfx.lock = false → o = .refused .repUndefined

section
variable (m : M Unit) (s : State)

theorem stopsUnfit_runWith {lockable l : Bool} {use : RepUse} {takes : Rep → Bool} (hl : lockable = l)
    (hr : ∀ r, use.allows r = takes r) : StopsUnfit l takes s (runWith lockable use m s) where
  lock hn hs := by simp [runWith, hl, hn, hs]
  rep hn hs := by simp [runWith, hr, hn, hs]

theorem stopsUnfit_lockable {lockable l : Bool} (hl : lockable = l) :
    StopsUnfit l (fun r => decide (r = .none)) s (runWith lockable .never m s) := stopsUnfit_runWith m s hl never_allows

theorem stopsUnfit_run : StopsUnfit false (fun r => decide (r = .none)) s (run m s) := stopsUnfit_lockable m s rfl

theorem stopsUnfit_repOnly : StopsUnfit false (fun r => decide (r ≠ .repne)) s (runWith false .repOnly m s) :=
  stopsUnfit_runWith m s rfl repOnly_allows

theorem stopsUnfit_both : StopsUnfit false (fun _ => true) s (runWith false .both m s) :=
  stopsUnfit_runWith m s rfl both_allows

/-- Prefixes before a wait form belong to its WAIT, which takes none. -/
theorem stopsUnfit_runWaiting : StopsUnfit false (fun r => decide (r = .none)) s (runWaiting m s) where
  lock _ hs := runWith_locked_ud m hs
  rep hn hs := by
    have hw : runWaiting m s = run wait s := by simp [runWaiting, of_decide_eq_false hn]
    rw [hw]
    exact run_repRefused wait hn hs

end

/-- The case split of the instructions by how their meaning is run: which destinations LOCK may precede, which repetitions
are defined; all others take neither. -/
theorem stopsUnfit_exec (s : State) {i : Instr} (hp : isPrefix i = false) (hv : alwaysInvalid i = false) :
    StopsUnfit (takesLock i) (takesRep · i) s (exec i s) := by
  cases i with
  | segCs | segSs | segDs | segEs | segFs | segGs | opSize | adSize | lock | rep | repne => cases hp
  | reserved | invalidOpcode | ud2 | rsm => cases hv
  | add f | adc f | sub f | sbb f | and_ f | or_ f | xor_ f =>
    exact stopsUnfit_lockable _ s (aluLockable_eq_aluToMem f)
  | inc f | dec f => exact stopsUnfit_lockable _ s (incLockable_eq_incToMem f)
  | btc f | btr f | bts f => exact stopsUnfit_lockable _ s (btLockable_eq_btToMem f)
  | xchg f => exact stopsUnfit_lockable _ s (xchgLockable_eq_xchgToMem f)
  | neg _ d | not_ _ d | xadd _ d _ | cmpxchg _ d _ | cmpxchg8b d =>
    exact stopsUnfit_lockable _ s (rmLockable_eq_isMem d)
  | movs | lods | stos | ins | outs => exact stopsUnfit_repOnly _ s
  | cmps | scas => exact stopsUnfit_both _ s
  | finit | fclex | fstcw | fstsw | fstenv | fsave => exact stopsUnfit_runWaiting _ s
  | _ => exact stopsUnfit_run _ s

theorem exec_alwaysInvalid {i : Instr} (hv : alwaysInvalid i = true) (s : State) : exec i s = takeExc .ud s := by
  unfold alwaysInvalid at hv
  split at hv
  case h_5 => cases hv
  all_goals rfl

/-- An encoding that is #UD anyway is #UD after LOCK too. -/
theorem exec_locked_ud {s : State} {i : Instr} (hp : isPrefix i = false) (hl : takesLock i = false)
    (hs : s.pfx.lock = true) : exec i s = takeExc .ud s := by
  cases hv : alwaysInvalid i with
  | false => exact (stopsUnfit_exec s hp hv).lock hl hs
  | true => exact exec_alwaysInvalid hv s

/-- Settles O52: latching, group by group, and the prefixes that do not fit (`exec_locked_ud`, `stopsUnfit_exec`). -/
theorem prefixes : Obligations.Prefixes := by
  refine ⟨fun s p hp => ?segment,
    fun s => ⟨latch_unused, latch_used, latch_unused, latch_used, fun hs => ?group1, fun hs i hi => ?group1Again⟩,
    fun s i hp hl hs => exec_locked_ud hp hl hs, fun s i hp hv hr hs => (stopsUnfit_exec s hp hv).rep hr hs⟩
  case segment =>
    rw [exec_segPrefix hp]
    exact ⟨fun h => latch_unused (by simp [h]), fun h => latch_used (Option.isSome_iff_ne_none.2 h)⟩
  case group1 =>
    have hg := (group1_eq_false_iff s).2 hs
    exact ⟨latch_unused hg, latch_unused hg, latch_unused hg⟩
  case group1Again =>
    have hg := (group1_eq_true_iff s).2 hs
    simp only [List.mem_cons, List.not_mem_nil, or_false] at hi
    rcases hi with rfl | rfl | rfl <;> exact latch_used hg

end Sys2Proof.Machine
end

section
/-! BOUND, the instructions of the wrong mode or form, and the selector tests (40_int R237, R238; 45_int R478, R488;
49_int R658). -/

namespace Sys2Proof.Machine

/-! ## BOUND -/

/-- BOUND makes two reads, the second from where the first has left the machine, and then compares. -/
theorem boundBody_run {r a ps qs} {s s1 s2 : State}
    (hlo : access (s.eaSeg a) (s.gpr.eaOff a) s.osz.bytes s.osz.bytes .r s = .ok ps s1)
    (hhi : access (s.eaSeg a) (s.wrapA (s.gpr.eaOff a + BitVec.ofNat 32 s.osz.bytes)) s.osz.bytes s.osz.bytes .r s1 =
      .ok qs s2) :
    boundBody r (.mem a) s =
      if (BitVec.ofNat s.osz.bits (s1.at ps)).toInt ≤ (s.reg s.osz r).toInt ∧
          (s.reg s.osz r).toInt ≤ (BitVec.ofNat s.osz.bits (s2.at qs)).toInt + s.osz.bytes then .ok () s2
      else .error (.exc .br) s2 := by
  simp only [boundBody, needMem, M.bind_run, M.pure_run, M.get_run, readSeg_run hlo, readSeg_run hhi, raiseIf_run,
    Bool.or_eq_true, decide_eq_true_eq]
  have hslack : Config.boundSlack s.osz.bytes = s.osz.bytes := rfl
  generalize (s.reg s.osz r).toInt = i
  by_cases hin : (BitVec.ofNat s.osz.bits (s1.at ps)).toInt ≤ i ∧
      i ≤ (BitVec.ofNat s.osz.bits (s2.at qs)).toInt + s.osz.bytes
  · rw [if_pos hin, if_neg (by omega)]
  · rw [if_neg hin, if_pos (by omega)]

/-- Settles O18: the two outcomes of `boundBody_run`, run as an instruction. -/
theorem boundResults : Obligations.BoundResults := by
  intro s r a ps s1 qs s2 hp hlo hhi
  have hrun := boundBody_run (r := r) hlo hhi
  dsimp only
  split
  case isTrue hin => rw [if_pos hin] at hrun; exact run_ok hp hrun
  case isFalse hout => rw [if_neg hout] at hrun; exact run_exc hp hrun

/-! ## #UD by mode or form -/

/-- An error ends a computation whatever follows it. -/
theorem M.bind_run_error {α β : Type} {m : M α} {f : α → M β} {s t : State} {e : Stop} (h : m s = .error e t) :
    (m >>= f) s = .error e t := by
  rw [M.bind_run, h]

/-- A meaning that begins with the check for protected mode is #UD in the other modes (60_exceptions R732). -/
theorem run_protOnly_ud {s : State} {f : Unit → M Unit} (hp : s.plain) (h : s.prot = false) :
    run (protOnly >>= f) s = takeExc .ud (s.rollback s) :=
  run_exc hp (M.bind_run_error (prot_err h))

/-- A computation that begins by asking for a memory operand stops with #UD where it is given a register (30_encoding
R217). -/
theorem needMem_reg_error {β : Type} (r : Reg) (f : Ea → M β) (s : State) :
    (needMem (.reg r) >>= f) s = .error (.exc .ud) s := M.bind_run_error rfl

theorem run_needMem_ud {s : State} {r : Reg} {f : Ea → M Unit} (hp : s.plain) :
    run (needMem (.reg r) >>= f) s = takeExc .ud (s.rollback s) := run_exc hp (needMem_reg_error r f s)

/-- LGDT and LIDT ask for the memory operand inside `readTable`. -/
theorem run_readTable_ud {s : State} {r : Reg} {f : TableReg → M Unit} (hp : s.plain) :
    run (readTable (.reg r) >>= f) s = takeExc .ud (s.rollback s) :=
  run_exc hp (M.bind_run_error (needMem_reg_error r _ s))

theorem movCr_missing {n : Idx8} {s : State} (h : s.controlReg n = none) (r : Reg) :
    movCr (.fromSys r n) s = .error (.exc .ud) s ∧ movCr (.toSys n r) s = .error (.exc .ud) s :=
  ⟨by simp [movCr, h], by simp [movCr, h]⟩

/-- Settles O34: each meaning begins with the check that fails (`run_protOnly_ud`, `run_needMem_ud`, `movCr_missing`). -/
theorem wrongModeOrForm : Obligations.WrongModeOrForm := by
  intro s hp
  refine ⟨fun hm m r => ?mode, fun r d => ?form, fun n r hn => ?missing⟩
  case mode =>
    have ud (f : Unit → M Unit) : run (protOnly >>= f) s = takeExc .ud (s.rollback s) := run_protOnly_ud hp hm
    simp only [List.forall_mem_cons]
    exact ⟨ud _, ud _, ud _, ud _, ud _, ud _, ud _, ud _, ud _, List.forall_mem_nil _⟩
  case form =>
    have ud (f : Ea → M Unit) : run (needMem (.reg r) >>= f) s = takeExc .ud (s.rollback s) := run_needMem_ud hp
    have table (f : TableReg → M Unit) : run (readTable (.reg r) >>= f) s = takeExc .ud (s.rollback s) :=
      run_readTable_ud hp
    simp only [List.forall_mem_cons]
    exact ⟨ud _, ud _, ud _, ud _, ud _, ud _, ud _, ud _, table _, table _, ud _, ud _, ud _, ud _, ud _,
      List.forall_mem_nil _⟩
  case missing =>
    have hnone : s.controlReg n = none := by rcases hn with rfl | rfl | rfl | rfl <;> rfl
    obtain ⟨hfrom, hto⟩ := movCr_missing hnone r
    exact ⟨run_exc hp hfrom, run_exc hp hto⟩

/-! ## The selector tests -/

@[simp] theorem setZf_run (b : Bool) (s : State) : setZf b s = .ok () (s.withZf b) := rfl

section
variable {sel : Word} {m : Rm} {s s1 t : State}

/-- What a test finds leaves the operand size as it was before the selector was read. -/
theorem TestFinds.osz {ok d} (hs : Still s s1) (h : TestFinds sel ok s1 d t) : t.osz = s.osz := by
  obtain ⟨-, hread, -⟩ := h
  exact (hs.trans (readDesc_still hread)).seen.osz

theorem lar_fails {r} (hm : s.prot = true) (hsel : readWord m s = .ok sel s1) (h : TestFails sel larOk s1 t) :
    lar r m s = .ok () (t.withZf false) := by
  simp only [lar, M.bind_run, prot_run hm, hsel, testDesc_fails h, setZf_run]

theorem lsl_fails {r} (hm : s.prot = true) (hsel : readWord m s = .ok sel s1) (h : TestFails sel lslOk s1 t) :
    lsl r m s = .ok () (t.withZf false) := by
  simp only [lsl, M.bind_run, prot_run hm, hsel, testDesc_fails h, setZf_run]

theorem lar_finds {r d} (hm : s.prot = true) (hsel : readWord m s = .ok sel s1) (h : TestFinds sel larOk s1 d t) :
    lar r m s = .ok () (({ t with fresh := t.fresh + 1 }.setReg t.osz r
      (((d.raw.extractLsb' 32 32 &&& 0x00F0FF00#32) ||| (Config.freeDword t.fresh &&& 0x000F0000#32)).setWidth
        t.osz.bits)).withZf true) := by
  simp only [lar, M.bind_run, prot_run hm, hsel, testDesc_finds h, M.get_run, freeDword_run, setReg_run, setZf_run]

theorem lsl_finds {r d} (hm : s.prot = true) (hsel : readWord m s = .ok sel s1) (h : TestFinds sel lslOk s1 d t) :
    lsl r m s = .ok () ((t.setReg t.osz r ((d.seg sel).limit.setWidth t.osz.bits)).withZf true) := by
  simp only [lsl, M.bind_run, prot_run hm, hsel, testDesc_finds h, M.get_run, setReg_run, setZf_run]

theorem verify_fails {ok} (hm : s.prot = true) (hsel : readWord m s = .ok sel s1)
    (h : TestFails sel (fun d => d.s && ok d) s1 t) : verify ok m s = .ok () (t.withZf false) := by
  simp only [verify, M.bind_run, prot_run hm, hsel, testDesc_fails h, setZf_run, Option.isSome_none]

theorem verify_finds {ok d} (hm : s.prot = true) (hsel : readWord m s = .ok sel s1)
    (h : TestFinds sel (fun d => d.s && ok d) s1 d t) : verify ok m s = .ok () (t.withZf true) := by
  simp only [verify, M.bind_run, prot_run hm, hsel, testDesc_finds h, setZf_run, Option.isSome_some]

end

/-! ## ARPL -/

/-- A selector given the RPL of another has its two low bits. -/
theorem withRpl_rpl (d n : Word) : withRpl d (rpl n) = (d &&& 0xFFFC#16) ||| (n &&& 3#16) := by
  have hlow : BitVec.ofNat 16 (rpl n % 4) = n &&& 3#16 := by
    apply BitVec.eq_of_toNat_eq
    have hand : n.toNat &&& 3 = n.toNat % 4 := Nat.and_two_pow_sub_one_eq_mod _ 2
    have hmask : (3#16).toNat = 3 := rfl
    rw [BitVec.toNat_ofNat, BitVec.toNat_and, hmask, hand, rpl]
    omega
  rw [withRpl, hlow]

theorem arpl_run {m r l} {s s1 : State} (hm : s.prot = true) (hl : locate .w m .rw s = .ok l s1) :
    arpl m r s = .ok ()
      (if rpl (l.value .w s1) < rpl (s.reg .w r) then
        l.put .w ((l.value .w s1 &&& 0xFFFC#16) ||| (s.reg .w r &&& 3#16)) (s1.withZf true)
      else s1.withZf false) := by
  simp only [arpl, M.bind_run, prot_run hm, hl, Loc.read_run, getReg_run, locate_reg hl, M.ite_run, setZf_run,
    Loc.write_run, withRpl_rpl]
  split <;> rfl

/-- Settles O38, from the two outcomes of each test and from `arpl_run`. -/
theorem selectorTests : Obligations.SelectorTests := by
  refine ⟨fun s r m l s1 hp hm hl => ?_, fun s m r l s1 hp hm hl => run_ok hp (arpl_run hm hl)⟩
  have hsel : readWord m s = .ok (l.value .w s1) s1 := readRm_run hl
  have hs : Still s s1 := locate_still hl
  refine ⟨fun t h => run_ok hp (lar_fails hm hsel h), fun t h => run_ok hp (lsl_fails hm hsel h),
    fun t h => run_ok hp (verify_fails hm hsel h), fun t h => run_ok hp (verify_fails hm hsel h),
    fun d t h => ?lar, fun d t h => ?lsl,
    fun d t h => run_ok hp (verify_finds hm hsel h), fun d t h => run_ok hp (verify_finds hm hsel h)⟩
  case lar =>
    rw [← h.osz hs]
    exact run_ok hp (lar_finds hm hsel h)
  case lsl =>
    rw [← h.osz hs]
    exact run_ok hp (lsl_finds hm hsel h)

end Sys2Proof.Machine
end

section
/-! The flag instructions, the interrupt flag, and the instructions of level 0 (41_int R287 to R291, 44_int R440 to R448,
49_int R650, R652, R660): where they complete, and where they are #GP(0) (60_exceptions R732, R733). -/

namespace Sys2Proof.Machine

/-- Settles O6: the opcodes by the round trip of each instruction, the meanings by the one change of the flags each makes. -/
theorem flagInstructions : Obligations.FlagInstructions := by
  refine ⟨fun c rest => ?opcodes, fun s hp => ?meanings⟩
  case opcodes =>
    exact ⟨Laws.RoundTrip.clc c rest rfl nofun, Laws.RoundTrip.stc c rest rfl nofun, Laws.RoundTrip.cmc c rest rfl nofun,
      Laws.RoundTrip.cld c rest rfl nofun, Laws.RoundTrip.std c rest rfl nofun⟩
  case meanings =>
    have changes (f : Flags → Flags) : run (modifyFlags f) s = .next { s with flags := f s.flags }.retire :=
      run_ok hp (modifyFlags_run f s)
    exact ⟨changes _, changes _, changes _, changes _, changes _⟩

/-! ## The check of IOPL -/

theorem ioplCheck_run (s : State) : ioplCheck s =
    if s.pe = false ∨ s.curPl ≤ s.flags.iopl.toNat then .ok () s else .error (.exc (.gp 0)) s := by
  have hc : (s.pe = true ∧ s.flags.iopl.toNat < s.curPl) ↔ ¬ (s.pe = false ∨ s.curPl ≤ s.flags.iopl.toNat) := by
    rw [not_or, Bool.not_eq_false, Nat.not_le]
  simp only [ioplCheck, M.bind_run, M.get_run, raiseIf_run, Bool.and_eq_true, decide_eq_true_eq, hc, ite_not]

theorem ioplCheck_gp {α : Type} {s : State} (h : ¬ (s.pe = false ∨ s.curPl ≤ s.flags.iopl.toNat)) (f : Unit → M α) :
    (ioplCheck >>= f) s = .error (.exc (.gp 0)) s :=
  M.bind_run_error ((ioplCheck_run s).trans (if_neg h))

theorem cli_run {s : State} (h : s.pe = false ∨ s.curPl ≤ s.flags.iopl.toNat) :
    cli s = .ok () { s with flags := { s.flags with if_ := false } } := by
  simp only [cli, M.bind_run, ioplCheck_run, if_pos h, modifyFlags_run]

theorem sti_run {s : State} (h : s.pe = false ∨ s.curPl ≤ s.flags.iopl.toNat) :
    sti s = .ok () { s with flags := { s.flags with if_ := true }, shadow := if s.flags.if_ then s.shadow else .sti } := by
  simp only [sti, M.bind_run, ioplCheck_run, if_pos h, M.modify_run]

/-! ## The check of level 0 -/

theorem run_privileged {s : State} (hp : s.plain) (h : s.curPl = 0) (g : State → State) :
    run (privileged >>= fun _ => modify g) s = .next (g s).retire :=
  run_ok hp (by rw [M.bind_run, priv_run h]; rfl)

theorem invlpg_run {s : State} (h : s.curPl = 0) (a : Ea) :
    invlpg (.mem a) s = flushPage ((s.seg.get (s.eaSeg a)).base + s.gpr.eaOff a) s := by
  simp only [invlpg, needMem, M.bind_run, M.pure_run, priv_run h, M.get_run]

/-- Settles O32: CLI and STI by the two outcomes of the check of IOPL, the others past the check of level 0. -/
theorem supervisorResults : Obligations.SupervisorResults := by
  refine ⟨fun s hp => ?interruptFlag, fun s hp h => ?level0⟩
  case interruptFlag =>
    split
    case isTrue h => exact ⟨run_ok hp (cli_run h), run_ok hp (sti_run h)⟩
    case isFalse h => exact ⟨run_exc hp (ioplCheck_gp h _), run_exc hp (ioplCheck_gp h _)⟩
  case level0 =>
    exact ⟨run_privileged hp h _, run_privileged hp h _, run_ok hp (priv_run h), run_ok hp (priv_run h),
      fun a => run_ok hp (invlpg_run h a)⟩

/-! ## Instructions that IOPL below 3 stops in virtual-8086 mode -/

section
variable {s : State}

theorem v86_curPl (hv : s.v86 = true) : s.pe = true ∧ s.flags.vm = true ∧ s.curPl = 3 := by
  obtain ⟨hpe, hvm⟩ : s.pe = true ∧ s.flags.vm = true := by simpa [State.v86] using hv
  exact ⟨hpe, hvm, by simp [State.curPl, hpe, hvm]⟩

theorem v86_iopl_denies (hv : s.v86 = true) (hi : s.flags.iopl ≠ 3) :
    ¬ (s.pe = false ∨ s.curPl ≤ s.flags.iopl.toNat) := by
  obtain ⟨hpe, -, hpl⟩ := v86_curPl hv
  have hne : s.flags.iopl.toNat ≠ 3 := fun h => hi (BitVec.eq_of_toNat_eq h)
  have hlt := s.flags.iopl.isLt
  simp only [hpe, hpl, Bool.true_eq_false, false_or]
  omega

/-- PUSHF, POPF and INT n begin with this check. -/
theorem v86Check_gp {α : Type} (hv : s.v86 = true) (hi : s.flags.iopl ≠ 3) (f : Unit → M α) :
    (raiseIf (s.v86 && s.flags.iopl != 3#2) (.gp 0) >>= f) s = .error (.exc (.gp 0)) s := by
  have hc : (s.v86 && s.flags.iopl != 3#2) = true := by rw [hv, Bool.true_and]; exact bne_iff_ne.2 hi
  exact M.bind_run_error (by rw [raiseIf_run, if_pos hc])

theorem iretV86_gp (hi : s.flags.iopl ≠ 3) : iretV86 s = .error (.exc (.gp 0)) s := by
  have hc : (s.flags.iopl != 3#2) = true := bne_iff_ne.2 hi
  simp only [iretV86, M.bind_run, M.get_run, raiseIf_run, hc, if_true]

theorem iret_v86 (hv : s.v86 = true) : iret s = iretV86 { s with nmiBlocked := false } := by
  obtain ⟨hpe, hvm, -⟩ := v86_curPl hv
  have hreal : { s with nmiBlocked := false }.real = false := congrArg Bool.not hpe
  simp only [iret, M.bind_run, M.modify_run, M.get_run, M.ite_run, hreal, hvm, Bool.false_eq_true, if_false, if_true]

/-! ## Instructions that a level other than 0 stops -/

theorem privileged_gp {α : Type} (h : s.curPl ≠ 0) (f : Unit → M α) :
    (privileged >>= f) s = .error (.exc (.gp 0)) s := M.bind_run_error (priv_err h)

theorem invlpg_gp (h : s.curPl ≠ 0) (a : Ea) : invlpg (.mem a) s = .error (.exc (.gp 0)) s := privileged_gp h _

theorem readTable_gp {α : Type} (h : s.curPl ≠ 0) (a : Ea) (f : TableReg → M α) :
    (readTable (.mem a) >>= f) s = .error (.exc (.gp 0)) s := M.bind_run_error (privileged_gp h _)

theorem protOnly_privileged_gp {α : Type} (hm : s.prot = true) (h : s.curPl ≠ 0) (f : Unit → M α) :
    (protOnly >>= fun _ => privileged >>= f) s = .error (.exc (.gp 0)) s := by
  rw [M.bind_run, prot_run hm]; exact privileged_gp h f

theorem movCr_gp {n : Idx8} (h : s.curPl ≠ 0) (hn : (s.controlReg n).isSome = true) (r : Reg) :
    movCr (.fromSys r n) s = .error (.exc (.gp 0)) s ∧ movCr (.toSys n r) s = .error (.exc (.gp 0)) s := by
  obtain ⟨v, hv⟩ := Option.isSome_iff_exists.1 hn
  simp [movCr, hv, priv_err h]

theorem debugCheck_gp {n : Idx8} (h : s.curPl ≠ 0) (hn : (s.cr4De && isDr45 n) = false) :
    debugCheck n s = .error (.exc (.gp 0)) s := by
  simp only [debugCheck, M.bind_run, M.get_run, raiseIf_run, hn, Bool.false_eq_true, if_false, priv_err h]

theorem movDr_gp {n : Idx8} (h : s.curPl ≠ 0) (hn : (s.cr4De && isDr45 n) = false) (r : Reg) :
    movDr (.fromSys r n) s = .error (.exc (.gp 0)) s ∧ movDr (.toSys n r) s = .error (.exc (.gp 0)) s := by
  simp [movDr, debugCheck_gp h hn]

theorem rdtsc_gp (h : s.curPl ≠ 0) (ht : s.cr4Tsd = true) : rdtsc s = .error (.exc (.gp 0)) s := by
  simp [rdtsc, h, ht]

theorem rdpmc_gp (h : s.curPl ≠ 0) (hc : s.cr4Pce = false) : rdpmc s = .error (.exc (.gp 0)) s := by
  simp [rdpmc, h, hc]

end

/-- Settles O33: the case split of the instructions, each by the check that it begins with. -/
theorem privilegedInstructions : Obligations.PrivilegedInstructions := by
  refine ⟨fun s hp hv hi i h => ?v86, fun s hp hl i h => ?level⟩
  case v86 =>
    have iopl (f : Unit → M Unit) : run (ioplCheck >>= f) s = takeExc (.gp 0) (s.rollback s) :=
      run_exc hp (ioplCheck_gp (v86_iopl_denies hv hi) f)
    have iret : run iret s = takeExc (.gp 0) (s.rollback s) :=
      (run_exc hp ((iret_v86 hv).trans (iretV86_gp hi))).trans rfl
    rcases h with rfl | rfl | rfl | rfl | rfl | rfl | ⟨n, rfl⟩ | rfl | rfl
    · exact iopl _
    · exact iopl _
    · exact run_exc hp (v86Check_gp hv hi _)
    · exact run_exc hp (v86Check_gp hv hi _)
    · exact run_exc hp (v86Check_gp hv hi _)
    · exact run_exc hp (v86Check_gp hv hi _)
    · exact run_exc hp (v86Check_gp hv hi _)
    · exact iret
    · exact iret
  case level =>
    have level0 (f : Unit → M Unit) : run (privileged >>= f) s = takeExc (.gp 0) (s.rollback s) :=
      run_exc hp (privileged_gp hl f)
    rcases h with rfl | rfl | rfl | rfl | ⟨a, rfl⟩ | ⟨a, rfl⟩ | ⟨a, rfl⟩ | ⟨m, hm, rfl | rfl⟩ | ⟨m, rfl⟩ |
      ⟨n, r, hn, rfl | rfl⟩ | ⟨n, r, hn, rfl | rfl⟩ | rfl | rfl | ⟨rfl, ht⟩ | ⟨rfl, hc⟩
    · exact level0 _
    · exact level0 _
    · exact run_exc hp (priv_err hl)
    · exact run_exc hp (priv_err hl)
    · exact run_exc hp (invlpg_gp hl a)
    · exact run_exc hp (readTable_gp hl a _)
    · exact run_exc hp (readTable_gp hl a _)
    · exact run_exc hp (protOnly_privileged_gp hm hl _)
    · exact run_exc hp (protOnly_privileged_gp hm hl _)
    · exact level0 _
    · exact run_exc hp (movCr_gp hl hn r).1
    · exact run_exc hp (movCr_gp hl hn r).2
    · exact run_exc hp (movDr_gp hl hn r).1
    · exact run_exc hp (movDr_gp hl hn r).2
    · exact level0 _
    · exact level0 _
    · exact run_exc hp (rdtsc_gp hl ht)
    · exact run_exc hp (rdpmc_gp hl hc)

end Sys2Proof.Machine
end

section
/-! Near transfers, and the stack of flags and frames (41_int R280, R312; 45_int R471, R481; 48_int R602, R608, R615). -/

namespace Sys2Proof.Machine

/-! ## Near transfers -/

/-- A value of operand size is its own near target. -/
theorem nearTarget_value (s : State) (v : BitVec s.osz.bits) : s.nearTarget (v.setWidth 32) = v.setWidth 32 :=
  nearTarget_sz s.osz v s.os32 rfl

theorem readTarget_run {m l} {s s1 : State} (h : locate s.osz m .r s = .ok l s1) :
    readTarget m s = .ok ((l.value s.osz s1).setWidth 32) s1 := by
  simp only [readTarget, M.bind_run, M.get_run, readRm_run h, M.pure_run]

theorem callNear_run {t} {s u : State} (hc : s.seg.cs.codeOk (s.nearTarget t) = true)
    (hr : s.stackRoom s.osz.bytes = true) (hu : Pushes s.osz.bytes [s.npc.toNat] s u) :
    callNear t s = .ok () { u with npc := s.nearTarget t } := by
  simp only [callNear, M.bind_run, M.get_run, raiseIf_run, hc, hr, Bool.not_true, Bool.false_eq_true, if_false,
    pushN_run hu, setNpc_run]

theorem retNear_run {i : Word} {v} {s s1 : State} (h : Pops s.osz.bytes [v] s s1)
    (hc : s.seg.cs.codeOk (BitVec.ofNat 32 v) = true) :
    retNear i s = .ok () ({ s1 with npc := BitVec.ofNat 32 v }.setSp (s1.sp + i.setWidth 32)) := by
  simp only [retNear, M.bind_run, M.get_run, popN_run h, raiseIf_run, hc, Bool.not_true, Bool.false_eq_true, if_false,
    setNpc_run, M.modify_run]
  rfl

section
variable {m : Rm} {l : Loc} {s s1 : State}

/-- After an indirect target has been read, the limit of CS is checked as before it. -/
theorem jmpIndirect_run (h : locate s.osz m .r s = .ok l s1)
    (hc : s.seg.cs.codeOk ((l.value s.osz s1).setWidth 32) = true) :
    jmpForm (.rm m) s = .ok () { s1 with npc := (l.value s.osz s1).setWidth 32 } := by
  have hs := (locate_still h).seen
  simp only [jmpForm, M.bind_run, readTarget_run h, nearJump_run, nearTarget_seen hs, nearTarget_value, hs.seg, if_pos hc]

theorem callIndirect_run {u : State} (h : locate s.osz m .r s = .ok l s1)
    (hc : s.seg.cs.codeOk ((l.value s.osz s1).setWidth 32) = true) (hr : s.stackRoom s.osz.bytes = true)
    (hu : Pushes s.osz.bytes [s.npc.toNat] s1 u) :
    callForm (.rm m) s = .ok () { u with npc := (l.value s.osz s1).setWidth 32 } := by
  have hstill := locate_still h
  have hs := hstill.seen
  have ht : s1.nearTarget ((l.value s.osz s1).setWidth 32) = (l.value s.osz s1).setWidth 32 := by
    rw [nearTarget_seen hs, nearTarget_value]
  have hcall := callNear_run (t := (l.value s.osz s1).setWidth 32) (s := s1) (u := u) (by rw [ht, hs.seg]; exact hc)
    (by rw [hstill.room, hs.osz]; exact hr) (by rw [hs.osz, hs.npc]; exact hu)
  rw [ht] at hcall
  simp only [callForm, M.bind_run, readTarget_run h, hcall]

end

/-- Settles O22, from what each near transfer does past its checks. -/
theorem nearTransfers : Obligations.NearTransfers := by
  intro s hp
  refine ⟨fun d => ?short, fun d => ?rel, fun m l s1 hl => ⟨fun hc => ?jmp, fun u hc hr hu => ?call⟩,
    fun d u hc hr hu => ?callRel, fun i v s1 hv hc => ?ret⟩
  case short => exact jumps_of hp rfl nearJump_run rfl
  case rel => exact jumps_of hp rfl nearJump_run rfl
  case jmp => exact run_ok hp (jmpIndirect_run hl hc)
  case call => exact run_ok hp (callIndirect_run hl hc hr hu)
  case callRel => exact run_ok hp (callNear_run hc hr hu)
  case ret => exact run_ok hp (retNear_run hv hc)

/-! ## PUSHF and POPF -/

theorem v86Check_passes {s : State} (hv : s.v86 = true → s.flags.iopl = 3) : (s.v86 && s.flags.iopl != 3#2) = false := by
  cases h : s.v86
  · rfl
  · simp [hv h]

theorem pushFlags_run {s t : State} (hv : s.v86 = true → s.flags.iopl = 3) (hg : ¬ (s.real = true ∧ s.sp = 1))
    (h : Pushes s.osz.bytes [((s.flags.toDword &&& 0x00FCFFFF#32).setWidth s.osz.bits).toNat] s t) :
    pushFlags s = .ok () t := by
  simp only [pushFlags, M.bind_run, M.get_run, raiseIf_run, v86Check_passes hv, Bool.false_eq_true, if_false,
    pushValue_run hg h]

theorem Quiet.rfKept {s t : State} (h : Quiet s t) : t.rfKept = s.rfKept := by unfold Quiet at h; rw [h]

theorem popFlags_run {v} {s s1 : State} (hv : s.v86 = true → s.flags.iopl = 3) (h : Pops s.osz.bytes [v] s s1) :
    popFlags s = .ok () { s1 with
      flags := s.poppedFlags ((BitVec.ofNat s.osz.bits v).setWidth 32), rfKept := s.rfKept || s.os32 && !s.v86 } := by
  have hq := pops_quiet h
  rw [← mergeFlags_popped s _ hv, ← hq.rfKept, ← hq.seen.flags]
  simp only [popFlags, popSz, M.bind_run, M.get_run, raiseIf_run, v86Check_passes hv, Bool.false_eq_true, if_false,
    popN_run h, M.pure_run, modifyFlags_run, loadRf_run, M.ite_run]
  split <;> rfl

/-! ## ENTER and LEAVE -/

/-- At level 0 ENTER pushes the frame pointer only; above it, the display and the new frame pointer too. -/
theorem enter_run {size : Word} {level : Byte} {s s1 s2 s3 : State} (h1 : Pushes s.osz.bytes [s.gpr.ebp.toNat] s s1)
    (h0 : level.toNat % 32 = 0 → s3 = s1)
    (hn : level.toNat % 32 ≠ 0 →
      Display s.osz.bytes (level.toNat % 32 - 1) s.fp s1 s2 ∧ Pushes s.osz.bytes [s1.sp.toNat] s2 s3)
    (hroom : ((s3.setFp s1.sp).setSp (s3.sp - size.setWidth 32)).stackHas 1 = true) :
    enter size level s = .ok () ((s3.setFp s1.sp).setSp (s3.sp - size.setWidth 32)) := by
  rcases Decidable.em (level.toNat % 32 = 0) with h | h
  · obtain rfl := h0 h
    simp only [enter, M.bind_run, M.get_run, pushN_run h1, if_pos h, M.modify_run, raiseIf_run, hroom,
      Bool.not_true, Bool.false_eq_true, if_false]
  · obtain ⟨hdisplay, hframe⟩ := hn h
    simp only [enter, M.bind_run, M.get_run, pushN_run h1, if_neg h, display_run hdisplay, pushN_run hframe,
      M.modify_run, raiseIf_run, hroom, Bool.not_true, Bool.false_eq_true, if_false]

theorem leave_run {ps} {s s1 : State} (h : access .ss s.fp s.osz.bytes s.osz.bytes .r s = .ok ps s1) :
    leave s = .ok () ((s1.setSp (s.fp + BitVec.ofNat 32 s.osz.bytes)).setReg s.osz .ebp
      (BitVec.ofNat s.osz.bits (s1.at ps))) := by
  simp only [leave, M.bind_run, M.get_run, readSeg_run h, setSp_run, setReg_run]

/-- Settles O20, from what each of the four does where its accesses succeed. -/
theorem flagStackAndFrameResults : Obligations.FlagStackAndFrameResults := by
  refine ⟨fun s hp hv => ⟨fun t hg ht => ?pushf, fun v s1 h => ?popf⟩,
    fun s hp => ⟨fun size level s1 s2 s3 h1 h0 hn => ?enter, fun ps s1 h => run_ok hp (leave_run h)⟩⟩
  case pushf => exact ⟨run_ok hp (pushFlags_run hv hg ht), run_ok hp (pushFlags_run hv hg ht)⟩
  case popf => exact ⟨run_ok hp (popFlags_run hv h), run_ok hp (popFlags_run hv h)⟩
  case enter => exact fun hroom => run_ok hp (enter_run h1 h0 hn hroom)

end Sys2Proof.Machine
end

section
/-! MMX (41_int R311; 46_int R513, R514; 47_mmx R550 to R572): the shapes of the packed instructions, their elements, and
the moves. -/

namespace Sys2Proof.Machine

/-! ## Shapes -/

theorem packedHas_pack {w : Nat} {mk} {g g' : Int → BitVec (w / 2)} (hw : w = 16 ∨ w = 32)
    (hm : ∀ d src s, exec (mk d src) s = run (mmxOp 8 (pack w g) d src) s) (hg : ∀ x, g x = g' x) :
    packedHas mk 8 (narrows w g') := by
  obtain rfl : g = g' := funext hg
  exact packedHas_of hm (pack_narrows hw g)

theorem packedHas_unpack {n w : Nat} {high : Bool} {mk} (hw : w = 8 ∨ w = 16 ∨ w = 32)
    (hm : ∀ d src s, exec (mk d src) s = run (mmxOp n (unpack w high) d src) s) :
    packedHas mk n (interleaves w high) := packedHas_of hm (unpack_interleaves hw high)

theorem packedHas_bitwise {mk} (g : Qword → Qword → Qword)
    (hm : ∀ d src s, exec (mk d src) s = run (mmxOp 8 g d src) s) : packedHas mk 8 (fun a b r => r = g a b) :=
  packedHas_of hm fun _ _ => rfl

theorem mmxExit_run (s : State) : mmxExit s = .ok () { s with fpu := s.fpu.mmxLeft } := rfl

theorem mmxShiftImm_run {g : Qword → Nat → Qword} {d n} {s : State} (hr : s.mmxReady) :
    mmxShift g (.imm d n) s = .ok () { s with fpu := (s.fpu.setMm d (g (s.fpu.mm d) n.toNat)).mmxLeft } := by
  simp only [mmxShift, M.bind_run, mmxEntry_run hr, modifyFpu_run, mmxExit_run]

theorem mmxShift_rm (g : Qword → Nat → Qword) (d : Idx8) (src : MmRm) :
    mmxShift g (.rm d src) = mmxOp 8 (fun a b => g a b.toNat) d src := rfl

/-- A shift instruction from the shift of one element; the count is the source or the immediate. -/
theorem packedShiftHas_of {w : Nat} {mk} {f g : BitVec w → Nat → BitVec w} (hw : 0 < w) (h64 : (64 / w) * w ≤ 64)
    (hm : ∀ m s, exec (mk m) s = run (mmxShift (fun a n => ofLanes ((lanes w a).map fun x => f x n)) m) s)
    (hg : ∀ x n, f x n = g x n) : packedShiftHas mk w g := by
  have elems (a : Qword) (n i : Nat) (hi : i < 64 / w) :
      lane w (ofLanes ((lanes w a).map fun x => f x n)) i = g (lane w a i) n :=
    (shift_elem hw h64 _ a i hi).trans (hg _ n)
  refine ⟨packedHas_of (fun d src s => ?source) fun a b i hi => elems a b.toNat i hi, fun s d n hp hr => ?immediate⟩
  case source => rw [hm, mmxShift_rm]
  case immediate => exact ⟨_, elems (s.fpu.mm d) n.toNat, (hm _ s).trans (run_ok hp (mmxShiftImm_run hr))⟩

/-! ## Elements -/

theorem maskOf_decide {w : Nat} (p : Prop) [Decidable p] : maskOf w (decide p) = if p then BitVec.allOnes w else 0 := by
  by_cases h : p <;> simp [maskOf, h]

theorem maskOf_beq {w : Nat} (x y : BitVec w) : maskOf w (x == y) = if x = y then BitVec.allOnes w else 0 :=
  maskOf_decide (x = y)

theorem pmadd_lane (a b : Qword) : ∀ i < 2, lane 32 (pmadd a b) i = BitVec.ofInt 32
    ((lane 16 a (2 * i)).toInt * (lane 16 b (2 * i)).toInt +
      (lane 16 a (2 * i + 1)).toInt * (lane 16 b (2 * i + 1)).toInt)
  | 0, _ => lane_ofLanes (by decide) _ 0 (by simp) (by simp)
  | 1, _ => lane_ofLanes (by decide) _ 1 (by simp) (by simp)

/-- The double-width product of two words is their product as integers. -/
theorem signExtend_mul (x y : BitVec 16) :
    (x.signExtend 32 * y.signExtend 32 : BitVec 32) = BitVec.ofInt 32 (x.toInt * y.toInt) :=
  (BitVec.ofInt_mul ..).symm

theorem extract_ofInt_high (p : Int) : (BitVec.ofInt 32 p).extractLsb' 16 16 = BitVec.ofInt 16 (p / 65536) := by
  apply BitVec.eq_of_toNat_eq
  simp only [BitVec.extractLsb'_toNat, BitVec.toNat_ofInt, Nat.shiftRight_eq_div_pow]
  omega

theorem extract_ofInt_low (p : Int) : (BitVec.ofInt 32 p).extractLsb' 0 16 = BitVec.ofInt 16 p := by
  apply BitVec.eq_of_toNat_eq
  simp only [BitVec.extractLsb'_toNat, BitVec.toNat_ofInt, Nat.shiftRight_zero]
  omega

theorem mulHigh_eq (x y : BitVec 16) :
    mulHigh x y = (x.signExtend 32 * y.signExtend 32 : BitVec 32).extractLsb' 16 16 := by
  rw [signExtend_mul, extract_ofInt_high, mulHigh]

theorem mulLow_eq (x y : BitVec 16) : x * y = (x.signExtend 32 * y.signExtend 32 : BitVec 32).extractLsb' 0 16 := by
  rw [signExtend_mul, extract_ofInt_low, BitVec.ofInt_mul, BitVec.ofInt_toInt, BitVec.ofInt_toInt]

/-- Dividing by `2 ^ w` or by `2 ^ (w - 1)` leaves a number of `w` bits its sign only. -/
theorem toInt_div_width {w : Nat} (hw : w = 16 ∨ w = 32) (x : BitVec w) : x.toInt / 2 ^ (w - 1) = x.toInt / 2 ^ w := by
  have hlo := BitVec.le_toInt x
  have hhi := BitVec.toInt_lt (x := x)
  rcases hw with rfl | rfl <;> omega

theorem sshiftRight_min {w : Nat} (hw : w = 16 ∨ w = 32) (x : BitVec w) (n : Nat) :
    x.sshiftRight (min n (w - 1)) = BitVec.ofInt w (x.toInt / 2 ^ min n w) := by
  rw [BitVec.sshiftRight, Int.shiftRight_eq_div_pow]
  rcases Nat.lt_or_ge n w with h | h
  · rw [Nat.min_eq_left (by omega), Nat.min_eq_left (by omega)]; norm_cast
  · rw [Nat.min_eq_right (by omega), Nat.min_eq_right h, ← toInt_div_width hw]; norm_cast

/-! ## Moves and EMMS -/

section
variable {s s1 t : State}

theorem emms_run (hr : s.mmxReady) : emms s = .ok () { s with fpu := { s.fpu with tags := 0xFFFF } } := by
  simp only [emms, M.bind_run, mmxEntry_run hr, modifyFpu_run]
  rfl

theorem movd_toMm_run {d m l} (hr : s.mmxReady) (h : locate .d m .r s = .ok l s1) :
    movd (.toMm d m) s = .ok () { s1 with fpu := (s1.fpu.setMm d ((l.value .d s1).setWidth 64)).mmxLeft } := by
  simp only [movd, M.bind_run, mmxEntry_run hr, readRm_run h, modifyFpu_run, mmxExit_run]

theorem movd_fromMm_run {m i l} (hr : s.mmxReady) (h : locate .d m .w s = .ok l s1) :
    movd (.fromMm m i) s = .ok () { l.put .d ((s.fpu.mm i).setWidth 32) s1 with
      fpu := (l.put .d ((s.fpu.mm i).setWidth 32) s1).fpu.mmxLeft } := by
  simp only [movd, M.bind_run, mmxEntry_run hr, M.get_run, writeRm_run _ h, mmxExit_run]

theorem movq_load_run {d src b} (hr : s.mmxReady) (h : MmxSource 8 src s b t) :
    movq (.load d src) s = .ok () { t with fpu := (t.fpu.setMm d b).mmxLeft } := by
  simp only [movq, M.bind_run, mmxEntry_run hr, readMm_run h, modifyFpu_run, mmxExit_run]

theorem movq_storeReg_run {d i} (hr : s.mmxReady) :
    movq (.store (.reg d) i) s = .ok () { s with fpu := (s.fpu.setMm d (s.fpu.mm i)).mmxLeft } := by
  simp only [movq, M.bind_run, mmxEntry_run hr, M.get_run, modifyFpu_run, mmxExit_run]

theorem movq_storeMem_run {a i ps} (hr : s.mmxReady) (h : accessEa a 8 8 .w s = .ok ps t) :
    movq (.store (.mem a) i) s = .ok () { t.stored ps (s.fpu.mm i).toNat with
      fpu := (t.stored ps (s.fpu.mm i).toNat).fpu.mmxLeft } := by
  simp only [movq, writeEa, M.bind_run, mmxEntry_run hr, M.get_run, h, storeAt_run, mmxExit_run]

end

/-- Settles O49, family by family: the shape of each instruction, and what it does to an element. -/
theorem mmxResults : Obligations.MmxResults := by
  refine ⟨?packs, ?adds, ?subtracts, ?logic, ?compares, ?multiplies, ?unpacks, ?shifts, fun s hp hr => ?moves⟩
  case packs =>
    exact ⟨packedHas_pack (.inl rfl) (fun _ _ _ => rfl) (satS_clampS 8 (.inl rfl)),
      packedHas_pack (.inr rfl) (fun _ _ _ => rfl) (satS_clampS 16 (.inr rfl)),
      packedHas_pack (.inl rfl) (fun _ _ _ => rfl) (satU_clampU 8 (.inl rfl))⟩
  case adds =>
    exact ⟨packedHas_lanewise (by decide) (by decide) (fun _ _ _ => rfl) fun _ _ => rfl,
      packedHas_lanewise (by decide) (by decide) (fun _ _ _ => rfl) fun _ _ => rfl,
      packedHas_lanewise (by decide) (by decide) (fun _ _ _ => rfl) fun _ _ => rfl,
      packedHas_lanewise (by decide) (by decide) (fun _ _ _ => rfl) fun _ _ => satS_clampS 8 (.inl rfl) _,
      packedHas_lanewise (by decide) (by decide) (fun _ _ _ => rfl) fun _ _ => satS_clampS 16 (.inr rfl) _,
      packedHas_lanewise (by decide) (by decide) (fun _ _ _ => rfl) fun _ _ => satU_clampU 8 (.inl rfl) _,
      packedHas_lanewise (by decide) (by decide) (fun _ _ _ => rfl) fun _ _ => satU_clampU 16 (.inr rfl) _⟩
  case subtracts =>
    exact ⟨packedHas_lanewise (by decide) (by decide) (fun _ _ _ => rfl) fun _ _ => rfl,
      packedHas_lanewise (by decide) (by decide) (fun _ _ _ => rfl) fun _ _ => rfl,
      packedHas_lanewise (by decide) (by decide) (fun _ _ _ => rfl) fun _ _ => rfl,
      packedHas_lanewise (by decide) (by decide) (fun _ _ _ => rfl) fun _ _ => satS_clampS 8 (.inl rfl) _,
      packedHas_lanewise (by decide) (by decide) (fun _ _ _ => rfl) fun _ _ => satS_clampS 16 (.inr rfl) _,
      packedHas_lanewise (by decide) (by decide) (fun _ _ _ => rfl) fun _ _ => satU_clampU 8 (.inl rfl) _,
      packedHas_lanewise (by decide) (by decide) (fun _ _ _ => rfl) fun _ _ => satU_clampU 16 (.inr rfl) _⟩
  case logic =>
    exact ⟨packedHas_bitwise _ fun _ _ _ => rfl, packedHas_bitwise _ fun _ _ _ => rfl,
      packedHas_bitwise _ fun _ _ _ => rfl, packedHas_bitwise _ fun _ _ _ => rfl⟩
  case compares =>
    exact ⟨packedHas_lanewise (by decide) (by decide) (fun _ _ _ => rfl) maskOf_beq,
      packedHas_lanewise (by decide) (by decide) (fun _ _ _ => rfl) maskOf_beq,
      packedHas_lanewise (by decide) (by decide) (fun _ _ _ => rfl) maskOf_beq,
      packedHas_lanewise (by decide) (by decide) (fun _ _ _ => rfl) fun _ _ => maskOf_decide _,
      packedHas_lanewise (by decide) (by decide) (fun _ _ _ => rfl) fun _ _ => maskOf_decide _,
      packedHas_lanewise (by decide) (by decide) (fun _ _ _ => rfl) fun _ _ => maskOf_decide _⟩
  case multiplies =>
    exact ⟨packedHas_of (fun _ _ _ => rfl) pmadd_lane,
      packedHas_lanewise (by decide) (by decide) (fun _ _ _ => rfl) mulHigh_eq,
      packedHas_lanewise (by decide) (by decide) (fun _ _ _ => rfl) mulLow_eq⟩
  case unpacks =>
    exact ⟨packedHas_unpack (.inl rfl) fun _ _ _ => rfl, packedHas_unpack (.inr (.inl rfl)) fun _ _ _ => rfl,
      packedHas_unpack (.inr (.inr rfl)) fun _ _ _ => rfl, packedHas_unpack (.inl rfl) fun _ _ _ => rfl,
      packedHas_unpack (.inr (.inl rfl)) fun _ _ _ => rfl, packedHas_unpack (.inr (.inr rfl)) fun _ _ _ => rfl⟩
  case shifts =>
    exact ⟨packedShiftHas_of (by decide) (by decide) (fun _ _ => rfl) shiftLeft_min,
      packedShiftHas_of (by decide) (by decide) (fun _ _ => rfl) shiftLeft_min,
      packedShiftHas_of (by decide) (by decide) (fun _ _ => rfl) shiftLeft_min,
      packedShiftHas_of (by decide) (by decide) (fun _ _ => rfl) (sshiftRight_min (.inl rfl)),
      packedShiftHas_of (by decide) (by decide) (fun _ _ => rfl) (sshiftRight_min (.inr rfl)),
      packedShiftHas_of (by decide) (by decide) (fun _ _ => rfl) shiftRight_min,
      packedShiftHas_of (by decide) (by decide) (fun _ _ => rfl) shiftRight_min,
      packedShiftHas_of (by decide) (by decide) (fun _ _ => rfl) shiftRight_min⟩
  case moves =>
    exact ⟨run_ok hp (emms_run hr), fun d m l s1 h => run_ok hp (movd_toMm_run hr h),
      fun m i l s1 h => run_ok hp (movd_fromMm_run hr h), fun d src b t h => run_ok hp (movq_load_run hr h),
      fun d i => run_ok hp (movq_storeReg_run hr), fun a i ps t h => run_ok hp (movq_storeMem_run hr h)⟩

end Sys2Proof.Machine
end

section
/-! IRET (44_int R449 to R454): which of the returns it makes, and each of them from the state it pops from. -/

namespace Sys2Proof.Machine

theorem completes_iret {s t : State} (hp : s.plain) (h : iret s = .ok () t) :
    completes .iret s t ∧ completes .iretd s t := ⟨run_ok hp h, run_ok hp h⟩

section
variable {ip cs fl : Nat} {s s1 : State}

/-! ## Real-address and virtual-8086 mode -/

theorem iret_real (h : s.real = true) : iret s = iretReal { s with nmiBlocked := false } := by
  have hreal : { s with nmiBlocked := false }.real = true := h
  simp only [iret, M.bind_run, M.modify_run, M.get_run, M.ite_run, hreal, if_true]

theorem real_modes (h : s.real = true) : s.prot = false ∧ s.v86 = false := by
  have hpe : s.pe = false := by simpa [State.real] using h
  simp [State.prot, State.v86, hpe]

theorem v86_of_not_real (hp : s.prot = false) (hr : ¬ s.real = true) : s.v86 = true := by
  have hpe : s.pe = true := by simpa [State.real] using hr
  simpa [State.prot, State.v86, hpe] using hp

theorem iretReal_run (h : s.real = true) (hh : s.stackHas (3 * s.osz.bytes) = true)
    (hpop : Pops s.osz.bytes [ip, cs, fl] s s1) (hc : s.seg.cs.codeOk (BitVec.ofNat 32 ip) = true) :
    iretReal s = .ok () { s1.return86 (BitVec.ofNat 16 cs) (BitVec.ofNat 32 ip) with
      flags := s.iretFlags (BitVec.ofNat 32 fl), rfKept := s.rfKept || s.os32 } := by
  have hq := pops_quiet hpop
  obtain ⟨hprot, hv⟩ := real_modes h
  have hflags := iret_merge_np s (BitVec.ofNat 32 fl) (by simp [hv]) hprot
  rw [hv, if_neg Bool.false_ne_true, ← hq.seen.flags] at hflags
  rw [← hflags, ← hq.rfKept]
  simp only [iretReal, M.bind_run, M.get_run, popFrame_run hh hpop, raiseIf_run, hc, Bool.not_true, Bool.false_eq_true,
    if_false, return86_run, setNpc_run, loadRf_run, modifyFlags_run]
  rfl

theorem iretV86_run (h : s.v86 = true) (hi : s.flags.iopl = 3) (hh : s.stackHas (3 * s.osz.bytes) = true)
    (hpop : Pops s.osz.bytes [ip, cs, fl] s s1) (hc : s.seg.cs.codeOk (BitVec.ofNat 32 ip) = true) :
    iretV86 s = .ok () { s1.jump86 (BitVec.ofNat 16 cs) (BitVec.ofNat 32 ip) with
      flags := s.iretFlags (BitVec.ofNat 32 fl), rfKept := s.rfKept || s.os32 } := by
  have hq := pops_quiet hpop
  have hprot : s.prot = false := by
    obtain ⟨-, hvm, -⟩ := v86_curPl h
    simp [State.prot, hvm]
  have hflags := iret_merge_np s (BitVec.ofNat 32 fl) (fun _ => hi) hprot
  rw [h, if_pos rfl, ← hq.seen.flags] at hflags
  rw [← hflags, ← hq.rfKept]
  have hiopl : (s.flags.iopl != 3#2) = false := by rw [hi]; rfl
  simp only [iretV86, M.bind_run, M.get_run, raiseIf_run, hiopl, hc, Bool.not_true, Bool.false_eq_true, if_false,
    popFrame_run hh hpop, load86_run, setNpc_run, loadRf_run, modifyFlags_run]
  rfl

/-! ## Protected mode -/

section
variable (hp : s.prot = true) (hnt : s.flags.nt = false) (hh : s.stackHas (3 * s.osz.bytes) = true)
  (hpop : Pops s.osz.bytes [ip, cs, fl] { s with nmiBlocked := false } s1)
include hp hnt hh hpop

/-- Past its frame, IRET in protected mode returns to virtual-8086 mode where the image has VM set and the level is
0. -/
theorem iret_prot : iret s = (if (BitVec.ofNat 32 fl).getLsbD 17 && s.curPl == 0
      then iretToV86 (BitVec.ofNat 32 ip) (BitVec.ofNat 16 cs) (BitVec.ofNat 32 fl)
      else iretProt s.gpr.esp (BitVec.ofNat 32 ip) (BitVec.ofNat 16 cs) (BitVec.ofNat 32 fl)) s1 := by
  obtain ⟨hreal, hvm, -⟩ := v86_prot s hp
  have hreal' : { s with nmiBlocked := false }.real = false := hreal
  have hframe : popFrame { s with nmiBlocked := false }.osz.bytes { s with nmiBlocked := false } = _ :=
    popFrame_run hh hpop
  simp only [iret, M.bind_run, M.modify_run, M.get_run, M.ite_run, hreal', hvm, hnt, hframe, Bool.false_eq_true,
    if_false]
  rfl

theorem iret_prot_stays (hvm : ((BitVec.ofNat 32 fl).getLsbD 17 && s.curPl == 0) = false) :
    iret s = iretProt s.gpr.esp (BitVec.ofNat 32 ip) (BitVec.ofNat 16 cs) (BitVec.ofNat 32 fl) s1 := by
  rw [iret_prot hp hnt hh hpop, hvm, if_neg Bool.false_ne_true]

theorem iret_prot_toV86 (hvm : (BitVec.ofNat 32 fl).getLsbD 17 = true) (hpl : s.curPl = 0) :
    iret s = iretToV86 (BitVec.ofNat 32 ip) (BitVec.ofNat 16 cs) (BitVec.ofNat 32 fl) s1 := by
  rw [iret_prot hp hnt hh hpop, hvm, hpl]
  rfl

end

end

/-- Loading CS after EIP has been set: EIP stays what it was set to. -/
theorem loadCs_enters {sel : Word} {d : Desc} {pl : Nat} {t : Dword} {u v : State}
    (h : setAccessed d { u with npc := t } = .ok () v) :
    loadCs sel d pl { u with npc := t } = .ok () (v.enterCs sel d pl t) := by
  have hnpc : v.npc = t := (setAccessed_still h).seen.npc
  rw [loadCs_run h t hnpc, hnpc]
  rfl

/-- Setting EIP and the accessed bit of the return code segment changes neither EFLAGS nor the latch of RF. -/
theorem Quiet.accessed {d : Desc} {t : Dword} {s u v : State} (hq : Quiet s u)
    (h : setAccessed d { u with npc := t } = .ok () v) : v.flags = s.flags ∧ v.rfKept = s.rfKept := by
  have hv := (setAccessed_still h).quiet
  exact ⟨hv.seen.flags.trans hq.seen.flags, hv.rfKept.trans hq.rfKept⟩

section
variable {old t f : Dword} {sel : Word} {d : Desc} {s s2 : State}

theorem iretProt_sameLevel_run {s3 : State} (hp : s.prot = true) (hd : readDesc sel s = .ok (some d) s2)
    (hok : s.returnOk sel d) (hc : (d.seg sel).codeOk t = true) (hpl : rpl sel = s.curPl)
    (ha : setAccessed d { s2 with npc := t } = .ok () s3) :
    iretProt old t sel f s = .ok () { s3.enterCs sel d s.curPl t with
      flags := s.iretFlags f, rfKept := s.rfKept || s.os32 } := by
  obtain ⟨hflags, hrf⟩ := (readDesc_still hd).quiet.accessed ha
  simp only [iretProt, M.bind_run, M.get_run, returnDesc_run hd hok, hpl, Nat.lt_irrefl, if_false, raiseIf_run, hc,
    Bool.not_true, Bool.false_eq_true, setNpc_run, loadCs_enters ha, loadRf_run, modifyFlags_run, State.enterCs_flags,
    hflags, State.enterCs_rfKept, hrf, iret_merge_p s f hp]

theorem iretProt_outerLevel_run {esp ss : Nat} {sd : Desc} {s3 s4 s5 s6 : State} (hp : s.prot = true)
    (hd : readDesc sel s = .ok (some d) s2) (hok : s.returnOk sel d) (hc : (d.seg sel).codeOk t = true)
    (hpl : s.curPl < rpl sel) (hh : s.stackHas (2 * s.osz.bytes) = true) (hpop : Pops s.osz.bytes [esp, ss] s2 s3)
    (hsd : readDesc (BitVec.ofNat 16 ss) s3 = .ok (some sd) s4) (hstack : returnStackOk (BitVec.ofNat 16 ss) sel sd)
    (ha : setAccessed d { s4 with npc := t } = .ok () s5)
    (hb : setAccessed sd { s5.enterCs sel d (rpl sel) t with
      flags := s.iretFlags f, rfKept := s.rfKept || s.os32, fresh := s5.fresh + 1 } = .ok () s6) :
    iretProt old t sel f s = .ok () { s6 with
      seg := { s6.seg with ss := sd.loaded (BitVec.ofNat 16 ss) }.forLevel (rpl sel)
      gpr := { s6.gpr with
        esp := outerEsp s.os32 sd old (Config.freeDword s5.fresh) (BitVec.ofNat 32 esp) } } := by
  have hq : Quiet s s4 := ((readDesc_still hd).quiet.trans (pops_quiet hpop)).trans (readDesc_still hsd).quiet
  obtain ⟨hflags, hrf⟩ := hq.accessed ha
  obtain ⟨s2', hesp, hpop⟩ := pops_cons hpop
  have houter := setOuter_run (os := s.os32) (ss := BitVec.ofNat 16 ss) (old := old) (esp := BitVec.ofNat 32 esp)
    (s := { s5.enterCs sel d (rpl sel) t with flags := s.iretFlags f, rfKept := s.rfKept || s.os32 }) hb
  dsimp only at houter
  simp only [iretProt, M.bind_run, M.get_run, returnDesc_run hd hok, hpl, if_true, raiseIf_run, hh, hesp, popN_run hpop,
    returnStack_run hsd hstack, hc, Bool.not_true, Bool.false_eq_true, if_false, setNpc_run, loadCs_enters ha,
    loadRf_run, modifyFlags_run, State.enterCs_flags, hflags, State.enterCs_rfKept, hrf, iret_merge_p s f hp, houter,
    cleanSegs_run]
  rfl

end

/-! ## To virtual-8086 mode -/

theorem loadV86_run (r : SReg) (sel : Word) (s : State) :
    loadV86 r sel s = .ok () { s with seg := s.seg.set r ((s.seg.get r).load86 true sel) } := rfl

theorem iretToV86_run {t f : Dword} {sel : Word} {esp ss es ds fs gs : Nat} {s s2 : State}
    (hh : s.stackHas 24 = true) (ht : t.toNat ≤ 0xFFFF) (hpop : Pops 4 [esp, ss, es, ds, fs, gs] s s2) :
    iretToV86 t sel f s = .ok () { s2 with
      flags := .ofDword f, rfKept := true, cpl := 3, npc := t, gpr := { s2.gpr with esp := BitVec.ofNat 32 esp }
      seg := { es := s2.seg.es.load86 true (BitVec.ofNat 16 es), cs := s2.seg.cs.load86 true sel
               ss := s2.seg.ss.load86 true (BitVec.ofNat 16 ss), ds := s2.seg.ds.load86 true (BitVec.ofNat 16 ds)
               fs := s2.seg.fs.load86 true (BitVec.ofNat 16 fs), gs := s2.seg.gs.load86 true (BitVec.ofNat 16 gs) } } := by
  obtain ⟨u1, hesp, hpop⟩ := pops_cons hpop
  obtain ⟨u2, hss, hpop⟩ := pops_cons hpop
  obtain ⟨u3, hes, hpop⟩ := pops_cons hpop
  obtain ⟨u4, hds, hpop⟩ := pops_cons hpop
  obtain ⟨u5, hfs, hpop⟩ := pops_cons hpop
  simp only [iretToV86, M.bind_run, M.get_run, raiseIf_run, hh, Bool.not_true, decide_eq_false (Nat.not_lt.2 ht),
    Bool.false_eq_true, if_false, hesp, hss, hes, hds, hfs, popN_run hpop, M.modify_run, loadV86_run]
  rfl

/-- What IRET computes with after its frame has been popped is as it was when it began. -/
theorem popped_seen {n : Nat} {vs : List Nat} {s s1 : State} (h : Pops n vs { s with nmiBlocked := false } s1) :
    Seen s s1 ∧ s1.rfKept = s.rfKept ∧ ∀ v, s1.iretFlags v = s.iretFlags v := by
  have hq := pops_quiet h
  have hs : Seen s s1 := { hq.seen with }
  refine ⟨hs, hq.rfKept, fun v => ?_⟩
  simp only [State.iretFlags, hs.flags, hs.curPl, hs.os32, hs.prot]

/-- Settles O27: the four returns, by the mode IRET is in, VM of the image and the level it returns to. -/
theorem interruptReturns : Obligations.InterruptReturns := by
  intro s ip cs fl s1 hp hh hv hnt hpop
  obtain ⟨hseen, hrf, hflags⟩ := popped_seen hpop
  refine ⟨fun hprot hc => ?mode86, fun hprot hvm d s2 hd hok hc => ⟨fun s3 hpl ha => ?sameLevel,
    fun esp ss s3 sd s4 s5 s6 hpl hstack hpop2 hsd hok2 ha hb => ?outerLevel⟩,
    fun hprot hvm hpl hstack ht esp ss es ds fs gs s2 hpop2 => ?toV86⟩
  case mode86 =>
    split
    case isTrue hr => exact completes_iret hp ((iret_real hr).trans (iretReal_run hr hh hpop hc))
    case isFalse hr =>
      have hv86 := v86_of_not_real hprot hr
      exact completes_iret hp ((iret_v86 hv86).trans (iretV86_run hv86 (hv hv86) hh hpop hc))
  case sameLevel =>
    have hret := iretProt_sameLevel_run (old := s.gpr.esp) (f := BitVec.ofNat 32 fl) (hseen.prot.trans hprot) hd
      (returnOk_q hseen hok) hc (hpl.trans hseen.curPl.symm) ha
    rw [hseen.curPl, hflags, hrf, hseen.os32] at hret
    exact completes_iret hp ((iret_prot_stays hprot (hnt hprot) hh hpop hvm).trans hret)
  case outerLevel =>
    have hret := iretProt_outerLevel_run (old := s.gpr.esp) (f := BitVec.ofNat 32 fl) (hseen.prot.trans hprot) hd
      (returnOk_q hseen hok) hc (by rw [hseen.curPl]; exact hpl)
      (by rw [hseen.osz, ← (readDesc_still hd).has]; exact hstack) (by rw [hseen.osz]; exact hpop2) hsd hok2 ha
      (by rw [hflags, hrf, hseen.os32]; exact hb)
    rw [hseen.os32] at hret
    exact completes_iret hp ((iret_prot_stays hprot (hnt hprot) hh hpop hvm).trans hret)
  case toV86 =>
    exact completes_iret hp ((iret_prot_toV86 hprot (hnt hprot) hh hpop hvm hpl).trans (iretToV86_run hstack ht hpop2))

end Sys2Proof.Machine
end

section
/-! Delivering an event (60_exceptions R710 to R715, R720): taken from outside, or raised by an instruction (44_int R446,
49_int R657). -/

namespace Sys2Proof.Machine

theorem takeEvent_delivers {n : Nat} {ev : Event} {s t : State} (h : Delivers ev { s with adLog := [] } t) :
    takeEvent (n + 1) ev s = .next { t with eip := t.npc, adLog := [] } := by
  simp only [takeEvent, deliver_ok h]

/-- A meaning that ends in a software interrupt is finished by its delivery. -/
theorem run_software {m : M Unit} {v : Byte} {s t : State} (hp : s.plain) (hm : m s = .error (.software v) s)
    (h : Delivers { vector := v, kind := .software, err := none } { s with adLog := [] } t) :
    run m s = .next { t with eip := t.npc, adLog := [] } := by
  obtain ⟨hlock, hrep⟩ := hp
  have hrun : run m s = finish s (m s) := by simp [run, runWith, hlock, hrep, RepUse.allows]
  rw [hrun, hm]
  exact takeEvent_delivers h

theorem intBody_run {s : State} (hv : s.v86 = true → s.flags.iopl = 3) (v : Byte) :
    intBody v s = .error (.software v) s := by
  simp only [intBody, softInt, M.bind_run, M.get_run, raiseIf_run, v86Check_passes hv, Bool.false_eq_true, if_false,
    M.throw_run]

theorem intoBody_run (s : State) : intoBody s = if s.flags.of_ then .error (.software 4) s else .ok () s := by
  simp only [intoBody, softInt, M.bind_run, M.get_run, M.ite_run, M.throw_run, M.pure_run]

/-- #UD records nothing besides its delivery. -/
theorem record_ud (s : State) : s.record .ud = s := by
  simp [State.record, Exc.ud, Exc.plain]

theorem takeExc_ud_delivers {s t : State}
    (h : Delivers { vector := 6, kind := .exception true, err := none } { s with adLog := [] } t) :
    takeExc .ud s = .next { t with eip := t.npc, adLog := [] } := by
  rw [takeExc, record_ud]
  exact takeEvent_delivers h

/-- Settles O28: what delivery does where it succeeds (`deliver_ok`), reached from outside, by a software interrupt and by
#UD. -/
theorem eventDelivery : Obligations.EventDelivery := by
  refine ⟨⟨fun n ev s t h => takeEvent_delivers h, fun s t v hp h => ?software, fun s hp ho => ?noOverflow⟩,
    fun s => ⟨rfl, rfl, rfl, fun _ => rfl, fun t h => takeExc_ud_delivers h⟩⟩
  case software =>
    refine ⟨fun hv => run_software hp (intBody_run hv v) h, ?int3, ?into⟩
    case int3 =>
      rintro rfl
      exact run_software hp rfl h
    case into =>
      rintro rfl ho
      exact run_software hp ((intoBody_run s).trans (if_pos ho)) h
  case noOverflow =>
    exact run_ok hp ((intoBody_run s).trans (if_neg (by simp [ho])))

end Sys2Proof.Machine
end

section
/-! LAHF and SAHF, the moves, and LTR of a null selector (45_int R477, R480, R489; 46_int R510, R516, R517; 49_int R640,
R664). -/

namespace Sys2Proof.Machine

/-! ## LAHF and SAHF -/

/-- The low byte of EFLAGS, bit by bit. -/
theorem Flags.toDword_low (f : Flags) : f.toDword.extractLsb' 0 8 =
    BitVec.ofBool f.sf ++ BitVec.ofBool f.zf ++ 0#1 ++ BitVec.ofBool f.af ++ 0#1 ++ BitVec.ofBool f.pf ++ 1#1 ++
      BitVec.ofBool f.cf := by
  apply BitVec.eq_of_getLsbD_eq
  intro i hi
  have hbit : i = 0 ∨ i = 1 ∨ i = 2 ∨ i = 3 ∨ i = 4 ∨ i = 5 ∨ i = 6 ∨ i = 7 := by omega
  rw [BitVec.getLsbD_extractLsb', Flags.toDword_bit]
  simp only [BitVec.getLsbD_append, BitVec.getLsbD_ofBool]
  rcases hbit with rfl | rfl | rfl | rfl | rfl | rfl | rfl | rfl <;> simp

theorem lahf_run (s : State) : lahf s = .ok () (s.setReg .b .esp
    (BitVec.ofBool s.flags.sf ++ BitVec.ofBool s.flags.zf ++ 0#1 ++ BitVec.ofBool s.flags.af ++ 0#1 ++
      BitVec.ofBool s.flags.pf ++ 1#1 ++ BitVec.ofBool s.flags.cf)) := by
  simp only [lahf, setAh, M.bind_run, M.get_run, setReg_run, Flags.toDword_low]

/-- The mask of SAHF is SF, ZF, AF, PF and CF; it keeps OF and the flags above. -/
theorem Flags.merge_ah (f : Flags) (ah : Byte) : f.merge (ah.setWidth 32) 0x000000D5#32 =
    { f with sf := ah.getLsbD 7, zf := ah.getLsbD 6, af := ah.getLsbD 4, pf := ah.getLsbD 2, cf := ah.getLsbD 0 } := by
  have hiopl : f.iopl &&& 3#2 = f.iopl := BitVec.and_allOnes
  rw [Flags.merge_eq]
  simp [hiopl]

theorem sahf_run (s : State) : sahf s = .ok () { s with flags := { s.flags with
    sf := (s.reg .b .esp).getLsbD 7, zf := (s.reg .b .esp).getLsbD 6, af := (s.reg .b .esp).getLsbD 4
    pf := (s.reg .b .esp).getLsbD 2, cf := (s.reg .b .esp).getLsbD 0 } } := by
  simp only [sahf, getAh, M.bind_run, getReg_run, modifyFlags_run, Flags.merge_ah]

/-- Settles O7: the opcodes by the round trip of each instruction, the meanings by `lahf_run` and `sahf_run`. -/
theorem flagsAndAh : Obligations.FlagsAndAh :=
  ⟨fun c rest => ⟨Laws.RoundTrip.lahf c rest rfl nofun, Laws.RoundTrip.sahf c rest rfl nofun⟩,
    fun s hp => ⟨run_ok hp (lahf_run s), run_ok hp (sahf_run s)⟩⟩

/-! ## Moves -/

section
variable {s s1 : State} {l : Loc} {m : Rm} {ps : List Nat}

theorem mov_rmR_run {w : Wd} {r : Reg} (h : locate (s.wd w) m .w s = .ok l s1) :
    movForm (.rmR w m r) s = .ok () (l.put (s.wd w) (s.reg (s.wd w) r) s1) := by
  simp only [movForm, M.bind_run, M.get_run, writeRm_run _ h]

theorem mov_rRm_run {w : Wd} {r : Reg} (h : locate (s.wd w) m .r s = .ok l s1) :
    movForm (.rRm w r m) s = .ok () (s1.setReg (s.wd w) r (l.value (s.wd w) s1)) := by
  simp only [movForm, M.bind_run, M.get_run, readRm_run h, setReg_run]

theorem mov_rmImm_run {w : Wd} {i : Dword} (h : locate (s.wd w) m .w s = .ok l s1) :
    movForm (.rmImm w m i) s = .ok () (l.put (s.wd w) (immSz (s.wd w) i) s1) := by
  simp only [movForm, M.bind_run, M.get_run, writeRm_run _ h]

theorem mov_accMoffs_run {w : Wd} {o : Dword}
    (h : access s.dsSeg o (s.wd w).bytes (s.wd w).bytes .r s = .ok ps s1) :
    movForm (.accMoffs w o) s = .ok () (s1.setReg (s.wd w) .eax (BitVec.ofNat (s.wd w).bits (s1.at ps))) := by
  simp only [movForm, M.bind_run, M.get_run, readSeg_run h, setReg_run]

theorem mov_moffsAcc_run {w : Wd} {o : Dword}
    (h : access s.dsSeg o (s.wd w).bytes (s.wd w).bytes .w s = .ok ps s1) :
    movForm (.moffsAcc w o) s = .ok () (s1.stored ps (s.reg (s.wd w) .eax).toNat) := by
  simp only [movForm, M.bind_run, M.get_run, writeSeg_run h]

theorem movExtend_run {signed : Bool} {w : Wd} {r : Reg} (h : locate (extSrc w) m .r s = .ok l s1) :
    movExtend signed w r m s = .ok () (s1.setReg s.osz r
      (if signed then (l.value (extSrc w) s1).signExtend s.osz.bits
        else (l.value (extSrc w) s1).setWidth s.osz.bits)) := by
  simp only [movExtend, M.bind_run, M.get_run, readRm_run h, setReg_run]

theorem lea_run (r : Reg) (a : Ea) (s : State) :
    lea r (.mem a) s = .ok () (s.setReg s.osz r ((s.gpr.eaOff a).setWidth s.osz.bits)) := by
  simp only [lea, needMem, M.bind_run, M.pure_run, M.get_run, setReg_run]

theorem xlat_run
    (h : access s.dsSeg (s.wrapA (s.regA .ebx + (s.reg .b .eax).setWidth 32)) 1 1 .r s = .ok ps s1) :
    xlat s = .ok () (s1.setReg .b .eax (BitVec.ofNat 8 (s1.at ps))) := by
  simp only [xlat, M.bind_run, M.get_run, readSeg_run h, setReg_run]

end

/-- Settles O15, form by form. -/
theorem moveResults : Obligations.MoveResults := by
  intro s hp
  refine ⟨fun w d r l s1 h => ?rmR, fun w r m l s1 h => ?rRm, fun w r i => ?rImm, fun w d i l s1 h => ?rmImm,
    fun w o ps s1 h => ?accMoffs, fun w o ps s1 h => ?moffsAcc, fun w r m l s1 h => ?extend, fun r a => ?lea,
    fun ps s1 h => ?xlat⟩
  case rmR => exact run_ok hp (mov_rmR_run h)
  case rRm => exact run_ok hp (mov_rRm_run h)
  case rImm => exact run_ok hp (setReg_run (s.wd w) r (immSz (s.wd w) i) s)
  case rmImm => exact run_ok hp (mov_rmImm_run h)
  case accMoffs => exact run_ok hp (mov_accMoffs_run h)
  case moffsAcc => exact run_ok hp (mov_moffsAcc_run h)
  case extend => exact ⟨run_ok hp (movExtend_run (signed := true) h), run_ok hp (movExtend_run (signed := false) h)⟩
  case lea => exact run_ok hp (lea_run r a s)
  case xlat => exact run_ok hp (xlat_run h)

/-! ## LTR of a null selector -/

/-- The model's LTR stops at a null selector, whatever entry 0 of the GDT holds. -/
theorem ltr_null_gp {m : Rm} {l : Loc} {s s1 : State} (hm : s.prot = true) (hc : s.curPl = 0)
    (hl : locate .w m .r s = .ok l s1) (hn : isNull (l.value .w s1) = true) :
    ltr m s = .error (.exc (.gp (l.value .w s1))) s1 := by
  simp only [ltr, readWord, M.bind_run, prot_run hm, priv_run hc, readRm_run hl, raiseIf_run, hn, Bool.true_or,
    if_true]

/-- Level 0 of protected mode, a null selector in AX, a GDT at 0 whose entry 0 is an available 32-bit TSS (only its type
byte is not 0), and an empty IDT, so that an exception leads to shutdown. -/
def nullTss : State :=
  { State.reset with cr0 := 0x60000011, idtr := { base := 0, limit := 0 }, mem := [(5, 0x89)] }

theorem nullTss_readDesc :
    readDesc 0 nullTss = .ok (some { addr := 0, raw := 0x0000890000000000 }) nullTss := rfl

theorem nullTss_markBusy : markBusy 0 true nullTss = .ok () { nullTss with mem := [(5, 0x8B)] } := rfl

theorem nullTss_ltr : exec (.ltr (.reg .eax)) nullTss = .next nullTss.shut := by
  have hsel : (Loc.reg .eax).value .w nullTss = 0 := rfl
  have hgp : ltr (.reg .eax) nullTss = .error (.exc (.gp 0)) nullTss := by
    rw [← hsel]
    exact ltr_null_gp rfl rfl rfl rfl
  calc exec (.ltr (.reg .eax)) nullTss
    _ = takeExc (.gp 0) (nullTss.rollback nullTss) := run_exc ⟨rfl, rfl⟩ hgp
    _ = .next nullTss.shut := rfl

/-- Refutes O35: its clause for LTR does not ask that the selector is not null, and the model answers a null selector
with #GP(0) where entry 0 of the GDT is an available TSS too. In `nullTss` the clause has LTR complete and leave the
processor running; the model shuts down. -/
theorem not_tableRegisterResults : ¬ Obligations.TableRegisterResults := by
  rintro ⟨-, hselector⟩
  obtain ⟨-, -, hload⟩ := hselector nullTss ⟨rfl, rfl⟩ rfl
  obtain ⟨-, hdesc⟩ := hload rfl (.reg .eax) (.reg .eax) nullTss rfl
  obtain ⟨-, hltr⟩ := hdesc rfl _ nullTss nullTss_readDesc rfl rfl
  have hcompletes := (hltr _ (.inr rfl) nullTss_markBusy).symm.trans nullTss_ltr
  have hactivity := congrArg State.activity (Host.Outcome.next.inj hcompletes)
  cases hactivity

end Sys2Proof.Machine
end

section
/-! Shifts and rotates as the loops of their pages (48_int R610, 49_int R641): what one turn does, and by induction what
the loop does after `n` turns. -/

namespace Sys2Proof.Machine

/-- The loop turns first or last alike. -/
theorem ShiftKind.loop_succ {w : Nat} (k : ShiftKind) : ∀ (n : Nat) (x : BitVec w × Bool),
    k.loop (n + 1) x = k.turn (k.loop n x)
  | 0, _ => rfl
  | n + 1, x => k.loop_succ n (k.turn x)

section
variable {w : Nat}

/-! ## The arithmetic of one turn -/

theorem two_toNat (w : Nat) : (2 : BitVec w).toNat = 2 % 2 ^ w := BitVec.toNat_ofNat ..

theorem double_eq_shiftLeft (a : BitVec w) : a * (2 : BitVec w) = a <<< 1 := by
  apply BitVec.eq_of_toNat_eq
  rw [BitVec.toNat_mul, two_toNat, Nat.mul_mod_mod, BitVec.toNat_shiftLeft, Nat.shiftLeft_eq, Nat.pow_one]

/-- Doubling makes room for a bit at the bottom. -/
theorem double_add_bit (a : BitVec w) (b : Bool) : a * 2 + BitVec.ofNat w (carryNat b) = a.shiftConcat b := by
  apply BitVec.eq_of_toNat_eq
  have hbit : carryNat b = b.toNat := by cases b <;> rfl
  rw [BitVec.toNat_shiftConcat, Nat.shiftLeft_eq, BitVec.toNat_add, BitVec.toNat_mul, two_toNat, BitVec.toNat_ofNat,
    hbit, Nat.mul_mod_mod, ← Nat.add_mod, Nat.pow_one]

theorem half_eq_ushiftRight (a : BitVec w) : BitVec.ofNat w (a.toNat / 2) = a >>> 1 := by
  apply BitVec.eq_of_toNat_eq
  have hlt : a.toNat / 2 < 2 ^ w := by omega
  rw [BitVec.toNat_ofNat, Nat.mod_eq_of_lt hlt, BitVec.toNat_ushiftRight, Nat.shiftRight_eq_div_pow,
    Nat.pow_one]

theorem half_eq_sshiftRight (a : BitVec w) : BitVec.ofInt w (a.toInt / 2) = a.sshiftRight 1 := by
  rw [BitVec.sshiftRight, Int.shiftRight_eq_div_pow, Nat.pow_one]
  rfl

theorem topBit_getLsbD (b : Bool) (i : Nat) (hi : i < w) :
    (BitVec.ofNat w (carryNat b * 2 ^ (w - 1))).getLsbD i = (decide (i = w - 1) && b) := by
  rw [BitVec.getLsbD_ofNat, decide_eq_true hi, Bool.true_and]
  cases b
  case false => simp [carryNat]
  case true => simp [carryNat, Nat.testBit_two_pow, eq_comm]

/-- Halving makes room for a bit at the top. -/
theorem half_add_top (a : BitVec w) (b : Bool) (i : Nat) (hi : i < w) :
    (BitVec.ofNat w (a.toNat / 2) + BitVec.ofNat w (carryNat b * 2 ^ (w - 1))).getLsbD i =
      if i = w - 1 then b else a.getLsbD (i + 1) := by
  have hempty : a.getLsbD (1 + (w - 1)) = false := BitVec.getLsbD_of_ge _ _ (by omega)
  have hdisjoint : a >>> 1 &&& BitVec.ofNat w (carryNat b * 2 ^ (w - 1)) = 0#w := by
    apply BitVec.eq_of_getLsbD_eq
    intro j hj
    rw [BitVec.getLsbD_and, topBit_getLsbD b j hj, BitVec.getLsbD_ushiftRight, BitVec.getLsbD_zero]
    by_cases h : j = w - 1
    · rw [h, hempty, Bool.false_and]
    · simp [h]
  rw [half_eq_ushiftRight, BitVec.add_eq_or_of_and_eq_zero _ _ hdisjoint, BitVec.getLsbD_or, topBit_getLsbD b i hi,
    BitVec.getLsbD_ushiftRight, Nat.add_comm 1 i]
  split
  case isTrue h => rw [h, Nat.add_comm, hempty]; simp
  case isFalse h => simp [h]

/-! ## Rotating bit by bit -/

theorem rotateLeft_getLsbD (a : BitVec w) {n i : Nat} (hn : n < w) (hi : i < w) :
    (a.rotateLeft n).getLsbD i = if i < n then a.getLsbD (w - n + i) else a.getLsbD (i - n) := by
  rw [BitVec.getLsbD_rotateLeft, Nat.mod_eq_of_lt hn, Bool.cond_decide, decide_eq_true hi, Bool.true_and]

theorem rotateRight_getLsbD (a : BitVec w) {n i : Nat} (hn : n < w) (hi : i < w) :
    (a.rotateRight n).getLsbD i = if i < w - n then a.getLsbD (n + i) else a.getLsbD (i - (w - n)) := by
  rw [BitVec.getLsbD_rotateRight, Nat.mod_eq_of_lt hn, Bool.cond_decide, decide_eq_true hi, Bool.true_and]

theorem rotateLeft_zero (a : BitVec w) : a.rotateLeft 0 = a := by
  have hout : a >>> w = 0#w := BitVec.ushiftRight_eq_zero (Nat.le_refl w)
  simp [BitVec.rotateLeft_def, hout]

theorem rotateRight_zero (a : BitVec w) : a.rotateRight 0 = a := by
  simp [BitVec.rotateRight_def]

theorem rotateLeft_one_getLsbD (a : BitVec w) {i : Nat} (hw : 1 < w) (hi : i < w) :
    (a.rotateLeft 1).getLsbD i = if i = 0 then a.msb else a.getLsbD (i - 1) := by
  rw [rotateLeft_getLsbD a hw hi, BitVec.msb_eq_getLsbD_last]
  by_cases h : i = 0 <;> simp [h]

theorem rotateRight_one_getLsbD (a : BitVec w) {i : Nat} (hw : 1 < w) (hi : i < w) :
    (a.rotateRight 1).getLsbD i = if i = w - 1 then a.getLsbD 0 else a.getLsbD (i + 1) := by
  rw [rotateRight_getLsbD a hw hi]
  by_cases h : i = w - 1
  · simp [h]
  · have hlt : i < w - 1 := by omega
    simp [h, hlt, Nat.add_comm]

theorem rotateLeft_succ (a : BitVec w) {n : Nat} (hn : n + 1 < w) :
    a.rotateLeft (n + 1) = (a.rotateLeft n).rotateLeft 1 := by
  apply BitVec.eq_of_getLsbD_eq
  intro i hi
  rw [rotateLeft_getLsbD a hn hi, rotateLeft_one_getLsbD _ (by omega) hi, BitVec.msb_eq_getLsbD_last,
    rotateLeft_getLsbD a (by omega) (by omega), rotateLeft_getLsbD a (by omega) (by omega)]
  grind

theorem rotateRight_succ (a : BitVec w) {n : Nat} (hn : n + 1 < w) :
    a.rotateRight (n + 1) = (a.rotateRight n).rotateRight 1 := by
  apply BitVec.eq_of_getLsbD_eq
  intro i hi
  rw [rotateRight_getLsbD a hn hi, rotateRight_one_getLsbD _ (by omega) hi]
  by_cases h : i = w - 1
  · rw [if_pos h, rotateRight_getLsbD a (i := 0) (by omega) (by omega)]
    grind
  · rw [if_neg h, rotateRight_getLsbD a (i := i + 1) (by omega) (by omega)]
    grind

/-! ## The carry on top of the operand -/

theorem withCarry_eq_cons (c : Bool) (a : BitVec w) : withCarry c a = BitVec.cons c a := by
  apply BitVec.eq_of_getLsbD_eq
  intro i hi
  simp only [withCarry, BitVec.getLsbD_setWidth, hi, BitVec.getLsbD_append, BitVec.getLsbD_cons, BitVec.getLsbD_ofBool]
  grind

/-- What RCL and RCR rotate (48_int R610): the operand and CF as one number. -/
def withCf (x : BitVec w × Bool) : BitVec (w + 1) := withCarry x.2 x.1

theorem withCf_setWidth (x : BitVec w × Bool) : (withCf x).setWidth w = x.1 := by
  rw [withCf, withCarry_eq_cons, BitVec.setWidth_cons]

theorem withCf_msb (x : BitVec w × Bool) : (withCf x).msb = x.2 := by
  rw [withCf, withCarry_eq_cons, BitVec.msb_cons]

/-! ## The operand and CF after one turn -/

theorem turn_rol (x : BitVec w × Bool) (hw : 1 < w) : (ShiftKind.rol.turn x).1 = x.1.rotateLeft 1 := by
  have hturn : (ShiftKind.rol.turn x).1 = x.1.shiftConcat x.1.msb := double_add_bit x.1 x.1.msb
  rw [hturn]
  apply BitVec.eq_of_getLsbD_eq
  intro i hi
  rw [rotateLeft_one_getLsbD _ hw hi, BitVec.getLsbD_shiftConcat, decide_eq_true hi, Bool.true_and]

theorem turn_ror (x : BitVec w × Bool) (hw : 1 < w) : (ShiftKind.ror.turn x).1 = x.1.rotateRight 1 := by
  apply BitVec.eq_of_getLsbD_eq
  intro i hi
  rw [rotateRight_one_getLsbD _ hw hi]
  exact half_add_top x.1 _ i hi

theorem turn_rcl (x : BitVec w × Bool) (hw : 0 < w) : withCf (ShiftKind.rcl.turn x) = (withCf x).rotateLeft 1 := by
  have hturn : ShiftKind.rcl.turn x = (x.1.shiftConcat x.2, x.1.msb) := by rw [← double_add_bit]; rfl
  apply BitVec.eq_of_getLsbD_eq
  intro i hi
  simp only [hturn, withCf, withCarry_eq_cons]
  rw [rotateLeft_one_getLsbD _ (by omega) hi, BitVec.msb_cons, BitVec.getLsbD_cons, BitVec.getLsbD_cons,
    BitVec.getLsbD_shiftConcat, BitVec.msb_eq_getLsbD_last]
  by_cases h : i = w
  · rw [if_pos h, if_neg (by omega), if_neg (by omega), h]
  · have hlt : i < w := by omega
    have hne : i - 1 ≠ w := by omega
    simp only [h, hlt, hne, if_false, decide_true, Bool.true_and]

theorem turn_rcr (x : BitVec w × Bool) (hw : 0 < w) : withCf (ShiftKind.rcr.turn x) = (withCf x).rotateRight 1 := by
  apply BitVec.eq_of_getLsbD_eq
  intro i hi
  simp only [withCf, withCarry_eq_cons]
  rw [rotateRight_one_getLsbD _ (by omega) hi, BitVec.getLsbD_cons, BitVec.getLsbD_cons, BitVec.getLsbD_cons,
    Nat.add_sub_cancel, if_neg (Nat.ne_of_lt hw)]
  by_cases h : i = w
  · rw [if_pos h, if_pos h]
    rfl
  · have hlt : i < w := by omega
    have hnext : i + 1 = w ↔ i = w - 1 := by omega
    rw [if_neg h, if_neg h]
    simp only [hnext]
    exact half_add_top x.1 x.2 i hlt

/-! ## The loops -/

/-- If one turn is one step of `g` on what `view` shows of the operand and CF, `n` turns are `n` steps. -/
theorem ShiftKind.loop_view {β : Type} (k : ShiftKind) {view : BitVec w × Bool → β} {g : β → Nat → β}
    {m : Nat} (hzero : ∀ y, g y 0 = y) (hsucc : ∀ y n, n + 1 < m → g y (n + 1) = g (g y n) 1)
    (hturn : ∀ x, view (k.turn x) = g (view x) 1) (x : BitVec w × Bool) :
    ∀ n < m, view (k.loop n x) = g (view x) n
  | 0, _ => (hzero _).symm
  | n + 1, hn => by
    rw [k.loop_succ, hturn, k.loop_view hzero hsucc hturn x n (Nat.lt_of_succ_lt hn), hsucc _ n hn]

theorem loop_rol {n : Nat} (hw : 1 < w) (hn : n < w) (x : BitVec w × Bool) :
    (ShiftKind.rol.loop n x).1 = x.1.rotateLeft n :=
  ShiftKind.loop_view .rol (view := Prod.fst) (g := BitVec.rotateLeft) rotateLeft_zero
    (fun y _ => rotateLeft_succ y) (turn_rol · hw) x n hn

theorem loop_ror {n : Nat} (hw : 1 < w) (hn : n < w) (x : BitVec w × Bool) :
    (ShiftKind.ror.loop n x).1 = x.1.rotateRight n :=
  ShiftKind.loop_view .ror (view := Prod.fst) (g := BitVec.rotateRight) rotateRight_zero
    (fun y _ => rotateRight_succ y) (turn_ror · hw) x n hn

theorem loop_rcl {n : Nat} (hw : 0 < w) (hn : n < w + 1) (x : BitVec w × Bool) :
    withCf (ShiftKind.rcl.loop n x) = (withCf x).rotateLeft n :=
  ShiftKind.loop_view .rcl (g := BitVec.rotateLeft) rotateLeft_zero
    (fun y _ => rotateLeft_succ y) (turn_rcl · hw) x n hn

theorem loop_rcr {n : Nat} (hw : 0 < w) (hn : n < w + 1) (x : BitVec w × Bool) :
    withCf (ShiftKind.rcr.loop n x) = (withCf x).rotateRight n :=
  ShiftKind.loop_view .rcr (g := BitVec.rotateRight) rotateRight_zero
    (fun y _ => rotateRight_succ y) (turn_rcr · hw) x n hn

theorem loop_shl (n : Nat) (x : BitVec w × Bool) : (ShiftKind.shl.loop n x).1 = x.1 <<< n :=
  ShiftKind.loop_view .shl (view := Prod.fst) (g := fun y n => y <<< n) BitVec.shiftLeft_zero
    (fun y n _ => BitVec.shiftLeft_add y n 1) (fun x => double_eq_shiftLeft x.1) x n (Nat.lt_succ_self n)

theorem loop_shr (n : Nat) (x : BitVec w × Bool) : (ShiftKind.shr.loop n x).1 = x.1 >>> n :=
  ShiftKind.loop_view .shr (view := Prod.fst) (g := fun y n => y >>> n) BitVec.ushiftRight_zero
    (fun y n _ => BitVec.shiftRight_add y n 1) (fun x => half_eq_ushiftRight x.1) x n (Nat.lt_succ_self n)

theorem loop_sar (n : Nat) (x : BitVec w × Bool) : (ShiftKind.sar.loop n x).1 = x.1.sshiftRight n :=
  ShiftKind.loop_view .sar (view := Prod.fst) (g := BitVec.sshiftRight) (fun _ => BitVec.sshiftRight_zero)
    (fun _ _ _ => BitVec.sshiftRight_add) (fun x => half_eq_sshiftRight x.1) x n (Nat.lt_succ_self n)

/-! CF of a shift is the bit that the last turn moves out. -/

theorem loop_shl_cf {n : Nat} (hn : n < w) (x : BitVec w × Bool) :
    (ShiftKind.shl.loop (n + 1) x).2 = x.1.getLsbD (w - (n + 1)) := by
  have hlast : (ShiftKind.shl.loop (n + 1) x).2 = (ShiftKind.shl.loop n x).1.msb := by rw [ShiftKind.loop_succ]; rfl
  have hindex : w - 1 - n = w - (n + 1) := by omega
  rw [hlast, loop_shl, BitVec.msb_shiftLeft, BitVec.getMsbD, decide_eq_true hn, Bool.true_and, hindex]

theorem loop_shr_cf (n : Nat) (x : BitVec w × Bool) : (ShiftKind.shr.loop (n + 1) x).2 = x.1.getLsbD n := by
  have hlast : (ShiftKind.shr.loop (n + 1) x).2 = (ShiftKind.shr.loop n x).1.getLsbD 0 := by
    rw [ShiftKind.loop_succ]; rfl
  rw [hlast, loop_shr, BitVec.getLsbD_ushiftRight, Nat.add_zero]

theorem loop_sar_cf {n : Nat} (hw : 0 < w) (x : BitVec w × Bool) :
    (ShiftKind.sar.loop (n + 1) x).2 = if w ≤ n + 1 then x.1.msb else x.1.getLsbD n := by
  have hlast : (ShiftKind.sar.loop (n + 1) x).2 = (ShiftKind.sar.loop n x).1.getLsbD 0 := by
    rw [ShiftKind.loop_succ]; rfl
  rw [hlast, loop_sar, BitVec.getLsbD_sshiftRight, Nat.add_zero, decide_eq_false (Nat.not_le.2 hw), Bool.not_false,
    Bool.true_and]
  by_cases hsign : n = w - 1
  · rw [hsign, ← BitVec.msb_eq_getLsbD_last, ite_self, ite_self]
  · have hlt : n < w ↔ ¬ w ≤ n + 1 := by omega
    simp only [hlt, ite_not]

end

/-- Settles O11, kind by kind: the result and the carry of each from its loop; CF of a shift, whose count is not 0, by
the last turn. -/
theorem shiftsAreLoops : Obligations.ShiftsAreLoops := by
  intro k sz a c free n hpos _ x
  have hw : 1 < sz.bits := by cases sz <;> decide
  have hw0 : 0 < sz.bits := Nat.lt_of_succ_lt hw
  obtain ⟨n, rfl⟩ := Nat.exists_eq_add_one.2 hpos
  cases k with
  | rol =>
    have hloop := loop_rol hw (Nat.mod_lt (n + 1) hw0) (a, c)
    exact ⟨hloop.symm, congrArg (BitVec.getLsbD · 0) hloop.symm⟩
  | ror =>
    have hloop := loop_ror hw (Nat.mod_lt (n + 1) hw0) (a, c)
    exact ⟨hloop.symm, congrArg BitVec.msb hloop.symm⟩
  | rcl =>
    have hloop := loop_rcl hw0 (Nat.mod_lt (n + 1) (Nat.succ_pos _)) (a, c)
    exact ⟨(congrArg (BitVec.setWidth _) hloop.symm).trans (withCf_setWidth x),
      (congrArg BitVec.msb hloop.symm).trans (withCf_msb x)⟩
  | rcr =>
    have hloop := loop_rcr hw0 (Nat.mod_lt (n + 1) (Nat.succ_pos _)) (a, c)
    exact ⟨(congrArg (BitVec.setWidth _) hloop.symm).trans (withCf_setWidth x),
      (congrArg BitVec.msb hloop.symm).trans (withCf_msb x)⟩
  | shl =>
    exact ⟨(loop_shl (n + 1) (a, c)).symm,
      ite_congr rfl (fun _ => rfl) fun h => (loop_shl_cf (by omega) (a, c)).symm⟩
  | shr =>
    exact ⟨(loop_shr (n + 1) (a, c)).symm, ite_congr rfl (fun _ => rfl) fun _ => (loop_shr_cf n (a, c)).symm⟩
  | sar => exact ⟨(loop_sar (n + 1) (a, c)).symm, (loop_sar_cf hw0 (a, c)).symm⟩

end Sys2Proof.Machine
end

section
/-! Far RET in protected mode (48_int R617, R618): past the frame and the checks on the return code segment, to the same
level and to an outer one. -/

namespace Sys2Proof.Machine

/-- The stack pointer looks at SS and at the general registers only. -/
theorem State.enterCs_setSp (s : State) (sel : Word) (d : Desc) (pl : Nat) (t n : Dword) :
    (s.enterCs sel d pl t).setSp ((s.enterCs sel d pl t).sp + n) = (s.enterCs sel d pl t).setSp (s.sp + n) := rfl

section
variable {src : Word} {ip cs : Nat} {d : Desc} {s s1 s2 : State}
  (hh : s.stackHas (2 * s.osz.bytes) = true) (hpop : Pops s.osz.bytes [ip, cs] s s1)
  (hd : readDesc (BitVec.ofNat 16 cs) s1 = .ok (some d) s2) (hok : s.returnOk (BitVec.ofNat 16 cs) d)
  (hc : (d.seg (BitVec.ofNat 16 cs)).codeOk (BitVec.ofNat 32 ip) = true)
include hh hpop hd hok hc

theorem retProt_sameLevel_run {s3 : State} (hpl : rpl (BitVec.ofNat 16 cs) = s.curPl)
    (ha : setAccessed d { s2 with npc := BitVec.ofNat 32 ip } = .ok () s3) :
    retProt src s = .ok () ((s3.enterCs (BitVec.ofNat 16 cs) d s.curPl (BitVec.ofNat 32 ip)).setSp
      (s3.sp + src.setWidth 32)) := by
  have hok1 := returnOk_q (pops_quiet hpop).seen hok
  obtain ⟨u, hip, hpop⟩ := pops_cons hpop
  simp only [retProt, M.bind_run, M.get_run, raiseIf_run, hh, hip, popN_run hpop, returnDesc_run hd hok1, hpl,
    Nat.lt_irrefl, if_false, hc, Bool.not_true, Bool.false_eq_true, setNpc_run, loadCs_enters ha, M.modify_run,
    State.enterCs_setSp]

theorem retProt_outerLevel_run {esp ss : Nat} {sd : Desc} {s3 s4 s5 s6 : State}
    (hpl : s.curPl < rpl (BitVec.ofNat 16 cs)) (hhas : s.stackHas (4 * s.osz.bytes + src.toNat) = true)
    (hpop2 : Pops s.osz.bytes [esp, ss] (s2.setSp (s2.sp + src.setWidth 32)) s3)
    (hsd : readDesc (BitVec.ofNat 16 ss) s3 = .ok (some sd) s4)
    (hstack : returnStackOk (BitVec.ofNat 16 ss) (BitVec.ofNat 16 cs) sd)
    (ha : setAccessed d { s4 with npc := BitVec.ofNat 32 ip } = .ok () s5)
    (hb : setAccessed sd { s5.enterCs (BitVec.ofNat 16 cs) d (rpl (BitVec.ofNat 16 cs)) (BitVec.ofNat 32 ip) with
      fresh := s5.fresh + 1 } = .ok () s6) :
    let u := { s6 with
      seg := { s6.seg with ss := sd.loaded (BitVec.ofNat 16 ss) }.forLevel (rpl (BitVec.ofNat 16 cs))
      gpr := { s6.gpr with
        esp := outerEsp s.os32 sd s.gpr.esp (Config.freeDword s5.fresh) (BitVec.ofNat 32 esp) } }
    retProt src s = .ok () (u.setSp (u.sp + src.setWidth 32)) := by
  have hok1 := returnOk_q (pops_quiet hpop).seen hok
  obtain ⟨u, hip, hpop⟩ := pops_cons hpop
  obtain ⟨v, hesp, hpop2⟩ := pops_cons hpop2
  have houter := setOuter_run (os := s.os32) (ss := BitVec.ofNat 16 ss) (old := s.gpr.esp) (esp := BitVec.ofNat 32 esp)
    (s := s5.enterCs (BitVec.ofNat 16 cs) d (rpl (BitVec.ofNat 16 cs)) (BitVec.ofNat 32 ip)) hb
  simp only [retProt, M.bind_run, M.get_run, raiseIf_run, hh, hip, popN_run hpop, returnDesc_run hd hok1, hpl, if_true,
    hhas, hc, Bool.not_true, Bool.false_eq_true, if_false, M.modify_run, hesp, popN_run hpop2,
    returnStack_run hsd hstack, setNpc_run, loadCs_enters ha, houter, cleanSegs_run]
  rfl

end

/-- Settles O26: the two returns past the common checks, by the level returned to. -/
theorem farReturns : Obligations.FarReturns := by
  intro s i ip cs s1 d s2 hp hprot hh hpop sel t n hd hok hc
  have hret {u : State} (h : retProt (i.getD 0) s = .ok () u) : completes (.ret (.far i)) s u :=
    run_ok hp (by simpa only [retForm, M.bind_run, M.get_run, M.ite_run, hprot, if_true] using h)
  exact ⟨fun s3 hpl ha => hret (retProt_sameLevel_run hh hpop hd hok hc hpl ha),
    fun esp ss s3 sd s4 s5 s6 hpl hhas hpop2 hsd hstack ha hb =>
      hret (retProt_outerLevel_run hh hpop hd hok hc hpl hhas hpop2 hsd hstack ha hb)⟩

end Sys2Proof.Machine
end
